-- ==== Sys2Proof/Word.lean ====
section
/-! DEFINITION. The word types of the ZW960 (spec/01 R3, spec/05 R54) and their plainest names. -/
namespace Sys2Proof

/-- One byte of memory (R3). -/
abbrev Byte := BitVec 8
/-- A register's 32-bit string (R54). -/
abbrev Word := BitVec 32
/-- A register pair's 64-bit string, an address or a counter (R54, R156). -/
abbrev DWord := BitVec 64
/-- A mask of the 64 lanes of a group, lane `l` at bit `l` (R119). -/
abbrev Lanes := BitVec 64
/-- One 32-bit value per lane of a group: a vector register (R74). -/
abbrev Row := Vector Word 64
/-- One 64-bit value per lane: what an operand supplies or an instruction computes (R78). -/
abbrev Row64 := Vector DWord 64
/-- A 128-byte line (R147), byte `k` at bits `8k+7` to `8k`. -/
abbrev Line := BitVec 1024
/-- A 64-byte record (packets, stop records, error-log records), bit 0 lowest. -/
abbrev Record := BitVec 512

end Sys2Proof
end

