-- ==== Sys2Proof/Syntax.lean ====
section
/-! DEFINITION. The operations of the ZW960: one constructor of `Instr` per row of the opcode table, the encoded
instructions of spec/04 R51 and the events and commands without an encoding. -/
namespace Sys2Proof

/-- Type codes 0 to 14 of spec/04 R37, in code order. -/
inductive Ty where
  | i32 | n32 | i64 | n64 | f32 | f16 | bf16 | f8e4 | f8e5 | f4 | i8x4 | n8x4 | i16x2 | b32 | b64
deriving DecidableEq, Repr

/-- The specials 960 to 967 of R39, in order. -/
inductive Special where
  | lane | grp | cid | cellx | celly | cellz | step | blk
deriving DecidableEq, Repr

/-- The direction of a neighbour specifier (R38). -/
inductive Dir where
  | east | west | north | south | up | down | self
deriving DecidableEq, Repr

/-- A ten-bit operand value (R38). `reserved` keeps the raw number of a value that R38 reserves. -/
inductive Opnd where
  | v (n : Fin 768)
  | nb (d : Dir) (k : Fin 16)
  | latch (n : Fin 8)
  | mq (n : Fin 4)
  | s (n : Fin 32)
  | zero
  | special (k : Special)
  | imm
  | reserved (raw : BitVec 10)
deriving DecidableEq, Repr

/-- Rounding modes (R50, R64). -/
inductive Rm where | rne | rtz | rdn | rup
deriving DecidableEq, Repr
/-- Integer comparisons (R50). -/
inductive Icc where | eq | ne | lt | le | gt | ge
deriving DecidableEq, Repr
/-- Floating-point comparisons (R50). -/
inductive Fcc where | eq | ne | lt | le | gt | ge | un | ord
deriving DecidableEq, Repr
/-- Atomic operations (R50). -/
inductive Aop where | add | min | max | and | or | xor | exch | cas
deriving DecidableEq, Repr
/-- Memory orders of atomics (R50). -/
inductive Ord where | rlx | acq | rel | ar
deriving DecidableEq, Repr
/-- Fence kinds (R50). -/
inductive FKind where | acq | rel | full
deriving DecidableEq, Repr
/-- Scopes (R50). -/
inductive Scope where | group | core | cluster | die | device | system
deriving DecidableEq, Repr
/-- Comparisons of a wait (R50). -/
inductive WCmp where | eq | ne | gtu
deriving DecidableEq, Repr
/-- VOTE forms (R137). -/
inductive VoteKind where | every | some | same | mask
deriving DecidableEq, Repr
/-- SHFL forms (R138). -/
inductive ShflKind where | lane | shift | rot | flip
deriving DecidableEq, Repr
/-- LRED operations (R139). -/
inductive LredOp where | add | min | max | and | or | xor
deriving DecidableEq, Repr
/-- Heir kinds (R186, R200). -/
inductive HKind where | group | block | parent | successor | none
deriving DecidableEq, Repr
/-- LD variants (R157). -/
inductive LdKind where | l1 | l2 | ev
deriving DecidableEq, Repr
/-- BOP operations (R258). -/
inductive BopKind where | add | mad | min | max
deriving DecidableEq, Repr
/-- Weight formats (R50 WFMT, R211). -/
inductive WFmt where | f4 | f8e4 | f8e5 | bf16
deriving DecidableEq, Repr

/-- The fields that every encoded word but REP's carries (R37): guard, operands, hints and IMM. -/
structure Enc where
  gn : Bool
  gp : Fin 8
  x : Opnd
  nw : Bool
  y : Opnd
  z : Opnd
  stall : Fin 16
  yld : Bool
  chn : Bool
  imm : Word
deriving DecidableEq, Repr

/-- Which unit a squall line reaches (R315). -/
inductive Unit' where
  | core (c : Nat)
  | matrix (cl : Nat)
  | fill (c : Nat)
  | estate (die : Nat)
  | lattice (die : Nat)
  | bte (q : Nat)
  | frontEnd
deriving DecidableEq, Repr

/-- What a slice or channel unit is asked for (R246): the oldest entry of a cluster write queue whose line has no
earlier one (by its place in the queue), or one line of a load that is out. -/
inductive SliceTarget where
  | write (cl idx : Nat)
  | read (core slot req line : Nat)
deriving DecidableEq, Repr

/-- What a partition owns (R337): clusters, slices and bank ways per die, HBM ranges (base, length), the mesh
weight and the share of HBM bandwidth. -/
structure Layout where
  clusters : List Nat
  slices : List (Nat × List Nat)
  ways : List (Nat × Nat)
  hbm : List (Nat × Nat)
  weight : Nat
  hbmShare : Nat
deriving DecidableEq, Repr

/-- A link that can fail (R268). -/
inductive LinkId where
  | ring (tile row stop : Nat)
  | y (tile stop : Nat)
  | d2d (tile dir : Nat)
deriving DecidableEq, Repr

/-- The end of a pass's streaming in a cluster, and whether a column's residue check has found a mismatch in it (R217, R219). -/
structure StreamEnd where
  cl : Nat
  residue : Bool := false
deriving DecidableEq, Repr

/-- A class whose budget SetBudgets sets, of a partition where the class has one (R335, R342). -/
structure BudgetOf where
  part : Nat := 0
  cls : Nat
deriving DecidableEq, Repr

/-- Every row of the opcode table. -/
inductive Instr where
  -- control and pacing (spec/08)
  | nop (c : Enc) | bra (c : Enc) | bri (c : Enc) | call (c : Enc) | callInd (c : Enc) | ret (c : Enc)
  | exit (c : Enc) | region (c : Enc) | trap (c : Enc) | bkpt (c : Enc) | sleep (c : Enc) | yield (c : Enc)
  | rep (cnt : Fin 64) (xs ys zs ws : BitVec 4)
  -- integer and predicate instructions (spec/06)
  | mov (c : Enc) (ty : Ty) | sel (c : Enc) (ty : Ty)
  | iadd (c : Enc) (sat : Bool) (ty : Ty) | isub (c : Enc) (sat : Bool) (ty : Ty)
  | ineg (c : Enc) (sat : Bool) (ty : Ty) | iabs (c : Enc) (sat : Bool) (ty : Ty)
  | imul (c : Enc) (ty : Ty) | imulh (c : Enc) (ty : Ty) | imad (c : Enc) (ty : Ty)
  | imin (c : Enc) (ty : Ty) | imax (c : Enc) (ty : Ty) | idp4 (c : Enc) (sat : Bool) (ty : Ty)
  | lea (c : Enc) (sh : Fin 8) (ty : Ty) | iset (c : Enc) (cc : Icc) (ty : Ty) | bsel (c : Enc)
  | plop (c : Enc) (t : Fin 16)
  | and (c : Enc) (ty : Ty) | or (c : Enc) (ty : Ty) | xor (c : Enc) (ty : Ty) | andn (c : Enc) (ty : Ty)
  | not (c : Enc) (ty : Ty) | ltab (c : Enc) (ty : Ty)
  | shl (c : Enc) (clamp : Bool) (ty : Ty) | shr (c : Enc) (clamp : Bool) (ty : Ty)
  | sar (c : Enc) (clamp : Bool) (ty : Ty) | rol (c : Enc) (ty : Ty)
  | bfx (c : Enc) (signed : Bool) (ty : Ty) | bfi (c : Enc) (ty : Ty)
  | popc (c : Enc) (ty : Ty) | clz (c : Enc) (ty : Ty) | ctz (c : Enc) (ty : Ty) | brev (c : Enc) (ty : Ty)
  -- floating point and conversions (spec/07)
  | fadd (c : Enc) (rm : Rm) (ty : Ty) | fsub (c : Enc) (rm : Rm) (ty : Ty) | fmul (c : Enc) (rm : Rm) (ty : Ty)
  | ffma (c : Enc) (rm : Rm) (ty : Ty) | fmin (c : Enc) (nan : Bool) (ty : Ty) | fmax (c : Enc) (nan : Bool) (ty : Ty)
  | fabs (c : Enc) (ty : Ty) | fneg (c : Enc) (ty : Ty)
  | fdiv (c : Enc) (rm : Rm) (ty : Ty) | fsqrt (c : Enc) (rm : Rm) (ty : Ty) | frcp (c : Enc) (rm : Rm) (ty : Ty)
  | frsq (c : Enc) (rm : Rm) (ty : Ty) | fset (c : Enc) (cc : Fcc) (ty : Ty) | fclass (c : Enc) (ty : Ty)
  | frnd (c : Enc) (rm : Rm) (ty : Ty) | fscl (c : Enc) (rm : Rm) (ty : Ty)
  | cvt (c : Enc) (rm : Rm) (ns : Bool) (ty : Ty) | cvts (c : Enc) (ns : Bool) (ty : Ty)
  | cvtp (c : Enc) (rm : Rm) (ns : Bool) (q : Fin 8) (ty : Ty) | cvtx (c : Enc) (k : Fin 8) (ty : Ty)
  | qb4 (c : Enc) (rm : Rm)
  -- status and lane exchange (spec/06, spec/08)
  | p2v (c : Enc) | v2p (c : Enc) | rds (c : Enc) | smov (c : Enc) (ty : Ty) | vote (c : Enc) (k : VoteKind)
  | shfl (c : Enc) (k : ShflKind) (ty : Ty) | lred (c : Enc) (op : LredOp) (rm : Rm) (ty : Ty) | lsync (c : Enc)
  -- memory (spec/09)
  | ld (c : Enc) (k : LdKind) (ty : Ty) | ldl (c : Enc) (ty : Ty) | st (c : Enc) (ev : Bool) (ty : Ty)
  | stl (c : Enc) (ty : Ty) | pf (c : Enc) (l1 : Bool)
  | atom (c : Enc) (op : Aop) (ord : Ord) (ty : Ty) | atoml (c : Enc) (op : Aop) (ord : Ord) (ty : Ty)
  | red (c : Enc) (op : Aop) (ord : Ord) (ty : Ty) | fence (c : Enc) (k : FKind) (sc : Scope) | l1inv (c : Enc)
  | wdef (c : Enc) | wdrop (c : Enc) | wstat (c : Enc) | waitw (c : Enc) (cmp : WCmp) | tryw (c : Enc) (cmp : WCmp)
  -- barriers and holdings (spec/11)
  | bar (c : Enc) (level : Fin 8) | lock (c : Enc) | tlock (c : Enc) | unlock (c : Enc)
  | heir (c : Enc) (k : HKind) (dflt : Bool) | prom (c : Enc) | fulf (c : Enc) (brk : Bool) | pwait (c : Enc)
  | claim (c : Enc) | rels (c : Enc) | holdq (c : Enc)
  -- lattice and messages (spec/10, spec/16)
  | step (c : Enc) | lqry (c : Enc) | mqcf (c : Enc) | mqst (c : Enc)
  -- matrix (spec/13)
  | mldw (c : Enc) (wf : WFmt) | mpass (c : Enc) (wf af : WFmt) | zclr (c : Enc) | zmov (c : Enc)
  | zst (c : Enc) (t loc : Bool) (rm : Rm) (ns : Bool) (ty : Ty) | zld (c : Enc) (t loc : Bool) (ty : Ty)
  | mstat (c : Enc) | mwait (c : Enc)
  -- die and fabric engines (spec/15, 16, 22), clock (spec/19)
  | bop (c : Enc) (op : BopKind) (rm : Rm) (ty : Ty) | redt (c : Enc) (rm : Rm) (ty : Ty)
  | bcopy (c : Enc) | bfence (c : Enc) | bgid (c : Enc) (mcast : Bool) | bgfree (c : Enc) | launch (c : Enc)
  | rdclk (c : Enc)
  -- events of the core
  | groupPromotion (core slot : Nat) | stallExpiry (core slot : Nat) | sleepEnd (core slot : Nat)
  | frontierRefill (core slot : Nat) | loadReply (core slot req : Nat) | storeBufferRelease (core blk : Nat)
  | sliceOperation (t : SliceTarget) | windowFill (core : Nat) | windowFillFault (core : Nat)
  | waitWordEvaluation (core slot lane : Nat) | trywTimeout (core slot lane : Nat)
  | estateWalk (die : Nat) | successorConveyance (part node blk : Nat)
  | hostHoldingStore (part : Nat) (pa : Nat) (state : Fin 4) (value : DWord)
  | neighbourLabelArrival (core : Nat)
  -- events of the matrix engine
  | matrixGrant (cl : Nat) | matrixFetchDone (cl : Nat) | leaveGrant (die : Nat) | matrixStreamDone (e : StreamEnd)
  | matrixPassComplete (cl : Nat) | mldwLoadComplete (cl : Nat) | matrixFetchFault (cl : Nat)
  | matrixEngineFreeze (cl : Nat)
  -- translation and reduction
  | pageWalkComplete (die walk : Nat) | pageRequestResponse (die walk : Nat) (ok : Bool)
  | redtContributionArrival (part : Nat) | redtNodeTimeout (part ident node : Nat)
  -- mesh and messages
  | meshHop (pkt : Nat) | escapeChannelMove (pkt : Nat) | linkFailure (l : LinkId) | nakResend (pkt : Nat)
  | messageAccept (pkt : Nat) | receivePortRead (core slot lane : Nat)
  -- dispatch and lattices
  | blockPlacement (part die : Nat) | activityPeriod (die : Nat) | latticeStart (part node : Nat)
  | tileEligible (part node tile : Nat) | downdraft (part node : Nat) | updraft (part node : Nat)
  -- the front end
  | tail (part q : Nat) (val : Word) | qen (part q : Nat) (on : Bool) | registerWrite (part off : Nat) (val : DWord)
  | packetAccept (part q : Nat) | launchPacket (part q : Nat) | coll (part q : Nat) | qfence (part q : Nat)
  | event (part q : Nat) | waitsem (part q : Nat) | waitsemReread (part q : Nat) | signal (part q : Nat)
  | tlbi (part q : Nat) | nodeDone (part node : Nat)
  | preempt (part : Nat) | resume (part : Nat) | vacate (part : Nat) | teardown (part : Nat)
  | watchdogExpiry (core : Nat)
  -- halts, containment, reliability
  | squallRaise (part cause : Nat) | squallArrival (part : Nat) (u : Unit') | haltComplete (part : Nat)
  | partitionResume (part : Nat) | remoteFault (core : Nat) | containment (core slot src pa : Nat)
  | shadowCompare (core slot : Nat) | scrubPeriod (stack : Nat) | boundaryMove (m : Nat × Layout) (more : List (Nat × Layout))
  | thermalThrottle (die : Nat) | thermalShutdown | frequencyChange (die f : Nat) | moduleReset
  -- the side-band port
  | getPartitionState (part : Nat) | haltPartition (part : Nat) | resumePartition (part : Nat)
  | resetPartition (part : Nat) | readJournal (part n : Nat) | readErrorLog (die idx : Nat)
  | readDeviceMemory (part pa len : Nat) | setBudgets (die : Nat) (b : BudgetOf) (val : Option Nat)
  | moveBoundary (m : Nat × Layout) (more : List (Nat × Layout)) | poisonLine (line : Nat)
  -- block-transfer engines and RoCEv2
  | bteDescriptorStart (part q : Nat) | bteCompletion (part q : Nat) | bteStop (part q : Nat)
  | rdmaWriteArrival (part : Nat) (comm src : Nat) (rkey : Word) (va : DWord) (bytes : List Byte)
      (immd : Option Word)
  | rdmaReadRequest (part : Nat) (rkey : Word) (va : DWord) (len : Nat)
  | rdmaAck (qp : Nat) (ok : Bool) | rdmaRetryTimeout (qp : Nat) | congestionNotification (qp : Nat)
  | send (part q : Nat) | recv (part q : Nat) | rrs (part q : Nat) | copy (part q : Nat) | wait (part q : Nat)
  | loop (part q : Nat) | next (part q : Nat)
  | hostMemoryAccess (part pa : Nat) (write : Option (List Byte)) (len : Nat)
  | functionLevelReset (fn : Nat)
  | getVersion (port : Nat) | getCapabilities (port : Nat) | negotiateAlgorithms (port : Nat) (algs : Nat)
  | getDigests (port : Nat) | getCertificate (port slot : Nat) | challenge (port slot : Nat)
  | getMeasurements (port index : Nat) | keyExchange (port : Nat) | finish (port : Nat) | endSession (port : Nat)
  | invalidRdmaRequest (qp : Nat) | rdmaReadResponse (qp : Nat) (bytes : List Byte) | pfcPause (port prio : Nat) (on : Bool)
  | firmwareImageUpdate (image : Nat) (sigValid : Bool) | certificateProvisioning (port slot chain : Nat)
deriving DecidableEq, Repr

end Sys2Proof
end

