-- ==== Sys2Proof/Machine/Grid.lean ====
section
/-! DEFINITION. The legality grid of spec/04 R51 beyond OP and FN: which TY codes an operation takes with the joint
conditions (R52 check 3), and which IMM bits its entry uses (R52 check 4). -/
namespace Sys2Proof

/-- The TY code of a type (R37). -/
def tyCode : Ty → Nat
  | .i32 => 0 | .n32 => 1 | .i64 => 2 | .n64 => 3 | .f32 => 4 | .f16 => 5 | .bf16 => 6 | .f8e4 => 7
  | .f8e5 => 8 | .f4 => 9 | .i8x4 => 10 | .n8x4 => 11 | .i16x2 => 12 | .b32 => 13 | .b64 => 14

/-- The type of a TY code; code 15 is reserved (R37). -/
def tyOfCode : Nat → Option Ty
  | 0 => some .i32 | 1 => some .n32 | 2 => some .i64 | 3 => some .n64 | 4 => some .f32 | 5 => some .f16
  | 6 => some .bf16 | 7 => some .f8e4 | 8 => some .f8e5 | 9 => some .f4 | 10 => some .i8x4 | 11 => some .n8x4
  | 12 => some .i16x2 | 13 => some .b32 | 14 => some .b64 | _ => none

/-- TY codes 0 to 3. -/
def tyInt : Ty → Bool
  | .i32 | .n32 | .i64 | .n64 => true
  | _ => false
/-- TY codes 10 to 12. -/
def tyPackedInt : Ty → Bool
  | .i8x4 | .n8x4 | .i16x2 => true
  | _ => false
/-- TY codes 4 to 6. -/
def tyFloat : Ty → Bool
  | .f32 | .f16 | .bf16 => true
  | _ => false
/-- TY codes 13 and 14. -/
def tyBits : Ty → Bool
  | .b32 | .b64 => true
  | _ => false
/-- TY codes 1, 3, 13 and 14. -/
def tyShift : Ty → Bool
  | .n32 | .n64 | .b32 | .b64 => true
  | _ => false
/-- TY codes 0 to 8. -/
def tyScalar : Ty → Bool
  | .i32 | .n32 | .i64 | .n64 | .f32 | .f16 | .bf16 | .f8e4 | .f8e5 => true
  | _ => false
/-- TY codes 7 and 8. -/
def tyF8 : Ty → Bool
  | .f8e4 | .f8e5 => true
  | _ => false

/-- The 64-bit types (R40). -/
def tyIs64 : Ty → Bool
  | .i64 | .n64 | .b64 => true
  | _ => false

/-- Weight and activation formats that may meet (R211). -/
def wfPair : WFmt → WFmt → Bool
  | .f4, .f4 | .f4, .f8e4 | .f8e4, .f8e4 | .f8e4, .f8e5 | .f8e5, .f8e4 | .f8e5, .f8e5 | .bf16, .bf16 => true
  | _, _ => false

/-- Check 3 of R52: TY is legal for the operation, with every joint condition of R51. -/
def tyOk : Instr → Bool
  | .mov _ t => tyInt t || tyBits t
  | .sel _ t => tyBits t
  | .iadd _ _ t | .isub _ _ t | .imin _ t | .imax _ t => tyInt t || tyPackedInt t
  | .ineg _ _ t | .iabs _ _ t => t == .i32 || t == .i64 || t == .i8x4 || t == .i16x2
  | .imul _ t | .imulh _ t | .imad _ t | .iset _ _ t => tyInt t
  | .idp4 _ _ t => t == .i8x4 || t == .n8x4
  | .lea _ _ t => t == .n32 || t == .n64
  | .and _ t | .or _ t | .xor _ t | .andn _ t | .not _ t | .ltab _ t => tyBits t
  | .shl _ _ t | .shr _ _ t | .rol _ t => tyShift t
  | .sar _ _ t => t == .i32 || t == .i64
  | .bfx _ _ t | .bfi _ t | .popc _ t | .clz _ t | .ctz _ t | .brev _ t => tyBits t
  | .fadd _ _ t | .fsub _ _ t | .fmul _ _ t | .ffma _ _ t | .fmin _ _ t | .fmax _ _ t | .fabs _ t | .fneg _ t
  | .fdiv _ _ t | .fsqrt _ _ t | .frcp _ _ t | .frsq _ _ t | .fset _ _ t | .frnd _ _ t | .fscl _ _ t => tyFloat t
  | .fclass _ t => tyFloat t || tyF8 t
  | .cvt c _ _ t => tyScalar t && decide (c.imm.toNat % 16 ≤ 8) && c.imm.toNat % 16 != tyCode t
  | .cvts _ _ t => t == .f16 || t == .bf16 || tyF8 t
  | .cvtp _ _ ns q t => match t with
    | .f4 => decide (q.val ≤ 3)
    | .f8e4 | .f8e5 => decide (q.val ≤ 1)
    | .i8x4 | .n8x4 => decide (q.val ≤ 1) && !ns
    | .i16x2 => decide (q.val = 0) && !ns
    | _ => false
  | .cvtx _ k t => match t with
    | .f4 => true
    | .f8e4 | .f8e5 | .i8x4 | .n8x4 => decide (k.val ≤ 3)
    | .i16x2 => decide (k.val ≤ 1)
    | _ => false
  | .smov _ t | .shfl _ _ t => tyBits t
  | .lred _ op rm t => match op with
    | .add => (tyInt t || tyFloat t) && (rm == .rne || tyFloat t)
    | .min | .max => (tyInt t || tyFloat t) && rm == .rne
    | .and | .or | .xor => tyBits t && rm == .rne
  | .ld _ _ t | .ldl _ t | .st _ _ t | .stl _ t => t != .f4
  | .atom _ op _ t | .atoml _ op _ t | .red _ op _ t => match op with
    | .add => tyInt t || t == .f32
    | .min | .max => tyInt t
    | _ => tyBits t
  | .mpass _ wf af => wfPair wf af
  | .zst _ _ _ _ ns t => tyFloat t && !ns || tyF8 t
  | .zld _ _ _ t => tyFloat t
  | .bop _ _ rm t => (t == .i32 || t == .n32 || t == .f32) && (rm == .rne || t == .f32)
  | .redt _ rm t => (t == .i32 || t == .i64 || t == .f32) && (rm == .rne || t == .f32)
  | _ => true

/-- The fields an operation carries; REP and the events carry none. -/
def encOf : Instr → Option Enc
  | .nop c | .bra c | .bri c | .call c | .callInd c | .ret c | .exit c | .region c | .trap c | .bkpt c | .sleep c
  | .yield c | .mov c _ | .sel c _ | .iadd c _ _ | .isub c _ _ | .ineg c _ _ | .iabs c _ _ | .imul c _ | .imulh c _
  | .imad c _ | .imin c _ | .imax c _ | .idp4 c _ _ | .lea c _ _ | .iset c _ _ | .bsel c | .plop c _ | .and c _
  | .or c _ | .xor c _ | .andn c _ | .not c _ | .ltab c _ | .shl c _ _ | .shr c _ _ | .sar c _ _ | .rol c _
  | .bfx c _ _ | .bfi c _ | .popc c _ | .clz c _ | .ctz c _ | .brev c _ | .fadd c _ _ | .fsub c _ _ | .fmul c _ _
  | .ffma c _ _ | .fmin c _ _ | .fmax c _ _ | .fabs c _ | .fneg c _ | .fdiv c _ _ | .fsqrt c _ _ | .frcp c _ _
  | .frsq c _ _ | .fset c _ _ | .fclass c _ | .frnd c _ _ | .fscl c _ _ | .cvt c _ _ _ | .cvts c _ _ | .cvtp c _ _ _ _
  | .cvtx c _ _ | .qb4 c _ | .p2v c | .v2p c | .rds c | .smov c _ | .vote c _ | .shfl c _ _ | .lred c _ _ _ | .lsync c
  | .ld c _ _ | .ldl c _ | .st c _ _ | .stl c _ | .pf c _ | .atom c _ _ _ | .atoml c _ _ _ | .red c _ _ _
  | .fence c _ _ | .l1inv c | .wdef c | .wdrop c | .wstat c | .waitw c _ | .tryw c _ | .bar c _ | .lock c | .tlock c
  | .unlock c | .heir c _ _ | .prom c | .fulf c _ | .pwait c | .claim c | .rels c | .holdq c | .step c | .lqry c
  | .mqcf c | .mqst c | .mldw c _ | .mpass c _ _ | .zclr c | .zmov c | .zst c _ _ _ _ _ | .zld c _ _ _ | .mstat c
  | .mwait c | .bop c _ _ _ | .redt c _ _ | .bcopy c | .bfence c | .bgid c _ | .bgfree c | .launch c | .rdclk c =>
    some c
  | _ => none

/-- The IMM bits to which the operation's own entry gives a use (R37, R52 check 4); 0 where it gives none. -/
def immEntryBits : Instr → Nat
  | .nop _ | .bra _ | .call _ | .trap _ | .bkpt _ | .rds _ | .ld .. | .ldl .. | .st .. | .stl .. | .pf .. | .atom ..
  | .atoml .. | .red .. | .waitw .. | .tryw .. | .mpass .. | .bop .. => 0xFFFFFFFF
  | .sel .. | .imad .. | .idp4 .. | .ffma .. | .qb4 .. | .bfi .. => 0x3FF
  | .ltab .. => 0x3FFFF
  | .bsel .. => 0xFFFF
  | .cvt .. | .mqst .. | .zmov .. | .zst .. | .zld .. | .bcopy .. => 0xF
  | .wdef .. | .wdrop .. | .wstat .. => 0x1F
  | .heir _ k _ => if k == .group then 0x1F else 0
  | .lqry .. => 7
  | .zclr .. => 0x7F
  | .mstat .. => 3
  | .launch .. => 0x3F
  | _ => 0

/-- Whether an entry gives an `imm` operand in Y or in Z a use (R40, R52 check 4): it accepts one there, and states of no IMM bit that it
is zero. REDT accepts one, with IMM 0 (R259). -/
def takesImm : Instr → Bool × Bool
  | .iadd .. | .isub .. | .imul .. | .imulh .. | .imin .. | .imax .. | .lea .. | .and .. | .or .. | .xor .. | .andn .. | .shl .. | .shr ..
  | .sar .. | .rol .. | .bfx .. | .iset .. | .fadd .. | .fsub .. | .fmul .. | .fmin .. | .fmax .. | .fdiv .. | .fscl .. | .cvtp .. | .fset ..
  | .v2p .. | .shfl .. => (true, true)
  | .mov .. | .ineg .. | .iabs .. | .not .. | .popc .. | .clz .. | .ctz .. | .brev .. | .fabs .. | .fneg .. | .fsqrt .. | .frcp .. | .frsq ..
  | .fclass .. | .frnd .. | .cvts .. | .cvtx .. | .smov .. | .lred .. | .sleep .. | .bar .. | .mqcf .. | .mwait .. | .bfence .. | .bgfree .. =>
    (true, false)
  | .bgid .. => (false, true)
  | _ => (false, false)

/-- Check 4 of R52 on IMM: every bit is zero to which neither the entry nor an `imm` operand in Y or Z gives a use. An `imm` operand that
the entry accepts uses the whole IMM; one that the entry does not accept gives no use (log 10). -/
def immOk (i : Instr) : Bool :=
  match encOf i with
  | none => true
  | some c =>
    let t := takesImm i
    let used := if t.1 && c.y == .imm || t.2 && c.z == .imm then 0xFFFFFFFF else immEntryBits i
    decide (c.imm.toNat &&& (0xFFFFFFFF ^^^ used) = 0)

end Sys2Proof
end

