-- ==== Sys2Proof/Machine/Num.lean ====
section
/-! DEFINITION. Numbers and arithmetic order (spec/05): the formats of R57, exact values, the one rounding of R64 to R66,
block scales (R61), stochastic rounding (R67), integer values and saturation (R55). -/
namespace Sys2Proof.Machine

/-! ## Exact values -/

/-- A dyadic number `m * 2 ^ e`. -/
structure Dy where
  m : Int
  e : Int
deriving DecidableEq, Repr

/-- The value of an encoding: NaN, an infinity, or a finite value whose zero keeps its sign (R57). -/
inductive Num where
  | nan
  | inf (neg : Bool)
  | fin (neg : Bool) (m : Nat) (e : Int)
deriving DecidableEq, Repr

/-- Multiplication by a power of two, rounding down for a negative power. -/
def shiftInt (m : Int) (k : Int) : Int :=
  if 0 ≤ k then m * 2 ^ k.toNat else m / 2 ^ (-k).toNat

/-- The exact sum. -/
def dyAdd (a b : Dy) : Dy :=
  if a.m = 0 then b else if b.m = 0 then a else
  let e := min a.e b.e
  { m := shiftInt a.m (a.e - e) + shiftInt b.m (b.e - e), e := e }

/-- The exact product. -/
def dyMul (a b : Dy) : Dy := { m := a.m * b.m, e := a.e + b.e }

/-- The dyadic number of a finite value. -/
def dyOf (neg : Bool) (m : Nat) (e : Int) : Dy := { m := if neg then -(m : Int) else m, e := e }

/-- The order of two non-negative dyadic magnitudes `m * 2 ^ e`. -/
def magLe (m1 : Nat) (e1 : Int) (m2 : Nat) (e2 : Int) : Bool :=
  if m1 = 0 then true else if m2 = 0 then false else
  let t1 := (Nat.log2 m1 : Int) + e1
  let t2 := (Nat.log2 m2 : Int) + e2
  if t1 ≠ t2 then decide (t1 < t2) else
  let e := min e1 e2
  decide (m1 * 2 ^ (e1 - e).toNat ≤ m2 * 2 ^ (e2 - e).toNat)

/-! ## Formats -/

/-- The special codes of a format (R57). -/
inductive Special' where | ieee | nanOnly | noSpecial
deriving DecidableEq, Repr

/-- A floating-point format: exponent bits, mantissa bits, bias, special codes, and `nan(F)` (R57). -/
structure Fmt where
  eb : Nat
  mb : Nat
  bias : Nat
  sp : Special'
  nan : Nat
deriving DecidableEq, Repr

/-- f32 (R57). -/
def fmtF32 : Fmt := ⟨8, 23, 127, .ieee, 0x7FC00000⟩
/-- f16 (R57). -/
def fmtF16 : Fmt := ⟨5, 10, 15, .ieee, 0x7E00⟩
/-- bf16 (R57). -/
def fmtBf16 : Fmt := ⟨8, 7, 127, .ieee, 0x7FC0⟩
/-- f8e4 (R57). -/
def fmtF8e4 : Fmt := ⟨4, 3, 7, .nanOnly, 0x7F⟩
/-- f8e5 (R57). -/
def fmtF8e5 : Fmt := ⟨5, 2, 15, .ieee, 0x7E⟩
/-- f4 (R57, R58). -/
def fmtF4 : Fmt := ⟨2, 1, 1, .noSpecial, 0⟩

/-- The format of a floating type; f32 for any other type, which no caller asks for. -/
def fmtOf : Ty → Fmt
  | .f16 => fmtF16 | .bf16 => fmtBf16 | .f8e4 => fmtF8e4 | .f8e5 => fmtF8e5 | .f4 => fmtF4 | _ => fmtF32

/-- The width of a format. -/
def fmtWidth (F : Fmt) : Nat := 1 + F.eb + F.mb

/-- `val(b, F)` (R8, R57), `b` read modulo the format's width. -/
def valNum (F : Fmt) (b : Nat) : Num :=
  let b := b % 2 ^ fmtWidth F
  let neg := b / 2 ^ (F.eb + F.mb) == 1
  let ex := b / 2 ^ F.mb % 2 ^ F.eb
  let mn := b % 2 ^ F.mb
  let top := 2 ^ F.eb - 1
  if F.sp == .ieee && ex == top then (if mn == 0 then .inf neg else .nan)
  else if F.sp == .nanOnly && ex == top && mn == 2 ^ F.mb - 1 then .nan
  else if ex == 0 then .fin neg mn (1 - (F.bias : Int) - F.mb)
  else .fin neg (2 ^ F.mb + mn) ((ex : Int) - F.bias - F.mb)

/-- The largest finite magnitude of a format, as mantissa and exponent (R57). -/
def maxFinite (F : Fmt) : Nat × Int :=
  let top := 2 ^ F.eb - 1
  match F.sp with
  | .ieee => (2 ^ (F.mb + 1) - 1, (top : Int) - 1 - F.bias - F.mb)
  | .nanOnly => (2 ^ (F.mb + 1) - 2, (top : Int) - F.bias - F.mb)
  | .noSpecial => (2 ^ (F.mb + 1) - 1, (top : Int) - F.bias - F.mb)

/-- The sign bit of an encoding. -/
def signBit (F : Fmt) (neg : Bool) : Nat := if neg then 2 ^ (F.eb + F.mb) else 0

/-- `enc(y, F)` of a finite value that F represents (R8). -/
def encFin (F : Fmt) (neg : Bool) (m : Nat) (e : Int) : Nat :=
  if m = 0 then signBit F neg else
  let top := (Nat.log2 m : Int) + e
  let emin := 1 - (F.bias : Int)
  if top < emin then signBit F neg + (shiftInt m (e - (emin - F.mb))).toNat
  else signBit F neg + (top + F.bias).toNat * 2 ^ F.mb + ((shiftInt m (e - (top - F.mb))).toNat - 2 ^ F.mb)

/-- The encoding of an infinity of a format that has one. -/
def encInf (F : Fmt) (neg : Bool) : Nat := signBit F neg + (2 ^ F.eb - 1) * 2 ^ F.mb

/-- The encoding of the largest finite value with a sign. -/
def encMax (F : Fmt) (neg : Bool) : Nat := encFin F neg (maxFinite F).1 (maxFinite F).2

/-! ## Rounding -/

/-- Whether a discarded part rounds the magnitude up (R64): `odd` is the parity of what is kept, `cmpHalf` how the
discarded part compares with one half (0 exact, 1 below, 2 equal, 3 above). -/
def roundUp (rm : Rm) (neg odd : Bool) (cmpHalf : Nat) : Bool :=
  match rm with
  | .rne => cmpHalf == 3 || (cmpHalf == 2 && odd)
  | .rtz => false
  | .rdn => neg && cmpHalf != 0
  | .rup => !neg && cmpHalf != 0

/-- The magnitude `(m + d) * 2 ^ e`, where `0 < d < 1` when `sticky`, rounded to a multiple of `2 ^ q`. -/
def roundAt (rm : Rm) (neg : Bool) (m : Nat) (e : Int) (sticky : Bool) (q : Int) : Nat × Int :=
  if q ≤ e then (m, e)
  else
    let sh := (q - e).toNat
    if m = 0 || Nat.log2 m + 2 < sh then
      (if roundUp rm neg false (if m = 0 && !sticky then 0 else 1) then 1 else 0, q)
    else
      let hi := m / 2 ^ sh
      let lo := m % 2 ^ sh
      let half := 2 ^ (sh - 1)
      let c := if lo = 0 && !sticky then 0 else if lo < half then 1
               else if lo = half && !sticky then 2 else 3
      (if roundUp rm neg (hi % 2 == 1) c then hi + 1 else hi, q)

/-- `rndu(x, F, m)` (R8): rounding to the format's precision with subnormals kept and the exponent unbounded above. -/
def rndu (F : Fmt) (rm : Rm) (neg : Bool) (m : Nat) (e : Int) (sticky : Bool) : Nat × Int :=
  let top := (Nat.log2 m : Int) + e
  let emin := 1 - (F.bias : Int)
  roundAt rm neg m e sticky (max top emin - F.mb)

/-- Whether a rounded magnitude lies beyond the largest finite one (R66). -/
def beyond (F : Fmt) (m : Nat) (e : Int) : Bool := !magLe m e (maxFinite F).1 (maxFinite F).2

/-- Whether mode `rm` rounds away from zero for a sign (R8 `rnd`). -/
def awayMode (rm : Rm) (neg : Bool) : Bool :=
  match rm with
  | .rne => true
  | .rtz => false
  | .rdn => neg
  | .rup => !neg

/-- Arithmetic into f32, f16 or bf16: `rnd(x, F, m)` encoded (R66 first row). -/
def rndEnc (F : Fmt) (rm : Rm) (neg : Bool) (m : Nat) (e : Int) (sticky : Bool := false) : Nat :=
  let r := rndu F rm neg m e sticky
  if beyond F r.1 r.2 then (if awayMode rm neg then encInf F neg else encMax F neg)
  else encFin F neg r.1 r.2

/-- A conversion's result beyond the largest finite magnitude (R66), `away` telling whether the mode goes away from
zero. -/
def overflowConv (F : Fmt) (ns away neg : Bool) : Nat :=
  match F.sp, ns with
  | .noSpecial, _ => encMax F neg
  | .nanOnly, true => F.nan
  | .nanOnly, false => encMax F neg
  | .ieee, false => encMax F neg
  | .ieee, true => if F = fmtF8e5 then F.nan else if away then encInf F neg else encMax F neg

/-- Whether every finite value of the source format is one of the destination (R66, exact conversions). -/
def widening (S F : Fmt) : Bool :=
  (fmtWidth S == 8 && 16 ≤ fmtWidth F) || (fmtWidth S == 16 && fmtWidth F == 32) || (fmtWidth S == 4 && fmtWidth F == 32)

/-- A conversion of a value into format F (R66), infinities passing through only when `exactInf`. -/
def convNum (F : Fmt) (rm : Rm) (ns exactInf : Bool) (x : Num) : Nat :=
  match x with
  | .nan => F.nan
  | .inf neg => if exactInf then encInf F neg else overflowConv F ns (awayMode rm neg) neg
  | .fin neg m e =>
    let r := rndu F rm neg m e false
    if beyond F r.1 r.2 then overflowConv F ns (awayMode rm neg) neg else encFin F neg r.1 r.2

/-! ## Arithmetic -/

/-- The exact sum of two finite values with the zero sign of R65, rounded once. -/
def addFin (F : Fmt) (rm : Rm) (n1 : Bool) (m1 : Nat) (e1 : Int) (n2 : Bool) (m2 : Nat) (e2 : Int) : Nat :=
  let s := dyAdd (dyOf n1 m1 e1) (dyOf n2 m2 e2)
  if s.m = 0 then
    (if m1 = 0 && m2 = 0 && n1 = n2 then signBit F n1 else signBit F (rm == .rdn))
  else rndEnc F rm (decide (s.m < 0)) s.m.natAbs s.e

/-- a + b in format F (R100, R59, R65). -/
def numAdd (F : Fmt) (rm : Rm) (a b : Num) : Nat :=
  match a, b with
  | .nan, _ | _, .nan => F.nan
  | .inf s, .inf t => if s = t then encInf F s else F.nan
  | .inf s, .fin .. => encInf F s
  | .fin .., .inf s => encInf F s
  | .fin n1 m1 e1, .fin n2 m2 e2 => addFin F rm n1 m1 e1 n2 m2 e2

/-- The negated value (the sign bit only). -/
def numNeg : Num → Num
  | .nan => .nan
  | .inf s => .inf (!s)
  | .fin s m e => .fin (!s) m e

/-- The exact product (R59: infinity times zero is invalid). -/
def numMulExact (a b : Num) : Num :=
  match a, b with
  | .nan, _ | _, .nan => .nan
  | .inf s, .inf t => .inf (s != t)
  | .inf s, .fin t m _ => if m = 0 then .nan else .inf (s != t)
  | .fin s m _, .inf t => if m = 0 then .nan else .inf (s != t)
  | .fin s m e, .fin t n f => .fin (s != t) (m * n) (e + f)

/-- A value rounded into F as arithmetic does. -/
def numRound (F : Fmt) (rm : Rm) : Num → Nat
  | .nan => F.nan
  | .inf s => encInf F s
  | .fin s m e => rndEnc F rm s m e

/-- a * b + c with one rounding (R100). -/
def numFma (F : Fmt) (rm : Rm) (a b c : Num) : Nat := numAdd F rm (numMulExact a b) c

/-- a / b (R103). -/
def numDiv (F : Fmt) (rm : Rm) (a b : Num) : Nat :=
  match a, b with
  | .nan, _ | _, .nan => F.nan
  | .inf _, .inf _ => F.nan
  | .inf s, .fin t _ _ => encInf F (s != t)
  | .fin s _ _, .inf t => signBit F (s != t)
  | .fin s m e, .fin t n f =>
    if n = 0 then (if m = 0 then F.nan else encInf F (s != t))
    else if m = 0 then signBit F (s != t)
    else rndEnc F rm (s != t) (m * 2 ^ 96 / n) (e - f - 96) (m * 2 ^ 96 % n != 0)

/-- The integer square root, bit by bit from bit 160. -/
def isqrt (n : Nat) : Nat :=
  (List.range 161).foldl (fun r k =>
    let c := r + 2 ^ (160 - k)
    if c * c ≤ n then c else r) 0

/-- The square root of a (R103). -/
def numSqrt (F : Fmt) (rm : Rm) (a : Num) : Nat :=
  match a with
  | .nan => F.nan
  | .inf s => if s then F.nan else encInf F false
  | .fin s m e =>
    if m = 0 then signBit F s else if s then F.nan else
    let m1 := if e % 2 = 0 then m else 2 * m
    let e1 := if e % 2 = 0 then e else e - 1
    let v := m1 * 2 ^ 128
    let r := isqrt v
    rndEnc F rm false r (e1 / 2 - 64) (r * r != v)

/-- The reciprocal (R103). -/
def numRcp (F : Fmt) (rm : Rm) (a : Num) : Nat := numDiv F rm (.fin false 1 0) a

/-- The reciprocal square root (R103). -/
def numRsq (F : Fmt) (rm : Rm) (a : Num) : Nat :=
  match a with
  | .nan => F.nan
  | .inf s => if s then F.nan else 0
  | .fin s m e =>
    if m = 0 then encInf F s else if s then F.nan else
    let m1 := if e % 2 = 0 then m else 2 * m
    let e1 := if e % 2 = 0 then e else e - 1
    let v := 2 ^ 240 / m1
    let r := isqrt v
    rndEnc F rm false r (-(e1 / 2) - 120) (r * r * m1 != 2 ^ 240)

/-- Order of two values that are not NaN: less, with -0 below +0 when `zeros` (R101, R104). -/
def numLt (zeros : Bool) (a b : Num) : Bool :=
  match a, b with
  | .nan, _ | _, .nan => false
  | .inf s, .inf t => s && !t
  | .inf s, .fin .. => s
  | .fin .., .inf t => !t
  | .fin s m e, .fin t n f =>
    if m = 0 && n = 0 then zeros && s && !t
    else
      let s' := s && m != 0
      let t' := t && n != 0
      if s' != t' then s'
      else if s' then !magLe m e n f else !magLe n f m e

/-- Equality of two values that are not NaN; zeros are equal (R104). -/
def numEq (a b : Num) : Bool :=
  match a, b with
  | .nan, _ | _, .nan => false
  | _, _ => !numLt false a b && !numLt false b a

/-- The `.num` and `.nan` rules of FMIN and FMAX on encodings (R101). -/
def minmaxEnc (F : Fmt) (isMax nanRule : Bool) (a b : Nat) : Nat :=
  let x := valNum F a
  let y := valNum F b
  let w := 2 ^ fmtWidth F
  match x, y with
  | .nan, .nan => F.nan
  | .nan, _ => if nanRule then F.nan else b % w
  | _, .nan => if nanRule then F.nan else a % w
  | _, _ => if isMax then (if numLt true x y then b % w else a % w) else (if numLt true y x then b % w else a % w)

/-- FRND (R106): the nearest integer in the direction, encoded in F. -/
def numRint (F : Fmt) (rm : Rm) (a : Num) : Nat :=
  match a with
  | .nan => F.nan
  | .inf s => encInf F s
  | .fin s m e =>
    let r := roundAt rm s m e false 0
    encFin F s r.1 r.2

/-- FSCL (R107): a * 2^n, one rounding. -/
def numScale (F : Fmt) (rm : Rm) (a : Num) (n : Int) : Nat :=
  match a with
  | .nan => F.nan
  | .inf s => encInf F s
  | .fin s m e => if m = 0 then signBit F s else rndEnc F rm s m (e + n)

/-- The nearest integer in a direction, as an integer (R66, integer targets); infinities and NaN are decided by
`satNum`. -/
def numToInt (rm : Rm) (s : Bool) (m : Nat) (e : Int) : Int :=
  let r := roundAt rm s m e false 0
  let v := shiftInt r.1 r.2
  if s then -v else v

/-! ## Integers -/

/-- The width of a type's register string (R78). -/
def tyWidth (t : Ty) : Nat := if tyIs64 t then 64 else 32

/-- Whether a type is read as two's complement. -/
def tySigned : Ty → Bool
  | .i32 | .i64 | .i8x4 | .i16x2 => true
  | _ => false

/-- The integer value of a `w`-bit string (R54, R55). -/
def intVal (signed : Bool) (w : Nat) (b : Nat) : Int :=
  let b := b % 2 ^ w
  if signed && 2 ^ (w - 1) ≤ b then (b : Int) - 2 ^ w else b

/-- `wrap(x, n)` (R8). -/
def wrapInt (x : Int) (w : Nat) : Nat := (x % 2 ^ w).toNat

/-- `sat(x, T)` of an integer type of width `w`, as its string (R55). -/
def satInt (signed : Bool) (w : Nat) (x : Int) : Nat :=
  let lo : Int := if signed then -(2 ^ (w - 1)) else 0
  let hi : Int := if signed then 2 ^ (w - 1) - 1 else 2 ^ w - 1
  wrapInt (if x < lo then lo else if hi < x then hi else x) w

/-- A number converted to an integer type (R66): NaN gives 0, an infinity the limit. -/
def satNum (rm : Rm) (signed : Bool) (w : Nat) (x : Num) : Nat :=
  match x with
  | .nan => 0
  | .inf s => satInt signed w (if s then -(2 ^ 64) else 2 ^ 64)
  | .fin s m e => satInt signed w (numToInt rm s m e)

/-- The exact value of an integer. -/
def numOfInt (x : Int) : Num := .fin (decide (x < 0)) x.natAbs 0

/-! ## Scales and stochastic rounding -/

/-- An E3M5 scale (R61); `none` for the invalid code. -/
def e3m5 (b : Nat) : Option Dy :=
  let b := b % 256
  if b = 255 then none
  else if b / 32 = 0 then some ⟨b % 32, -7⟩
  else some ⟨32 + b % 32, (b / 32 : Int) - 8⟩

/-- The draw of R67. -/
def draw (ident st c : Nat) (seed : DWord) : Nat :=
  let z := seed + BitVec.ofNat 64 (0x9E3779B97F4A7C15 * (ident + 1))
  let z := z ^^^ BitVec.ofNat 64 (st % 2 ^ 32 * 2 ^ 32) ^^^ BitVec.ofNat 64 (c % 2 ^ 32)
  let z := (z ^^^ (z >>> 30)) * 0xBF58476D1CE4E5B9#64
  let z := (z ^^^ (z >>> 27)) * 0x94D049BB133111EB#64
  let z := z ^^^ (z >>> 31)
  (z >>> 40).toNat

/-- Stochastic rounding of a value into F with a 24-bit draw (R67, R66). -/
def srndEnc (F : Fmt) (ns : Bool) (d : Nat) (x : Num) : Nat :=
  match x with
  | .nan => F.nan
  | .inf neg => overflowConv F ns true neg
  | .fin neg m e =>
    let lo := rndu F .rtz neg m e false
    if shiftInt lo.1 (lo.2 - min lo.2 e) = shiftInt m (e - min lo.2 e) then
      (if beyond F lo.1 lo.2 then overflowConv F ns true neg else encFin F neg lo.1 lo.2)
    else
      -- magnitudes: `a` towards zero, `a + 1` away, in units of the quantum 2 ^ lo.2
      let frac := (m * 2 ^ 24 / 2 ^ (lo.2 - e).toNat) - lo.1 * 2 ^ 24
      let exact := m * 2 ^ 24 % 2 ^ (lo.2 - e).toNat = 0
      -- t measures from the lower value lo of R67: for a negative x that is the one away from zero
      let t := if neg then (if exact then 2 ^ 24 - frac else 2 ^ 24 - frac - 1) else frac
      let goUp := decide (d < t)
      let mag := if goUp != neg then lo.1 + 1 else lo.1
      if beyond F mag lo.2 then overflowConv F ns true neg else encFin F neg mag lo.2

end Sys2Proof.Machine
end

