-- ==== Sys2Proof/Config.lean ====
section
/-! DEFINITION. What an implementation fixes and what the spec leaves open. Every `opaque` below is a free value: it has
no body, so no proof can see it, and a statement about it holds whatever it is. The argument is State's counter `free`
(or the operands the value depends on), log 4. -/
namespace Sys2Proof.Config

/-- Core cycles that pass unseen before a read of the cycle counter (R311; timing is open, R30 to R32). -/
opaque freeCycles : Nat → Nat
/-- The place the hardware picks among several that the spec leaves to it: the free estate entry (R189). -/
opaque freeChoice : Nat → Nat
/-- The power controller's fixed estimate of a pass or a large copy (R336): the argument tells which. -/
opaque leaveEstimate : Bool → Nat
/-- SPDM payloads whose bytes the spec does not give: digests, certificates, signatures, measurements (R372). -/
opaque freeRecord : Nat → Record
/-- A line of memory whose contents only the hardware reads: the group-state area of a tile record (R282). -/
opaque freeLine : Nat → Line
/-- A byte of host memory as a block-transfer engine reads it: the host's memory is outside the machine (R348). Arguments: the counter and
the I/O virtual address. -/
opaque hostByte : Nat → Nat → Byte

end Sys2Proof.Config
end

