-- ==== Sys2Proof/Machine/State.lean ====
section
/-! DEFINITION. The state of the ZW960, as plain data: everything spec/ gives the machine, level by level from the
frontier entry outward, and the model's own agenda, selection, held marks and free-value counter. -/
namespace Sys2Proof.Machine

/-- A sparse map: keys strictly rising, no entry equal to the default its reader supplies. -/
abbrev SMap (α : Type) := List (Nat × α)

/-- Trap kinds (R9), in the order of R9. -/
inductive TrapKind where
  | illegalInstruction | illegalOperand | illegalConvergence | membership | heirless | protection | page
  | software | breakpoint
deriving DecidableEq, Repr

/-- Why a run stops. -/
inductive Fault where
  /-- Raised by `step` when every compute die is without power after a thermal shutdown (R34) and the agenda is empty:
  nothing can issue. Safe: the hardware does nothing either until a module reset. -/
  | poweredOff
deriving DecidableEq, Repr

/-- Why an instruction has no meaning here. -/
inductive Refusal where
  /-- Raised by an arm of `exec` whose meaning is not written. Safe: nothing can be proved of it. -/
  | notModelled (mnemonic : String)
deriving DecidableEq, Repr

/-! ## Accesses and operations on their way -/

/-- The originator tag of an operation, taken at its issue (R323). -/
structure Tag where
  gslot : Nat := 0
  ix : Word := 0
  rgn : Word := 0
deriving DecidableEq, Repr

/-- One lane's access: lane, virtual and physical address, whether its page is memory-side (R247), and the home of its
line as 64 * die + slice index (R239 to R242). -/
structure LaneAcc where
  lane : Nat
  va : DWord
  pa : Nat
  ms : Bool := false
  home : Nat := 0
deriving DecidableEq, Repr

/-- A holdings operation at the arithmetic unit (R198 to R204). -/
inductive HoldOp where
  | lock | tlock | unlock
  | heir (k : HKind) (grp : Nat)
  | prom | fulf (brk : Bool) (val : DWord) | pwait | claim | rels | holdq
deriving DecidableEq, Repr

/-- What an entry of a block store buffer carries (R326). Lists of `(lane, pa, operand, replacement)` stand in
ascending lane order. -/
inductive MemOp where
  | store (ev : Bool) (bytes : List (Nat × Byte))
  | rmw (op : Aop) (ty : Ty) (lanes : List (Nat × Nat × DWord × DWord)) (ret : Bool)
  | bop (op : BopKind) (rm : Rm) (ty : Ty) (lanes : List (Nat × Nat × DWord × DWord))
  | hold (op : HoldOp) (pa : Nat)
  | redt (ident leaf : Nat) (value : DWord)
  | send (port : Nat) (cfg : Word) (seq : Nat) (words : List Word)
  | stepSend (label : Nat) (rows : List Row)
  | bar (level : Nat) (mask : Word)
  | matrix (a b : DWord) (imm : Word)
  | bcopy (d c rbase : DWord) (rlog bq : Nat)
  | bfence (mask : Nat)
  | bgid (mcast : Bool) (ident : Nat) (d : DWord)
  | bgfree (ident : Nat)
  | launch (record : DWord) (q : Nat)
deriving DecidableEq, Repr

/-- An entry of a block store buffer or of a cluster write queue (R148, R233, R326): `line` is its physical line, `home`
its home as in `LaneAcc`. `mask` holds the lanes of its issue, and `lanes` the lanes of a store with their addresses and data, which a shadow's
entry is compared by (R332); `ms` marks a store to a memory-side page (R247). `req` names the pending reply it
answers, if any; `deps` are the replies of its group that were out when it was issued; `cmp` is set once its shadow
comparison has passed or none is needed; `gen` is the binding that a contribution was issued under (R375); `ord` orders the entries of a core by age. -/
structure SbEntry where
  part : Nat := 0
  node : DWord := 0
  core : Nat := 0
  slot : Nat := 0
  blk : Nat := 0
  grp : Nat := 0
  tag : Tag := {}
  va : DWord := 0
  line : Nat := 0
  home : Nat := 0
  op : MemOp := .bgfree 0
  mask : Lanes := 0
  lanes : List (Nat × DWord × DWord) := []
  ms : Bool := false
  req : Option Nat := none
  deps : List Nat := []
  cmp : Bool := true
  ord : Nat := 0
  gen : Nat := 0
deriving DecidableEq, Repr

/-- What a pending reply is for; `acq` marks one that acquires (R160, R198). -/
inductive PendKind where
  | load (k : LdKind) | tile (z row : Nat) | atom (acq : Bool) | hold (acq : Bool) | post
deriving DecidableEq, Repr

/-- A reply that is out (the scoreboard, R116, R157, R160): destination, type, lanes still out and values arrived. -/
structure Pend where
  id : Nat
  kind : PendKind
  mask : Lanes := 0
  dst : Opnd := .zero
  ty : Ty := .b32
  nw : Bool := false
  act : Lanes := 0
  lanes : List LaneAcc := []
  got : List (Nat × DWord) := []
  pred : Option Nat := none
  poisoned : Bool := false
  refused : Bool := false
  tag : Tag := {}
deriving DecidableEq, Repr

/-! ## Groups -/

/-- The state of a frontier entry (R122). -/
inductive EState where | live | blocked | yielded
deriving DecidableEq, Repr

/-- The REP pair in progress on an entry: last iteration and signed steps (R47). -/
structure RepCtx where
  last : Nat
  xs : BitVec 4
  ys : BitVec 4
  zs : BitVec 4
  ws : BitVec 4
deriving DecidableEq, Repr

/-- One lane of a WAITW or TRYW (R164): lane, whether the word is local, its address (local or physical), its virtual
address, the comparand, the word that satisfied it, and whether an evaluation waits until its window is PRESENT (R152). -/
structure WaitLane where
  lane : Nat
  loc : Bool
  addr : Nat
  va : DWord
  cmpd : Word
  seen : Option Word := none
  again : Bool := false
deriving DecidableEq, Repr

/-- What a BLOCKED entry waits for (R122); `queue` is a shadow's wait for its load-value queue (R128). -/
inductive Wait where
  | word (isTry : Bool) (x : Opnd) (nw : Bool) (cmp : WCmp) (lanes : List WaitLane) (act : Lanes) (since : Nat)
  | lock (x : Opnd) (nw : Bool) (act : Lanes) (pa : Nat) (va : DWord)
  | pwait (x z : Opnd) (nw : Bool) (act : Lanes) (pa : Nat) (va : DWord)
  | lsync (m act : Lanes)
  | recv (q : Nat)
  | queue
deriving DecidableEq, Repr

/-- A frontier entry (R119; `tckAt` is its group's TCK as it stood at the region entry, once a request has been posted since (R236), `resend` the IX of a load that is
asked for again after a NAK (R268)), with the REP pair in progress (R49), the results its chain holds, newest first (R44; `some
id` while reply `id` is out), whether a trap broke its chain (R45), its CHN reservation (R43), and what it waits for. `due` holds the lanes of the entries that must issue before a YIELDED
entry is LIVE again (R122). -/
structure Entry where
  prio : Nat
  ix : Word
  mask : Lanes
  rgn : Word
  repi : Nat := 0
  st : EState := .live
  spilled : Bool := false
  cnt : SMap Word := []
  rep : Option RepCtx := none
  chain : List (Option Nat × Row64) := []
  broken : Bool := false
  chn : Bool := false
  wait : Option Wait := none
  due : Lanes := 0
  tckAt : Option Word := none
  resend : Option Word := none
deriving DecidableEq, Repr

/-- A published bank of a lattice group: its label (none before any) and its exports (R170, R171). -/
structure Bank where
  label : Option Int := none
  rows : SMap Row := []
deriving DecidableEq, Repr

/-- A value of a load-value queue (R128): the IX and lanes of the issue it belongs to, and the value, or the reply that
will bring it. -/
structure LvEnt where
  ix : Word
  act : Lanes
  req : Option Nat := none
  val : Row64
deriving DecidableEq, Repr

/-- The role of a group in a redundant launch (R128). -/
inductive Shadow where | none | leader | shadow
deriving DecidableEq, Repr

/-- A group in its slot (R114). `rslot` is the slot a refusal was charged to (R323). `lvq` is a shadow's load-value queue, oldest first;
`shq` holds a shadow's operations that await comparison; `issued` counts issues, for the lag of a pair (R128); `nbHold` counts the
cycles for which a neighbour read or STEP has held the group on a tile that is not resident (R283), and `away` marks a tile that is leaving its
slot (R284). -/
structure Group where
  part : Nat := 0
  node : DWord := 0
  blk : Nat := 0
  grp : Nat := 0
  vregs : SMap Row := []
  preds : SMap Lanes := []
  sregs : SMap Word := []
  front : List Entry := []
  ncall : SMap Word := []
  stall : Nat := 0
  sleep : Nat := 0
  yld : Bool := false
  passed : Nat := 0
  promoted : Option Nat := Option.none
  age : Nat := 0
  tck : Word := 0
  cmp : Word := 0
  step : Word := 0
  bank0 : Bank := {}
  bank1 : Bank := {}
  ports : SMap Word := []
  portSeq : SMap Nat := []
  lastRecv : SMap Word := []
  heirKind : HKind := .none
  heirGrp : Nat := 0
  pend : List Pend := []
  raised : Bool := false
  cause : Nat := 0
  charged : Lanes := 0
  faddr : DWord := 0
  serial : Word := 0
  aux : Word := 0
  rslot : Option Nat := Option.none
  shadow : Shadow := .none
  lvq : List LvEnt := []
  shq : List SbEntry := []
  issued : Nat := 0
  nbHold : Option Nat := Option.none
  away : Bool := false
deriving DecidableEq, Repr

/-! ## Cores -/

/-- The state of a window (R154). -/
inductive WinState where | absent | filling | present
deriving DecidableEq, Repr

/-- A window with its descriptor (R151). -/
structure Window where
  gbase : DWord := 0
  gpitch : Nat := 0
  aval : Word := 0
  lbase : Nat := 0
  llen : Nat := 0
  aaddr : Nat := 0
  rows : Nat := 0
  roww : Nat := 0
  st : WinState := .absent
  touch : Tag := {}
deriving DecidableEq, Repr

/-- The store buffer of one block on a core (R326). -/
structure BlockBuf where
  part : Nat
  node : DWord
  blk : Nat
  ents : List SbEntry := []
deriving DecidableEq, Repr

/-- A cached translation: partition, page base and size, and the leaf entry (R249, R251). -/
structure TlbEnt where
  part : Nat
  base : Nat
  size : Nat
  pte : DWord
deriving DecidableEq, Repr

/-- A message packet in a receive queue (R270, R271). -/
structure Msg where
  src : Nat
  port : Nat
  seq : Nat
  slot : Nat
  words : List Word
deriving DecidableEq, Repr

/-- A receive queue (R269) with its discard count (R272) and the sequence numbers next deliverable per sending port. -/
structure RecvQ where
  msgs : List Msg := []
  discards : Nat := 0
deriving DecidableEq, Repr

/-- A mirror face of a resident lattice group (R281), named by the tile that reads it and its direction: the counter of the tile across it as
sent, both banks in the lanes of that tile's boundary cells, and the exports of a label that have arrived while others are on their way. -/
structure Mirror where
  node : DWord
  tile : Nat
  dir : Dir
  count : Nat := 0
  bank0 : Bank := {}
  bank1 : Bank := {}
  got : List (Nat × Nat) := []
deriving DecidableEq, Repr

/-- What a lattice-class packet brings to a face (R175, R281): the new counter of the tile across it, which is one more than `label`, or, with
`cells`, the boundary lanes of one export under that label. -/
structure LabelMsg where
  node : DWord
  tile : Nat
  dir : Dir
  label : Nat
  cells : Option (Nat × List (Nat × Word)) := none
deriving DecidableEq, Repr

/-- A core; `l1ev` lists the lines of its L1 that are the first to go (R157); `wdc` is the watchdog count of the node that it holds, `wdcs` those of other nodes by record address (R310); `fillLast` holds the window, the toucher and the rows done of a fill that faulted (R155). -/
structure Core where
  part : Nat := 0
  node : Option DWord := none
  regg : Nat := 0
  locg : Nat := 0
  reserve : Nat := 0
  slots : List (Nat × Group) := []
  age : Nat := 0
  lmem : List Host.Cell := []
  lpoison : List Nat := []
  wins : SMap Window := []
  fillq : List Nat := []
  fillRow : Nat := 0
  fillFault : Nat := 0
  fillFaddr : DWord := 0
  fillLast : Nat × Nat × Nat := (0, 0, 0)
  l1 : SMap Line := []
  l1ev : List Nat := []
  bufs : List BlockBuf := []
  tlb : List TlbEnt := []
  accs : SMap (BitVec 4096) := []
  apoison : SMap (BitVec 128) := []
  declared : Option WFmt := none
  mq : SMap RecvQ := []
  mirrors : List Mirror := []
  inbound : List LabelMsg := []
  cyc : Nat := 0
  wdc : Nat := 0
  wdcs : SMap Nat := []
  stopped : Bool := false
  vacating : Bool := false
deriving DecidableEq, Repr

/-! ## Clusters -/

/-- A weight plane (R207): elements per column, E3M5 scales per column, band scales, latched format. -/
structure Plane where
  fmt : Option WFmt := none
  cols : SMap (BitVec 4096) := []
  scales : SMap (BitVec 1024) := []
  band0 : BitVec 16 := 0
  band1 : BitVec 16 := 0
  poison : Bool := false
deriving DecidableEq, Repr

/-- The state of a matrix request (R217). -/
inductive MState where
  | queued | fetching | leave | streaming | draining | loading
deriving DecidableEq, Repr

/-- A request of the reservation table (R215, R226, R227); `ready` marks a pass that came back from a save image with its rows (R223), and
`residue` one whose residue check has found a mismatch (R219). -/
structure MReq where
  part : Nat
  core : Nat
  slot : Nat
  node : DWord
  blk : Nat
  grp : Nat := 0
  tag : Tag
  ticket : Word
  prio : Nat
  pass : Bool
  st : MState := .queued
  elem : DWord
  scale : DWord := 0
  wf : WFmt
  af : WFmt := .f4
  zk : Nat := 0
  m : Nat := 0
  pitch : Nat := 0
  rsc : Bool := false
  passed : Nat := 0
  promoted : Option Nat := none
  rows : SMap (BitVec 9216) := []
  plane : Plane := {}
  poisoned : Bool := false
  fault : Nat := 0
  faddr : DWord := 0
  killed : Bool := false
  granted : Bool := false
  ready : Bool := false
  residue : Bool := false
deriving DecidableEq, Repr

/-- A cluster: its planes by core, the reservation table in posting order, the cluster write queue, the address at which the last MLDW of
each core faulted, and the faulted request that a stop record is to show (R220). -/
structure Cluster where
  planes : SMap Plane := []
  table : List MReq := []
  emptied : List (Nat × DWord) := []
  report : Option MReq := none
  frozen : Bool := false
  promo : Nat := 0
  wq : List SbEntry := []
deriving DecidableEq, Repr

/-! ## Dies, mesh and stacks -/

/-- A kind of access a translation serves (R249). -/
inductive AccKind where | read | write | rdwr | fetch | hold | bop
deriving DecidableEq, Repr

/-- A frontier entry that waits on a walk: core, slot, its lanes, what it needs, and the address it walked for. -/
structure Waiter where
  core : Nat
  slot : Nat
  lanes : Lanes
  kind : AccKind
  va : DWord
deriving DecidableEq, Repr

/-- The slot number by which a core's window fill unit waits on a walk (R153): no group's. -/
def fillWaiter : Nat := 64
/-- The slot number by which a matrix engine's fetch unit waits on a walk for a core (R216): no group's. -/
def fetchWaiter : Nat := 65
/-- The slot number by which a block-transfer engine waits on a page that the host is asked for (R369): no group's. Its core number is 16 times the
partition plus the engine's. -/
def bteWaiter : Nat := 66
/-- The slot number by which the front end of a partition waits on such a page: no group's. Its core number is the partition's. -/
def frontWaiter : Nat := 67

/-- An outstanding walk of a 64 KiB page (R251); `asked` once a page request is out (R369), `again` once it restarts. -/
structure Walk where
  id : Nat
  part : Nat
  page : Nat
  waiters : List Waiter
  asked : Bool := false
  again : Bool := false
deriving DecidableEq, Repr

/-- A walk of the estate unit (R191, R193): the group that exited or was killed, whether a killed one still holds its slot, the heirless holdings found so far
and the first of them (R192). -/
structure EWalk where
  part : Nat
  node : DWord
  blk : Nat
  grp : Nat
  gslot : Nat
  killed : Bool
  holds : Bool := false
  relaunch : Bool := false
  teardown : Bool := false
  heirless : Nat := 0
  firstHl : DWord := 0
deriving DecidableEq, Repr

/-- A refusal on its way to its originating core (R323): the core, the node and group charged, the originator tag, the
virtual address, the serial and the full record (R324). -/
structure RFault where
  core : Nat
  part : Nat
  node : DWord
  blk : Nat
  grp : Nat
  tag : Tag
  va : DWord
  serial : Word
  full : Record
deriving DecidableEq, Repr

/-- A swap of a die's lattice scheduler (R283, R285, R289): the tile, OP 1 for a downdraft, 2 for an updraft, 3 for the record of one that exits,
the global slot, and the 128-byte lines of its record that are done. -/
structure Swap where
  part : Nat
  node : DWord
  tile : Nat
  op : Nat
  gslot : Nat
  line : Nat := 0
deriving DecidableEq, Repr

/-- A compute die with its base tile. `pwc` is the cache of its page walkers: the tables that entries name, by 2^60 times the partition plus the
entry's address (R29, R252). `freq` is its core clock in tenths of a GHz (R31); `clkBase` and `clkCyc` are the mesh clock and the core
cycles at the last change of it (log 9); `periods` counts its activity periods of 8,192 mesh clocks (R279). `budgets` and `used`
hold, by 8 times the partition plus the traffic class, the budgets set and the requests of this period, and `waiting` is set while a request waits for
the next one (R335). -/
structure Die where
  freq : Nat := 25
  walks : List Walk := []
  stlb : List TlbEnt := []
  pwc : SMap Nat := []
  estq : List EWalk := []
  estLast : DWord := 0
  estFault : Nat := 0
  estOwner : Nat := 0
  estTag : Nat := 0
  estPart : Nat := 0
  estNode : DWord := 0
  errlog : List Record := []
  errCount : Nat := 0
  serial : Nat := 0
  leaveq : List (Nat × Nat) := []
  swapq : List Swap := []
  leaveCap : Option Nat := none
  committed : Nat := 0
  budgets : SMap Nat := []
  used : SMap Nat := []
  waiting : Bool := false
  periods : Nat := 0
  clkBase : Nat := 0
  clkCyc : Nat := 0
  linkUse : List ((Nat × DWord) × Nat) := []
  heldNodes : List (Nat × DWord) := []
  refused : List RFault := []
  powered : Bool := true
deriving DecidableEq, Repr

/-- The class of a packet (R265). -/
inductive PClass where | message | request | response | lattice
deriving DecidableEq, Repr

/-- What a packet carries besides the words of a message (R264, R281): the read of one line for a load, an operation of a cluster write queue
by its age, the answer to a reply that is out, the value of one that answers with a single word, or the cells of a face. -/
inductive Cargo where
  | words
  | read (slot req line : Nat)
  | write (cl ord : Nat)
  | reply (slot req : Nat)
  | status (slot req : Nat) (val : DWord) (ok acq : Bool)
  | face (m : LabelMsg)
deriving DecidableEq, Repr

/-- An input port of a router: base tile, row, stop, and the number of the port there (R263). -/
structure PortAt where
  tile : Nat
  row : Nat
  stop : Nat
  entry : Nat
deriving DecidableEq, Repr

/-- A packet in the mesh (R264 to R268): its router and the input port it stands in there, its channel, the reserved and shared slots it
holds (R266), and how long it has been blocked. `pay` counts the payload flits of a packet other than a message. On the escape channel its flits may
stretch over several ports: `trail` lists those behind the head's, nearest first, with the flits in each, and `base` is the port where it left its
ordinary channel, in which it still holds its slots (R267). -/
structure Packet where
  id : Nat
  part : Nat
  node : DWord
  src : Nat
  dst : Nat
  dq : Nat
  port : Nat
  seq : Nat
  slot : Nat
  words : List Word
  route : Nat
  tile : Nat
  row : Nat
  stop : Nat
  entry : Nat := 0
  post : Bool := false
  esc : Bool := false
  rsv : Nat := 0
  shr : Nat := 0
  blocked : Nat := 0
  resent : Bool := false
  nak : Bool := false
  tag : Tag := {}
  cls : PClass := .message
  cargo : Cargo := .words
  pay : Nat := 0
  blk : Nat := 0
  trail : List (PortAt × Nat) := []
  base : Option PortAt := none
deriving DecidableEq, Repr

/-- An HBM stack's scrubber (R334): the next line of the stack, the corrected errors of the last 16 periods, newest first, the demand lines
so far in this period, the partition-set share in percent, and each partition's lines in this period (R337). -/
structure Stack where
  pos : Nat := 0
  hist : List Nat := []
  demand : Nat := 0
  share : Nat := 80
  use : SMap Nat := []
deriving DecidableEq, Repr

/-! ## Partitions -/

/-- A partition's state (R339). -/
inductive PState where
  | running | halting | halted | quiescing | quiesced | preempting | preempted
deriving DecidableEq, Repr

/-- An accepted packet that has not completed (R295): its sequence number, its place in the order of acceptance of all queues, its 64 bytes,
whether it has started, and whether it arrived in a tear-down of its context (R303). -/
structure Pkt where
  seq : Word
  acc : Nat := 0
  body : Record
  started : Bool := false
  late : Bool := false
deriving DecidableEq, Repr

/-- A device post in the buffer of a queue (R295). -/
structure DevPost where
  record : DWord
  core : Nat
  slot : Nat
  req : Option Nat
deriving DecidableEq, Repr

/-- A command queue (R294, R295) with the bookkeeping of EVENT (R297): each failure with the order of its packet's acceptance, its cause and
the node of a LAUNCH. -/
structure Queue where
  qbase : DWord := 0
  qlog : Nat := 0
  qprio : Nat := 0
  qen : Bool := false
  tail : Word := 0
  head : Word := 0
  qstat : Nat := 0
  posts : List DevPost := []
  seq : Word := 0
  pkts : List Pkt := []
  fails : List (Nat × Nat × DWord) := []
  notes : Nat := 0
deriving DecidableEq, Repr

/-- A level entry of a launch record (R302). -/
structure Level where
  domain : Nat
  scope : Nat
  extent : Nat
deriving DecidableEq, Repr

/-- The front end's copy of a launch record (R300, R301). -/
structure Launch where
  code : DWord := 0
  nix : Nat := 0
  entry : Word := 0
  btab : List (Nat × Nat) := []
  levels : List Level := []
  regs : Nat := 32
  regg : Nat := 8
  locg : Nat := 0
  prio : Nat := 0
  redun : Bool := false
  rela : Bool := false
  hkind : HKind := .none
  hgrp : Nat := 0
  share : Nat := 100
  dims : Nat := 0
  wrap : BitVec 3 := 0
  edge : Nat := 0
  ta : Nat := 1
  tb : Nat := 1
  tc : Nat := 1
  ecount : Nat := 0
  live : Nat := 0
  kconst : Word := 0
  xe : Nat := 1
  ye : Nat := 1
  ze : Nat := 1
  backing : DWord := 0
  estate : DWord := 0
  estn : Nat := 0
  wdog : Nat := 0
  stoparea : DWord := 0
  args : DWord := 0
  argb : Nat := 0
  tiles : List DWord := []
  seed : DWord := 0
deriving DecidableEq, Repr

/-- A barrier in progress (R184): its level, unit and mask, and the groups that have arrived. -/
structure Barrier where
  level : Nat
  unit : Nat
  mask : Word
  arrived : List (Nat × Nat)
deriving DecidableEq, Repr

/-- A placed group (R278): its place, its fate, and the cores it has been vacated from. -/
structure Placed where
  blk : Nat
  grp : Nat
  core : Nat
  slot : Nat
  saved : Bool := false
  exited : Bool := false
  killed : Bool := false
  was : List Nat := []
deriving DecidableEq, Repr

/-- A tile of a lattice launch (R284). -/
inductive TileSt where | fresh | out | resident | eligible | moving | exited
deriving DecidableEq, Repr

/-- A fault that stopped the lattice scheduler (R285): tile, OP, FAULT, slot and address. -/
structure LFault where
  tile : Nat
  op : Nat
  code : Nat
  gslot : Nat
  faddr : DWord
deriving DecidableEq, Repr

/-- A node that the front end has accepted (R298 to R300). `st` is its STATE; in a tear-down 6 is killed while RUNNING and 7 killed before. `ords` holds the holdings counters of its groups by OWNER value
(R189); `nextBlk` is the next block to place, or the number of slots granted to a lattice; `slots` lists those (R278, R283); `lastSlots` the slot in which each tile of a lattice last stood (R192, R317); `moved` says for each core that has been vacated on which core what
it held has resumed (R278). -/
structure Node where
  addr : DWord
  la : Launch := {}
  queue : Nat := 0
  seq : Word := 0
  acc : Nat := 0
  estag : Nat := 0
  st : Nat := 1
  succs : List DWord := []
  args : List Word := []
  order : Nat := 0
  nextBlk : Nat := 0
  grantedBlks : List Nat := []
  placed : List Placed := []
  killedBlks : List Nat := []
  released : List Nat := []
  relaunched : SMap Nat := []
  badClusters : List (Nat × Nat) := []
  published : Bool := false
  bars : List Barrier := []
  granted : List (Nat × Nat) := []
  tiles : SMap TileSt := []
  tileImgs : List (Nat × Group) := []
  walksLeft : Nat := 0
  cause : Nat := 0
  ords : SMap Word := []
  slots : List Nat := []
  lfault : Option LFault := none
  moved : List (Nat × Nat) := []
  lastSlots : SMap Nat := []
deriving DecidableEq, Repr

/-- A group waiting at a holding word: a LOCK queue or a PWAIT (R195, R202), in order of arrival. -/
structure HoldWait where
  pa : Nat
  isLock : Bool
  core : Nat
  slot : Nat
  lanes : Lanes
  part : Nat
  node : DWord
  blk : Nat
  grp : Nat
  tag : Tag
  va : DWord
deriving DecidableEq, Repr

/-- A REDT node in use (R254): its children's values with their marks and counts, whether it has flushed, whether it is to be marked
INCOMPLETE, and the die and mesh clock at which its timer ends. -/
structure RNode where
  vals : List (Nat × (DWord × Bool × Nat)) := []
  flushed : Bool := false
  bad : Bool := false
  due : Option (Nat × Nat) := none
deriving DecidableEq, Repr

/-- The state of a reduction or multicast identifier (R358). -/
inductive IdSt where | free | bound | pending
deriving DecidableEq, Repr

/-- An identifier with its binding; `gen` counts its bindings, so that a contribution is of one of them (R358, R375). -/
structure Ident where
  st : IdSt := .free
  mcast : Bool := false
  infl : Nat := 0
  gen : Nat := 0
  desc : Record := 0
  nodes : List (Nat × RNode) := []
  delivered : Bool := false
deriving DecidableEq, Repr

/-- A contribution or partial on its way to a REDT node (R254). -/
structure Contrib where
  ident : Nat
  leaf : Bool
  idx : Nat
  node : Nat
  val : DWord
  inc : Bool
  incn : Nat
deriving DecidableEq, Repr

/-- A post of a BTE queue (R356), with the node and the die it came from; `cancel` marks one that a TEARDOWN has ended (R353). -/
structure BPost where
  seq : Word
  d : DWord
  c : DWord
  rbase : DWord
  rlog : Nat
  node : DWord
  die : Nat := 0
  cancel : Bool := false
deriving DecidableEq, Repr

/-- An item of a BTE queue: a post, or a fence with its number and the queues it names (R352). -/
inductive BItem where
  | post (p : BPost)
  | fence (n mask : Nat)
deriving DecidableEq, Repr

/-- A descriptor in progress (R349 to R351): bytes done, its outcome once it has ended, the multicast descriptor that it names, the bytes read for
peers, how far its completion has come (1 with the control block locked, 2 with the record written) and the record's place in the ring. -/
structure BRun where
  post : BPost
  desc : Record
  bytesDone : Nat := 0
  ended : Bool := false
  status : Nat := 0
  fcode : Nat := 0
  faddr : DWord := 0
  leave : Bool := false
  poisoned : Bool := false
  awaiting : Nat := 0
  mdesc : Record := 0
  dests : List (Nat × DWord × Nat) := []
  data : List Byte := []
  phase : Nat := 0
  tail : Nat := 0
deriving DecidableEq, Repr

/-- A BTE queue (R347). -/
structure BteQ where
  items : List BItem := []
  seq : Word := 0
  run : Option BRun := none
  stopped : Bool := false
deriving DecidableEq, Repr

/-- A write that has arrived for a running collective (R366): source rank, sequence number, address and length. -/
structure Arrival where
  src : Nat
  seq : Nat
  va : DWord
  len : Nat
deriving DecidableEq, Repr

/-- A collective in progress (R362 to R366). -/
structure CollRun where
  q : Nat
  pseq : Word
  prog : DWord
  lbase : DWord
  sigw : DWord
  comm : Nat
  pc : Nat := 0
  lc : SMap Nat := []
  sent : SMap Nat := []
  got : SMap Nat := []
  arrivals : List Arrival := []
  unacked : Nat := 0
deriving DecidableEq, Repr

/-- A communicator entry (R361). -/
structure Comm where
  rank : Nat := 0
  nrank : Nat := 0
  ptab : DWord := 0
deriving DecidableEq, Repr

/-- A saved core image (R306), with the slots of a lattice that it held and the address at which its
last MLDW faulted (R220); `refused` marks one whose restore ended in the image-version fault, as the front end has been told (R223, R307). -/
structure Image where
  slot : Nat
  base : DWord
  core : Nat
  img : Core
  plane : Plane
  reqs : List MReq
  grants : List Nat := []
  emptied : Option DWord := none
  refused : Bool := false
deriving DecidableEq, Repr

/-- A consumption charged to a block of which no group is resident (R327): its node, the block, the core and the last slot of the group that issued
the access, the source code and the address. -/
structure Consumed where
  node : DWord
  blk : Nat
  core : Nat
  slot : Nat
  src : Nat
  pa : Nat
deriving DecidableEq, Repr

/-- A partition (R294, R337, R339); `named` holds the cores that the command in progress vacates (R304, R308), `marked` the stop
areas whose summary holds a cause (R318, R321), `denied` the pages that the host has refused to an engine and whose fault is still to be raised (R369,
R371), `consumed` the consumptions of blocks without a resident group that are still to be contained (R327), `clkStop` the mesh clocks of the dies at which the context stopped counting them (R254). -/
structure Part where
  st : PState := .running
  lay : Layout := { clusters := [], slices := [], ways := [], hbm := [], weight := 1, hbmShare := 100 }
  queues : SMap Queue := []
  ptroot : DWord := 0
  psave : DWord := 0
  psavesz : Word := 0
  carg : Nat := 0
  crec : DWord := 0
  cstat : Nat := 0
  cmd : Nat := 0
  named : Option (List Nat) := none
  root : DWord := 0
  saveBase : DWord := 0
  hmode : Bool := false
  prq : Bool := false
  denied : List Nat := []
  ivec : Nat := 0
  rkey : Word := 0
  late : DWord := 0
  comms : SMap Comm := []
  journal : List (BitVec 256) := []
  jnext : Nat := 0
  nodes : List Node := []
  order : Nat := 0
  estags : List Nat := []
  holdq : List HoldWait := []
  idents : SMap Ident := []
  contribs : List Contrib := []
  bte : SMap BteQ := []
  fences : Nat := 0
  colls : List CollRun := []
  images : List Image := []
  squall : Bool := false
  unitsLeft : List Unit' := []
  cause : Nat := 0
  causeNode : Option DWord := none
  faddr : DWord := 0
  tearing : Bool := false
  lastPkt : Nat × Word × Nat := (0, 0, 0)
  turns : SMap Nat := []
  stopMove : Option (List (Nat × Layout)) := none
  marked : List DWord := []
  clkStop : Option (List Nat) := none
  consumed : List Consumed := []
deriving DecidableEq, Repr

/-! ## The fabric, the management processor and the whole machine -/

/-- A request that the device has sent to a peer and awaits (R367), with its immediate; `bad` marks one whose immediate names an illegal
reduction (R366), `pseq` the COLL that sent it. `src` is the address that a READ names on the peer, `pkey` the peer's key, `data` what a descriptor's
WRITE carries, `ident` the multicast identifier that it counts for (R358). -/
structure Rdma where
  qp : Nat
  part : Nat
  q : Nat
  isColl : Bool
  pseq : Word := 0
  imm : Option Word := none
  isRead : Bool
  dst : DWord
  len : Nat
  retries : Nat := 0
  bad : Bool := false
  src : DWord := 0
  pkey : Word := 0
  data : List Byte := []
  ident : Option Nat := none
deriving DecidableEq, Repr

/-- A queue pair of an I/O die (R29, R367): how often it was told of congestion, and whether the device has sent by it. -/
structure QPair where
  slow : Nat := 0
  live : Bool := false
deriving DecidableEq, Repr

/-- What the device has answered to a peer or the host (R367, R368): an acknowledgement, a refusal, the data of a read, or a NAK as invalid. -/
inductive Wire where
  | ack (part : Nat)
  | refused (part : Nat)
  | data (part : Nat) (bytes : List Byte)
  | invalid (qp : Nat)
deriving DecidableEq, Repr

/-- SPDM state of one transport (R372). -/
structure Spdm where
  version : Bool := false
  caps : Bool := false
  algs : Option Nat := none
  keyed : Bool := false
  session : Bool := false
deriving DecidableEq, Repr

/-- How a bring-up has ended (R35): the module is presented to the host, stays in the management state, or its start was halted for want of a valid
signature. -/
inductive Boot where | presented | management | halted
deriving DecidableEq, Repr

/-- The management processor (R35, R342, R372). -/
structure Mgmt where
  spdm : SMap Spdm := []
  certs : SMap Nat := [(0, 1)]
  firmware : Nat := 0
  nextImage : Option Nat := none
  shutdown : Bool := false
  boot : Boot := .presented
  nextBoot : Boot := .presented
  replies : List (Nat × List Record) := []
deriving DecidableEq, Repr

/-- The issuing entry: core, slot, and the lowest lane of the entry (entries have disjoint masks, R119). -/
structure Sel where
  core : Nat
  slot : Nat
  lane : Nat
deriving DecidableEq, Repr

/-- How the host port of an I/O die has trained (R368): as PCI Express or as CXL, and its lanes. -/
structure HostLink where
  cxl : Bool := false
  width : Nat := 16
deriving DecidableEq, Repr

/-- The whole machine. `bteTurn` says for each block-transfer engine, by 16 times its I/O die plus its number, which partition it served last (R347), and
`ats` which partitions' pages of the host an I/O die has translations of (R348). `live` lists the holding words that the arithmetic units hold live, by physical address over 16 (R187). -/
structure State where
  agenda : List Instr := []
  sel : Option Sel := none
  held : List Sel := []
  heldGroups : List (Nat × Nat) := []
  free : Nat := 0
  reqId : Nat := 0
  mem : List Host.Cell := []
  poison : SMap (BitVec 128) := []
  live : SMap Bool := []
  cores : SMap Core := []
  clusters : SMap Cluster := []
  dies : SMap Die := []
  packets : List Packet := []
  failed : List LinkId := []
  hbm : SMap Stack := []
  parts : SMap Part := []
  rdma : List Rdma := []
  qps : SMap QPair := []
  bteTurn : SMap Nat := []
  ats : List (Nat × Nat) := []
  paused : List (Nat × Nat) := []
  fns : SMap Nat := []
  links : SMap HostLink := []
  mgmt : Mgmt := {}
  irqs : List (Nat × Nat) := []
  wire : List Wire := []
deriving DecidableEq, Repr

/-- Partition 0 after module reset: it owns all clusters, 64 slices on every die, no bank way and all HBM (log 3). -/
def Part.initial : Part :=
  { lay := { clusters := List.range 128, slices := (List.range 8).map fun d => (d, List.range 64), ways := [],
             hbm := [(0, 0x20000000000)], weight := 1, hbmShare := 100 } }

/-- The machine right after module reset and bring-up (R35): nothing is placed, every register map lists nothing,
partition 0 owns the device (log 3). -/
def State.reset : State :=
  { agenda := [], sel := none, held := [], heldGroups := [], free := 0, reqId := 0, mem := [], poison := [],
    live := [], cores := [], clusters := [], dies := [], packets := [], failed := [], hbm := [], parts := [(0, Part.initial)],
    rdma := [], qps := [], bteTurn := [], ats := [], paused := [], fns := [], links := [], mgmt := {}, irqs := [], wire := [] }

end Sys2Proof.Machine
end

