-- ==== Sys2Proof/Machine/Maps.lean ====
section
/-! DEFINITION. Sparse maps: reading and writing a list of key and value pairs in its one canonical form (keys strictly
rising, no entry equal to the default). -/
namespace Sys2Proof.Machine

/-- The value at key `k`, or the default `d`. -/
def mapGet {α : Type} (d : α) : SMap α → Nat → α
  | [], _ => d
  | (j, v) :: t, k => if j = k then v else mapGet d t k

/-- The map without key `k`. -/
def mapDel {α : Type} : SMap α → Nat → SMap α
  | [], _ => []
  | (j, v) :: t, k => if j = k then mapDel t k else (j, v) :: mapDel t k

/-- A pair put before the first larger key. -/
def mapIns {α : Type} : SMap α → Nat → α → SMap α
  | [], k, v => [(k, v)]
  | (j, w) :: t, k, v => if j < k then (j, w) :: mapIns t k v else (k, v) :: (j, w) :: t

/-- The map with `v` at key `k`; the default value is not listed. -/
def mapSet {α : Type} [DecidableEq α] (d : α) (m : SMap α) (k : Nat) (v : α) : SMap α :=
  if v = d then mapDel m k else mapIns (mapDel m k) k v

/-- The canonical form: keys strictly rising from above `lo`, no entry equal to the default. -/
def mapOk {α : Type} [DecidableEq α] (d : α) : Option Nat → SMap α → Bool
  | _, [] => true
  | lo, (j, v) :: t => (match lo with | none => true | some l => decide (l < j)) && decide (v ≠ d) && mapOk d (some j) t

/-- Several writes in order. -/
def mapSets {α : Type} [DecidableEq α] (d : α) (m : SMap α) (l : List (Nat × α)) : SMap α :=
  l.foldl (fun m p => mapSet d m p.1 p.2) m

/-- The value at key `k` of a list of pairs in any order. -/
def assoc {α : Type} : List (Nat × α) → Nat → Option α
  | [], _ => none
  | (j, v) :: t, k => if j = k then some v else assoc t k

/-- The element at an index changed by `f`. -/
def listMod {α : Type} (l : List α) (k : Nat) (f : α → α) : List α :=
  match l, k with
  | [], _ => []
  | a :: t, 0 => f a :: t
  | a :: t, k + 1 => a :: listMod t k f

/-- An element put before the first one that it may precede. -/
def sortIns {α : Type} (le : α → α → Bool) (a : α) : List α → List α
  | [] => [a]
  | b :: t => if le a b then a :: b :: t else b :: sortIns le a t

/-- A list sorted by `le`, equal elements in their old order. -/
def sortBy {α : Type} (l : List α) (le : α → α → Bool) : List α := l.foldr (sortIns le) []

/-- The list without the element at an index. -/
def listDrop {α : Type} (l : List α) (k : Nat) : List α :=
  match l, k with
  | [], _ => []
  | _ :: t, 0 => t
  | a :: t, k + 1 => a :: listDrop t k

end Sys2Proof.Machine
end

