-- ==== Sys2Proof/Machine/Memory.lean ====
section
/-! DEFINITION. Physical memory, homes and slices (spec/15 R238 to R245), page tables and walks (R248 to R250), and
memory reached by virtual address. Every byte nothing has written reads 0 (log 1). -/
namespace Sys2Proof.Machine

/-! ## Bytes -/

/-- What an address that the memory does not list reads as (log 1; bank memory R244). -/
def memDefault : Byte := 0

/-- One byte of physical memory. -/
def memByte (s : State) (a : Nat) : Byte := mapGet memDefault s.mem a

/-- Whether the line of an address is poisoned (R243, R344). -/
def linePoisoned (s : State) (pa : Nat) : Bool := mapGet 0 s.poison (pa / 128) != 0

/-- The marks left on a poisoned line once a byte of it has been written: a slice's line holds what has been written to it, and the poison goes when
that is all 128 bytes (R344, log 11). -/
def poisonAfter (m : SMap (BitVec 128)) (a : Nat) : SMap (BitVec 128) :=
  let w := mapGet 0 m (a / 128)
  if w = 0 then m else mapSet 0 m (a / 128) (w &&& ~~~(1#128 <<< (a % 128)))

/-- A write of one byte. -/
def memPut (s : State) (a : Nat) (b : Byte) : State :=
  { s with mem := mapSet memDefault s.mem a b, poison := poisonAfter s.poison a }

/-- The poison of a line put back after a write of fewer than its 128 bytes at its channel unit: on an MS page no slice holds what was written before
(R247, R344). -/
def keepPoison (old : State) (line n : Nat) (s : State) : State :=
  if 128 ≤ n || mapGet 0 old.poison line = 0 then s else { s with poison := mapSet 0 s.poison line (mapGet 0 old.poison line) }

/-- Several byte writes in order. -/
def memPuts (s : State) (l : List (Nat × Byte)) : State := l.foldl (fun s p => memPut s p.1 p.2) s

/-- The little-endian number of the `n` bytes at `a` (R3). -/
def memRead (s : State) (a n : Nat) : Nat :=
  (List.range n).foldr (fun k acc => (memByte s (a + k)).toNat + 256 * acc) 0

/-- The `n` little-endian bytes of a number at rising addresses from `a` (R3). -/
def bytesAt (a n v : Nat) : List (Nat × Byte) :=
  (List.range n).map fun k => (a + k, BitVec.ofNat 8 (v / 256 ^ k))

/-- A write of the `n` bytes of a number at `a` (R3). -/
def memWrite (s : State) (a n v : Nat) : State := memPuts s (bytesAt a n v)

/-- The memory's canonical form. -/
def memWf (s : State) : Bool := mapOk memDefault none s.mem

/-- Whether some bytes meet a live holding word (R187). -/
def hitsLive (s : State) (l : List (Nat × Nat)) : Bool :=
  l.any fun p => (List.range p.2).any fun j => mapGet false s.live ((p.1 + j) / 16)

/-- Bytes written by an engine, each with whether its page is memory-side: a line of such a page keeps its poison unless all of it is written
(R247, R344). -/
def enginePuts (s : State) (l : List (Bool × Nat × Byte)) : State :=
  let ms := l.filter (·.1)
  ((ms.map fun p => p.2.1 / 128).dedup).foldl (fun t ln => keepPoison s ln (((ms.map (·.2.1)).filter fun a => a / 128 == ln).dedup.length) t)
    (memPuts s (l.map (·.2)))

/-! ## Regions and homes -/

/-- The regions of R238. -/
inductive Region where
  | hbm | device | bank (die off : Nat) | nothing
deriving DecidableEq, Repr

/-- The region of a physical address (R238). A bank line's address carries its partition above bit 55: each partition's bank memory on a die
is its own (R244). -/
def regionOf (a : Nat) : Region :=
  let pa := a % 2 ^ 56
  if pa < 0x20000000000 then .hbm
  else if 0xE000000000000 ≤ pa && pa < 0xF000000000000 then .device
  else if 0xF000000000000 ≤ pa && pa < 0xF080000000000 then
    .bank ((pa - 0xF000000000000) / 0x10000000000) ((pa - 0xF000000000000) % 0x10000000000)
  else .nothing

/-- How many slices a partition holds on a die (R337). -/
def slicesOn (l : Layout) (d : Nat) : Nat := ((assoc l.slices d).getD []).length
/-- The slice of a rank among those that a partition holds on a die, in ascending slice number (R242). -/
def sliceAt (l : Layout) (d i : Nat) : Nat := (((assoc l.slices d).getD [])[i]?).getD 0
/-- The bank ways of a partition on a die (R244). -/
def waysOn (l : Layout) (d : Nat) : Nat := (assoc l.ways d).getD 0

/-- Whether a physical address lies in the partition's HBM share (R250). -/
def inShare (l : Layout) (pa : Nat) : Bool := l.hbm.any fun r => r.1 ≤ pa && pa < r.1 + r.2

/-- The SUB code with which the home die refuses an address (R323, R324), if it does. -/
def refusalOf (l : Layout) (pa : Nat) : Option Nat :=
  match regionOf pa with
  | .hbm => if inShare l pa then none else some 1
  | .bank d off => if off < slicesOn l d * waysOn l d * 98304 then none else some 2
  | .device => none
  | .nothing => some 4

/-- The slice index of a home (R242): the rank of its slice among those that a partition holds on its die, in ascending slice number. -/
def sliceIndex (l : Layout) (home : Nat) : Nat := ((assoc l.slices (home / 64)).getD []).idxOf (home % 64)

/-- The exclusive-or of the `b`-bit chunks of a 44-bit value (R239, R242). -/
def chunkXor (b h : Nat) : Nat :=
  if b = 0 then 0 else (List.range 45).foldl (fun acc j => acc ^^^ (h / 2 ^ (j * b) % 2 ^ b)) 0

/-- The die that holds slices of the partition, from `d` upward modulo 8 (R241). -/
def dieFrom (l : Layout) (d : Nat) : Nat :=
  ((List.range 8).map fun k => (d + k) % 8).find? (fun e => slicesOn l e != 0) |>.getD d

/-- The home of a line under a leaf entry, as 64 * die + slice (R239, R241, R242, R245). A line reached under two homes is neither coherent nor ordered
between them (R240); memory is one here, so that what is read there is what was written last under either (DESIGN CHOICE, log 81). -/
def homeOf (l : Layout) (pa : Nat) (pte : DWord) : Nat :=
  match regionOf pa with
  | .bank d off => 64 * d + sliceAt l d (if slicesOn l d = 0 then 0 else off / 128 % slicesOn l d)
  | _ =>
    let ln := pa / 128 % 2 ^ 44
    let hd := (pte.extractLsb' 8 3).toNat
    let il := (pte.extractLsb' 11 2).toNat
    let d := if il = 0 then hd else if il = 1 then hd / 2 * 2 + chunkXor 1 ln else chunkXor 3 ln
    let h := if il = 0 then ln else if il = 1 then ln / 2 else ln / 8
    let d := dieFrom l d
    64 * d + sliceAt l d (chunkXor (Nat.log2 (slicesOn l d)) h)

/-- The entry that homes a line reached by physical address: IL 0 and HD from address bits 40 to 38 (R240). -/
def physPte (pa : Nat) : DWord := BitVec.ofNat 64 (pa / 2 ^ 38 % 8 * 256)

/-! ## Page tables -/

/-- How a walk ends (R250), or finds an entry that reads back uncorrectable (R327). -/
inductive WalkRes where
  | leaf (base size : Nat) (pte : DWord)
  | invalid | malformed | poisoned
deriving DecidableEq, Repr

/-- The index bits of a level (R248): shift and entry count. -/
def levelShift (level : Nat) : Nat := if level = 0 then 16 else 12 + 9 * level

/-- Whether a leaf entry at a level is well-formed (R249, R250). -/
def leafOk (level : Nat) (e : Nat) : Bool :=
  e / 128 % 2 == 0 && e / 2 ^ 13 % 8 == 0 && e / 2 ^ 52 == 0 && e / 2 ^ 11 % 4 != 3 && level ≤ 2 &&
  (level = 0 || e / 2 ^ 16 % 2 ^ (levelShift level - 16) == 0) &&
  (match regionOf (e / 2 ^ 16 % 2 ^ 36 * 2 ^ 16) with
   | .bank _ _ => e / 2 ^ 8 % 32 == 0 && e / 32 % 2 == 0
   | _ => true)

/-- The entry that a walk meets in a table at a level (R248): the next table, or how the walk ends. -/
def walkEntry (s : State) (va level tbl : Nat) : Except WalkRes Nat :=
  let n := if level = 0 then 32 else 512
  let a := tbl + 8 * (va / 2 ^ levelShift level % n)
  if linePoisoned s a then .error .poisoned else
  let e := memRead s a 8
  if e % 2 = 0 then .error .invalid
  else if e / 2 % 2 = 1 then
    (if leafOk level e then
      .error (.leaf (va / 2 ^ levelShift level * 2 ^ levelShift level) (2 ^ levelShift level) (BitVec.ofNat 64 e))
     else .error .malformed)
  else
    let nxt := e / 256 % 2 ^ 44 * 256
    if level = 0 || e / 4 % 64 != 0 || e / 2 ^ 52 != 0 || (level != 1 && nxt % 4096 != 0) then .error .malformed else .ok nxt

/-- The walk from a table at a level (R248). -/
def walkTable (s : State) (va : Nat) : Nat → Nat → WalkRes
  | 0, tbl => match walkEntry s va 0 tbl with | .error r => r | .ok _ => .malformed
  | l + 1, tbl => match walkEntry s va (l + 1) tbl with | .error r => r | .ok t => walkTable s va l t

/-- A virtual address is canonical when bits 63 to 57 equal bit 56 (R156). -/
def canonical (va : DWord) : Bool := va.toNat / 2 ^ 56 == 0 || va.toNat / 2 ^ 56 == 255

/-- A partition by its number. -/
def getPart (s : State) (p : Nat) : Part := mapGet {} s.parts p
/-- A partition replaced. -/
def setPart (s : State) (p : Nat) (v : Part) : State := { s with parts := mapSet {} s.parts p v }
/-- A partition changed. -/
def modPart (s : State) (p : Nat) (f : Part → Part) : State := setPart s p (f (getPart s p))

/-- The root in force: PTROOT as it stood when the last node became RUNNING, and PTROOT itself before that (R294,
log 12). A node that a tear-down killed while it ran still counts. -/
def rootOf (p : Part) : Nat := if p.nodes.any (fun n => n.st == 3 || n.st == 6) then p.root.toNat else p.ptroot.toNat

/-- A walk of the partition's page table. -/
def walkVa (s : State) (part : Nat) (va : DWord) : WalkRes :=
  walkTable s (va.toNat % 2 ^ 57) 4 (rootOf (getPart s part))

/-- Whether a leaf permits an access (R249, R250, R246). -/
def permits (pte : DWord) (k : AccKind) : Bool :=
  let r := pte.getLsbD 2
  let w := pte.getLsbD 3
  match k with
  | .read => r
  | .write | .hold => w
  | .rdwr => r && w
  | .fetch => pte.getLsbD 4
  | .bop => r && w && !pte.getLsbD 5

/-- The physical address of a virtual one under a leaf, in bank memory with the partition (R244). -/
def paOf (part base : Nat) (pte : DWord) (va : DWord) : Nat :=
  let pa := pte.toNat / 2 ^ 16 % 2 ^ 36 * 2 ^ 16 + (va.toNat % 2 ^ 57 - base)
  match regionOf pa with | .bank _ _ => pa + part * 2 ^ 56 | _ => pa

/-- The 64 KiB page of an address (R251). -/
def pageOf (va : DWord) : Nat := va.toNat % 2 ^ 57 / 65536

/-- How an engine's or the front end's own translation ends: an address with its leaf, a fault, or an uncorrectable
entry. -/
inductive EngTr where
  | ok (pa : Nat) (pte : DWord)
  | fault (k : TrapKind)
  | poisoned
deriving DecidableEq, Repr

/-- Translation by a unit that walks for itself (R216, R295, R318): PAGE or PROTECTION as R250 gives, and PAGE for a page of the host
that the host has refused (R371). -/
def engTrans (s : State) (part : Nat) (va : DWord) (k : AccKind) : EngTr :=
  if !canonical va then .fault .protection else
  match walkVa s part va with
  | .invalid | .malformed => .fault .page
  | .poisoned => .poisoned
  | .leaf base _ pte =>
    let pa := paOf part base pte va
    if (getPart s part).hmode && pte.getLsbD 6 && (getPart s part).denied.contains (pageOf va) then .fault .page
    else if !permits pte k || regionOf pa == .device then .fault .protection else .ok pa pte

/-- Whether the page of a virtual address is memory-side (R247, R249). -/
def pageMs (s : State) (part : Nat) (va : DWord) : Bool := match walkVa s part va with | .leaf _ _ pte => pte.getLsbD 5 | _ => false

/-- The `n` bytes at a virtual address as they stand, poisoned or not; `none` where any part does not translate. -/
def vaRaw (s : State) (part : Nat) (va : DWord) (n : Nat) : Option Nat :=
  (List.range n).foldr (fun k acc =>
    match acc, engTrans s part (va + BitVec.ofNat 64 k) .read with
    | some x, .ok pa _ => if refusalOf (getPart s part).lay pa == none then some ((memByte s pa).toNat + 256 * x) else none
    | _, _ => none) (some 0)

/-- The `n` bytes at a virtual address as a number, translated byte page by byte page; `none` where any part fails, or reads back uncorrectable
(log 66). -/
def vaRead (s : State) (part : Nat) (va : DWord) (n : Nat) : Option Nat :=
  (List.range n).foldr (fun k acc =>
    match acc, engTrans s part (va + BitVec.ofNat 64 k) .read with
    | some x, .ok pa _ => if refusalOf (getPart s part).lay pa == none && !linePoisoned s pa then some ((memByte s pa).toNat + 256 * x) else none
    | _, _ => none) (some 0)

/-- A write of `n` bytes at a virtual address by an engine; `none`, with nothing written, where any part fails or meets a live holding word (R187). -/
def vaWrite (s : State) (part : Nat) (va : DWord) (n v : Nat) : Option State :=
  let l := (List.range n).map fun k =>
    match engTrans s part (va + BitVec.ofNat 64 k) .write with
    | .ok pa pte => if refusalOf (getPart s part).lay pa == none && !hitsLive s [(pa, 1)] then some (pte.getLsbD 5, pa, (BitVec.ofNat 8 (v / 256 ^ k) : Byte)) else none
    | _ => none
  if l.all Option.isSome then some (enginePuts s (l.filterMap id)) else none

end Sys2Proof.Machine
end

