-- ==== Sys2Proof/WellFormed.lean ====
section
/-! DEFINITION. Well-formed instructions: the operand values are ones the ten bits of R38 can hold, FN and TY are legal with
their joint conditions (R52 checks 2 and 3) and the unused IMM bits are zero (R52 check 4). -/
namespace Sys2Proof

/-- The raw operand values that R38 reserves. -/
def reservedRaw (b : Nat) : Bool :=
  (880 ≤ b && b ≤ 895) || (908 ≤ b && b ≤ 911) || (945 ≤ b && b ≤ 959) || (968 ≤ b && b ≤ 1022)

/-- A `reserved` operand carries a value that R38 reserves. -/
def opndWf : Opnd → Bool
  | .reserved raw => reservedRaw raw.toNat
  | _ => true

/-- The operand fields of a word are well-formed. -/
def encWf (c : Enc) : Bool := opndWf c.x && opndWf c.y && opndWf c.z

/-- The FN values that R51 leaves an operation whose constructor could carry more: RED has no exchange, compare or acquire form (R160), and a
barrier's level is 2 to 7 (R185). -/
def fnOk : Instr → Bool
  | .red _ op ord _ => op != .exch && op != .cas && (ord == .rlx || ord == .rel)
  | .bar _ level => decide (2 ≤ level.val)
  | _ => true

/-- A well-formed operation; an event has no encoding and nothing to check. -/
def instrWf (i : Instr) : Bool :=
  fnOk i && tyOk i && immOk i && (match encOf i with | some c => encWf c | none => true)

end Sys2Proof
end

