-- ==== Sys2Proof/Decode.lean ====
section
/-! DEFINITION. The decoder and the encoder of the 96-bit instruction word (spec/04 R36 to R38, R50 to R52): decoding is
total and rejects by name, in the order of checks 1 to 4 of R52. -/
namespace Sys2Proof

/-- Why a word is no instruction: checks 1 to 4 of R52, all ILLEGAL_INSTRUCTION. -/
inductive DecodeErr where
  | reservedOp | illegalFn | illegalTy | reservedBits
deriving DecidableEq, Repr

/-- The bit fields of a word (R37). -/
structure Fields where
  op : BitVec 8
  fn : BitVec 6
  ty : BitVec 4
  gn : BitVec 1
  gp : BitVec 3
  x : BitVec 10
  nw : BitVec 1
  y : BitVec 10
  z : BitVec 10
  stall : BitVec 4
  yld : BitVec 1
  chn : BitVec 1
  res : BitVec 5
  imm : BitVec 32
deriving DecidableEq, Repr

/-- The word of its fields, most significant first (R37). -/
def packFields (f : Fields) : BitVec 96 :=
  f.op ++ f.fn ++ f.ty ++ f.gn ++ f.gp ++ f.x ++ f.nw ++ f.y ++ f.z ++ f.stall ++ f.yld ++ f.chn ++ f.res ++ f.imm

/-- The fields of a word at the bit positions of R37. -/
def unpackFields (w : BitVec 96) : Fields :=
  { op := w.extractLsb' 88 8, fn := w.extractLsb' 82 6, ty := w.extractLsb' 78 4, gn := w.extractLsb' 77 1,
    gp := w.extractLsb' 74 3, x := w.extractLsb' 64 10, nw := w.extractLsb' 63 1, y := w.extractLsb' 53 10,
    z := w.extractLsb' 43 10, stall := w.extractLsb' 39 4, yld := w.extractLsb' 38 1, chn := w.extractLsb' 37 1,
    res := w.extractLsb' 32 5, imm := w.extractLsb' 0 32 }

/-- The special of its number 0 to 7 (R39). -/
def specialOf : Nat → Special
  | 0 => .lane | 1 => .grp | 2 => .cid | 3 => .cellx | 4 => .celly | 5 => .cellz | 6 => .step | _ => .blk
/-- The number of a special (R39). -/
def specialNo : Special → Nat
  | .lane => 0 | .grp => 1 | .cid => 2 | .cellx => 3 | .celly => 4 | .cellz => 5 | .step => 6 | .blk => 7
/-- The direction of its number 0 to 6 (R38). -/
def dirOf : Nat → Dir
  | 0 => .east | 1 => .west | 2 => .north | 3 => .south | 4 => .up | 5 => .down | _ => .self
/-- The number of a direction (R38). -/
def dirNo : Dir → Nat
  | .east => 0 | .west => 1 | .north => 2 | .south => 3 | .up => 4 | .down => 5 | .self => 6

/-- The operand that ten bits name (R38). -/
def opndOfBits (b : BitVec 10) : Opnd :=
  let n := b.toNat
  if h : n < 768 then .v ⟨n, h⟩
  else if n < 880 then .nb (dirOf ((n - 768) / 16)) ⟨(n - 768) % 16, Nat.mod_lt _ (by decide)⟩
  else if n < 896 then .reserved b
  else if n < 904 then .latch ⟨(n - 896) % 8, Nat.mod_lt _ (by decide)⟩
  else if n < 908 then .mq ⟨(n - 904) % 4, Nat.mod_lt _ (by decide)⟩
  else if n < 912 then .reserved b
  else if n < 944 then .s ⟨(n - 912) % 32, Nat.mod_lt _ (by decide)⟩
  else if n = 944 then .zero
  else if n < 960 then .reserved b
  else if n < 968 then .special (specialOf (n - 960))
  else if n < 1023 then .reserved b
  else .imm

/-- The ten-bit operand value of an operand (R38). -/
def opndNo : Opnd → Nat
  | .v n => n.val
  | .nb d k => 768 + 16 * dirNo d + k.val
  | .latch n => 896 + n.val
  | .mq n => 904 + n.val
  | .s n => 912 + n.val
  | .zero => 944
  | .special k => 960 + specialNo k
  | .imm => 1023
  | .reserved raw => raw.toNat

/-- The ten bits of an operand (R38). -/
def opndBits (o : Opnd) : BitVec 10 := BitVec.ofNat 10 (opndNo o)

/-- The operand fields, guard and hints of a word. -/
def encOfFields (f : Fields) : Enc :=
  { gn := f.gn == 1, gp := f.gp.toFin, x := opndOfBits f.x, nw := f.nw == 1, y := opndOfBits f.y, z := opndOfBits f.z,
    stall := f.stall.toFin, yld := f.yld == 1, chn := f.chn == 1, imm := f.imm }

/-- One bit of a Bool. -/
def bit1 (b : Bool) : BitVec 1 := if b then 1 else 0

/-- The bit fields of an encoded instruction from its codes and its `Enc`. -/
def fieldsOfEnc (op fn ty : Nat) (c : Enc) : Fields :=
  { op := BitVec.ofNat 8 op, fn := BitVec.ofNat 6 fn, ty := BitVec.ofNat 4 ty, gn := bit1 c.gn,
    gp := BitVec.ofFin c.gp, x := opndBits c.x, nw := bit1 c.nw, y := opndBits c.y, z := opndBits c.z,
    stall := BitVec.ofFin c.stall, yld := bit1 c.yld, chn := bit1 c.chn, res := 0, imm := c.imm }

/-- The code of a `Rm` (R50, R51). -/
def rmCode : Rm → Nat
  | .rne => 0 | .rtz => 1 | .rdn => 2 | .rup => 3
/-- The `Rm` of a code; only codes below 4 are asked for. -/
def rmOfCode : Nat → Rm
  | 0 => .rne | 1 => .rtz | 2 => .rdn | _ => .rup
/-- The code of a `Icc` (R50, R51). -/
def iccCode : Icc → Nat
  | .eq => 0 | .ne => 1 | .lt => 2 | .le => 3 | .gt => 4 | .ge => 5
/-- The `Icc` of a code; only codes below 6 are asked for. -/
def iccOfCode : Nat → Icc
  | 0 => .eq | 1 => .ne | 2 => .lt | 3 => .le | 4 => .gt | _ => .ge
/-- The code of a `Fcc` (R50, R51). -/
def fccCode : Fcc → Nat
  | .eq => 0 | .ne => 1 | .lt => 2 | .le => 3 | .gt => 4 | .ge => 5 | .un => 6 | .ord => 7
/-- The `Fcc` of a code; only codes below 8 are asked for. -/
def fccOfCode : Nat → Fcc
  | 0 => .eq | 1 => .ne | 2 => .lt | 3 => .le | 4 => .gt | 5 => .ge | 6 => .un | _ => .ord
/-- The code of a `Aop` (R50, R51). -/
def aopCode : Aop → Nat
  | .add => 0 | .min => 1 | .max => 2 | .and => 3 | .or => 4 | .xor => 5 | .exch => 6 | .cas => 7
/-- The `Aop` of a code; only codes below 8 are asked for. -/
def aopOfCode : Nat → Aop
  | 0 => .add | 1 => .min | 2 => .max | 3 => .and | 4 => .or | 5 => .xor | 6 => .exch | _ => .cas
/-- The code of a `Ord` (R50, R51). -/
def ordCode : Ord → Nat
  | .rlx => 0 | .acq => 1 | .rel => 2 | .ar => 3
/-- The `Ord` of a code; only codes below 4 are asked for. -/
def ordOfCode : Nat → Ord
  | 0 => .rlx | 1 => .acq | 2 => .rel | _ => .ar
/-- The code of a `Scope` (R50, R51). -/
def scopeCode : Scope → Nat
  | .group => 0 | .core => 1 | .cluster => 2 | .die => 3 | .device => 4 | .system => 5
/-- The `Scope` of a code; only codes below 6 are asked for. -/
def scopeOfCode : Nat → Scope
  | 0 => .group | 1 => .core | 2 => .cluster | 3 => .die | 4 => .device | _ => .system
/-- The code of a `WCmp` (R50, R51). -/
def wcmpCode : WCmp → Nat
  | .eq => 0 | .ne => 1 | .gtu => 2
/-- The `WCmp` of a code; only codes below 3 are asked for. -/
def wcmpOfCode : Nat → WCmp
  | 0 => .eq | 1 => .ne | _ => .gtu
/-- The code of a `VoteKind` (R50, R51). -/
def voteCode : VoteKind → Nat
  | .every => 0 | .some => 1 | .same => 2 | .mask => 3
/-- The `VoteKind` of a code; only codes below 4 are asked for. -/
def voteOfCode : Nat → VoteKind
  | 0 => .every | 1 => .some | 2 => .same | _ => .mask
/-- The code of a `ShflKind` (R50, R51). -/
def shflCode : ShflKind → Nat
  | .lane => 0 | .shift => 1 | .rot => 2 | .flip => 3
/-- The `ShflKind` of a code; only codes below 4 are asked for. -/
def shflOfCode : Nat → ShflKind
  | 0 => .lane | 1 => .shift | 2 => .rot | _ => .flip
/-- The code of a `LredOp` (R50, R51). -/
def lredOpCode : LredOp → Nat
  | .add => 0 | .min => 1 | .max => 2 | .and => 3 | .or => 4 | .xor => 5
/-- The `LredOp` of a code; only codes below 6 are asked for. -/
def lredOpOfCode : Nat → LredOp
  | 0 => .add | 1 => .min | 2 => .max | 3 => .and | 4 => .or | _ => .xor
/-- The code of a `HKind` (R50, R51). -/
def hkindCode : HKind → Nat
  | .group => 0 | .block => 1 | .parent => 2 | .successor => 3 | .none => 4
/-- The `HKind` of a code; only codes below 5 are asked for. -/
def hkindOfCode : Nat → HKind
  | 0 => .group | 1 => .block | 2 => .parent | 3 => .successor | _ => .none
/-- The code of a `LdKind` (R50, R51). -/
def ldKindCode : LdKind → Nat
  | .l1 => 0 | .l2 => 1 | .ev => 2
/-- The `LdKind` of a code; only codes below 3 are asked for. -/
def ldKindOfCode : Nat → LdKind
  | 0 => .l1 | 1 => .l2 | _ => .ev
/-- The code of a `BopKind` (R50, R51). -/
def bopKindCode : BopKind → Nat
  | .add => 0 | .mad => 1 | .min => 2 | .max => 3
/-- The `BopKind` of a code; only codes below 4 are asked for. -/
def bopKindOfCode : Nat → BopKind
  | 0 => .add | 1 => .mad | 2 => .min | _ => .max
/-- The code of a `WFmt` (R50, R51). -/
def wfmtCode : WFmt → Nat
  | .f4 => 0 | .f8e4 => 1 | .f8e5 => 2 | .bf16 => 3
/-- The `WFmt` of a code; only codes below 4 are asked for. -/
def wfmtOfCode : Nat → WFmt
  | 0 => .f4 | 1 => .f8e4 | 2 => .f8e5 | _ => .bf16
/-- The code of a fence kind (R50). -/
def fkindCode : FKind → Nat
  | .acq => 1 | .rel => 2 | .full => 3
/-- The fence kind of a code 1 to 3. -/
def fkindOfCode : Nat → FKind
  | 1 => .acq | 2 => .rel | _ => .full
/-- The weight or activation format of a type 6 to 9. -/
def wfmtOfTy : Ty → Option WFmt
  | .bf16 => some .bf16 | .f8e4 => some .f8e4 | .f8e5 => some .f8e5 | .f4 => some .f4 | _ => none
/-- The TY code of a format. -/
def wfmtTyCode : WFmt → Nat
  | .bf16 => 6 | .f8e4 => 7 | .f8e5 => 8 | .f4 => 9
/-- 0 or 1. -/
def bnat (b : Bool) : Nat := if b then 1 else 0

/-- How an instruction is built once OP and FN are known: from the operand fields and TY. -/
abbrev Builder := Enc → Ty → Option Instr
/-- A row whose TY column shows no type: TY is 0 (R51). -/
def untyped (k : Enc → Instr) : Builder := fun c t => if t = .i32 then some (k c) else none
/-- A row with a type. -/
def typed (k : Enc → Ty → Instr) : Builder := fun c t => some (k c t)
/-- A row whose only type is `t0`. -/
def onlyTy (t0 : Ty) (k : Enc → Instr) : Builder := fun c t => if t = t0 then some (k c) else none
/-- A row that takes no FN value but 0. -/
def fn0 (fn : Nat) (b : Builder) : Option Builder := if fn = 0 then some b else none
/-- A row whose legal FN values are those below `n`. -/
def fnBelow (n fn : Nat) (b : Builder) : Option Builder := if fn < n then some b else none

/-- Whether OP is assigned (check 1 of R52, R51); REP's 0x0F apart. -/
def opAssigned (op : Nat) : Bool :=
  op ≤ 0x0A || (0x10 ≤ op && op ≤ 0x44) || (0x50 ≤ op && op ≤ 0x57) || (0x60 ≤ op && op ≤ 0x6E) ||
  (0x80 ≤ op && op ≤ 0x8A) || (0x90 ≤ op && op ≤ 0x93) || (0xA0 ≤ op && op ≤ 0xA7) || op == 0xB0 || op == 0xB1 ||
  (0xC0 ≤ op && op ≤ 0xC4) || op == 0xD0

/-- Check 2 of R52: what an assigned OP and its FN build; `none` where FN is illegal for OP (R51). -/
def builderOf (op fn : Nat) : Option Builder :=
  match op with
  | 0x00 => fn0 fn (untyped .nop)
  | 0x01 => fn0 fn (untyped .bra)
  | 0x02 => fn0 fn (untyped .bri)
  | 0x03 => if fn = 0 then some (untyped .call) else if fn = 1 then some (untyped .callInd) else none
  | 0x04 => fn0 fn (untyped .ret)
  | 0x05 => fn0 fn (untyped .exit)
  | 0x06 => fn0 fn (untyped .region)
  | 0x07 => fn0 fn (untyped .trap)
  | 0x08 => fn0 fn (untyped .bkpt)
  | 0x09 => fn0 fn (untyped .sleep)
  | 0x0A => fn0 fn (untyped .yield)
  | 0x10 => fn0 fn (typed .mov)
  | 0x11 => fn0 fn (typed .sel)
  | 0x12 => fnBelow 2 fn (typed fun c t => .iadd c (fn == 1) t)
  | 0x13 => fnBelow 2 fn (typed fun c t => .isub c (fn == 1) t)
  | 0x14 => fnBelow 2 fn (typed fun c t => .ineg c (fn == 1) t)
  | 0x15 => fnBelow 2 fn (typed fun c t => .iabs c (fn == 1) t)
  | 0x16 => fn0 fn (typed .imul)
  | 0x17 => fn0 fn (typed .imulh)
  | 0x18 => fn0 fn (typed .imad)
  | 0x19 => fn0 fn (typed .imin)
  | 0x1A => fn0 fn (typed .imax)
  | 0x1B => fnBelow 2 fn (typed fun c t => .idp4 c (fn == 1) t)
  | 0x1C => fnBelow 8 fn (typed fun c t => .lea c (Fin.ofNat 8 fn) t)
  | 0x1D => fnBelow 6 fn (typed fun c t => .iset c (iccOfCode fn) t)
  | 0x1E => fn0 fn (onlyTy .b32 .bsel)
  | 0x1F => fnBelow 16 fn (untyped fun c => .plop c (Fin.ofNat 16 fn))
  | 0x20 => fn0 fn (typed .and)
  | 0x21 => fn0 fn (typed .or)
  | 0x22 => fn0 fn (typed .xor)
  | 0x23 => fn0 fn (typed .andn)
  | 0x24 => fn0 fn (typed .not)
  | 0x25 => fn0 fn (typed .ltab)
  | 0x26 => fnBelow 2 fn (typed fun c t => .shl c (fn == 1) t)
  | 0x27 => fnBelow 2 fn (typed fun c t => .shr c (fn == 1) t)
  | 0x28 => fnBelow 2 fn (typed fun c t => .sar c (fn == 1) t)
  | 0x29 => fn0 fn (typed .rol)
  | 0x2A => fnBelow 2 fn (typed fun c t => .bfx c (fn == 1) t)
  | 0x2B => fn0 fn (typed .bfi)
  | 0x2C => fn0 fn (typed .popc)
  | 0x2D => fn0 fn (typed .clz)
  | 0x2E => fn0 fn (typed .ctz)
  | 0x2F => fn0 fn (typed .brev)
  | 0x30 => fnBelow 4 fn (typed fun c t => .fadd c (rmOfCode fn) t)
  | 0x31 => fnBelow 4 fn (typed fun c t => .fsub c (rmOfCode fn) t)
  | 0x32 => fnBelow 4 fn (typed fun c t => .fmul c (rmOfCode fn) t)
  | 0x33 => fnBelow 4 fn (typed fun c t => .ffma c (rmOfCode fn) t)
  | 0x34 => fnBelow 2 fn (typed fun c t => .fmin c (fn == 1) t)
  | 0x35 => fnBelow 2 fn (typed fun c t => .fmax c (fn == 1) t)
  | 0x36 => fn0 fn (typed .fabs)
  | 0x37 => fn0 fn (typed .fneg)
  | 0x38 => fnBelow 4 fn (typed fun c t => .fdiv c (rmOfCode fn) t)
  | 0x39 => fnBelow 4 fn (typed fun c t => .fsqrt c (rmOfCode fn) t)
  | 0x3A => fnBelow 4 fn (typed fun c t => .frcp c (rmOfCode fn) t)
  | 0x3B => fnBelow 4 fn (typed fun c t => .frsq c (rmOfCode fn) t)
  | 0x3C => fnBelow 8 fn (typed fun c t => .fset c (fccOfCode fn) t)
  | 0x3D => fn0 fn (typed .fclass)
  | 0x3E => fnBelow 4 fn (typed fun c t => .frnd c (rmOfCode fn) t)
  | 0x3F => fnBelow 4 fn (typed fun c t => .fscl c (rmOfCode fn) t)
  | 0x40 => fnBelow 8 fn (typed fun c t => .cvt c (rmOfCode (fn % 4)) (fn / 4 == 1) t)
  | 0x41 => if fn = 0 || fn = 4 then some (typed fun c t => .cvts c (fn == 4) t) else none
  | 0x42 => some (typed fun c t => .cvtp c (rmOfCode (fn % 4)) (fn / 4 % 2 == 1) (Fin.ofNat 8 (fn / 8)) t)
  | 0x43 => fnBelow 8 fn (typed fun c t => .cvtx c (Fin.ofNat 8 fn) t)
  | 0x44 => fnBelow 4 fn (onlyTy .f4 fun c => .qb4 c (rmOfCode fn))
  | 0x50 => fn0 fn (onlyTy .b32 .p2v)
  | 0x51 => fn0 fn (onlyTy .b32 .v2p)
  | 0x52 => fn0 fn (onlyTy .b32 .rds)
  | 0x53 => fn0 fn (typed .smov)
  | 0x54 => fnBelow 4 fn (untyped fun c => .vote c (voteOfCode fn))
  | 0x55 => fnBelow 4 fn (typed fun c t => .shfl c (shflOfCode fn) t)
  | 0x56 => if fn < 32 && fn % 8 < 6 then some (typed fun c t => .lred c (lredOpOfCode (fn % 8)) (rmOfCode (fn / 8)) t) else none
  | 0x57 => fn0 fn (untyped .lsync)
  | 0x60 => fnBelow 3 fn (typed fun c t => .ld c (ldKindOfCode fn) t)
  | 0x61 => if fn = 0 || fn = 2 then some (typed fun c t => .st c (fn == 2) t) else none
  | 0x62 => fn0 fn (typed .ldl)
  | 0x63 => fn0 fn (typed .stl)
  | 0x64 => fnBelow 2 fn (untyped fun c => .pf c (fn == 1))
  | 0x65 => if fn % 16 < 8 then some (typed fun c t => .atom c (aopOfCode (fn % 16)) (ordOfCode (fn / 16)) t) else none
  | 0x66 => if fn % 16 < 8 then some (typed fun c t => .atoml c (aopOfCode (fn % 16)) (ordOfCode (fn / 16)) t) else none
  | 0x67 => if fn % 16 < 6 && (fn / 16 == 0 || fn / 16 == 2) then
      some (typed fun c t => .red c (aopOfCode (fn % 16)) (ordOfCode (fn / 16)) t) else none
  | 0x68 => if fn < 32 && fn % 4 != 0 && fn / 4 < 6 then
      some (untyped fun c => .fence c (fkindOfCode (fn % 4)) (scopeOfCode (fn / 4))) else none
  | 0x69 => fn0 fn (untyped .l1inv)
  | 0x6A => fn0 fn (untyped .wdef)
  | 0x6B => fn0 fn (untyped .wdrop)
  | 0x6C => fn0 fn (untyped .wstat)
  | 0x6D => fnBelow 3 fn (untyped fun c => .waitw c (wcmpOfCode fn))
  | 0x6E => fnBelow 3 fn (untyped fun c => .tryw c (wcmpOfCode fn))
  | 0x80 => if 2 ≤ fn && fn < 8 then some (untyped fun c => .bar c (Fin.ofNat 8 fn)) else none
  | 0x81 => fn0 fn (untyped .lock)
  | 0x82 => fn0 fn (untyped .tlock)
  | 0x83 => fn0 fn (untyped .unlock)
  | 0x84 => if fn < 16 && fn % 8 < 5 then some (untyped fun c => .heir c (hkindOfCode (fn % 8)) (fn / 8 == 1)) else none
  | 0x85 => fn0 fn (untyped .prom)
  | 0x86 => fnBelow 2 fn (untyped fun c => .fulf c (fn == 1))
  | 0x87 => fn0 fn (untyped .pwait)
  | 0x88 => fn0 fn (untyped .claim)
  | 0x89 => fn0 fn (untyped .rels)
  | 0x8A => fn0 fn (untyped .holdq)
  | 0x90 => fn0 fn (untyped .step)
  | 0x91 => fn0 fn (untyped .lqry)
  | 0x92 => fn0 fn (untyped .mqcf)
  | 0x93 => fn0 fn (untyped .mqst)
  | 0xA0 => fn0 fn (fun c t => (wfmtOfTy t).map fun wf => .mldw c wf)
  | 0xA1 => fnBelow 4 fn (fun c t => (wfmtOfTy t).map fun af => .mpass c (wfmtOfCode fn) af)
  | 0xA2 => fn0 fn (untyped .zclr)
  | 0xA3 => fn0 fn (onlyTy .f32 .zmov)
  | 0xA4 => fnBelow 32 fn (typed fun c t =>
      .zst c (fn % 2 == 1) (fn / 2 % 2 == 1) (rmOfCode (fn / 4 % 4)) (fn / 16 == 1) t)
  | 0xA5 => fnBelow 4 fn (typed fun c t => .zld c (fn % 2 == 1) (fn / 2 == 1) t)
  | 0xA6 => fn0 fn (untyped .mstat)
  | 0xA7 => fn0 fn (untyped .mwait)
  | 0xB0 => fnBelow 16 fn (typed fun c t => .bop c (bopKindOfCode (fn % 4)) (rmOfCode (fn / 4)) t)
  | 0xB1 => fnBelow 4 fn (typed fun c t => .redt c (rmOfCode fn) t)
  | 0xC0 => fn0 fn (untyped .bcopy)
  | 0xC1 => fn0 fn (untyped .bfence)
  | 0xC2 => fnBelow 2 fn (untyped fun c => .bgid c (fn == 1))
  | 0xC3 => fn0 fn (untyped .bgfree)
  | 0xC4 => fn0 fn (untyped .launch)
  | 0xD0 => fn0 fn (onlyTy .n64 .rdclk)
  | _ => none

/-- OP, FN and TY codes and the operand fields of an encoded instruction (R51); `none` for REP and the events. -/
def codesOf : Instr → Option (Nat × Nat × Nat × Enc)
  | .nop c => some (0x00, 0, 0, c)
  | .bra c => some (0x01, 0, 0, c)
  | .bri c => some (0x02, 0, 0, c)
  | .call c => some (0x03, 0, 0, c)
  | .callInd c => some (0x03, 1, 0, c)
  | .ret c => some (0x04, 0, 0, c)
  | .exit c => some (0x05, 0, 0, c)
  | .region c => some (0x06, 0, 0, c)
  | .trap c => some (0x07, 0, 0, c)
  | .bkpt c => some (0x08, 0, 0, c)
  | .sleep c => some (0x09, 0, 0, c)
  | .yield c => some (0x0A, 0, 0, c)
  | .mov c t => some (0x10, 0, tyCode t, c)
  | .sel c t => some (0x11, 0, tyCode t, c)
  | .iadd c b t => some (0x12, bnat b, tyCode t, c)
  | .isub c b t => some (0x13, bnat b, tyCode t, c)
  | .ineg c b t => some (0x14, bnat b, tyCode t, c)
  | .iabs c b t => some (0x15, bnat b, tyCode t, c)
  | .imul c t => some (0x16, 0, tyCode t, c)
  | .imulh c t => some (0x17, 0, tyCode t, c)
  | .imad c t => some (0x18, 0, tyCode t, c)
  | .imin c t => some (0x19, 0, tyCode t, c)
  | .imax c t => some (0x1A, 0, tyCode t, c)
  | .idp4 c b t => some (0x1B, bnat b, tyCode t, c)
  | .lea c sh t => some (0x1C, sh.val, tyCode t, c)
  | .iset c cc t => some (0x1D, iccCode cc, tyCode t, c)
  | .bsel c => some (0x1E, 0, 13, c)
  | .plop c tt => some (0x1F, tt.val, 0, c)
  | .and c t => some (0x20, 0, tyCode t, c)
  | .or c t => some (0x21, 0, tyCode t, c)
  | .xor c t => some (0x22, 0, tyCode t, c)
  | .andn c t => some (0x23, 0, tyCode t, c)
  | .not c t => some (0x24, 0, tyCode t, c)
  | .ltab c t => some (0x25, 0, tyCode t, c)
  | .shl c b t => some (0x26, bnat b, tyCode t, c)
  | .shr c b t => some (0x27, bnat b, tyCode t, c)
  | .sar c b t => some (0x28, bnat b, tyCode t, c)
  | .rol c t => some (0x29, 0, tyCode t, c)
  | .bfx c b t => some (0x2A, bnat b, tyCode t, c)
  | .bfi c t => some (0x2B, 0, tyCode t, c)
  | .popc c t => some (0x2C, 0, tyCode t, c)
  | .clz c t => some (0x2D, 0, tyCode t, c)
  | .ctz c t => some (0x2E, 0, tyCode t, c)
  | .brev c t => some (0x2F, 0, tyCode t, c)
  | .fadd c rm t => some (0x30, rmCode rm, tyCode t, c)
  | .fsub c rm t => some (0x31, rmCode rm, tyCode t, c)
  | .fmul c rm t => some (0x32, rmCode rm, tyCode t, c)
  | .ffma c rm t => some (0x33, rmCode rm, tyCode t, c)
  | .fmin c b t => some (0x34, bnat b, tyCode t, c)
  | .fmax c b t => some (0x35, bnat b, tyCode t, c)
  | .fabs c t => some (0x36, 0, tyCode t, c)
  | .fneg c t => some (0x37, 0, tyCode t, c)
  | .fdiv c rm t => some (0x38, rmCode rm, tyCode t, c)
  | .fsqrt c rm t => some (0x39, rmCode rm, tyCode t, c)
  | .frcp c rm t => some (0x3A, rmCode rm, tyCode t, c)
  | .frsq c rm t => some (0x3B, rmCode rm, tyCode t, c)
  | .fset c cc t => some (0x3C, fccCode cc, tyCode t, c)
  | .fclass c t => some (0x3D, 0, tyCode t, c)
  | .frnd c rm t => some (0x3E, rmCode rm, tyCode t, c)
  | .fscl c rm t => some (0x3F, rmCode rm, tyCode t, c)
  | .cvt c rm ns t => some (0x40, rmCode rm + 4 * bnat ns, tyCode t, c)
  | .cvts c ns t => some (0x41, 4 * bnat ns, tyCode t, c)
  | .cvtp c rm ns q t => some (0x42, rmCode rm + 4 * bnat ns + 8 * q.val, tyCode t, c)
  | .cvtx c k t => some (0x43, k.val, tyCode t, c)
  | .qb4 c rm => some (0x44, rmCode rm, 9, c)
  | .p2v c => some (0x50, 0, 13, c)
  | .v2p c => some (0x51, 0, 13, c)
  | .rds c => some (0x52, 0, 13, c)
  | .smov c t => some (0x53, 0, tyCode t, c)
  | .vote c k => some (0x54, voteCode k, 0, c)
  | .shfl c k t => some (0x55, shflCode k, tyCode t, c)
  | .lred c op rm t => some (0x56, lredOpCode op + 8 * rmCode rm, tyCode t, c)
  | .lsync c => some (0x57, 0, 0, c)
  | .ld c k t => some (0x60, ldKindCode k, tyCode t, c)
  | .st c ev t => some (0x61, 2 * bnat ev, tyCode t, c)
  | .ldl c t => some (0x62, 0, tyCode t, c)
  | .stl c t => some (0x63, 0, tyCode t, c)
  | .pf c l => some (0x64, bnat l, 0, c)
  | .atom c op o t => some (0x65, aopCode op + 16 * ordCode o, tyCode t, c)
  | .atoml c op o t => some (0x66, aopCode op + 16 * ordCode o, tyCode t, c)
  | .red c op o t => some (0x67, aopCode op + 16 * ordCode o, tyCode t, c)
  | .fence c k sc => some (0x68, fkindCode k + 4 * scopeCode sc, 0, c)
  | .l1inv c => some (0x69, 0, 0, c)
  | .wdef c => some (0x6A, 0, 0, c)
  | .wdrop c => some (0x6B, 0, 0, c)
  | .wstat c => some (0x6C, 0, 0, c)
  | .waitw c k => some (0x6D, wcmpCode k, 0, c)
  | .tryw c k => some (0x6E, wcmpCode k, 0, c)
  | .bar c l => some (0x80, l.val, 0, c)
  | .lock c => some (0x81, 0, 0, c)
  | .tlock c => some (0x82, 0, 0, c)
  | .unlock c => some (0x83, 0, 0, c)
  | .heir c k d => some (0x84, hkindCode k + 8 * bnat d, 0, c)
  | .prom c => some (0x85, 0, 0, c)
  | .fulf c b => some (0x86, bnat b, 0, c)
  | .pwait c => some (0x87, 0, 0, c)
  | .claim c => some (0x88, 0, 0, c)
  | .rels c => some (0x89, 0, 0, c)
  | .holdq c => some (0x8A, 0, 0, c)
  | .step c => some (0x90, 0, 0, c)
  | .lqry c => some (0x91, 0, 0, c)
  | .mqcf c => some (0x92, 0, 0, c)
  | .mqst c => some (0x93, 0, 0, c)
  | .mldw c wf => some (0xA0, 0, wfmtTyCode wf, c)
  | .mpass c wf af => some (0xA1, wfmtCode wf, wfmtTyCode af, c)
  | .zclr c => some (0xA2, 0, 0, c)
  | .zmov c => some (0xA3, 0, 4, c)
  | .zst c tr lo rm ns t => some (0xA4, bnat tr + 2 * bnat lo + 4 * rmCode rm + 16 * bnat ns, tyCode t, c)
  | .zld c tr lo t => some (0xA5, bnat tr + 2 * bnat lo, tyCode t, c)
  | .mstat c => some (0xA6, 0, 0, c)
  | .mwait c => some (0xA7, 0, 0, c)
  | .bop c op rm t => some (0xB0, bopKindCode op + 4 * rmCode rm, tyCode t, c)
  | .redt c rm t => some (0xB1, rmCode rm, tyCode t, c)
  | .bcopy c => some (0xC0, 0, 0, c)
  | .bfence c => some (0xC1, 0, 0, c)
  | .bgid c m => some (0xC2, bnat m, 0, c)
  | .bgfree c => some (0xC3, 0, 0, c)
  | .launch c => some (0xC4, 0, 0, c)
  | .rdclk c => some (0xD0, 0, 3, c)
  | _ => none

/-- The fixed fields of a REP word (R47). -/
def repFields (imm : BitVec 32) : Fields :=
  { op := 0x0F, fn := 0, ty := 0, gn := 0, gp := 7, x := 944, nw := 0, y := 944, z := 944, stall := 0, yld := 0,
    chn := 0, res := 0, imm := imm }

/-- The immediate of a REP word (R47). -/
def repImm (cnt : Fin 64) (xs ys zs ws : BitVec 4) : BitVec 32 :=
  (0 : BitVec 8) ++ ws ++ zs ++ ys ++ xs ++ (0 : BitVec 2) ++ BitVec.ofNat 6 cnt.val

/-- Decoding of a word with OP 0x0F: every fixed field and reserved bit of R47 as it says. -/
def decodeRep (f : Fields) : Except DecodeErr Instr :=
  if f.fn != 0 then .error .illegalFn
  else if f.ty != 0 then .error .illegalTy
  else if f = repFields f.imm && f.imm.extractLsb' 24 8 == 0 && f.imm.extractLsb' 6 2 == 0 then
    .ok (.rep (f.imm.extractLsb' 0 6).toFin (f.imm.extractLsb' 8 4) (f.imm.extractLsb' 12 4) (f.imm.extractLsb' 16 4)
      (f.imm.extractLsb' 20 4))
  else .error .reservedBits

/-- Checks 1 to 4 of R52 on the fields of a word, in order. -/
def decodeFields (f : Fields) : Except DecodeErr Instr :=
  if f.op = 0x0F then decodeRep f
  else if !opAssigned f.op.toNat then .error .reservedOp
  else match builderOf f.op.toNat f.fn.toNat with
    | none => .error .illegalFn
    | some b =>
      match (tyOfCode f.ty.toNat).bind (b (encOfFields f)) with
      | none => .error .illegalTy
      | some i =>
        if !tyOk i then .error .illegalTy
        else if f.res != 0 || !immOk i then .error .reservedBits
        else .ok i

/-- The instruction of a 96-bit word (R36, R37). -/
def decodeWord (w : BitVec 96) : Except DecodeErr Instr := decodeFields (unpackFields w)

/-- The word of its twelve bytes, little-endian words at rising addresses (R36): byte `k` is bits `8k+7` to `8k`. -/
def wordOfBytes (bs : List Byte) : BitVec 96 :=
  BitVec.ofNat 96 (bs.foldr (fun b acc => b.toNat + 256 * acc) 0)

/-- The instruction at the head of a byte list and the rest; `none` where fewer than twelve bytes stand there. -/
def decodeBytes (bs : List Byte) : Option (Except DecodeErr Instr × List Byte) :=
  if bs.length < 12 then none else some (decodeWord (wordOfBytes (bs.take 12)), bs.drop 12)

/-- The fields of an encoded instruction, from the same tables; `none` for an event. -/
def encodeFields (i : Instr) : Option Fields :=
  match i with
  | .rep cnt xs ys zs ws => some (repFields (repImm cnt xs ys zs ws))
  | i => (codesOf i).map fun p => fieldsOfEnc p.1 p.2.1 p.2.2.1 p.2.2.2

/-- The 96-bit word of an encoded instruction. -/
def encode (i : Instr) : Option (BitVec 96) := (encodeFields i).map packFields

/-- The twelve bytes of a word as memory holds them (R36). -/
def bytesOfWord (w : BitVec 96) : List Byte := (List.range 12).map fun k => w.extractLsb' (8 * k) 8

/-- What the decoder reads from an instruction whose table bits are `w`, low bit of the first word first: the three words
of R36 in that order, bits above `nbits` zero. -/
def decodeTableWord (nbits w : Nat) : Option Instr :=
  match decodeBytes (bytesOfWord (BitVec.ofNat 96 (w % 2 ^ nbits))) with
  | some (.ok i, _) => some i
  | _ => none

end Sys2Proof
end

