-- ==== Sys2Proof/Machine/Rules.lean ====
section
/-! DEFINITION. The rules of every encoded instruction (spec/04 R38 to R41, R46, R48 and the entry of each): what its fields accept and how
it issues, the operand fields of a REP iteration (R47, R48), and what the scoreboard holds back (R43, R116). -/
namespace Sys2Proof.Machine

/-! ## What a field accepts -/

/-- The operand kinds of R38 that a field accepts; `uspecial` is a uniform special (R39). -/
structure Kinds where
  v : Bool := false
  nb : Bool := false
  latch : Bool := false
  mq : Bool := false
  s : Bool := false
  zero : Bool := false
  special : Bool := false
  uspecial : Bool := false
  imm : Bool := false
deriving DecidableEq, Repr

/-- What a field holds: 944, a bare number below a bound (a predicate or a tile), or an operand of some kinds that covers `n`
consecutive registers from a multiple of `al`. -/
inductive FR where
  | unused
  | number (bound : Nat)
  | opnd (k : Kinds) (n al : Nat)
deriving DecidableEq, Repr

/-- Every source kind (R38). -/
def kSrc : Kinds := { v := true, nb := true, latch := true, mq := true, s := true, zero := true, special := true, imm := true }
/-- Every source kind but `imm`. -/
def kSrcNoImm : Kinds := { kSrc with imm := false }
/-- Every source kind but `imm` and ports (R258). -/
def kSrcNoImmPort : Kinds := { kSrc with imm := false, mq := false }
/-- The uniform kinds (R76). -/
def kUni : Kinds := { s := true, zero := true, uspecial := true, imm := true }
/-- A register or a uniform kind other than `imm` (R83, R112). -/
def kRegUni : Kinds := { v := true, s := true, zero := true, uspecial := true }
/-- The uniform kinds but `imm`. -/
def kUniNoImm : Kinds := { kUni with imm := false }
/-- An s register, `zero` or `imm`. -/
def kSZI : Kinds := { s := true, zero := true, imm := true }
/-- A v or s register. -/
def kVS : Kinds := { v := true, s := true }
/-- A v or s register, or 944 for none. -/
def kStatus : Kinds := { v := true, s := true, zero := true }
/-- A v register. -/
def kV : Kinds := { v := true }
/-- An s register. -/
def kS : Kinds := { s := true }

/-- One register or value of a width given by TY (R40). -/
def frTy (k : Kinds) (t : Ty) : FR := if tyIs64 t then .opnd k 2 2 else .opnd k 1 1
/-- One 32-bit register or value. -/
def fr32 (k : Kinds) : FR := .opnd k 1 1
/-- An even pair. -/
def frPair (k : Kinds) : FR := .opnd k 2 2
/-- A predicate in bits 2 to 0. -/
def frPred : FR := .number 8
/-- A tile number. -/
def frTile : FR := .number 96

/-- The rules of an instruction for its fields and its issue. -/
structure Rules where
  x : FR := .unused
  y : FR := .unused
  z : FR := .unused
  w : FR := .unused
  /-- X is a source (a store's data and the like) -/
  xsrc : Bool := false
  /-- an s destination asks for uniform sources (R40, R77, R157) -/
  scalar : Bool := false
  /-- all 64 lanes are required (R42) -/
  full : Bool := false
  /-- it ends a region whatever its operands (R124) -/
  ends : Bool := false
  /-- CHN on it is illegal whatever its operands (R46) -/
  chnBad : Bool := false
  /-- REP before it fails check 5 (R48) -/
  repBad : Bool := false
  /-- REP before it fails an entry check after R52 -/
  repEntry : Bool := false
  /-- a shadow takes its result from the load-value queue (R128) -/
  taken : Bool := false
  /-- an immediate is sign-extended to 64 bits (R41) -/
  signed : Bool := false

/-- X, Y and Z of an instruction with a result of type TY from two sources. -/
def rXYZ (k : Kinds) (t : Ty) : Rules :=
  { x := frTy k t, y := frTy kSrc t, z := frTy kSrc t, scalar := true, signed := t == .i64 }
/-- The same with one source. MOV.i64 of an `imm` whose bit 31 is set meets two rules: R41 sign-extends IMM under i64 alone, while R80 calls MOV under
i64, n64 and b64 the same; the model follows R41 for every instruction, and so sign-extends under i64 alone (log 73). -/
def rXY (k : Kinds) (t : Ty) : Rules := { x := frTy k t, y := frTy kSrc t, scalar := true, signed := t == .i64 }
/-- The same with a fourth register in IMM. -/
def rXYZW (k : Kinds) (t : Ty) : Rules :=
  { x := frTy k t, y := frTy kSrcNoImm t, z := frTy kSrcNoImm t, w := frTy kSrcNoImm t, scalar := true }
/-- A floating-point result from two sources (R98). -/
def rFXYZ : Rules := { x := fr32 kV, y := fr32 kSrc, z := fr32 kSrc }
/-- A floating-point result from one source. -/
def rFXY : Rules := { x := fr32 kV, y := fr32 kSrc }
/-- A control transfer (R129 to R135). -/
def rCtl : Rules := { chnBad := true, repBad := true }
/-- A holdings instruction on `[sN]` (R198). -/
def rHold (x z : FR) : Rules := { x := x, y := frPair kS, z := z, ends := true, repBad := true }
/-- A memory operand with an index (R18). -/
def frIndex : FR := .opnd kStatus 1 1

/-- The number of registers that a `.cas` operand block covers (R160). -/
def casRegs (t : Ty) : Nat := if tyIs64 t then 4 else 2

/-- The operand of an atomic (R160). -/
def frAtom (op : Aop) (t : Ty) : FR := if op = .cas then .opnd kV (casRegs t) (casRegs t) else frTy kSrcNoImm t

/-- The source type of CVT (R108). -/
def cvtSrcTy (c : Enc) : Ty := (tyOfCode (c.imm.toNat % 16)).getD .i32

/-- The rules of every encoded instruction, each from its own entry. -/
def rulesOf : Instr → Rules
  | .nop _ => {}
  | .bra _ => rCtl
  | .bri _ => { rCtl with y := fr32 kVS }
  | .call _ => { rCtl with x := fr32 kVS }
  | .callInd _ => { rCtl with x := fr32 kVS, y := fr32 kVS }
  | .ret _ => { rCtl with y := fr32 kVS }
  | .exit _ | .region _ | .trap _ | .bkpt _ => { rCtl with ends := true }
  | .sleep _ => { rCtl with y := fr32 kUni }
  | .yield _ => rCtl
  | .rep .. => { repBad := true }
  | .mov _ t => rXY { kVS with mq := true } t
  | .sel _ t => { x := frTy kV t, y := frTy kSrcNoImm t, z := frTy kSrcNoImm t, w := frPred }
  | .iadd _ _ t | .isub _ _ t | .imul _ t | .imulh _ t | .imin _ t | .imax _ t | .lea _ _ t | .and _ t | .or _ t | .xor _ t
  | .andn _ t | .shl _ _ t | .shr _ _ t | .sar _ _ t | .rol _ t | .bfx _ _ t => rXYZ kVS t
  | .ineg _ _ t | .iabs _ _ t | .not _ t | .popc _ t | .clz _ t | .ctz _ t | .brev _ t => rXY kVS t
  | .imad _ t => { rXYZW kVS t with w := frTy kRegUni t }
  | .idp4 _ _ t | .ltab _ t | .bfi _ t => rXYZW kVS t
  | .iset _ _ t => { x := frPred, y := frTy kSrc t, z := frTy kSrc t, signed := t == .i64 }
  | .bsel _ => { x := fr32 kVS, y := fr32 kSrcNoImm, z := fr32 kSrcNoImm, scalar := true }
  | .plop _ _ => { x := frPred, y := frPred, z := frPred }
  | .fadd .. | .fsub .. | .fmul .. | .fmin .. | .fmax .. | .fdiv .. | .fscl .. | .cvtp .. => rFXYZ
  | .ffma .. => { x := fr32 kV, y := fr32 kSrcNoImm, z := fr32 kSrcNoImm, w := fr32 kSrcNoImm }
  | .fabs .. | .fneg .. | .fsqrt .. | .frcp .. | .frsq .. | .fclass .. | .frnd .. | .cvts .. | .cvtx .. => rFXY
  | .fset .. => { x := frPred, y := fr32 kSrc, z := fr32 kSrc }
  | .cvt c _ _ t => { x := frTy kV t, y := frTy kSrcNoImm (cvtSrcTy c) }
  | .qb4 .. => { x := fr32 kV, y := .opnd kV 8 1, z := fr32 kRegUni, w := fr32 kRegUni }
  | .p2v _ => { x := fr32 kV }
  | .v2p _ => { y := fr32 kSrc, z := fr32 kSrc }
  | .rds _ => { x := fr32 kVS, taken := true }
  | .smov _ t => { x := frTy kS t, y := frTy kSrc t }
  | .vote _ k => { x := if k = .mask then frPair kVS else frPred, y := frPred }
  | .shfl _ _ t => { x := frTy kV t, y := frTy kSrc t, z := frTy kSrc t }
  | .lred _ _ _ t => { x := frTy kVS t, y := frTy kSrc t, signed := t == .i64 }
  | .lsync _ => { y := frPair kS, ends := true }
  | .ld _ _ t => { x := frTy kVS t, y := frPair kVS, z := frIndex, scalar := true, taken := true }
  | .ldl _ t => { x := frTy kVS t, y := fr32 kVS, z := frIndex, scalar := true, taken := true }
  | .st _ _ t => { x := frTy kSrcNoImm t, y := frPair kVS, z := frIndex, xsrc := true }
  | .stl _ t => { x := frTy kSrcNoImm t, y := fr32 kVS, z := frIndex, xsrc := true }
  | .pf .. => { y := frPair kVS, z := frIndex }
  | .atom _ op _ t => { x := frTy kV t, y := frPair kVS, z := frAtom op t, ends := true, repEntry := true }
  | .atoml _ op _ t => { x := frTy kV t, y := fr32 kVS, z := frAtom op t, ends := true, repEntry := true, taken := true }
  | .red _ op _ t => { y := frPair kVS, z := frAtom op t, ends := true, repEntry := true }
  | .fence .. | .l1inv _ | .wdrop _ => {}
  | .wdef _ => { y := fr32 kUniNoImm }
  | .wstat _ => { x := fr32 kVS, taken := true }
  | .waitw .. => { x := fr32 { v := true, zero := true }, y := frPair kVS, z := fr32 kSrcNoImm, chnBad := true, taken := true }
  | .tryw .. => { x := frPred, y := frPair kVS, z := fr32 kSrcNoImm, chnBad := true, taken := true }
  | .bar .. => { y := fr32 kUni, ends := true, chnBad := true, repBad := true }
  | .lock _ => { rHold (fr32 kStatus) .unused with chnBad := true }
  | .tlock _ | .claim _ => rHold frPred .unused
  | .unlock _ | .prom _ | .rels _ => rHold .unused .unused
  | .heir _ _ dflt => if dflt then { ends := true, repBad := true } else rHold .unused .unused
  | .fulf _ brk => rHold .unused (if brk then .unused else frPair { s := true, zero := true })
  | .pwait _ => { rHold (fr32 kStatus) (frPair kStatus) with chnBad := true }
  | .holdq _ => rHold (frPair kVS) .unused
  | .step _ => { full := true, ends := true, chnBad := true, repBad := true }
  | .lqry _ => { x := fr32 kV, taken := true }
  | .mqcf _ => { x := fr32 { mq := true }, y := fr32 kUni, repEntry := true }
  | .mqst _ => { x := fr32 kVS, taken := true }
  | .mldw _ wf => { x := fr32 kStatus, y := frPair kS, z := if wf = .f4 then frPair kS else .unused, full := true, repEntry := true }
  | .mpass .. => { x := fr32 kStatus, y := frPair kS, full := true, ends := true, repEntry := true }
  | .zclr _ => { x := frTile, full := true, repEntry := true }
  | .zmov _ => { x := .opnd kV 2 1, y := frTile, full := true, repEntry := true, taken := true }
  | .zst _ _ loc _ _ _ | .zld _ _ loc _ =>
    { x := frTile, y := if loc then fr32 kS else frPair kS, z := fr32 { s := true, zero := true }, full := true, repEntry := true }
  | .mstat _ => { x := fr32 kVS, repEntry := true, taken := true }
  | .mwait _ => { y := fr32 kSZI, chnBad := true, repEntry := true }
  | .bop _ op _ _ =>
    { x := fr32 kSrcNoImmPort, y := frPair kS, z := if op = .mad then fr32 kSrcNoImmPort else .unused, xsrc := true, ends := true,
      repEntry := true }
  | .redt _ _ t =>
    { x := fr32 { v := true, s := true, zero := true, uspecial := true }, y := fr32 kS, z := frTy kSrc t, xsrc := true,
      ends := true, repEntry := true }
  | .bcopy _ => { x := fr32 kStatus, y := frPair kVS, z := frPair kS, ends := true, repEntry := true }
  | .bfence _ => { y := fr32 kSZI, ends := true, repEntry := true }
  | .bgid .. => { x := fr32 kStatus, y := frPair kS, z := fr32 kSZI, ends := true, repEntry := true }
  | .bgfree _ => { y := fr32 kSZI, ends := true, repEntry := true }
  | .launch _ => { x := fr32 kStatus, y := frPair kS, ends := true, repEntry := true }
  | .rdclk _ => { x := frPair kVS, taken := true }
  | _ => {}

/-- The fourth operand, in IMM bits 9 to 0 (R37). -/
def wOpnd (c : Enc) : Opnd := opndOfBits (c.imm.extractLsb' 0 10)

/-- Whether a field is an operand in the sense of R38. -/
def isOpnd : FR → Bool
  | .opnd .. => true
  | _ => false

/-! ## REP iterations (R47, R48) -/

/-- A signed step of R47. -/
def repStep (b : BitVec 4) : Int := b.toInt

/-- An operand moved by a number of registers; `none` where it leaves v0 to v767. -/
def moveOpnd (o : Opnd) (d : Int) : Option Opnd :=
  match o with
  | .v n => let k := (n.val : Int) + d
            if h : 0 ≤ k ∧ k < 768 then some (.v ⟨k.toNat, by omega⟩) else none
  | o => some o

/-- The operand fields of iteration `k` (R48); `none` where a stepped field leaves v0 to v767. -/
def stepEnc (r : Rules) (rc : RepCtx) (k : Nat) (c : Enc) : Option Enc :=
  match moveOpnd c.x (repStep rc.xs * k), moveOpnd c.y (repStep rc.ys * k), moveOpnd c.z (repStep rc.zs * k),
    (if isOpnd r.w then moveOpnd (wOpnd c) (repStep rc.ws * k) else some (wOpnd c)) with
  | some x, some y, some z, some w =>
    some { c with x := x, y := y, z := z,
                  imm := if isOpnd r.w then (c.imm.extractLsb' 10 22 ++ opndBits w : BitVec 32) else c.imm }
  | _, _, _, _ => none

/-- An instruction with its operand fields replaced. -/
def withEnc (i : Instr) (c : Enc) : Instr :=
  match i with
  | .nop _ => .nop c
  | .mov _ t => .mov c t
  | .sel _ t => .sel c t
  | .iadd _ b t => .iadd c b t
  | .isub _ b t => .isub c b t
  | .ineg _ b t => .ineg c b t
  | .iabs _ b t => .iabs c b t
  | .imul _ t => .imul c t
  | .imulh _ t => .imulh c t
  | .imad _ t => .imad c t
  | .imin _ t => .imin c t
  | .imax _ t => .imax c t
  | .idp4 _ b t => .idp4 c b t
  | .lea _ sh t => .lea c sh t
  | .iset _ cc t => .iset c cc t
  | .bsel _ => .bsel c
  | .plop _ t => .plop c t
  | .and _ t => .and c t
  | .or _ t => .or c t
  | .xor _ t => .xor c t
  | .andn _ t => .andn c t
  | .not _ t => .not c t
  | .ltab _ t => .ltab c t
  | .shl _ b t => .shl c b t
  | .shr _ b t => .shr c b t
  | .sar _ b t => .sar c b t
  | .rol _ t => .rol c t
  | .bfx _ b t => .bfx c b t
  | .bfi _ t => .bfi c t
  | .popc _ t => .popc c t
  | .clz _ t => .clz c t
  | .ctz _ t => .ctz c t
  | .brev _ t => .brev c t
  | .fadd _ rm t => .fadd c rm t
  | .fsub _ rm t => .fsub c rm t
  | .fmul _ rm t => .fmul c rm t
  | .ffma _ rm t => .ffma c rm t
  | .fmin _ b t => .fmin c b t
  | .fmax _ b t => .fmax c b t
  | .fabs _ t => .fabs c t
  | .fneg _ t => .fneg c t
  | .fdiv _ rm t => .fdiv c rm t
  | .fsqrt _ rm t => .fsqrt c rm t
  | .frcp _ rm t => .frcp c rm t
  | .frsq _ rm t => .frsq c rm t
  | .fset _ cc t => .fset c cc t
  | .fclass _ t => .fclass c t
  | .frnd _ rm t => .frnd c rm t
  | .fscl _ rm t => .fscl c rm t
  | .cvt _ rm ns t => .cvt c rm ns t
  | .cvts _ ns t => .cvts c ns t
  | .cvtp _ rm ns q t => .cvtp c rm ns q t
  | .cvtx _ k t => .cvtx c k t
  | .qb4 _ rm => .qb4 c rm
  | .p2v _ => .p2v c
  | .v2p _ => .v2p c
  | .rds _ => .rds c
  | .smov _ t => .smov c t
  | .vote _ k => .vote c k
  | .shfl _ k t => .shfl c k t
  | .lred _ op rm t => .lred c op rm t
  | .ld _ k t => .ld c k t
  | .ldl _ t => .ldl c t
  | .st _ ev t => .st c ev t
  | .stl _ t => .stl c t
  | .pf _ b => .pf c b
  | .wdef _ => .wdef c
  | .wstat _ => .wstat c
  | .waitw _ cmp => .waitw c cmp
  | .tryw _ cmp => .tryw c cmp
  | .lqry _ => .lqry c
  | .mqst _ => .mqst c
  | .rdclk _ => .rdclk c
  | i => i

/-! ## Scoreboard -/

/-- The registers an operand covers: whether scalar, first and count. -/
def regSpan (n : Nat) : Opnd → Option (Bool × Nat × Nat)
  | .v k => some (false, k.val, n)
  | .s k => some (true, k.val, n)
  | _ => none

/-- Whether two register spans meet. -/
def spansMeet (a b : Option (Bool × Nat × Nat)) : Bool :=
  match a, b with
  | some (s1, k1, n1), some (s2, k2, n2) => s1 == s2 && decide (k1 < k2 + n2) && decide (k2 < k1 + n1)
  | _, _ => false

/-- The registers that a field covers. -/
def fieldSpan (f : FR) (o : Opnd) : Option (Bool × Nat × Nat) :=
  match f with
  | .opnd _ n _ => regSpan n o
  | _ => none

/-- Whether a reply that is out acquires: later accesses of its entry wait for it (R160, R198). -/
def acquiring (p : Pend) : Bool :=
  match p.kind with
  | .atom b | .hold b => b
  | _ => false

/-- Whether the scoreboard holds an issue back: a reply that is out will write a register or predicate it names (R43,
R116), or acquires. -/
def busy (g : Group) (e : Entry) (r : Rules) (c : Enc) : Bool :=
  g.pend.any fun p =>
    let d := regSpan (if tyIs64 p.ty then 2 else 1) p.dst
    ((p.mask &&& e.mask) != 0 || (match p.dst with | .s _ => true | _ => false)) &&
    (p.pred.isSome || acquiring p || spansMeet d (fieldSpan r.x c.x) || spansMeet d (fieldSpan r.y c.y) || spansMeet d (fieldSpan r.z c.z) ||
     spansMeet d (fieldSpan r.w (wOpnd c)))

end Sys2Proof.Machine
end

