-- ==== Sys2Proof/Machine/Ops.lean ====
section
/-! DEFINITION. The named operations over cores, groups and frontiers: access to a core, cluster, die, group or node; the
frontier (spec/08 R118 to R123); how an issue ends (R43 to R49, R116, R121, R124); raising a fault and halting the
partition (spec/20 R314 to R320), and the return from it (R321). -/
namespace Sys2Proof.Machine

/-- The outcome of one operation. -/
abbrev Out := Host.Outcome State Fault Refusal

/-! ## Access -/

/-- A core by its id. -/
def getCore (s : State) (c : Nat) : Core := mapGet {} s.cores c
/-- A core replaced. -/
def setCore (s : State) (c : Nat) (v : Core) : State := { s with cores := mapSet {} s.cores c v }
/-- A core changed. -/
def modCore (s : State) (c : Nat) (f : Core → Core) : State := setCore s c (f (getCore s c))
/-- A cluster by its global number. -/
def getCluster (s : State) (k : Nat) : Cluster := mapGet {} s.clusters k
/-- A cluster changed. -/
def modCluster (s : State) (k : Nat) (f : Cluster → Cluster) : State :=
  { s with clusters := mapSet {} s.clusters k (f (getCluster s k)) }
/-- A die by its number. -/
def getDie (s : State) (d : Nat) : Die := mapGet {} s.dies d
/-- A die changed. -/
def modDie (s : State) (d : Nat) (f : Die → Die) : State := { s with dies := mapSet {} s.dies d (f (getDie s d)) }

/-- The group in a slot of a core. -/
def getGroup (s : State) (c slot : Nat) : Option Group := assoc (getCore s c).slots slot

/-- A slot list with the group of a slot replaced. -/
def slotPut : List (Nat × Group) → Nat → Group → List (Nat × Group)
  | [], k, g => [(k, g)]
  | (j, h) :: t, k, g => if j = k then (k, g) :: t else if k < j then (k, g) :: (j, h) :: t else (j, h) :: slotPut t k g

/-- A slot list with the group of a slot changed. -/
def slotMod : List (Nat × Group) → Nat → (Group → Group) → List (Nat × Group)
  | [], _, _ => []
  | (j, h) :: t, k, f => if j = k then (j, f h) :: t else (j, h) :: slotMod t k f

/-- The group of a slot replaced. -/
def setGroup (s : State) (c slot : Nat) (g : Group) : State :=
  modCore s c fun k => { k with slots := slotPut k.slots slot g }
/-- The group of a slot changed, where one stands there. -/
def modGroup (s : State) (c slot : Nat) (f : Group → Group) : State :=
  match getGroup s c slot with
  | some _ => modCore s c fun k => { k with slots := slotMod k.slots slot f }
  | none => s
/-- A slot emptied. -/
def dropGroup (s : State) (c slot : Nat) : State :=
  modCore s c fun k => { k with slots := k.slots.filter fun p => p.1 != slot }

/-- The accepted node of a record address in a partition. -/
def findNode (s : State) (part : Nat) (addr : DWord) : Option Node := (getPart s part).nodes.find? fun n => n.addr == addr
/-- An accepted node changed. -/
def modNode (s : State) (part : Nat) (addr : DWord) (f : Node → Node) : State :=
  modPart s part fun p => { p with nodes := p.nodes.map fun n => if n.addr == addr then f n else n }

/-- Events appended to the agenda. -/
def post (s : State) (l : List Instr) : State := { s with agenda := s.agenda ++ l }

/-- Whether the module has been presented to the host (R35). -/
def presented (s : State) : Bool := s.mgmt.boot == .presented

/-- A fresh request number and the state that has handed it out. -/
def freshReq (s : State) : Nat × State := (s.reqId, { s with reqId := s.reqId + 1 })

/-- After any progress, what was found waiting may be tried again. -/
def unhold (s : State) : State := { s with held := [], heldGroups := [] }

/-- The die of a core (R27). -/
def dieOf (core : Nat) : Nat := core / 64
/-- The cluster of a core (R27). -/
def clusterOf (core : Nat) : Nat := core / 4
/-- The global group slot (R27). -/
def gslotOf (core slot : Nat) : Nat := core * 64 + slot
/-- The global group slot that a group reads: a shadow reads its leader's (R128). -/
def gslotFor (g : Group) (core slot : Nat) : Nat := gslotOf core (if g.shadow == .shadow then slot - 1 else slot)

/-- The level-2 extent, the groups of a block (R23). -/
def groupsPerBlock (la : Launch) : Nat := match la.levels[2]? with | some l => l.extent | none => 1

/-- The tile a group holds (R169). -/
def tileOf (la : Launch) (g : Group) : Nat := g.blk * groupsPerBlock la + g.grp

/-- The lanes of a mask, ascending. -/
def lanesOf (m : Lanes) : List Nat := (List.range 64).filter fun l => m.getLsbD l
/-- A mask of one lane. -/
def laneBit (l : Nat) : Lanes := 1#64 <<< l
/-- The mask of the lanes for which `f` holds. -/
def maskOf (f : Nat → Bool) : Lanes := (List.range 64).foldl (fun m l => if f l then m ||| laneBit l else m) 0
/-- All 64 lanes. -/
def allLanes : Lanes := BitVec.allOnes 64
/-- The lowest lane of a mask. -/
def lowLane (m : Lanes) : Nat := ((List.range 64).find? fun l => m.getLsbD l).getD 0

/-- A record of fields, each at its lowest bit. -/
def recordOf (l : List (Nat × Nat)) : Nat := l.foldl (fun acc p => acc + p.2 * 2 ^ p.1) 0

/-! ## Frontier -/

/-- The priority of an IX in a block table in ascending IX (R118). An IX at or beyond the instruction count, where R118 gives none, takes the last
block's: the model's choice (log 61). -/
def prioOf (btab : List (Nat × Nat)) (ix : Word) : Nat :=
  btab.foldl (fun acc b => if b.1 ≤ ix.toNat then b.2 else acc) 0

/-- Whether entry `a` ranks before entry `b` (R120). -/
def ranksBefore (a b : Entry) : Bool :=
  if a.prio ≠ b.prio then decide (b.prio < a.prio)
  else if a.ix ≠ b.ix then decide (a.ix.toNat < b.ix.toNat)
  else decide (a.rgn.toNat < b.rgn.toNat)

/-- Insertion by rank. -/
def rankInsert (e : Entry) : List Entry → List Entry
  | [] => [e]
  | a :: t => if ranksBefore e a then e :: a :: t else a :: rankInsert e t
/-- The entries in rank order. -/
def ranked (l : List Entry) : List Entry := l.foldr rankInsert []

/-- Whether two entries merge (R121). -/
def canMerge (a b : Entry) : Bool :=
  a.ix == b.ix && a.rgn == b.rgn && a.repi == 0 && b.repi == 0 && a.rep.isNone && b.rep.isNone &&
  ((a.st == .live && b.st == .live) || (a.st == .yielded && b.st == .yielded))

/-- Two entries as one: the union of the lanes (R121); the chain of the entry that holds one goes on. -/
def mergeTwo (a b : Entry) : Entry :=
  { a with mask := a.mask ||| b.mask, cnt := mapSets 0 a.cnt b.cnt, due := a.due ||| b.due,
           tckAt := a.tckAt <|> b.tckAt, resend := a.resend <|> b.resend,
           chain := if a.chain.isEmpty then b.chain else a.chain, chn := a.chn || b.chn,
           spilled := a.spilled && b.spilled, broken := a.broken || b.broken }

/-- An entry merged into the first of a list with which it merges, else appended. -/
def mergeInto (e : Entry) : List Entry → List Entry
  | [] => [e]
  | a :: t => if canMerge a e then mergeTwo a e :: t else a :: mergeInto e t

/-- Empty entries removed and equal ones merged (R121, R122). -/
def mergeAll (l : List Entry) : List Entry := (l.filter fun e => e.mask != 0).foldl (fun acc e => mergeInto e acc) []

/-- The 16 hardware places: entries beyond them, lowest rank first, are spilled (R123). -/
def markSpilled (l : List Entry) : List Entry :=
  let hw := ranked (l.filter fun e => !e.spilled)
  let out := hw.drop 16
  l.map fun e => if out.any (fun o => o.mask == e.mask) then { e with spilled := true } else e

/-- Whether a YIELDED entry becomes LIVE: every other eligible entry has issued since, or none is eligible (R122). -/
def yieldOver (l : List Entry) (e : Entry) : Bool :=
  l.all fun o => o.mask == e.mask || o.st != .live || (o.mask &&& e.due) == 0

/-- YIELDED entries whose wait is over are LIVE. -/
def unyield (l : List Entry) : List Entry :=
  l.map fun e => if e.st == .yielded && yieldOver l e then { e with st := .live, due := 0 } else e

/-- The frontier after a change, before the hardware's places are looked at: yields resolved, entries merged. -/
def mergeFront (l : List Entry) : List Entry := mergeAll (unyield (mergeAll l))

/-- The frontier after a change: yields resolved, entries merged, spilled ones marked. -/
def tidyFront (l : List Entry) : List Entry := markSpilled (mergeFront l)

/-- The issue cycles that the spills of a frontier's change cost: 4 for each entry newly spilled (R123). -/
def spillCost (l : List Entry) : Nat :=
  4 * (((tidyFront l).filter (·.spilled)).length - ((mergeFront l).filter (·.spilled)).length)

/-- The frontier of a group changed and put in order; each spill costs the group 4 issue cycles, and a spilled entry asks for its refill
(R123). -/
def modFront (s : State) (c slot : Nat) (f : List Entry → List Entry) : State :=
  let s1 := modGroup s c slot fun g => { g with front := tidyFront (f g.front), stall := g.stall + spillCost (f g.front) }
  match getGroup s1 c slot with
  | some g => if g.front.any (·.spilled) && !s1.agenda.contains (.frontierRefill c slot) then post s1 [.frontierRefill c slot] else s1
  | none => s1

/-- The entry that holds a lane. -/
def entryOf (l : List Entry) (lane : Nat) : Option Entry := l.find? fun e => e.mask.getLsbD lane

/-- The entry with exactly these lanes changed. -/
def modEntry (l : List Entry) (m : Lanes) (f : Entry → Entry) : List Entry := l.map fun e => if e.mask == m then f e else e

/-- A rollback of an entry (R125): IX to RGN, REPI 0, chain broken. -/
def rollback (btab : List (Nat × Nat)) (e : Entry) : Entry :=
  { e with ix := e.rgn, prio := prioOf btab e.rgn, repi := 0, rep := none, chain := [], chn := false, broken := false,
           st := .live, wait := none, due := 0, tckAt := none }

/-- The CVTS counts of some lanes taken from a record (R68, R125). -/
def countsFrom (ncall : SMap Word) (m : Lanes) (rec : SMap Word) : SMap Word :=
  (lanesOf m).foldl (fun n l => mapSet 0 n l (mapGet 0 rec l)) ncall

/-- The record of the CVTS counts of some lanes (R68). -/
def countsOf (ncall : SMap Word) (m : Lanes) : SMap Word :=
  (lanesOf m).foldl (fun n l => mapSet 0 n l (mapGet 0 ncall l)) []

/-- A group with one entry rolled back and its lanes' counts restored (R125). -/
def rollGroup (btab : List (Nat × Nat)) (m : Lanes) (g : Group) : Group :=
  match g.front.find? (fun e => e.mask == m) with
  | some e => { g with ncall := countsFrom g.ncall m e.cnt, front := modEntry g.front m (rollback btab) }
  | none => g

/-- A group with every entry rolled back (R125, R305 step 6, R338 step 1): TCK is as it stood at the region entry, so that a replayed post takes its
ticket again, which is what R236 gives for every run (log 71). -/
def rollAll (btab : List (Nat × Nat)) (g : Group) : Group :=
  let g1 := g.front.foldl (fun g e => rollGroup btab e.mask g) g
  { g1 with tck := (g.front.findSome? (·.tckAt)).getD g.tck }

/-! ## The issuing entry -/

/-- What an issue works on: its core and slot, the group, the entry, the node with its launch record, and `act` (R8). -/
structure Ctx where
  core : Nat
  slot : Nat
  g : Group
  e : Entry
  node : Node
  act : Lanes

/-- Predicate `k` of a group, one bit per lane; p7 reads 1 (R8, R75). -/
def predRow (g : Group) (k : Nat) : Lanes := if k = 7 then allLanes else mapGet 0 g.preds k

/-- `act` (R8, R42). -/
def actOf (g : Group) (e : Entry) (c : Enc) : Lanes :=
  e.mask &&& (if c.gn then ~~~(predRow g c.gp.val) else predRow g c.gp.val)

/-- The issuing entry and its group, when the selection names a live one whose node is accepted. -/
def selected (s : State) : Option (Sel × Group × Entry × Node) :=
  match s.sel with
  | none => none
  | some sl =>
    match getGroup s sl.core sl.slot with
    | none => none
    | some g =>
      match entryOf g.front sl.lane, findNode s g.part g.node with
      | some e, some n => if e.st == .live then some (sl, g, e, n) else none
      | _, _ => none

/-- The context of an issue. -/
def ctxOf (s : State) (c : Enc) : Option Ctx :=
  (selected s).map fun p => { core := p.1.core, slot := p.1.slot, g := p.2.1, e := p.2.2.1, node := p.2.2.2,
                              act := actOf p.2.1 p.2.2.1 c }

/-- The originator tag of an issue (R323). -/
def tagOf (x : Ctx) : Tag := { gslot := gslotFor x.g x.core x.slot, ix := x.e.ix, rgn := x.e.rgn }

/-- Whether every earlier instruction of an entry has settled: no reply of its lanes is out (R124). -/
def settled (g : Group) (e : Entry) : Bool := g.pend.all fun p => (p.mask &&& e.mask) == 0

/-- How a meaning ends. `fin` completes with the per-lane result that the chain's latch takes; `late` completes with a
reply still out; `jump` has set the frontier itself; `wait` holds the entry and `waitGroup` the group at issue; `trap`
raises a fault. -/
inductive Res where
  | fin (s : State) (r : Row64)
  | late (s : State) (req : Nat)
  | jump (s : State)
  | wait (s : State)
  | waitGroup (s : State)
  | trap (k : TrapKind) (faddr : DWord)

/-- The row of zeros. -/
def zeroRow : Row64 := Vector.ofFn fun _ => 0

/-- An entry after one of its issues completes (R44, R45, R48, R121, R124): `ends` where the instruction ends its chain,
`newRgn` where it ends a region. -/
def advance (btab : List (Nat × Nat)) (ncall : SMap Word) (c : Enc) (ends newRgn : Bool) (item : Option Nat × Row64)
    (e : Entry) : Entry :=
  let keep := c.chn && decide (e.chain.length < 7) && !ends
  let more := match e.rep with | some rc => decide (e.repi < rc.last) | none => false
  let ix := if more then e.ix else match e.rep with | some _ => e.ix + 2 | none => e.ix + 1
  let last := newRgn && !more
  { e with ix := ix, prio := prioOf btab ix, repi := if more then e.repi + 1 else 0, rep := if more then e.rep else none,
           chain := if keep then item :: e.chain else [], chn := keep, st := .live, wait := none,
           rgn := if last then ix else e.rgn, cnt := if last then countsOf ncall e.mask else e.cnt,
           tckAt := if last then none else e.tckAt, resend := if last then none else e.resend }

/-- A YIELDED entry after an issue of the lanes of `m` (R122). -/
def clearDue (m : Lanes) (e : Entry) : Entry := if e.st == .yielded then { e with due := e.due &&& ~~~m } else e

/-- Group state after one of its issues (R43, R116, R117): stall, yield, the wait counts of the others. -/
def afterIssue (c : Enc) (keepChn : Bool) (m : Lanes) (g : Group) : Group :=
  { g with stall := c.stall.val, yld := c.yld && !keepChn, passed := 0, promoted := none, issued := g.issued + 1, nbHold := none,
           front := g.front.map (clearDue m) }

/-- `n` cycles of a core: its counter advances, its watchdog's while a group is resident (R310, R311), and stalls and sleeps
run down (R43, R134). -/
def passCycles (n : Nat) (k : Core) : Core :=
  { k with cyc := k.cyc + n, wdc := if k.slots.isEmpty then k.wdc else k.wdc + n,
           slots := k.slots.map fun p =>
             (p.1, { p.2 with stall := p.2.stall - n, sleep := p.2.sleep - n, nbHold := p.2.nbHold.map (· + n) }) }

/-- One cycle of a core; one issue counts one cycle (log 9). -/
def tick (k : Core) : Core := passCycles 1 k

/-- The watchdog budget of the node that a core holds; 0 is off (R310). -/
def wdogOf (s : State) (core : Nat) : Nat :=
  let k := getCore s core
  match k.node with
  | some a => match findNode s k.part a with | some n => n.la.wdog | none => 0
  | none => 0

/-- Whether an entry is a TRYW whose 2,048 cycles are over (R164). -/
def trywOver (k : Core) (e : Entry) : Bool :=
  match e.wait with
  | some (.word true _ _ _ _ _ since) => e.st == .blocked && decide (since + 2048 ≤ k.cyc)
  | _ => false

/-- The cycles of a die's core clock, by the core that has counted the most (log 9). -/
def dieCycles (s : State) (die : Nat) : Nat := (s.cores.filter fun k => dieOf k.1 == die).foldl (fun m k => max m k.2.cyc) 0

/-- The mesh clock of a die, by the cycles of its cores and its core clock in tenths of a GHz (R30, log 9). -/
def meshClock (s : State) (die : Nat) : Nat :=
  let d := getDie s die
  d.clkBase + (dieCycles s die - d.clkCyc) * 20 / max 1 d.freq

/-- The REDT node timers that run, with what is left of each (R254). -/
def redtTimers (s : State) : List (Nat × Nat × Instr) :=
  s.parts.flatMap fun p => p.2.idents.flatMap fun i => i.2.nodes.filterMap fun r =>
    match r.2.due with
    | some (d, t) => if r.2.flushed || p.2.clkStop.isSome then none else some (d, t - meshClock s d, .redtNodeTimeout p.1 i.1 r.1)
    | none => none

/-- What the cycles of a core have made due: its watchdog's expiry (R310), a TRYW's end (R164), a tile that may leave (R283), a REDT node's
timeout (R254), the end of the die's activity period (R279). -/
def dueEvents (s : State) (core : Nat) : List Instr :=
  let k := getCore s core
  ((redtTimers s).filter fun r => r.1 == dieOf core && r.2.1 == 0).map (fun r => r.2.2) ++
  (if (getDie s (dieOf core)).periods < meshClock s (dieOf core) / 8192 then [.activityPeriod (dieOf core)] else []) ++
  (if wdogOf s core != 0 && decide (wdogOf s core ≤ k.wdc) then [.watchdogExpiry core] else []) ++
  k.slots.flatMap fun p =>
    ((p.2.front.filter (trywOver k)).map fun e => Instr.trywTimeout core p.1 (lowLane e.mask)) ++
    (match p.2.nbHold, findNode s p.2.part p.2.node with
     | some c, some n => if 256 ≤ c && mapGet .fresh n.tiles (tileOf n.la p.2) == .resident then [Instr.tileEligible p.2.part p.2.node.toNat (tileOf n.la p.2)] else []
     | _, _ => [])

/-- Cycles of a core, and what they have made due. -/
def tickCore (core n : Nat) (s : State) : State :=
  let s1 := modCore s core (passCycles n)
  post s1 ((dueEvents s1 core).filter fun i => !s1.agenda.contains i)

/-- The IX of the instruction an entry issues: after the REP word within a pair (R48, R96). -/
def instrIx (e : Entry) : Word := if e.rep.isSome then e.ix + 1 else e.ix

/-- The entries of a group that may be offered: LIVE, not found waiting, and the one a CHN reservation holds where one
stands (R43, R120). -/
def eligible (s : State) (core slot : Nat) (g : Group) : List Entry :=
  let l := g.front.filter fun e => e.st == .live && !s.held.contains { core := core, slot := slot, lane := lowLane e.mask }
  match g.front.find? (fun e => e.chn) with
  | some r => l.filter fun e => e.mask == r.mask
  | none => l

/-- The entry a group offers: its highest-ranked eligible one (R120). -/
def offered (s : State) (core slot : Nat) (g : Group) : Option Entry := (ranked (eligible s core slot g)).head?

/-- Whether a group is ready (R116). -/
def groupReady (s : State) (core slot : Nat) (g : Group) : Bool :=
  !g.raised && !g.away && g.stall == 0 && g.sleep == 0 && !s.heldGroups.contains (core, slot) && (offered s core slot g).isSome

/-- The instruction that an entry would issue next, as memory holds it (R36); the pages it crosses are looked up in the table itself, since
this decides no fetch. -/
def peekInstr (s : State) (la : Launch) (part : Nat) (e : Entry) : Option Instr :=
  let va := la.code + BitVec.ofNat 64 (12 * (instrIx e).toNat)
  let pa := fun (k : Nat) => match engTrans s part (va + BitVec.ofNat 64 k) .fetch with | .ok a _ => some a | _ => none
  let l := (List.range 12).filterMap pa
  if l.length < 12 then none else (decodeWord (wordOfBytes (l.map (memByte s)))).toOption

/-- Whether the scoreboard holds back the next instruction of the entry that a group offers (R116). -/
def scoreHolds (s : State) (core slot : Nat) (g : Group) : Bool :=
  !g.pend.isEmpty &&
  match offered s core slot g, findNode s g.part g.node with
  | some e, some n =>
    match peekInstr s n.la g.part e with
    | some i => match encOf i with
      | some c => match (match e.rep with | some rc => stepEnc (rulesOf i) rc e.repi c | none => some c) with
        | some c' => busy g e (rulesOf i) c'
        | none => false
      | none => false
    | none => false
  | _, _ => false

/-- Whether a group that does not issue in a cycle of its scheduler is passed over in it (R116, R117). -/
def groupPassed (s : State) (core : Nat) (p : Nat × Group) : Bool := groupReady s core p.1 p.2 && !scoreHolds s core p.1 p.2

/-- The other groups of a scheduler after one of its issues: a ready one has been passed over once more, and is promoted at 1,024; one that
was not ready begins its count again, since only consecutive cycles count (R117). A YLD has had its one selection (R116). -/
def passOver (core slot : Nat) (s : State) : State :=
  let others := (getCore s core).slots.filter fun p => p.1 / 16 == slot / 16 && p.1 != slot
  let s1 := others.foldl (fun t p => modGroup t core p.1 fun g =>
    { g with yld := false, passed := if groupPassed s core p then g.passed + 1 else 0 }) s
  post s1 ((others.filter fun p => groupPassed s core p && p.2.passed == 1023).map fun p => .groupPromotion core p.1)

/-- A tile whose wait has ended is no longer eligible to leave its slot (R284). -/
def notEligible (x : Ctx) (s : State) : State :=
  let t := tileOf x.node.la x.g
  if mapGet .fresh x.node.tiles t == .eligible then
    modNode s x.g.part x.g.node fun n => { n with tiles := mapSet .fresh n.tiles t .resident } else s

/-- The issue's bookkeeping at its core: the cycle, the group's hints, what waited may be tried again. -/
def chargeIssue (x : Ctx) (c : Enc) (keepChn : Bool) (s : State) : State :=
  notEligible x (unhold (modGroup (tickCore x.core 1 (passOver x.core x.slot s)) x.core x.slot (afterIssue c keepChn x.e.mask)))

/-- An issue that completes: the entry advances and the frontier is put in order. -/
def complete (x : Ctx) (c : Enc) (ends newRgn : Bool) (item : Option Nat × Row64) (s : State) : State :=
  let keep := c.chn && decide (x.e.chain.length < 7) && !ends
  let ncall := match getGroup s x.core x.slot with | some g => g.ncall | none => []
  modFront (chargeIssue x c keep s) x.core x.slot fun l =>
    modEntry l x.e.mask (advance x.node.la.btab ncall c ends newRgn item)

/-- Whether an instruction that blocks in a wait issues again at its IX when the wait ends: then this issue counts for nothing in the lag
of a pair (R128). -/
def waitReissues : Wait → Bool
  | .recv _ | .queue => true
  | _ => false

/-- An issue that must wait inside its instruction: the entry is BLOCKED at its IX (R122). -/
def blockEntry (x : Ctx) (c : Enc) (w : Wait) (s : State) : State :=
  let s1 := modFront (chargeIssue x { c with chn := false } false s) x.core x.slot fun l =>
    modEntry l x.e.mask fun e => { e with st := .blocked, wait := some w, chn := false }
  if waitReissues w then modGroup s1 x.core x.slot fun g => { g with issued := x.g.issued } else s1

/-- A wait with its lanes changed. -/
def setWaitLanes (s : State) (core slot : Nat) (m : Lanes) (f : WaitLane → WaitLane) : State :=
  modGroup s core slot fun g => { g with front := modEntry g.front m fun e =>
    match e.wait with
    | some (.word t o nw cmp ls act since) => { e with wait := some (.word t o nw cmp (ls.map f) act since) }
    | _ => e }

/-- A group with its entries that wait for the load-value queue LIVE again (R128). -/
def wakeQueue (g : Group) : Group :=
  { g with front := g.front.map fun e => if e.wait == some .queue then { e with st := .live, wait := none } else e }

/-- An entry found waiting at issue (R149, R251). -/
def holdEntry (x : Ctx) (s : State) : State :=
  { s with held := { core := x.core, slot := x.slot, lane := lowLane x.e.mask } :: s.held }
/-- A group found not ready at issue (R116). -/
def holdGroup (x : Ctx) (s : State) : State := { s with heldGroups := (x.core, x.slot) :: s.heldGroups }

/-- The TLB invalidations that wait for what goes on with an old translation (R252). -/
def tlbiWaits (s : State) : List Instr :=
  s.parts.flatMap fun p => p.2.queues.flatMap fun q =>
    if q.2.pkts.any fun k => k.started && k.body.extractLsb' 0 8 == 7 then [.tlbi p.1 q.1] else []

/-- Refusals of the host that an engine has raised as its fault, done with (R369, R371). -/
def clearDenied (s : State) (part : Nat) : State := modPart s part fun p => { p with denied := [] }

/-! ## Journal and stop areas -/

/-- A journal entry (R340, R341). -/
def journal (s : State) (part ty q outcome seq : Nat) (addr aux : DWord) : State :=
  modPart s part fun p =>
    { p with
      journal := (BitVec.ofNat 256 (recordOf [(0, ty), (8, q), (16, outcome), (32, seq), (64, addr.toNat), (128, aux.toNat),
        (192, p.jnext % 2 ^ 32)]) :: p.journal).take 65536,
      jnext := p.jnext + 1 }

/-- One more record without room (R317 LOST). -/
def stopLost (s : State) (part : Nat) (area : DWord) : State :=
  match vaRead s part (area + 8) 4 with
  | some l => (vaWrite s part (area + 8) 4 ((l + 1) % 2 ^ 32)).getD s
  | none => s

/-- A record of `n` bytes claimed and written in a stop area (R318). -/
def stopRecord (s : State) (part : Nat) (area : DWord) (n v : Nat) : State :=
  match vaRead s part area 4, vaRead s part (area + 4) 4 with
  | some len, some w =>
    if len < w + n then stopLost s part area
    else match vaWrite s part (area + 4) 4 (w + n) with
      | none => s
      | some s1 =>
        match vaWrite s1 part (area + BitVec.ofNat 64 w) n v with
        | some s2 => s2
        | none => stopLost s1 part area
  | _, _ => s

/-- What describes a halt cause (R317). -/
structure Cause where
  code : Nat
  origin : Nat := 0
  serial : Word := 0
  gslot : Nat := 0
  ix : Word := 0
  rgn : Word := 0
  faddr : DWord := 0
  aux : Word := 0
  node : Option DWord := none

/-- The cause fields of a halt summary, written while CAUSE reads 0, with zeros in the reserved bits above them (R5, R317, R318). -/
def summaryPut (s : State) (part : Nat) (area : DWord) (c : Cause) : State :=
  match vaRead s part (area + 12) 1 with
  | some 0 =>
    (vaWrite s part (area + 12) 52
      (recordOf [(0, c.code), (8, c.origin), (32, c.serial.toNat), (64, c.gslot), (96, c.ix.toNat), (128, c.rgn.toNat),
        (160, c.faddr.toNat), (224, c.aux.toNat)])).getD s
  | _ => s

/-- The summary of one RUNNING node when the line rises (R318): the cause for the node that raised it and for a cause
no node raises, 0x20 for every other. -/
def summaryFor (part : Nat) (c : Cause) (s : State) (n : Node) : State :=
  if n.st ≠ 3 then s
  else if c.node = some n.addr || (0x10 ≤ c.code && c.code ≤ 0x12) then summaryPut s part n.la.stoparea c
  else summaryPut s part n.la.stoparea { code := 0x20 }

/-! ## Halting a partition -/

/-- The cores of a partition (R337), four per cluster. -/
def coresOf (l : Layout) : List Nat := l.clusters.flatMap fun k => [4 * k, 4 * k + 1, 4 * k + 2, 4 * k + 3]

/-- The units that have something to stop or to report when the line reaches them (R315, R318). -/
def unitsOf (s : State) (part : Nat) : List Unit' :=
  let p := getPart s part
  let cs := s.cores.filter fun k => k.2.part == part && !k.2.slots.isEmpty
  cs.map (fun k => Unit'.core k.1) ++
  ((s.cores.filter fun k => k.2.part == part && (!k.2.fillq.isEmpty || k.2.fillFault != 0)).map fun k => Unit'.fill k.1) ++
  ((s.clusters.filter fun k => p.lay.clusters.contains k.1 && (!k.2.table.isEmpty || k.2.report.isSome)).map fun k => Unit'.matrix k.1) ++
  ((s.dies.filter fun d => (d.2.estq.any fun w => w.part == part) || (d.2.estFault != 0 && d.2.estPart == part)).map fun d => Unit'.estate d.1) ++
  (((List.range 8).filter fun d => ((getDie s d).swapq.any fun w => w.part == part) || p.nodes.any fun n => n.st == 3 && n.la.dims != 0 && n.slots.any fun g => dieOf (g / 64) == d).map
    fun d => Unit'.lattice d) ++
  ((p.bte.filter fun q => q.2.run.isSome).map fun q => Unit'.bte q.1) ++ [Unit'.frontEnd]

/-- The mesh clocks kept at which a context that is halted or pre-empted stops counting them (R254). -/
def stopClocks (s : State) (part : Nat) : State :=
  modPart s part fun p => if p.clkStop.isSome then p else { p with clkStop := some ((List.range 8).map (meshClock s)) }

/-- The mesh clock of a die as a context counts it: not while it is halted or pre-empted (R254). -/
def contextClock (s : State) (part die : Nat) : Nat :=
  match (getPart s part).clkStop with | some l => l.getD die 0 | none => meshClock s die

/-- A context counts mesh clocks again: its REDT timers end as much later as it has stood (R254). -/
def startClocks (s : State) (part : Nat) : State :=
  match (getPart s part).clkStop with
  | none => s
  | some l =>
    let later := fun (r : RNode) => { r with due := r.due.map fun q => (q.1, q.2 + (meshClock s q.1 - l.getD q.1 0)) }
    modPart s part fun p => { p with clkStop := none, idents := p.idents.map fun i => (i.1, { i.2 with nodes := i.2.nodes.map fun r => (r.1, later r.2) }) }

/-- A halt cause raises the squall line (R314): summaries of the RUNNING nodes, the journal, and the line on its way to
every unit. Once the line is up a further cause raises nothing. -/
def raiseSquall (s : State) (part : Nat) (c : Cause) : State :=
  let p := getPart s part
  if p.squall then s else
  let us := unitsOf s part
  let s1 := modPart (stopClocks s part) part fun p =>
    { p with squall := true, st := if p.st == .running then .halting else p.st, unitsLeft := us,
             cause := c.code, causeNode := c.node, faddr := c.faddr,
             marked := (p.nodes.filter fun n => n.st == 3).map fun n => n.la.stoparea }
  let s2 := p.nodes.foldl (summaryFor part c) s1
  let s3 := journal s2 part 0x82 0 c.code 0 c.faddr (BitVec.ofNat 64 (c.serial.toNat + c.gslot * 2 ^ 32))
  post s3 (us.map (fun u => .squallArrival part u) ++ [.haltComplete part])

/-- The code of a trap kind (R314). -/
def trapCode : TrapKind → Nat
  | .illegalInstruction => 1 | .illegalOperand => 2 | .illegalConvergence => 3 | .membership => 4 | .heirless => 5
  | .protection => 6 | .page => 7 | .software => 8 | .breakpoint => 9

/-- TAKING A FAULT: the group whose entry is charged issues nothing further, its cause is kept for its record, and the
squall line of its partition rises (R314, R315, R319). `back` rolls the charged entry back to its RGN, for a fault found
after the issue checks (R316). -/
def takeFault (s : State) (core slot : Nat) (m : Lanes) (back : Bool) (k : TrapKind) (faddr : DWord) (aux : Word)
    (btab : List (Nat × Nat)) : State :=
  match getGroup s core slot with
  | none => s
  | some g =>
    match g.front.find? (fun e => e.mask == m) with
    | none => s
    | some e =>
      let g1 := { g with raised := true, cause := if g.cause = 0 then trapCode k else g.cause,
                         charged := if g.cause = 0 then m else g.charged, faddr := if g.cause = 0 then faddr else g.faddr,
                         aux := if g.cause = 0 then aux else g.aux,
                         front := modEntry g.front m fun e => { e with chain := [], chn := false,
                                                                       broken := e.broken || !e.chain.isEmpty } }
      let g2 := if back then rollGroup btab m g1 else g1
      raiseSquall (setGroup s core slot g2) g.part
        { code := trapCode k, origin := 3, gslot := gslotFor g core slot, ix := if back then e.rgn else e.ix, rgn := e.rgn, faddr := faddr, aux := aux,
          node := some g.node }

/-- A fault at the issue of the selected entry: precise (R53). -/
def trapIssue (x : Ctx) (k : TrapKind) (faddr : DWord) (s : State) : State :=
  takeFault (modCore (unhold s) x.core tick) x.core x.slot x.e.mask false k faddr 0 x.node.la.btab

/-- A fault that an access to memory meets after the issue checks, such as a read of a tile record: charged at the region entry (R174, R251, R316). -/
def trapBack (x : Ctx) (k : TrapKind) (faddr : DWord) (s : State) : State :=
  takeFault (modCore (unhold s) x.core tick) x.core x.slot x.e.mask true k faddr 0 x.node.la.btab

/-- Every translation of a partition dropped (R252, R321). -/
def dropTranslations (s : State) (part : Nat) : State :=
  { s with cores := s.cores.map fun k => (k.1, { k.2 with tlb := k.2.tlb.filter fun t => t.part != part }),
           dies := s.dies.map fun d => (d.1, { d.2 with stlb := d.2.stlb.filter (fun t => t.part != part), pwc := d.2.pwc.filter fun p => p.1 / 2 ^ 60 != part }) }

/-- A group at resume: its cause is cleared, and an entry whose chain a trap broke restarts at its RGN (R45, R321). -/
def resumeGroup (btab : List (Nat × Nat)) (g : Group) : Group :=
  let g1 := g.front.foldl (fun g e => if e.broken then rollGroup btab e.mask g else g) g
  { g1 with raised := false, cause := 0, charged := 0, faddr := 0, serial := 0, aux := 0, rslot := none, front := tidyFront g1.front }

/-- The block table of the node that holds a core. -/
def coreBtab (s : State) (k : Core) : List (Nat × Nat) :=
  match k.node with
  | some a => match findNode s k.part a with | some n => n.la.btab | none => []
  | none => []

/-- RETURNING FROM A HALT (R321): translations dropped, causes cleared, WDC cleared after a watchdog expiry, the line
lowered; every engine and every group goes on from where it stands. The counts of a watchdog's node are cleared wherever they stand: on the cores,
in those kept for it, and in saved images (R310, R321). -/
def returnFromHalt (s : State) (part : Nat) : State :=
  let p := getPart s part
  if p.st ≠ .halted then s else
  let s1 := dropTranslations s part
  let s2 := ((p.nodes.map fun n => n.la.stoparea) ++ p.marked).foldl (fun s a => (vaWrite s part (a + 12) 1 0).getD s) s1
  let s3 := { s2 with
    cores := s2.cores.map fun k => if k.2.part ≠ part then k else
      (k.1, { k.2 with stopped := false, fillFault := 0, fillFaddr := 0, fillRow := 0, fillLast := (0, 0, 0),
                       wdc := if p.cause == 0x0A && k.2.node == p.causeNode then 0 else k.2.wdc,
                       wdcs := if p.cause == 0x0A then k.2.wdcs.filter fun w => some (BitVec.ofNat 64 w.1) != p.causeNode else k.2.wdcs,
                       slots := k.2.slots.map fun g => (g.1, resumeGroup (coreBtab s2 k.2) g.2) }),
    clusters := s2.clusters.map fun k => if p.lay.clusters.contains k.1 then (k.1, { k.2 with frozen := false, report := none }) else k,
    dies := s2.dies.map fun d => if d.2.estPart == part then (d.1, { d.2 with estFault := 0 }) else d }
  let s4 := modPart s3 part fun p =>
    { p with nodes := p.nodes.map (fun n => { n with lfault := none }),
             images := p.images.map (fun i => if p.cause == 0x0A && i.img.node == p.causeNode then { i with img := { i.img with wdc := 0 } } else i),
             squall := false, st := .running, unitsLeft := [], cause := 0, causeNode := none, faddr := 0, marked := [],
             queues := p.queues.map (fun q => (q.1, if q.2.qstat == 2 then { q.2 with qstat := if q.2.pkts.isEmpty then 0 else 1 } else q.2)),
             bte := p.bte.map fun q => (q.1, { q.2 with stopped := false }) }
  let s5 := journal s4 part 0x83 0 0 0 0 0
  let fills := (s5.cores.filter fun k => k.2.part == part && !k.2.fillq.isEmpty).map fun k => Instr.windowFill k.1
  unhold (post (startClocks s5 part) fills)

/-! ## Error logs -/

/-- A record put into a die's error log, which keeps the last 256 (R342). -/
def logError (s : State) (die : Nat) (r : Record) : State :=
  modDie s die fun d => { d with errlog := (r :: d.errlog).take 256, errCount := d.errCount + 1 }

/-- An uncorrectable-error report (R342). -/
def ueReport (die src act blk gslot pa : Nat) : Record :=
  BitVec.ofNat 512 (recordOf [(0, 0x18), (8, die), (16, src), (24, act), (32, blk), (64, gslot), (128, pa % 2 ^ 52)])

/-! ## Refusals -/

/-- What a refused operation is charged to: the core it came from, its node and group, its tag, and the addresses. -/
structure Origin where
  core : Nat
  part : Nat
  node : DWord
  blk : Nat
  grp : Nat
  tag : Tag
  va : DWord
  pa : Nat
  home : Nat

/-- The origin of a store buffer entry. -/
def originOf (e : SbEntry) (pa : Nat) : Origin :=
  { core := e.core, part := e.part, node := e.node, blk := e.blk, grp := e.grp, tag := e.tag, va := e.va, pa := pa, home := e.home }

/-- The full record of R324; SLICE is the slice index of R242 in the partition's layout. -/
def fullRecord (l : Layout) (o : Origin) (die sub opk : Nat) (serial : Word) : Record :=
  BitVec.ofNat 512 (recordOf [(0, 0x08), (8, die), (16, if sub = 4 || sub = 6 then 0 else sliceIndex l o.home), (24, sub), (32, serial.toNat),
    (64, opk), (80, o.tag.gslot), (96, o.tag.ix.toNat), (128, o.tag.rgn.toNat), (160, o.va.toNat), (256, o.pa % 2 ^ 52)])

/-- The next fault count of a die (R323): it wraps from 2^29 - 1 to 1. -/
def nextSerial (n : Nat) : Nat := if n + 1 = 2 ^ 29 then 1 else n + 1

/-- An operation refused at a die (R323): the die takes a serial, logs the full record and returns it to the core. -/
def refuse (s : State) (o : Origin) (die sub opk : Nat) : State :=
  let k := nextSerial (getDie s die).serial
  let serial := BitVec.ofNat 32 (die * 2 ^ 29 + k)
  let full := fullRecord (getPart s o.part).lay o die sub opk serial
  let s1 := logError s die full
  post (modDie s1 die fun d =>
    { d with serial := k, refused := d.refused ++ [{ core := o.core, part := o.part, node := o.node, blk := o.blk, grp := o.grp,
                                                     tag := o.tag, va := o.va, serial := serial, full := full }] })
    [.remoteFault o.core]

end Sys2Proof.Machine
end

