-- ==== Sys2Proof/Machine/Array.lean ====
section
/-! DEFINITION. The arithmetic of the matrix array (spec/05 R70, R71, spec/13 R208, R210 to R212): blocks, chunks and rows. -/
namespace Sys2Proof.Machine

/-! ## Elements and scales -/

/-- The number format of a weight or activation format. -/
def wfFmt : WFmt → Fmt
  | .f4 => fmtF4 | .f8e4 => fmtF8e4 | .f8e5 => fmtF8e5 | .bf16 => fmtBf16
/-- The bits of an element. -/
def wfBits : WFmt → Nat
  | .f4 => 4 | .bf16 => 16 | _ => 8
/-- The weights in a PE's 32-bit word (R208). -/
def wfPer (f : WFmt) : Nat := 32 / wfBits f
/-- The code of a weight format (R50). -/
def wfCode : WFmt → Nat
  | .f4 => 0 | .f8e4 => 1 | .f8e5 => 2 | .bf16 => 3

/-- Element `k` of packed elements (R56). -/
def arrElt (f : WFmt) (bits k : Nat) : Num := valNum (wfFmt f) (bits / 2 ^ (k * wfBits f) % 2 ^ wfBits f)

/-- The value 1. -/
def numOne : Num := .fin false 1 0

/-- Bytes of an activation row record, a multiple of 128: the minimum row stride (R211). -/
def rowBytes (wf af : WFmt) (rsc : Bool) : Nat :=
  match wf, af with
  | .f4, .f4 => 768
  | .f4, _ => if rsc then 1152 else 1024
  | .bf16, _ => 512
  | _, _ => if rsc then 640 else 512

/-- A row's bf16 row scale (R211, R62). -/
def rowScale (wf af : WFmt) (rsc : Bool) (row : Nat) : Num :=
  let at_ := fun (o : Nat) => valNum fmtBf16 (row / 2 ^ (8 * o) % 2 ^ 16)
  match wf, af with
  | .f4, .f4 => at_ 640
  | .f4, _ => if rsc then at_ 1024 else numOne
  | .bf16, _ => numOne
  | _, _ => if rsc then at_ 512 else numOne

/-- A column's band scale (R208, R62). -/
def bandScale (p : Plane) (wf : WFmt) (n : Nat) : Num :=
  if wf = .f4 then valNum fmtBf16 (if n < 64 then p.band0 else p.band1).toNat else numOne

/-! ## Chunks -/

/-- An exact sum on its way, with the NaN and the infinities met (R71). -/
structure Acc3 where
  nan : Bool := false
  pinf : Bool := false
  ninf : Bool := false
  sum : Dy := ⟨0, 0⟩

/-- A term added exactly. -/
def addTerm (a : Acc3) : Num → Acc3
  | .nan => { a with nan := true }
  | .inf true => { a with ninf := true }
  | .inf false => { a with pinf := true }
  | .fin s m e => { a with sum := dyAdd a.sum (dyOf s m e) }

/-- The sum of a block's products (R70 step 1). -/
def blockSum (wf af : WFmt) (w row i : Nat) : Acc3 :=
  let per := wfPer wf
  (List.range per).foldl (fun a j => addTerm a (numMulExact (arrElt wf w (per * i + j)) (arrElt af row (per * i + j)))) {}

/-- The E3M5 scales of a PE row's block: the weight's and the activation's, 1 where a format has none (R61, R62). -/
def blockScale (wf af : WFmt) (wscl row i : Nat) : Option Dy :=
  let one : Dy := ⟨1, 0⟩
  match (if wf = .f4 then e3m5 (wscl / 2 ^ (8 * i)) else some one), (if af = .f4 then e3m5 (row / 2 ^ (8 * (512 + i))) else some one) with
  | some a, some b => some (dyMul a b)
  | _, _ => none

/-- A block's scaled sum added to its chunk (R70 step 2). -/
def addBlock (wf af : WFmt) (w wscl row : Nat) (a : Acc3) (i : Nat) : Acc3 :=
  let b := blockSum wf af w row i
  match blockScale wf af wscl row i with
  | none => { a with nan := true }
  | some sc => { nan := a.nan || b.nan, pinf := a.pinf || b.pinf, ninf := a.ninf || b.ninf, sum := dyAdd a.sum (dyMul b.sum sc) }

/-- The value of chunk `c` (R70 step 2, R71). -/
def chunkNum (wf af : WFmt) (w wscl row c : Nat) : Num :=
  let a := (List.range 16).foldl (fun a j => addBlock wf af w wscl row a (16 * c + j)) {}
  if a.nan || (a.pinf && a.ninf) then .nan
  else if a.pinf then .inf false
  else if a.ninf then .inf true
  else .fin (decide (a.sum.m < 0)) a.sum.m.natAbs a.sum.e

/-- An accumulator element after a pass: eight rounded chunk values added in ascending order (R70 steps 3 and 4). -/
def passElem (wf af : WFmt) (w wscl row : Nat) (band rs : Num) (acc : Nat) : Nat :=
  (List.range 8).foldl (fun acc c =>
    let v := numRound fmtF32 .rne (numMulExact (chunkNum wf af w wscl row c) (numMulExact band rs))
    numAdd fmtF32 .rne (valNum fmtF32 acc) (valNum fmtF32 v)) acc

/-- An accumulator row after a pass over it (R212). -/
def passRow (p : Plane) (wf af : WFmt) (rsc : Bool) (row : Nat) (acc : BitVec 4096) : BitVec 4096 :=
  let rs := rowScale wf af rsc row
  BitVec.ofNat 4096 ((List.range 128).foldr (fun n rest =>
    passElem wf af (mapGet 0 p.cols n).toNat (mapGet 0 p.scales n).toNat row (bandScale p wf n) rs (acc.toNat / 2 ^ (32 * n) % 2 ^ 32) +
      2 ^ 32 * rest) 0)

/-! ## The accumulator store (R213) -/

/-- Element `n` of an accumulator row. -/
def accElem (k : Core) (key n : Nat) : Nat := (mapGet 0 k.accs key).toNat / 2 ^ (32 * n) % 2 ^ 32
/-- An accumulator row replaced, with its poison. -/
def accPut (k : Core) (key : Nat) (v : BitVec 4096) (bad : BitVec 128) : Core :=
  { k with accs := mapSet 0 k.accs key v, apoison := mapSet 0 k.apoison key bad }

/-- One element of a row replaced. -/
def accWith (v : BitVec 4096) (n e : Nat) : BitVec 4096 :=
  (v &&& ~~~((0xFFFFFFFF : BitVec 4096) <<< (32 * n))) ||| (BitVec.ofNat 4096 (e % 2 ^ 32) <<< (32 * n))
/-- One poison bit of a row set or cleared. -/
def badWith (m : BitVec 128) (n : Nat) (b : Bool) : BitVec 128 := (m &&& ~~~(1#128 <<< n)) ||| (if b then 1#128 <<< n else 0)

/-- An element loaded into a tile, widened exactly (R230): f32 as it stands. -/
def tileValue (t : Ty) (v : Nat) : Nat := if t = .f32 then v % 2 ^ 32 else convNum fmtF32 .rne false true (valNum (fmtOf t) v)

/-- Elements loaded into a row of a tile (R230); bit 63 marks one whose source was uncorrectable. -/
def tileLoad (key : Nat) (t : Ty) (l : List (Nat × DWord)) (k : Core) : Core :=
  accPut k key (l.foldl (fun v p => accWith v p.1 (tileValue t (p.2.toNat % 2 ^ 63))) (mapGet 0 k.accs key))
    (l.foldl (fun m p => badWith m p.1 (p.2.getLsbD 63)) (mapGet 0 k.apoison key))

/-- The target rows of a pass (R213). -/
def passKeys (zk m : Nat) : List Nat := (List.range m).map fun r => zk * 16 + r

/-- Whether a tile is one of a pass's targets. -/
def passHits (zk m lo cnt : Nat) : Bool := decide (zk < lo + cnt) && decide (lo < zk + (m + 15) / 16)

end Sys2Proof.Machine
end

