-- ==== Sys2Proof/Machine/Translate.lean ====
section
/-! DEFINITION. Translation for the cores: the L1 TLB, the die's shared TLB, misses and walks (spec/09 R149, spec/15 R248 to
R252), the lane checks of R156, and instruction fetch (spec/04 R36). -/
namespace Sys2Proof.Machine

/-- The cached translation that covers an address of a partition. -/
def tlbFind (l : List TlbEnt) (part : Nat) (va : DWord) : Option TlbEnt :=
  let a := va.toNat % 2 ^ 57
  l.find? fun t => t.part == part && decide (t.base ≤ a) && decide (a < t.base + t.size)

/-- A cached translation added, newest first, at most `cap` kept (R251). -/
def tlbAdd (cap : Nat) (l : List TlbEnt) (t : TlbEnt) : List TlbEnt :=
  (t :: l.filter fun u => !(u.part == t.part && u.base == t.base && u.size == t.size)).take cap

/-- The translation a core has at hand: its own TLB, else its die's (R149). -/
def coreLookup (s : State) (core part : Nat) (va : DWord) : Option TlbEnt :=
  match tlbFind (getCore s core).tlb part va with
  | some t => some t
  | none => tlbFind (getDie s (dieOf core)).stlb part va

/-- How one access translates. -/
inductive Tr where
  | ok (pa : Nat) (pte : DWord)
  | miss
  | fault (k : TrapKind)
deriving DecidableEq, Repr

/-- One access by the translation at hand (R156, R249, R250); a host-owned page in page-exclusive mode waits at translation (R371). -/
def leafTrans (s : State) (part : Nat) (va : DWord) (k : AccKind) (o : Option TlbEnt) : Tr :=
  if !canonical va then .fault .protection else
  match o with
  | none => .miss
  | some t =>
    let pa := paOf part t.base t.pte va
    if (getPart s part).hmode && t.pte.getLsbD 6 then .miss
    else if !permits t.pte k || regionOf pa == .device then .fault .protection
    else .ok pa t.pte

/-- One access of a core. -/
def coreTrans (s : State) (core part : Nat) (va : DWord) (k : AccKind) : Tr := leafTrans s part va k (coreLookup s core part va)

/-- The distinct missing pages of a core (R251). -/
def missingPages (s : State) (core : Nat) : List Nat :=
  ((getDie s (dieOf core)).walks.filter fun w => w.waiters.any fun q => q.core == core && decide (q.slot < bteWaiter)).map (·.page)

/-- Whether a core may wait on one more page: on one that it waits on already, or on fewer than 16 (R251). -/
def pageRoom (s : State) (core part : Nat) (va : DWord) : Bool :=
  decide ((missingPages s core).length < 16) ||
  (getDie s (dieOf core)).walks.any fun u => u.part == part && u.page == pageOf va && u.waiters.any fun q => q.core == core

/-- The walks outstanding on a die; misses beyond them wait in the order of the list (R251). -/
def walkLimit : Nat := 256

/-- A miss of an entry: it joins the walk of its page or starts one, at once while the die has walkers free; an entry of a core at
its limit does neither (R251). -/
def missWalk (s : State) (core slot part : Nat) (m : Lanes) (va : DWord) (k : AccKind) : State :=
  let d := dieOf core
  let w : Waiter := { core := core, slot := slot, lanes := m, kind := k, va := va }
  let die := getDie s d
  if slot < fillWaiter && !pageRoom s core part va then s else
  match die.walks.find? fun u => u.part == part && u.page == pageOf va with
  | some u =>
    if u.waiters.contains w then s else
    modDie s d fun x => { x with walks := x.walks.map fun v => if v.id == u.id then { v with waiters := v.waiters ++ [w] } else v }
  | none =>
    let p := freshReq s
    post (modDie p.2 d fun x => { x with walks := x.walks ++ [{ id := p.1, part := part, page := pageOf va, waiters := [w] }] })
      (if die.walks.length < walkLimit then [.pageWalkComplete d p.1] else [])

/-- Whether a unit that walks for itself has to ask the host for a page first (R369, R371): its entry is invalid and page requests are enabled, or it is a
page of the host in page-exclusive mode; once the host has refused it, no more. -/
def mustAsk (s : State) (part : Nat) (va : DWord) : Bool :=
  let p := getPart s part
  canonical va && !p.denied.contains (pageOf va) &&
  (match walkVa s part va with
   | .invalid => p.prq
   | .leaf _ _ pte => p.hmode && pte.getLsbD 6
   | _ => false)

/-- Whether a partition's walks ever ask the host: page requests are enabled, or its pages may be the host's (R369, R371). -/
def hostAsked (s : State) (part : Nat) : Bool := (getPart s part).prq || (getPart s part).hmode

/-- The pages of some addresses that a block-transfer engine or the front end asks the host for: each is a walk of a die whose request is out, which
the unit `w` waits on (R369, R371). -/
def askPages (s : State) (die part : Nat) (w : DWord → Waiter) (vas : List DWord) : State :=
  vas.foldl (fun s va =>
    if (getDie s die).walks.any fun u => u.part == part && u.page == pageOf va && u.asked && u.waiters.contains (w va) then s else
    match (getDie s die).walks.find? fun u => u.part == part && u.page == pageOf va && u.asked with
    | some u => modDie s die fun d => { d with walks := d.walks.map fun v => if v.id == u.id then { v with waiters := v.waiters ++ [w va] } else v }
    | none =>
      let p := freshReq s
      modDie p.2 die fun d => { d with walks := d.walks ++ [{ id := p.1, part := part, page := pageOf va, waiters := [w va], asked := true }] }) s

/-- The addresses at which the pages of an area are touched. -/
def areaPages (va : DWord) (len : Nat) : List DWord :=
  ((List.range (len / 65536 + 1)).map fun j => va + BitVec.ofNat 64 (min (65536 * j) (len - 1))) ++ [va + BitVec.ofNat 64 (len - 1)]

/-- The waiter of a partition's front end on a page (R369). -/
def frontWaits (part : Nat) (va : DWord) : Waiter := { core := part, slot := frontWaiter, lanes := 0, kind := .read, va := va }

/-- The pages for which a partition's front end, that of I/O die `part` mod 4, asks the host before it goes on, if there are any (R295, R369, R371). -/
def frontAsks (s : State) (part : Nat) (vas : List DWord) : Option State :=
  if !hostAsked s part then none else
  let l := vas.filter (mustAsk s part)
  if l.isEmpty then none else some (askPages s (part % 4) part (frontWaits part) l)

/-- A translation found in the die's TLB is kept in the core's (R149). -/
def fillTlb (s : State) (core part : Nat) (va : DWord) : State :=
  match tlbFind (getCore s core).tlb part va, coreLookup s core part va with
  | none, some t => modCore s core fun k => { k with tlb := tlbAdd 64 k.tlb t }
  | _, _ => s

/-- How the accesses of an issue translate. -/
inductive LaneTr where
  | ok (l : List LaneAcc) (s : State)
  | wait (s : State)
  | trap (k : TrapKind) (faddr : DWord)

/-- The first access of a list that faults: not a multiple of `w` bytes, or a fault of its translation (R156). -/
def laneFault (s : State) (core part w : Nat) (k : AccKind) : List (Nat × DWord) → Option (TrapKind × DWord)
  | [] => none
  | (_, va) :: t =>
    if va.toNat % w ≠ 0 then some (.protection, va) else
    match coreTrans s core part va k with
    | .fault f => some (f, va)
    | _ => laneFault s core part w k t

/-- One translated access. -/
def laneAcc (s : State) (core part : Nat) (k : AccKind) (p : Nat × DWord) : LaneAcc :=
  match coreTrans s core part p.2 k with
  | .ok pa pte => { lane := p.1, va := p.2, pa := pa, ms := pte.getLsbD 5, home := homeOf (getPart s part).lay pa pte }
  | _ => { lane := p.1, va := p.2, pa := 0 }

/-- All accesses of an issue are checked before any is performed (R156); a miss holds the entry until its walk ends. -/
def transLanes (s : State) (core slot part : Nat) (m : Lanes) (w : Nat) (k : AccKind) (l : List (Nat × DWord)) : LaneTr :=
  match laneFault s core part w k l with
  | some (f, va) => .trap f va
  | none =>
    let missing := l.filter fun p => coreTrans s core part p.2 k == .miss
    if missing.isEmpty then
      .ok (l.map (laneAcc s core part k)) (l.foldl (fun s p => fillTlb s core part p.2) s)
    else .wait (missing.foldl (fun s p => missWalk s core slot part m p.2 k) s)

/-! ## Fetch -/

/-- How a fetch ends. -/
inductive Fet where
  | word (w : BitVec 96) (s : State)
  | wait (s : State)
  | trap (k : TrapKind) (faddr : DWord)
  | poisoned (pa : Nat)

/-- The virtual address of an instruction word (R36). -/
def wordAddr (n : Node) (ix : Word) : DWord := n.la.code + BitVec.ofNat 64 (12 * ix.toNat)

/-- The fetch of the word at IX for an entry (R36): beyond the code object, or from a page without X, PROTECTION. -/
def fetchAt (s : State) (core slot : Nat) (n : Node) (part : Nat) (m : Lanes) (ix : Word) : Fet :=
  let va := wordAddr n ix
  if n.la.nix ≤ ix.toNat then .trap .protection va else
  let vas := (List.range 12).map fun k => (k, va + BitVec.ofNat 64 k)
  match transLanes s core slot part m 1 .fetch vas with
  | .trap k _ => .trap k va
  | .wait s1 => .wait s1
  | .ok l s1 =>
    if l.any fun a => (refusalOf (getPart s part).lay a.pa).isSome then .trap .protection va
    else match l.find? fun a => linePoisoned s a.pa with
      | some a => .poisoned (a.pa / 128 * 128)
      | none => .word (wordOfBytes (l.map fun a => memByte s a.pa)) s1

end Sys2Proof.Machine
end

