-- ==== Sys2Proof/Machine/Lattice.lean ====
section
/-! DEFINITION. Lattice geometry (spec/10 R168, R169), where a tile's banks are (R171 to R174, spec/16 R281 to R284) and
the neighbour read (R173). -/
namespace Sys2Proof.Machine

/-- Tiles along x, y and z (R168). -/
def tilesX (la : Launch) : Nat := la.xe / la.ta
/-- Tiles along y. -/
def tilesY (la : Launch) : Nat := la.ye / la.tb
/-- Tiles along z. -/
def tilesZ (la : Launch) : Nat := la.ze / la.tc
/-- The number of tiles (R168). -/
def tileCount (la : Launch) : Nat := tilesX la * tilesY la * tilesZ la

/-- Lanes that serve one cell (R169). -/
def lanesPerCell (la : Launch) : Nat := 64 / (la.ta * la.tb * la.tc)

/-- The cell a lane of a tile serves (R169). -/
def cellOf (la : Launch) (tile lane : Nat) : Nat × Nat × Nat :=
  let t := lane / lanesPerCell la
  (tile % tilesX la * la.ta + t % la.ta,
   tile / tilesX la % tilesY la * la.tb + t / la.ta % la.tb,
   tile / (tilesX la * tilesY la) * la.tc + t / (la.ta * la.tb))

/-- The tile and the cell index within it of a cell. -/
def tileOfCell (la : Launch) (c : Nat × Nat × Nat) : Nat × Nat :=
  (c.1 / la.ta + tilesX la * (c.2.1 / la.tb + tilesY la * (c.2.2 / la.tc)),
   c.1 % la.ta + la.ta * (c.2.1 % la.tb + la.tb * (c.2.2 % la.tc)))

/-- One coordinate moved by one cell; `none` beyond a non-wrapped edge (R173). -/
def moveAxis (extent : Nat) (wrap up : Bool) (v : Nat) : Option Nat :=
  if up then (if v + 1 < extent then some (v + 1) else if wrap then some 0 else none)
  else (if v = 0 then (if wrap then some (extent - 1) else none) else some (v - 1))

/-- A cell moved one cell along a direction; `none` beyond an edge (R173). -/
def moveCell (la : Launch) (d : Dir) (c : Nat × Nat × Nat) : Option (Nat × Nat × Nat) :=
  match d with
  | .self => some c
  | .east => (moveAxis la.xe (la.wrap.getLsbD 0) true c.1).map fun v => (v, c.2)
  | .west => (moveAxis la.xe (la.wrap.getLsbD 0) false c.1).map fun v => (v, c.2)
  | .north => (moveAxis la.ye (la.wrap.getLsbD 1) true c.2.1).map fun v => (c.1, v, c.2.2)
  | .south => (moveAxis la.ye (la.wrap.getLsbD 1) false c.2.1).map fun v => (c.1, v, c.2.2)
  | .up => (moveAxis la.ze (la.wrap.getLsbD 2) true c.2.2).map fun v => (c.1, c.2.1, v)
  | .down => (moveAxis la.ze (la.wrap.getLsbD 2) false c.2.2).map fun v => (c.1, c.2.1, v)

/-- Whether a direction's axis is declared (R40). -/
def axisDeclared (la : Launch) : Dir → Bool
  | .self => decide (0 < la.dims)
  | .east | .west => decide (1 ≤ la.dims)
  | .north | .south => decide (2 ≤ la.dims)
  | .up | .down => decide (3 ≤ la.dims)

/-- The directions of the declared axes, one face each (R281). -/
def faces (la : Launch) : List Dir := [Dir.east, .west, .north, .south, .up, .down].filter (axisDeclared la)

/-- The declared neighbour tiles of a tile (R175): the other tiles that hold a neighbour of one of its cells. -/
def neighbourTiles (la : Launch) (tile : Nat) : List Nat :=
  (((faces la).flatMap fun d => (List.range 64).filterMap fun l =>
    (moveCell la d (cellOf la tile l)).map fun c => (tileOfCell la c).1).filter (· != tile)).dedup

/-- The cells of another tile that a tile reads across a face: that tile, and the lanes of it (R173, R281). -/
def faceReads (la : Launch) (tile : Nat) (d : Dir) : List (Nat × Nat) :=
  ((List.range 64).filterMap fun l => (moveCell la d (cellOf la tile l)).bind fun c =>
    let h := tileOfCell la c
    if h.1 = tile then none else some (h.1, h.2 * lanesPerCell la + l % lanesPerCell la)).dedup

/-- The tile across a face of a tile, if another one lies there (R175, R281). -/
def faceOwner (la : Launch) (tile : Nat) (d : Dir) : Option Nat := ((faceReads la tile d).head?).map (·.1)

/-- Bytes of a tile record (R282). -/
def recordSize (la : Launch) : Nat := 128 + 512 * la.ecount + 256 * la.live + 2048
/-- The virtual address of a tile record (R282). -/
def recordAt (la : Launch) (tile : Nat) : DWord := la.backing + BitVec.ofNat 64 (tile * recordSize la)

/-- What stops a read of a tile's record, which is a load (R174): a fault of its translation; a page that the host has to be asked for (R369, R371); a
line that its home die refuses (R250, R323). -/
inductive NbStop where
  | fault (k : TrapKind) (faddr : DWord)
  | ask (va : DWord)
  | refused (sub : Nat) (va : DWord) (pa home : Nat)
deriving DecidableEq, Repr

/-- What one lane's neighbour read gives: `poison` from a record line that reads back uncorrectable (R327). -/
inductive NbRes where
  | val (w : Word)
  | wait
  | poison (pa : Nat)
  | stop (w : NbStop)
deriving DecidableEq, Repr

/-- What a reader sees of a tile: its counter, its exited mark, its banks, and whether a label has come to it (R281). -/
structure TileView where
  count : Nat
  exited : Bool
  bank : Nat → Nat → Nat → NbRes
  has : Int → Bool := fun _ => true

/-- The row of an export in a bank. -/
def bankRow (b : Bank) (k : Nat) : Row := mapGet (Vector.ofFn fun _ => 0) b.rows k
/-- One lane of an export in bank 0 or 1 of two. -/
def bankVal (b0 b1 : Bank) (q k lane : Nat) : Word := (bankRow (if q = 0 then b0 else b1) k)[lane]?.getD 0
/-- The same as a read that is served at once. -/
def bankRes (b0 b1 : Bank) (q k lane : Nat) : NbRes := .val (bankVal b0 b1 q k lane)

/-- How a tile is found. -/
inductive TileFound where
  | view (v : TileView)
  | moving
  | poison (pa : Nat)
  | stop (w : NbStop)

/-- The placement of the group that holds a tile. -/
def tilePlaced (n : Node) (tile : Nat) : Option Placed :=
  n.placed.find? fun p => p.blk * groupsPerBlock n.la + p.grp == tile && !p.exited && !p.saved

/-- A word of a tile record as a load through the L2 reads it (R174). -/
def recordWord (s : State) (part : Nat) (va : DWord) : NbRes :=
  if mustAsk s part va then .stop (.ask va) else
  match engTrans s part va .read with
  | .fault k => .stop (.fault k va)
  | .poisoned => .poison 0
  | .ok pa pte =>
    match refusalOf (getPart s part).lay pa with
    | some sub => .stop (.refused sub va pa (homeOf (getPart s part).lay pa pte))
    | none => if linePoisoned s pa then .poison (pa / 128 * 128) else .val (BitVec.ofNat 32 (memRead s pa 4))

/-- A fresh tile: label -1 reads zero, and its counter is 0 (R284). -/
def freshView : TileView := { count := 0, exited := false, bank := fun _ _ _ => .val 0 }

/-- A word of a tile record's header. -/
def headWord (s : State) (part : Nat) (n : Node) (tile k : Nat) : NbRes := recordWord s part (recordAt n.la tile + BitVec.ofNat 64 (4 * k))

/-- A tile's record in the backing store (R282, R284): an uncorrectable header is consumed, and one that cannot be read faults (R174, R327). -/
def recordView (s : State) (part : Nat) (n : Node) (tile : Nat) : TileFound :=
  match headWord s part n tile 0, headWord s part n tile 1 with
  | .val c, .val f =>
    if f.getLsbD 1 then .view freshView else
    .view { count := c.toNat, exited := f.getLsbD 0,
            bank := fun q k lane => recordWord s part (recordAt n.la tile + BitVec.ofNat 64 (128 + 256 * n.la.ecount * q + 256 * k + 4 * lane)) }
  | .stop w, _ | _, .stop w => .stop w
  | .poison pa, _ | _, .poison pa => .poison pa
  | _, _ => .moving

/-- The face of a tile in a direction on its core (R281); before anything has come to it, it is that of a fresh tile: counter 0, and label -1, which reads
zero (R170, R173). -/
def mirrorOf (k : Core) (node : DWord) (tile : Nat) (d : Dir) : Mirror :=
  (k.mirrors.find? fun m => m.node == node && m.tile == tile && m.dir == d).getD { node := node, tile := tile, dir := d, bank1 := { label := some (-1) } }

/-- A lattice runs overcast when it has fewer slots than tiles; `nextBlk` counts its slots (R283). -/
def overcast (n : Node) : Bool := decide (n.nextBlk < tileCount n.la)

/-- Where a reader on a core finds the tile across its face in a direction (R173, R281, R284): an exited tile's banks are read where it left them, in
its record if it exited overcast (R177, R289). -/
def findTile (s : State) (part : Nat) (n : Node) (core reader : Nat) (d : Dir) (tile : Nat) : TileFound :=
  match mapGet .fresh n.tiles tile with
  | .exited =>
    match assoc n.tileImgs tile with
    | some g => .view { count := g.step.toNat, exited := true, bank := bankRes g.bank0 g.bank1 }
    | none => recordView s part n tile
  | .moving => .moving
  | .fresh => if overcast n then recordView s part n tile else .view freshView
  | .out => recordView s part n tile
  | .resident | .eligible =>
    match tilePlaced n tile with
    | none => .moving
    | some p =>
      if p.core = core then
        match getGroup s p.core p.slot with
        | some g => .view { count := g.step.toNat, exited := false, bank := bankRes g.bank0 g.bank1 }
        | none => .moving
      else
        let m := mirrorOf (getCore s core) n.addr reader d
        .view { count := m.count, exited := false, bank := bankRes m.bank0 m.bank1,
                has := fun q => (if q % 2 = 0 then m.bank0.label else m.bank1.label) == some q }

/-- The lane's own bank value of an export: label C - 1 (R173). -/
def ownBank (g : Group) (k lane : Nat) : Word := bankVal g.bank0 g.bank1 ((g.step.toNat + 1) % 2) k lane

/-- The bank that serves a reader with counter `c`: label C - 1, or the last label of an exited tile if that is lower
(R173). -/
def bankOf (v : TileView) (c : Nat) : Nat :=
  if v.exited && decide (v.count < c) then (v.count + 1) % 2 else (c + 1) % 2

/-- The neighbour read of one lane (R173, R174, R284). -/
def nbLane (s : State) (n : Node) (g : Group) (core : Nat) (d : Dir) (k lane : Nat) : NbRes :=
  let la := n.la
  let tile := tileOf la g
  if d = .self then .val (ownBank g k lane) else
  match moveCell la d (cellOf la tile lane) with
  | none => .val (if la.edge = 0 then 0 else if la.edge = 1 then ownBank g k lane else la.kconst)
  | some c2 =>
    let h := tileOfCell la c2
    let lane2 := h.2 * lanesPerCell la + lane % lanesPerCell la
    if h.1 = tile then .val (ownBank g k lane2) else
    match findTile s g.part n core tile d h.1 with
    | .moving => .wait
    | .stop w => .stop w
    | .poison pa => .poison pa
    | .view v =>
      if (v.count < g.step.toNat && !v.exited) || !v.has (Int.ofNat g.step.toNat - 1) then .wait
      else v.bank (bankOf v g.step.toNat) k lane2

/-- Whether a tile holds up a STEP of another one at counter `c` (R175, R284). -/
def tileBehind (s : State) (n : Node) (part core reader c tile : Nat) : Bool :=
  let d := ((faces n.la).find? fun d => faceOwner n.la reader d == some tile).getD .self
  match findTile s part n core reader d tile with
  | .view v => decide (v.count < c) && !v.exited
  | _ => true

end Sys2Proof.Machine
end

