-- ==== Sys2Proof/Machine/Operands.lean ====
section
/-! DEFINITION. Operand fields: what each field of an instruction accepts (spec/04 R38 to R41, R46, R48 and the entry of each
instruction), the checks 5 to 8 of R52, reading an operand and writing a destination (R7, R41, R42, R44, R54). -/
namespace Sys2Proof.Machine

/-! ## Checks 5 to 8 of R52 -/

/-- A uniform special (R39). -/
def uniSpecial : Special → Bool
  | .grp | .cid | .step | .blk => true
  | _ => false

/-- Whether an operand value is one that a field accepts (R38, R40). -/
def opndOk (la : Launch) (f : FR) (o : Opnd) : Bool :=
  match f, o with
  | _, .reserved _ => false
  | .unused, o => o == .zero
  | .number b, .v n => decide (n.val < b)
  | .number _, _ => false
  | .opnd k n al, .v r => k.v && r.val % al == 0 && decide (r.val + n ≤ la.regs)
  | .opnd k n _, .nb d e =>
    k.nb && axisDeclared la d && (if 1 < n then e.val % 2 == 0 && decide (e.val + 1 < la.ecount) else decide (e.val < la.ecount))
  | .opnd k _ _, .latch _ => k.latch
  | .opnd k n _, .mq _ => k.mq && decide (n ≤ 1)
  | .opnd k _ al, .s r => k.s && r.val % al == 0
  | .opnd k _ _, .zero => k.zero
  | .opnd k _ _, .special q => k.special || (k.uspecial && uniSpecial q)
  | .opnd k _ _, .imm => k.imm

/-- A uniform operand (R76). -/
def uniform : Opnd → Bool
  | .s _ | .zero | .imm => true
  | .special k => uniSpecial k
  | _ => false

/-- The source operands of an instruction, with their fields. -/
def sourcesOf (r : Rules) (c : Enc) : List (FR × Opnd) :=
  (if r.xsrc then [(r.x, c.x)] else []) ++ [(r.y, c.y), (r.z, c.z)] ++ (if isOpnd r.w then [(r.w, wOpnd c)] else [])

/-- Whether an operand is a message port. -/
def isPort : Opnd → Bool
  | .mq _ => true
  | _ => false

/-- The receive port that a source names, if one does (R38, R271). -/
def portOf (r : Rules) (c : Enc) : Option Nat :=
  ((sourcesOf r c).filterMap fun p => match p.1, p.2 with | .opnd _ _ _, .mq n => some n.val | _, _ => none).head?

/-- A send-port destination (R38): MOV's X (R270). -/
def sends (i : Instr) (c : Enc) : Bool :=
  match i with
  | .mov _ _ => isPort c.x
  | _ => false

/-- Whether an instruction ends a region (R124). -/
def endsRegion (i : Instr) (c : Enc) : Bool :=
  (rulesOf i).ends || sends i c || (portOf (rulesOf i) c).isSome

/-- Check 6 of R52 for one set of operand fields (R38, R40, R77). -/
def fieldsOk (la : Launch) (i : Instr) (c : Enc) : Bool :=
  let r := rulesOf i
  let src := sourcesOf r c
  opndOk la r.x c.x && opndOk la r.y c.y && opndOk la r.z c.z && (r.w == .unused || opndOk la r.w (wOpnd c)) &&
  decide ((src.filter fun p => isOpnd p.1 && isPort p.2).length ≤ 1) &&
  !(c.y == .imm && c.z == .imm) &&
  (!r.scalar || (match c.x with | .s _ => src.all fun p => !isOpnd p.1 || uniform p.2 | _ => true))

/-- Check 7 of R52 for a chain that holds `len` results (R44). -/
def latchesOk (r : Rules) (c : Enc) (len : Nat) : Bool :=
  (sourcesOf r c).all fun p => match p.1, p.2 with | .opnd _ _ _, .latch n => decide (n.val < len) | _, _ => true

/-- The number of results a chain holds after an issue (R44, R45). -/
def chainNext (c : Enc) (ends : Bool) (len : Nat) : Nat := if c.chn && decide (len < 7) && !ends then len + 1 else 0

/-- Whether CHN on an instruction raises ILLEGAL_INSTRUCTION (R46). -/
def chnIllegal (i : Instr) (c : Enc) : Bool :=
  c.chn && ((rulesOf i).chnBad || (portOf (rulesOf i) c).isSome)

/-! ## REP (R47, R48) -/

/-- A field whose step is nonzero names a v register (R48). -/
def stepFits (f : FR) (o : Opnd) (d : BitVec 4) : Bool :=
  d == 0 || (isOpnd f && (match o with | .v _ => true | _ => false))

/-- The pairing rules of R48 (check 5 of R52). -/
def repPairOk (i : Instr) (c : Enc) (rc : RepCtx) : Bool :=
  let r := rulesOf i
  !r.repBad && stepFits r.x c.x rc.xs && stepFits r.y c.y rc.ys && stepFits r.z c.z rc.zs &&
  (rc.ws == 0 || (isOpnd r.w && stepFits r.w (wOpnd c) rc.ws))

/-- The lengths of the chain at the iterations of a pair (R44, R45). -/
def chainLens (c : Enc) (ends : Bool) : Nat → Nat → List Nat
  | 0, len => [len]
  | n + 1, len => len :: chainLens c ends n (chainNext c ends len)

/-- Checks 6 and 7 of R52 over every iteration of a pair (R48). -/
def repFieldsCheck (la : Launch) (i : Instr) (c : Enc) (rc : RepCtx) (len : Nat) : Option TrapKind :=
  let r := rulesOf i
  let cs := (List.range (rc.last + 1)).map fun k => stepEnc r rc k c
  if !(cs.all fun o => match o with | some c' => fieldsOk la i c' | none => false) then some .illegalOperand
  else if !((cs.zip (chainLens c (endsRegion i c) rc.last len)).all fun p =>
    match p.1 with | some c' => latchesOk r c' p.2 | none => false) then some .illegalOperand
  else none

/-! ## Reading and writing -/

/-- The row of a vector register (R74). -/
def vreg (g : Group) (n : Nat) : Row := mapGet (Vector.ofFn fun _ => 0) g.vregs n
/-- One lane of a vector register. -/
def vlane (g : Group) (n lane : Nat) : Word := (vreg g n)[lane]?.getD 0
/-- A scalar register (R76). -/
def sreg (g : Group) (n : Nat) : Word := mapGet 0 g.sregs n
/-- The pair from an even register: the even one in bits 31 to 0 (R40). -/
def pairOf (lo hi : Word) : DWord := (hi ++ lo : BitVec 64)
/-- A scalar pair. -/
def spair (g : Group) (n : Nat) : DWord := pairOf (sreg g n) (sreg g (n + 1))

/-- A row of one value per lane. -/
def rowOf (f : Nat → DWord) : Row64 := Vector.ofFn fun l => f l.val
/-- One lane of a row. -/
def lane64 (r : Row64) (l : Nat) : DWord := r[l]?.getD 0

/-- A special for a lane (R39). -/
def specialVal (x : Ctx) (k : Special) (lane : Nat) : Nat :=
  let la := x.node.la
  let cell := cellOf la (tileOf la x.g) lane
  match k with
  | .lane => lane
  | .grp => x.g.grp
  | .cid => x.core
  | .cellx => if 1 ≤ la.dims then cell.1 else 0
  | .celly => if 2 ≤ la.dims then cell.2.1 else 0
  | .cellz => if 3 ≤ la.dims then cell.2.2 else 0
  | .step => if la.dims = 0 then 0 else x.g.step.toNat
  | .blk => x.g.blk

/-- `imm` under a type (R41). -/
def immVal (signed wide : Bool) (imm : Word) : DWord := if wide && signed then imm.signExtend 64 else imm.setWidth 64

/-- How a source reads. -/
inductive Rd where
  | ok (r : Row64)
  | wait
  | blocked (q : Nat)
  | poison (pa : Nat)
  | stop (w : NbStop)

/-- Whether an operand is served by the load-value queue of a shadow (R128, R179). -/
def fromQueue : Opnd → Bool
  | .nb _ _ | .mq _ => true
  | _ => false

/-- The first wait or fault among the neighbour reads of the lanes of `act`: of export `k`, and of `k + 1` under a 64-bit type (R40). -/
def nbHeld (s : State) (x : Ctx) (wide : Bool) (d : Dir) (k : Nat) : Option Rd :=
  ((lanesOf x.act).flatMap fun l => (if wide then [k, k + 1] else [k]).filterMap fun j =>
    match nbLane s x.node x.g x.core d j l with
    | .val _ => none
    | .wait => some Rd.wait
    | .poison pa => some (Rd.poison pa)
    | .stop w => some (Rd.stop w)).head?

/-- The value of one lane's neighbour read once none waits. -/
def nbWord (s : State) (x : Ctx) (d : Dir) (k lane : Nat) : Word :=
  match nbLane s x.node x.g x.core d k lane with
  | .val w => w
  | _ => 0

/-- The oldest deliverable packet of a receive queue (R271): the first whose sending port has no earlier sequence number in
the queue or on its way. -/
def deliverable (s : State) (core q : Nat) : Option Msg :=
  (mapGet {} (getCore s core).mq q).msgs.find? fun m =>
    !((mapGet {} (getCore s core).mq q).msgs.any fun o =>
        o.src == m.src && o.slot == m.slot && o.port == m.port && (m.seq + 256 - o.seq) % 256 != 0 && decide ((m.seq + 256 - o.seq) % 256 < 128)) &&
    !(s.packets.any fun o => o.cls == .message && o.dst == core && o.dq == q && o.src == m.src && o.slot == m.slot && o.port == m.port &&
        decide ((m.seq + 256 - o.seq) % 256 < 128))

/-- Word `j` of a message in the lane of that number (R271). -/
def msgWord (m : Msg) (lane : Nat) : Word := m.words[lane]?.getD 0

/-- The value a source operand supplies to every lane (R38 to R41, R44, R78), or what it waits for. `wide` is the width of
the field, `signed` the signedness of an immediate. A 64-bit read of a latch that holds a 32-bit result reads it zero-extended: the model's
choice, R44 gives only the 32-bit read of a 64-bit result (log 60). -/
def readOpnd (s : State) (x : Ctx) (signed wide : Bool) (imm : Word) (o : Opnd) : Rd :=
  match o with
  | .v n => .ok (rowOf fun l => if wide then pairOf (vlane x.g n.val l) (vlane x.g (n.val + 1) l) else (vlane x.g n.val l).setWidth 64)
  | .nb d k =>
    match nbHeld s x wide d k.val with
    | some r => r
    | none => .ok (rowOf fun l => if !x.act.getLsbD l then 0 else
        if wide then pairOf (nbWord s x d k.val l) (nbWord s x d (k.val + 1) l) else (nbWord s x d k.val l).setWidth 64)
  | .latch n =>
    match x.e.chain[n.val]? with
    | some (none, r) => .ok (if wide then r else rowOf fun l => ((lane64 r l).setWidth 32).setWidth 64)
    | some (some _, _) => .wait
    | none => .ok zeroRow
  | .mq n =>
    match deliverable s x.core n.val with
    | some m => .ok (rowOf fun l => if x.act.getLsbD l then (msgWord m l).setWidth 64 else 0)
    | none => if x.act = 0 then .ok zeroRow else .blocked n.val
  | .s n => .ok (rowOf fun _ => if wide then spair x.g n.val else (sreg x.g n.val).setWidth 64)
  | .special k => .ok (rowOf fun l => BitVec.ofNat 64 (specialVal x k l))
  | .imm => .ok (rowOf fun _ => immVal signed wide imm)
  | .zero | .reserved _ => .ok zeroRow

/-- A vector register written in the lanes of a mask (R42). -/
def vwrite (g : Group) (n : Nat) (m : Lanes) (f : Nat → Word) : Group :=
  let row : Row := Vector.ofFn fun l => if m.getLsbD l.val then f l.val else vlane g n l.val
  { g with vregs := mapSet (Vector.ofFn fun _ => 0) g.vregs n row }
/-- A scalar register written. -/
def swrite (g : Group) (n : Nat) (v : Word) : Group := { g with sregs := mapSet 0 g.sregs n v }

/-- The low and the high word of a pair. -/
def loWord (v : DWord) : Word := v.setWidth 32
/-- The high word of a pair. -/
def hiWord (v : DWord) : Word := v.extractLsb' 32 32

/-- A destination written in a group (R42, R54, R77): every lane of the mask of a v register, or the s register once from the
lowest lane when the mask is not empty. -/
def dstGroup (g : Group) (o : Opnd) (wide : Bool) (m : Lanes) (r : Row64) : Group :=
  match o with
  | .v n =>
    let g1 := vwrite g n.val m fun l => loWord (lane64 r l)
    if wide then vwrite g1 (n.val + 1) m fun l => hiWord (lane64 r l) else g1
  | .s n =>
    if m = 0 then g else
    let v := lane64 r (lowLane m)
    let g1 := swrite g n.val (loWord v)
    if wide then swrite g1 (n.val + 1) (hiWord v) else g1
  | _ => g

/-- What the latch takes of a load whose destination is an s register: the one value in every lane (R44, R157, R165). -/
def latchRow (o : Opnd) (m : Lanes) (r : Row64) : Row64 :=
  match o with
  | .s _ => rowOf fun _ => lane64 r (lowLane m)
  | _ => r

/-- A destination of the issue written, unless NW suppresses it (R7). -/
def writeDst (x : Ctx) (o : Opnd) (wide nw : Bool) (r : Row64) (s : State) : State :=
  if nw then s else modGroup s x.core x.slot fun g => dstGroup g o wide x.act r

/-- Whether a field is wide: more than one register. -/
def wideOf : FR → Bool
  | .opnd _ n _ => decide (1 < n)
  | _ => false

end Sys2Proof.Machine
end

