-- ==== Sys2Proof/Machine/Flags.lean ====
section
/-! DEFINITION. Predicates, the machine's flags: every predicate write (spec/06 R75, R78) and every comparison that decides
one (R87, R88, spec/07 R104, spec/09 R164). -/
namespace Sys2Proof.Machine

/-- A predicate written in the lanes of a mask; p7 discards (R8, R75, R78). -/
def predGroup (g : Group) (k : Nat) (m : Lanes) (b : Lanes) : Group :=
  if k = 7 then g else { g with preds := mapSet 0 g.preds k ((mapGet 0 g.preds k &&& ~~~m) ||| (b &&& m)) }

/-- The number in a predicate or tile field. -/
def numOf : Opnd → Nat
  | .v n => n.val
  | _ => 0

/-- The lanes whose value is not 0. -/
def rowBits (r : Row64) : Lanes := maskOf fun l => lane64 r l != 0

/-- The comparisons of ISET on values (R87). -/
def iccHolds (cc : Icc) (a b : Int) : Bool :=
  match cc with
  | .eq => a == b
  | .ne => a != b
  | .lt => decide (a < b)
  | .le => decide (a ≤ b)
  | .gt => decide (b < a)
  | .ge => decide (b ≤ a)

/-- The comparisons of FSET (R104): a NaN makes every ordered relation false; zeros compare equal. -/
def fccHolds (cc : Fcc) (a b : Num) : Bool :=
  let u := a == .nan || b == .nan
  match cc with
  | .eq => !u && numEq a b
  | .ne => u || !numEq a b
  | .lt => !u && numLt false a b
  | .le => !u && (numLt false a b || numEq a b)
  | .gt => !u && numLt false b a
  | .ge => !u && (numLt false b a || numEq a b)
  | .un => u
  | .ord => !u

/-- Bit `2 * a + b` of a truth table (R88). -/
def tableBit (t : Fin 16) (a b : Bool) : Bool := Nat.testBit t.val (2 * a.toNat + b.toNat)

/-- The comparison of a wait (R164): unsigned for `gtu`. -/
def wcmpHolds (cmp : WCmp) (w v : Word) : Bool :=
  match cmp with
  | .eq => w == v
  | .ne => w != v
  | .gtu => decide (v.toNat < w.toNat)

/-- The predicates of one lane as a word: p7 to p0 in bits 7 to 0 (R95). -/
def predWord (g : Group) (lane : Nat) : Word :=
  (List.range 8).foldl (fun w k => if (predRow g k).getLsbD lane then w ||| (1#32 <<< k) else w) 0

end Sys2Proof.Machine
end

