-- ==== Sys2Proof/Machine/EntryCheck.lean ====
section
/-! DEFINITION. What the entry checks of instructions ask that read no more than the instruction, the group and its core (spec/04 R52 and
each entry). -/
namespace Sys2Proof.Machine

/-- The selector code of result byte `k` (R94). -/
def bselCode (sel : Word) (k : Nat) : Nat := sel.toNat / 2 ^ (12 - 4 * k) % 16

/-- A selector that uses no reserved code (R94). -/
def bselOk (sel : Word) : Bool := (List.range 4).all fun k => bselCode sel k ≤ 9 || (bselCode sel k == 10 && 1 ≤ k)

/-- Whether an operand is a scalar register. -/
def isScalar : Opnd → Bool
  | .s _ => true
  | _ => false

/-- Whether RDS names no selector, or asks for a lane's value in an s register (R96). -/
def rdsBad (c : Enc) : Bool := 9 < c.imm.toNat || (c.imm.toNat == 5 && isScalar c.x)

/-- All lanes of a frontier. -/
def liveLanes (l : List Entry) : Lanes := l.foldl (fun m e => m ||| e.mask) 0

/-- Whether an EXIT in a lattice launch leaves lanes of the group behind (R177). -/
def exitPartial (x : Ctx) : Bool := x.node.la.dims != 0 && x.act != 0 && x.act != liveLanes x.g.front

/-- Whether STEP is illegal: no lattice, or a counter at its limit (R180). -/
def stepIllegal (x : Ctx) : Bool := x.node.la.dims == 0 || x.g.step == 0xFFFFFFFF

/-- The direction of a code (R181); 7 names none. -/
def dirOfCode : Nat → Option Dir
  | 0 => some .east | 1 => some .west | 2 => some .north | 3 => some .south | 4 => some .up | 5 => some .down | 6 => some .self
  | _ => none

/-- Whether an operand area's address is not 128-byte aligned or not canonical (R226, R227). -/
def badArea (a : DWord) : Bool := !canonical a || a.toNat % 128 != 0

/-- MPASS's fields M, ZK, RSC and P from IMM (R227). -/
def passFields (imm : Word) : Nat × Nat × Bool × Nat :=
  let n := imm.toNat
  (n % 256 + 1, n / 256 % 128, n.testBit 15, n / 65536 * 128)

/-- Whether MPASS's shape is illegal (R227). -/
def passBad (wf af : WFmt) (imm : Word) (declared : Option WFmt) : Bool :=
  let (m, zk, rsc, p) := passFields imm
  95 < zk + (m + 15) / 16 - 1 || 95 < zk || (rsc && (af == .f4 || af == .bf16)) || decide (p < rowBytes wf af rsc) || declared != some wf

/-- Whether MPASS is illegal at its issue (R227). A shadow posts no MLDW of its own, so the declared format is its leader's to check (R128,
log 62). -/
def passIllegal (s : State) (x : Ctx) (wf af : WFmt) (imm : Word) : Bool :=
  passBad wf af imm (if x.g.shadow == .shadow then some wf else (getCore s x.core).declared)

end Sys2Proof.Machine
end

