-- ==== Sys2Proof/Machine/Issue.lean ====
section
/-! DEFINITION. One issue of a frontier entry, shared by every encoded instruction: readiness (spec/08 R116), the issue checks
(spec/04 R52, R53), settling (R124), the sources, the meaning's own part, and what the issue leaves (R43 to R49, R121). -/
namespace Sys2Proof.Machine

/-! ## Pairs -/

/-- A leader that is 64 instructions ahead of its shadow stalls at issue (R128). -/
def lagging (s : State) (x : Ctx) : Bool :=
  x.g.shadow == .leader && (match getGroup s x.core (x.slot + 1) with | some h => decide (h.issued + 64 ≤ x.g.issued) | none => false)

/-- A group held on some tiles: while one of them that is behind is not resident, its cycles count towards leaving its slot (R283). -/
def markHeld (x : Ctx) (tiles : List Nat) (s : State) : State :=
  let n := x.node
  let absent := tiles.any fun t =>
    tileBehind s n x.g.part x.core (tileOf n.la x.g) x.g.step.toNat t && !(mapGet .fresh n.tiles t == .resident || mapGet .fresh n.tiles t == .eligible)
  if n.la.dims = 0 then s
  else if absent then modGroup s x.core x.slot fun g => { g with nbHold := some (g.nbHold.getD 0) }
  else if x.g.front.length ≤ 1 then modGroup s x.core x.slot fun g => { g with nbHold := none } else s

/-- The tiles that the neighbour specifiers of an instruction read (R173). -/
def tilesRead (x : Ctx) (r : Rules) (c : Enc) : List Nat :=
  (c.x :: c.y :: c.z :: (if isOpnd r.w then [wOpnd c] else [])).filterMap fun o => match o with | .nb d _ => faceOwner x.node.la (tileOf x.node.la x.g) d | _ => none

/-! ## Checks -/

/-- Checks 3 to 8 of R52 at an issue, and the entry check on REP (checks 1 and 2 belong to the decoder). -/
def issueCheck (i : Instr) (c : Enc) (x : Ctx) : Option TrapKind :=
  let r := rulesOf i
  if !instrWf i then some .illegalInstruction
  else if chnIllegal i c then some .illegalInstruction
  else if !fieldsOk x.node.la i c then some .illegalOperand
  else if !latchesOk r c x.e.chain.length then some .illegalOperand
  else if r.full && x.act != allLanes then some .illegalConvergence
  else if r.repEntry && x.e.rep.isSome then some .illegalInstruction
  else none

/-- The entry checks that read no more than the instruction, the group and its core, so that they come before any wait for settling and before
any source is fetched: BSEL's selector (R94), RDS's (R96), EXIT's full mask in a lattice (R177), BAR's level and mask of lanes (R185), HEIR's
group (R200), STEP's launch and counter (R180), LQRY's direction and launch (R181), MPASS's shape, format and address (R227), ZCLR's
tiles (R228), MSTAT's and MQST's selectors (R231, R275). Each instruction's own part makes them too, with the same outcome. -/
def entryCheck (s : State) (i : Instr) (c : Enc) (x : Ctx) : Option (TrapKind × DWord) :=
  match i with
  | .bsel _ => if bselOk c.imm then none else some (.illegalInstruction, 0)
  | .rds _ => if rdsBad c then some (.illegalOperand, 0) else none
  | .exit _ => if exitPartial x then some (.illegalConvergence, 0) else none
  | .bar _ level =>
    if x.node.la.levels.length ≤ level.val then some (.illegalInstruction, 0)
    else if x.act != liveLanes x.g.front then some (.illegalConvergence, 0) else none
  | .heir _ k _ => if k = .group && decide (groupsPerBlock x.node.la ≤ c.imm.toNat % 32) then some (.illegalOperand, 0) else none
  | .step _ => if stepIllegal x then some (.illegalInstruction, 0) else none
  | .lqry _ => if dirOfCode c.imm.toNat == none || x.node.la.dims == 0 then some (.illegalInstruction, 0) else none
  | .mpass _ wf af =>
    let a := match c.y with | .s n => spair x.g n.val | _ => 0
    if passIllegal s x wf af c.imm then some (.illegalInstruction, 0) else if badArea a then some (.protection, a) else none
  | .zclr _ => if 96 < numOf c.x + c.imm.toNat % 128 + 1 then some (.illegalOperand, 0) else none
  | .mstat _ => if c.imm.toNat % 4 = 3 then some (.illegalOperand, 0) else none
  | .mqst _ => if c.imm.toNat / 4 % 4 = 3 then some (.illegalOperand, 0) else none
  | _ => none

/-! ## Sources -/

/-- The values of the source fields. -/
structure Srcs where
  x : Row64
  y : Row64
  z : Row64
  w : Row64

/-- How the sources of an issue read: their values with what is left of a shadow's queue and what a leader adds to it. -/
inductive SrcRes where
  | ok (v : Srcs) (left : List LvEnt) (added : List LvEnt)
  | wait
  | poison (pa : Nat)
  | blocked (q : Nat)
  | stop (w : NbStop)

/-- The first value of a load-value queue for an issue, and the queue without it (R128). -/
def lvTake (ix : Word) (act : Lanes) : List LvEnt → Option (LvEnt × List LvEnt)
  | [] => none
  | e :: t =>
    if e.ix == ix && e.act == act then some (e, t)
    else (lvTake ix act t).map fun p => (p.1, e :: p.2)

/-- One source read after others. A shadow's receive-port read whose value its queue does not hold yet blocks, as the port's own wait would
(R122, R128); 4 names no port. -/
def readNext (s : State) (x : Ctx) (r : Rules) (c : Enc) (f : FR) (o : Opnd) (left added : List LvEnt) :
    Rd × List LvEnt × List LvEnt :=
  if !isOpnd f then (.ok zeroRow, left, added)
  else if x.g.shadow == .shadow && fromQueue o && x.act != 0 then
    match lvTake (instrIx x.e) x.act left with
    | some (e, t) => (.ok e.val, t, added)
    | none => (if isPort o then .blocked 4 else .wait, left, added)
  else
    match readOpnd s x r.signed (wideOf f) c.imm o with
    | .ok v =>
      (.ok v, left, if x.g.shadow == .leader && fromQueue o && x.act != 0 then
        added ++ [{ ix := instrIx x.e, act := x.act, val := v }] else added)
    | d => (d, left, added)

/-- The sources of an issue, read before any result is written (R7). -/
def readAll (s : State) (x : Ctx) (r : Rules) (c : Enc) : SrcRes :=
  let a := readNext s x r c (if r.xsrc then r.x else .unused) c.x x.g.lvq []
  let b := readNext s x r c r.y c.y a.2.1 a.2.2
  let d := readNext s x r c r.z c.z b.2.1 b.2.2
  let e := readNext s x r c r.w (wOpnd c) d.2.1 d.2.2
  match a.1, b.1, d.1, e.1 with
  | .ok vx, .ok vy, .ok vz, .ok vw => .ok { x := vx, y := vy, z := vz, w := vw } e.2.1 e.2.2
  | .stop w, _, _, _ => .stop w
  | _, .stop w, _, _ => .stop w
  | _, _, .stop w, _ => .stop w
  | _, _, _, .stop w => .stop w
  | .poison a, _, _, _ | _, .poison a, _, _ | _, _, .poison a, _ | _, _, _, .poison a => .poison a
  | .blocked q, _, _, _ => .blocked q
  | _, .blocked q, _, _ => .blocked q
  | _, _, .blocked q, _ => .blocked q
  | _, _, _, .blocked q => .blocked q
  | _, _, _, _ => .wait

/-- The packet that a receive-port source has read leaves its queue, and the read is recorded (R271, R275); packets that wait at
the core's port may be accepted. -/
def consumePort (s : State) (x : Ctx) (q : Nat) : State :=
  match deliverable s x.core q with
  | none => s
  | some m =>
    let s1 := modGroup (modCore s x.core fun k =>
        { k with mq := mapSet {} k.mq q { mapGet {} k.mq q with msgs := (mapGet {} k.mq q).msgs.erase m } })
      x.core x.slot fun g =>
        { g with lastRecv := mapSet 0 g.lastRecv q (BitVec.ofNat 32 (m.words.length + m.src * 128 + m.port * 65536)) }
    post s1 ((s1.packets.filter fun p => p.cls == .message && p.dst == x.core && p.dq == q).map fun p => .messageAccept p.id)

/-- The effects of having read the sources: the packet taken, the shadow's queue used, the leader's filled (R128, R271). -/
def commitSources (x : Ctx) (r : Rules) (c : Enc) (left added : List LvEnt) (s : State) : State :=
  let s1 := match portOf r c with
    | some q => if x.act = 0 || x.g.shadow == .shadow then s else consumePort s x q
    | none => s
  match x.g.shadow with
  | .none => s1
  | .leader => if added.isEmpty then s1 else modGroup s1 x.core (x.slot + 1) fun h => wakeQueue { h with lvq := h.lvq ++ added }
  | .shadow => modGroup s1 x.core x.slot fun g => { g with lvq := g.lvq.diff (x.g.lvq.diff left) }

/-- A result put into the load-value queue of a leader's shadow (R128). -/
def lvPush (s : State) (core slot : Nat) (role : Shadow) (e : LvEnt) : State :=
  if role == .leader then modGroup s core (slot + 1) fun h => wakeQueue { h with lvq := h.lvq ++ [e] } else s

/-! ## The issue -/

/-- A per-lane result outside `act` reads 0 in a latch (R44). -/
def maskRow (m : Lanes) (r : Row64) : Row64 := rowOf fun l => if m.getLsbD l then lane64 r l else 0

/-- What an instruction's latch holds of its per-lane result: for ZMOV the first of the two columns (R225), for RDCLK bits 31 to 0 (R311). -/
def latchOf (i : Instr) (r : Row64) : Row64 :=
  match i with
  | .zmov _ | .rdclk _ => rowOf fun l => lane64 r l &&& 0xFFFFFFFF
  | _ => r

/-- A result put into X by the kind of its field: a register or a predicate. -/
def putResult (x : Ctx) (r : Rules) (c : Enc) (v : Row64) (s : State) : State :=
  if c.nw then s else
  match r.x with
  | .number _ => modGroup s x.core x.slot fun g => predGroup g (numOf c.x) x.act (rowBits v)
  | f => modGroup s x.core x.slot fun g => dstGroup g c.x (wideOf f) x.act v

/-- An instruction that blocks its entry where it must wait (R122); a receive-port read does too. -/
def blocksEntry : Instr → Bool
  | .waitw .. | .tryw .. | .lock _ | .pwait _ => true
  | _ => false

/-- A shadow's issue of an instruction whose result the queue supplies (R128): where its value is not there yet, an instruction that R122 lets
block does so, and any other holds the group. -/
def takenIssue (x : Ctx) (i : Instr) (c : Enc) (left : List LvEnt) (s : State) : State :=
  let r := rulesOf i
  match lvTake (instrIx x.e) x.act left with
  | some (e, t) =>
    if e.req.isSome then holdGroup x s else
    complete x c (endsRegion i c) (endsRegion i c && x.act != 0) (none, maskRow x.act (latchOf i e.val))
      (modGroup (putResult x r c e.val s) x.core x.slot fun g => { g with lvq := t })
  | none => if blocksEntry i then blockEntry x c .queue s else holdGroup x s

/-- Whether an issue ends a region: those of R124, with a non-empty `act` but for REGION. -/
def endsNow (i : Instr) (c : Enc) (x : Ctx) : Bool :=
  endsRegion i c && (x.act != 0 || (match i with | .region _ => true | _ => false))

/-- What an issue leaves, once the meaning's own part has ended. -/
def finish (x : Ctx) (i : Instr) (c : Enc) (s : State) (left added : List LvEnt) : Res → State
  | .fin s1 v =>
    let s2 := commitSources x (rulesOf i) c left added s1
    let s3 := if (rulesOf i).taken && x.act != 0 then
        lvPush s2 x.core x.slot x.g.shadow { ix := instrIx x.e, act := x.act, val := v } else s2
    complete x c (endsRegion i c) (endsNow i c x) (none, maskRow x.act (latchOf i v)) s3
  | .late s1 q =>
    let s2 := commitSources x (rulesOf i) c left added s1
    let s3 := lvPush s2 x.core x.slot x.g.shadow { ix := instrIx x.e, act := x.act, req := some q, val := zeroRow }
    complete x c (endsRegion i c) (endsNow i c x) (some q, zeroRow) s3
  | .jump s1 => commitSources x (rulesOf i) c left added s1
  | .wait s1 => holdEntry x s1
  | .waitGroup s1 => holdGroup x s1
  | .trap k f => trapIssue x k f s

/-- What stops a read of a tile's record (R174): its fault is charged at the region entry (R251), its page is asked for while the group waits (R369, R371),
and a line refused at its home is a remote fault of a load, which writes no register (R250, R323). -/
def meetStop (x : Ctx) (w : NbStop) (s : State) : State :=
  match w with
  | .fault k a => trapBack x k a s
  | .ask va => holdGroup x (missWalk s x.core x.slot x.g.part x.e.mask va .read)
  | .refused sub va pa home => holdGroup x (refuse s { core := x.core, part := x.g.part, node := x.g.node, blk := x.g.blk, grp := x.g.grp, tag := tagOf x,
                                                       va := va, pa := pa, home := home } (home / 64) sub 0)

/-- What an issue that cannot go on yet leaves: the fault of an entry check that already fails, since no wait comes before it, else the wait. -/
def heldOr (s : State) (i : Instr) (c : Enc) (x : Ctx) (t : State) : State :=
  match entryCheck s i c x with
  | some (k, f) => trapIssue x k f s
  | none => t

/-- One issue of the selected entry. An instruction that ends a region waits until its entry has settled, and its group is not ready (R116,
R120, R124). -/
def issueState (i : Instr) (c : Enc) (body : Ctx → Srcs → State → Res) (s : State) : State :=
  match ctxOf s c with
  | none => s
  | some x =>
    let r := rulesOf i
    if busy x.g x.e r c || lagging s x then holdGroup x s else
    match issueCheck i c x with
    | some k => trapIssue x k 0 s
    | none =>
      if endsNow i c x && !settled x.g x.e then heldOr s i c x (holdGroup x s) else
      match readAll s x r c with
      | .wait => heldOr s i c x (holdGroup x (markHeld x (tilesRead x r c) s))
      | .blocked q => heldOr s i c x (blockEntry x c (if x.g.shadow == .shadow then .queue else .recv q) s)
      | .stop w => heldOr s i c x (meetStop x w s)
      | .poison a => heldOr s i c x (holdGroup x (post s [.containment x.core x.slot 10 a]))
      | .ok v left added =>
        if r.taken && x.g.shadow == .shadow && x.act != 0 then takenIssue x i c left s
        else finish x i c s left added (body x v s)

/-- The outcome of an issue: it always leaves a next state. -/
def issue (i : Instr) (c : Enc) (body : Ctx → Srcs → State → Res) (s : State) : Out := .next (issueState i c body s)

/-! ## What meanings are made of -/

/-- A result computed lane by lane, written to X (R78). -/
def compute (x : Ctx) (c : Enc) (wide : Bool) (f : Nat → DWord) (s : State) : Res :=
  .fin (writeDst x c.x wide c.nw (rowOf f) s) (rowOf f)

/-- A predicate computed lane by lane, written to the predicate X names (R78); its latch reads 1 or 0 (R44). -/
def computeP (x : Ctx) (c : Enc) (f : Nat → Bool) (s : State) : Res :=
  .fin (if c.nw then s else modGroup s x.core x.slot fun g => predGroup g (numOf c.x) x.act (maskOf f))
    (rowOf fun l => if f l then 1 else 0)

/-- An issue with no result. -/
def done (s : State) : Res := .fin s zeroRow

end Sys2Proof.Machine
end

