-- ==== Sys2Proof/Machine/Integer.lean ====
section
/-! DEFINITION. Integer, logic, shift, bit-field and predicate instructions (spec/06 R81 to R97). MOV stands with the
messages, since its X may be a send port. -/
namespace Sys2Proof.Machine

/-! ## Shapes -/

/-- A lane instruction with sources Y and Z. -/
def lane2 (i : Instr) (c : Enc) (t : Ty) (f : DWord → DWord → DWord) (s : State) : Out :=
  issue i c (fun x v s => compute x c (tyIs64 t) (fun l => f (lane64 v.y l) (lane64 v.z l)) s) s

/-- A lane instruction with source Y. -/
def lane1 (i : Instr) (c : Enc) (t : Ty) (f : DWord → DWord) (s : State) : Out := lane2 i c t (fun a _ => f a) s

/-- A lane instruction with sources Y, Z and W. -/
def lane3 (i : Instr) (c : Enc) (t : Ty) (f : DWord → DWord → DWord → DWord) (s : State) : Out :=
  issue i c (fun x v s => compute x c (tyIs64 t) (fun l => f (lane64 v.y l) (lane64 v.z l) (lane64 v.w l)) s) s

/-! ## Values -/

/-- The count and width of a type's elements (R55, R56, R78). -/
def eltShape : Ty → Nat × Nat
  | .i8x4 | .n8x4 => (4, 8)
  | .i16x2 => (2, 16)
  | t => (1, tyWidth t)

/-- The value of element `k` of a string (R54, R56). -/
def eltVal (t : Ty) (a : DWord) (k : Nat) : Int := intVal (tySigned t) (eltShape t).2 (a.toNat / 2 ^ ((eltShape t).2 * k))

/-- A result narrowed to an element: wrapped, or saturated (R55). -/
def narrow (sat : Bool) (t : Ty) (x : Int) : Nat :=
  if sat then satInt (tySigned t) (eltShape t).2 x else wrapInt x (eltShape t).2

/-- Elements put together in order (R56). -/
def joinElts (t : Ty) (f : Nat → Nat) : DWord :=
  BitVec.ofNat 64 ((List.range (eltShape t).1).foldl (fun acc k => acc + f k * 2 ^ ((eltShape t).2 * k)) 0)

/-- An element-wise operation, exact and then narrowed (R55, R82). -/
def eltOp (sat : Bool) (t : Ty) (f : Int → Int → Int) (a b : DWord) : DWord :=
  joinElts t fun k => narrow sat t (f (eltVal t a k) (eltVal t b k))

/-- The value of a whole operand (R54). -/
def opVal (t : Ty) (a : DWord) : Int := intVal (tySigned t) (tyWidth t) a.toNat

/-- An integer as a string of the type's width (R54, R55). -/
def wrapTo (t : Ty) (x : Int) : DWord := BitVec.ofNat 64 (wrapInt x (tyWidth t))

/-- A string cut to the type's width. -/
def cutTo (t : Ty) (a : DWord) : DWord := if tyIs64 t then a else (a.setWidth 32).setWidth 64

/-! ## Selection and arithmetic -/

/-- SEL (R81). -/
def execSel (c : Enc) (ty : Ty) (s : State) : Out :=
  issue (.sel c ty) c (fun x v s => compute x c (tyIs64 ty)
    (fun l => if (predRow x.g (numOf (wOpnd c))).getLsbD l then lane64 v.y l else lane64 v.z l) s) s
/-- IADD (R82). -/
def execIadd (c : Enc) (sat : Bool) (ty : Ty) (s : State) : Out := lane2 (.iadd c sat ty) c ty (eltOp sat ty (· + ·)) s
/-- ISUB (R82). -/
def execIsub (c : Enc) (sat : Bool) (ty : Ty) (s : State) : Out := lane2 (.isub c sat ty) c ty (eltOp sat ty (· - ·)) s
/-- INEG (R82). -/
def execIneg (c : Enc) (sat : Bool) (ty : Ty) (s : State) : Out := lane2 (.ineg c sat ty) c ty (eltOp sat ty fun a _ => -a) s
/-- IABS (R82). -/
def execIabs (c : Enc) (sat : Bool) (ty : Ty) (s : State) : Out :=
  lane2 (.iabs c sat ty) c ty (eltOp sat ty fun a _ => (a.natAbs : Int)) s
/-- IMUL (R83). -/
def execImul (c : Enc) (ty : Ty) (s : State) : Out :=
  lane2 (.imul c ty) c ty (fun a b => wrapTo ty (opVal ty a * opVal ty b)) s
/-- IMULH: the high half of the exact product (R83). -/
def execImulh (c : Enc) (ty : Ty) (s : State) : Out :=
  lane2 (.imulh c ty) c ty (fun a b => wrapTo ty (opVal ty a * opVal ty b / 2 ^ tyWidth ty)) s
/-- IMAD (R83). -/
def execImad (c : Enc) (ty : Ty) (s : State) : Out :=
  lane3 (.imad c ty) c ty (fun a b d => wrapTo ty (opVal ty a * opVal ty b + opVal ty d)) s
/-- IMIN (R84). -/
def execImin (c : Enc) (ty : Ty) (s : State) : Out := lane2 (.imin c ty) c ty (eltOp false ty fun a b => if a ≤ b then a else b) s
/-- IMAX (R84). -/
def execImax (c : Enc) (ty : Ty) (s : State) : Out := lane2 (.imax c ty) c ty (eltOp false ty fun a b => if a ≤ b then b else a) s
/-- The exact dot product of four bytes with an accumulator (R85). -/
def dot4 (t : Ty) (a b d : DWord) : Int :=
  (List.range 4).foldl (fun acc k => acc + eltVal t a k * eltVal t b k) (intVal (tySigned t) 32 d.toNat)
/-- IDP4 (R85). -/
def execIdp4 (c : Enc) (sat : Bool) (ty : Ty) (s : State) : Out :=
  lane3 (.idp4 c sat ty) c ty
    (fun a b d => BitVec.ofNat 64 (if sat then satInt (tySigned ty) 32 (dot4 ty a b d) else wrapInt (dot4 ty a b d) 32)) s
/-- LEA (R86). -/
def execLea (c : Enc) (sh : Fin 8) (ty : Ty) (s : State) : Out :=
  lane2 (.lea c sh ty) c ty (fun a b => wrapTo ty ((a.toNat + b.toNat * 2 ^ sh.val : Nat) : Int)) s
/-- ISET (R87). -/
def execIset (c : Enc) (cc : Icc) (ty : Ty) (s : State) : Out :=
  issue (.iset c cc ty) c (fun x v s => computeP x c (fun l => iccHolds cc (opVal ty (lane64 v.y l)) (opVal ty (lane64 v.z l))) s) s
/-- PLOP (R88). -/
def execPlop (c : Enc) (t : Fin 16) (s : State) : Out :=
  issue (.plop c t) c (fun x _ s => computeP x c
    (fun l => tableBit t ((predRow x.g (numOf c.y)).getLsbD l) ((predRow x.g (numOf c.z)).getLsbD l)) s) s

/-! ## Byte select -/

/-- Result bytes `0` to `k - 1` of BSEL, as a number (R94). -/
def bselBytes (sel : Word) (a b : DWord) : Nat → Nat
  | 0 => 0
  | k + 1 =>
    let acc := bselBytes sel a b k
    let q := bselCode sel k
    let src := b.toNat % 2 ^ 32 * 2 ^ 32 + a.toNat % 2 ^ 32
    let byte := if q ≤ 7 then src / 2 ^ (8 * q) % 256 else if q = 8 then 0 else if q = 9 then 255
                else if acc / 2 ^ (8 * k - 1) % 2 = 1 then 255 else 0
    acc + byte * 2 ^ (8 * k)

/-- BSEL (R94). -/
def execBsel (c : Enc) (s : State) : Out :=
  issue (.bsel c) c (fun x v s =>
    if !bselOk c.imm then .trap .illegalInstruction 0
    else compute x c false (fun l => BitVec.ofNat 64 (bselBytes c.imm (lane64 v.y l) (lane64 v.z l) 4)) s) s

/-! ## Logic -/

/-- AND (R89). -/
def execAnd (c : Enc) (ty : Ty) (s : State) : Out := lane2 (.and c ty) c ty (fun a b => a &&& b) s
/-- OR (R89). -/
def execOr (c : Enc) (ty : Ty) (s : State) : Out := lane2 (.or c ty) c ty (fun a b => a ||| b) s
/-- XOR (R89). -/
def execXor (c : Enc) (ty : Ty) (s : State) : Out := lane2 (.xor c ty) c ty (fun a b => a ^^^ b) s
/-- ANDN (R89). -/
def execAndn (c : Enc) (ty : Ty) (s : State) : Out := lane2 (.andn c ty) c ty (fun a b => a &&& ~~~b) s
/-- NOT (R89). -/
def execNot (c : Enc) (ty : Ty) (s : State) : Out := lane1 (.not c ty) c ty (fun a => cutTo ty (~~~a)) s

/-- Bit `i` of a truth table as a mask of all bits. -/
def tableMask (t : Nat) (i : Nat) : DWord := if Nat.testBit t i then BitVec.allOnes 64 else 0

/-- A three-input truth table applied bit by bit, Y the low index bit and W the high one (R90). -/
def ltabOf (t : Nat) (a b d : DWord) : DWord :=
  (tableMask t 0 &&& ~~~a &&& ~~~b &&& ~~~d) ||| (tableMask t 1 &&& a &&& ~~~b &&& ~~~d) |||
  (tableMask t 2 &&& ~~~a &&& b &&& ~~~d) ||| (tableMask t 3 &&& a &&& b &&& ~~~d) |||
  (tableMask t 4 &&& ~~~a &&& ~~~b &&& d) ||| (tableMask t 5 &&& a &&& ~~~b &&& d) |||
  (tableMask t 6 &&& ~~~a &&& b &&& d) ||| (tableMask t 7 &&& a &&& b &&& d)

/-- LTAB (R90). -/
def execLtab (c : Enc) (ty : Ty) (s : State) : Out :=
  lane3 (.ltab c ty) c ty (fun a b d => cutTo ty (ltabOf (c.imm.extractLsb' 10 8).toNat a b d)) s

/-! ## Shifts and bit fields -/

/-- The count of a shift: its amount, or `none` where `.clamp` finds it at or beyond the width (R91). -/
def shiftCount (clamp : Bool) (t : Ty) (b : DWord) : Option Nat :=
  let n := b.toNat % 2 ^ 32
  if !clamp then some (n % tyWidth t) else if tyWidth t ≤ n then none else some n

/-- SHL (R91). -/
def execShl (c : Enc) (clamp : Bool) (ty : Ty) (s : State) : Out :=
  lane2 (.shl c clamp ty) c ty
    (fun a b => match shiftCount clamp ty b with | none => 0 | some n => wrapTo ty ((a.toNat * 2 ^ n : Nat) : Int)) s
/-- SHR (R91). -/
def execShr (c : Enc) (clamp : Bool) (ty : Ty) (s : State) : Out :=
  lane2 (.shr c clamp ty) c ty
    (fun a b => match shiftCount clamp ty b with | none => 0 | some n => BitVec.ofNat 64 (a.toNat / 2 ^ n)) s
/-- SAR (R91). -/
def execSar (c : Enc) (clamp : Bool) (ty : Ty) (s : State) : Out :=
  lane2 (.sar c clamp ty) c ty
    (fun a b => match shiftCount clamp ty b with
      | none => wrapTo ty (if opVal ty a < 0 then -1 else 0)
      | some n => wrapTo ty (opVal ty a / 2 ^ n)) s
/-- ROL (R91). -/
def execRol (c : Enc) (ty : Ty) (s : State) : Out :=
  lane2 (.rol c ty) c ty
    (fun a b =>
      let w := tyWidth ty
      let n := b.toNat % 2 ^ 32 % w
      wrapTo ty ((a.toNat * 2 ^ n + a.toNat % 2 ^ w / 2 ^ (w - n) : Nat) : Int)) s

/-- POS and the length of a field descriptor, cut at the width (R92). -/
def fieldOf (t : Ty) (z : DWord) : Nat × Nat :=
  let pos := z.toNat % 256
  (pos, if tyWidth t ≤ pos then 0 else min (z.toNat / 256 % 256) (tyWidth t - pos))

/-- BFX (R92). -/
def execBfx (c : Enc) (signed : Bool) (ty : Ty) (s : State) : Out :=
  lane2 (.bfx c signed ty) c ty
    (fun a z =>
      let f := fieldOf ty z
      if f.2 = 0 then 0 else wrapTo ty (intVal signed f.2 (a.toNat / 2 ^ f.1))) s
/-- BFI (R92). -/
def execBfi (c : Enc) (ty : Ty) (s : State) : Out :=
  lane3 (.bfi c ty) c ty
    (fun a z d =>
      let f := fieldOf ty z
      let m := BitVec.ofNat 64 ((2 ^ f.2 - 1) * 2 ^ f.1)
      (d &&& ~~~m) ||| (BitVec.ofNat 64 (a.toNat * 2 ^ f.1) &&& m)) s

/-- The bits of a string, lowest first. -/
def bitsOf (w : Nat) (a : DWord) : List Bool := (List.range w).map fun k => a.getLsbD k

/-- POPC (R93). -/
def execPopc (c : Enc) (ty : Ty) (s : State) : Out :=
  lane1 (.popc c ty) c ty (fun a => BitVec.ofNat 64 ((bitsOf (tyWidth ty) a).count true)) s
/-- CLZ (R93). -/
def execClz (c : Enc) (ty : Ty) (s : State) : Out :=
  lane1 (.clz c ty) c ty (fun a => BitVec.ofNat 64 (((bitsOf (tyWidth ty) a).reverse.takeWhile (!·)).length)) s
/-- CTZ (R93). -/
def execCtz (c : Enc) (ty : Ty) (s : State) : Out :=
  lane1 (.ctz c ty) c ty (fun a => BitVec.ofNat 64 (((bitsOf (tyWidth ty) a).takeWhile (!·)).length)) s
/-- BREV (R93). -/
def execBrev (c : Enc) (ty : Ty) (s : State) : Out :=
  lane1 (.brev c ty) c ty
    (fun a => BitVec.ofNat 64 ((bitsOf (tyWidth ty) a).foldl (fun acc b => 2 * acc + b.toNat) 0)) s

/-! ## Predicates to and from registers, status -/

/-- P2V (R95). -/
def execP2v (c : Enc) (s : State) : Out :=
  issue (.p2v c) c (fun x _ s => compute x c false (fun l => (predWord x.g l).setWidth 64) s) s

/-- V2P's writes: predicate `k` in the lanes whose mask bit `k` is set (R95). -/
def v2pGroup (act : Lanes) (y z : Row64) (g : Group) : Group :=
  (List.range 7).foldl (fun g k =>
    predGroup g k (act &&& maskOf fun l => (lane64 z l).getLsbD k) (maskOf fun l => (lane64 y l).getLsbD k)) g

/-- The latch of V2P: the value written to the lowest predicate selected, or 0 (R97). -/
def v2pLatch (y z : Row64) (l : Nat) : DWord :=
  match (List.range 7).find? (fun k => (lane64 z l).getLsbD k) with
  | some k => if (lane64 y l).getLsbD k then 1 else 0
  | none => 0

/-- V2P (R95). -/
def execV2p (c : Enc) (s : State) : Out :=
  issue (.v2p c) c (fun x v s =>
    .fin (if c.nw then s else modGroup s x.core x.slot (v2pGroup x.act v.y v.z)) (rowOf (v2pLatch v.y v.z))) s

/-- What RDS reads (R96). -/
def rdsVal (x : Ctx) (name lane : Nat) : Nat :=
  match name with
  | 0 => x.act.toNat % 2 ^ 32
  | 1 => x.act.toNat / 2 ^ 32
  | 2 => (instrIx x.e).toNat
  | 3 => x.e.rgn.toNat
  | 4 => x.e.repi
  | 5 => (mapGet 0 x.g.ncall lane).toNat
  | 6 => x.g.part
  | 7 => gslotOf x.core x.slot
  | 8 => x.node.la.seed.toNat % 2 ^ 32
  | _ => x.node.la.seed.toNat / 2 ^ 32

/-- RDS (R96). -/
def execRds (c : Enc) (s : State) : Out :=
  issue (.rds c) c (fun x _ s =>
    if rdsBad c then .trap .illegalOperand 0
    else compute x c false (fun l => BitVec.ofNat 64 (rdsVal x c.imm.toNat l)) s) s

end Sys2Proof.Machine
end

