-- ==== Sys2Proof/Machine/Float.lean ====
section
/-! DEFINITION. Floating-point arithmetic and conversions (spec/07 R98 to R113, by the formats and rounding of spec/05). -/
namespace Sys2Proof.Machine

/-- A string read in format F (R54, R99). -/
def fval (t : Ty) (a : DWord) : Num := valNum (fmtOf t) a.toNat
/-- An encoding as an operand. -/
def enc64 (n : Nat) : DWord := BitVec.ofNat 64 n

/-- A floating-point instruction with sources Y and Z. -/
def fp2 (i : Instr) (c : Enc) (t : Ty) (f : Num → Num → Nat) (s : State) : Out :=
  issue i c (fun x v s => compute x c false (fun l => enc64 (f (fval t (lane64 v.y l)) (fval t (lane64 v.z l)))) s) s
/-- A floating-point instruction with source Y. -/
def fp1 (i : Instr) (c : Enc) (t : Ty) (f : Num → Nat) (s : State) : Out := fp2 i c t (fun a _ => f a) s

/-- FADD (R100). -/
def execFadd (c : Enc) (rm : Rm) (ty : Ty) (s : State) : Out := fp2 (.fadd c rm ty) c ty (numAdd (fmtOf ty) rm) s
/-- FSUB (R100). -/
def execFsub (c : Enc) (rm : Rm) (ty : Ty) (s : State) : Out :=
  fp2 (.fsub c rm ty) c ty (fun a b => numAdd (fmtOf ty) rm a (numNeg b)) s
/-- FMUL (R100). -/
def execFmul (c : Enc) (rm : Rm) (ty : Ty) (s : State) : Out :=
  fp2 (.fmul c rm ty) c ty (fun a b => numRound (fmtOf ty) rm (numMulExact a b)) s
/-- FFMA (R100). -/
def execFfma (c : Enc) (rm : Rm) (ty : Ty) (s : State) : Out :=
  issue (.ffma c rm ty) c (fun x v s => compute x c false
    (fun l => enc64 (numFma (fmtOf ty) rm (fval ty (lane64 v.y l)) (fval ty (lane64 v.z l)) (fval ty (lane64 v.w l)))) s) s
/-- FMIN (R101). -/
def execFmin (c : Enc) (nan : Bool) (ty : Ty) (s : State) : Out :=
  lane2 (.fmin c nan ty) c ty (fun a b => enc64 (minmaxEnc (fmtOf ty) false nan a.toNat b.toNat)) s
/-- FMAX (R101). -/
def execFmax (c : Enc) (nan : Bool) (ty : Ty) (s : State) : Out :=
  lane2 (.fmax c nan ty) c ty (fun a b => enc64 (minmaxEnc (fmtOf ty) true nan a.toNat b.toNat)) s
/-- FABS: the sign bit of F cleared (R102). -/
def execFabs (c : Enc) (ty : Ty) (s : State) : Out :=
  lane1 (.fabs c ty) c ty (fun a => enc64 (a.toNat % 2 ^ (fmtWidth (fmtOf ty) - 1))) s
/-- FNEG: the sign bit of F inverted (R102). -/
def execFneg (c : Enc) (ty : Ty) (s : State) : Out :=
  lane1 (.fneg c ty) c ty
    (fun a => enc64 ((a.toNat % 2 ^ fmtWidth (fmtOf ty)) ^^^ 2 ^ (fmtWidth (fmtOf ty) - 1))) s
/-- FDIV (R103). -/
def execFdiv (c : Enc) (rm : Rm) (ty : Ty) (s : State) : Out := fp2 (.fdiv c rm ty) c ty (numDiv (fmtOf ty) rm) s
/-- FSQRT (R103). -/
def execFsqrt (c : Enc) (rm : Rm) (ty : Ty) (s : State) : Out := fp1 (.fsqrt c rm ty) c ty (numSqrt (fmtOf ty) rm) s
/-- FRCP (R103). -/
def execFrcp (c : Enc) (rm : Rm) (ty : Ty) (s : State) : Out := fp1 (.frcp c rm ty) c ty (numRcp (fmtOf ty) rm) s
/-- FRSQ (R103). -/
def execFrsq (c : Enc) (rm : Rm) (ty : Ty) (s : State) : Out := fp1 (.frsq c rm ty) c ty (numRsq (fmtOf ty) rm) s
/-- FSET (R104). -/
def execFset (c : Enc) (cc : Fcc) (ty : Ty) (s : State) : Out :=
  issue (.fset c cc ty) c (fun x v s => computeP x c (fun l => fccHolds cc (fval ty (lane64 v.y l)) (fval ty (lane64 v.z l))) s) s

/-- The class bit of a value (R105). -/
def classBit (F : Fmt) (a : Num) : Nat :=
  match a with
  | .nan => 8
  | .inf s => if s then 0 else 7
  | .fin s m _ => if m = 0 then (if s then 3 else 4) else if m < 2 ^ F.mb then (if s then 2 else 5) else if s then 1 else 6

/-- FCLASS (R105). -/
def execFclass (c : Enc) (ty : Ty) (s : State) : Out := fp1 (.fclass c ty) c ty (fun a => 2 ^ classBit (fmtOf ty) a) s
/-- FRND (R106). -/
def execFrnd (c : Enc) (rm : Rm) (ty : Ty) (s : State) : Out := fp1 (.frnd c rm ty) c ty (numRint (fmtOf ty) rm) s
/-- FSCL (R107). -/
def execFscl (c : Enc) (rm : Rm) (ty : Ty) (s : State) : Out :=
  lane2 (.fscl c rm ty) c ty (fun a b => enc64 (numScale (fmtOf ty) rm (fval ty a) (intVal true 32 b.toNat))) s

/-! ## Conversions -/

/-- Whether a scalar type is an integer type. -/
def tyIsInt : Ty → Bool
  | .i32 | .n32 | .i64 | .n64 => true
  | _ => false

/-- An operand's value under a scalar type (R108). -/
def scalarVal (t : Ty) (a : DWord) : Num := if tyIsInt t then numOfInt (opVal t a) else fval t a

/-- CVT's result (R108, R66). -/
def cvtOf (rm : Rm) (ns : Bool) (dt st : Ty) (a : DWord) : DWord :=
  let v := scalarVal st a
  if tyIsInt dt then enc64 (satNum rm (tySigned dt) (tyWidth dt) v)
  else enc64 (convNum (fmtOf dt) rm ns (!tyIsInt st && widening (fmtOf st) (fmtOf dt)) v)

/-- CVT (R108). -/
def execCvt (c : Enc) (rm : Rm) (ns : Bool) (ty : Ty) (s : State) : Out :=
  lane1 (.cvt c rm ns ty) c ty (cvtOf rm ns ty (cvtSrcTy c)) s

/-- The identity a draw depends on (R67). -/
def drawId (x : Ctx) (lane : Nat) : Nat :=
  let la := x.node.la
  if la.dims = 0 then x.g.blk * 2048 + x.g.grp * 64 + lane
  else
    let cell := cellOf la (tileOf la x.g) lane
    cell.1 + la.xe * (cell.2.1 + la.ye * cell.2.2)

/-- The draw of a lane at this issue (R67, R68). -/
def laneDraw (x : Ctx) (lane : Nat) : Nat :=
  draw (drawId x lane) (specialVal x .step lane) (mapGet 0 x.g.ncall lane).toNat x.node.la.seed

/-- The call counts of the lanes of `act` increased by one (R68). -/
def countCalls (act : Lanes) (g : Group) : Group :=
  { g with ncall := (lanesOf act).foldl (fun n l => mapSet 0 n l (mapGet 0 n l + 1)) g.ncall }

/-- CVTS (R109). -/
def execCvts (c : Enc) (ns : Bool) (ty : Ty) (s : State) : Out :=
  issue (.cvts c ns ty) c (fun x v s =>
    compute x c false (fun l => enc64 (srndEnc (fmtOf ty) ns (laneDraw x l) (fval .f32 (lane64 v.y l))))
      (modGroup s x.core x.slot (countCalls x.act))) s

/-- The element count and width of a packed type, f4 and f8 included (R56). -/
def packShape : Ty → Nat × Nat
  | .f4 => (8, 4)
  | .i16x2 => (2, 16)
  | _ => (4, 8)

/-- Whether a packed type's elements are integers. -/
def packInt : Ty → Bool
  | .i8x4 | .n8x4 | .i16x2 => true
  | _ => false

/-- An f32 value converted to a packed element (R110). -/
def packElt (rm : Rm) (ns : Bool) (t : Ty) (a : DWord) : Nat :=
  if packInt t then satNum rm (tySigned t) (packShape t).2 (fval .f32 a)
  else convNum (fmtOf t) rm ns false (fval .f32 a)

/-- A word with element `k` replaced (R54, R56). -/
def putElt (t : Ty) (old : Nat) (k e : Nat) : Nat :=
  let w := (packShape t).2
  old - old / 2 ^ (w * k) % 2 ^ w * 2 ^ (w * k) + e * 2 ^ (w * k)

/-- CVTP: a pair inserted into the packed word of X (R110). -/
def execCvtp (c : Enc) (rm : Rm) (ns : Bool) (q : Fin 8) (ty : Ty) (s : State) : Out :=
  issue (.cvtp c rm ns q ty) c (fun x v s => compute x c false
    (fun l => enc64 (putElt ty (putElt ty (vlane x.g (numOf c.x) l).toNat (2 * q.val) (packElt rm ns ty (lane64 v.y l)))
      (2 * q.val + 1) (packElt rm ns ty (lane64 v.z l)))) s) s

/-- CVTX's result (R111). -/
def cvtxOf (t : Ty) (k : Nat) (a : DWord) : DWord :=
  let e := a.toNat / 2 ^ ((packShape t).2 * k) % 2 ^ (packShape t).2
  if packInt t then enc64 (wrapInt (intVal (tySigned t) (packShape t).2 e) 32)
  else enc64 (convNum fmtF32 .rne false true (valNum (fmtOf t) e))

/-- CVTX (R111). -/
def execCvtx (c : Enc) (k : Fin 8) (ty : Ty) (s : State) : Out := lane1 (.cvtx c k ty) c ty (cvtxOf ty k.val) s

/-- x / d as an f4 code (R112): one rounding of the exact quotient, beyond 6 gives 6. -/
def f4Quotient (rm : Rm) (xs : Bool) (xm : Nat) (xe : Int) (d : Dy) : Nat :=
  let neg := xs != decide (d.m < 0)
  let n := d.m.natAbs
  let r := rndu fmtF4 rm neg (xm * 2 ^ 96 / n) (xe - d.e - 96) (xm * 2 ^ 96 % n != 0)
  if beyond fmtF4 r.1 r.2 then encMax fmtF4 neg else encFin fmtF4 neg r.1 r.2

/-- One element of QB4 (R112). -/
def qb4Elt (rm : Rm) (z w : DWord) (a : Word) : Nat :=
  match e3m5 z.toNat, valNum fmtBf16 w.toNat, valNum fmtF32 a.toNat with
  | some s1, .fin ws wm we, .fin xs xm xe =>
    let d := dyMul s1 (dyOf ws wm we)
    if d.m = 0 then 0 else if xm = 0 then signBit fmtF4 (xs != decide (d.m < 0)) else f4Quotient rm xs xm xe d
  | some s1, .fin ws wm we, .inf xs =>
    let d := dyMul s1 (dyOf ws wm we)
    if d.m = 0 then 0 else encMax fmtF4 (xs != decide (d.m < 0))
  | _, _, _ => 0

/-- QB4 (R112). -/
def execQb4 (c : Enc) (rm : Rm) (s : State) : Out :=
  issue (.qb4 c rm) c (fun x v s => compute x c false
    (fun l => enc64 ((List.range 8).foldl
      (fun acc k => acc + qb4Elt rm (lane64 v.z l) (lane64 v.w l) (vlane x.g (numOf c.y + k) l) * 2 ^ (4 * k)) 0)) s) s

end Sys2Proof.Machine
end

