-- ==== Sys2Proof/Machine/Local.lean ====
section
/-! DEFINITION. Local memory and its windows (spec/09 R146, R150 to R155): bytes of the pool, the checks of a local access,
touches, and the waits that a local write re-evaluates (R164). -/
namespace Sys2Proof.Machine

/-- One byte of a core's local memory; a carve sets every byte to 0 (R143). -/
def lbyte (k : Core) (a : Nat) : Byte := mapGet 0 k.lmem a
/-- The little-endian number of `n` local bytes. -/
def lread (k : Core) (a n : Nat) : Nat := (List.range n).foldr (fun j acc => (lbyte k (a + j)).toNat + 256 * acc) 0
/-- Local bytes written; a word of which any byte is written is no longer poisoned: for a store of less than a word the model's choice, R146 does
not say what is left of its mark (log 11). -/
def lputs (k : Core) (l : List (Nat × Byte)) : Core :=
  { k with lmem := mapSets 0 k.lmem l, lpoison := k.lpoison.filter fun w => !(l.any fun p => p.1 / 4 == w) }
/-- A number of `n` bytes written to local memory. -/
def lwrite (k : Core) (a n v : Nat) : Core := lputs k (bytesAt a n v)
/-- Whether a local access reads a poisoned word (R146). -/
def lpoisoned (k : Core) (a n : Nat) : Bool := k.lpoison.any fun w => decide (4 * w < a + n) && decide (a < 4 * w + 4)

/-- The bytes that a program can address (R146, R172). -/
def localLimit (k : Core) : Nat := 68608 * k.locg - k.reserve

/-- A local access that raises PROTECTION (R146). -/
def localBad (k : Core) (a n : Nat) : Bool := decide (localLimit k < a + n) || a % n != 0

/-- The default window: zero length, ABSENT (R150). -/
def winOf (k : Core) (w : Nat) : Window := mapGet {} k.wins w

/-- Whether an access overlaps a window of nonzero length (R152). -/
def overlaps (w : Window) (a n : Nat) : Bool := w.llen != 0 && decide (a < w.lbase + w.llen) && decide (w.lbase < a + n)

/-- The windows that some accesses overlap and that are not PRESENT. -/
def absentWins (k : Core) (l : List (Nat × Nat)) : List Nat :=
  ((List.range 32).filter fun w => l.any fun p => overlaps (winOf k w) p.1 p.2).filter fun w => (winOf k w).st != .present

/-- An ABSENT window begins to fill: its fill is posted and its toucher recorded (R152, R154). -/
def touchOne (core : Nat) (t : Tag) (s : State) (w : Nat) : State :=
  let k := getCore s core
  if (winOf k w).st != .absent then s else
  post (setCore s core { k with wins := mapSet {} k.wins w { winOf k w with st := .filling, touch := t }, fillq := k.fillq ++ [w] })
    (if k.fillq.isEmpty then [.windowFill core] else [])

/-- The touches of some accesses: `none` where every window they overlap is PRESENT, else the state in which their fills are
posted (R152). -/
def touch (s : State) (core : Nat) (t : Tag) (l : List (Nat × Nat)) : Option State :=
  match absentWins (getCore s core) l with
  | [] => none
  | ws => some (ws.foldl (touchOne core t) s)

/-- The waits on local words that a write re-evaluates (R164). -/
def localWaits (k : Core) (core : Nat) (l : List (Nat × Byte)) : List Instr :=
  k.slots.flatMap fun p => p.2.front.flatMap fun e =>
    match e.wait with
    | some (.word _ _ _ _ ls _ _) =>
      (ls.filter fun w => w.loc && w.seen.isNone && l.any fun b => decide (w.addr ≤ b.1) && decide (b.1 < w.addr + 4)).map
        fun w => .waitWordEvaluation core p.1 w.lane
    | _ => []

/-- Local bytes written by a core, with the waits on them re-evaluated. -/
def localPut (s : State) (core : Nat) (l : List (Nat × Byte)) : State :=
  post (modCore s core fun k => lputs k l) (localWaits (getCore s core) core l)

/-- A local address (R156). -/
def localAddr (base idx : DWord) (imm : Word) : Nat := ((base.setWidth 32 : Word) + idx.setWidth 32 + imm).toNat
/-- A global address (R156). -/
def globalAddr (base idx : DWord) (imm : Word) : DWord := base + (idx.setWidth 32).setWidth 64 + imm.signExtend 64

/-- The access width of a type (R156). -/
def accWidth : Ty → Nat
  | .f8e4 | .f8e5 => 1
  | .f16 | .bf16 => 2
  | .i64 | .n64 | .b64 => 8
  | _ => 4

/-- The lanes of `act` with their local addresses. -/
def localLanes (x : Ctx) (v : Srcs) (imm : Word) : List (Nat × Nat) :=
  (lanesOf x.act).map fun l => (l, localAddr (lane64 v.y l) (lane64 v.z l) imm)
/-- The lanes of `act` with their global addresses. -/
def globalLanes (x : Ctx) (v : Srcs) (imm : Word) : List (Nat × DWord) :=
  (lanesOf x.act).map fun l => (l, globalAddr (lane64 v.y l) (lane64 v.z l) imm)

/-- A consumption of an uncorrectable error by a group's block (R327), at a physical address where it has one (R342): its
containment follows. -/
def consume (s : State) (core slot src : Nat) (pa : Nat := 0) : State := post s [.containment core slot src pa]

end Sys2Proof.Machine
end

