-- ==== Sys2Proof/Machine/StoreBuf.lean ====
section
/-! DEFINITION. The block store buffers (spec/09 R148, spec/20 R326), the cluster write queue (spec/13 R233), what a load finds
in them and in the L1 (R147), and how far a group's stores have reached (R161, R233, R260). -/
namespace Sys2Proof.Machine

/-! ## Entries -/

/-- The buffer of a block on a core. -/
def bufOf (k : Core) (blk : Nat) : BlockBuf :=
  (k.bufs.find? fun b => b.blk == blk).getD { part := k.part, node := k.node.getD 0, blk := blk }

/-- The buffer of a block replaced; an empty one is not listed. -/
def bufSet (k : Core) (b : BlockBuf) : Core :=
  let rest := k.bufs.filter fun o => o.blk != b.blk
  { k with bufs := if b.ents.isEmpty then rest else rest ++ [b] }

/-- Whether a buffer takes `n` more entries (R326). -/
def bufRoom (s : State) (x : Ctx) (n : Nat) : Bool :=
  x.g.shadow == .shadow || decide ((bufOf (getCore s x.core) x.g.blk).ents.length + n ≤ 512)

/-- An entry of an issue, its tag and the replies it waits on for its check taken at the issue (R323, R326). -/
def mkEntry (x : Ctx) (op : MemOp) (va : DWord) (pa home : Nat) (req : Option Nat) : SbEntry :=
  { part := x.g.part, node := x.g.node, core := x.core, slot := x.slot, blk := x.g.blk, grp := x.g.grp, tag := tagOf x, va := va,
    line := pa / 128, home := home, op := op, mask := x.act, req := req, deps := x.g.pend.map (·.id), cmp := x.g.shadow != .leader }

/-- One entry put into its buffer, or, for a shadow, kept for its comparison (R128). -/
def emitOne (x : Ctx) (s : State) (e : SbEntry) : State :=
  let p := freshReq s
  let e := { e with ord := p.1 }
  if x.g.shadow == .shadow then
    post (modGroup p.2 x.core x.slot fun g => { g with shq := g.shq ++ [e] }) [.shadowCompare x.core x.slot]
  else
    post (modCore p.2 x.core fun k => let b := bufOf k x.g.blk; bufSet k { b with ents := b.ents ++ [e] })
      (if x.g.shadow == .leader && !e.cmp then [.shadowCompare x.core (x.slot + 1)] else [.storeBufferRelease x.core x.g.blk])

/-- The entries of an issue put into its buffer in order (R148). -/
def emit (x : Ctx) (l : List SbEntry) (s : State) : State := l.foldl (emitOne x) s

/-- Whether an entry is checked (R148, R326): the replies its group had out have arrived and its comparison has passed. -/
def checked (s : State) (e : SbEntry) : Bool :=
  e.cmp && (match getGroup s e.core e.slot with
    | some g => e.deps.all fun d => !(g.pend.any fun p => p.id == d)
    | none => true)

/-! ## What a load finds -/

/-- What the buffers hold for a byte. -/
inductive Found where
  | byte (b : Byte)
  | hold
  | none
deriving DecidableEq, Repr

/-- What an entry holds for a byte of physical memory: its data, or an operation on the line that must be performed
first. -/
def entryByte (e : SbEntry) (pa : Nat) : Found :=
  match e.op with
  | .store _ bs => match (bs.filter fun p => p.1 == pa).getLast? with | some p => .byte p.2 | none => .none
  | .rmw .. | .bop .. | .hold .. => if e.line == pa / 128 then .hold else .none
  | _ => .none

/-- The youngest of some entries, oldest first, that holds a byte. -/
def youngest (l : List SbEntry) (pa : Nat) : Found :=
  l.foldl (fun f e => match entryByte e pa with | .none => f | g => g) .none

/-- The entries of a core's buffers, oldest first. -/
def coreEntries (k : Core) : List SbEntry :=
  sortBy (k.bufs.flatMap (·.ents)) fun a b => decide (a.ord ≤ b.ord)

/-- What the core's store buffer supplies for a byte to a load of a block (R148): an unchecked entry of another block makes
the load wait. -/
def bufByte (s : State) (core blk pa : Nat) : Found :=
  (coreEntries (getCore s core)).foldl (fun f e =>
    match entryByte e pa with
    | .none => f
    | g => if e.blk == blk || checked s e then g else .hold) .none

/-- What the cluster write queue supplies for a byte (R233, R243). -/
def wqByte (s : State) (cl pa : Nat) : Found := youngest (getCluster s cl).wq pa

/-- One byte below the L1: the cluster write queue, then the home slice (R243). -/
def lowByte (s : State) (cl pa : Nat) : Byte := match wqByte s cl pa with | .byte b => b | _ => memByte s pa

/-- Whether a byte below the L1 waits for an operation in the queue. -/
def lowHeld (s : State) (cl pa : Nat) : Bool := wqByte s cl pa == .hold

/-- A line as the slice and the queue supply it. -/
def lowLine (s : State) (cl line : Nat) : Line :=
  BitVec.ofNat 1024 ((List.range 128).foldr (fun j acc => (lowByte s cl (128 * line + j)).toNat + 256 * acc) 0)

/-- A byte of a cached line. -/
def lineByte (v : Line) (pa : Nat) : Byte := (v >>> (8 * (pa % 128))).setWidth 8

/-- The L1 line that holds an address. -/
def l1Line (k : Core) (pa : Nat) : Option Line := assoc k.l1 (pa / 128)

/-- Bytes written into the L1 lines that hold them (R147). -/
def l1Update (k : Core) (l : List (Nat × Byte)) : Core :=
  { k with l1 := k.l1.map fun e => (e.1, l.foldl (fun v p => if p.1 / 128 = e.1 then
      (v &&& ~~~((0xFF : Line) <<< (8 * (p.1 % 128)))) ||| ((p.2.setWidth 1024 : Line) <<< (8 * (p.1 % 128))) else v) e.2) }
/-- A line dropped from the L1 (R147). -/
def l1Drop (k : Core) (line : Nat) : Core := { k with l1 := k.l1.filter fun e => e.1 != line }
/-- The lines that a core's L1 holds: what the carve leaves of 32 granules, 536 lines in each (R142, R147). -/
def l1Lines (k : Core) : Nat := 536 * (32 - k.regg - k.locg)
/-- The lines that a full L1 gives up, among those it holds: first those that are marked first to evict, then the lowest-numbered; R147 keeps
replacement from programs (R157, log 14). -/
def l1Victims (k : Core) (l : SMap Line) (n : Nat) : List Nat :=
  (((l.filter fun e => k.l1ev.contains e.1) ++ l.filter fun e => !k.l1ev.contains e.1).take n).map (·.1)
/-- A line put into the L1, marked first to evict where `ev` holds (R147, R157). -/
def l1Fill (k : Core) (line : Nat) (v : Line) (ev : Bool) : Core :=
  let rest := k.l1.filter fun e => e.1 != line
  let out := l1Victims k rest (rest.length + 1 - l1Lines k)
  let rest := rest.filter fun e => !out.contains e.1
  let marks := k.l1ev.filter fun n => n != line && rest.any fun e => e.1 == n
  if l1Lines k = 0 then k else
  { k with l1ev := if ev then line :: marks else marks, l1 := (rest.filter fun e => decide (e.1 < line)) ++ [(line, v)] ++ rest.filter fun e => decide (line < e.1) }

/-- An acquire at a scope wider than core invalidates the L1 (R147). -/
def acquire (s : State) (core : Nat) (sc : Scope) : State :=
  match sc with
  | .group | .core => s
  | _ => modCore s core fun k => { k with l1 := [] }

/-! ## How far stores have reached -/

/-- Whether a release of a group covers an entry of its core's buffers (R161): a store or atomic of its own block, or one of another block that
is checked and so may have been observed (R148), and a post that the group itself made. Sends are no stores. -/
def covers (s : State) (x : Ctx) (e : SbEntry) : Bool :=
  match e.op with
  | .store .. | .rmw .. | .bop .. | .hold .. => e.blk == x.g.blk || checked s e
  | .send .. | .stepSend .. | .bar .. => false
  | _ => e.blk == x.g.blk && e.grp == x.g.grp

/-- Whether every store, atomic and post that a group made or observed has reached a scope (R161, R233, R260): at cluster scope
the core's buffers hold none, at wider ones the cluster's queue is empty too. A shadow has nothing of its own to wait for. -/
def reached (s : State) (x : Ctx) (sc : Scope) : Bool :=
  x.g.shadow == .shadow ||
  let l := (coreEntries (getCore s x.core)).filter (covers s x)
  match sc with
  | .group => true
  | .core => l.all (checked s)
  | .cluster => l.isEmpty
  | _ => l.isEmpty && (getCluster s (clusterOf x.core)).wq.isEmpty

end Sys2Proof.Machine
end

