-- ==== Sys2Proof/Machine/Barrier.lean ====
section
/-! DEFINITION. Barriers (spec/11 R183 to R185) and how a group exits (spec/08 R130, spec/10 R177, spec/11 R191, spec/20
R330). -/
namespace Sys2Proof.Machine

/-! ## Units and members (R183) -/

/-- The number of blocks in one unit of level `k`, for `k` at least 2: the product of the extents of levels 3 to `k`. -/
def blocksIn (la : Launch) (k : Nat) : Nat := ((la.levels.take (k + 1)).drop 3).foldl (fun a l => a * l.extent) 1
/-- The unit of level `k` that holds a block. -/
def unitOf (la : Launch) (k blk : Nat) : Nat := blk / blocksIn la k
/-- The number of sub-units of a unit of level `k`. -/
def subCount (la : Launch) (k : Nat) : Nat := match la.levels[k]? with | some l => l.extent | none => 0
/-- The number of a group's sub-unit within its unit: its `grp` at level 2, else its unit one level below. -/
def subOf (la : Launch) (k blk grp : Nat) : Nat := if k = 2 then grp else unitOf la (k - 1) blk % subCount la k

/-- Whether a mask names a group's sub-unit; a unit of more than 32 is named only as a whole. -/
def namesGroup (la : Launch) (k : Nat) (m : Word) (blk grp : Nat) : Bool :=
  if 32 < subCount la k then m == 0xFFFFFFFF else m.getLsbD (subOf la k blk grp)

/-- Whether a mask is one that a unit of level `k` can have. -/
def maskFits (la : Launch) (k : Nat) (m : Word) : Bool :=
  m != 0 && (if 32 < subCount la k then m == 0xFFFFFFFF else decide (m.toNat < 2 ^ subCount la k))

/-- The blocks of a unit. -/
def blocksOf (la : Launch) (k u : Nat) : List Nat := (List.range (blocksIn la k)).map fun j => u * blocksIn la k + j

/-- Whether a group has exited, or its block is killed (R184). -/
def groupGone (n : Node) (blk grp : Nat) : Bool :=
  n.killedBlks.contains blk || (n.placed.any fun p => p.blk == blk && p.grp == grp && (p.exited || p.killed)) ||
  mapGet .fresh n.tiles (blk * groupsPerBlock n.la + grp) == .exited

/-- Whether every member of a meeting has arrived or exited (R184). -/
def barDone (n : Node) (b : Barrier) : Bool :=
  (blocksOf n.la b.level b.unit).all fun blk => (List.range (groupsPerBlock n.la)).all fun grp =>
    !namesGroup n.la b.level b.mask blk grp || b.arrived.contains (blk, grp) || groupGone n blk grp

/-- Complete meetings removed and their members released at once (R184). -/
def settleBars (n : Node) : Node :=
  { n with bars := n.bars.filter fun b => !barDone n b,
           granted := n.granted ++ (n.bars.filter (barDone n)).flatMap (·.arrived) }

/-- Whether an arrival faults (R184). -/
def arrivalBad (n : Node) (k : Nat) (m : Word) (blk grp : Nat) : Bool :=
  let u := unitOf n.la k blk
  let others := n.bars.filter fun b => b.level == k && b.unit == u && b.mask != m
  !maskFits n.la k m || !namesGroup n.la k m blk grp ||
  (others.any fun b => b.arrived.any fun a => namesGroup n.la k m a.1 a.2) ||
  (others.any fun b => namesGroup n.la k b.mask blk grp)

/-- An arrival joins the meeting of its mask, which is formed if none waits (R184). -/
def arrive (n : Node) (k : Nat) (m : Word) (blk grp : Nat) : Node :=
  let u := unitOf n.la k blk
  settleBars (if n.bars.any fun b => b.level == k && b.unit == u && b.mask == m then
    { n with bars := n.bars.map fun b =>
        if b.level == k && b.unit == u && b.mask == m then { b with arrived := b.arrived ++ [(blk, grp)] } else b }
  else { n with bars := n.bars ++ [{ level := k, unit := u, mask := m, arrived := [(blk, grp)] }] })

/-- An arrival withdrawn (R185, R184); a meeting with none left is removed. -/
def unarrive (blk grp : Nat) (n : Node) : Node :=
  { n with bars := (n.bars.map fun b => { b with arrived := b.arrived.filter (· != (blk, grp)) }).filter fun b => !b.arrived.isEmpty }

/-- Whether a group waits at a barrier. -/
def atBar (n : Node) (blk grp : Nat) : Bool := n.bars.any fun b => b.arrived.contains (blk, grp)

/-- The scope code of a level (R302). -/
def scopeOf : Nat → Scope
  | 0 => .group | 1 => .core | 2 => .cluster | 3 => .die | 4 => .device | _ => .system

/-- The scope of level `k`. -/
def levelScope (la : Launch) (k : Nat) : Scope := match la.levels[k]? with | some l => scopeOf l.scope | none => .system

/-! ## A leader's operation without a store buffer entry of its own -/

/-- What a shadow's queue says of a leader's operation (R128, R332). -/
inductive Match where
  | equal (s : State)
  | notYet
  | differs

/-- The shadow's next operation of the issuing instruction compared; an equal one is taken from its queue. -/
def matchShadow (s : State) (x : Ctx) (op : MemOp) : Match :=
  if x.g.shadow != .leader then .equal s else
  match getGroup s x.core (x.slot + 1) with
  | none => .notYet
  | some h =>
    match h.shq.find? (fun e => e.tag.ix == x.e.ix) with
    | none => .notYet
    | some e => if e.op = op && e.mask == x.act then .equal (modGroup s x.core (x.slot + 1) fun h => { h with shq := h.shq.erase e }) else .differs

/-- A shadow's operation that leaves no entry of its own in a buffer, kept for the comparison (R128). -/
def shadowOffer (x : Ctx) (op : MemOp) (s : State) : State :=
  modGroup (unhold s) x.core x.slot fun g => { g with shq := g.shq ++ [mkEntry x op 0 0 0 none] }

/-! ## BAR (R185) -/

/-- BAR's own part, after the checks of R52. -/
def barBody (level : Nat) (x : Ctx) (v : Srcs) (s : State) : Res :=
  let m : Word := loWord (lane64 v.y 0)
  let live := liveLanes x.g.front
  if x.node.la.levels.length ≤ level then .trap .illegalInstruction 0
  else if x.act != live then .trap .illegalConvergence 0
  else if x.g.shadow == .shadow then done (shadowOffer x (.bar level m) s)
  else if x.node.granted.contains (x.g.blk, x.g.grp) then
    done (acquire (modNode s x.g.part x.g.node fun n => { n with granted := n.granted.erase (x.g.blk, x.g.grp) }) x.core
      (levelScope x.node.la level))
  else if atBar x.node x.g.blk x.g.grp then .waitGroup s
  else if !reached s x (levelScope x.node.la level) then .waitGroup s
  else if arrivalBad x.node level m x.g.blk x.g.grp then .trap .membership 0
  else match matchShadow s x (.bar level m) with
    | .notYet => .waitGroup s
    | .differs => .waitGroup (consume s x.core x.slot 7)
    | .equal s1 =>
      let n := arrive x.node level m x.g.blk x.g.grp
      if n.granted.contains (x.g.blk, x.g.grp) then
        done (acquire (modNode s1 x.g.part x.g.node fun _ => { n with granted := n.granted.erase (x.g.blk, x.g.grp) }) x.core
          (levelScope x.node.la level))
      else .waitGroup (modNode s1 x.g.part x.g.node fun _ => n)

/-- BAR (R185). -/
def execBar (c : Enc) (level : Fin 8) (s : State) : Out := issue (.bar c level) c (barBody level.val) s

/-! ## Exit -/

/-- A slot freed: the dispatcher may place again, and the node may be complete (R130, R278, R299). -/
def freeSlot (s : State) (core slot : Nat) (g : Group) (lattice : Bool) : State :=
  let s1 := dropGroup (if g.shadow == .leader then dropGroup s core (slot + 1) else s) core slot
  post s1 ([.nodeDone g.part g.node.toNat, .blockPlacement g.part (dieOf core)] ++
    (if lattice then [Instr.updraft g.part g.node.toNat] else []))

/-- Whether an engine write at a virtual address can be made. -/
def tryWrite (s : State) (part : Nat) (va : DWord) (n v : Nat) : State := (vaWrite s part va n v).getD s

/-- A bank label as a header word; no label reads 0 (R282). -/
def labelWord (b : Bank) : Nat := match b.label with | some l => (BitVec.ofInt 32 l).toNat | none => 0

/-- The header of a tile record (R282). -/
def headerOf (g : Group) (ex : Bool) : Nat :=
  recordOf [(0, g.step.toNat), (32, ex.toNat), (34, g.bank0.label.isSome.toNat), (35, g.bank1.label.isSome.toNat),
    (64, labelWord g.bank0), (96, labelWord g.bank1)]

/-- The words of a list as one number, the first lowest. -/
def wordsNum (l : List Word) : Nat := l.foldr (fun w acc => w.toNat + 2 ^ 32 * acc) 0

/-- Both banks as they stand in a tile record (R282). -/
def banksNum (la : Launch) (g : Group) : Nat :=
  wordsNum ([g.bank0, g.bank1].flatMap fun b => (List.range la.ecount).flatMap fun k => (bankRow b k).toList)

/-- The header, with EX 1, and the banks of an exited tile in its record (R289): `none` where a write fails. -/
def exitRecord (g : Group) (n : Node) (s : State) : Option State :=
  let t := tileOf n.la g
  (vaWrite s g.part (recordAt n.la t) 128 (headerOf g true)).bind fun s1 =>
    vaWrite s1 g.part (recordAt n.la t + 128) (512 * n.la.ecount) (banksNum n.la g)

/-- A tile marked exited, with what its banks hold where they are not in its record (R177, R289). -/
def markExited (g : Group) (n : Node) (kept : Bool) (s : State) : State :=
  let t := tileOf n.la g
  modNode s g.part g.node fun m =>
    { m with tiles := mapSet .fresh m.tiles t .exited,
             tileImgs := let l := m.tileImgs.filter fun p => p.1 != t; if kept then (t, g) :: l else l }

/-- The exit of a lattice group at once: its tile stays readable (R177), in an overcast lattice from its record (R289). -/
def latticeExit (g : Group) (n : Node) (s : State) : State :=
  match (if overcast n then exitRecord g n s else none) with
  | some s1 => markExited g n false s1
  | none => markExited g n true s

/-- Whether a walk of a group is queued (R190, R191). -/
def beingConveyed (s : State) (part : Nat) (node : DWord) (blk grp : Nat) : Bool :=
  s.dies.any fun d => d.2.estq.any fun w => w.part == part && w.node == node && w.blk == blk && w.grp == grp

/-- Whether stores of a group still stand in its block's store buffer (R130). -/
def storesLeft (s : State) (core slot : Nat) (g : Group) : Bool :=
  (bufOf (getCore s core) g.blk).ents.any fun e => e.slot == slot && e.grp == g.grp

/-- The last two parts of a group's exit, once its holdings are conveyed: its cells leave, its slot is freed (R130). The tile of an overcast
lattice goes to its record first, by the scheduler of its die (R289). -/
def leaveSlot (s : State) (core slot : Nat) (g : Group) (n : Node) : State :=
  if n.la.dims != 0 && overcast n then
    let s1 := modDie s (dieOf core) fun d => { d with swapq := d.swapq ++
      [{ part := g.part, node := g.node, tile := tileOf n.la g, op := 3, gslot := gslotOf core slot }] }
    post (modNode s1 g.part g.node fun m => { m with tiles := mapSet .fresh m.tiles (tileOf n.la g) .moving }) [.downdraft g.part g.node.toNat]
  else freeSlot (if n.la.dims = 0 then s else latticeExit g n s) core slot g (n.la.dims != 0)

/-- Whether a group's last record is queued or being written (R289). -/
def leavingNow (s : State) (core slot : Nat) : Bool := (getDie s (dieOf core)).swapq.any fun w => w.gslot == gslotOf core slot && w.op == 3

/-- A group's exit once its frontier is empty, in the order of R130: members of barriers count it at once; when its stores have drained from the
store buffer its holdings are walked, and then its cells leave and its slot is freed. It is called again as entries leave the buffer. -/
def groupExit (core slot : Nat) (g : Group) (n : Node) (s : State) : State :=
  let s1 := modNode s g.part g.node fun m =>
    settleBars { m with placed := m.placed.map fun p =>
      if p.blk == g.blk && p.grp == g.grp then { p with exited := true } else p }
  if storesLeft s1 core slot g || beingConveyed s1 g.part g.node g.blk g.grp || leavingNow s1 core slot then s1
  else if n.la.estn = 0 then leaveSlot s1 core slot g n else
  let d := dieOf core
  post (modDie (modNode s1 g.part g.node fun m => { m with walksLeft := m.walksLeft + 1 }) d fun k =>
      { k with estq := k.estq ++ [{ part := g.part, node := g.node, blk := g.blk, grp := g.grp, gslot := gslotOf core slot,
                                    killed := false }] }) [.estateWalk d]

/-- What follows once a frontier may have become empty; a pair of a redundant launch exits together (R128). -/
def maybeExit (core slot : Nat) (n : Node) (s : State) : State :=
  match getGroup s core slot with
  | none => s
  | some g =>
    if !g.front.isEmpty then s else
    match g.shadow with
    | .none => groupExit core slot g n s
    | .leader => match getGroup s core (slot + 1) with
      | some h => if h.front.isEmpty then groupExit core slot g n s else s
      | none => groupExit core slot g n s
    | .shadow => match getGroup s core (slot - 1) with
      | some l => if l.front.isEmpty then groupExit core (slot - 1) l n s else s
      | none => s

end Sys2Proof.Machine
end

