-- ==== Sys2Proof/Machine/Sched.lean ====
section
/-! DEFINITION. What the machine does next: the group and entry a scheduler selects (spec/08 R116, R120) with its fetched and decoded instruction (spec/04 R36, R52). -/
namespace Sys2Proof.Machine

/-- Whether a die has power (R34). -/
def powered (s : State) (core : Nat) : Bool := (getDie s (dieOf core)).powered

/-- Whether no compute die has power (R34). -/
def allDark (s : State) : Bool := (List.range 8).all fun d => !(getDie s d).powered

/-- The launch priority of a group (R116). -/
def launchPrio (s : State) (g : Group) : Nat := match findNode s g.part g.node with | some n => n.la.prio | none => 0

/-- Whether a group holds a CHN reservation (R43). -/
def reserved (g : Group) : Bool := g.front.any (·.chn)

/-- Whether a scheduler selects group `a` before group `b` (R116). -/
def schedBefore (s : State) (a b : Group) : Bool :=
  if reserved a != reserved b then reserved a
  else if a.yld != b.yld then b.yld
  else match a.promoted, b.promoted with
    | some m, some n => decide (m < n)
    | some _, none => true
    | none, some _ => false
    | none, none =>
      if launchPrio s a ≠ launchPrio s b then decide (launchPrio s b < launchPrio s a) else decide (a.age < b.age)

/-- Whether a leader has operations that its shadow has still to compare (R128). -/
def uncompared (s : State) (core slot : Nat) : Bool := (getCore s core).bufs.any fun b => b.ents.any fun e => e.slot == slot && !e.cmp

/-- Whether a core issues: it is neither stopped nor vacated, it has power, and its partition is not quiesced (R34, R305, R315, R338). -/
def coreRuns (s : State) (k : Nat × Core) : Bool :=
  !k.2.stopped && !k.2.vacating && powered s k.1 && (getPart s k.2.part).st != .quiescing && (getPart s k.2.part).st != .quiesced

/-- Whether a core's groups have been told to stand for a vacate or a quiesce, with the core itself neither stopped nor dark: a shadow still compares there
what its leader has issued, and issues for that alone, since only what has compared equal may be released (R128, R305 step 6, log 16). -/
def coreStands (s : State) (k : Nat × Core) : Bool :=
  !k.2.stopped && powered s k.1 && (k.2.vacating || (getPart s k.2.part).st == .quiescing)

/-- Whether a group of a core may issue: its core runs, or it is a shadow with a comparison to make. -/
def mayRun (s : State) (k : Nat × Core) (p : Nat × Group) : Bool :=
  coreRuns s k || (coreStands s k && p.2.shadow == .shadow && uncompared s k.1 (p.1 - 1))

/-- The group a scheduler of a core selects (R116). -/
def schedPick (s : State) (core sch : Nat) : Option Sel :=
  let l := (getCore s core).slots.filter fun p => p.1 / 16 == sch && groupReady s core p.1 p.2 && mayRun s (core, getCore s core) p
  let best := l.foldl (fun b p => match b with | none => some p | some q => if schedBefore s p.2 q.2 then some p else b) none
  match best with
  | none => none
  | some p => (offered s core p.1 p.2).map fun e => { core := core, slot := p.1, lane := lowLane e.mask }

/-- Whether a shadow of a core that stands can make a comparison now. -/
def shadowsBehind (s : State) (core : Nat) : Bool :=
  coreStands s (core, getCore s core) && (List.range 4).any fun sch => (schedPick s core sch).isSome

/-- What every scheduler that may issue has selected. -/
def candidates (s : State) : List Sel :=
  (s.cores.filter fun k => coreRuns s k || coreStands s k).flatMap fun k => (List.range 4).filterMap fun sch => schedPick s k.1 sch

/-- The number of a selection's scheduler. -/
def schedKey (sl : Sel) : Nat := sl.core * 4 + sl.slot / 16

/-- The issuing entry: schedulers take turns, beginning after the last one that issued (log 2). -/
def pick (s : State) : Option Sel :=
  let l := candidates s
  match s.sel with
  | none => l.head?
  | some o => match l.find? (fun c => decide (schedKey o < schedKey c)) with | some c => some c | none => l.head?

/-- What a turn of the machine is. -/
inductive Turn where
  | run (i : Instr) (s : State)
  | quiet (s : State)
  | dark

/-- The instruction an entry issues under the REP pair it stands in (R48). -/
def stepped (e : Entry) (i : Instr) : Instr :=
  match e.rep, encOf i with
  | some rc, some c => match stepEnc (rulesOf i) rc e.repi c with | some c' => withEnc i c' | none => i
  | _, _ => i

/-- A fault of the fetch or of checks 1 to 4: precise, charged to the entry (R36, R52, R53). -/
def fetchFault (s : State) (sl : Sel) (e : Entry) (n : Node) (k : TrapKind) (faddr : DWord) : State :=
  takeFault (modCore (unhold s) sl.core tick) sl.core sl.slot e.mask false k faddr 0 n.la.btab

/-- The turn of a selected entry: its word is fetched, decoded and issued. -/
def issueTurn (s : State) (sl : Sel) : Turn :=
  let s0 := { s with sel := some sl }
  match selected s0 with
  | none => .quiet s0
  | some (_, g, e, n) =>
    match fetchAt s0 sl.core sl.slot n g.part e.mask (instrIx e) with
    | .trap k f => .quiet (fetchFault s0 sl e n k f)
    | .wait s1 => .quiet { s1 with held := sl :: s1.held }
    | .poisoned pa => .quiet (post { s0 with held := sl :: s0.held } [.containment sl.core sl.slot 1 pa])
    | .word w s1 =>
      match decodeWord w with
      | .error _ => .quiet (fetchFault s1 sl e n .illegalInstruction 0)
      | .ok i => .run (stepped e i) s1

end Sys2Proof.Machine
end

