-- ==== Sys2Proof/Machine/Control.lean ====
section
/-! DEFINITION. Control transfer and pacing (spec/08 R129 to R135, R141), the REP prefix (spec/04 R47 to R49), and the events of
the schedulers and frontiers (R43, R117, R122, R123). -/
namespace Sys2Proof.Machine

/-! ## Moving lanes -/

/-- Some lanes of an entry as an entry of their own at an IX, with RGN and their recorded counts (R121). -/
def splitOff (btab : List (Nat × Nat)) (e : Entry) (m : Lanes) (ix : Word) : Entry :=
  { e with mask := m, ix := ix, prio := prioOf btab ix, repi := 0, rep := none, chain := [], chn := false,
           cnt := countsFrom [] m e.cnt, st := .live, wait := none, due := 0 }

/-- The distinct values of a function on the lanes of a mask, in lane order. -/
def targetsOf (m : Lanes) (f : Nat → Word) : List Word := ((lanesOf m).map f).dedup

/-- The entries that an entry becomes when the lanes of `act` move to the IX of their own and the others to IX + 1 (R121). -/
def splitTo (btab : List (Nat × Nat)) (e : Entry) (act : Lanes) (f : Nat → Word) : List Entry :=
  let g := fun l => if act.getLsbD l then f l else e.ix + 1
  (targetsOf e.mask g).map fun t => splitOff btab e (e.mask &&& maskOf fun l => g l == t) t

/-- The issuing entry replaced by others. -/
def replaceEntry (x : Ctx) (c : Enc) (l : List Entry) (s : State) : State :=
  modFront (chargeIssue x c false s) x.core x.slot fun fr => fr.flatMap fun e => if e.mask == x.e.mask then l else [e]

/-- The transfer of the lanes of `act` (R129). -/
def transfer (x : Ctx) (c : Enc) (f : Nat → Word) (s : State) : Res :=
  .jump (replaceEntry x c (splitTo x.node.la.btab x.e x.act f) s)

/-- The link written by a call: the IX after it (R129). -/
def linkRow (x : Ctx) : Row64 := rowOf fun _ => (x.e.ix + 1).setWidth 64

/-- NOP (R132). -/
def execNop (c : Enc) (s : State) : Out := issue (.nop c) c (fun _ _ s => done s) s
/-- BRA (R129). -/
def execBra (c : Enc) (s : State) : Out := issue (.bra c) c (fun x _ s => transfer x c (fun _ => c.imm) s) s
/-- BRI (R129). -/
def execBri (c : Enc) (s : State) : Out :=
  issue (.bri c) c (fun x v s => transfer x c (fun l => loWord (lane64 v.y l)) s) s
/-- CALL (R129). -/
def execCall (c : Enc) (s : State) : Out :=
  issue (.call c) c (fun x _ s => transfer x c (fun _ => c.imm) (writeDst x c.x false c.nw (linkRow x) s)) s
/-- CALL.ind (R129). -/
def execCallInd (c : Enc) (s : State) : Out :=
  issue (.callInd c) c (fun x v s =>
    transfer x c (fun l => loWord (lane64 v.y l)) (writeDst x c.x false c.nw (linkRow x) s)) s
/-- RET (R129). -/
def execRet (c : Enc) (s : State) : Out :=
  issue (.ret c) c (fun x v s => transfer x c (fun l => loWord (lane64 v.y l)) s) s
/-- REGION (R131). -/
def execRegion (c : Enc) (s : State) : Out :=
  issue (.region c) c (fun x _ s =>
    .jump (modFront (chargeIssue x c false s) x.core x.slot fun l => modEntry l x.e.mask fun e =>
      { splitOff x.node.la.btab e e.mask (e.ix + 1) with rgn := e.ix, cnt := countsOf x.g.ncall e.mask })) s

/-! ## LSYNC waits, which an EXIT can end (R140) -/

/-- Whether an entry waits at an LSYNC with mask `m`. -/
def syncsOn (m : Lanes) (e : Entry) : Bool := match e.wait with | some (.lsync k _) => e.st == .blocked && k == m | _ => false
/-- Whether an entry waits at an LSYNC. -/
def syncing (e : Entry) : Bool := match e.wait with | some (.lsync _ _) => e.st == .blocked | _ => false
/-- The lanes that an entry has waiting at an LSYNC. -/
def syncLanes (e : Entry) : Lanes := match e.wait with | some (.lsync _ a) => a | _ => 0
/-- The mask that an entry waits with. -/
def syncMask (e : Entry) : Lanes := match e.wait with | some (.lsync m _) => m | _ => 0

/-- Whether every lane of `m` has exited or waits with it (R140). -/
def syncFull (l : List Entry) (m : Lanes) : Bool :=
  (m &&& liveLanes l &&& ~~~((l.filter (syncsOn m)).foldl (fun k e => k ||| syncLanes e) 0)) == 0

/-- Whether the lanes waiting with `m` stand at one IX. -/
def syncLevel (l : List Entry) (m : Lanes) : Bool :=
  match l.filter (syncsOn m) with
  | [] => true
  | a :: t => t.all fun e => e.ix == a.ix

/-- The entry that a completed LSYNC forms (R140): at the next IX with RGN there, or for the next iteration of its pair. -/
def syncJoin (btab : List (Nat × Nat)) (ncall : SMap Word) (l : List Entry) (m : Lanes) : List Entry :=
  match l.filter (syncsOn m) with
  | [] => l
  | a :: t =>
    let mask := t.foldl (fun k e => k ||| e.mask) a.mask
    let more := match a.rep with | some rc => decide (a.repi < rc.last) | none => false
    let ix := if more then a.ix else if a.rep.isSome then a.ix + 2 else a.ix + 1
    let cnt := t.foldl (fun n e => mapSets 0 n e.cnt) a.cnt
    (l.filter fun e => !syncsOn m e) ++
      [{ a with mask := mask, ix := ix, prio := prioOf btab ix, st := .live, wait := none, chain := [], chn := false,
                repi := if more then a.repi + 1 else 0, rep := if more then a.rep else none,
                rgn := if more then a.rgn else ix, cnt := if more then cnt else countsOf ncall mask }]

/-- How the LSYNC waits of a frontier stand. -/
inductive SyncRes where
  | front (l : List Entry)
  | bad (m : Lanes)

/-- The LSYNC waits looked at once: a complete one joins its lanes or, at different IX, faults; a group with every entry waiting
and none complete faults (R140). `bad` names the entry charged. -/
def syncCheck (btab : List (Nat × Nat)) (ncall : SMap Word) (l : List Entry) : SyncRes :=
  match (ranked l).find? fun e => syncing e && syncFull l (syncMask e) with
  | some e => if syncLevel l (syncMask e) then .front (syncJoin btab ncall l (syncMask e)) else .bad e.mask
  | none =>
    match ranked l with
    | [] => .front l
    | e :: _ => if l.all syncing then .bad e.mask else .front l

/-- The LSYNC waits of a group after lanes have exited, looked at until none is complete: one EXIT can complete several. -/
def syncRounds (core slot : Nat) (n : Node) : Nat → State → State
  | 0, s => s
  | k + 1, s =>
    match getGroup s core slot with
    | none => s
    | some g =>
      match syncCheck n.la.btab g.ncall g.front with
      | .front l => if l = g.front then s else syncRounds core slot n k (modFront s core slot fun _ => l)
      | .bad m => takeFault s core slot m false .membership 0 0 n.la.btab

/-- The LSYNC waits of a group after lanes have exited; no more masks can wait than lanes. -/
def syncAfterExit (core slot : Nat) (n : Node) (s : State) : State := syncRounds core slot n 64 s

/-! ## EXIT, TRAP and BKPT -/

/-- The entry after an EXIT of the lanes of `act` (R130). -/
def exitRest (x : Ctx) : List Entry :=
  let m := x.e.mask &&& ~~~x.act
  if m = 0 then [] else
  let e := splitOff x.node.la.btab x.e m (x.e.ix + 1)
  [if x.act = 0 then e else { e with rgn := x.e.ix + 1, cnt := countsOf x.g.ncall m }]

/-- EXIT's own part (R130, R177). -/
def exitBody (c : Enc) (x : Ctx) (s : State) : Res :=
  if exitPartial x then .trap .illegalConvergence 0
  else
    let s1 := replaceEntry x c (exitRest x) s
    .jump (if x.act = 0 then s1 else maybeExit x.core x.slot x.node (syncAfterExit x.core x.slot x.node s1))

/-- EXIT (R130). -/
def execExit (c : Enc) (s : State) : Out := issue (.exit c) c (fun x _ s => exitBody c x s) s

/-- TRAP and BKPT (R133): the entry moves on, a region ends, and the fault is raised with IMM as its code. A shadow's partner
raises it (R128). -/
def trapBody (k : TrapKind) (c : Enc) (x : Ctx) (s : State) : Res :=
  let s1 := complete x c true (x.act != 0) (none, zeroRow) s
  if x.act = 0 || x.g.shadow == .shadow then .jump s1 else
  match getGroup s1 x.core x.slot with
  | none => .jump s1
  | some g =>
    match entryOf g.front (lowLane x.act) with
    | none => .jump s1
    | some e => .jump (takeFault s1 x.core x.slot e.mask false k 0 c.imm x.node.la.btab)

/-- TRAP (R133). -/
def execTrap (c : Enc) (s : State) : Out := issue (.trap c) c (fun x _ s => trapBody .software c x s) s
/-- BKPT (R133). -/
def execBkpt (c : Enc) (s : State) : Out := issue (.bkpt c) c (fun x _ s => trapBody .breakpoint c x s) s

/-! ## Pacing -/

/-- SLEEP (R134). -/
def execSleep (c : Enc) (s : State) : Out :=
  issue (.sleep c) c (fun x v s =>
    let s1 := complete x c false false (none, zeroRow) s
    .jump (if x.act = 0 then s1 else modGroup s1 x.core x.slot fun g =>
      { g with sleep := min (loWord (lane64 v.y 0)).toNat 1048575 })) s

/-- The lanes of the entries that a yield waits on: the others that are LIVE at the YIELD (R122). One that becomes LIVE later is not waited for:
the model's choice, R122 does not say at which time an entry must be eligible (log 63). -/
def yieldDue (x : Ctx) : Lanes := liveLanes (x.g.front.filter fun e => e.mask != x.e.mask && e.st == .live)

/-- YIELD (R135). -/
def execYield (c : Enc) (s : State) : Out :=
  issue (.yield c) c (fun x _ s =>
    .jump (modGroup (replaceEntry x c
      [{ splitOff x.node.la.btab x.e x.e.mask (x.e.ix + 1) with st := .yielded, due := yieldDue x }] s) x.core x.slot
      fun g => { g with yld := true })) s

/-! ## REP -/

/-- The fault of a pair at its start, by the checks of R52 over every iteration (R48). -/
def repCheck (la : Launch) (rc : RepCtx) (len : Nat) (i : Instr) : Option TrapKind :=
  match encOf i with
  | none => some .illegalInstruction
  | some c =>
    if !instrWf i || chnIllegal i c || !repPairOk i c rc then some .illegalInstruction
    else repFieldsCheck la i c rc len

/-- REP (R47 to R49): the checks of the pair, made before its first iteration; the entry then stands in the pair. A chain that reaches the pair goes
on into iteration 0: REP takes no position of its own (R44 counts iterations), and R46's words on a last position are taken to leave the chain
open there (log 64). -/
def execRep (cnt : Fin 64) (xs ys zs ws : BitVec 4) (s : State) : Out :=
  match selected s with
  | none => .next s
  | some (sl, g, e, n) =>
    let rc : RepCtx := { last := cnt.val, xs := xs, ys := ys, zs := zs, ws := ws }
    match fetchAt s sl.core sl.slot n g.part e.mask (e.ix + 1) with
    | .trap k f => .next (fetchFault s sl e n k f)
    | .wait s1 => .next { s1 with held := sl :: s1.held }
    | .poisoned pa => .next (post { s with held := sl :: s.held } [.containment sl.core sl.slot 1 pa])
    | .word w s1 =>
      match decodeWord w with
      | .error _ => .next (fetchFault s1 sl e n .illegalInstruction 0)
      | .ok i =>
        match (if e.rep.isSome then some .illegalInstruction else repCheck n.la rc e.chain.length i) with
        | some k => .next (fetchFault s1 sl e n k 0)
        | none => .next (modGroup (unhold s1) sl.core sl.slot fun g =>
            { g with front := modEntry g.front e.mask fun e => { e with rep := some rc, repi := 0 } })

/-! ## Events -/

/-- A group passed over for 1,024 cycles is promoted, after every group promoted before it (R117). -/
def execGroupPromotion (core slot : Nat) (s : State) : Out :=
  match getGroup s core slot with
  | none => .next s
  | some g =>
    if g.passed < 1024 || g.promoted.isSome then .next s else
    let last := (getCore s core).slots.foldl (fun m p => match p.2.promoted with | some k => max m (k + 1) | none => m) 0
    .next (modGroup s core slot fun g => { g with promoted := some last })

/-- A STALL runs out (R43). -/
def execStallExpiry (core slot : Nat) (s : State) : Out :=
  match getGroup s core slot with
  | none => .next s
  | some g => .next (tickCore core g.stall s)

/-- A SLEEP runs out (R134). -/
def execSleepEnd (core slot : Nat) (s : State) : Out :=
  match getGroup s core slot with
  | none => .next s
  | some g => .next (tickCore core g.sleep s)

/-- Whether a hardware entry can issue at some time without the frontier's spilled ones (R123). -/
def hwStuck (l : List Entry) : Bool := (l.filter fun e => !e.spilled).all fun e => e.st != .live

/-- One refill or exchange of a frontier (R123). -/
def refill (l : List Entry) : List Entry :=
  let hw := l.filter fun e => !e.spilled
  let sp := ranked (l.filter (·.spilled))
  if hw.length < 16 then
    match sp.head? with
    | some e => modEntry l e.mask fun e => { e with spilled := false }
    | none => l
  else if hwStuck l then
    match sp.find? (fun e => e.st == .live), (ranked hw).getLast? with
    | some e, some h => modEntry (modEntry l e.mask fun e => { e with spilled := false }) h.mask fun e => { e with spilled := true }
    | _, _ => l
  else l

/-- The issue cycles of a refill, 4, and of an exchange, which spills an entry too, 8 (R123). -/
def refillCost (l : List Entry) : Nat := if (l.filter fun e => !e.spilled).length < 16 then 4 else 8

/-- A spilled entry is refilled or exchanged; it costs the group issue cycles and changes no result (R123). -/
def execFrontierRefill (core slot : Nat) (s : State) : Out :=
  match getGroup s core slot with
  | none => .next s
  | some g =>
    let l := refill g.front
    if l = g.front then .next s else .next (modGroup s core slot fun g => { g with front := l, stall := g.stall + refillCost g.front })

end Sys2Proof.Machine
end

