-- ==== Sys2Proof/Machine/Shaper.lean ====
section
/-! DEFINITION. Activity budgets (spec/20 R335) and the shares of a stack's bandwidth (R337): what each traffic class of each partition has issued to
a die in its activity period, and what waits for the next one. -/
namespace Sys2Proof.Machine

/-- The traffic classes of R335, in order. -/
inductive Traffic where | demand | fill | bte | lattice | scrub | journal
deriving DecidableEq, Repr

/-- The number of a class. -/
def Traffic.code : Traffic → Nat
  | .demand => 0 | .fill => 1 | .bte => 2 | .lattice => 3 | .scrub => 4 | .journal => 5

/-- The key of a partition's class among a die's budgets. -/
def budgetKey (part : Nat) (c : Traffic) : Nat := 8 * part + c.code

/-- The stack that holds a line (R240); bank memory stands in none. -/
def stackOf (pa : Nat) : Option Nat := match regionOf pa with | .hbm => some (pa / 2 ^ 36 % 32) | _ => none

/-- The lines of a stack that a partition's share of it allows in one period (R334, R337). -/
def stackLimit (l : Layout) : Nat := 81920 * l.hbmShare / 100

/-- A request: the die to whose slices or controllers it goes, and the address of the line that it asks for, if it asks for one. -/
abbrev Request := Nat × Option Nat

/-- Whether a class of a partition may issue a request in this period (R335, R337). That a line's slice may hold it already is not in the machine: every
request for a line of HBM counts for its stack (log 69). -/
def mayIssue (s : State) (part : Nat) (c : Traffic) (r : Request) : Bool :=
  (match assoc (getDie s r.1).budgets (budgetKey part c) with
   | some b => decide (mapGet 0 (getDie s r.1).used (budgetKey part c) < b)
   | none => true) &&
  (match r.2.bind stackOf with
   | some k => decide (mapGet 0 (mapGet {} s.hbm k).use part < stackLimit (getPart s part).lay)
   | none => true)

/-- A request counted (R334, R335). -/
def countRequest (part : Nat) (c : Traffic) (s : State) (r : Request) : State :=
  let s1 := modDie s r.1 fun d => { d with used := mapSet 0 d.used (budgetKey part c) (mapGet 0 d.used (budgetKey part c) + 1) }
  match r.2.bind stackOf with
  | none => s1
  | some k =>
    let v := mapGet {} s1.hbm k
    { s1 with hbm := mapSet {} s1.hbm k { v with use := mapSet 0 v.use part (mapGet 0 v.use part + 1),
                                                 demand := if c = .demand then v.demand + 1 else v.demand } }

/-- Requests made together: counted, where all of them may issue. A step that moves several lines at once counts them all, and what goes beyond a
budget counts against the periods that follow (log 69). -/
def issueAll (s : State) (part : Nat) (c : Traffic) (l : List Request) : Option State :=
  if l.all (mayIssue s part c) then some (l.foldl (countRequest part c) s) else none

/-- Requests that wait for the next period of their dies. -/
def holdAll (s : State) (part : Nat) (c : Traffic) (l : List Request) : State :=
  (l.filter fun r => !mayIssue s part c r).foldl (fun s r => modDie s r.1 fun d => { d with waiting := true }) s

/-- The requests of an engine for some lines by virtual address: those that translate. -/
def requestsOf (s : State) (part : Nat) (k : AccKind) (vas : List DWord) : List Request :=
  vas.filterMap fun va => match engTrans s part va k with
    | .ok pa pte => some (homeOf (getPart s part).lay pa pte / 64, some pa)
    | _ => none

/-- A stop record written (R318), and its lines counted for the journal's and the estates' class at their homes (R335). A record is not held back where
the class has spent its budget: the unit that writes it stands still (log 69). -/
def unitRecord (s : State) (part : Nat) (area : DWord) (n v : Nat) : State :=
  (requestsOf s part .write [area, area + BitVec.ofNat 64 ((vaRead s part (area + 4) 4).getD 0)]).foldl (countRequest part .journal)
    (stopRecord s part area n v)

/-- The counts of a die as its next period begins: what went beyond a budget stays (log 69). -/
def nextPeriod (d : Die) : SMap Nat :=
  d.used.filterMap fun u => match assoc d.budgets u.1 with
    | some b => if b < u.2 then some (u.1, u.2 - b) else none
    | none => none

/-- A stack's counts as the next period begins. -/
def nextUse (s : State) (u : SMap Nat) : SMap Nat :=
  u.filterMap fun p => let n := stackLimit (getPart s p.1).lay; if n < p.2 then some (p.1, p.2 - n) else none

end Sys2Proof.Machine
end

