-- ==== Sys2Proof/Machine/Remote.lean ====
section
/-! DEFINITION. Remote faults (spec/20 R323 to R325), the dies' error logs (R342), and replies on their way back to a group
(spec/08 R124, spec/09 R157). -/
namespace Sys2Proof.Machine

/-! ## Refusals -/

/-- The stub of R325. -/
def stubRecord (f : RFault) : Nat :=
  recordOf [(0, 0x09), (16, f.tag.gslot), (32, f.serial.toNat), (64, f.tag.ix.toNat), (96, f.tag.rgn.toNat)]

/-- The refusals on their way to a core, with their dies. -/
def refusalsOf (s : State) (core : Nat) : List (Nat × RFault) :=
  s.dies.flatMap fun d => (d.2.refused.filter fun f => f.core == core).map fun f => (d.1, f)

/-- A group marked with the serial of a refusal charged to it (R319). -/
def markSerial (f : RFault) (g : Group) : Group :=
  if g.part == f.part && g.node == f.node && g.blk == f.blk && g.grp == f.grp && g.shadow != .shadow then
    { g with raised := true, serial := f.serial, rslot := some f.tag.gslot, cause := if g.cause = 0 then 6 else g.cause,
             faddr := if g.cause = 0 then f.va else g.faddr }
  else g

/-- A refusal reaches its originating core (R323): full record and stub in the node's stop area, and the squall line; a node that has been
torn down is halted no more. -/
def execRemoteFault (core : Nat) (s : State) : Out :=
  match (refusalsOf s core).head? with
  | none => .next s
  | some (d, f) =>
    let s1 := modDie s d fun k => { k with refused := k.refused.erase f }
    let s2 := match findNode s1 f.part f.node with
      | some n => unitRecord (unitRecord s1 f.part n.la.stoparea 64 f.full.toNat) f.part n.la.stoparea 64 (stubRecord f)
      | none => s1
    let s3 := { s2 with cores := s2.cores.map fun k =>
      (k.1, { k.2 with slots := k.2.slots.map fun p => (p.1, markSerial f p.2) }) }
    if (findNode s1 f.part f.node).isNone then .next s3 else
    .next (raiseSquall s3 f.part { code := 6, origin := 8, serial := f.serial, gslot := f.tag.gslot, ix := f.tag.ix,
                                   rgn := f.tag.rgn, faddr := f.va, node := some f.node })

/-! ## Replies -/

/-- The pending reply of a group by its number. -/
def pendOf (g : Group) (req : Nat) : Option Pend := g.pend.find? fun p => p.id == req

/-- A pending reply changed. -/
def modPend (s : State) (core slot req : Nat) (f : Pend → Pend) : State :=
  modGroup s core slot fun g => { g with pend := g.pend.map fun p => if p.id == req then f p else p }

/-- A pending reply added to a group. -/
def addPend (s : State) (core slot : Nat) (p : Pend) : State := modGroup s core slot fun g => { g with pend := g.pend ++ [p] }

/-- A reply number replaced by its value in the chain of an entry (R44). -/
def chainFill (req : Nat) (r : Row64) (e : Entry) : Entry :=
  { e with chain := e.chain.map fun c => if c.1 == some req then (none, r) else c }

/-- A reply number replaced by its value in a load-value queue (R128). -/
def lvFill (req : Nat) (r : Row64) (l : List LvEnt) : List LvEnt :=
  l.map fun v => if v.req == some req then { v with req := none, val := r } else v

/-- A reply given to a group: its destination is written when `write` holds, its latch filled, the reply no longer out. -/
def takeReply (req : Nat) (r : Row64) (write : Bool) (g : Group) : Group :=
  match pendOf g req with
  | none => { g with lvq := lvFill req r g.lvq }
  | some p =>
    let g1 := if !write || p.nw then g else
      match p.pred with
      | some k => predGroup g k p.act (rowBits r)
      | none => dstGroup g p.dst (tyIs64 p.ty) p.act r
    { g1 with pend := g1.pend.filter fun q => q.id != req, lvq := lvFill req r g1.lvq,
              front := g1.front.map (chainFill req (maskRow p.act (latchRow p.dst p.act r))) }

/-- The buffer of a group's block tried again. -/
def kick (s : State) (core blk : Nat) : State :=
  if (bufOf (getCore s core) blk).ents.isEmpty then s else post s [.storeBufferRelease core blk]

/-- A reply given to a group and, for a leader, to its shadow (R128); the block's buffer may release more (R326). -/
def reply (s : State) (core slot req : Nat) (r : Row64) (write : Bool) : State :=
  match getGroup s core slot with
  | none => s
  | some g =>
    let s1 := modGroup s core slot (takeReply req r write)
    let s2 := if g.shadow == .leader then modGroup s1 core (slot + 1) (takeReply req r write) else s1
    kick s2 core g.blk

/-- The values that have arrived for a pending reply, by lane. -/
def gotRow (p : Pend) : Row64 := rowOf fun l => (assoc p.got l).getD 0

/-! ## Waking blocked entries -/

/-- The fields of an issue that only its hints could change. -/
def quietEnc : Enc :=
  { gn := false, gp := 7, x := .zero, nw := false, y := .zero, z := .zero, stall := 0, yld := false, chn := false, imm := 0 }

/-- A blocked entry whose instruction completes with a result (R122): it stands LIVE at the IX that follows. -/
def wake (s : State) (core slot : Nat) (m : Lanes) (n : Node) (ends : Bool) (r : Row64) : State :=
  let ncall := match getGroup s core slot with | some g => g.ncall | none => []
  modFront (unhold s) core slot fun l => modEntry l m (advance n.la.btab ncall quietEnc ends ends (none, r))

end Sys2Proof.Machine
end

