-- ==== Sys2Proof/Machine/Net.lean ====
section
/-! DEFINITION. The mesh (spec/16 R263 to R267): routes, channels and slots, packets and their hops, and what a packet other than a message does
at its destination. -/
namespace Sys2Proof.Machine

/-! ## Places and routes (R27, R28, R263, R264) -/

/-- The row of a core's router on its base tile. A slice is numbered as the core that shares its router: slices 4c to 4c + 3 of a die stand at the
router of its cluster c, as cores 4c to 4c + 3 do (R27, R263), so the home 64 * die + slice of a line is a place of the mesh. -/
def rowOfCore (c : Nat) : Nat := clusterOf c % 16 / 8
/-- The stop of a core's router in its row. -/
def stopOfCore (c : Nat) : Nat := clusterOf c % 8

/-- The tile across a die-to-die link: 0 west, 1 east, 2 the column link; `none` where the array of R28 has no link. -/
def tileAcross (t d : Nat) : Option Nat :=
  if d = 0 then (if t % 4 = 0 then none else some (t - 1))
  else if d = 1 then (if t % 4 = 3 then none else some (t + 1))
  else some ((t + 4) % 8)

/-- The opposite direction of a die-to-die link. -/
def backDir (d : Nat) : Nat := if d = 0 then 1 else if d = 1 then 0 else 2

/-- Whether a die-to-die link has failed, named from either end. -/
def d2dFailed (f : List LinkId) (t d : Nat) : Bool :=
  f.contains (.d2d t d) || (match tileAcross t d with | some u => f.contains (.d2d u (backDir d)) | none => true)

/-- One round of distances to a tile over the links that stand. -/
def tileDistStep (f : List LinkId) (dst : Nat) (m : Nat → Nat) (t : Nat) : Nat :=
  if t = dst then 0 else
  ((List.range 3).filterMap fun d => if d2dFailed f t d then none else (tileAcross t d).map fun u => m u + 1).foldl min 99

/-- The number of links from each tile to a destination over the links that stand (R264, R268). -/
def tileDist (f : List LinkId) (dst : Nat) : List Nat :=
  (List.range 8).foldl (fun l _ => (List.range 8).map (tileDistStep f dst fun t => l[t]?.getD 99))
    ((List.range 8).map fun t => if t = dst then 0 else 99)

/-- The die-to-die link by which a packet leaves a tile: along the row first, then the column link; around a failed one through
another tile (R264, R268). -/
def exitDir (f : List LinkId) (t dst : Nat) : Nat :=
  let m := tileDist f dst
  ((List.range 3).find? fun d => !d2dFailed f t d &&
    (match tileAcross t d with | some u => m[u]?.getD 99 + 1 == m[t]?.getD 99 | none => false)).getD 2

/-- The router of a die-to-die link on its tile (R263). -/
def exitPlace (d : Nat) : Nat × Nat := if d = 0 then (0, 0) else if d = 1 then (0, 7) else (1, 7)
/-- The router at which a packet enters the tile it was sent to by a link. -/
def enterPlace (d : Nat) : Nat × Nat := exitPlace (backDir d)
/-- The router of the I/O die port of a base tile (R263). -/
def ioPlace : Nat × Nat := (1, 4)
/-- The base tiles to which an I/O die is attached, the two ends of a column (R28). -/
def tilesOfIo (io : Nat) : List Nat := [io, io + 4]
/-- The base tile by which traffic of an I/O die reaches a die: the one in that die's row, the shorter way (log 29). -/
def ioTile (io die : Nat) : Nat := ((tilesOfIo io).find? fun t => t / 4 == die / 4).getD io

/-- The links of a ring leg: the stop at whose clockwise side each stands. -/
def legLinks (cw : Bool) (a b : Nat) : List Nat :=
  if cw then (List.range ((b + 8 - a) % 8)).map fun k => (a + k) % 8 else (List.range ((a + 8 - b) % 8)).map fun k => (a + 7 - k) % 8

/-- Whether a ring leg goes clockwise: ROUTE or the shorter way, the direction without the wrap link on the escape channel, and the
other way around a failed link (R264, R267, R268, R274). -/
def legClockwise (f : List LinkId) (p : Packet) (b : Nat) : Bool :=
  let a := p.stop
  let want := if p.esc then decide (a < b) else if p.route = 1 then true else if p.route = 2 then false else decide ((b + 8 - a) % 8 ≤ 4)
  if (legLinks want a b).any fun k => f.contains (.ring p.tile p.row k) then !want else want

/-- The stop at which a packet crosses to the other row: its target stop, or the adjacent one where that Y link has failed (R268). -/
def crossStop (f : List LinkId) (t b : Nat) : Nat := if f.contains (.y t b) then (if b < 7 then b + 1 else b - 1) else b

/-- The first number of a port outside the routers: a packet waits there until its source's port takes it. -/
def outside : Nat := 16

/-- A next hop: into its source's port, along the ring, over the Y link, over a die-to-die link, or none at the destination. -/
inductive Hop where
  | enter
  | ring (cw : Bool)
  | y
  | d2d (d : Nat)
  | here
deriving DecidableEq, Repr

/-- The next hop of a packet (R264, R267, R268). -/
def nextHop (f : List LinkId) (p : Packet) : Hop :=
  let dt := dieOf p.dst
  let d := exitDir f p.tile dt
  let goal := if p.tile = dt then (rowOfCore p.dst, stopOfCore p.dst) else exitPlace d
  if outside ≤ p.entry then .enter
  else if p.row ≠ goal.1 then
    let x := crossStop f p.tile goal.2
    if p.stop = x then .y else .ring (legClockwise f p x)
  else if p.stop ≠ goal.2 then .ring (legClockwise f p goal.2)
  else if p.tile = dt then .here else .d2d d

/-- A packet after a hop, before it takes its slots (R264, R265, R267). The input ports are 1 and 2 for the ring, 3 for the Y link, 4 to 6 for
the die-to-die links, 8 to 11 for the cores and 12 to 15 for the slices of the router's cluster. -/
def hopped (p : Packet) (h : Hop) : Packet :=
  match h with
  | .enter => { p with entry := p.entry - outside, blocked := 0 }
  | .ring cw =>
    let w := if cw then p.stop == 7 else p.stop == 0
    { p with stop := if cw then (p.stop + 1) % 8 else (p.stop + 7) % 8, entry := if cw then 1 else 2, post := p.post || w, blocked := 0 }
  | .y => { p with row := 1 - p.row, entry := 3, blocked := 0 }
  | .d2d d =>
    let e := enterPlace d
    { p with tile := (tileAcross p.tile d).getD p.tile, row := e.1, stop := e.2, entry := 4 + backDir d, post := false,
             esc := p.resent, blocked := 0 }
  | .here => p

/-- The link a hop uses. -/
def hopLink (p : Packet) (h : Hop) : Option LinkId :=
  match h with
  | .ring cw => some (.ring p.tile p.row (if cw then p.stop else (p.stop + 7) % 8))
  | .y => some (.y p.tile p.stop)
  | .d2d d => some (.d2d p.tile d)
  | .here | .enter => none

/-- Whether two names are one link: a die-to-die link has a name at each end. -/
def sameLink (a b : LinkId) : Bool :=
  a == b || (match a with | .d2d t d => (match tileAcross t d with | some u => b == .d2d u (backDir d) | none => false) | _ => false)

/-! ## Slots (R265, R266) -/

/-- Flits of a message of some words (R270). -/
def flitsOf (words : Nat) : Nat := 1 + (words + 7) / 8
/-- Flits of a packet: its header and its payload (R264, R270). -/
def pktFlits (p : Packet) : Nat := if p.cls = .message then flitsOf p.words.length else 1 + p.pay

/-- The input port in which the head of a packet stands. -/
def headPort (p : Packet) : PortAt := { tile := p.tile, row := p.row, stop := p.stop, entry := p.entry }
/-- The flits of a packet in the port of its head. -/
def headFlits (p : Packet) : Nat := pktFlits p - p.trail.foldl (fun a t => a + t.2) 0

/-- Whether two packets stand in the same input port. -/
def samePort (a b : Packet) : Bool := headPort a == headPort b
/-- Whether two packets stand in the same channel (R265). -/
def sameChan (a b : Packet) : Bool := a.esc == b.esc && (a.esc || (a.cls == b.cls && a.post == b.post))

/-- Whether a packet holds ordinary slots in a port: it stands there on an ordinary channel, or it left its channel there for the escape channel
and still has flits there (R266, R267). -/
def holdsIn (q : PortAt) (p : Packet) : Bool := if p.esc then p.base == some q else headPort p == q

/-- A packet with the ordinary slots it takes in the port it moves to, if that port can take all its flits (R266). Outside the routers there are
none to take. -/
def takeSlots (l : List Packet) (p : Packet) : Option Packet :=
  if outside ≤ p.entry then some { p with rsv := 0, shr := 0 } else
  let there := l.filter fun q => q.id != p.id && holdsIn (headPort p) q
  let free := 2 - ((there.filter fun q => q.cls == p.cls && q.post == p.post).foldl (fun a q => a + q.rsv) 0)
  let pool := 24 - (there.foldl (fun a q => a + q.shr) 0)
  let f := pktFlits p
  let r := min f free
  if f - r ≤ pool then some { p with rsv := r, shr := f - r } else none

/-- The escape slots that some packets hold in a port (R267). -/
def escUsed (l : List Packet) (q : PortAt) : Nat :=
  l.foldl (fun a p => if !p.esc || p.base == some q then a else
    (((headPort p, headFlits p) :: p.trail).filter fun t => t.1 == q).foldl (fun b t => b + t.2) a) 0
/-- Whether one of a port's two escape slots is free (R265, R267). -/
def escRoom (l : List Packet) (q : PortAt) : Bool := outside ≤ q.entry || decide (escUsed l q < 2)

/-- The first flit behind a packet's head that can move up one port: whether it reaches the head's port, and what then lies behind (R267). -/
def follow (room : PortAt → Bool) (prev : PortAt) : List (PortAt × Nat) → Option (Bool × List (PortAt × Nat))
  | [] => none
  | (q, n) :: t =>
    if room prev then some (true, if n ≤ 1 then t else (q, n - 1) :: t)
    else match follow room q t with
      | some (true, u) => some (false, (q, n + 1) :: u)
      | some (false, u) => some (false, (q, n) :: u)
      | none => none

/-- A packet on the escape channel without the ordinary slots of a port that its last flit has left (R266, R267). -/
def leftBase (p : Packet) : Packet :=
  match p.base with
  | some q => if headPort p == q || p.trail.any (fun t => t.1 == q) then p else { p with base := none, rsv := 0, shr := 0 }
  | none => p

/-- One move of a packet on the escape channel (R267): its head flit advances, or, where that has no room, the first of its other flits that can.
It leaves the channel with its tile, whole, unless it is one that was resent (R266, R268). -/
def escStep (f : List LinkId) (l : List Packet) (p : Packet) : Option Packet :=
  let others := l.filter fun q => q.id != p.id
  let room := fun (q : PortAt) => escRoom (p :: others) q
  let np := hopped p (nextHop f p)
  let head := if np.esc then
      (if room (headPort np) then
        some { np with trail := if headFlits p ≤ 1 then p.trail else (headPort p, headFlits p - 1) :: p.trail } else none)
    else takeSlots l { np with trail := [], base := none }
  match head with
  | some q => some (leftBase q)
  | none => (follow room (headPort p) p.trail).map fun r => leftBase { p with trail := r.2 }

/-- Whether a packet is the head of its channel in its port: none stood there before it. -/
def isHead (l : List Packet) (p : Packet) : Bool :=
  ((l.takeWhile fun q => q.id != p.id).any fun q => samePort q p && sameChan q p) == false

/-- Flits counted for a node over a die's die-to-die links (R279). -/
def addFlits (s : State) (part : Nat) (node : DWord) (die n : Nat) : State :=
  modDie s die fun d =>
    let k := (part, node)
    let m := match d.linkUse.find? (fun u => u.1 == k) with | some u => u.2 | none => 0
    { d with linkUse := (d.linkUse.filter fun u => u.1 != k) ++ [(k, m + n)] }

/-- The flits of a packet that crosses a die-to-die link counted for its node (R279). -/
def countFlits (s : State) (p : Packet) (h : Hop) : State :=
  match h with
  | .d2d _ => addFlits s p.part p.node p.tile (pktFlits p)
  | _ => s

/-- The tiles that traffic leaves by a die-to-die link on its way from one tile to another (R264, R268). -/
def tilesLeft (f : List LinkId) (dst : Nat) : Nat → Nat → List Nat
  | 0, _ => []
  | k + 1, t => if t = dst then [] else t :: tilesLeft f dst k ((tileAcross t (exitDir f t dst)).getD dst)

/-- A line that an engine on a tile moves to or from its home, counted on the die-to-die links that it crosses: its five flits one way, and the
header of its other packet the other (R264, R279). -/
def countLine (s : State) (part : Nat) (node : DWord) (tile home : Nat) (write : Bool) : State :=
  let out := (tilesLeft s.failed (home / 64) 8 tile).foldl (fun s t => addFlits s part node t (if write then 5 else 1)) s
  (tilesLeft s.failed tile 8 (home / 64)).foldl (fun s t => addFlits s part node t (if write then 1 else 5)) out

/-- The lines that an engine moves for a node, from a tile that may depend on the die of a line's home (R279). -/
def countLines (part : Nat) (node : DWord) (tile : Nat → Nat) (write : Bool) (l : List Request) (s : State) : State :=
  l.foldl (fun s r => countLine s part node (tile r.1) (64 * r.1) write) s

/-- A packet by its number. -/
def packetOf (s : State) (id : Nat) : Option Packet := s.packets.find? fun p => p.id == id
/-- A packet replaced where it stands in its order. -/
def setPacket (s : State) (p : Packet) : State := { s with packets := s.packets.map fun q => if q.id == p.id then p else q }
/-- A packet moved: it stands last in its new port. -/
def movePacket (s : State) (p : Packet) : State := { s with packets := (s.packets.filter fun q => q.id != p.id) ++ [p] }
/-- A packet removed. -/
def dropPacket (s : State) (id : Nat) : State := { s with packets := s.packets.filter fun q => q.id != id }

/-- The event that carries a packet on from where it stands. -/
def carryOn (s : State) (p : Packet) : Instr :=
  if nextHop s.failed p = .here && p.cls == .message then .messageAccept p.id else if p.esc then .escapeChannelMove p.id else .meshHop p.id

/-- Whether a packet that nothing else carries on waits for room in a port: one outside it, or one whose flits stand on the escape channel. -/
def wantsPort (f : List LinkId) (q : PortAt) (p : Packet) : Bool :=
  !p.nak && (p.esc || outside ≤ p.entry) && nextHop f p != .here &&
  (headPort (hopped p (nextHop f p)) == q || (p.esc && (headPort p :: p.trail.map (·.1)).contains q))

/-- What flits that leave a port let go on there: the packets that wait for room in it, and, at a core's port, that core's sends (R266, R267, R270). -/
def portFreed (s : State) (q : PortAt) (id src : Nat) : State :=
  post s (((s.packets.filter fun o => o.id != id && wantsPort s.failed q o).map (carryOn s)) ++
    (if 8 ≤ q.entry && q.entry < 12 then (getCore s src).bufs.map fun b => Instr.storeBufferRelease src b.blk else []))

/-- What a packet's departure from its ports lets go on: the next packet of its channel where its head stood, and what waits for room there or in a port
where other flits of it stood (R266, R267). -/
def departed (s : State) (p : Packet) : State :=
  (p.trail.map (·.1) ++ p.base.toList).foldl (fun s q => portFreed s q p.id p.src) <| portFreed (post s (match s.packets.find? fun q => q.id != p.id && samePort q p && sameChan q p && !q.nak with
    | some q => [carryOn s q]
    | none => [])) (headPort p) p.id p.src

/-! ## Packets other than messages (R264, R265) -/

/-- A packet of the request, response or lattice class as it is made at its source: outside the port of a core, or of a slice for a response. -/
def netPacket (cls : PClass) (cargo : Cargo) (pay part : Nat) (node : DWord) (blk src dst slot : Nat) (tag : Tag) : Packet :=
  { id := 0, part := part, node := node, src := src, dst := dst, dq := 0, port := 0, seq := 0, slot := slot, words := [], route := 0,
    tile := dieOf src, row := rowOfCore src, stop := stopOfCore src, entry := outside + (if cls = .response then 12 else 8) + src % 4,
    cls := cls, cargo := cargo, pay := pay, blk := blk, tag := tag }

/-- A packet set on its way. -/
def sendPacket (s : State) (p : Packet) : State :=
  let q := { p with id := s.reqId }
  let s1 := movePacket { s with reqId := s.reqId + 1 } q
  post s1 [carryOn s1 q]

/-- A read as it leaves: one that is asked for again after a NAK goes on the escape channel (R268). -/
def afterNak (x : Ctx) (p : Packet) : Packet := if x.e.resend == some x.e.ix then { p with esc := true, resent := true } else p

/-- The reads of a load's lines, one request for each, on their way to their homes (R157, R264). -/
def sendReads (x : Ctx) (req : Nat) (l : List LaneAcc) (s : State) : State :=
  ((l.map fun a => a.pa / 128).dedup).foldl (fun s ln =>
    match l.find? fun a => a.pa / 128 == ln with
    | some a => sendPacket s (afterNak x (netPacket .request (.read x.slot req ln) 0 x.g.part x.g.node x.g.blk x.core a.home x.slot (tagOf x)))
    | none => s) s

/-- Payload flits of a queued operation: four for a line written, one for any other; the reads' own counts are R264's (log 29). -/
def entryPay (e : SbEntry) : Nat := match e.op with | .store .. => 4 | _ => 1

/-- An operation of a cluster write queue on its way to its home (R233, R264). -/
def sendWrite (s : State) (e : SbEntry) : State :=
  sendPacket s (netPacket .request (.write (clusterOf e.core) e.ord) (entryPay e) e.part e.node e.blk e.core e.home e.slot e.tag)

/-- An answer on its way back to a core (R264). -/
def sendAnswer (s : State) (g : Group) (cargo : Cargo) (pay home core slot : Nat) : State :=
  sendPacket s (netPacket .response cargo pay g.part g.node g.blk home core slot {})

/-- Whether a packet of a reply is still on its way: a line's read or its answer. -/
def onWay (s : State) (core slot req : Nat) : Bool :=
  s.packets.any fun p => match p.cargo with
    | .read sl q _ => p.src == core && sl == slot && q == req
    | .reply sl q => p.dst == core && sl == slot && q == req
    | _ => false

/-- The reply goes out once every line has answered. -/
def answered (s : State) (core slot req : Nat) : State :=
  match (getGroup s core slot).bind fun g => pendOf g req with
  | some p => if p.lanes.isEmpty && !onWay s core slot req then post s [.loadReply core slot req] else s
  | none => s

/-- The request that a packet makes at its destination, with its traffic class (R335). -/
def requestOf (s : State) (p : Packet) : Option (Traffic × Request) :=
  match p.cargo with
  | .read _ _ line => some (.demand, (p.dst / 64, some (128 * line)))
  | .write cl ord => ((getCluster s cl).wq.find? fun e => e.ord == ord).map fun e => (.demand, (p.dst / 64, some (128 * e.line)))
  | .face _ => some (.lattice, (dieOf p.dst, none))
  | _ => none

/-- Whether a packet at its destination waits for the die's next period: its class may issue no more, or one of its class already waits there, which it
does not pass (R335). -/
def budgetWaits (s : State) (p : Packet) : Bool :=
  match requestOf s p with
  | none => false
  | some (c, r) => !mayIssue s p.part c r || s.packets.any fun q => q.id != p.id && q.part == p.part && nextHop s.failed q == .here &&
      (match requestOf s q with | some (d, t) => d == c && t.1 == r.1 && !mayIssue s q.part d t | none => false)

/-- Whether a read at its home waits behind an operation of its cluster's write queue that must be performed first (R243). -/
def readHeld (s : State) (p : Packet) : Bool :=
  match p.cargo with
  | .read slot req line =>
    (match (getGroup s p.src slot).bind fun g => pendOf g req with
     | some q => (q.lanes.filter fun a => a.pa / 128 == line).any fun a => (List.range (accWidth q.ty)).any fun j => lowHeld s (clusterOf p.src) (a.pa + j)
     | none => false)
  | _ => false

/-- Whether a packet stands at its destination and has not made its request yet: its class has spent its budget, or a read waits behind an operation
of a queue (R243, R335). -/
def requestHeld (s : State) (p : Packet) : Bool := nextHop s.failed p == .here && !p.nak && (requestOf s p).isSome

/-- Whether a request of a partition is held at its home (R316, R338). -/
def requestsHeld (s : State) (part : Nat) : Bool := s.packets.any fun p => p.part == part && requestHeld s p

/-- Whether a load or an operation with a reply of a core is out: its packet, its answer's, or its place in the cluster's write queue (R305
step 2). -/
def repliesOut (s : State) (core : Nat) : Bool :=
  (s.packets.any fun p => match p.cargo with
    | .read .. => p.src == core
    | .reply .. | .status .. => p.dst == core
    | _ => false) ||
  (getCluster s (clusterOf core)).wq.any fun e => e.core == core && e.req.isSome

/-- A packet's request counted (R335). -/
def countPacket (s : State) (p : Packet) : State := match requestOf s p with | some (c, r) => countRequest p.part c s r | none => s

/-- What a packet other than a message does at its destination: a request is served next by its slice, an answer counts for its reply, and the cells
of a face reach the core (R233, R243, R281); a request whose class has spent its budget stays where it is (R335), and so does a read behind an
operation that must be performed first (R243). -/
def deliver (s : State) (p : Packet) : State :=
  if budgetWaits s p then modDie s (match requestOf s p with | some (_, r) => r.1 | none => 0) fun d => { d with waiting := true } else
  if readHeld s p then s else
  let s1 := departed (dropPacket (countPacket s p) p.id) p
  match p.cargo with
  | .words => s1
  | .read slot req line => { s1 with agenda := .sliceOperation (.read p.src slot req line) :: s1.agenda }
  | .write cl ord =>
    match (getCluster s1 cl).wq.findIdx? fun e => e.ord == ord with
    | some i => { s1 with agenda := .sliceOperation (.write cl i) :: s1.agenda }
    | none => s1
  | .reply slot req => answered s1 p.dst slot req
  | .status slot req v ok acq =>
    let s2 := reply s1 p.dst slot req (rowOf fun _ => v) ok
    if acq then acquire s2 p.dst .device else s2
  | .face m => post (modCore s1 p.dst fun k => { k with inbound := k.inbound ++ [m] }) [.neighbourLabelArrival p.dst]

/-! ## The moves -/

/-- One hop on an ordinary channel, or one more clock of being blocked (R266); a packet outside its port waits there for room. -/
def execMeshHop (pkt : Nat) (s : State) : Out :=
  match packetOf s pkt with
  | none => .next s
  | some p =>
    if p.esc || p.nak then .next s else
    match nextHop s.failed p with
    | .here => .next (if p.cls = .message then post s [.messageAccept pkt] else deliver s p)
    | h =>
      if !isHead s.packets p then .next s else
      match takeSlots s.packets (hopped p h) with
      | some q => .next (departed (post (movePacket (countFlits s p h) q) [carryOn s q]) p)
      | none =>
        let q := { p with blocked := p.blocked + 1 }
        .next (post (setPacket s q) (if outside ≤ p.entry then [] else [if 64 ≤ q.blocked then .escapeChannelMove pkt else .meshHop pkt]))

/-- The next flit of a packet whose head has come to its destination taken up there (R267); a packet is delivered once its last flit has come. -/
def drawIn (s : State) (p : Packet) : State :=
  match follow (fun q => q == headPort p || escRoom s.packets q) (headPort p) p.trail with
  | some r =>
    let q := leftBase { p with trail := r.2 }
    portFreed (post (movePacket s q) [carryOn s q]) ((p.trail.getLast?.map (·.1)).getD (headPort p)) p.id p.src
  | none => s

/-- A packet blocked for 64 clocks moves to the escape channel; one that is there moves by one flit (R266, R267). -/
def execEscapeChannelMove (pkt : Nat) (s : State) : Out :=
  match packetOf s pkt with
  | none => .next s
  | some p =>
    if p.nak then .next s
    else if !p.esc then
      (if p.blocked < 64 || outside ≤ p.entry then .next s
       else
         let q := { p with esc := true, base := some (headPort p), blocked := 0 }
         .next (departed (post (setPacket s q) [carryOn s q]) p))
    else match nextHop s.failed p with
      | .here => .next (if p.cls = .message then post s [.messageAccept pkt] else if p.trail.isEmpty then deliver s p else drawIn s p)
      | h =>
        match escStep s.failed s.packets p with
        | some q =>
          let s1 := if headPort q == headPort p then s else countFlits s p h
          .next (portFreed (post (movePacket s1 q) [carryOn s q]) ((p.trail.getLast?.map (·.1)).getD (headPort p)) p.id p.src)
        | none => .next s

/-! ## Pairs (R128) -/

/-- A pair of groups brought into step before it leaves its slots (R128): the shadow takes the leader's place. What the leader has buffered and no shadow can
compare any more, since it stopped where it cannot go on, counts as compared (log 16). -/
def settlePair (s : State) (core slot : Nat) : State :=
  match getGroup s core slot with
  | none => s
  | some g =>
    if g.shadow != .leader then s else
    let s1 := modGroup s core slot fun g => { g with lvq := [], shq := [] }
    let s2 := setGroup s1 core (slot + 1) { g with shadow := .shadow, lvq := [], shq := [] }
    post (modCore s2 core fun k => { k with bufs := k.bufs.map fun b =>
        { b with ents := b.ents.map fun e => if e.slot == slot then { e with cmp := true } else e } }) [.storeBufferRelease core g.blk]

end Sys2Proof.Machine
end

