-- ==== Sys2Proof/Machine/LoadStore.lean ====
section
/-! DEFINITION. Loads, stores, prefetches and fences (spec/09 R156 to R159, R161, R162, R165), and the end of a page walk
(spec/15 R250, R251, spec/22 R369, R371). -/
namespace Sys2Proof.Machine

/-! ## What a load finds at its core -/

/-- The lanes that a load accesses: once, from the lowest lane of `act`, for a scalar destination (R157). -/
def loadLanes (c : Enc) (act : Lanes) : Lanes :=
  match c.x with
  | .s _ => if act = 0 then 0 else laneBit (lowLane act)
  | _ => act

/-- Whether a line may stand in an L1 (R147, R245, R246). -/
def cacheable (a : LaneAcc) : Bool := !a.ms && (match regionOf a.pa with | .hbm => true | _ => false)

/-- What the store buffer and the L1 supply for one byte at the core (R148, R157). -/
def coreByte (s : State) (core blk : Nat) (a : LaneAcc) (j : Nat) : Found :=
  match bufByte s core blk (a.pa + j) with
  | .none =>
    match (if cacheable a then l1Line (getCore s core) a.pa else none) with
    | some v => .byte (lineByte v (a.pa + j))
    | none => .none
  | f => f

/-- The value of bytes that are all at hand, the first lowest; `none` where one is not. -/
def foundValue : List Found → Option Nat
  | [] => some 0
  | .byte b :: t => (foundValue t).map fun v => b.toNat + 256 * v
  | _ :: _ => none

/-- What a lane's access finds at its core. -/
def laneFound (s : State) (core blk w : Nat) (a : LaneAcc) : List Found := (List.range w).map (coreByte s core blk a)

/-- Whether a lane's access must wait: an operation stands before it, or only part of its bytes is in the buffer (R148). -/
def laneHeld (s : State) (core blk w : Nat) (a : LaneAcc) : Bool :=
  let f := laneFound s core blk w a
  f.any (fun b => b == .hold) ||
  ((foundValue f).isNone && ((List.range w).any fun j => bufByte s core blk (a.pa + j) != .none))

/-- The distinct lines of some accesses, in order. -/
def linesOf (l : List LaneAcc) : List Nat := (l.map fun a => a.pa / 128).dedup

/-- LD's own part (R157). -/
def ldBody (c : Enc) (k : LdKind) (ty : Ty) (x : Ctx) (v : Srcs) (s : State) : Res :=
  let w := accWidth ty
  let lanes := (globalLanes x v c.imm).filter fun p => (loadLanes c x.act).getLsbD p.1
  match transLanes s x.core x.slot x.g.part x.e.mask w .read lanes with
  | .trap f va => .trap f va
  | .wait s1 => .wait s1
  | .ok accs s1 =>
    if accs.any (laneHeld s1 x.core x.g.blk w) then .waitGroup s1 else
    let vals := accs.map fun a => (a, foundValue (laneFound s1 x.core x.g.blk w a))
    let got := vals.filterMap fun p => p.2.map fun n => (p.1.lane, BitVec.ofNat 64 n)
    let miss := (vals.filter fun p => p.2.isNone).map (·.1)
    if miss.isEmpty then
      let r := rowOf fun l => (assoc got l).getD 0
      .fin (writeDst x c.x (tyIs64 ty) c.nw r s1) (latchRow c.x x.act r)
    else
      let q := freshReq s1
      let s2 := addPend q.2 x.core x.slot
        { id := q.1, kind := .load k, mask := x.e.mask, dst := c.x, ty := ty, nw := c.nw, act := x.act, lanes := miss, got := got,
          tag := tagOf x }
      .late (sendReads x q.1 miss s2) q.1

/-- LD (R157). -/
def execLd (c : Enc) (k : LdKind) (ty : Ty) (s : State) : Out := issue (.ld c k ty) c (ldBody c k ty) s

/-- The reply of a load or an atomic reaches its group (R124): every line has answered. A refused load writes no register in any
lane (R323); one that read an uncorrectable error is a consumption (R327). -/
def execLoadReply (core slot req : Nat) (s : State) : Out :=
  match getGroup s core slot with
  | none => .next s
  | some g =>
    match pendOf g req with
    | none => .next s
    | some p =>
      if !p.lanes.isEmpty || onWay s core slot req then .next s else
      let s1 := reply s core slot req (gotRow p) (!p.refused && !p.poisoned)
      let s1 := post s1 (tlbiWaits s1)
      .next (match p.kind with
        | .tile z row => if p.refused then s1 else modCore s1 core (tileLoad (z * 16 + row) p.ty p.got)
        | _ => if acquiring p then acquire s1 core .device else s1)

/-! ## Local loads and stores -/

/-- The first access of a list that an instruction may not make (R146). -/
def firstBad (k : Core) (w : Nat) (l : List (Nat × Nat)) : Option Nat := (l.find? fun p => localBad k p.2 w).map (·.2)

/-- A local address as a fault address. -/
def localFaddr (a : Nat) : DWord := BitVec.ofNat 64 a

/-- LDL's own part (R157). -/
def ldlBody (c : Enc) (ty : Ty) (x : Ctx) (v : Srcs) (s : State) : Res :=
  let w := accWidth ty
  let k := getCore s x.core
  let lanes := (localLanes x v c.imm).filter fun p => (loadLanes c x.act).getLsbD p.1
  match firstBad k w lanes with
  | some a => .trap .protection (localFaddr a)
  | none =>
    match touch s x.core (tagOf x) (lanes.map fun p => (p.2, w)) with
    | some s1 => .waitGroup s1
    | none =>
      let r := rowOf fun l => match assoc lanes l with | some a => BitVec.ofNat 64 (lread k a w) | none => 0
      let s1 := writeDst x c.x (tyIs64 ty) c.nw r s
      .fin (if lanes.any fun p => lpoisoned k p.2 w then consume s1 x.core x.slot 3 else s1) (latchRow c.x x.act r)

/-- LDL (R157). -/
def execLdl (c : Enc) (ty : Ty) (s : State) : Out := issue (.ldl c ty) c (ldlBody c ty) s

/-- STL's own part (R158); a shadow makes no store of its own (R128). -/
def stlBody (c : Enc) (ty : Ty) (x : Ctx) (v : Srcs) (s : State) : Res :=
  let w := accWidth ty
  let lanes := localLanes x v c.imm
  match firstBad (getCore s x.core) w lanes with
  | some a => .trap .protection (localFaddr a)
  | none =>
    match touch s x.core (tagOf x) (lanes.map fun p => (p.2, w)) with
    | some s1 => .waitGroup s1
    | none =>
      if x.g.shadow == .shadow then done s else
      done (localPut s x.core (lanes.flatMap fun p => bytesAt p.2 w (lane64 v.x p.1).toNat))

/-- STL (R158). -/
def execStl (c : Enc) (ty : Ty) (s : State) : Out := issue (.stl c ty) c (stlBody c ty) s

/-! ## Global stores -/

/-- The entries of a store, one per line, each lane's bytes in ascending lane order (R156, R326). -/
def storeEntries (x : Ctx) (ev : Bool) (w : Nat) (f : Nat → DWord) (accs : List LaneAcc) : List SbEntry :=
  (linesOf accs).filterMap fun ln =>
    let l := accs.filter fun a => a.pa / 128 == ln
    l.head?.map fun a =>
      { mkEntry x (.store ev (l.flatMap fun b => bytesAt b.pa w (f b.lane).toNat)) a.va a.pa a.home none with
        lanes := l.map fun b => (b.lane, b.va, f b.lane), ms := a.ms }

/-- ST's own part (R158). -/
def stBody (c : Enc) (ev : Bool) (ty : Ty) (x : Ctx) (v : Srcs) (s : State) : Res :=
  let w := accWidth ty
  match transLanes s x.core x.slot x.g.part x.e.mask w .write (globalLanes x v c.imm) with
  | .trap f va => .trap f va
  | .wait s1 => .wait s1
  | .ok accs s1 =>
    let l := storeEntries x ev w (lane64 v.x) accs
    if !bufRoom s1 x l.length then .waitGroup s1 else done (emit x l s1)

/-- ST (R158). -/
def execSt (c : Enc) (ev : Bool) (ty : Ty) (s : State) : Out := issue (.st c ev ty) c (stBody c ev ty) s

/-- PF (R159): a hint, of which the device may perform none. -/
def execPf (c : Enc) (l1 : Bool) (s : State) : Out := issue (.pf c l1) c (fun _ _ s => done s) s

/-! ## Fences -/

/-- Whether a fence's parts release and acquire (R161). -/
def fenceRel : FKind → Bool
  | .acq => false
  | _ => true
/-- Whether a fence acquires (R161). -/
def fenceAcq : FKind → Bool
  | .rel => false
  | _ => true

/-- FENCE's own part (R161): earlier loads have returned (R166), stores have reached the scope, and then the acquire. -/
def fenceBody (k : FKind) (sc : Scope) (x : Ctx) (s : State) : Res :=
  if x.act = 0 then done s
  else if !settled x.g x.e || (fenceRel k && !reached s x sc) then .waitGroup s
  else done (if fenceAcq k then acquire s x.core sc else s)

/-- FENCE (R161). -/
def execFence (c : Enc) (k : FKind) (sc : Scope) (s : State) : Out := issue (.fence c k sc) c (fun x _ s => fenceBody k sc x s) s

/-- L1INV (R162). -/
def execL1inv (c : Enc) (s : State) : Out :=
  issue (.l1inv c) c (fun x _ s => done (if x.act = 0 then s else modCore s x.core fun k => { k with l1 := [] })) s

/-! ## Page walks -/

/-- The frontier entry of a waiter: the one that holds its lowest lane. -/
def waiterEntry (s : State) (w : Waiter) : Option Entry :=
  match getGroup s w.core w.slot with
  | some g => entryOf g.front (lowLane w.lanes)
  | none => none

/-- All that a partition's front end may have been at when it waited on a walk: packets, the steps of collectives, completed nodes, and posts. -/
def frontEvents (s : State) (part : Nat) : List Instr :=
  let p := getPart s part
  (p.queues.flatMap fun u =>
    [.packetAccept part u.1, .launchPacket part u.1, .coll part u.1, .event part u.1, .waitsem part u.1, .waitsemReread part u.1, .signal part u.1,
     .send part u.1, .recv part u.1, .rrs part u.1, .copy part u.1, .wait part u.1, .loop part u.1, .next part u.1]) ++
  (p.nodes.map fun n => .nodeDone part n.addr.toNat) ++
  s.cores.flatMap fun k => if k.2.part != part then [] else k.2.bufs.map fun b => .storeBufferRelease k.1 b.blk

/-- What the end of a walk sets off for a unit that waited on it (R153, R216, R369): a window fill unit goes on, or meets its fault; a matrix engine's
fetch unit, a block-transfer engine or the front end tries again. -/
def unitWalked (s : State) (bad : Bool) (w : Waiter) : List Instr :=
  if w.slot = fillWaiter then [if bad then .windowFillFault w.core else .windowFill w.core]
  else if w.slot = fetchWaiter then [if bad then .matrixFetchFault (clusterOf w.core) else .matrixFetchDone (clusterOf w.core)]
  else if w.slot = bteWaiter then [.bteDescriptorStart (w.core / 16) (w.core % 16), .bteCompletion (w.core / 16) (w.core % 16)]
  else if w.slot = frontWaiter then frontEvents s w.core
  else []

/-- The address that a walk's fault shows: the access's own, or that of the instruction word that a fetch was for (R36). -/
def waitedAddr (s : State) (g : Group) (w : Waiter) : DWord :=
  match (if w.kind == .fetch then findNode s g.part g.node else none) with
  | some n => n.la.code + BitVec.ofNat 64 ((w.va - n.la.code).toNat / 12 * 12)
  | none => w.va

/-- A fault at the end of a walk, raised for one waiting entry at its region entry (R251, R316); a page without W is charged to a holdings
instruction at its IX, since it is found at translation (R187). A unit raises its own. -/
def waiterFault (k : TrapKind) (s : State) (w : Waiter) : State :=
  match waiterEntry s w, getGroup s w.core w.slot with
  | some e, some g =>
    let btab := match findNode s g.part g.node with | some n => n.la.btab | none => []
    takeFault s w.core w.slot e.mask (!(w.kind == .hold && k == .protection)) k (waitedAddr s g w) 0 btab
  | _, _ => post s (unitWalked s true w)

/-- A walk taken from its die; the first miss that waited for a walker begins its walk (R251). -/
def endWalk (s : State) (die id : Nat) : State :=
  let s0 := modDie s die fun d => { d with walks := d.walks.filter fun w => w.id != id }
  let s1 := post s0 (tlbiWaits s0)
  match (getDie s1 die).walks[walkLimit - 1]? with
  | some w => if walkLimit < (getDie s die).walks.length then post s1 [.pageWalkComplete die w.id] else s1
  | none => s1

/-- A walk found a leaf: the die's TLB holds it, and each waiter whose access it does not permit faults (R250, R251). -/
def walkLeaf (s : State) (die : Nat) (w : Walk) (base size : Nat) (pte : DWord) : State :=
  let s1 := modDie (endWalk s die w.id) die fun d =>
    { d with stlb := tlbAdd 8192 d.stlb { part := w.part, base := base, size := size, pte := pte } }
  w.waiters.foldl (fun s q =>
    let s2 := if w.again && decide (q.slot < bteWaiter) then modCore s q.core fun k => { k with l1 := [] } else s
    if permits pte q.kind && regionOf (paOf 0 base pte q.va) != .device then post s2 (unitWalked s2 false q) else waiterFault .protection s2 q) s1

/-- A walk by a die's walkers: what an entry names as the next table is taken from the die's page-walk cache where that has it, whether or not the entry
has changed since (R252), and is to be kept in it otherwise. -/
def walkDie (s : State) (die part va : Nat) : Nat → Nat → WalkRes × List (Nat × Nat)
  | 0, tbl => (match walkEntry s va 0 tbl with | .error r => r | .ok _ => .malformed, [])
  | l + 1, tbl =>
    let k := part * 2 ^ 60 + tbl + 8 * (va / 2 ^ levelShift (l + 1) % 512)
    match assoc (getDie s die).pwc k with
    | some t => walkDie s die part va l t
    | none => match walkEntry s va (l + 1) tbl with
      | .error r => (r, [])
      | .ok t =>
        let q := walkDie s die part va l t
        (q.1, (k, t) :: q.2)

/-- A walk of a partition's tables by a die's walkers. -/
def dieWalk (s : State) (die part : Nat) (va : DWord) : WalkRes × List (Nat × Nat) :=
  walkDie s die part (va.toNat % 2 ^ 57) 4 (rootOf (getPart s part))

/-- What a walk has read kept in the page-walk cache. -/
def keepTables (s : State) (die : Nat) (l : List (Nat × Nat)) : State :=
  if l.isEmpty then s else modDie s die fun d => { d with pwc := l.foldl (fun m p => mapSet 0 m p.1 p.2) d.pwc }

/-- Pages that an engine or the front end waits for refused: they meet the fault when they go on (R369, R371). -/
def denyPage (s : State) (w : Walk) : State :=
  if w.waiters.any fun q => decide (fillWaiter ≤ q.slot) then modPart s w.part fun p => { p with denied := w.page :: p.denied.filter (· != w.page) } else s

/-- A walk of a die ends (R250, R251): a leaf serves its waiters; with page requests enabled an invalid entry, or a page of the
host in page-exclusive mode, asks the host once (R369, R371); otherwise PAGE, once for each waiter. -/
def execPageWalkComplete (die walk : Nat) (s : State) : Out :=
  match (getDie s die).walks.find? fun w => w.id == walk with
  | none => .next s
  | some w =>
    if w.asked then .next s else
    let va : DWord := match w.waiters.head? with | some q => q.va | none => BitVec.ofNat 64 (w.page * 65536)
    let ask := fun (s : State) =>
      modDie s die fun d => { d with walks := d.walks.map fun v => if v.id == walk then { v with asked := true } else v }
    let r := dieWalk s die w.part va
    let s := keepTables s die r.2
    match r.1 with
    | .leaf base size pte =>
      if (getPart s w.part).hmode && pte.getLsbD 6 then .next (ask s) else .next (walkLeaf s die w base size pte)
    | .invalid =>
      if (getPart s w.part).prq && !w.again then .next (ask s)
      else .next (w.waiters.foldl (waiterFault .page) (denyPage (endWalk s die walk) w))
    | .malformed => .next (w.waiters.foldl (waiterFault .page) (endWalk s die walk))
    | .poisoned => .next (w.waiters.foldl (fun s q => if q.slot < 64 then consume s q.core q.slot 1 else post s (unitWalked s false q)) (endWalk s die walk))

/-- The host answers a page request (R369, R371): on success the walk restarts once, otherwise PAGE. -/
def execPageRequestResponse (die walk : Nat) (ok : Bool) (s : State) : Out :=
  match (getDie s die).walks.find? fun w => w.id == walk with
  | none => .next s
  | some w =>
    if !w.asked then .next s
    else if ok then
      .next (post (modDie s die fun d =>
        { d with walks := d.walks.map fun v => if v.id == walk then { v with asked := false, again := true } else v })
        [.pageWalkComplete die walk])
    else .next (w.waiters.foldl (waiterFault .page) (denyPage (endWalk s die walk) w))

end Sys2Proof.Machine
end

