-- ==== Sys2Proof/Machine/Atomics.lean ====
section
/-! DEFINITION. Read-modify-writes: ATOM, ATOML, RED (spec/09 R160) and BOP (spec/15 R246, R258), at their issue and where they
are performed; writes and reads at a home slice or channel unit (R243, R246, R247). -/
namespace Sys2Proof.Machine

/-! ## Values -/

/-- The minimum or maximum of two values of an integer type (R160). -/
def intPick (t : Ty) (isMax : Bool) (a b : DWord) : DWord := if decide (opVal t b < opVal t a) == !isMax then b else a

/-- The new value of an atomic from the old one, its operand and the replacement of `.cas` (R160). -/
def atomNew (op : Aop) (t : Ty) (old a b : DWord) : DWord :=
  match op with
  | .add => if t = .f32 then enc64 (numAdd fmtF32 .rne (fval .f32 old) (fval .f32 a)) else wrapTo t (opVal t old + opVal t a)
  | .min => intPick t false old a
  | .max => intPick t true old a
  | .and => old &&& a
  | .or => old ||| a
  | .xor => old ^^^ a
  | .exch => cutTo t a
  | .cas => if cutTo t old = cutTo t a then cutTo t b else old

/-- The new value of a word under BOP from its old one and the operands (R258). -/
def bopNew (op : BopKind) (rm : Rm) (t : Ty) (m a b : DWord) : DWord :=
  if t = .f32 then
    match op with
    | .add => enc64 (numAdd fmtF32 rm (fval .f32 m) (fval .f32 a))
    | .mad => enc64 (numFma fmtF32 rm (fval .f32 a) (fval .f32 b) (fval .f32 m))
    | .min => enc64 (minmaxEnc fmtF32 false false (m.toNat % 2 ^ 32) (a.toNat % 2 ^ 32))
    | .max => enc64 (minmaxEnc fmtF32 true false (m.toNat % 2 ^ 32) (a.toNat % 2 ^ 32))
  else
    match op with
    | .add => wrapTo t (opVal t m + opVal t a)
    | .mad => wrapTo t (opVal t m + opVal t a * opVal t b)
    | .min => intPick t false m a
    | .max => intPick t true m a

/-! ## At issue -/

/-- Whether an order releases, or acquires (R160). -/
def ordRel : Ord → Bool
  | .rel | .ar => true
  | _ => false
/-- Whether an order acquires (R160). -/
def ordAcq : Ord → Bool
  | .acq | .ar => true
  | _ => false

/-- The replacement value of `.cas` for a lane: the register after the compare value, or the pair after its pair (R160). -/
def casNew (g : Group) (t : Ty) (z : Opnd) (lane : Nat) : DWord :=
  match z with
  | .v n => if tyIs64 t then pairOf (vlane g (n.val + 2) lane) (vlane g (n.val + 3) lane) else (vlane g (n.val + 1) lane).setWidth 64
  | _ => 0

/-- The entries of a read-modify-write, one line's share each (R326). -/
def shareEntries (x : Ctx) (mk : List (Nat × Nat × DWord × DWord) → MemOp) (req : Option Nat) (a b : Nat → DWord)
    (accs : List LaneAcc) : List SbEntry :=
  (linesOf accs).filterMap fun ln =>
    let l := accs.filter fun q => q.pa / 128 == ln
    l.head?.map fun q => mkEntry x (mk (l.map fun p => (p.lane, p.pa, a p.lane, b p.lane))) q.va q.pa q.home req

/-- The load-value entry that a leader's issue of this instruction has left for its shadow (R128). -/
def leaderLeft (x : Ctx) : Option LvEnt := (lvTake (instrIx x.e) x.act x.g.lvq).map (·.1)

/-- An operation with a reply sent off: its entries, and the reply that is out. A shadow issues it once its leader has, and shares
the leader's reply (R128). -/
def sendOff (x : Ctx) (p : Pend) (mk : Option Nat → List SbEntry) (s : State) : Res :=
  if x.g.shadow == .shadow then
    match leaderLeft x with
    | none => .waitGroup s
    | some e =>
      let s1 := modGroup s x.core x.slot fun g => { g with lvq := g.lvq.erase e }
      match e.req with
      | some q => .late (addPend (emit x (mk (some q)) s1) x.core x.slot { p with id := q }) q
      | none => .fin (emit x (mk none) (if p.nw then s1 else modGroup s1 x.core x.slot fun g => dstGroup g p.dst (tyIs64 p.ty) p.act e.val)) e.val
  else
    let q := freshReq s
    .late (addPend (emit x (mk (some q.1)) q.2) x.core x.slot { p with id := q.1 }) q.1

/-- ATOM's own part (R160). -/
def atomBody (c : Enc) (op : Aop) (ord : Ord) (ty : Ty) (x : Ctx) (v : Srcs) (s : State) : Res :=
  if x.act = 0 then done s else
  match transLanes s x.core x.slot x.g.part x.e.mask (accWidth ty) .rdwr (globalLanes x { v with z := zeroRow } c.imm) with
  | .trap f va => .trap f va
  | .wait s1 => .wait s1
  | .ok accs s1 =>
    if ordRel ord && !reached s1 x .device then .waitGroup s1
    else if !bufRoom s1 x (linesOf accs).length then .waitGroup s1
    else sendOff x { id := 0, kind := .atom (ordAcq ord), mask := x.e.mask, dst := c.x, ty := ty, nw := c.nw, act := x.act,
                     lanes := accs, tag := tagOf x }
      (fun q => shareEntries x (fun l => .rmw op ty l true) q (lane64 v.z) (casNew x.g ty c.z) accs) s1

/-- ATOM (R160). -/
def execAtom (c : Enc) (op : Aop) (ord : Ord) (ty : Ty) (s : State) : Out :=
  issue (.atom c op ord ty) c (atomBody c op ord ty) s

/-- RED's own part (R160). -/
def redBody (c : Enc) (op : Aop) (ord : Ord) (ty : Ty) (x : Ctx) (v : Srcs) (s : State) : Res :=
  if x.act = 0 then done s else
  match transLanes s x.core x.slot x.g.part x.e.mask (accWidth ty) .rdwr (globalLanes x { v with z := zeroRow } c.imm) with
  | .trap f va => .trap f va
  | .wait s1 => .wait s1
  | .ok accs s1 =>
    if ordRel ord && !reached s1 x .device then .waitGroup s1
    else if !bufRoom s1 x (linesOf accs).length then .waitGroup s1
    else done (emit x (shareEntries x (fun l => .rmw op ty l false) none (lane64 v.z) (casNew x.g ty c.z) accs) s1)

/-- RED (R160). -/
def execRed (c : Enc) (op : Aop) (ord : Ord) (ty : Ty) (s : State) : Out := issue (.red c op ord ty) c (redBody c op ord ty) s

/-- ATOML's lanes performed in order: the core after them, the bytes written and the old values (R156, R160). -/
def atomlRun (op : Aop) (t : Ty) (w : Nat) (a b : Nat → DWord) (k : Core) :
    List (Nat × Nat) → List (Nat × Byte) × List (Nat × DWord)
  | [] => ([], [])
  | (l, ad) :: r =>
    let old := BitVec.ofNat 64 (lread k ad w)
    let bs := bytesAt ad w (atomNew op t old (a l) (b l)).toNat
    let q := atomlRun op t w a b (lputs k bs) r
    (bs ++ q.1, (l, old) :: q.2)

/-- ATOML's own part (R160). -/
def atomlBody (c : Enc) (op : Aop) (ord : Ord) (ty : Ty) (x : Ctx) (v : Srcs) (s : State) : Res :=
  let w := accWidth ty
  let k := getCore s x.core
  let lanes := localLanes x { v with z := zeroRow } c.imm
  match firstBad k w lanes with
  | some a => .trap .protection (localFaddr a)
  | none =>
    match touch s x.core (tagOf x) (lanes.map fun p => (p.2, w)) with
    | some s1 => .waitGroup s1
    | none =>
      if ordRel ord && !reached s x .core then .waitGroup s else
      let q := atomlRun op ty w (lane64 v.z) (casNew x.g ty c.z) k lanes
      let r := rowOf fun l => (assoc q.2 l).getD 0
      let s1 := localPut (writeDst x c.x (tyIs64 ty) c.nw r s) x.core q.1
      .fin (if lanes.any fun p => lpoisoned k p.2 w then consume s1 x.core x.slot 3 else s1) r

/-- ATOML (R160). -/
def execAtoml (c : Enc) (op : Aop) (ord : Ord) (ty : Ty) (s : State) : Out :=
  issue (.atoml c op ord ty) c (atomlBody c op ord ty) s

/-- The word addresses of a vector at a base (R258). -/
def vectorLanes (x : Ctx) (base : DWord) : List (Nat × DWord) :=
  (lanesOf x.act).map fun l => (l, base + BitVec.ofNat 64 (4 * l))

/-- BOP's own part (R258). -/
def bopBody (c : Enc) (op : BopKind) (rm : Rm) (ty : Ty) (x : Ctx) (v : Srcs) (s : State) : Res :=
  if x.act = 0 then done s else
  match transLanes s x.core x.slot x.g.part x.e.mask 4 .bop (vectorLanes x (lane64 v.y 0 + c.imm.signExtend 64)) with
  | .trap f va => .trap f va
  | .wait s1 => .wait s1
  | .ok accs s1 =>
    if !bufRoom s1 x (linesOf accs).length then .waitGroup s1
    else done (emit x (shareEntries x (fun l => .bop op rm ty l) none (lane64 v.x) (lane64 v.z) accs) s1)

/-- BOP (R258). -/
def execBop (c : Enc) (op : BopKind) (rm : Rm) (ty : Ty) (s : State) : Out := issue (.bop c op rm ty) c (bopBody c op rm ty) s

/-! ## Writes at the home point -/

/-- The waits on words of a line, which a write of it re-evaluates (R164), and those on a promise there, which a plain write may settle (R187, R202). -/
def globalWaits (s : State) (line : Nat) : List Instr :=
  s.cores.flatMap fun k => k.2.slots.flatMap fun p => p.2.front.flatMap fun e =>
    match e.wait with
    | some (.word _ _ _ _ ls _ _) =>
      if ls.any fun w => !w.loc && w.seen.isNone && w.addr / 128 == line then [.waitWordEvaluation k.1 p.1 (lowLane e.mask)] else []
    | some (.pwait _ _ _ _ pa _) => if pa / 128 == line then [.waitWordEvaluation k.1 p.1 (lowLane e.mask)] else []
    | _ => []

/-- The semaphore waits of the front end, which the home slice's report of a write re-reads (R295). -/
def semWaits (s : State) : List Instr :=
  s.parts.flatMap fun p => p.2.queues.flatMap fun q =>
    if q.2.pkts.any fun k => k.started && k.body.extractLsb' 0 8 == 5 then [.waitsemReread p.1 q.1] else []

/-- The completions of block-transfer engines that wait for a control block on a line (R351). -/
def ringWaits (s : State) (line : Nat) : List Instr :=
  s.parts.flatMap fun p => p.2.bte.filterMap fun q =>
    match q.2.run with
    | some r =>
      (match engTrans s p.1 r.post.c .read with
       | .ok pa _ => if r.ended && r.awaiting == 0 && pa / 128 == line then some (.bteCompletion p.1 q.1) else none
       | _ => none)
    | none => none

/-- What a write to a line sets off. -/
def reportWrite (s : State) (line : Nat) : State := post s (globalWaits s line ++ semWaits s ++ ringWaits s line)


/-- Bytes written at a home point, with its reports. -/
def homeWrite (s : State) (line : Nat) (l : List (Nat × Byte)) : State := reportWrite (memPuts s l) line

/-! ## Operations of the cluster write queue -/

/-- The physical addresses of `n` bytes at a virtual address, those that an engine can write. -/
def vaPas (s : State) (part : Nat) (va : DWord) (n : Nat) : List Nat :=
  (List.range n).filterMap fun k => match engTrans s part (va + BitVec.ofNat 64 k) .write with | .ok pa _ => some pa | _ => none

/-- A write by an engine or the front end, with its reports; `none`, with nothing written, where any part fails or meets a live holding word
(R187). -/
def engWrite (s : State) (part : Nat) (va : DWord) (n v : Nat) : Option State :=
  let pas := vaPas s part va n
  if hitsLive s (pas.map fun a => (a, 1)) then none else
  (vaWrite s part va n v).map fun t => ((pas.map fun a => a / 128).dedup).foldl reportWrite t

/-- The bytes that a plain write or read-modify-write touches: address and length. -/
def touched (e : SbEntry) : List (Nat × Nat) :=
  match e.op with
  | .store _ bs => bs.map fun b => (b.1, 1)
  | .rmw _ t l _ => l.map fun p => (p.2.1, accWidth t)
  | .bop _ _ _ l => l.map fun p => (p.2.1, 4)
  | _ => []

/-- The operation's kind in a remote-fault record (R324). -/
def opkOf (e : SbEntry) : Nat :=
  match e.op with
  | .store .. => 1
  | .rmw _ _ _ true => 2
  | .rmw _ _ _ false => 3
  | .bop .. => 4
  | .redt .. => 5
  | .hold .. => 6
  | _ => 1

/-- The source code of an uncorrectable error in memory (R342). -/
def srcOf (pa : Nat) : Nat := match regionOf pa with | .bank _ _ => 2 | _ => 1

/-- A consumption charged to the group of a slot if that still is one of a block, else to any resident group of the block, else to the block itself
(R327). -/
def consumeBlock (s : State) (part : Nat) (node : DWord) (blk core slot src : Nat) (pa : Nat := 0) : State :=
  let mine := fun (g : Group) => g.part == part && g.node == node && g.blk == blk
  match getGroup s core slot with
  | some g => if mine g then consume s core slot src pa else other mine
  | none => other mine
where
  /-- The consumption charged to the first resident group that a test admits; with none, to the block. -/
  other (mine : Group → Bool) : State :=
    match (s.cores.flatMap fun k => (k.2.slots.filter fun p => mine p.2).map fun p => (k.1, p.1)).head? with
    | some p => consume s p.1 p.2 src pa
    | none =>
      post (modPart s part fun p => { p with consumed := p.consumed ++ [{ node := node, blk := blk, core := core, slot := slot, src := src, pa := pa }] })
        [.containment core fillWaiter src pa]

/-- A consumption charged to the block of an entry (R327). -/
def consumeEntry (s : State) (e : SbEntry) (pa : Nat) : State := consumeBlock s e.part e.node e.blk e.core e.slot (srcOf pa) (pa / 128 * 128)

/-- The lanes of a line that a reply no longer waits on; the answer goes back to the core from the line's home, with four payload flits for a line
read (R264). -/
def lineAnswered (s : State) (core slot req line home pay : Nat) (f : Pend → Pend) : State :=
  match getGroup s core slot with
  | none => s
  | some g =>
    if (pendOf g req).isNone then s else
    sendAnswer (modPend s core slot req fun p => f { p with lanes := p.lanes.filter fun a => a.pa / 128 != line }) g (.reply slot req) pay home core slot

/-- The reply of an entry's line, where it owes one. -/
def entryAnswered (s : State) (e : SbEntry) (f : Pend → Pend) : State :=
  match e.req with
  | some q => lineAnswered s e.core e.slot q e.line e.home 1 f
  | none => s

/-- Lanes of an atomic performed in order: memory and the old values (R156, R160). -/
def rmwRun (op : Aop) (t : Ty) : State → List (Nat × Nat × DWord × DWord) → State × List (Nat × DWord)
  | s, [] => (s, [])
  | s, (l, pa, a, b) :: r =>
    let w := accWidth t
    let old := BitVec.ofNat 64 (memRead s pa w)
    let q := rmwRun op t (memWrite s pa w (atomNew op t old a b).toNat) r
    (q.1, (l, old) :: q.2)

/-- Lanes of a BOP performed (R258). -/
def bopRun (op : BopKind) (rm : Rm) (t : Ty) : State → List (Nat × Nat × DWord × DWord) → State
  | s, [] => s
  | s, (_, pa, a, b) :: r =>
    bopRun op rm t (memWrite s pa 4 (bopNew op rm t (BitVec.ofNat 64 (memRead s pa 4)) a b).toNat) r

/-- A plain write or read-modify-write performed at its home point: refused (R187, R250, R245, R238), or a consumption of a
poisoned line it reads (R243), or done. -/
def performPlain (s : State) (e : SbEntry) : State :=
  let pa := e.line * 128
  match (match refusalOf (getPart s e.part).lay pa with | some r => some r | none => if hitsLive s (touched e) then some 3 else none) with
  | some sub => entryAnswered (refuse s (originOf e ((touched e).headD (pa, 0)).1) (e.home / 64) sub (opkOf e)) e fun p => { p with refused := true }
  | none =>
    match e.op with
    | .store _ bs => reportWrite ((if e.ms then keepPoison s e.line (bs.map (·.1)).dedup.length else id) (memPuts s bs)) e.line
    | .rmw op t l _ =>
      if linePoisoned s pa then entryAnswered (consumeEntry s e pa) e fun p => { p with poisoned := true } else
      let q := rmwRun op t s l
      entryAnswered (reportWrite q.1 e.line) e fun p => { p with got := p.got ++ q.2 }
    | .bop op rm t l =>
      if linePoisoned s pa then consumeEntry s e pa else reportWrite (bopRun op rm t s l) e.line
    | _ => s

/-! ## Lines of a load -/

/-- One line of a load read at its home point (R243): held behind an operation of the queue, refused, or read; a cacheable one is
kept in the L1 as its variant directs (R157). -/
def readLine (s : State) (core slot req line : Nat) : State :=
  match (getGroup s core slot).bind fun g => (pendOf g req).map fun p => (g, p) with
  | none => s
  | some (g, p) =>
    let l := p.lanes.filter fun a => a.pa / 128 == line
    match l.head? with
    | none => s
    | some a =>
      let w := accWidth p.ty
      let cl := clusterOf core
      let bytes := l.flatMap fun a => (List.range w).map fun j => a.pa + j
      if bytes.any (lowHeld s cl) then post s [.sliceOperation (.read core slot req line)] else
      match refusalOf (getPart s g.part).lay (line * 128) with
      | some sub =>
        lineAnswered (refuse s { core := core, part := g.part, node := g.node, blk := g.blk, grp := g.grp, tag := p.tag, va := a.va,
                                 pa := a.pa, home := a.home } (a.home / 64) sub 7) core slot req line a.home 0 fun p => { p with refused := true }
      | none =>
        let bad := linePoisoned s (line * 128) && bytes.any (fun b => wqByte s cl b == .none)
        let isTile := match p.kind with | .tile .. => true | _ => false
        if bad && !isTile then
          lineAnswered (consume s core slot (srcOf (line * 128)) (line * 128)) core slot req line a.home 0 fun p => { p with poisoned := true }
        else
          let vals := l.map fun a => (a.lane, BitVec.ofNat 64 ((if bad then 2 ^ 63 else 0) + (List.range w).foldr (fun j acc => (lowByte s cl (a.pa + j)).toNat + 256 * acc) 0))
          let s1 := match p.kind with
            | .load .l2 => s
            | .load v => if cacheable a && !linePoisoned s (line * 128) then modCore s core fun k => l1Fill k line (lowLine s cl line) (v == .ev) else s
            | _ => s
          lineAnswered s1 core slot req line a.home 4 fun p => { p with got := p.got ++ vals }

end Sys2Proof.Machine
end

