-- ==== Sys2Proof/Machine/Redt.lean ====
section
/-! DEFINITION. Reduction trees (spec/15 R253 to R257, R259): REDT, its nodes, and the checks of a tree descriptor that BGID makes
(spec/22 R359). -/
namespace Sys2Proof.Machine

/-! ## Descriptors -/

/-- Bits `hi` to `lo` of a number. -/
def field (n hi lo : Nat) : Nat := n / 2 ^ lo % 2 ^ (hi + 1 - lo)

/-- The fields of a tree descriptor (R253). -/
structure Tree where
  ty : Nat
  rm : Nat
  nleaf : Nat
  nnode : Nat
  timeout : Nat
  nodes : DWord
  leaves : DWord
  child : DWord
  result : DWord

/-- A tree descriptor from its 64 bytes (R253). -/
def treeOf (d : Record) : Tree :=
  let n := d.toNat
  { ty := field n 19 16, rm := field n 21 20, nleaf := field n 63 32, nnode := field n 95 64, timeout := field n 127 96,
    nodes := BitVec.ofNat 64 (field n 191 128), leaves := BitVec.ofNat 64 (field n 255 192), child := BitVec.ofNat 64 (field n 319 256),
    result := BitVec.ofNat 64 (field n 383 320) }

/-- A 32-bit word at a virtual address; 0 where it cannot be read. -/
def word32 (s : State) (part : Nat) (va : DWord) : Nat := (vaRead s part va 4).getD 0

/-- The address of a node's entry (R253). -/
def nodeAt (t : Tree) (i : Nat) : DWord := t.nodes + BitVec.ofNat 64 (16 * i)
/-- A node's FIRST, COUNT and PARENT (R253). -/
def nodeFirst (s : State) (part : Nat) (t : Tree) (i : Nat) : Nat := word32 s part (nodeAt t i)
/-- A node's COUNT. -/
def nodeCount (s : State) (part : Nat) (t : Tree) (i : Nat) : Nat := word32 s part (nodeAt t i + 4) % 128
/-- A node's PARENT. -/
def nodeParent (s : State) (part : Nat) (t : Tree) (i : Nat) : Nat := word32 s part (nodeAt t i + 8)
/-- The node that lists a leaf (R253). -/
def leafParent (s : State) (part : Nat) (t : Tree) (l : Nat) : Nat := word32 s part (t.leaves + BitVec.ofNat 64 (4 * l))
/-- An entry of the child list: whether it is a leaf, and its index (R253). -/
def childAt (s : State) (part : Nat) (t : Tree) (k : Nat) : Bool × Nat :=
  let w := word32 s part (t.child + BitVec.ofNat 64 (4 * k))
  (w / 2 ^ 31 % 2 == 1, w % 2 ^ 31)
/-- The children of a node in list order (R253). -/
def childrenOf (s : State) (part : Nat) (t : Tree) (i : Nat) : List (Bool × Nat) :=
  (List.range (nodeCount s part t i)).map fun j => childAt s part t (nodeFirst s part t i + j)

/-! ## The checks of BGID.red (R359) -/

/-- Whether an area is mapped for an access on pages that are not memory-side (R246, R359). -/
def areaOk (s : State) (part : Nat) (va : DWord) (len : Nat) (k : AccKind) : Bool :=
  (0 :: ((List.range (len / 65536 + 1)).map fun j => min (65536 * j) (len - 1)) ++ [len - 1]).all fun o =>
    match engTrans s part (va + BitVec.ofNat 64 o) k with
    | .ok _ pte => !pte.getLsbD 5
    | _ => false

/-- Whether every node reaches the root by its PARENTs: the tree has no cycle (R253). -/
def reachesRoot (s : State) (part : Nat) (t : Tree) : Nat → Nat → Bool
  | 0, _ => false
  | f + 1, i => i == 0 || reachesRoot s part t f (nodeParent s part t i)

/-- The shape of R253: entries well formed, every leaf and non-root node listed once, by the node that it names. -/
def shapeOk (s : State) (part : Nat) (t : Tree) : Bool :=
  let nodes := List.range t.nnode
  let kids := nodes.flatMap fun i => (childrenOf s part t i).map fun c => (i, c)
  (nodes.all fun i =>
    let hi := word32 s part (nodeAt t i + 4) / 128
    let n := nodeCount s part t i
    hi == 0 && word32 s part (nodeAt t i + 12) == 0 && 1 ≤ n && n ≤ 64 &&
    (if i = 0 then nodeParent s part t i == 0xFFFFFFFF else decide (nodeParent s part t i < t.nnode)) && reachesRoot s part t t.nnode i) &&
  kids.length == t.nleaf + t.nnode - 1 &&
  (kids.all fun p => if p.2.1 then decide (p.2.2 < t.nleaf) && leafParent s part t p.2.2 == p.1
    else decide (p.2.2 < t.nnode) && p.2.2 != 0 && nodeParent s part t p.2.2 == p.1) &&
  decide ((kids.map fun p => p.2).dedup.length = kids.length)

/-- Why a tree descriptor is rejected, as WHY of R359; 0 when it is accepted. The counts are checked before the areas that they measure. -/
def treeWhy (s : State) (part : Nat) (d : Record) : Nat :=
  let n := d.toNat
  let t := treeOf d
  if field n 7 0 != 0x0B || field n 15 8 != 0 || field n 31 22 != 0 || field n 511 384 != 0 then 1
  else if t.nleaf = 0 || 2 ^ 24 < t.nleaf || t.nnode = 0 || 65536 ≤ t.nnode - 1 then 4
  else if !(t.ty = 0 || t.ty = 2 || t.ty = 4) || (t.ty != 4 && t.rm != 0) || t.nodes.toNat % 128 != 0 || t.result.toNat % 32 != 0 then 3
  else if !(areaOk s part t.nodes (16 * t.nnode) .read && areaOk s part t.leaves (4 * t.nleaf) .read &&
    areaOk s part t.child (4 * (t.nleaf + t.nnode - 1)) .read && areaOk s part t.result 32 .write) then 2
  else if !shapeOk s part t then 3 else 0

/-- The addresses at which the pages of a tree's areas are touched, where its counts are in range (R253, R359). -/
def treePages (d : Record) : List DWord :=
  let t := treeOf d
  if t.nleaf = 0 || 2 ^ 24 < t.nleaf || t.nnode = 0 || 65536 ≤ t.nnode - 1 then [] else
  areaPages t.nodes (16 * t.nnode) ++ areaPages t.leaves (4 * t.nleaf) ++ areaPages t.child (4 * (t.nleaf + t.nnode - 1)) ++ areaPages t.result 32

/-! ## Values -/

/-- The rounding mode of a code (R50). -/
def rmOfCode : Nat → Rm
  | 0 => .rne | 1 => .rtz | 2 => .rdn | _ => .rup

/-- The sum of two values at a node (R73). -/
def redtAdd (t : Tree) (a b : DWord) : DWord :=
  if t.ty = 4 then enc64 (numAdd fmtF32 (rmOfCode t.rm) (fval .f32 a) (fval .f32 b))
  else if t.ty = 2 then a + b else (a.setWidth 32 + b.setWidth 32 : Word).setWidth 64

/-- The fold of a node's arrived children in list order; a NaN becomes the one of its format (R73). -/
def redtFold (t : Tree) : List DWord → DWord
  | [] => 0
  | a :: r =>
    let v := r.foldl (redtAdd t) a
    if t.ty = 4 then enc64 (if fval .f32 v == .nan then fmtF32.nan else v.toNat % 2 ^ 32) else v

/-! ## Nodes -/

/-- An identifier of a partition. -/
def identOf (s : State) (part i : Nat) : Ident := mapGet {} (getPart s part).idents i
/-- An identifier changed. -/
def modIdent (s : State) (part i : Nat) (f : Ident → Ident) : State :=
  modPart s part fun p => { p with idents := mapSet {} p.idents i (f (mapGet {} p.idents i)) }

/-- The in-flight count lowered; a PENDING identifier whose count reaches 0 is FREE (R358). -/
def lessInFlight (n : Nat) (i : Ident) : Ident :=
  let k := i.infl - n
  if i.st == .pending && k == 0 then { gen := i.gen } else { i with infl := k }

/-- A node in use. -/
def rnodeOf (i : Ident) (k : Nat) : RNode := (assoc i.nodes k).getD {}
/-- A node in use replaced. -/
def rnodePut (i : Ident) (k : Nat) (r : RNode) : Ident := { i with nodes := (k, r) :: i.nodes.filter fun p => p.1 != k }

/-- A contribution discarded and counted (R256). -/
def lateContrib (s : State) (part ident : Nat) : State :=
  modIdent (modPart s part fun p => { p with late := p.late + 1 }) part ident (lessInFlight 1)

/-- The root's delivery (R255): VALUE, INCN and RMASK first and STATUS last. -/
def deliverRoot (s : State) (part ident : Nat) (t : Tree) (v : DWord) (inc : Bool) (incn : Nat) (rmask : Nat) : State :=
  let s1 := modIdent s part ident fun i => { i with delivered := true }
  let s2 := (engWrite s1 part t.result 8 v.toNat).getD s1
  let s3 := (engWrite s2 part (t.result + 12) 20 (recordOf [(0, incn), (32, rmask)])).getD s2
  (engWrite s3 part (t.result + 8) 4 (if inc then 2 else 1)).getD s3

/-- A node flushes (R254): the fold of what has arrived goes to its parent, or is delivered. -/
def flushNode (s : State) (part ident k : Nat) (timedOut : Bool) : State :=
  let i := identOf s part ident
  let t := treeOf i.desc
  let r := rnodeOf i k
  let n := nodeCount s part t k
  let here := (List.range n).filterMap fun j => (assoc r.vals j).map fun v => (j, v)
  let missing := decide (here.length < n)
  let inc := r.bad || missing || here.any fun p => p.2.2.1
  let incn := here.foldl (fun a p => a + p.2.2.2) (if timedOut then 1 else 0)
  let v := redtFold t (here.map fun p => p.2.1)
  let s1 := modIdent s part ident fun i => lessInFlight here.length (rnodePut i k { r with flushed := true, due := none })
  if k = 0 then
    let rmask := (List.range n).foldl (fun m j =>
      match assoc r.vals j with
      | some q => if q.2.1 then m + 2 ^ j else m
      | none => m + 2 ^ j) 0
    deliverRoot s1 part ident t v inc incn rmask
  else
    let s2 := modIdent s1 part ident fun i => { i with infl := i.infl + 1 }
    post (modPart s2 part fun p => { p with contribs := p.contribs ++
      [{ ident := ident, leaf := false, idx := k, node := nodeParent s part t k, val := v, inc := inc, incn := incn }] })
      [.redtContributionArrival part]

/-- The child slot of a contribution at its node. -/
def slotOf (s : State) (part : Nat) (t : Tree) (c : Contrib) : Option Nat :=
  (childrenOf s part t c.node).findIdx? fun q => q == (c.leaf, c.idx)

/-- A contribution arrives at its node (R254, R256). -/
def arriveContrib (s : State) (part : Nat) (c : Contrib) : State :=
  let i := identOf s part c.ident
  let t := treeOf i.desc
  let r := rnodeOf i c.node
  match slotOf s part t c with
  | none => lateContrib s part c.ident
  | some j =>
    if r.flushed || i.delivered then lateContrib s part c.ident else
    match assoc r.vals j with
    | some old =>
      if old.1 = c.val then modIdent s part c.ident (lessInFlight 1)
      else lateContrib (modIdent s part c.ident fun i => rnodePut i c.node { r with bad := true }) part c.ident
    | none =>
      let home := match engTrans s part (nodeAt t c.node) .read with | .ok pa pte => homeOf (getPart s part).lay pa pte / 64 | _ => 0
      let due := match r.due with
        | some d => some d
        | none => if t.timeout = 0 then none else some (home, contextClock s part home + t.timeout)
      let r1 := { r with vals := r.vals ++ [(j, (c.val, c.inc, c.incn))], due := due }
      let s1 := modIdent s part c.ident fun i => rnodePut i c.node r1
      if r1.vals.length = nodeCount s part t c.node then flushNode s1 part c.ident c.node false else s1

/-- The oldest contribution or partial on its way arrives at its node (R254). -/
def execRedtContributionArrival (part : Nat) (s : State) : Out :=
  match (getPart s part).contribs with
  | [] => .next s
  | c :: t => .next (arriveContrib (modPart s part fun p => { p with contribs := t }) part c)

/-- A node's timer reaches TIMEOUT (R254): it flushes what has arrived. It does not count while the context is halted or pre-empted. -/
def execRedtNodeTimeout (part ident node : Nat) (s : State) : Out :=
  let r := rnodeOf (identOf s part ident) node
  if r.flushed || r.vals.isEmpty || r.due.isNone || (getPart s part).clkStop.isSome then .next s
  else .next (flushNode s part ident node true)

/-! ## REDT -/

/-- The lanes of `act` with their leaves. -/
def leafLanes (x : Ctx) (v : Srcs) : List (Nat × Nat) := (lanesOf x.act).map fun l => (l, (loWord (lane64 v.x l)).toNat)

/-- One contribution's entry: it goes to the slice that homes its node's entry (R253, R326), and belongs to the binding that its identifier has now
(R375). -/
def redtEntry (s : State) (x : Ctx) (v : Srcs) (ident : Nat) (t : Tree) (p : Nat × Nat) : SbEntry :=
  let va := nodeAt t (leafParent s x.g.part t p.2)
  let e := match engTrans s x.g.part va .read with
    | .ok pa pte => mkEntry x (.redt ident p.2 (lane64 v.z p.1)) va pa (homeOf (getPart s x.g.part).lay pa pte) none
    | _ => mkEntry x (.redt ident p.2 (lane64 v.z p.1)) va 0 0 none
  { e with gen := (identOf s x.g.part ident).gen }

/-- REDT's own part (R259). -/
def redtBody (rm : Rm) (ty : Ty) (x : Ctx) (v : Srcs) (s : State) : Res :=
  if x.act = 0 then done s else
  let ident := (loWord (lane64 v.y 0)).toNat
  let i := identOf s x.g.part ident
  let t := treeOf i.desc
  let leaves := (leafLanes x v).map fun p => p.2
  if i.st != .bound || i.mcast then .trap .protection 0
  else if tyCode ty != t.ty || rmOfCode t.rm != rm then .trap .illegalOperand 0
  else if (leaves.any fun l => decide (t.nleaf ≤ l)) || decide (leaves.dedup.length ≠ leaves.length) then .trap .illegalOperand 0
  else if !reached s x .device then .waitGroup s
  else if !bufRoom s x leaves.length then .waitGroup s
  else done (emit x ((leafLanes x v).map (redtEntry s x v ident t)) s)

/-- REDT (R259). -/
def execRedt (c : Enc) (rm : Rm) (ty : Ty) (s : State) : Out := issue (.redt c rm ty) c (redtBody rm ty) s

end Sys2Proof.Machine
end

