-- ==== Sys2Proof/Machine/Bte.lean ====
section
/-! DEFINITION. Block-transfer engines (spec/22 R347 to R357): descriptors, transfers, completion rings and fences; leave for large copies
(spec/20 R336); the identifiers of R358 to R360; and the instructions BCOPY, BFENCE, BGID, BGFREE. -/
namespace Sys2Proof.Machine

/-! ## Descriptors (R348, R349) -/

/-- The fields of a descriptor. -/
structure BDesc where
  kind : Nat
  redop : Nat
  ety : Nat
  rm : Nat
  ssp : Nat
  dsp : Nat
  imf : Bool
  comm : Nat
  peer : Nat
  src : DWord
  dst : DWord
  len : Nat
  tag : Nat
  cimm : Nat
  resv : Bool

/-- A descriptor from its 64 bytes. -/
def descOf (r : Record) : BDesc :=
  let n := r.toNat
  { kind := field n 7 0, redop := field n 9 8, ety := field n 13 10, rm := field n 15 14, ssp := field n 17 16, dsp := field n 19 18,
    imf := n.testBit 20, comm := field n 29 24, peer := field n 47 32, src := BitVec.ofNat 64 (field n 127 64),
    dst := BitVec.ofNat 64 (field n 191 128), len := field n 231 192, tag := field n 319 256, cimm := field n 351 320,
    resv := field n 23 21 != 0 || field n 31 30 != 0 || field n 63 48 != 0 || field n 255 232 != 0 || field n 511 352 != 0 }

/-- The bytes of an element of a reduction (R348). -/
def elemWidth (ety : Nat) : Nat := if ety = 5 || ety = 6 then 2 else 4

/-- Whether an element type may stand in a reduction (R348). -/
def etyOk (ety : Nat) : Bool := ety == 0 || ety == 1 || ety == 4 || ety == 5 || ety == 6

/-- A communicator of a partition. -/
def commOf (s : State) (part c : Nat) : Comm := mapGet {} (getPart s part).comms c

/-- Whether a rank of a communicator exists (R361). -/
def rankOk (s : State) (part c r : Nat) : Bool := decide (c < 64) && decide (r < (commOf s part c).nrank)

/-- A destination as an entry of a multicast list names it: space, address, rank (R359). -/
def destOf (e : Nat) : Nat × DWord × Nat := (field e 65 64, BitVec.ofNat 64 (field e 63 0), field e 95 80)

/-- The addresses of the entries of a multicast descriptor's list (R359). -/
def listAddrs (d : Record) : List DWord :=
  (List.range (field d.toNat 31 16)).map fun i => BitVec.ofNat 64 (field d.toNat 127 64 + 16 * i)

/-- Whether a destination of a multicast cannot be one (R349, R359). -/
def destBad (s : State) (part comm : Nat) (d : Nat × DWord × Nat) : Bool := d.1 == 3 || (d.1 == 2 && !rankOk s part comm d.2.2)

/-- Whether a descriptor has a format error (R349), the list of a multicast apart. -/
def formatBad (s : State) (part : Nat) (b : BDesc) : Bool :=
  let w := elemWidth b.ety
  let id := identOf s part b.peer
  b.kind != 0x0C || b.resv || b.len = 0 || b.ssp = 3 || (b.imf && b.dsp != 2) || (b.ssp = 2 && (b.dsp != 0 || b.redop != 0)) ||
  (b.redop != 0 && (b.dsp = 1 || b.dsp = 3)) || (if b.redop = 0 then b.ety != 0 else !etyOk b.ety) || (b.rm != 0 && decide (b.ety < 4)) ||
  (b.redop != 0 && (b.src.toNat % w != 0 || b.dst.toNat % w != 0 || b.len % w != 0)) ||
  ((b.ssp = 2 || b.dsp = 2) && !rankOk s part b.comm b.peer) ||
  (b.dsp = 3 && (id.st != .bound || !id.mcast))

/-! ## Queues -/

/-- A BTE queue. -/
def bteOf (s : State) (part q : Nat) : BteQ := mapGet {} (getPart s part).bte q
/-- A BTE queue changed. -/
def modBte (s : State) (part q : Nat) (f : BteQ → BteQ) : State :=
  modPart s part fun p => { p with bte := mapSet {} p.bte q (f (mapGet {} p.bte q)) }
/-- The run of a queue changed. -/
def modRun (s : State) (part q : Nat) (f : BRun → BRun) : State := modBte s part q fun b => { b with run := b.run.map f }

/-- Whether a queue stands still: it has stopped, the squall line is up and has reached it or found it idle, or its partition is being pre-empted or
quiesced, or is (R338, R354). -/
def bteHeld (s : State) (part q : Nat) : Bool :=
  let p := getPart s part
  (bteOf s part q).stopped || (p.squall && !p.unitsLeft.contains (.bte q)) || !(p.st == .running || p.st == .halting)

/-- The other partition that a queue's engine serves (R347). -/
def otherOf (part : Nat) : Nat := (part + 4) % 8

/-- The engine of a queue: BTE `q` of I/O die `part` mod 4 (R347). -/
def engineKey (part q : Nat) : Nat := 16 * (part % 4) + q

/-- Whether a queue has a descriptor that moves bytes or may. -/
def bteBusy (s : State) (part q : Nat) : Bool :=
  !bteHeld s part q && match (bteOf s part q).run with | some r => !r.ended | none => false

/-- Whether a queue's engine serves the other partition's queue now: it is in the middle of a descriptor there, or it is that queue's turn (R347). -/
def engineAway (s : State) (part q : Nat) : Bool :=
  let o := otherOf part
  if (match (bteOf s part q).run with | some r => !r.ended | none => false) then bteBusy s o q && mapGet part s.bteTurn (engineKey part q) == o
  else bteBusy s o q || (mapGet o s.bteTurn (engineKey part q) == part && !bteHeld s o q && (bteOf s o q).run.isNone &&
    match (bteOf s o q).items.head? with | some (.post _) => true | _ => false)

/-- The buffers of a partition's cores tried again, once a queue may have room. -/
def kickPart (s : State) (part : Nat) : State :=
  post s (s.cores.flatMap fun k => if k.2.part != part then [] else k.2.bufs.map fun b => Instr.storeBufferRelease k.1 b.blk)

/-- Whether an item is the fence of a number. -/
def isFence (n : Nat) : BItem → Bool
  | .fence m _ => m == n
  | .post _ => false

/-- The queues that a fence mask names. -/
def maskQueues (mask : Nat) : List Nat := (List.range 16).filter fun q => mask.testBit q

/-- A fence at the head of every queue it names, with nothing running there, leaves them all (R352). -/
def passFence (s : State) (part q : Nat) : State :=
  let b := bteOf s part q
  match b.items.head?, b.run with
  | some (.fence n m), none =>
    if (maskQueues m).all fun j =>
        (bteOf s part j).run.isNone && (match (bteOf s part j).items.head? with | some i => isFence n i | none => false) then
      post ((maskQueues m).foldl (fun s j => modBte s part j fun b => { b with items := b.items.drop 1 }) s)
        ((maskQueues m).map fun j => .bteDescriptorStart part j)
    else s
  | _, _ => s

/-- A post accepted into a queue with its sequence number (R347, R352); `none` where the queue is full. -/
def bteAccept (s : State) (part q die : Nat) (node d c rbase : DWord) (rlog : Nat) : Option (Word × State) :=
  let b := bteOf s part q
  if 64 ≤ (b.items.filter fun i => match i with | .post _ => true | .fence .. => false).length then none else
  some (b.seq, post (modBte s part q fun b =>
    { b with seq := b.seq + 1, items := b.items ++ [.post { seq := b.seq, d := d, c := c, rbase := rbase, rlog := rlog, node := node, die := die }] })
    [.bteDescriptorStart part q])

/-- A fence entry placed in every queue that a mask names, in one step (R352, R357). -/
def bteFence (s : State) (part mask : Nat) : State :=
  let n := (getPart s part).fences
  let s1 := (maskQueues mask).foldl (fun s q => modBte s part q fun b => { b with items := b.items ++ [.fence n mask] }) s
  post (modPart s1 part fun p => { p with fences := n + 1 }) ((maskQueues mask).map fun q => .bteDescriptorStart part q)

/-! ## Bytes -/

/-- How a source chunk reads: bytes with their poison, and the poisoned addresses. -/
inductive SrcRead where
  | ok (l : List (Byte × Bool)) (bad : List Nat)
  | fault (k : TrapKind) (faddr : DWord)

/-- A device address as a transfer reaches it: its physical address, or the fault that ends the descriptor (R353). -/
def bteTrans (s : State) (part : Nat) (va : DWord) (k : AccKind) : Except TrapKind (Option Nat) :=
  match engTrans s part va k with
  | .fault f => .error f
  | .poisoned => .ok none
  | .ok pa _ => if (refusalOf (getPart s part).lay pa).isSome then .error .protection else .ok (some pa)

/-- Device bytes read for a transfer. -/
def readDevice (s : State) (part : Nat) (va : DWord) : Nat → SrcRead
  | 0 => .ok [] []
  | n + 1 =>
    match bteTrans s part va .read with
    | .error f => .fault f va
    | .ok p =>
      match readDevice s part (va + 1) n with
      | .fault f a => .fault f a
      | .ok l bad => match p with
        | some pa => if linePoisoned s pa then .ok ((0, true) :: l) (pa :: bad) else .ok ((memByte s pa, false) :: l) bad
        | none => .ok ((0, true) :: l) bad

/-- A byte marked poisoned (R353). -/
def poisonByte (s : State) (pa : Nat) : State :=
  { s with poison := mapSet 0 s.poison (pa / 128) (mapGet 0 s.poison (pa / 128) ||| (1#128 <<< (pa % 128))) }

/-- The physical addresses of a destination chunk, or its fault (R187, R353). -/
def destPas (s : State) (part : Nat) (k : AccKind) (va : DWord) : Nat → Except (TrapKind × DWord) (List Nat)
  | 0 => .ok []
  | n + 1 =>
    match bteTrans s part va k with
    | .error f => .error (f, va)
    | .ok none => .error (.page, va)
    | .ok (some pa) =>
      if hitsLive s [(pa, 1)] then .error (.protection, va) else
      match destPas s part k (va + 1) n with
      | .error e => .error e
      | .ok l => .ok (pa :: l)

/-- Bytes written at a destination, the poisoned ones with poison (R353), with the reports of the lines. -/
def putBytes (s : State) (l : List (Nat × Byte × Bool)) : State :=
  let s1 := memPuts s (l.map fun p => (p.1, p.2.1))
  let s2 := l.foldl (fun s p => if p.2.2 then poisonByte s p.1 else s) s1
  ((l.map fun p => p.1 / 128).dedup).foldl reportWrite s2

/-- Bytes written from a virtual address on, at their physical addresses (R350): a line of an MS page is one write of its channel unit, which clears no
poison unless it is the whole line (R247, R344). -/
def putAt (s : State) (part : Nat) (va : DWord) (l : List (Nat × Byte × Bool)) : State :=
  let ms := l.zipIdx.filter fun p => pageMs s part (va + BitVec.ofNat 64 p.2)
  ((ms.map fun p => p.1.1 / 128).dedup).foldl (fun t ln =>
    let here := (ms.map (·.1)).filter fun p => p.1 / 128 == ln
    if here.any fun p => p.2.2 then t else keepPoison s ln (here.map (·.1)).dedup.length t) (putBytes s l)

/-- The little-endian number of some bytes. -/
def bytesNum (l : List Byte) : Nat := l.foldr (fun b acc => b.toNat + 256 * acc) 0

/-- The type of an element type code (R348). -/
def etyTy (ety : Nat) : Ty := (tyOfCode ety).getD .i32

/-- One element reduced (R350). -/
def redElem (redop ety rm a b : Nat) : Nat :=
  let t := etyTy ety
  if 4 ≤ ety then
    if redop = 1 then numAdd (fmtOf t) (rmOfCode rm) (valNum (fmtOf t) a) (valNum (fmtOf t) b)
    else minmaxEnc (fmtOf t) (redop == 3) false a b
  else
    let x : DWord := BitVec.ofNat 64 a
    let y : DWord := BitVec.ofNat 64 b
    if redop = 1 then (a + b) % 2 ^ 32 else (intPick t (redop == 3) x y).toNat % 2 ^ 32

/-- Elements of a destination reduced with the source's bytes (R350). -/
def redBytes (s : State) (redop ety rm : Nat) (pas : List Nat) (src : List (Byte × Bool)) : List (Nat × Byte × Bool) :=
  let w := elemWidth ety
  (List.range (pas.length / w)).flatMap fun j =>
    let ps := (pas.drop (j * w)).take w
    let ss := (src.drop (j * w)).take w
    let bad := (ss.any fun b => b.2) || ps.any fun p => linePoisoned s p
    let v := redElem redop ety rm (bytesNum (ps.map (memByte s))) (bytesNum (ss.map fun b => b.1))
    ps.zipIdx.map fun p => (p.1, BitVec.ofNat 8 (v / 256 ^ p.2), bad)

/-! ## Transfers -/

/-- The bytes that a chunk may move: one line of a device destination, else what lies within one line of the source and of every device destination of a
multicast, one page of each host address, and one packet (R350, R353, R354). -/
def chunkLen (b : BDesc) (dests : List (Nat × DWord × Nat)) (done : Nat) : Nat :=
  let lines := (if b.ssp = 0 && b.dsp != 0 then [b.src] else []) ++ (dests.filter fun d => d.1 == 0).map fun d => d.2.1
  let pages := (if b.ssp = 1 then [b.src] else []) ++ (dests.filter fun d => d.1 == 1).map fun d => d.2.1
  pages.foldl (fun n a => min n (4096 - (a.toNat + done) % 4096))
    (lines.foldl (fun n a => min n (128 - (a.toNat + done) % 128)) (min 4096 (b.len - done)))

/-- The fault code of a completion record (R351). -/
def faultCode : TrapKind → Nat
  | .page => 7
  | _ => 6

/-- How a peer entry reads (R361): its queue pair and port as one number, the peer's key and its buffer; not at all; or with a reserved field that is not
zero, or uncorrectable, so that it is no entry (R5). -/
inductive PeerRead where
  | ok (qp : Nat) (pkey : Word) (rbase : DWord)
  | fault (k : TrapKind) (faddr : DWord)
  | bad

/-- Whether the I/O die of a queue pair, which bits 28 and 27 of its number name (R361), has state for it: for 4,096 of them at most (R29, R367). -/
def qpRoom (s : State) (qp : Nat) : Bool :=
  (s.qps.any fun p => p.1 == qp) || decide ((s.qps.filter fun p => p.1 / 2 ^ 27 == qp / 2 ^ 27).length < 4096)

/-- The address of the peer entry of a rank (R361). -/
def peerAddr (s : State) (part comm rank : Nat) : DWord := (commOf s part comm).ptab + BitVec.ofNat 64 (32 * rank)

/-- The peer entry of a rank (R361); one that names a queue pair for which its I/O die has no state left is none (R29, log 72). -/
def peerEntry (s : State) (part comm rank : Nat) : PeerRead :=
  match readDevice s part (peerAddr s part comm rank) 32 with
  | .fault k a => .fault k a
  | .ok l bad =>
    let n := bytesNum (l.map fun b => b.1)
    if !bad.isEmpty || (l.any fun b => b.2) || field n 31 29 != 0 || field n 255 128 != 0 || !qpRoom s (field n 28 0) then .bad
    else .ok (field n 28 0) (BitVec.ofNat 32 (field n 63 32)) (BitVec.ofNat 64 (field n 127 64))

/-- What the first peer entry that cannot be used makes of a descriptor: STATUS, FCODE and FADDR (R351, R353, R361). -/
def peerProblem (s : State) (part comm : Nat) (ranks : List Nat) : Option (Nat × Nat × DWord) :=
  ranks.findSome? fun k => match peerEntry s part comm k with
    | .ok .. => none
    | .fault f a => some (1, faultCode f, a)
    | .bad => some (2, 0, 0)

/-- The ranks that a descriptor reaches (R350). -/
def ranksOf (b : BDesc) (dests : List (Nat × DWord × Nat)) : List Nat :=
  (if b.ssp = 2 then [b.peer] else []) ++ (dests.filter fun d => d.1 == 2).map fun d => d.2.2

/-- Requests sent to peers: each one's queue pair has its state on its I/O die from now on (R29, R367). -/
def sendRequests (s : State) (l : List Rdma) : State :=
  { s with rdma := s.rdma ++ l, qps := l.foldl (fun m r => mapSet {} m r.qp { mapGet {} m r.qp with live := true }) s.qps }

/-- The requests by which bytes go to the peers among some destinations, from the byte `done` on (R367): each names the identifier of a multicast. -/
def peerSends (s : State) (part q : Nat) (b : BDesc) (dests : List (Nat × DWord × Nat)) (done : Nat) (bytes : List Byte) : List Rdma :=
  dests.filterMap fun d =>
    if d.1 != 2 then none else
    match peerEntry s part b.comm d.2.2 with
    | .ok qp key _ => some
      { qp := qp, part := part, q := q, isColl := false, isRead := false, dst := d.2.1 + BitVec.ofNat 64 done, len := bytes.length, pkey := key,
        data := bytes, imm := if b.imf then some (BitVec.ofNat 32 b.cimm) else none, ident := if b.dsp = 3 then some b.peer else none,
        bad := b.imf && b.cimm / 16 % 4 != 0 && !etyOk (b.cimm / 64 % 16) }
    | _ => none

/-- The packets of a multicast to its peers leave as its bytes move, counted by its identifier, and its completion waits for each one's
acknowledgement (R350, R358). -/
def sendPackets (s : State) (part q : Nat) (b : BDesc) (l : List Rdma) : State :=
  if l.isEmpty then s else
  modRun (sendRequests (if b.dsp = 3 then modIdent s part b.peer fun i => { i with infl := i.infl + l.length } else s) l) part q fun r =>
    { r with awaiting := r.awaiting + l.length }

/-- A descriptor's transfer ends: what was read for a peer goes out, and its completion waits for the acknowledgements; of several problems the first
one stands (R351, R353). -/
def endRun (s : State) (part q st fc : Nat) (fa : DWord) : State :=
  match (bteOf s part q).run with
  | none => s
  | some r =>
    let b := descOf r.desc
    let out := if b.dsp = 2 && r.bytesDone != 0 then peerSends s part q b r.dests 0 r.data else []
    let e := if r.status != 0 then (r.status, r.fcode, r.faddr) else
      match (if st = 0 then peerProblem s part b.comm (ranksOf b r.dests) else none) with
      | some e => e
      | none => (if st = 0 && r.poisoned then 4 else st, fc, fa)
    let s1 := modRun (sendPackets s part q b out) part q fun r =>
      { r with ended := true, status := e.1, fcode := e.2.1, faddr := e.2.2, data := [] }
    post (if st = 1 then clearDenied s1 part else s1) [.bteCompletion part q, .bteDescriptorStart (otherOf part) q]

/-- The poisoned lines that a transfer read, in the error logs (R353). -/
def logPoison (s : State) (part : Nat) (pas : List Nat) : State :=
  ((pas.map fun p => p / 128 * 128).dedup).foldl (fun s pa =>
    let die := homeOf (getPart s part).lay pa (physPte pa) / 64
    logError s die (ueReport die (srcOf pa) 0 0 0 pa)) s

/-- The device destinations of a chunk, or the first fault among them. -/
def allDests (s : State) (part : Nat) (k : AccKind) (done n : Nat) :
    List (Nat × DWord × Nat) → Except (TrapKind × DWord) (List (List Nat))
  | [] => .ok []
  | d :: t =>
    if d.1 != 0 then allDests s part k done n t else
    match destPas s part k (d.2.1 + BitVec.ofNat 64 done) n, allDests s part k done n t with
    | .ok l, .ok r => .ok (l :: r)
    | .error e, _ => .error e
    | _, .error e => .error e

/-- The request that a chunk makes for its source line, if that is the device's (R335). -/
def chunkReads (s : State) (part : Nat) (b : BDesc) (done : Nat) : List Request :=
  if b.ssp = 0 then requestsOf s part .read [b.src + BitVec.ofNat 64 done] else []

/-- The requests that a chunk makes at its device destinations (R335). -/
def chunkWrites (s : State) (part : Nat) (dests : List (Nat × DWord × Nat)) (done : Nat) : List Request :=
  requestsOf s part .write ((dests.filter fun d => d.1 == 0).map fun d => d.2.1 + BitVec.ofNat 64 done)

/-- The requests that a chunk makes on the device's side (R335). -/
def chunkRequests (s : State) (part : Nat) (b : BDesc) (dests : List (Nat × DWord × Nat)) (done : Nat) : List Request :=
  chunkReads s part b done ++ chunkWrites s part dests done

/-- The lines of a chunk counted on the links between their homes and the base tiles of the engine's I/O die (R28, R279). -/
def countChunk (part : Nat) (r : BRun) (b : BDesc) (dests : List (Nat × DWord × Nat)) (s : State) : State :=
  let tile := ioTile (part % 4)
  countLines part r.post.node tile true (chunkWrites s part dests r.bytesDone)
    (countLines part r.post.node tile false (chunkReads s part b r.bytesDone) s)

/-- How an access to a page of the host ends at its IOMMU, where the I/O die has no translation of it: what the host's tables hold is not in the machine
(R348, R353, log 4). -/
def hostFault (s : State) (part : Nat) (va : DWord) : Option TrapKind :=
  if s.ats.contains (part, va.toNat / 4096) then none
  else match Config.freeChoice s.free % 3 with
    | 1 => some .page
    | 2 => some .protection
    | _ => none

/-- Some accesses of the host's pages: the first that faults, and the state with the choices made and the translations cached (R348). -/
def hostPages (part : Nat) : List DWord → State → Option (TrapKind × DWord) × State
  | [], s => (none, s)
  | a :: t, s =>
    match hostFault s part a with
    | some k => (some (k, a), { s with free := s.free + 1 })
    | none => hostPages part t (if s.ats.contains (part, a.toNat / 4096) then s
        else { s with free := s.free + 1, ats := s.ats ++ [(part, a.toNat / 4096)] })

/-- The addresses of the host at which a chunk begins. -/
def hostAddrs (b : BDesc) (dests : List (Nat × DWord × Nat)) (done : Nat) : List DWord :=
  ((if b.ssp = 1 then [b.src] else []) ++ (dests.filter fun d => d.1 == 1).map fun d => d.2.1).map fun a => a + BitVec.ofNat 64 done

/-- The bytes of a chunk's source. -/
def readChunk (s : State) (part : Nat) (b : BDesc) (va : DWord) (n : Nat) : SrcRead :=
  if b.ssp = 0 then readDevice s part va n else .ok ((List.range n).map fun k => (Config.hostByte s.free (va.toNat + k), false)) []

/-- A chunk of a copy to a device destination, cut before a source line that faults (R353). -/
def cutChunk (s : State) (part : Nat) (b : BDesc) (va : DWord) (n : Nat) : Nat :=
  match readChunk s part b va n with
  | .fault _ a => let k := (BitVec.ofNat 64 (a.toNat / 128 * 128) - va).toNat; if 0 < k && k < n then k else n
  | .ok .. => n

/-- The parts of a chunk written at its device destinations (R350). -/
def putChunk (part : Nat) (b : BDesc) (done : Nat) (bytes : List (Byte × Bool)) : List ((Nat × DWord × Nat) × List Nat) → State → State
  | [], s => s
  | d :: t, s => putChunk part b done bytes t (putAt s part (d.1.2.1 + BitVec.ofNat 64 done)
      (if b.redop = 0 then d.2.zip (bytes.map fun p => (p.1, p.2)) else redBytes s b.redop b.ety b.rm d.2 bytes))

/-- The device's addresses at which a chunk touches a page. -/
def chunkPages (b : BDesc) (dests : List (Nat × DWord × Nat)) (done : Nat) : List DWord :=
  let n := chunkLen b dests done
  ((if b.ssp = 0 then [b.src] else []) ++ (dests.filter fun d => d.1 == 0).map fun d => d.2.1).flatMap fun a =>
    [a + BitVec.ofNat 64 done, a + BitVec.ofNat 64 (done + n - 1)]

/-- The pages for which a BTE asks the host before it goes on (R369, R371), if there are any: it waits for their answers. -/
def bteAsks (s : State) (part q die : Nat) (vas : List DWord) : Option State :=
  if !hostAsked s part then none else
  let l := vas.filter (mustAsk s part)
  if l.isEmpty then none
  else some (askPages s die part (fun va => { core := 16 * part + q, slot := bteWaiter, lanes := 0, kind := .read, va := va }) l)

/-- One chunk of the running descriptor moved (R350, R353), once the host has given the pages that it needs (R369, R371). -/
def moveChunk (s : State) (part q : Nat) (r : BRun) : State :=
  let b := descOf r.desc
  let dests := r.dests
  match bteAsks s part q r.post.die (chunkPages b dests r.bytesDone) with
  | some t => t
  | none =>
  let at_ := b.src + BitVec.ofNat 64 r.bytesDone
  let n := cutChunk s part b at_ (chunkLen b dests r.bytesDone)
  let h := hostPages part (hostAddrs b dests r.bytesDone) s
  match h.1, readChunk h.2 part b at_ n with
  | some f, _ => endRun h.2 part q 1 (faultCode f.1) f.2
  | none, .fault k a => endRun h.2 part q 1 (faultCode k) a
  | none, .ok bytes bad =>
    match issueAll h.2 part .bte (chunkRequests h.2 part b dests r.bytesDone) with
    | none => holdAll h.2 part .bte (chunkRequests h.2 part b dests r.bytesDone)
    | some s0 =>
    let s0 := if b.ssp = 0 then s0 else { s0 with free := s0.free + 1 }
    let isBad := bytes.any fun p => p.2
    let s1 := modRun (logPoison s0 part bad) part q fun r => { r with poisoned := r.poisoned || isBad }
    if isBad && b.dsp != 0 then endRun s1 part q 4 0 0 else
    match allDests s1 part (if b.redop = 0 then .write else .rdwr) r.bytesDone n dests with
    | .error (k, a) => endRun s1 part q 1 (faultCode k) a
    | .ok ls =>
      let s2 := putChunk part b r.bytesDone bytes ((dests.filter fun d => d.1 == 0).zip ls) s1
      let s2 := if b.dsp = 3 then sendPackets s2 part q b (peerSends s2 part q b dests r.bytesDone (bytes.map (·.1))) else s2
      let s3 := modRun s2 part q fun r => { r with bytesDone := r.bytesDone + n,
                                                   data := if b.dsp = 2 then r.data ++ bytes.map (·.1) else [] }
      countChunk part r b dests (if r.bytesDone + n = b.len then endRun s3 part q 0 0 0 else post s3 [.bteDescriptorStart part q])

/-! ## Leave (R336) -/

/-- Whether a die's controller can grant an estimate now. -/
def leaveFits (d : Die) (isPass : Bool) : Bool :=
  match d.leaveCap with
  | none => true
  | some cap => decide (d.committed + Config.leaveEstimate isPass ≤ cap)

/-- Leave given back, and the next request considered. -/
def giveLeave (s : State) (die : Nat) (isPass : Bool) : State :=
  let s1 := modDie s die fun d => { d with committed := d.committed - Config.leaveEstimate isPass }
  if (getDie s1 die).leaveq.isEmpty then s1 else post s1 [.leaveGrant die]

/-! ## The engine's events -/

/-- The list of a multicast as its engine reads it (R353, R359): its destinations in order, or STATUS, FCODE and FADDR of an entry that cannot be read;
an uncorrectable one ends the descriptor as an uncorrectable descriptor does (log 47). -/
def readList (s : State) (part : Nat) : List DWord → Except (Nat × Nat × DWord) (List (Nat × DWord × Nat))
  | [] => .ok []
  | a :: t =>
    match readDevice s part a 16 with
    | .fault k f => .error (1, faultCode k, f)
    | .ok l _ =>
      if l.any fun b => b.2 then .error (4, 0, 0) else
      match readList s part t with
      | .ok r => .ok (destOf (bytesNum (l.map fun b => b.1)) :: r)
      | .error e => .error e

/-- The destinations of a descriptor (R348, R350), the list of a multicast read as it starts. -/
def readDests (s : State) (part : Nat) (b : BDesc) : Except (Nat × Nat × DWord) (List (Nat × DWord × Nat)) :=
  if b.dsp = 3 then
    match readList s part (listAddrs (identOf s part b.peer).desc) with
    | .ok l => if l.any (destBad s part b.comm) then .error (2, 0, 0) else .ok l
    | e => e
  else .ok [(b.dsp, b.dst, b.peer)]

/-- A post becomes its queue's running descriptor. -/
def beginRun (s : State) (part q : Nat) (r : BRun) : State :=
  modBte { s with bteTurn := mapSet (part + 1) s.bteTurn (engineKey part q) part } part q fun b => { b with run := some r }

/-- A post ends as it starts, with a STATUS, FCODE and FADDR (R349, R351, R353). -/
def endStart (s : State) (part q : Nat) (p : BPost) (d : Record) (e : Nat × Nat × DWord) : State :=
  post (beginRun (clearDenied s part) part q { post := p, desc := d, ended := true, status := e.1, fcode := e.2.1, faddr := e.2.2 })
    [.bteCompletion part q, .bteDescriptorStart (otherOf part) q]

/-- The pages of what a descriptor names that is read as it starts: the list of a multicast, and, once that is known, the peer entries; and all of a
read's destination, for which nothing is asked once its data is on its way (R348, R359, R361). -/
def startPages (s : State) (part : Nat) (b : BDesc) : List DWord :=
  (if b.dsp = 3 then listAddrs (identOf s part b.peer).desc else []) ++
  (match readDests s part b with
   | .ok l => (ranksOf b l).flatMap fun k => [peerAddr s part b.comm k, peerAddr s part b.comm k + 31]
   | .error _ => []) ++
  if b.ssp = 2 then ((List.range (b.len / 65536 + 1)).map fun i => b.dst + BitVec.ofNat 64 (65536 * i)) ++ [b.dst + BitVec.ofNat 64 (b.len - 1)] else []

/-- The head post of a queue starts (R349, R352): torn down, it ends at once (R353); its descriptor is read and checked, with what it names; a large one
asks for leave (R336). What lies on pages that the host has to give is waited for (R369, R371). -/
def startPost (s : State) (part q : Nat) (p : BPost) : State :=
  if p.cancel then endStart s part q p (match readDevice s part p.d 64 with | .ok l _ => BitVec.ofNat 512 (bytesNum (l.map fun b => b.1)) | .fault .. => 0) (5, 0, 0)
  else
  match bteAsks s part q p.die [p.d] with
  | some t => t
  | none =>
  match readDevice s part p.d 64 with
  | .fault k a => endStart s part q p 0 (1, faultCode k, a)
  | .ok l bad =>
    let d : Record := BitVec.ofNat 512 (bytesNum (l.map fun b => b.1))
    let b := descOf d
    if l.any fun b => b.2 then endStart (logPoison s part bad) part q p 0 (4, 0, 0)
    else if formatBad s part b then endStart s part q p d (2, 0, 0)
    else match bteAsks s part q p.die (startPages s part b) with
    | some t => t
    | none =>
    match readDests s part b with
    | .error e => endStart s part q p d e
    | .ok dests =>
    match peerProblem s part b.comm (ranksOf b dests) with
    | some e => endStart s part q p d e
    | none =>
      let m := if b.dsp = 3 then (identOf s part b.peer).desc else 0
      let s1 := beginRun s part q { post := p, desc := d, mdesc := m, dests := dests }
      if 2 ^ 20 < b.len then
        post (modDie s1 p.die fun k => { k with leaveq := k.leaveq ++ [(1, part * 16 + q)] }) [.leaveGrant p.die]
      else post (modRun s1 part q fun r => { r with leave := true }) [.bteDescriptorStart part q]

/-- A peer's data asked for (R348, R367). -/
def startRead (s : State) (part q : Nat) (b : BDesc) : State :=
  match peerEntry s part b.comm b.peer with
  | .fault k a => endRun s part q 1 (faultCode k) a
  | .bad => endRun s part q 2 0 0
  | .ok qp key _ =>
    post (modRun (sendRequests s [{ qp := qp, part := part, q := q, isColl := false, isRead := true, dst := b.dst, len := b.len,
                                    src := b.src, pkey := key }]) part q
      fun r => { r with ended := true, awaiting := 1 }) [.bteDescriptorStart (otherOf part) q]

/-- A BTE queue goes on, once its engine serves it: a fence passes, the head post starts, or the running descriptor moves one packet (R347, R350, R352,
R354). -/
def execBteDescriptorStart (part q : Nat) (s : State) : Out :=
  let b := bteOf s part q
  if bteHeld s part q then .next s else
  match b.run with
  | some r =>
    if r.ended || !r.leave || engineAway s part q then .next s
    else
      let s := { s with bteTurn := mapSet (part + 1) s.bteTurn (engineKey part q) part }
      if (descOf r.desc).ssp = 2 then .next (startRead s part q (descOf r.desc)) else .next (moveChunk s part q r)
  | none =>
    match b.items.head? with
    | none => .next s
    | some (.fence _ _) => .next (passFence s part q)
    | some (.post p) => .next (if engineAway s part q then post s (if bteBusy s (otherOf part) q then [] else [.bteDescriptorStart (otherOf part) q])
        else startPost s part q p)

/-- A completion record (R351). -/
def completionRecord (r : BRun) : Nat :=
  recordOf [(0, r.status), (8, r.fcode), (32, r.post.seq.toNat), (64, r.bytesDone), (128, (descOf r.desc).tag), (192, r.faddr.toNat)]

/-- The queue after its running descriptor is complete. -/
def retireRun (s : State) (part q : Nat) (r : BRun) : State :=
  let b := descOf r.desc
  let s1 := modBte s part q fun k => { k with run := none, items := k.items.drop 1 }
  let s3 := if r.leave && 2 ^ 20 < b.len then giveLeave s1 r.post.die false else s1
  kickPart (post s3 [.bteDescriptorStart part q, .bteDescriptorStart (otherOf part) q, .nodeDone part r.post.node.toNat]) part

/-- Whether a completion ring's control block has a reserved field that is not zero: no engine acts on it then (R5, R351). -/
def ringBad (n : Nat) : Bool := field n 95 70 != 0 || field n 511 160 != 0

/-- The pages of a completion ring that a descriptor's completion touches. -/
def ringPages (r : BRun) : List DWord :=
  r.post.c :: if r.phase = 1 then [r.post.rbase + BitVec.ofNat 64 (32 * (r.tail % 2 ^ r.post.rlog))] else []

/-- A descriptor completes in its ring (R351) in three steps: it locks the control block, where it is not locked and the ring not full; it writes its
record; it counts the record and unlocks. A ring that cannot be reached, or whose control block is none, takes no record. -/
def execBteCompletion (part q : Nat) (s : State) : Out :=
  let b := bteOf s part q
  match b.run with
  | none => .next s
  | some r =>
    if !r.ended || r.awaiting != 0 || (r.phase == 0 && bteHeld s part q) then .next s
    else match bteAsks s part q r.post.die (ringPages r) with
    | some t => .next t
    | none =>
    if r.phase = 1 then
      let s1 := (engWrite s part (r.post.rbase + BitVec.ofNat 64 (32 * (r.tail % 2 ^ r.post.rlog))) 32 (completionRecord r)).getD s
      .next (post (modRun s1 part q fun r => { r with phase := 2 }) [.bteCompletion part q])
    else match vaRead s part r.post.c 64 with
    | none => .next (retireRun s part q r)
    | some n =>
      let head := field n 127 96
      let tail := field n 159 128
      let lock := fun (s : State) (on : Nat) => (engWrite s part (r.post.c + 8) 1 (field n 68 64 + 32 * on)).getD s
      if r.phase = 2 then
        .next (retireRun (lock ((engWrite s part (r.post.c + 16) 4 ((tail + 1) % 2 ^ 32)).getD s) 0) part q r)
      else if ringBad n then .next (retireRun s part q r)
      else if n.testBit 69 || decide (2 ^ r.post.rlog ≤ (tail + 2 ^ 32 - head) % 2 ^ 32) then .next s
      else .next (post (modRun (lock s 1) part q fun r => { r with phase := 1, tail := tail }) [.bteCompletion part q])

/-- A BTE's stop record (R354). -/
def bteStopRecord (part q : Nat) (r : BRun) : Nat :=
  recordOf [(0, 0x04), (8, part % 4), (16, q), (20, q), (32, r.post.seq.toNat), (64, r.bytesDone), (128, (descOf r.desc).tag)]

/-- A BTE stops at a packet boundary (R354): it records its running descriptor in the stop area of the node that posted it. -/
def stopBte (s : State) (part q : Nat) : State :=
  let b := bteOf s part q
  if b.stopped then s else
  let s1 := modBte s part q fun b => { b with stopped := true }
  match b.run with
  | none => s1
  | some r =>
    match findNode s1 part r.post.node with
    | some n => unitRecord s1 part n.la.stoparea 64 (bteStopRecord part q r)
    | none => s1

/-- A BTE stops when the squall line reaches it or its partition is pre-empted (R354, R308), or quiesces, of which it writes no record (R338). -/
def execBteStop (part q : Nat) (s : State) : Out :=
  let p := getPart s part
  if p.st == .quiescing && !p.squall then .next (modBte s part q fun b => { b with stopped := true })
  else if p.squall || (p.st != .running && p.st != .halted) then .next (stopBte s part q) else .next s

/-! ## Identifiers (R358 to R360) -/

/-- The checks of a multicast descriptor (R359); 0 when it is accepted. -/
def mcastWhy (s : State) (part : Nat) (d : Record) : Nat :=
  let n := d.toNat
  let cnt := field n 31 16
  let dl := BitVec.ofNat 64 (field n 127 64)
  if field n 7 0 != 0x0F || field n 15 8 != 0 || field n 63 32 != 0 || field n 511 128 != 0 then 1
  else if cnt = 0 || 64 < cnt then 4
  else if dl.toNat % 16 != 0 then 3
  else if !areaOk s part dl (16 * cnt) .read then 2
  else if (List.range cnt).any fun i =>
    let e := (vaRead s part (dl + BitVec.ofNat 64 (16 * i)) 16).getD 0
    field e 79 66 != 0 || field e 127 96 != 0 then 1
  else match readList s part (listAddrs d) with
    | .error _ => 2
    | .ok l => if l.any fun q => q.1 == 3 then 3 else 0

/-- The pages that BGID touches at the front end: its descriptor's, then those of the lists and areas that it names (R359). -/
def bindPages (s : State) (part : Nat) (mcast : Bool) (d : DWord) : List DWord :=
  d :: match vaRead s part d 64 with
    | none => []
    | some n => let r : Record := BitVec.ofNat 512 n; if mcast then listAddrs r else treePages r

/-- BGID at the front end (R358, R359): its status word, and the state with what it bound. -/
def bindIdent (s : State) (part ident : Nat) (mcast : Bool) (d : DWord) : Nat × State :=
  let i := identOf s part ident
  if i.st != .free then (1 + 2 ^ 16 * min 0xFFFF i.infl, s) else
  match vaRead s part d 64 with
  | none => (2 + 256 * 2, s)
  | some n =>
    let r : Record := BitVec.ofNat 512 n
    let why := if mcast then mcastWhy s part r else treeWhy s part r
    if why != 0 then (2 + 256 * why, s)
    else (0, modIdent s part ident fun i => { st := .bound, mcast := mcast, desc := r, gen := i.gen + 1 })

/-- BGFREE at the front end (R358, R360). -/
def freeIdent (s : State) (part ident : Nat) : State :=
  modIdent s part ident fun i => if i.st != .bound then i else if i.infl = 0 then { gen := i.gen } else { i with st := .pending }

/-! ## The instructions -/

/-- Whether an engine's operand address is not canonical or not 64-byte aligned (R280, R356, R359). -/
def badAddr (a : DWord) : Bool := !canonical a || a.toNat % 64 != 0

/-- How a control block reads at a BCOPY's issue, as a load (R356). -/
inductive CtlRead where
  | ok (rbase : DWord) (rlog : Nat) (s : State)
  | wait (s : State)
  | waitGroup (s : State)
  | trap (k : TrapKind) (faddr : DWord)
  | refused (s : State)

/-- RBASE and RLOG read from a control block (R356). -/
def readCtl (s : State) (x : Ctx) (c : DWord) : CtlRead :=
  match transLanes s x.core x.slot x.g.part x.e.mask 16 .read [(0, c)] with
  | .trap k a => .trap k a
  | .wait s1 => .wait s1
  | .ok accs s1 =>
    match accs.head? with
    | none => .waitGroup s1
    | some a =>
      if laneHeld s1 x.core x.g.blk 16 a then .waitGroup s1 else
      let cl := clusterOf x.core
      match foundValue (laneFound s1 x.core x.g.blk 16 a) with
      | some n => .ok (BitVec.ofNat 64 n) (field n 68 64) s1
      | none =>
        if (List.range 16).any fun j => lowHeld s1 cl (a.pa + j) then .waitGroup s1 else
        match refusalOf (getPart s1 x.g.part).lay a.pa with
        | some sub =>
          .refused (refuse s1 { core := x.core, part := x.g.part, node := x.g.node, blk := x.g.blk, grp := x.g.grp, tag := tagOf x, va := c,
                                pa := a.pa, home := a.home } (a.home / 64) sub 7)
        | none =>
          let n := (List.range 16).foldr (fun j acc => (lowByte s1 cl (a.pa + j)).toNat + 256 * acc) 0
          .ok (BitVec.ofNat 64 n) (field n 68 64)
            (if linePoisoned s1 a.pa then consume s1 x.core x.slot (srcOf a.pa) (a.pa / 128 * 128) else s1)

/-- A BCOPY posted (R356); only an X that is not 944 waits for its acceptance. -/
def bcopyPost (c : Enc) (d ctl rbase : DWord) (rlog : Nat) (x : Ctx) (s : State) : Res :=
  let e := fun req => [mkEntry x (.bcopy d ctl rbase rlog (c.imm.toNat % 16)) d 0 0 req]
  if rbase.toNat % 32 != 0 || rlog < 4 || 16 < rlog then .trap .illegalOperand 0
  else if !bufRoom s x 1 then .waitGroup s
  else if c.x == .zero then done (emit x (e none) s)
  else sendOff x { id := 0, kind := .post, mask := x.e.mask, dst := c.x, ty := .b32, nw := c.nw, act := x.act, tag := tagOf x } e s

/-- BCOPY's own part (R356); a shadow takes what the control block held from its queue (R128, R355). -/
def bcopyBody (c : Enc) (x : Ctx) (v : Srcs) (s : State) : Res :=
  if x.act = 0 then done s else
  let d := lane64 v.y (lowLane x.act)
  let ctl := lane64 v.z 0
  if badAddr d then .trap .protection d
  else if badAddr ctl then .trap .protection ctl
  else if x.g.shadow == .shadow then
    match lvTake (instrIx x.e) x.act x.g.lvq with
    | none => .waitGroup s
    | some (e, t) =>
      bcopyPost c d ctl (lane64 e.val 0) (lane64 e.val 1).toNat { x with g := { x.g with lvq := t } }
        (modGroup s x.core x.slot fun g => { g with lvq := g.lvq.erase e })
  else match readCtl s x ctl with
    | .trap k a => .trap k a
    | .wait s1 => .wait s1
    | .waitGroup s1 => .waitGroup s1
    | .refused s1 => done s1
    | .ok rbase rlog s1 =>
      if !bufRoom s1 x 1 then .waitGroup s1 else
      bcopyPost c d ctl rbase rlog x (lvPush s1 x.core x.slot x.g.shadow
        { ix := instrIx x.e, act := x.act, val := rowOf fun l => if l = 0 then rbase else if l = 1 then BitVec.ofNat 64 rlog else 0 })

/-- BCOPY (R356). -/
def execBcopy (c : Enc) (s : State) : Out := issue (.bcopy c) c (bcopyBody c) s

/-- An engine post without a reply. -/
def postOnly (op : MemOp) (va : DWord) (x : Ctx) (s : State) : Res :=
  if !bufRoom s x 1 then .waitGroup s else done (emit x [mkEntry x op va 0 0 none] s)

/-- BFENCE (R357). -/
def execBfence (c : Enc) (s : State) : Out :=
  issue (.bfence c) c (fun x v s =>
    let m := (loWord (lane64 v.y 0)).toNat
    if x.act = 0 then done s
    else if m = 0 || 2 ^ 16 ≤ m then .trap .illegalOperand 0
    else postOnly (.bfence m) 0 x s) s

/-- BGID's own part (R359). -/
def bgidBody (c : Enc) (mcast : Bool) (x : Ctx) (v : Srcs) (s : State) : Res :=
  let id := (loWord (lane64 v.z 0)).toNat
  let d := lane64 v.y 0
  if x.act = 0 then done s
  else if 255 < id then .trap .illegalOperand 0
  else if badAddr d then .trap .protection d
  else if !bufRoom s x 1 then .waitGroup s
  else sendOff x { id := 0, kind := .post, mask := x.e.mask, dst := c.x, ty := .b32, nw := c.nw, act := x.act, tag := tagOf x }
    (fun q => [mkEntry x (.bgid mcast id d) d 0 0 q]) s

/-- BGID (R359). -/
def execBgid (c : Enc) (mcast : Bool) (s : State) : Out := issue (.bgid c mcast) c (bgidBody c mcast) s

/-- BGFREE (R360). -/
def execBgfree (c : Enc) (s : State) : Out :=
  issue (.bgfree c) c (fun x v s =>
    let id := (loWord (lane64 v.y 0)).toNat
    if x.act = 0 then done s
    else if 255 < id then .trap .illegalOperand 0
    else postOnly (.bgfree id) 0 x s) s

/-- LAUNCH's own part (R280). -/
def launchBody (c : Enc) (x : Ctx) (v : Srcs) (s : State) : Res :=
  let a := lane64 v.y 0
  if x.act = 0 then done s
  else if badAddr a then .trap .protection a
  else if !reached s x .device then .waitGroup s
  else if !bufRoom s x 1 then .waitGroup s
  else sendOff x { id := 0, kind := .post, mask := x.e.mask, dst := c.x, ty := .b32, nw := c.nw, act := x.act, tag := tagOf x }
    (fun q => [mkEntry x (.launch a (c.imm.toNat % 64)) a 0 0 q]) s

/-- LAUNCH (R280). -/
def execLaunch (c : Enc) (s : State) : Out := issue (.launch c) c (launchBody c) s

end Sys2Proof.Machine
end

