-- ==== Sys2Proof/Machine/Place.lean ====
section
/-! DEFINITION. Placement: the resident limits and the carve (spec/08 R114, R115, spec/09 R143, spec/10 R172), a group's entry state
(spec/02 R25, spec/10 R170), and the die dispatchers (spec/16 R277 to R279, spec/17 R287, spec/19 R299, R300). -/
namespace Sys2Proof.Machine

/-! ## Limits and the carve -/

/-- Bytes of the export reservation per lattice group (R172). -/
def exportBytes (la : Launch) : Nat := 512 * la.ecount * (1 + 2 * la.dims) + 64

/-- The resident limit of a core in groups (R115, R172). -/
def residentLimit (la : Launch) : Nat :=
  let g := min 64 (la.regg * 17152 / (64 * la.regs + 288))
  let g := if la.redun then g / 2 else g
  if la.dims = 0 then g else min g (68608 * la.locg / exportBytes la)

/-- The export reservation in bytes (R172). -/
def reservation (la : Launch) : Nat :=
  if la.dims = 0 then 0 else (residentLimit la * exportBytes la + 267) / 268 * 268

/-- The watchdog counts of a core as it gives up the node that it holds: each node's count stays on the core (R310). -/
def keptCounts (k : Core) : SMap Nat := match k.node with | some a => mapSet 0 k.wdcs a.toNat k.wdc | none => k.wdcs

/-- A core as it takes the carve of a node (R143). -/
def carved (k : Core) (part : Nat) (n : Node) : Core :=
  { k with part := part, node := some n.addr, regg := n.la.regg, locg := n.la.locg, reserve := reservation n.la, lmem := [], lpoison := [],
           wins := [], fillq := [], fillRow := 0, fillFault := 0, fillFaddr := 0, l1 := [], accs := [], apoison := [], declared := none,
           mq := [], mirrors := [], inbound := [], wdc := mapGet 0 (keptCounts k) n.addr.toNat,
           wdcs := mapSet 0 (keptCounts k) n.addr.toNat 0 }

/-- The messages that stand at the router of a core, to be looked at again: an earlier node's are discarded once the core has another carve, and its
queues are empty (R271, R272). -/
def messagesAt (s : State) (core : Nat) : List Instr :=
  (s.packets.filter fun p => p.cls == .message && p.dst == core && !p.nak && nextHop s.failed p == .here).map fun p => .messageAccept p.id

/-- The carve of a node taken by a core that does not hold it (R143): the plane is emptied too (R209). R143 waits for the resident groups, and R218 lets
the matrix requests of an exited group complete: that the core does not wait for these, which may then run over the emptied plane, is the model's choice
(DESIGN CHOICE, log 77). -/
def takeCarve (s : State) (part : Nat) (n : Node) (core : Nat) : State :=
  let k := getCore s core
  if k.part == part && k.node == some n.addr then s else
  post (modCluster (setCore s core (carved k part n)) (clusterOf core) fun c => { c with planes := mapSet {} c.planes core {} }) (messagesAt s core)

/-! ## Groups in their entry state -/

/-- A group as it is placed (R25, R119, R170, R195). -/
def entryGroup (part : Nat) (n : Node) (blk grp : Nat) (role : Shadow) (age : Nat) : Group :=
  { part := part, node := n.addr, blk := blk, grp := grp, sregs := mapSets 0 [] ((List.range 32).zip n.args),
    front := [{ prio := prioOf n.la.btab n.la.entry, ix := n.la.entry, mask := allLanes, rgn := n.la.entry }],
    heirKind := n.la.hkind, heirGrp := n.la.hgrp, bank1 := if n.la.dims = 0 then {} else { label := some (-1) }, shadow := role, age := age }

/-- A group put into a slot, its shadow into the next one (R128); the placement table records it (R278). -/
def putPair (s : State) (part : Nat) (n : Node) (core slot blk grp : Nat) (g : Group) (h : Option Group) : State :=
  let s1 := setGroup s core slot g
  let s2 := match h with | some h => setGroup s1 core (slot + 1) h | none => s1
  modNode (modCore s2 core fun k => { k with age := k.age + 1 }) part n.addr fun m =>
    { m with placed := (m.placed.filter fun p => !(p.blk == blk && p.grp == grp)) ++
        [{ blk := blk, grp := grp, core := core, slot := slot,
           was := match m.placed.find? (fun p => p.blk == blk && p.grp == grp) with | some p => p.was | none => [] }] }

/-- A group placed in its entry state on a core, which takes the carve if it has to (R114, R143, R278). -/
def putGroup (s : State) (part : Nat) (n : Node) (core slot blk grp : Nat) : State :=
  let s1 := takeCarve s part n core
  let age := (getCore s1 core).age
  if n.la.redun then
    putPair s1 part n core slot blk grp (entryGroup part n blk grp .leader age) (some (entryGroup part n blk grp .shadow age))
  else putPair s1 part n core slot blk grp (entryGroup part n blk grp .none age) none

/-! ## Where blocks go -/

/-- The blocks of a node (R23). -/
def blockCount (la : Launch) : Nat := (la.levels.drop 3).foldl (fun a l => a * l.extent) 1

/-- The dies on which a partition has clusters, ascending. -/
def diesOf (l : Layout) : List Nat := (List.range 8).filter fun d => l.clusters.any fun k => k / 16 == d

/-- The home die of a node (R277). Where the address that homes it does not translate any more at its dispatch, on which R277 is silent, it is homed as
a node without one: on the lowest-numbered die with clusters, the model's choice (log 67). -/
def homeDie (s : State) (part : Nat) (n : Node) : Nat :=
  let p := getPart s part
  let low := (diesOf p.lay).headD 0
  match (match n.la.tiles.head? with | some a => some a | none => if n.la.argb = 0 then none else some n.la.args) with
  | none => low
  | some va => match engTrans s part va .read with
    | .ok pa pte => homeOf p.lay pa pte / 64
    | _ => low

/-- The first level that spreads a node over dies, as the number of blocks that stay together: a unit of a level of domain die or device (R277). Where several
levels have such a domain, on which R277 is silent, it is the innermost of them (DESIGN CHOICE, log 80). -/
def spreadOf (la : Launch) : Option Nat :=
  ((List.range la.levels.length).drop 2).findSome? fun k =>
    match la.levels[k]? with
    | some l => if l.domain = 4 || l.domain = 5 then some (blocksIn la k) else none
    | none => none

/-- The die to which a block falls (R277). -/
def dieOfBlock (s : State) (part : Nat) (n : Node) (blk : Nat) : Nat :=
  let dies := diesOf (getPart s part).lay
  let h := homeDie s part n
  let i := (dies.findIdx? fun d => decide (h ≤ d)).getD 0
  match spreadOf n.la with
  | none => dies[i]?.getD h
  | some per => dies[(i + blk / per) % dies.length]?.getD h

/-- The cores of a partition on a die, in ascending core number. -/
def coresOn (l : Layout) (die : Nat) : List Nat := sortBy ((coresOf l).filter fun c => dieOf c == die) fun a b => decide (a ≤ b)

/-- The slots of a core that lattice nodes other than one hold. -/
def slotsTaken (s : State) (part core : Nat) (n : Node) : Bool :=
  (getPart s part).nodes.any fun m => m.addr != n.addr && m.slots.any fun g => g / 64 == core

/-- The slots of a core that killed groups still hold, since the walks of their holdings are not over (R191). -/
def walkedSlots (s : State) (core : Nat) : List Nat :=
  s.dies.flatMap fun d => (d.2.estq.filter fun w => w.holds && w.gslot / 64 == core).map fun w => w.gslot % 64

/-- The slots of a core that are free for a node, in ascending order, no more than its limit leaves (R115, R143, R278). In a redundant
launch each is the even slot of a free pair (R128). -/
def freeSlots (s : State) (part : Nat) (n : Node) (core : Nat) : List Nat :=
  let k := getCore s core
  if k.vacating || k.stopped || !(getDie s (dieOf core)).powered || slotsTaken s part core n then [] else
  let mine : List Nat := (k.slots.map fun p => p.1) ++ walkedSlots s core
  if !mine.isEmpty && !(k.part == part && k.node == some n.addr) then [] else
  let used : List Nat := (mine ++ (n.slots.filter fun g => g / 64 == core).map fun g => g % 64).dedup
  let held := if n.la.redun then (used.filter fun x => x % 2 == 0).length else used.length
  ((List.range 64).filter fun x =>
    if n.la.redun then x % 2 == 0 && !used.contains x && !used.contains (x + 1) else !used.contains x).take (residentLimit n.la - held)

/-- Whether a block of a node stands on the die (R279). -/
def residentOn (n : Node) (die : Nat) : Bool := n.placed.any fun p => !p.exited && !p.killed && !p.saved && dieOf p.core == die

/-- Whether the dispatcher of a die holds a node back for this period (R279). -/
def heldBack (s : State) (part die : Nat) (n : Node) : Bool :=
  (getDie s die).heldNodes.contains (part, n.addr) && residentOn n die

/-- The blocks of a node that wait for placement on a die. -/
def waitingBlocks (s : State) (part die : Nat) (n : Node) : List Nat :=
  (List.range (blockCount n.la)).filter fun b =>
    !(n.placed.any fun p => p.blk == b) && !n.killedBlks.contains b && dieOfBlock s part n b == die

/-- Whether a node is in the ready pool or running (R299). -/
def dispatchable (n : Node) : Bool := n.st == 2 || n.st == 3

/-- The nodes of a partition in the order in which a dispatcher takes them: queue priority, then entry into the ready pool (R300). -/
def nodeOrder (p : Part) : List Node :=
  sortBy (p.nodes.filter dispatchable) fun a b =>
    let x := (mapGet {} p.queues a.queue).qprio
    let y := (mapGet {} p.queues b.queue).qprio
    if x ≠ y then decide (y < x) else decide (a.order ≤ b.order)

/-- Where a block can go now: slots in ascending `grp`, on the lowest-numbered core that takes it whole or, under a level 2 of domain die, on
the lowest-numbered cores with free slots (R278); never in a cluster that its relaunch avoids (R329), nor on a core kept for another node
(R143). -/
def blockPlace (s : State) (part die : Nat) (n : Node) (kept : List Nat) (blk : Nat) : Option (List (Nat × Nat)) :=
  let g := groupsPerBlock n.la
  let bad := (n.badClusters.filter fun b => b.1 == blk).map (·.2)
  let cs := (coresOn (getPart s part).lay die).filter fun c => !kept.contains c && !bad.contains (clusterOf c)
  let fr := cs.map fun c => (c, freeSlots s part n c)
  match fr.find? fun f => decide (g ≤ f.2.length) with
  | some f => some ((f.2.take g).map fun x => (f.1, x))
  | none =>
    match n.la.levels[2]? with
    | some l =>
      let all := (fr.flatMap fun f => f.2.map fun x => (f.1, x)).take g
      if l.domain = 4 && all.length = g then some all else none
    | none => none

/-- The node's record byte of STATE written (R299). -/
def writeState (s : State) (part : Nat) (addr : DWord) (v : Nat) : State := tryWrite s part (addr + 24) 1 v

/-- READY becomes RUNNING (R299, R300): the argument block is read once, and PTROOT and PSAVE take effect (R294). R25 leaves two points open, and both
are the model's choice: the last word of a block whose length is no multiple of 4 takes the bytes that remain, with zeros above them (log 65); a
block that can no longer be read, or a line of it that reads back uncorrectable, gives zeros (log 66). -/
def startNode (s : State) (part : Nat) (n : Node) : State :=
  if n.st ≠ 2 then s else
  let words := (List.range ((n.la.argb + 3) / 4)).map fun k =>
    BitVec.ofNat 32 ((vaRead s part (n.la.args + BitVec.ofNat 64 (4 * k)) (min 4 (n.la.argb - 4 * k))).getD 0)
  let s1 := writeState s part n.addr 3
  modNode (modPart s1 part fun p => { p with root := p.ptroot, saveBase := p.psave }) part n.addr fun m =>
    { m with st := 3, args := words }

/-- A block placed in some slots, with the conveyance of what its predecessor left it (R191, R278). -/
def placeBlock (s : State) (part : Nat) (n : Node) (blk : Nat) (l : List (Nat × Nat)) : State :=
  let s1 := startNode s part n
  let n1 := (findNode s1 part n.addr).getD n
  let s2 := l.zipIdx.foldl (fun s p => putGroup s part n1 p.1.1 p.1.2 blk p.2) s1
  if mapGet 0 n.relaunched blk = 0 then s2 else post s2 [.successorConveyance part n.addr.toNat blk]

/-- Whether the groups of a block may stand on several cores (R278). -/
def spansCores (la : Launch) : Bool := match la.levels[2]? with | some l => l.domain == 4 | none => false

/-- The die whose cores hold the slots of a lattice node's block: its home die, or under a level 2 of domain die the die to which the block falls
(R277, R287). -/
def grantDie (s : State) (part : Nat) (n : Node) (blk : Nat) : Nat := if spansCores n.la then dieOfBlock s part n blk else homeDie s part n

/-- The slots that one block of a lattice node is granted on a die, on cores that are not kept for another node: those of one core, or of several under
a level 2 of domain die (R143, R278, R287); never in a cluster that the block's relaunch avoids (R329). -/
def grantOf (s : State) (part die : Nat) (n : Node) (kept : List Nat) (blk : Nat) : Option (List Nat) :=
  let g := groupsPerBlock n.la
  let bad := (n.badClusters.filter fun b => b.1 == blk).map (·.2)
  let cs := (coresOn (getPart s part).lay die).filter fun c => !kept.contains c && !bad.contains (clusterOf c)
  let fr := (cs.map fun c => (c, freeSlots s part n c)).filter fun f => !f.2.isEmpty
  match fr with
  | [] => none
  | f :: _ =>
    let got := if !spansCores n.la then (f.2.take g).map fun x => (f.1, x)
      else match fr.find? fun f => decide (g ≤ f.2.length) with
        | some f => (f.2.take g).map fun x => (f.1, x)
        | none => (fr.flatMap fun f => f.2.map fun x => (f.1, x)).take g
    some (got.map fun p => gslotOf p.1 p.2)

/-- Whether a block of a lattice node is still to be granted slots: it has none, or it has been relaunched and every slot of its node lies in a cluster
that it avoids (R287, R329). -/
def wantsGrant (n : Node) (blk : Nat) : Bool :=
  !n.grantedBlks.contains blk ||
  ((n.badClusters.any fun b => b.1 == blk) && n.slots.all fun g => n.badClusters.any fun b => b.1 == blk && b.2 == clusterOf (g / 64))

/-- The slots of every block of a lattice node that can be granted some now (R278, R287). -/
def grantAll (s : State) (part : Nat) (addr : DWord) (kept : List Nat) : List Nat → State
  | [] => s
  | b :: t =>
    match findNode s part addr with
    | none => s
    | some n =>
      match (if wantsGrant n b then grantOf s part (grantDie s part n b) n kept b else none) with
      | none => grantAll s part addr kept t
      | some l =>
        grantAll (modNode s part addr fun m =>
          { m with slots := sortBy (m.slots ++ l) (fun a b => decide (a ≤ b)), nextBlk := m.nextBlk + l.length,
                   grantedBlks := if m.grantedBlks.contains b then m.grantedBlks else m.grantedBlks ++ [b] }) part addr kept t

/-- The blocks of a lattice node whose slots a die's dispatcher grants (R277, R287). -/
def grantsOf (s : State) (part die : Nat) (n : Node) : List Nat := (List.range (blockCount n.la)).filter fun b => grantDie s part n b == die

/-- Slots granted to a lattice node by the dispatcher of a die, for the blocks that fall to it; the node's scheduler starts it (R277, R278, R283,
R287). -/
def grantNode (s : State) (part die : Nat) (n : Node) (kept : List Nat) : State :=
  let s1 := grantAll s part n.addr kept (grantsOf s part die n)
  match findNode s1 part n.addr with
  | none => s
  | some m =>
    if m.slots == n.slots then s else
    post (startNode s1 part m) [if n.slots.isEmpty then .latticeStart part n.addr.toNat else .updraft part n.addr.toNat]

/-- What a dispatcher does at one node. -/
inductive Placing where
  | placed (s : State)
  | full (kept : List Nat)

/-- The core of a die that must drain before a node can have more of it (R143): the lowest-numbered one that does not hold it. -/
def keptFor (s : State) (part die : Nat) (n : Node) : List Nat :=
  ((coresOn (getPart s part).lay die).find? fun c => (getCore s c).node != some n.addr).toList

/-- A dispatcher at one node: its lowest waiting block is placed, or the core that must drain for it is kept for it (R143, R278); so for the slots of a
lattice. -/
def placeFrom (s : State) (part die : Nat) (n : Node) (kept : List Nat) : Placing :=
  if n.la.dims ≠ 0 then
    (if (grantsOf s part die n).isEmpty then .full kept else
     let s1 := grantNode s part die n kept
     if s1.agenda != s.agenda then .placed s1
     else if (grantsOf s part die n).any (wantsGrant n) then .full (keptFor s part die n ++ kept) else .full kept)
  else if heldBack s part die n then .full kept
  else match waitingBlocks s part die n with
    | [] => .full kept
    | b :: _ =>
      match blockPlace s part die n kept b with
      | some l => .placed (placeBlock s part n b l)
      | none => .full (keptFor s part die n ++ kept)

/-- The nodes tried in order until one places something. -/
def placeAny (s : State) (part die : Nat) : List Node → List Nat → Option State
  | [], _ => none
  | n :: t, kept =>
    match placeFrom s part die n kept with
    | .placed s1 => some s1
    | .full k => placeAny s part die t k

/-- The flits that a share allows over a die's die-to-die links in one period: 256,000 for each link that stands (R279). -/
def shareFlits (s : State) (die share : Nat) : Nat :=
  let links := ((List.range 3).filter fun d => !d2dFailed s.failed die d).length
  share * links * 256000 / 100

/-- What may have waited for a die's budgets to begin anew: requests at its slices, and the engines (R335). -/
def budgetKicks (s : State) (die : Nat) : List Instr :=
  ((s.packets.filter fun p => p.cls != .message && !p.nak && p.tile == die && nextHop s.failed p == .here).map (carryOn s)) ++
  ((s.cores.filter fun k => !k.2.fillq.isEmpty).map fun k => .windowFill k.1) ++
  ((s.clusters.filter fun c => !c.2.table.isEmpty).map fun c => .matrixFetchDone c.1) ++
  (s.parts.flatMap fun p => (p.2.bte.map fun q => Instr.bteDescriptorStart p.1 q.1) ++ p.2.unitsLeft.map fun u => .squallArrival p.1 u) ++
  (s.dies.flatMap fun d => (match d.2.swapq.head? with | some w => [Instr.updraft w.part w.node.toNat] | none => []) ++
    if d.2.estq.isEmpty then [] else [.estateWalk d.1])

/-- A die's activity period ends (R279, R335), at the latest after 8,192 of its mesh clocks: the nodes over their share are held back for the next one,
the counters start anew, and what has waited for its budget goes on; the die's HBM controllers scrub for the period (R334). -/
def execActivityPeriod (die : Nat) (s : State) : Out :=
  let heavy := (getDie s die).linkUse.filter fun u =>
    match findNode s u.1.1 u.1.2 with
    | some n => n.la.share != 100 && decide (shareFlits s die n.la.share < u.2)
    | none => false
  let now := max (meshClock s die) (8192 * ((getDie s die).periods + 1))
  let s1 := modDie s die fun d => { d with heldNodes := heavy.map (·.1), linkUse := [], periods := now / 8192,
                                           clkBase := d.clkBase + (now - meshClock s die), used := nextPeriod d, waiting := false }
  let ks := (List.range 4).map fun j => 4 * die + j
  let s2 := { s1 with hbm := ks.foldl (fun m k => mapSet {} m k { mapGet {} m k with use := nextUse s (mapGet {} m k).use }) s1.hbm }
  .next (post s2 ((s.parts.map fun p => .blockPlacement p.1 die) ++ (ks.map fun k => .scrubPeriod k) ++
    if (getDie s die).waiting then budgetKicks s2 die else []))

end Sys2Proof.Machine
end

