-- ==== Sys2Proof/Machine/LatticeOps.lean ====
section
/-! DEFINITION. Lattices at work: STEP and LQRY (spec/10 R175, R180, R181), the labels sent to edge mirrors (spec/16 R281), and the lattice
scheduler of overcast lattices (R282 to R285, spec/17 R287 to R289). -/
namespace Sys2Proof.Machine

/-! ## STEP -/

/-- The exports of a group, one row each (R171). -/
def exportsOf (la : Launch) (g : Group) : List Row := (List.range la.ecount).map (vreg g)

/-- A bank published with a label (R175). -/
def bankWith (label : Nat) (rows : List Row) : Bank :=
  { label := some (Int.ofNat label), rows := mapSets (Vector.ofFn fun _ => 0) [] ((List.range rows.length).zip rows) }

/-- A group after it has published and counted (R175). -/
def published (la : Launch) (g : Group) : Group :=
  let b := bankWith g.step.toNat (exportsOf la g)
  { g with bank0 := if g.step.toNat % 2 = 0 then b else g.bank0, bank1 := if g.step.toNat % 2 = 1 then b else g.bank1,
           step := g.step + 1 }

/-- The faces that mirror a tile: each resident tile on another core that reads it, in each direction, with its core (R175, R281). -/
def readersOf (n : Node) (core tile : Nat) : List (Nat × Dir × Nat) :=
  (neighbourTiles n.la tile).flatMap fun t =>
    match mapGet .fresh n.tiles t, tilePlaced n t with
    | .resident, some p | .eligible, some p =>
      if p.core = core then [] else ((faces n.la).filter fun d => faceOwner n.la t d == some tile).map fun d => (t, d, p.core)
    | _, _ => []

/-- A lattice-class packet to one face (R281): eight words to a payload flit (R264). -/
def sendFace (g : Group) (core : Nat) (q : Nat × Dir × Nat) (cells : Option (Nat × List (Nat × Word))) (s : State) : State :=
  let m : LabelMsg := { node := g.node, tile := q.1, dir := q.2.1, label := g.step.toNat - 1, cells := cells }
  let pay := match cells with | some c => (c.2.length + 7) / 8 | none => 0
  sendPacket s (netPacket .lattice (.face m) pay g.part g.node g.blk core q.2.2 0 {})

/-- A tile's new counter, and then its boundary cells' exports for each face, on their way to the cores that mirror it (R175, R281). -/
def sendLabels (s : State) (n : Node) (core : Nat) (g : Group) : State :=
  let l := readersOf n core (tileOf n.la g)
  let b := if (g.step.toNat - 1) % 2 = 0 then g.bank0 else g.bank1
  let s1 := l.foldl (fun s q => sendFace g core q none s) s
  l.foldl (fun s q => (List.range n.la.ecount).foldl (fun s k =>
    sendFace g core q (some (k, (faceReads n.la q.1 q.2.1).map fun r => (r.2, (bankRow b k)[r.2]?.getD 0))) s) s) s1

/-- A block has let an effect out (R329). -/
def markReleased (s : State) (part : Nat) (node : DWord) (blk : Nat) : State :=
  modNode s part node fun n => if n.released.contains blk then n else { n with released := n.released ++ [blk] }

/-- The first declared neighbour tile whose record faults or is uncorrectable, as STEP reads its header (R174, R284). -/
def stepFault (s : State) (x : Ctx) : Option TileFound :=
  (faces x.node.la).findSome? fun d => (faceOwner x.node.la (tileOf x.node.la x.g) d).bind fun t =>
    match findTile s x.g.part x.node x.core (tileOf x.node.la x.g) d t with
    | .stop w => some (.stop w)
    | .poison pa => some (.poison pa)
    | _ => none

/-- STEP's own part (R180). -/
def stepBody (x : Ctx) (s : State) : Res :=
  let la := x.node.la
  let me := tileOf la x.g
  let op : MemOp := .stepSend x.g.step.toNat (exportsOf la x.g)
  if stepIllegal x then .trap .illegalInstruction 0
  else if x.g.shadow == .shadow then
    done (modGroup (shadowOffer x op s) x.core x.slot fun g => { g with step := g.step + 1 })
  else match stepFault s x with
    | some (.stop w) => .jump (meetStop x w s)
    | some (.poison pa) => .waitGroup (consume s x.core x.slot 10 pa)
    | _ =>
      if (neighbourTiles la me).any (tileBehind s x.node x.g.part x.core me x.g.step.toNat) then .waitGroup (markHeld x (neighbourTiles la me) s)
      else match matchShadow s x op with
        | .notYet => .waitGroup s
        | .differs => .waitGroup (consume s x.core x.slot 7)
        | .equal s1 =>
          let s2 := modGroup s1 x.core x.slot (published la)
          done (sendLabels (modNode (markReleased s2 x.g.part x.g.node x.g.blk) x.g.part x.g.node fun n => { n with published := true })
            x.node x.core (published la x.g))

/-- STEP (R180). -/
def execStep (c : Enc) (s : State) : Out := issue (.step c) c (fun x _ s => stepBody x s) s

/-! ## LQRY -/

/-- How a neighbour is reached: REL (R181). -/
def relOf (la : Launch) (d : Dir) (c : Nat × Nat × Nat) : Nat :=
  if d = .self then 0 else if !axisDeclared la d then 3
  else if (moveCell { la with wrap := 0 } d c).isSome then 0 else if (moveCell la d c).isSome then 1 else 2

/-- Where a neighbour's banks are: LOC (R181). Of a tile that is on its way into or out of its slot, of which R181 says nothing, it is 3, as of one that is
not resident (DESIGN CHOICE, log 76). An exited tile's stand where it last ran, or in its record if it exited overcast (R177, R289). -/
def locOf (n : Node) (g : Group) (core : Nat) (d : Dir) (c : Nat × Nat × Nat) : Nat :=
  match (if relOf n.la d c < 2 then moveCell n.la d c else none) with
  | none => 0
  | some c2 =>
    let t := (tileOfCell n.la c2).1
    if t = tileOf n.la g then 0 else
    match mapGet .fresh n.tiles t with
    | .resident | .eligible => match tilePlaced n t with | some p => if p.core = core then 1 else 2 | none => 3
    | .exited =>
      if (assoc n.tileImgs t).isNone then 3 else
      match n.placed.find? fun p => p.blk * groupsPerBlock n.la + p.grp == t with
      | some p => if p.core = core then 1 else 2
      | none => 3
    | _ => 3

/-- LQRY's own part (R181). -/
def lqryBody (c : Enc) (x : Ctx) (s : State) : Res :=
  match dirOfCode c.imm.toNat with
  | none => .trap .illegalInstruction 0
  | some d =>
    if x.node.la.dims = 0 then .trap .illegalInstruction 0 else
    compute x c false (fun l =>
      let cell := cellOf x.node.la (tileOf x.node.la x.g) l
      BitVec.ofNat 64 (relOf x.node.la d cell + 4 * locOf x.node x.g x.core d cell)) s

/-- LQRY (R181). -/
def execLqry (c : Enc) (s : State) : Out := issue (.lqry c) c (fun x _ s => lqryBody c x s) s

/-! ## Edge mirrors (R281) -/

/-- A bank of a face with the boundary lanes of one export. -/
def bankCells (b : Bank) (k : Nat) (l : List (Nat × Word)) : Bank :=
  let row : Row := Vector.ofFn fun i => (assoc l i.val).getD ((bankRow b k)[i.val]?.getD 0)
  { b with rows := mapSet (Vector.ofFn fun _ => 0) b.rows k row }

/-- A face after an arrival (R281): its counter, or one export's cells; the label is set once the whole face has been written. -/
def faceTake (ecount : Nat) (m : LabelMsg) (f : Mirror) : Mirror :=
  match m.cells with
  | none => { f with count := max f.count (m.label + 1) }
  | some (k, l) =>
    let old := if m.label % 2 = 0 then f.bank0 else f.bank1
    if old.label.any fun o => decide (Int.ofNat m.label ≤ o) then f else
    let got := if f.got.contains (m.label, k) then f.got else f.got ++ [(m.label, k)]
    let full := (List.range ecount).all fun j => got.contains (m.label, j)
    let b := bankCells old k l
    let b1 := if full then { b with label := some (Int.ofNat m.label) } else b
    { f with bank0 := if m.label % 2 = 0 then b1 else f.bank0, bank1 := if m.label % 2 = 1 then b1 else f.bank1,
             got := if full then got.filter fun q => q.1 != m.label else got }

/-- A face of a core replaced. -/
def putMirror (f : Mirror) (k : Core) : Core :=
  { k with mirrors := (k.mirrors.filter fun o => !(o.node == f.node && o.tile == f.tile && o.dir == f.dir)) ++ [f] }

/-- The oldest arrival at a core is written into its face (R281). -/
def execNeighbourLabelArrival (core : Nat) (s : State) : Out :=
  match (getCore s core).inbound with
  | [] => .next s
  | m :: t =>
    let e := match findNode s (getCore s core).part m.node with | some n => n.la.ecount | none => 0
    .next (modCore s core fun k => putMirror (faceTake e m (mirrorOf k m.node m.tile m.dir)) { k with inbound := t })

/-- A face as its owner stands (R281, R284). -/
def faceOf (g : Group) (tile : Nat) (d : Dir) : Mirror :=
  { node := g.node, tile := tile, dir := d, count := g.step.toNat, bank0 := g.bank0, bank1 := g.bank1 }

/-- The faces of a tile that has become resident filled from their owners, and those of the tiles that read it (R281, R284). -/
def refillMirrors (s : State) (part : Nat) (addr : DWord) (core tile : Nat) : State :=
  match findNode s part addr with
  | none => s
  | some n =>
    let s1 := match (tilePlaced n tile).bind fun p => getGroup s p.core p.slot with
      | some g => (readersOf n core tile).foldl (fun s q => modCore s q.2.2 (putMirror (faceOf g q.1 q.2.1))) s
      | none => s
    (faces n.la).foldl (fun s d =>
      match (faceOwner n.la tile d).bind fun t => (tilePlaced n t).bind fun p => if p.core = core then none else getGroup s p.core p.slot with
      | some g => modCore s core (putMirror (faceOf g tile d))
      | none => s) s1

/-- A core without the faces of a tile that has left it. -/
def dropFaces (node : DWord) (tile : Nat) (k : Core) : Core := { k with mirrors := k.mirrors.filter fun o => !(o.node == node && o.tile == tile) }

/-! ## The lattice scheduler -/

/-- The header of a tile that has never run (R283). -/
def freshHeader : Nat := recordOf [(33, 1), (35, 1), (96, 0xFFFFFFFF)]

/-- How the header writes of some tiles end. -/
inductive HeadRes where
  | ok (s : State)
  | fault (s : State) (k : TrapKind) (faddr : DWord)

/-- The headers of fresh tiles written in order; a fault stops them (R283, R285). -/
def writeHeads (part : Nat) (n : Node) : List Nat → State → HeadRes
  | [], s => .ok s
  | t :: r, s =>
    match vaWrite s part (recordAt n.la t) 128 freshHeader with
    | some s1 => writeHeads part n r s1
    | none =>
      .fault s (match engTrans s part (recordAt n.la t) .write with | .fault k => k | _ => .protection) (recordAt n.la t)

/-- A tile placed for the first time in a slot, in its entry state, with the conveyance of what its predecessor left it (R191, R283, R288). -/
def placeTile (s : State) (part : Nat) (addr : DWord) (tile gslot : Nat) : State :=
  match findNode s part addr with
  | none => s
  | some n =>
    let g := groupsPerBlock n.la
    let s1 := modNode (putGroup s part n (gslot / 64) (gslot % 64) (tile / g) (tile % g)) part addr fun m =>
      { m with tiles := mapSet .fresh m.tiles tile .resident }
    if mapGet 0 n.relaunched (tile / g) = 0 then s1 else post s1 [.successorConveyance part addr.toNat (tile / g)]

/-- Whether the squall line holds the lattice scheduler of a die: it has reached it (R285, R315). -/
def latticeStopped (s : State) (part : Nat) : Bool :=
  (getPart s part).squall && !((getPart s part).unitsLeft.any fun u => match u with | .lattice _ => true | _ => false)

/-- The FAULT code of a stop record (R155, R285). -/
def faultNum : TrapKind → Nat
  | .page => 1
  | _ => 2

/-- The fault that stops the lattice scheduler kept for its record (R285). -/
def latticeFault (s : State) (part : Nat) (addr : DWord) (f : LFault) : State := modNode s part addr fun m => { m with lfault := some f }

/-- A lattice starts on its granted slots (R283): the headers of the tiles that do not start resident, then tiles 0 upward in ascending slot
order. A fault on a header write is charged to no group (R285). -/
def execLatticeStart (part node : Nat) (s : State) : Out :=
  let addr := BitVec.ofNat 64 node
  match findNode s part addr with
  | none => .next s
  | some n =>
    if n.st != 3 || !n.placed.isEmpty || !n.tiles.isEmpty || n.slots.isEmpty || latticeStopped s part || !(getDie s (homeDie s part n)).powered then .next s else
    let k := min n.slots.length (tileCount n.la)
    match writeHeads part n ((List.range (tileCount n.la)).drop k) s with
    | .fault s1 f a =>
      let t := (a - n.la.backing).toNat / recordSize n.la
      .next (raiseSquall (latticeFault s1 part addr { tile := t, op := 0, code := faultNum f, gslot := 0, faddr := a }) part { code := trapCode f, origin := 6, faddr := a, node := some addr })
    | .ok s1 => .next ((n.slots.take k).zipIdx.foldl (fun s p => placeTile s part addr p.2 p.1) s1)

/-- The tiles that a group waits on at its offered entry: those it reads across its faces there, all its neighbours at a STEP. -/
def waitedTiles (s : State) (n : Node) (g : Group) : List Nat :=
  let me := tileOf n.la g
  match (ranked (g.front.filter fun e => e.st == .live)).head? with
  | none => neighbourTiles n.la me
  | some e =>
    match peekInstr s n.la g.part e with
    | none => neighbourTiles n.la me
    | some i => match encOf i with
      | some c =>
        let r := rulesOf i
        match i with
        | .step _ => neighbourTiles n.la me
        | _ => (c.x :: c.y :: c.z :: (if isOpnd r.w then [wOpnd c] else [])).filterMap fun o =>
            match o with | .nb d _ => faceOwner n.la me d | _ => none
      | none => neighbourTiles n.la me

/-- Whether the wait that holds a tile still stands: a tile that it waits on is not resident and behind its counter (R283). -/
def stillHeld (s : State) (part : Nat) (n : Node) (core : Nat) (g : Group) : Bool :=
  (waitedTiles s n g).any fun t =>
    tileBehind s n part core (tileOf n.la g) g.step.toNat t && !(mapGet .fresh n.tiles t == .resident || mapGet .fresh n.tiles t == .eligible)

/-- Whether an entry stands at a send. -/
def atSend (s : State) (n : Node) (g : Group) (e : Entry) : Bool :=
  e.st == .live && (match peekInstr s n.la g.part e with
    | some (.mov c _) => (match c.x with | .mq _ => true | _ => false)
    | _ => false)

/-- What keeps a tile from leaving its slot (R283): a matrix request that is out, a FILLING window it touched, a send that waits at issue, an entry
BLOCKED in a wait that another party ends; nor does it leave while a reply or a shadow's comparison is out (R128). -/
def mayNotLeave (s : State) (n : Node) (core slot : Nat) (g : Group) : Bool :=
  ((getCluster s (clusterOf core)).table.any fun r => r.core == core && r.slot == slot) ||
  ((getCore s core).wins.any fun w => w.2.st == .filling && w.2.touch.gslot == gslotOf core slot) ||
  (g.front.any (atSend s n g)) ||
  (g.front.any fun e => e.st == .blocked && (match e.wait with | some (.lsync ..) | none => false | _ => true)) || !g.pend.isEmpty ||
  uncompared s core slot

/-- A resident tile held for 256 cycles on a tile that is not resident becomes eligible to leave (R283, R284); the cycles that still lack pass
first. -/
def execTileEligible (part node tile : Nat) (s : State) : Out :=
  let addr := BitVec.ofNat 64 node
  match findNode s part addr with
  | none => .next s
  | some n =>
    match mapGet .fresh n.tiles tile, tilePlaced n tile with
    | .resident, some p =>
      (match getGroup s p.core p.slot with
       | none => .next s
       | some g =>
         match g.nbHold with
         | none => .next s
         | some c =>
           if !stillHeld s part n p.core g || mayNotLeave s n p.core p.slot g || g.raised then
             .next (modGroup s p.core p.slot fun g => { g with nbHold := none })
           else
             let s1 := if c < 256 then tickCore p.core (256 - c) s else s
             .next (post (modNode s1 part addr fun m => { m with tiles := mapSet .fresh m.tiles tile .eligible }) [.downdraft part node]))
    | _, _ => .next s

/-- The counter of a tile that is out (R283). -/
def outCount (n : Node) (t : Nat) : Nat := match assoc n.tileImgs t with | some g => g.step.toNat | none => 0

/-- The tiles that are out and have not exited, the lowest counter first and then the lowest number (R283). -/
def outTiles (n : Node) : List Nat :=
  sortBy ((List.range (tileCount n.la)).filter fun t => mapGet .fresh n.tiles t == .out || mapGet .fresh n.tiles t == .fresh) fun a b =>
    decide (outCount n a < outCount n b) || (outCount n a == outCount n b && decide (a ≤ b))

/-- The granted slots in which no group stands and which no swap fills, on cores that may take one. -/
def openSlots (s : State) (n : Node) : List Nat :=
  n.slots.filter fun g =>
    let k := getCore s (g / 64)
    (assoc k.slots (g % 64)).isNone && !k.vacating && !k.stopped && (getDie s (dieOf (g / 64))).powered && (k.node == some n.addr || k.slots.isEmpty) &&
    !(getDie s (dieOf (g / 64))).swapq.any fun w => w.gslot == g

/-- The eligible tiles whose wait still holds, the highest counter first and then the highest number (R283). -/
def leavers (s : State) (part : Nat) (n : Node) : List (Nat × Placed × Group) :=
  sortBy ((List.range (tileCount n.la)).filterMap fun t =>
    if mapGet .fresh n.tiles t != .eligible then none else
    match tilePlaced n t with
    | some p => (getGroup s p.core p.slot).bind fun g =>
        if g.nbHold.isSome && stillHeld s part n p.core g && !mayNotLeave s n p.core p.slot g && !g.raised && (getDie s (dieOf p.core)).powered then some (t, p, g) else none
    | none => none) fun a b =>
      decide (b.2.2.step.toNat < a.2.2.step.toNat) || (a.2.2.step == b.2.2.step && decide (b.1 ≤ a.1))

/-- The registers of a tile record (R282). -/
def liveRegs (la : Launch) (g : Group) : Nat := wordsNum ((List.range la.live).flatMap fun n => (vreg g n).toList)

/-- A tile's record as it leaves its slot: header, banks and registers (R282, R283). -/
def recordNum (la : Launch) (g : Group) : Nat :=
  headerOf g false + 2 ^ 1024 * (banksNum la g + 2 ^ (4096 * la.ecount) * liveRegs la g)

/-- The bytes of a tile record before its group state (R282). -/
def recordBytes (la : Launch) : Nat := 128 + 512 * la.ecount + 256 * la.live

/-- The lines of a tile record. -/
def recordLines (la : Launch) : Nat := recordSize la / 128

/-- The fault of the backing store at a line of a tile record, with its address (R285). -/
def lineFault (s : State) (part : Nat) (n : Node) (tile j : Nat) (k : AccKind) : Option (TrapKind × DWord) :=
  let a := recordAt n.la tile + BitVec.ofNat 64 (128 * j)
  match engTrans s part a k with
  | .fault f => some (f, a)
  | .ok pa _ => if (refusalOf (getPart s part).lay pa).isSome then some (.protection, a) else none
  | .poisoned => none

/-- The first fault of the backing store under a tile record: its line, its kind and its address (R285). -/
def recordFault (s : State) (part : Nat) (n : Node) (tile : Nat) (k : AccKind) : Option (Nat × TrapKind × DWord) :=
  (List.range (recordLines n.la)).findSome? fun j => (lineFault s part n tile j k).map fun f => (j, f.1, f.2)

/-- One 128-byte line of a tile's record written (R283, R285). The group-state area is opaque: what stands there is free, and what an updraft takes
back from it is kept beside the record (R282, log 31). -/
def writeLine (s : State) (part : Nat) (n : Node) (g : Group) (j : Nat) : State :=
  let a := recordAt n.la (tileOf n.la g) + BitVec.ofNat 64 (128 * j)
  if 128 * j < recordBytes n.la then tryWrite s part a 128 (recordNum n.la g / 256 ^ (128 * j) % 256 ^ 128)
  else tryWrite { s with free := s.free + 1 } part a 128 (Config.freeLine s.free).toNat

/-- A tile's record written up to a number of its lines (R283, R285). -/
def writeRecord (s : State) (part : Nat) (n : Node) (g : Group) (lines : Nat) : State :=
  (List.range (min lines (recordLines n.la))).foldl (fun s j => writeLine s part n g j) s

/-- The key of a tile's shadow among the images. -/
def shadowKey (t : Nat) : Nat := t + 2 ^ 32

/-- An image put in the place of an older one of its key. -/
def imgPut (l : List (Nat × Group)) (k : Nat) (g : Group) : List (Nat × Group) := (k, g) :: l.filter fun p => p.1 != k

/-- A group rolled back for leaving its slot (R283): replies still out are asked for again at the replay. -/
def leaving (la : Launch) (g : Group) : Group := { rollAll la.btab g with pend := [], nbHold := none, stall := 0, sleep := 0, lvq := [], shq := [] }

/-- The fault of a tile's record charged to the tile's group, at its region entry (R285); a group that has exited has no entry to charge. -/
def chargeTile (s : State) (part : Nat) (n : Node) (f : LFault) (k : TrapKind) (g : Group) (core slot : Nat) : State :=
  let s1 := latticeFault s part n.addr f
  match (ranked g.front).head? with
  | some e => takeFault s1 core slot e.mask true k f.faddr 0 n.la.btab
  | none => raiseSquall s1 part { code := trapCode k, origin := 3, gslot := f.gslot, faddr := f.faddr, node := some n.addr }

/-- A tile whose record is written leaves its slot (R283, R284): its slot is free, and it is out. -/
def tileOut (s : State) (part : Nat) (addr : DWord) (tile : Nat) (p : Placed) (g : Group) : State :=
  match findNode s part addr with
  | none => s
  | some n =>
    let h := if g.shadow == .leader then getGroup s p.core (p.slot + 1) else none
    let s1 := dropGroup (if g.shadow == .leader then dropGroup s p.core (p.slot + 1) else s) p.core p.slot
    modNode (modCore s1 p.core (dropFaces addr tile)) part addr fun m =>
      { m with tiles := mapSet .fresh m.tiles tile .out, placed := m.placed.filter (· != p),
               lastSlots := mapSet 0 m.lastSlots tile (gslotOf p.core p.slot),
               tileImgs := let l := imgPut m.tileImgs tile (leaving n.la g)
                           match h with | some h => imgPut l (shadowKey tile) (leaving n.la h) | none => l }

/-- A tile moved from its slot to its record at once, as its core is vacated (R284, R305); a fault of the backing store is raised against its group
at its region entry (R285). -/
def downTile (s : State) (part : Nat) (addr : DWord) (tile : Nat) (p : Placed) (g : Group) : State :=
  match findNode s part addr with
  | none => s
  | some n =>
    let g1 := leaving n.la g
    match recordFault s part n tile .write with
    | some (j, k, a) =>
      chargeTile (writeRecord s part n g1 j) part n { tile := tile, op := 1, code := faultNum k, gslot := gslotOf p.core p.slot, faddr := a } k g p.core p.slot
    | none => tileOut (writeRecord (settlePair s p.core p.slot) part n g1 (recordSize n.la)) part addr tile p g

/-! ### Swaps (R283, R285, R289) -/

/-- The event that carries a swap on. -/
def swapEvent (w : Swap) : Instr := if w.op = 2 then .updraft w.part w.node.toNat else .downdraft w.part w.node.toNat

/-- The swap at the head of a die's queue changed. -/
def setSwap (s : State) (die : Nat) (f : Swap → Swap) : State :=
  modDie s die fun d => { d with swapq := match d.swapq with | w :: t => f w :: t | [] => [] }

/-- The swap at the head of a die's queue is done: the next one goes on. -/
def popSwap (s : State) (die : Nat) : State :=
  let s1 := modDie s die fun d => { d with swapq := d.swapq.drop 1 }
  post s1 (((getDie s1 die).swapq.head?.map swapEvent).toList)

/-- A swap decided, in its die's queue (R283). -/
def addSwap (s : State) (w : Swap) : State :=
  post (modDie s (w.gslot / 4096) fun d => { d with swapq := d.swapq ++ [w] }) [swapEvent w]

/-- The die whose head swap is one of a node, with that swap. -/
def headSwap (s : State) (part : Nat) (addr : DWord) : Option (Nat × Swap) :=
  (List.range 8).findSome? fun d => match (getDie s d).swapq.head? with
    | some w => if w.part = part && w.node = addr then some (d, w) else none
    | none => none

/-- A tile chosen for an updraft (R283, R284): it arrives once its record has been read. -/
def beginUp (s : State) (part : Nat) (n : Node) (tile gslot : Nat) : State :=
  addSwap (modNode s part n.addr fun m => { m with tiles := mapSet .fresh m.tiles tile .moving })
    { part := part, node := n.addr, tile := tile, op := 2, gslot := gslot }

/-- A tile chosen for a downdraft (R283, R284): its entries go back to their region entries, it issues nothing more, and its swap is queued. -/
def beginDown (s : State) (part : Nat) (n : Node) (tile : Nat) (p : Placed) : State :=
  let s1 := settlePair s p.core p.slot
  let s2 := modGroup s1 p.core p.slot fun g => { leaving n.la g with away := true }
  let s3 := modGroup s2 p.core (p.slot + 1) fun h =>
    if h.shadow == .shadow && h.node == n.addr && n.la.redun then { leaving n.la h with away := true } else h
  addSwap (modNode s3 part n.addr fun m => { m with tiles := mapSet .fresh m.tiles tile .moving })
    { part := part, node := n.addr, tile := tile, op := 1, gslot := gslotOf p.core p.slot }

/-- One line of a downdraft, or of an exited tile's record, written; after the last one the tile is out, or has exited and its slot is free. A
fault stops the scheduler with the swap in progress: it begins again at the resume (R285, R289). -/
def carryDown (s : State) (part : Nat) (n : Node) (die : Nat) (w : Swap) : State :=
  let core := w.gslot / 64
  let slot := w.gslot % 64
  match getGroup s core slot with
  | none => popSwap s die
  | some g =>
    let lines := if w.op = 3 then (128 + 512 * n.la.ecount) / 128 else recordLines n.la
    match lineFault s part n w.tile w.line .write with
    | some (k, a) =>
      chargeTile (setSwap s die fun w => { w with line := 0 }) part n { tile := w.tile, op := 1, code := faultNum k, gslot := w.gslot, faddr := a } k g core slot
    | none =>
      let s1 := if w.op = 3 && w.line = 0 then tryWrite s part (recordAt n.la w.tile) 128 (headerOf g true) else writeLine s part n g w.line
      if w.line + 1 < lines then post (setSwap s1 die fun w => { w with line := w.line + 1 }) [swapEvent w]
      else if w.op = 3 then popSwap (freeSlot (markExited g n false s1) core slot g true) die
      else
        let p := { blk := g.blk, grp := g.grp, core := core, slot := slot, was := ((tilePlaced n w.tile).map (·.was)).getD [] }
        post (popSwap (tileOut s1 part n.addr w.tile ((tilePlaced n w.tile).getD p) { g with away := false }) die) [.updraft part n.addr.toNat]

/-- The rows of a memory area as a map from row number. -/
def readRows (s : State) (part : Nat) (va : DWord) (rows : Nat) : SMap Row :=
  mapSets (Vector.ofFn fun _ => 0) [] ((List.range rows).map fun k =>
    (k, Vector.ofFn fun l => BitVec.ofNat 32 ((vaRead s part (va + BitVec.ofNat 64 (256 * k + 4 * l.val)) 4).getD 0)))

/-- A group as its record and its image give it back (R282, R283). -/
def restored (s : State) (part : Nat) (n : Node) (tile : Nat) (img : Group) : Group :=
  let la := n.la
  let a := recordAt la tile
  let h := (vaRead s part a 16).getD 0
  let lab := fun (v lo : Nat) => if h / 2 ^ v % 2 = 1 then some (BitVec.ofNat 32 (h / 2 ^ lo)).toInt else none
  { img with vregs := readRows s part (a + BitVec.ofNat 64 (128 + 512 * la.ecount)) la.live, step := BitVec.ofNat 32 h,
             bank0 := { label := lab 34 64, rows := readRows s part (a + 128) la.ecount },
             bank1 := { label := lab 35 96, rows := readRows s part (a + BitVec.ofNat 64 (128 + 256 * la.ecount)) la.ecount } }

/-- A tile that has come into its slot (R283, R284): it is resident, and its faces are filled. -/
def tileIn (s : State) (part : Nat) (n : Node) (tile gslot : Nat) (img : Group) : State :=
  let g := restored s part n tile img
  let s1 := takeCarve s part n (gslot / 64)
  let s2 := putPair s1 part n (gslot / 64) (gslot % 64) img.blk img.grp { g with age := (getCore s1 (gslot / 64)).age, away := false }
    ((assoc n.tileImgs (shadowKey tile)).map fun h => { h with vregs := h.vregs.filter (fun v => decide (v.1 < n.la.live)), away := false })
  modNode s2 part n.addr fun m =>
    { m with tiles := mapSet .fresh m.tiles tile .resident, tileImgs := m.tileImgs.filter fun p => p.1 != tile && p.1 != shadowKey tile }

/-- A fresh tile comes into its slot in its entry state; of its record only the header is restored (R288). -/
def freshIn (s : State) (part : Nat) (n : Node) (tile gslot : Nat) : State :=
  let s1 := placeTile s part n.addr tile gslot
  let s2 := modGroup s1 (gslot / 64) (gslot % 64) fun g =>
    let r := restored s part n tile g
    { g with step := r.step, bank0 := { g.bank0 with label := r.bank0.label }, bank1 := { g.bank1 with label := r.bank1.label } }
  modNode s2 part n.addr fun m => { m with tileImgs := m.tileImgs.filter fun p => p.1 != tile && p.1 != shadowKey tile }

/-- An updraft that met an uncorrectable line of its record is given up, and the tile's block consumes the error (R285). -/
def abortUp (s : State) (part : Nat) (n : Node) (die : Nat) (w : Swap) (pa : Nat) : State :=
  let img := (assoc n.tileImgs w.tile).getD (entryGroup part n (w.tile / groupsPerBlock n.la) (w.tile % groupsPerBlock n.la) .none 0)
  let s1 := latticeFault s part n.addr { tile := w.tile, op := 2, code := 3, gslot := w.gslot, faddr := 0 }
  consume (tileIn (popSwap s1 die) part n w.tile w.gslot img) (w.gslot / 64) (w.gslot % 64) 10 pa

/-- One line of an updraft read; after the last one, or after the header of a fresh tile, the tile is resident. A fault of the backing store is
raised against its group, and the swap begins again at the resume (R283, R285, R288). -/
def carryUp (s : State) (part : Nat) (n : Node) (die : Nat) (w : Swap) : State :=
  match lineFault s part n w.tile w.line .read with
  | some (k, a) =>
    let rgn := (((assoc n.tileImgs w.tile).bind fun g => (ranked g.front).head?).map (·.rgn)).getD n.la.entry
    raiseSquall (latticeFault (setSwap s die fun w => { w with line := 0 }) part n.addr { tile := w.tile, op := 2, code := faultNum k, gslot := w.gslot, faddr := a })
      part { code := trapCode k, origin := 3, gslot := w.gslot, ix := rgn, rgn := rgn, faddr := a, node := some n.addr }
  | none =>
    match recordWord s part (recordAt n.la w.tile + BitVec.ofNat 64 (128 * w.line)) with
    | .poison pa => abortUp s part n die w pa
    | _ =>
      let fresh := match headWord s part n w.tile 1 with | .val f => f.getLsbD 1 | _ => false
      let done := fun (s : State) => refillMirrors (popSwap s die) part n.addr (w.gslot / 64) w.tile
      match fresh, assoc n.tileImgs w.tile with
      | false, some img =>
        if w.line + 1 < recordLines n.la then post (setSwap s die fun w => { w with line := w.line + 1 }) [swapEvent w]
        else post (done (tileIn s part n w.tile w.gslot img)) [.updraft part n.addr.toNat]
      | _, _ => post (done (freshIn s part n w.tile w.gslot)) [.updraft part n.addr.toNat]

/-- Whether a tile may take a slot: a relaunched block keeps away from the clusters in which it consumed an error (R329). -/
def mayTake (n : Node) (tile gslot : Nat) : Bool :=
  !n.badClusters.any fun b => b.1 == tile / groupsPerBlock n.la && b.2 == clusterOf (gslot / 64)

/-- What the scheduler decides next (R283): the out tile with the lowest counter into the lowest free slot, or the eligible tile with the highest
counter out of its slot, with the out tile that takes it next in the queue; nothing while the partition quiesces (R338). -/
def decideSwap (s : State) (part : Nat) (n : Node) : State :=
  if n.st != 3 || (n.placed.isEmpty && n.tiles.isEmpty) || (getPart s part).st == .quiescing then s else
  match (outTiles n).findSome? fun t => ((openSlots s n).find? (mayTake n t)).map fun g => (t, g) with
  | some (t, g) => beginUp s part n t g
  | none =>
    match leavers s part n with
    | (t, p, _) :: _ =>
      let g := gslotOf p.core p.slot
      (match (outTiles n).find? fun u => mayTake n u g with
       | some u => beginUp (beginDown s part n t p) part n u g
       | none => s)
    | [] => s

/-- The swap at the head of a die's queue goes on, unless the die has no power (R34), or the next one is decided. -/
def latticeTurn (part node : Nat) (s : State) : Out :=
  let addr := BitVec.ofNat 64 node
  match findNode s part addr with
  | none => .next s
  | some n =>
    if latticeStopped s part then .next s else
    match headSwap s part addr with
    | some (die, w) =>
      if !(getDie s die).powered then .next s else
      let l := requestsOf s part (if w.op = 2 then .read else .write) [recordAt n.la w.tile + BitVec.ofNat 64 (128 * w.line)]
      match issueAll s part .lattice l with
      | none => .next (holdAll s part .lattice l)
      | some s => .next (countLines part addr (fun _ => die) (w.op != 2) l (if w.op = 2 then carryUp s part n die w else carryDown s part n die w))
    | none => .next (decideSwap s part n)

/-- DOWNDRAFT (R283, R284, R289): the next line of a tile that leaves its slot goes to its record; with none leaving the next swap is decided. -/
def execDowndraft (part node : Nat) (s : State) : Out := latticeTurn part node s

/-- UPDRAFT (R283, R284, R288): the next line of a tile that comes into a slot is read from its record; with none coming the next swap is decided. -/
def execUpdraft (part node : Nat) (s : State) : Out := latticeTurn part node s

end Sys2Proof.Machine
end

