-- ==== Sys2Proof/Machine/LaunchRec.lean ====
section
/-! DEFINITION. Node and launch records (spec/19 R298, R301, R302): their fields and the checks at the start of a LAUNCH. -/
namespace Sys2Proof.Machine

/-- The fields of a node record that the front end reads (R298). -/
structure NodeRec where
  lrec : DWord
  pred : Nat
  nsucc : Nat
  succ : DWord
  state : Nat
  cause : Nat
  resv : Bool

/-- A node record from its 64 bytes (R298). -/
def nodeRecOf (n : Nat) : NodeRec :=
  { lrec := BitVec.ofNat 64 n, pred := field n 95 64, nsucc := field n 127 96, succ := BitVec.ofNat 64 (field n 191 128),
    state := field n 199 192, cause := field n 207 200, resv := field n 255 230 != 0 || field n 511 288 != 0 }

/-- The level entries of a launch record: DOMAIN, SCOPE, EXTENT and the reserved bits (R302). -/
def levelEntry (n k : Nat) : Nat × Nat × Nat × Bool :=
  let e := field n (128 * k + 447) (128 * k + 320)
  (field e 3 0, field e 7 4, field e 63 32, field e 31 8 != 0 || field e 127 64 != 0)

/-- A tile entry: ADDR, BYTES, MODE and its reserved bits (R302). -/
def tileEntry (n t : Nat) : Nat × Nat × Nat × Bool :=
  let e := field n (128 * t + 2303) (128 * t + 2176)
  (field e 63 0, field e 103 64, field e 105 104, field e 127 106 != 0)

/-- Whether a level entry is used. -/
def levelUsed (n k : Nat) : Bool := (levelEntry n k).1 != 15

/-- The used levels of a launch record. -/
def levelsOf (n : Nat) : List Level :=
  ((List.range 8).takeWhile (levelUsed n)).map fun k =>
    let e := levelEntry n k
    { domain := e.1, scope := e.2.1, extent := e.2.2.1 }

/-- The block table of a launch record (R301). -/
def btabOf (s : State) (part : Nat) (va : DWord) (nblk : Nat) : List (Nat × Nat) :=
  (List.range nblk).map fun k =>
    let e := (vaRead s part (va + BitVec.ofNat 64 (8 * k)) 8).getD 0
    (field e 31 0, field e 43 32)

/-- A launch record from its 512 bytes (R301). -/
def launchOf (s : State) (part n : Nat) : Launch :=
  let dims := field n 1409 1408
  { code := BitVec.ofNat 64 (field n 127 64), nix := field n 159 128, entry := BitVec.ofNat 32 (field n 191 160),
    btab := btabOf s part (BitVec.ofNat 64 (field n 255 192)) (min 4096 (field n 287 256)), levels := levelsOf n,
    regs := field n 1353 1344, regg := field n 1358 1354, locg := field n 1363 1359, prio := field n 1365 1364, redun := n.testBit 1366,
    rela := n.testBit 1367, hkind := hkindOf' (field n 1370 1368), hgrp := field n 1375 1371, share := field n 1382 1376, dims := dims,
    wrap := BitVec.ofNat 3 (field n 1412 1410), edge := field n 1414 1413, ta := 2 ^ field n 1417 1415, tb := 2 ^ field n 1420 1418,
    tc := 2 ^ field n 1423 1421, ecount := if dims = 0 then 0 else field n 1427 1424 + 1, live := field n 1437 1428,
    kconst := BitVec.ofNat 32 (field n 1503 1472), xe := field n 1567 1536, ye := field n 1599 1568, ze := field n 1631 1600,
    backing := BitVec.ofNat 64 (field n 1727 1664), estate := BitVec.ofNat 64 (field n 1791 1728), estn := field n 1823 1792,
    wdog := field n 1903 1856, stoparea := BitVec.ofNat 64 (field n 1983 1920), args := BitVec.ofNat 64 (field n 2047 1984),
    argb := field n 2060 2048, tiles := (List.range (min 8 (field n 2067 2064))).map fun t => BitVec.ofNat 64 (tileEntry n t).1,
    seed := BitVec.ofNat 64 (field n 2175 2112) }
where
  /-- An heir kind as coded in the holding word (R186). -/
  hkindOf' : Nat → HKind
    | 0 => .group | 1 => .block | 2 => .parent | 3 => .successor | _ => .none

/-! ## Checks (R302) -/

/-- Whether every byte of an area is mapped for an access in the partition's space. -/
def mapped (s : State) (part : Nat) (va : DWord) (len : Nat) (k : AccKind) : Bool :=
  (List.range (len / 65536 + 1) ++ [len / 65536]).all fun j =>
    let o := min (65536 * j) (len - 1)
    (match engTrans s part (va + BitVec.ofNat 64 o) k with
     | .ok pa _ => (refusalOf (getPart s part).lay pa).isNone
     | _ => false) &&
    (match engTrans s part (va + BitVec.ofNat 64 (len - 1)) k with
     | .ok pa _ => (refusalOf (getPart s part).lay pa).isNone
     | _ => false)

/-- An address field in use: aligned, canonical and mapped readable over an extent. -/
def addrOk (s : State) (part : Nat) (va : DWord) (al len : Nat) : Bool := va.toNat % al == 0 && canonical va && mapped s part va len .read

/-- Check 1: KIND, VER and the reserved bits of both records. -/
def check1 (r : NodeRec) (n : Nat) : Bool :=
  !r.resv && field n 7 0 == 1 && field n 15 8 == 1 && field n 63 16 == 0 && field n 319 288 == 0 && field n 1407 1383 == 0 &&
  field n 1471 1438 == 0 && field n 1535 1504 == 0 && field n 1663 1632 == 0 && field n 1855 1824 == 0 && field n 1919 1904 == 0 &&
  field n 2063 2061 == 0 && field n 2111 2068 == 0 && field n 4095 3200 == 0 &&
  ((List.range 8).all fun k => !(levelEntry n k).2.2.2) && ((List.range 8).all fun t => !(tileEntry n t).2.2.2)

/-- Check 3: the address fields in use. -/
def check3 (s : State) (part : Nat) (r : NodeRec) (n : Nat) : Bool :=
  let la := launchOf s part n
  addrOk s part la.code 256 1 && mapped s part la.code 1 .fetch &&
  addrOk s part (BitVec.ofNat 64 (field n 255 192)) 1 (8 * field n 287 256) && addrOk s part la.stoparea 64 1 &&
  (r.nsucc = 0 || addrOk s part r.succ 8 (8 * r.nsucc)) && (la.dims = 0 || addrOk s part la.backing 128 1) &&
  (la.estn = 0 || addrOk s part la.estate 1 1) && (la.argb = 0 || addrOk s part la.args 4 la.argb) &&
  la.tiles.all fun a => addrOk s part a 1 1

/-- Check 4: the level table. -/
def check4 (n : Nat) : Bool :=
  let e := fun k => levelEntry n k
  let used := (levelsOf n).length
  (e 0).1 == 0 && (e 0).2.1 == 0 && (e 0).2.2.1 == 1 && (e 1).1 == 1 && (e 1).2.1 == 0 && (e 1).2.2.1 == 1 && 3 ≤ used &&
  ((e 2).1 == 2 || (e 2).1 == 4) && decide (1 ≤ (e 2).2.2.1) && decide ((e 2).2.2.1 ≤ 32) &&
  ((List.range 8).all fun k => if k < used then
      decide ((e k).1 ≤ 5) && decide ((e k).2.1 ≤ 5) && decide ((e k).1 ≤ (e k).2.1 + 1) && decide (1 ≤ (e k).2.2.1) &&
      (k = 0 || decide ((e (k - 1)).1 ≤ (e k).1))
    else (e k).1 == 15 && (e k).2.1 == 15 && (e k).2.2.1 == 0)

/-- Check 5: the ranges of the carve, the code and the default heir. -/
def check5 (n : Nat) : Bool :=
  let regs := field n 1353 1344
  let regg := field n 1358 1354
  let locg := field n 1363 1359
  1 ≤ regs && regs ≤ 768 && 4 ≤ regg && regg ≤ 28 && locg ≤ 28 && regg + locg ≤ 30 && field n 1382 1376 ≤ 100 && 1 ≤ field n 159 128 &&
  field n 191 160 < field n 159 128 && 1 ≤ field n 287 256 && field n 287 256 ≤ 4096 && field n 1370 1368 ≤ 4 &&
  (field n 1370 1368 == 0 || field n 1375 1371 == 0)

/-- The groups of a node: the product of its used extents (R302). -/
def groupCount (la : Launch) : Nat := la.levels.foldl (fun a l => a * l.extent) 1

/-- Check 6: a lattice obeys R168 and R172. -/
def check6 (la : Launch) : Bool :=
  la.dims = 0 ||
  (let T := la.ta * la.tb * la.tc
   let axis := fun (k e t : Nat) => if k < la.dims then decide (1 ≤ e) && decide (e ≤ 65536) && e % t == 0 else e == 1 && t == 1
   axis 0 la.xe la.ta && axis 1 la.ye la.tb && axis 2 la.ze la.tc && decide (la.xe * la.ye * la.ze ≤ 2 ^ 31) && decide (la.edge ≤ 2) &&
   decide (la.ecount ≤ la.regs) && decide (T ≤ 64) && decide (la.ecount ≤ la.live) && decide (la.live ≤ la.regs) &&
   la.xe / la.ta * (la.ye / la.tb) * (la.ze / la.tc) == groupCount la && decide (1 ≤ gl))
where
  /-- The resident limit of a lattice group by registers and by local memory (R172). -/
  gl : Nat :=
    let g := min 64 (la.regg * 17152 / (64 * la.regs + 288))
    min (if la.redun then g / 2 else g) (68608 * la.locg / (512 * la.ecount * (1 + 2 * la.dims) + 64))

/-- Check 7: the argument block, the tile operands, the estate table and the watchdog. -/
def check7 (n : Nat) : Bool :=
  let nt := field n 2067 2064
  field n 2060 2048 ≤ 4096 && nt ≤ 8 &&
  (List.range 8).all fun t =>
    let e := tileEntry n t
    if t < nt then e.2.2.1 != 0 && e.2.1 != 0 else e.1 == 0 && e.2.1 == 0 && e.2.2.1 == 0

/-- The lowest free estate tag of a partition (R188). -/
def freeTag (p : Part) : Option Nat := ((List.range 65536).drop 1).find? fun t => !p.estags.contains t

/-- The first check that fails, in ascending cause order, on the records read (R302); 0 when none does. -/
def launchCause (s : State) (part : Nat) (r : NodeRec) (n : Nat) : Nat :=
  let la := launchOf s part n
  if !check1 r n then 1 else if r.state != 0 then 2 else if !check3 s part r n then 3 else if !check4 n then 4 else if !check5 n then 5
  else if !check6 la then 6 else if !check7 n then 7 else if la.estn != 0 && (freeTag (getPart s part)).isNone then 9 else 0

end Sys2Proof.Machine
end

