-- ==== Sys2Proof/Machine/FrontEnd.lean ====
section
/-! DEFINITION. The front end (spec/19 R294 to R300): control and fabric pages, queues, the acceptance, start and completion of packets, nodes
and their completion. -/
namespace Sys2Proof.Machine

/-! ## Queues -/

/-- A queue of a partition. -/
def queueOf (s : State) (part q : Nat) : Queue := mapGet {} (getPart s part).queues q
/-- A queue changed. -/
def modQueue (s : State) (part q : Nat) (f : Queue → Queue) : State :=
  modPart s part fun p => { p with queues := mapSet {} p.queues q (f (mapGet {} p.queues q)) }

/-- Whether a queue accepts packets (R294, R295). -/
def accepting (u : Queue) : Bool := u.qen && 4 ≤ u.qlog && u.qlog ≤ 16 && u.qstat != 3

/-- The TYPE, TAG and OPERAND of a packet (R295). -/
def pktType (b : Record) : Nat := field b.toNat 7 0
/-- ORD of a packet. -/
def pktOrd (b : Record) : Bool := b.toNat.testBit 8
/-- TAG of a packet. -/
def pktTag (b : Record) : Nat := field b.toNat 63 32
/-- OPERAND of a packet. -/
def pktOperand (b : Record) : DWord := BitVec.ofNat 64 (field b.toNat 127 64)

/-- The event that starts, or looks at, a packet of a type. -/
def startEvent (part q ty : Nat) : List Instr :=
  match ty with
  | 1 => [.launchPacket part q] | 2 => [.coll part q] | 3 => [.qfence part q] | 4 => [.event part q] | 5 => [.waitsem part q]
  | 6 => [.signal part q] | 7 => [.tlbi part q] | _ => []

/-- The first packet of a queue that has not started (R296). -/
def nextStart (u : Queue) : Option Pkt := u.pkts.find? fun k => !k.started

/-- The queues of a partition in the order in which the front end starts their packets: descending QPRIO, and within one priority in turn after the
queue of that priority whose packet started last (R296). -/
def queueOrder (p : Part) : List (Nat × Queue) :=
  let turn := fun (u : Nat × Queue) => (u.1 + 64 - (mapGet 0 p.turns u.2.qprio + 1)) % 64
  sortBy p.queues fun a b =>
    if a.2.qprio ≠ b.2.qprio then decide (b.2.qprio < a.2.qprio) else decide (turn a ≤ turn b)

/-- The front end looks at the queues of a partition, in order. -/
def kickFront (s : State) (part : Nat) : State :=
  post s ((queueOrder (getPart s part)).flatMap fun q =>
    match nextStart q.2 with
    | some k => startEvent part q.1 (pktType k.body)
    | none => [])

/-- Whether the front end starts packets: the squall line has not reached it, nor does a command hold it (R308, R312, R338), and the module is
presented to the host (R35). -/
def frontRuns (s : State) (part : Nat) : Bool :=
  let p := getPart s part
  presented s && !(p.squall && !p.unitsLeft.contains .frontEnd) && (p.st == .running || p.st == .halting)

/-- Whether every packet accepted before a QFENCE into the queues that it names has completed (R295). -/
def fenceOpen (p : Part) (k : Pkt) : Bool :=
  !(p.queues.any fun u => (pktOperand k.body).toNat.testBit u.1 && u.2.pkts.any fun j => decide (j.acc < k.acc))

/-- The head packet of a queue, where it can start (R295, R296). -/
def canStart (p : Part) (u : Queue) : Option Pkt :=
  if u.qstat == 2 then none else
  match nextStart u with
  | none => none
  | some k =>
    let before := u.pkts.takeWhile fun j => j.started
    let ordered := pktOrd k.body || pktType k.body == 4 || pktType k.body == 6 || pktType k.body == 7
    if (ordered && !before.isEmpty) || before.any (fun j => pktType j.body == 3 || pktType j.body == 5) then none
    else if pktType k.body == 3 && !fenceOpen p k then none else some k

/-- The next packet of a queue, of a type, if it is the one that the front end starts now: the head packet that can start in the first queue of the
order that has one (R296). -/
def mayStart (s : State) (part q ty : Nat) : Option Pkt :=
  let p := getPart s part
  if !frontRuns s part then none else
  match (queueOrder p).find? fun u => (canStart p u.2).isSome with
  | none => none
  | some u => if u.1 != q then none else (canStart p u.2).filter fun k => pktType k.body == ty

/-- A packet marked started, the last one that the front end has started, of its partition (R312) and of its queue's priority (R296). -/
def markStarted (s : State) (part q : Nat) (k : Pkt) : State :=
  modPart (modQueue s part q fun u => { u with pkts := u.pkts.map fun j => if j.seq == k.seq then { j with started := true } else j }) part
    fun p => { p with lastPkt := (q, k.seq, pktType k.body), turns := mapSet 0 p.turns (mapGet {} p.queues q).qprio q }

/-- The pages that the host has refused are asked for anew, once what needed one has failed with cause 3 (R369). -/
def forgetDenied (s : State) (part outcome : Nat) : State := if outcome = 3 then clearDenied s part else s

/-- A packet completes (R295, R297, R341): its journal entry, its failure for the next EVENT, and what its completion lets start. -/
def finishPkt (s : State) (part q : Nat) (k : Pkt) (outcome : Nat) (node : DWord) : State :=
  let s1 := modQueue s part q fun u =>
    let l := u.pkts.filter fun j => j.seq != k.seq
    { u with pkts := l, qstat := if u.qstat = 1 && l.isEmpty then 0 else u.qstat,
             fails := if outcome = 0 then u.fails else u.fails ++ [(k.acc, outcome, node)] }
  let s2 := forgetDenied s1 part outcome
  kickFront (journal s2 part (0x40 + pktType k.body) q outcome k.seq.toNat (pktOperand k.body) (BitVec.ofNat 64 (pktTag k.body))) part

/-! ## Acceptance (R295) -/

/-- Whether a packet is refused at its acceptance (R295). -/
def pktBad (b : Record) : Bool :=
  let n := b.toNat
  let ty := pktType b
  field n 31 9 != 0 ||
  (match ty with
   | 1 | 3 | 4 => field n 511 128 != 0
   | 2 => field n 511 262 != 0
   | 5 => field n 511 194 != 0 || field n 193 192 == 3
   | 6 => field n 511 193 != 0
   | 7 => field n 511 160 != 0
   | _ => true)

/-- A packet accepted into its queue, or refused there with cause 1; either takes a sequence number and a journal entry (R295, R341). -/
def acceptPkt (s : State) (part q : Nat) (b : Record) : State :=
  let u := queueOf s part q
  let n := s.reqId
  let k : Pkt := { seq := u.seq, acc := n, body := b, late := (getPart s part).tearing }
  let bad := pktBad b
  let s1 := modQueue { s with reqId := n + 1 } part q fun u =>
    if bad then { u with seq := u.seq + 1, fails := u.fails ++ [(n, 1, if pktType b = 1 then pktOperand b else 0)] }
    else { u with seq := u.seq + 1, pkts := u.pkts ++ [k], qstat := if u.qstat = 0 then 1 else u.qstat }
  journal s1 part (pktType b) q (if bad then 1 else 0) u.seq.toNat (pktOperand b) (BitVec.ofNat 64 (pktTag b))

/-- A queue in error (R294, R295). -/
def queueError (s : State) (part q outcome : Nat) (addr : DWord) (tail : Nat) : State :=
  let u := queueOf s part q
  journal (modQueue s part q fun u => { u with qstat := 3 }) part 0x88 q outcome 0xFFFFFFFF addr (BitVec.ofNat 64 (u.head.toNat + tail * 2 ^ 32))

/-- The ring entry at HEAD accepted (R295). -/
def acceptRing (s : State) (part q : Nat) (u : Queue) : State :=
  let a := u.qbase + BitVec.ofNat 64 (64 * u.head.toNat)
  match readDevice s part a 64 with
  | .fault _ _ => clearDenied (queueError s part q 3 a 0) part
  | .ok l _ =>
    if l.any fun b => b.2 then queueError s part q 4 a 0
    else acceptPkt (modQueue s part q fun u => { u with head := BitVec.ofNat 32 ((u.head.toNat + 1) % 2 ^ u.qlog) }) part q
      (BitVec.ofNat 512 (bytesNum (l.map fun b => b.1)))

/-- The LAUNCH packet of a device post (R280, R295). -/
def postPkt (record : DWord) : Record := BitVec.ofNat 512 (1 + record.toNat * 2 ^ 64)

/-- The front end accepts the next packet of a queue: a device post that has arrived, else the ring entry at HEAD; while a post waits in a stopped queue's
buffer, no entry of the ring overtakes it (R295). -/
def execPacketAccept (part q : Nat) (s : State) : Out :=
  let u := queueOf s part q
  if !accepting u then .next s else
  match (if u.qstat = 2 then none else u.posts.head?) with
  | some d =>
    let s1 := modQueue s part q fun u => { u with posts := u.posts.drop 1 }
    .next (kickFront (post (acceptPkt s1 part q (postPkt d.record)) [.packetAccept part q]) part)
  | none =>
    if u.head = u.tail || !u.posts.isEmpty then .next s
    else match frontAsks s part [u.qbase + BitVec.ofNat 64 (64 * u.head.toNat)] with
    | some t => .next t
    | none => .next (kickFront (post (acceptRing s part q u) [.packetAccept part q]) part)

/-- A device-side LAUNCH as it reaches the front end (R280, R295, R303): the status of its reply, or none when its context is being torn
down, which refuses it with cause 8 and counts as a failure for the next EVENT of the queue (R297). -/
def launchPost (s : State) (part core slot q : Nat) (record : DWord) (req : Option Nat) : Option Nat × State :=
  let u := queueOf s part q
  if (getPart s part).tearing then
    (none, journal (modQueue { s with reqId := s.reqId + 1 } part q fun u => { u with fails := u.fails ++ [(s.reqId, 8, record)] }) part 1 q 8
      0xFFFFFFFF record 0)
  else if !accepting u then (some 2, s)
  else if 16 ≤ u.posts.length then (some 1, s)
  else (some 0, post (modQueue s part q fun u => { u with posts := u.posts ++ [{ record := record, core := core, slot := slot, req := req }] })
    [.packetAccept part q])

/-! ## Registers (R294, R361) -/

/-- The queue after a write to TAIL (R294). -/
def writeTail (s : State) (part q : Nat) (v : Word) : State :=
  let u := queueOf s part q
  if 2 ^ u.qlog ≤ v.toNat then queueError s part q 1 0 v.toNat
  else post (modQueue s part q fun u => { u with tail := v }) [.packetAccept part q]

/-- The host's doorbell (R294). -/
def execTail (part q : Nat) (val : Word) (s : State) : Out := .next (if 64 ≤ q || !presented s then s else writeTail s part q val)

/-- QEN written (R294): written 0 and then 1, a queue in error starts anew; packets accepted earlier run on. -/
def writeQen (s : State) (part q : Nat) (on : Bool) : State :=
  let u := queueOf s part q
  if on = u.qen then s
  else if on then
    post (modQueue s part q fun u => if u.qstat = 3 then { u with qen := true, qstat := if u.pkts.isEmpty then 0 else 1, head := 0, tail := 0 } else { u with qen := true })
      [.packetAccept part q]
  else modQueue s part q fun u => { u with qen := false }

/-- The host writes QEN (R294). -/
def execQen (part q : Nat) (on : Bool) (s : State) : Out := .next (if 64 ≤ q || !presented s then s else writeQen s part q on)

/-- A command of the partition block (R294, R308): ignored while CSTAT is 1, and when it is not one of the four. -/
def writeCmd (s : State) (part cmd carg : Nat) : State :=
  let p := getPart s part
  if p.cstat = 1 || cmd = 0 || 4 < cmd then s else
  post (modPart s part fun p => { p with cstat := 1, cmd := cmd, carg := carg })
    [if cmd = 1 then .preempt part else if cmd = 2 then .resume part else if cmd = 3 then .vacate part else .teardown part]

/-- The partition block written, 64 bits at a time (R294). -/
def writePartBlock (s : State) (part off v : Nat) : State :=
  if off = 0 then modPart s part fun p => { p with ptroot := BitVec.ofNat 64 v }
  else if off = 8 then modPart s part fun p => { p with psave := BitVec.ofNat 64 v }
  else if off = 16 then writeCmd (modPart s part fun p => { p with psavesz := BitVec.ofNat 32 v }) part (field v 39 32) (field v 63 48)
  else if off = 24 then modPart s part fun p => { p with crec := BitVec.ofNat 64 v }
  else s

/-- A queue block written, 64 bits at a time (R294): QBASE, QLOG and QPRIO only while QEN is 0, then QEN, then the doorbell. -/
def writeQueueBlock (s : State) (part q off v : Nat) : State :=
  if off = 0 then modQueue s part q fun u => if u.qen then u else { u with qbase := BitVec.ofNat 64 v }
  else if off = 8 then
    let s1 := modQueue s part q fun u => if u.qen then u else { u with qlog := field v 4 0, qprio := field v 6 5 }
    writeTail (writeQen s1 part q (v.testBit 7)) part q (BitVec.ofNat 32 (field v 63 32))
  else s

/-- The fabric page written, 64 bits at a time (R361). -/
def writeFabric (s : State) (part off v : Nat) : State :=
  if off = 0 then modPart s part fun p => { p with hmode := v.testBit 0, prq := v.testBit 1, ivec := field v 42 32 }
  else if off = 8 then modPart s part fun p => { p with rkey := BitVec.ofNat 32 (field v 63 32) }
  else if 0x800 ≤ off && off < 0x1000 then
    let c := (off - 0x800) / 32
    let f := fun (m : Comm) =>
      if off % 32 = 0 then { m with rank := field v 15 0, nrank := field v 31 16,
                                    ptab := BitVec.ofNat 64 (m.ptab.toNat / 2 ^ 32 * 2 ^ 32 + field v 63 32) }
      else if off % 32 = 8 then { m with ptab := BitVec.ofNat 64 (m.ptab.toNat % 2 ^ 32 + field v 31 0 * 2 ^ 32) } else m
    modPart s part fun p => { p with comms := mapSet {} p.comms c (f (mapGet {} p.comms c)) }
  else s

/-- A 64-bit write by the host or the management processor to a control page, or, from offset 0x10000, to the fabric page (R294, R361). -/
def execRegisterWrite (part off : Nat) (val : DWord) (s : State) : Out :=
  let v := val.toNat
  .next (if off % 8 != 0 || !presented s then s
    else if 0x10000 ≤ off then writeFabric s part (off - 0x10000) v
    else if off < 0x1000 then writeQueueBlock s part (off / 64) (off % 64) v
    else writePartBlock s part (off - 0x1000) v)

/-! ## Nodes (R298 to R300) -/

/-- CAUSE of a node record written (R298). -/
def writeCause (s : State) (part : Nat) (addr : DWord) (c : Nat) : State := tryWrite s part (addr + 25) 1 c

/-- A node enters the ready pool (R299, R300). -/
def nodeReady (s : State) (part : Nat) (addr : DWord) : State :=
  let o := (getPart s part).order
  let s1 := writeState (modPart s part fun p => { p with order := o + 1 }) part addr 2
  post (modNode s1 part addr fun n => { n with st := 2, order := o }) ((diesOf (getPart s part).lay).map fun d => .blockPlacement part d)

/-- A node accepted (R299, R300): the front end keeps its copy of the records, and gives it its tag. -/
def acceptNode (s : State) (part q : Nat) (k : Pkt) (addr : DWord) (r : NodeRec) (n : Nat) : State :=
  let la := launchOf s part n
  let tag := if la.estn = 0 then 0 else (freeTag (getPart s part)).getD 0
  let succs := (List.range r.nsucc).map fun i => BitVec.ofNat 64 ((vaRead s part (r.succ + BitVec.ofNat 64 (8 * i)) 8).getD 0)
  let node : Node := { addr := addr, la := la, queue := q, seq := k.seq, acc := k.acc, estag := tag, st := 1, succs := succs }
  let s1 := modPart s part fun p =>
    { p with nodes := (p.nodes.filter fun m => m.addr != addr) ++ [node], estags := if tag = 0 then p.estags else p.estags ++ [tag] }
  let s2 := tryWrite s1 part (addr + 24) 12 (recordOf [(0, 1), (16, tag), (32, q), (64, k.seq.toNat)])
  if r.pred = 0 then nodeReady s2 part addr else s2

/-- The pages that the checks of a LAUNCH touch: of its node record, its launch record, and the areas that these name (R302). -/
def launchPages (s : State) (part : Nat) (a : DWord) : List DWord :=
  if badAddr a then [] else a ::
  match vaRead s part a 64 with
  | none => []
  | some rn =>
    let r := nodeRecOf rn
    if badAddr r.lrec then [] else r.lrec :: (r.lrec + 511) :: (if r.nsucc = 0 then [] else areaPages r.succ (8 * r.nsucc)) ++
    match vaRead s part r.lrec 512 with
    | none => []
    | some n =>
      let la := launchOf s part n
      [la.code, la.stoparea] ++ areaPages (BitVec.ofNat 64 (field n 255 192)) (8 * min 4096 (field n 287 256)) ++
      (if la.dims = 0 then [] else [la.backing]) ++ (if la.estn = 0 then [] else [la.estate]) ++
      (if la.argb = 0 then [] else areaPages la.args la.argb) ++ la.tiles

/-- A LAUNCH starts: the checks of R302, and its node accepted or refused (R296, R299, R300). -/
def execLaunchPacket (part q : Nat) (s : State) : Out :=
  match mayStart s part q 1 with
  | none => .next s
  | some k =>
    let a := pktOperand k.body
    match (if k.late then none else frontAsks s part (launchPages s part a)) with
    | some t => .next t
    | none =>
    let s1 := markStarted s part q k
    if k.late then .next (finishPkt s1 part q k 8 a) else
    match (if badAddr a then none else vaRead s1 part a 64) with
    | none => .next (finishPkt s1 part q k 3 a)
    | some rn =>
      let r := nodeRecOf rn
      match (if badAddr r.lrec then none else vaRead s1 part r.lrec 512) with
      | none => .next (finishPkt s1 part q k 3 a)
      | some n =>
        let c := launchCause s1 part r n
        if c = 0 then .next (kickFront (acceptNode s1 part q k a r n) part)
        else .next (finishPkt (if r.state = 0 then writeCause (writeState s1 part a 5) part a c else s1) part q k c a)

/-- Whether every group of a node has exited or been killed (R299). -/
def allGone (n : Node) : Bool :=
  (List.range (blockCount n.la)).all fun b => (List.range (groupsPerBlock n.la)).all fun g => groupGone n b g

/-- Whether stores and posts of a node are still on their way, its block transfers among them (R299). -/
def nodeInFlight (s : State) (part : Nat) (addr : DWord) : Bool :=
  let mine := fun (e : SbEntry) => e.part == part && e.node == addr
  (s.cores.any fun k => k.2.bufs.any fun b => b.ents.any mine) || (s.clusters.any fun k => k.2.wq.any mine) ||
  ((getPart s part).bte.any fun q => q.2.items.any fun i => match i with | .post p => p.node == addr | .fence .. => false) ||
  s.dies.any fun d => d.2.swapq.any fun w => w.part == part && w.node == addr && w.op == 3

/-- One decrement of a completed node's successor (R299); an underflow is journaled. A record that cannot be read is left as it is, with no cause and no
journal entry: R302 checks the array of the successors and not their records, and R299 does not say (DESIGN CHOICE, log 82). -/
def decrement (part : Nat) (addr : DWord) (s : State) (succ : DWord) : State × Bool :=
  match vaRead s part (succ + 8) 4 with
  | none => (s, false)
  | some 0 => (journal s part 0x89 0 0 0 succ addr, true)
  | some (v + 1) =>
    let s1 := (engWrite s part (succ + 8) 4 v).getD s
    if v = 0 && vaRead s1 part (succ + 24) 1 == some 1 then (nodeReady s1 part succ, false) else (s1, false)

/-- Every successor decremented: whether one underflowed. -/
def decrements (part : Nat) (addr : DWord) : List DWord → State → State × Bool
  | [], s => (s, false)
  | a :: t, s =>
    let p := decrement part addr s a
    let q := decrements part addr t p.1
    (q.1, p.2 || q.2)

/-- The place of a node's LAUNCH in the order of acceptance, and the packet itself. -/
def nodePkt (s : State) (part : Nat) (n : Node) : Pkt :=
  ((queueOf s part n.queue).pkts.find? fun k => k.seq == n.seq).getD { seq := n.seq, acc := n.acc, body := postPkt n.addr }

/-- The cores of a node give it up. -/
def dropHolder (s : State) (part : Nat) (addr : DWord) : State :=
  { s with cores := s.cores.map fun k => (k.1, if k.2.part == part && k.2.node == some addr && k.2.slots.isEmpty then { k.2 with node := none } else k.2) }

/-- A node is DONE once every group has exited, every holding is conveyed and its stores have reached device scope; then its successors are
decremented and its LAUNCH completes (R188, R297, R299, R330). -/
def execNodeDone (part node : Nat) (s : State) : Out :=
  let addr := BitVec.ofNat 64 node
  match findNode s part addr with
  | none => .next s
  | some n =>
    if n.st != 3 || !allGone n || n.walksLeft != 0 || nodeInFlight s part addr then .next s else
    match frontAsks s part (addr :: n.succs) with
    | some t => .next t
    | none =>
    let k := nodePkt s part n
    let s1 := writeState s part addr 4
    let d := decrements part addr n.succs s1
    let cause := if n.cause != 0 then n.cause else if d.2 then 0x21 else 0
    let s2 := if cause = 0 then d.1 else writeCause d.1 part addr cause
    let s3 := modPart s2 part fun p => { p with nodes := p.nodes.filter fun m => m.addr != addr, estags := p.estags.filter fun t => t != n.estag }
    let s4 := finishPkt (dropHolder s3 part addr) part n.queue k cause addr
    .next (post (clearDenied s4 part) ((diesOf (getPart s part).lay).map fun d => .blockPlacement part d))

/-! ## The other packets -/

/-- QFENCE (R295): it completes at its start, when every packet accepted earlier into the named queues has completed. -/
def execQfence (part q : Nat) (s : State) : Out :=
  match mayStart s part q 3 with
  | none => .next s
  | some k => .next (finishPkt (markStarted s part q k) part q k 0 0)

/-- The failures that an EVENT reports: those of the packets accepted before it (R297). -/
def eventFails (u : Queue) (k : Pkt) : List (Nat × Nat × DWord) := u.fails.filter fun f => decide (f.1 < k.acc)

/-- The first 28 bytes of the record that an EVENT writes (R297). -/
def eventBody (u : Queue) (k : Pkt) : Nat :=
  recordOf [(0, k.seq.toNat), (32, if (eventFails u k).isEmpty then 0 else 1),
    (40, match (eventFails u k).head? with | some f => f.2.1 | none => 0), (64, pktTag k.body),
    (128, match (eventFails u k).find? fun f => f.2.2 != 0 with | some f => f.2.2.toNat | none => 0), (192, u.notes)]

/-- The interrupt that an EVENT asks for (R297). -/
def eventIrq (s : State) (part : Nat) (k : Pkt) : State :=
  { s with irqs := s.irqs ++ (if (pktTag k.body).testBit 31 then [(part, (getPart s part).ivec)] else []) }

/-- The failures that an EVENT has reported are forgotten (R297). -/
def forgetFails (k : Pkt) (u : Queue) : Queue := { u with fails := u.fails.filter fun f => decide (k.acc ≤ f.1), notes := 0 }

/-- EVENT (R297): the record, DONE last; one that cannot be written is refused with cause 3 and carries the failures over. -/
def execEvent (part q : Nat) (s : State) : Out :=
  match mayStart s part q 4 with
  | none => .next s
  | some k =>
    let a := pktOperand k.body
    match (if a.toNat % 32 != 0 then none else frontAsks s part [a]) with
    | some t => .next t
    | none =>
    let s1 := markStarted s part q k
    match (if a.toNat % 32 != 0 then none else (engWrite s1 part a 28 (eventBody (queueOf s part q) k)).bind fun t => engWrite t part (a + 28) 4 1) with
    | none => .next (finishPkt (eventIrq s1 part k) part q k 3 0)
    | some s2 => .next (finishPkt (eventIrq (modQueue s2 part q (forgetFails k)) part k) part q k 0 0)

/-- Whether a semaphore satisfies a WAITSEM (R295); `none` where it cannot be read. -/
def semHolds (s : State) (part : Nat) (b : Record) : Option Bool :=
  let v := field b.toNat 191 128
  (vaRead s part (pktOperand b) 8).map fun w =>
    match field b.toNat 193 192 with | 0 => decide (v ≤ w) | 1 => w == v | _ => w != v

/-- WAITSEM starts (R295); it completes when its word satisfies it. -/
def execWaitsem (part q : Nat) (s : State) : Out :=
  match mayStart s part q 5 with
  | none => .next s
  | some k =>
    match (if (pktOperand k.body).toNat % 8 != 0 then none else frontAsks s part [pktOperand k.body]) with
    | some t => .next t
    | none =>
    let s1 := markStarted s part q k
    match (if (pktOperand k.body).toNat % 8 != 0 then none else semHolds s part k.body) with
    | none => .next (finishPkt s1 part q k 3 0)
    | some true => .next (finishPkt s1 part q k 0 0)
    | some false => .next (kickFront s1 part)

/-- A WAITSEM that has started reads its word again (R295). -/
def execWaitsemReread (part q : Nat) (s : State) : Out :=
  match (queueOf s part q).pkts.find? fun k => k.started && pktType k.body == 5 with
  | none => .next s
  | some k =>
    if !frontRuns s part then .next s
    else match frontAsks s part [pktOperand k.body] with
    | some t => .next t
    | none => if semHolds s part k.body == some true then .next (finishPkt s part q k 0 0) else .next s

/-- The value that a SIGNAL leaves in its word, where it can be formed (R295). -/
def signalValue (s : State) (part : Nat) (k : Pkt) : Option Nat :=
  if k.body.toNat.testBit 192 then (vaRead s part (pktOperand k.body) 8).map fun w => (w + field k.body.toNat 191 128) % 2 ^ 64
  else some (field k.body.toNat 191 128)

/-- SIGNAL (R295): one atomic step at the word's home slice. -/
def execSignal (part q : Nat) (s : State) : Out :=
  match mayStart s part q 6 with
  | none => .next s
  | some k =>
    let a := pktOperand k.body
    match (if a.toNat % 8 != 0 then none else frontAsks s part [a]) with
    | some t => .next t
    | none =>
    let s1 := markStarted s part q k
    match (if a.toNat % 8 != 0 then none else (signalValue s part k).bind fun w => engWrite s1 part a 8 w) with
    | none => .next (finishPkt s1 part q k 3 0)
    | some s2 => .next (finishPkt s2 part q k 0 0)

/-- Whether a cached translation is covered by a TLBI (R295). -/
def covered (part base pages : Nat) (t : TlbEnt) : Bool :=
  t.part == part && (pages == 0 || (decide (t.base < base + 65536 * pages) && decide (base < t.base + t.size)))

/-- The covered translations dropped everywhere, and all that the page-walk caches hold of the partition (R252). -/
def dropCovered (s : State) (part base pages : Nat) : State :=
  { s with cores := s.cores.map fun k => (k.1, { k.2 with tlb := k.2.tlb.filter fun t => !covered part base pages t }),
           dies := s.dies.map fun d => (d.1, { d.2 with stlb := d.2.stlb.filter fun t => !covered part base pages t,
                                                        pwc := d.2.pwc.filter fun t => t.1 / 2 ^ 60 != part }) }

/-- Whether nothing translated earlier is still on its way (R252): no walk, no buffered or queued write, no load out. -/
def quietPart (s : State) (part : Nat) : Bool :=
  (s.dies.all fun d => d.2.walks.all fun w => w.part != part) &&
  (s.cores.all fun k => k.2.part != part || (k.2.bufs.isEmpty && k.2.slots.all fun g => g.2.pend.isEmpty)) &&
  (s.clusters.all fun c => c.2.wq.all fun e => e.part != part)

/-- A waiting lane of WAITW or TRYW with the address that its word has by the tables as they stand. -/
def laneMoved (s : State) (part : Nat) (l : WaitLane) : WaitLane :=
  if l.loc || l.seen.isSome then l else
  match engTrans s part l.va .read with
  | .ok pa _ => { l with addr := pa }
  | _ => l

/-- An entry BLOCKED in WAITW or TRYW reads on by the new translation once a TLBI completes (R164, R252): it meets a fault of that, and where the page has
to be asked for it issues anew. -/
def waitMoved (part core slot : Nat) (s : State) (e : Entry) : State :=
  match e.st, e.wait, getGroup s core slot with
  | .blocked, some (.word _ _ _ _ ls _ _), some g =>
    let out := ls.filter fun l => !l.loc && l.seen.isNone
    if out.any fun l => mustAsk s part l.va then
      modFront s core slot fun l => modEntry l e.mask fun e => { e with st := .live, wait := none }
    else match out.findSome? fun l => (match engTrans s part l.va .read with | .fault k => some (k, l.va) | _ => none) with
      | some f => takeFault s core slot e.mask true f.1 f.2 0 (match findNode s g.part g.node with | some n => n.la.btab | none => [])
      | none => setWaitLanes s core slot e.mask (laneMoved s part)
  | _, _, _ => s

/-- The waits of a partition's groups after a TLBI (R252). -/
def waitsMoved (s : State) (part : Nat) : State :=
  s.cores.foldl (fun s k => if k.2.part != part then s else
    k.2.slots.foldl (fun s g => g.2.front.foldl (waitMoved part k.1 g.1) s) s) s

/-- TLBI (R252, R295): the covered translations are dropped at its start, and again when everything translated earlier has ended, which
completes it; what still waits for a word reads it by the new translation from then on. -/
def execTlbi (part q : Nat) (s : State) : Out :=
  let go := fun (s : State) (k : Pkt) =>
    let base := (pktOperand k.body).toNat % 2 ^ 57
    let s1 := dropCovered s part base (field k.body.toNat 159 128)
    if quietPart s1 part then finishPkt (waitsMoved s1 part) part q k 0 0 else kickFront s1 part
  match (queueOf s part q).pkts.find? fun k => k.started && pktType k.body == 7 with
  | some k => if frontRuns s part then .next (go s k) else .next s
  | none =>
    match mayStart s part q 7 with
    | none => .next s
    | some k =>
      let s1 := markStarted s part q k
      if !canonical (pktOperand k.body) || (pktOperand k.body).toNat % 65536 != 0 then .next (finishPkt s1 part q k 3 0)
      else .next (go s1 k)

end Sys2Proof.Machine
end

