-- ==== Sys2Proof/Machine/Coll.lean ====
section
/-! DEFINITION. Collectives (spec/22 R362 to R366): COLL packets, the steps of their programs, and their completion. -/
namespace Sys2Proof.Machine

/-! ## Steps (R363) -/

/-- The fields of a step. -/
structure CStep where
  sop : Nat
  pm : Bool
  ch : Bool
  cn : Bool
  sg : Bool
  lc : Nat
  redop : Nat
  ety : Nat
  poff : Nat
  bytes : Nat
  loff : Nat
  coff : Int
  doff : Nat
  target : Nat
deriving DecidableEq, Repr

/-- A step from its 16 bytes. -/
def stepOf (n : Nat) : CStep :=
  { sop := field n 3 0, pm := n.testBit 4, ch := n.testBit 5, cn := n.testBit 6, sg := n.testBit 7, lc := field n 9 8,
    redop := field n 11 10, ety := field n 15 12, poff := field n 31 16, bytes := field n 63 32, loff := field n 95 64,
    coff := (BitVec.ofNat 8 (field n 103 96)).toInt, doff := field n 127 104, target := field n 127 96 }

/-- Whether a step is malformed (R363, R366). -/
def stepBad (st : CStep) : Bool :=
  st.sop = 0 || 8 ≤ st.sop ||
  (if st.sop ≤ 4 then
    st.bytes = 0 || (if st.redop = 0 then st.ety != 0 else !etyOk st.ety) || (st.redop != 0 && st.bytes % elemWidth st.ety != 0)
  else st.bytes != 0) ||
  (st.sop = 6 && (st.loff = 0 || 4095 < st.target))

/-- A running collective replaced; `none` ends it. -/
def setColl (s : State) (part : Nat) (c : CollRun) (new : Option CollRun) : State :=
  modPart s part fun p => { p with colls := p.colls.flatMap fun d =>
    if d.q == c.q && d.pseq == c.pseq then (match new with | some e => [e] | none => []) else [d] }

/-- The step at which a collective stands; `none` where it cannot be read. -/
def stepNow (s : State) (part : Nat) (c : CollRun) : Option CStep :=
  (vaRead s part (c.prog + BitVec.ofNat 64 (16 * c.pc)) 16).map stepOf

/-- The event of a kind of step. -/
def stepEvent (part q sop : Nat) : Instr :=
  match sop with
  | 2 => .recv part q | 3 => .rrs part q | 4 => .copy part q | 5 => .wait part q | 6 => .loop part q | 7 => .next part q | _ => .send part q

/-- The events of the steps at which the collectives of a partition stand. -/
def collEvents (s : State) (part : Nat) : List Instr :=
  (getPart s part).colls.map fun c => stepEvent part c.q (match stepNow s part c with | some st => st.sop | none => 1)

/-- A collective ends (R366): its COLL completes with a cause, or with 0. -/
def endColl (s : State) (part : Nat) (c : CollRun) (cause : Nat) : State :=
  let s1 := setColl (if cause = 0x32 then clearDenied s part else s) part c none
  match (queueOf s1 part c.q).pkts.find? fun k => k.seq == c.pseq with
  | some k => finishPkt s1 part c.q k cause 0
  | none => s1

/-! ## Addresses and peers (R364) -/

/-- The chunk index of a step. -/
def chunkOf (s : State) (part : Nat) (c : CollRun) (st : CStep) : Nat :=
  let m := commOf s part c.comm
  let l : Int := (mapGet 0 c.lc st.lc : Nat)
  if st.ch then (((m.rank : Int) + (if st.cn then -l else l) + st.coff) % (m.nrank : Int)).toNat else 0

/-- The local address of a step's chunk. -/
def chunkVa (s : State) (part : Nat) (c : CollRun) (st : CStep) : DWord := c.lbase + BitVec.ofNat 64 (st.loff + st.bytes * chunkOf s part c st)

/-- The destination peer of a step. -/
def peerTo (s : State) (part : Nat) (c : CollRun) (st : CStep) : Nat :=
  let m := commOf s part c.comm
  if st.pm then m.rank ^^^ st.poff else (m.rank + st.poff) % m.nrank
/-- The source peer of a step. -/
def peerFrom (s : State) (part : Nat) (c : CollRun) (st : CStep) : Nat :=
  let m := commOf s part c.comm
  if st.pm then m.rank ^^^ st.poff else (m.rank + m.nrank - st.poff % m.nrank) % m.nrank

/-- Whether a communicator is one of which this device is a rank (R361). -/
def commOk (m : Comm) : Bool := m.nrank != 0 && decide (m.rank < m.nrank)

/-- How a step ends: the state with the step done, a wait, or a cause that ends the collective (R366). -/
inductive StepEnd where
  | ok (s : State) (c : CollRun)
  | wait
  | fail (s : State) (cause : Nat)

/-- The collective immediate of a write (R365). -/
def collImm (sop redop ety comm seq : Nat) : Word :=
  BitVec.ofNat 32 (recordOf [(0, sop), (4, redop), (6, ety), (10, comm), (16, seq % 2 ^ 16)])

/-- A chunk written to a peer (R364, R365): a source that faults or is poisoned ends the collective, and so does a peer entry that is none,
as a peer error (R5, the model's choice: log 72). -/
def sendChunk (s : State) (part : Nat) (c : CollRun) (st : CStep) : StepEnd :=
  let m := commOf s part c.comm
  let p := peerTo s part c st
  let va := chunkVa s part c st
  if m.nrank ≤ p then .fail s 0x31 else
  match readDevice s part va st.bytes, peerEntry s part c.comm p with
  | _, .bad => .fail s 0x31
  | .ok bytes bad, .ok qp key rbase =>
    if !bad.isEmpty then .fail (logPoison s part bad) 0x32 else
    let n := mapGet 0 c.sent p
    let r : Rdma := { qp := qp, part := part, q := c.q, isColl := true, pseq := c.pseq, isRead := false,
                      dst := rbase + (va - c.lbase), len := st.bytes, pkey := key, data := bytes.map (·.1),
                      imm := some (collImm st.sop st.redop st.ety c.comm n) }
    .ok (sendRequests s [r]) { c with sent := mapSet 0 c.sent p (n + 1), unacked := c.unacked + 1 }
  | _, _ => .fail s 0x32

/-- The next arrival from a step's source taken (R364, R366). -/
def takeArrival (s : State) (part : Nat) (c : CollRun) (st : CStep) : StepEnd :=
  let m := commOf s part c.comm
  let q := peerFrom s part c st
  let n := mapGet 0 c.got q
  if m.nrank ≤ q then .fail s 0x31 else
  match c.arrivals.find? fun a => a.src == q && a.seq == n % 2 ^ 16 with
  | none => .wait
  | some a =>
    if a.va == chunkVa s part c st && a.len == st.bytes then
      .ok s { c with got := mapSet 0 c.got q (n + 1), arrivals := c.arrivals.erase a }
    else .fail s 0x33

/-- A chunk copied or reduced locally (R364). -/
def copyChunk (s : State) (part : Nat) (c : CollRun) (st : CStep) : StepEnd :=
  let dst := c.lbase + BitVec.ofNat 64 (128 * st.doff + st.bytes * chunkOf s part c st)
  match readDevice s part (chunkVa s part c st) st.bytes with
  | .fault .. => .fail s 0x32
  | .ok bytes bad =>
    match destPas s part (if st.redop = 0 then .write else .rdwr) dst st.bytes with
    | .error _ => .fail s 0x32
    | .ok pas =>
      let s1 := putAt (logPoison s part bad) part dst (if st.redop = 0 then pas.zip bytes else redBytes s st.redop st.ety 0 pas bytes)
      if bad.isEmpty then .ok s1 c else .fail s1 0x32

/-- SIGW raised by a step that asks for it (R364). -/
def signalStep (part : Nat) (c : CollRun) (st : CStep) : StepEnd → StepEnd
  | .ok s d =>
    if !st.sg || c.sigw = 0 then .ok s d else
    match (vaRead s part c.sigw 4).bind fun w => engWrite s part c.sigw 4 ((w + 1) % 2 ^ 32) with
    | some t => .ok t d
    | none => .fail s 0x32
  | e => e

/-- A loop counter advanced (R364): the step at which the program goes on. -/
def loopStep (c : CollRun) (st : CStep) : CollRun :=
  let n := mapGet 0 c.lc st.lc + 1
  if n < st.loff then { c with lc := mapSet 0 c.lc st.lc n, pc := st.target } else { c with lc := mapSet 0 c.lc st.lc 0, pc := c.pc + 1 }

/-- A step's own work (R364). -/
def stepWork (s : State) (part : Nat) (c : CollRun) (st : CStep) : StepEnd :=
  match st.sop with
  | 1 => sendChunk s part c st
  | 2 => takeArrival s part c st
  | 3 => (match takeArrival s part c st with
    | .ok s1 d => sendChunk s1 part d st
    | e => e)
  | 4 => copyChunk s part c st
  | 5 | 7 => if c.unacked = 0 then .ok s c else .wait
  | _ => .ok s (loopStep c st)

/-- The pages that a step of a collective touches (R364). -/
def stepPages (s : State) (part : Nat) (c : CollRun) (st : CStep) : List DWord :=
  (if st.sop = 1 || st.sop = 3 || st.sop = 4 then areaPages (chunkVa s part c st) st.bytes else []) ++
  (if st.sop = 1 || st.sop = 3 then let p := peerAddr s part c.comm (peerTo s part c st); [p, p + 31] else []) ++
  (if st.sop = 4 then areaPages (c.lbase + BitVec.ofNat 64 (128 * st.doff + st.bytes * chunkOf s part c st)) st.bytes else []) ++
  if st.sg && c.sigw != 0 then [c.sigw] else []

/-- The pages for which a collective asks the host before its step (R369, R371): `none` where it needs none, else the state with what is asked anew, or
nothing where all is asked already. -/
def stepAsks (s : State) (part : Nat) (vas : List DWord) : Option (Option State) :=
  match frontAsks s part vas with
  | none => none
  | some t =>
    let out := fun (va : DWord) => (getDie s (part % 4)).walks.any fun u => u.part == part && u.asked && u.waiters.contains (frontWaits part va)
    some (if (vas.filter (mustAsk s part)).all out then none else some t)

/-- One step of a collective (R364, R366): `none` while it waits. -/
def collStep (s : State) (part sop : Nat) (c : CollRun) : Option State :=
  let m := commOf s part c.comm
  if 4095 < c.pc then (if sop = 1 then some (endColl s part c 0x30) else none) else
  match stepAsks s part [c.prog + BitVec.ofNat 64 (16 * c.pc)] with
  | some t => if sop = 1 then t else none
  | none =>
  match stepNow s part c with
  | none => if sop = 1 then some (endColl s part c 0x32) else none
  | some st =>
    if stepBad st then (if sop = 1 || st.sop = sop then some (endColl s part c 0x30) else none)
    else if st.sop ≠ sop then none
    else if !commOk m then some (endColl s part c 0x31)
    else match stepAsks s part (stepPages s part c st) with
    | some t => t
    | none => match signalStep part c st (stepWork s part c st) with
      | .wait => none
      | .fail s1 cause => some (endColl s1 part c cause)
      | .ok s1 d =>
        if sop = 7 then some (endColl s1 part c 0) else
        let d := if sop = 6 then d else { d with pc := d.pc + 1 }
        let s2 := setColl s1 part c (some d)
        some (post s2 [stepEvent part c.q (match stepNow s2 part d with | some st => st.sop | none => 1)])

/-- The first collective of a queue that can make a step of a kind makes it, while the front end runs (R312, R362). -/
def runStep (part q sop : Nat) (s : State) : State :=
  if !frontRuns s part then s else
  (((getPart s part).colls.filter fun c => c.q == q).findSome? (collStep s part sop)).getD s

/-- SEND (R364). -/
def execSend (part q : Nat) (s : State) : Out := .next (runStep part q 1 s)
/-- RECV (R364). -/
def execRecv (part q : Nat) (s : State) : Out := .next (runStep part q 2 s)
/-- RRS (R364). -/
def execRrs (part q : Nat) (s : State) : Out := .next (runStep part q 3 s)
/-- COPY (R364). -/
def execCopy (part q : Nat) (s : State) : Out := .next (runStep part q 4 s)
/-- WAIT (R364). -/
def execWait (part q : Nat) (s : State) : Out := .next (runStep part q 5 s)
/-- LOOP (R364). -/
def execLoop (part q : Nat) (s : State) : Out := .next (runStep part q 6 s)
/-- NEXT (R364). -/
def execNext (part q : Nat) (s : State) : Out := .next (runStep part q 7 s)

/-! ## COLL (R362) -/

/-- Whether the address fields of a COLL can be used (R295, R362). -/
def collAddrOk (s : State) (part : Nat) (b : Record) : Bool :=
  let prog := pktOperand b
  let lbase : DWord := BitVec.ofNat 64 (field b.toNat 191 128)
  let sigw : DWord := BitVec.ofNat 64 (field b.toNat 255 192)
  prog.toNat % 16 == 0 && (vaRead s part prog 16).isSome && canonical lbase && lbase.toNat % 128 == 0 &&
  (sigw == 0 || (sigw.toNat % 4 == 0 && (match engTrans s part sigw .rdwr with | .ok _ _ => true | _ => false)))

/-- The pages that the check of a COLL touches: of its program and of SIGW (R362). -/
def collPages (b : Record) : List DWord :=
  [pktOperand b] ++ if field b.toNat 255 192 = 0 then [] else [BitVec.ofNat 64 (field b.toNat 255 192)]

/-- The collective that a COLL packet starts (R362): at step 0, its counters at 0. -/
def newColl (q : Nat) (k : Pkt) : CollRun :=
  { q := q, pseq := k.seq, prog := pktOperand k.body, lbase := BitVec.ofNat 64 (field k.body.toNat 191 128),
    sigw := BitVec.ofNat 64 (field k.body.toNat 255 192), comm := field k.body.toNat 261 256 }

/-- COLL starts (R362, R296): its program runs. -/
def execColl (part q : Nat) (s : State) : Out :=
  match mayStart s part q 2 with
  | none => .next s
  | some k =>
    match frontAsks s part (collPages k.body) with
    | some t => .next t
    | none =>
    let s1 := markStarted s part q k
    if !collAddrOk s part k.body then .next (finishPkt s1 part q k 3 0) else
    let s2 := modPart s1 part fun p => { p with colls := p.colls ++ [newColl q k] }
    .next (kickFront (post s2 [stepEvent part q (match stepNow s2 part (newColl q k) with | some st => st.sop | none => 1)]) part)

end Sys2Proof.Machine
end

