-- ==== Sys2Proof/Machine/Fabric.lean ====
section
/-! DEFINITION. RoCEv2 and the host port (spec/22 R366 to R368): arriving writes and reads, acknowledgements and retries, congestion and
pauses, host accesses to device memory, function-level reset. -/
namespace Sys2Proof.Machine

/-! ## Requests that arrive (R366, R367) -/

/-- An answer on its way to a peer or the host. -/
def answer (s : State) (w : Wire) : State := { s with wire := s.wire ++ [w] }

/-- RED, ETY, SOP, COMM and SEQ of a collective immediate (R365). -/
def immFields (w : Word) : Nat × Nat × Nat × Nat × Nat :=
  let n := w.toNat
  (field n 5 4, field n 9 6, field n 3 0, field n 15 10, field n 31 16)

/-- Where the bytes of an arriving write go, or none where it is answered with a remote access error (R367): a write's pages have W, a
reducing one's too. -/
def writePas (s : State) (part : Nat) (rkey : Word) (va : DWord) (n : Nat) : Option (List Nat) :=
  if rkey != (getPart s part).rkey then none else
  match destPas s part .write va n with
  | .ok l => some l
  | .error _ => none

/-- An arrival recorded for the running collective of its communicator (R366). -/
def recordArrival (s : State) (part comm src seq len : Nat) (va : DWord) : State :=
  let s1 := modPart s part fun p => { p with colls := p.colls.map fun c =>
    if c.comm == comm then { c with arrivals := c.arrivals ++ [{ src := src, seq := seq, va := va, len := len }] } else c }
  post s1 (collEvents s1 part)

/-- An RDMA WRITE arrives (R366, R367): it is placed or reduced at its home slices, acknowledged, and matched when its immediate is a
collective's. -/
def execRdmaWriteArrival (part comm src : Nat) (rkey : Word) (va : DWord) (bytes : List Byte) (immd : Option Word) (s : State) : Out :=
  let f := match immd with | some w => immFields w | none => (0, 0, 0, 0, 0)
  let l := bytes.map fun b => (b, false)
  if f.1 != 0 && !etyOk f.2.1 then .next (answer s (.refused part)) else
  match writePas s part rkey va bytes.length with
  | none => .next (answer s (.refused part))
  | some pas =>
    let s1 := answer (putAt s part va (if f.1 = 0 then pas.zip l else redBytes s f.1 f.2.1 0 pas l)) (.ack part)
    .next (if (f.2.2.1 == 1 || f.2.2.1 == 3) && f.2.2.2.1 == comm && immd.isSome then recordArrival s1 part comm src f.2.2.2.2 bytes.length va
      else s1)

/-- An RDMA READ arrives (R367): its data goes back, or a remote access error. -/
def execRdmaReadRequest (part : Nat) (rkey : Word) (va : DWord) (len : Nat) (s : State) : Out :=
  if rkey != (getPart s part).rkey then .next (answer s (.refused part)) else
  match readDevice s part va len with
  | .fault .. => .next (answer s (.refused part))
  | .ok l bad =>
    if bad.isEmpty then .next (answer s (.data part (l.map fun b => b.1))) else .next (answer (logPoison s part bad) (.refused part))

/-- A request of a kind that is not supported is NAKed as invalid (R367). -/
def execInvalidRdmaRequest (qp : Nat) (s : State) : Out := .next (answer s (.invalid qp))

/-! ## Requests that the device has sent (R367) -/

/-- The COLL that sent a request. -/
def collOf (s : State) (r : Rdma) : Option CollRun := (getPart s r.part).colls.find? fun c => c.q == r.q && c.pseq == r.pseq

/-- A request that has ended: acknowledged, or failed with STATUS 3 and a code, or for a COLL with a peer error (R351, R366). A peer that refuses a
write has written none of it; so the model counts where the retries are exhausted, too (log 72). -/
def endRequest (s : State) (r : Rdma) (fc : Nat) : State :=
  let s1 := { s with rdma := s.rdma.erase r }
  if r.isColl then
    match collOf s1 r with
    | none => s1
    | some c =>
      if fc != 0 then endColl s1 r.part c 0x31
      else
        let s2 := setColl s1 r.part c (some { c with unacked := c.unacked - 1 })
        post s2 (collEvents s2 r.part)
  else
    let s2 := match r.ident with | some i => modIdent s1 r.part i (lessInFlight 1) | none => s1
    post (modRun s2 r.part r.q fun u =>
      if fc = 0 then { u with awaiting := u.awaiting - 1 }
      else { u with awaiting := u.awaiting - 1, status := 3, fcode := fc, bytesDone := if r.isRead || r.ident.isSome then u.bytesDone else 0 })
      [.bteCompletion r.part r.q]

/-- An acknowledgement, or a refusal, of the oldest request of a queue pair (R367). -/
def execRdmaAck (qp : Nat) (ok : Bool) (s : State) : Out :=
  match s.rdma.find? fun r => r.qp == qp && (!ok || !r.isRead) with
  | none => .next s
  | some r => .next (endRequest s r (if r.bad then 3 else if ok then 0 else 2))

/-- A retransmission timeout of a queue pair (R367): the oldest request is sent again, up to seven times. -/
def execRdmaRetryTimeout (qp : Nat) (s : State) : Out :=
  match s.rdma.find? fun r => r.qp == qp with
  | none => .next s
  | some r =>
    if 7 ≤ r.retries then .next (endRequest s r 1)
    else .next { s with rdma := s.rdma.map fun u => if u = r then { u with retries := u.retries + 1 } else u }

/-- The data of a READ arrives (R367): it is placed at the descriptor's destination, up to the line at which that faults (R353). While the queue stands
still, a packet is not taken: the peer sends it again after its timeout (R354, R367). -/
def execRdmaReadResponse (qp : Nat) (bytes : List Byte) (s : State) : Out :=
  match s.rdma.find? fun r => r.qp == qp && r.isRead with
  | none => .next s
  | some r =>
    if bteHeld s r.part r.q then .next s else
    let l := bytes.take r.len
    match destPas s r.part .write r.dst l.length with
    | .error (k, a) =>
      let n := (BitVec.ofNat 64 (a.toNat / 128 * 128) - r.dst).toNat
      let n := if n < l.length then n else 0
      let s1 := match destPas s r.part .write r.dst n with | .ok pas => putAt s r.part r.dst (pas.zip ((l.take n).map fun b => (b, false))) | .error _ => s
      .next (post (modRun { s1 with rdma := s.rdma.erase r } r.part r.q fun u =>
        { u with awaiting := 0, status := 1, fcode := faultCode k, faddr := a, bytesDone := u.bytesDone + n }) [.bteCompletion r.part r.q])
    | .ok pas =>
      let s1 := modRun (putAt s r.part r.dst (pas.zip (l.map fun b => (b, false)))) r.part r.q fun u => { u with bytesDone := u.bytesDone + l.length }
      if l.length = r.len then .next (endRequest s1 r 0)
      else .next { s1 with rdma := s1.rdma.map fun u =>
        if u = r then { u with len := u.len - l.length, dst := u.dst + BitVec.ofNat 64 l.length } else u }

/-- A congestion notification lowers the rate of its queue pair (R367). -/
def execCongestionNotification (qp : Nat) (s : State) : Out :=
  .next (if !qpRoom s qp then s else { s with qps := mapSet {} s.qps qp { mapGet {} s.qps qp with slow := (mapGet {} s.qps qp).slow + 1 } })

/-- A pause frame stops or restarts a priority of a port (R367): eight ports on each of four I/O dies (R26). -/
def execPfcPause (port prio : Nat) (on : Bool) (s : State) : Out :=
  let l := s.paused.filter fun p => p != (port, prio)
  .next (if 32 ≤ port || 8 ≤ prio then s else { s with paused := if on then (if s.paused.contains (port, prio) then s.paused else s.paused ++ [(port, prio)]) else l })

/-! ## The host's port (R368) -/

/-- The 64 bytes of a control page from an offset (R294): a queue block, the partition block, or zeros; write-only fields read zero (R6). -/
def controlBlock (p : Part) (k : Nat) : Nat :=
  if k < 64 then
    let u := mapGet {} p.queues k
    recordOf [(0, u.qbase.toNat), (64, u.qlog), (69, u.qprio), (71, u.qen.toNat), (96, u.tail.toNat), (128, u.head.toNat), (160, u.qstat)]
  else if k = 64 then recordOf [(0, p.ptroot.toNat), (64, p.psave.toNat), (128, p.psavesz.toNat), (256, p.cstat)] else 0

/-- A communicator entry (R361). -/
def commEntry (m : Comm) : Nat := recordOf [(0, m.rank), (16, m.nrank), (32, m.ptab.toNat)]

/-- The 64 bytes of a fabric page from an offset (R361): its block, LATE, two communicator entries, or zeros. -/
def fabricBlock (p : Part) (k : Nat) : Nat :=
  if k = 0 then recordOf [(0, p.hmode.toNat), (1, p.prq.toNat), (32, p.ivec), (96, p.rkey.toNat)]
  else if k = 1 then p.late.toNat
  else if 32 ≤ k && k < 64 then
    commEntry (mapGet {} p.comms (2 * (k - 32))) + 2 ^ 256 * commEntry (mapGet {} p.comms (2 * (k - 32) + 1))
  else 0

/-- A byte of the journal window (R340): the ring, and NEXT behind it. -/
def journalByte (p : Part) (off : Nat) : Byte :=
  if off < 0x200000 then
    let d := (p.jnext + 65535 - off / 32) % 65536
    if p.jnext ≤ d then 0 else
    match p.journal[d]? with
    | some e => (e >>> (8 * (off % 32))).setWidth 8
    | none => 0
  else if off < 0x200008 then BitVec.ofNat 8 (p.jnext / 256 ^ (off - 0x200000)) else 0

/-- A byte of the pages through which the host reaches a partition: its control page, its journal window, its fabric page (R294, R340, R361). -/
def pageByte (p : Part) (part pa : Nat) : Option Byte :=
  let at_ := fun (base size : Nat) => if base + part * size ≤ pa && pa < base + (part + 1) * size then some (pa - base - part * size) else none
  match at_ 0xE000000000000 0x10000, at_ 0xE000100000000 0x400000, at_ 0xE000200000000 0x10000 with
  | some o, _, _ => some (BitVec.ofNat 8 (controlBlock p (o / 64) / 256 ^ (o % 64)))
  | _, some o, _ => some (journalByte p o)
  | _, _, some o => some (BitVec.ofNat 8 (fabricBlock p (o / 64) / 256 ^ (o % 64)))
  | _, _, _ => none

/-- A write of eight bytes into a partition's control or fabric page is a register write (R294, R361); the journal window takes none (R340). The spec gives
no width of a host's register access (R6, R294): one of eight bytes is a register write, and one of any other length changes nothing, a write of four
bytes to TAIL being the event `tail` of its own (DESIGN CHOICE, log 83). -/
def pageWrite (part pa : Nat) (l : List Byte) (s : State) : Out :=
  let v := BitVec.ofNat 64 (bytesNum l)
  if l.length != 8 then .next s
  else if pa < 0xE000100000000 then execRegisterWrite part (pa - 0xE000000000000 - part * 0x10000) v s
  else if 0xE000200000000 ≤ pa then execRegisterWrite part (0x10000 + (pa - 0xE000200000000 - part * 0x10000)) v s
  else .next s

/-- The partition to which a function of the host's port is bound (R368): the one of its number modulo 8, unless it has been bound to another. -/
def fnPart (s : State) (fn : Nat) : Nat := mapGet (fn % 8) s.fns fn

/-- A host access through one of its functions (R368): BAR0 and BAR2 map the bound partition's pages and its journal, BAR4 its HBM share, served at the
home slices, a store to a live holding refused there (R187). -/
def execHostMemoryAccess (fn pa : Nat) (write : Option (List Byte)) (len : Nat) (s : State) : Out :=
  let part := fnPart s fn
  let p := getPart s part
  let lay := p.lay
  if !presented s then .next s
  else if (pageByte p part pa).isSome then
    match write with
    | some l => pageWrite part pa l s
    | none => .next (answer s (.data part ((List.range len).map fun j => (pageByte p part (pa + j)).getD 0)))
  else
  match write with
  | some l =>
    let bs := l.zipIdx.map fun b => (pa + b.2, b.1)
    if (bs.any fun b => !inShare lay b.1) || hitsLive s (bs.map fun b => (b.1, 1)) then .next s
    else .next (((bs.map fun b => b.1 / 128).dedup).foldl reportWrite (memPuts s bs))
  | none =>
    let as := (List.range len).map fun j => pa + j
    if as.any fun a => !inShare lay a then .next s else
    let bad := as.filter (linePoisoned s)
    .next (answer (logPoison s part bad) (.data part (as.map (memByte s))))

/-- A function-level reset tears down the partition that its function is bound to (R368). -/
def execFunctionLevelReset (fn : Nat) (s : State) : Out := .next (if !presented s then s else post s [.teardown (fnPart s fn)])

end Sys2Proof.Machine
end

