-- ==== Sys2Proof/Machine/Windows.lean ====
section
/-! DEFINITION. Windows (spec/09 R150 to R155, R163) and waits on words (R164). -/
namespace Sys2Proof.Machine

/-! ## WDEF, WDROP, WSTAT -/

/-- A field of a number: bits `hi` to `lo`. -/
def bitsAt (n hi lo : Nat) : Nat := n / 2 ^ lo % 2 ^ (hi + 1 - lo)

/-- The window that a descriptor describes (R151). -/
def windowOf (d : Nat) : Window :=
  { gbase := BitVec.ofNat 64 (bitsAt d 63 0), gpitch := bitsAt d 95 64, aval := BitVec.ofNat 32 (bitsAt d 127 96),
    lbase := bitsAt d 148 128, llen := bitsAt d 180 160, aaddr := bitsAt d 212 192, rows := bitsAt d 239 224, roww := bitsAt d 255 240 }

/-- Whether two ranges of bytes meet. -/
def rangesMeet (a n b m : Nat) : Bool := decide (a < b + m) && decide (b < a + n)

/-- The windows of nonzero length other than one. -/
def otherWins (k : Core) (win : Nat) : List Window :=
  ((List.range 32).filter (· != win)).map (winOf k) |>.filter fun w => w.llen != 0

/-- Whether a descriptor raises ILLEGAL_OPERAND at WDEF (R151): of the arrival words only the descriptor's own is checked against the windows. Whether a
window may cover the arrival word of another one that exists R151 leaves open, and the model lets it (DESIGN CHOICE, log 42). -/
def windowBad (k : Core) (win d : Nat) : Bool :=
  let w := windowOf d
  let resv := bitsAt d 159 149 != 0 || bitsAt d 191 181 != 0 || bitsAt d 223 213 != 0
  resv || (w.llen != 0 &&
    (w.gbase.toNat % 4 != 0 || w.gpitch % 4 != 0 || w.lbase % 4 != 0 || w.aaddr % 4 != 0 || w.llen % 268 != 0 ||
     w.rows == 0 || w.roww == 0 || decide (w.llen < 4 * w.roww * w.rows) || decide (localLimit k < w.lbase + w.llen) ||
     decide (localLimit k < w.aaddr + 4) ||
     ((w :: otherWins k win).any fun o => rangesMeet w.aaddr 4 o.lbase o.llen) ||
     ((otherWins k win).any fun o => rangesMeet w.lbase w.llen o.lbase o.llen)))

/-- A window set (R154). -/
def setWin (s : State) (core win : Nat) (w : Window) : State := modCore s core fun k => { k with wins := mapSet {} k.wins win w }

/-- The window that an instruction names. -/
def winNum (c : Enc) : Nat := c.imm.toNat % 32

/-- WDEF's own part (R163, R151, R154). Replayed after a vacate, it makes a PRESENT window ABSENT and its touch fills it anew, as R125 and R154 say of any
region; the last row of R236, which counts a vacate of core 8 among its runs, does not say what becomes of a window then (DESIGN CHOICE, log 79). -/
def wdefBody (c : Enc) (x : Ctx) (v : Srcs) (s : State) : Res :=
  if x.act = 0 then done s else
  let k := getCore s x.core
  let a := (loWord (lane64 v.y 0)).toNat
  if a % 32 != 0 || decide (localLimit k < a + 32) then .trap .protection (localFaddr a) else
  match touch s x.core (tagOf x) [(a, 32)] with
  | some s1 => .waitGroup s1
  | none =>
    if (winOf k (winNum c)).st == .filling then .waitGroup s
    else if lpoisoned k a 32 then done (consume s x.core x.slot 3)
    else
      let d := lread k a 32
      if windowBad k (winNum c) d then .trap .illegalOperand 0
      else if x.g.shadow == .shadow then done s
      else done (setWin s x.core (winNum c) (if (windowOf d).llen = 0 then {} else windowOf d))

/-- WDEF (R163). -/
def execWdef (c : Enc) (s : State) : Out := issue (.wdef c) c (wdefBody c) s

/-- WDROP's own part (R163, R154). -/
def wdropBody (c : Enc) (x : Ctx) (s : State) : Res :=
  if x.act = 0 then done s else
  let w := winOf (getCore s x.core) (winNum c)
  if w.st == .filling then .waitGroup s
  else if x.g.shadow == .shadow then done s
  else done (setWin s x.core (winNum c) { w with st := .absent, touch := {} })

/-- WDROP (R163). -/
def execWdrop (c : Enc) (s : State) : Out := issue (.wdrop c) c (fun x _ s => wdropBody c x s) s

/-- A window state's code (R163). -/
def winCode : WinState → Nat
  | .absent => 0
  | .filling => 1
  | .present => 2

/-- WSTAT (R163). -/
def execWstat (c : Enc) (s : State) : Out :=
  issue (.wstat c) c (fun x _ s => compute x c false (fun _ => BitVec.ofNat 64 (winCode (winOf (getCore s x.core) (winNum c)).st)) s) s

/-! ## The window fill unit (R153, R155) -/

/-- Translation by a unit of a core: its TLB and its die's; once a walk that the unit asked for has ended in a fault, the table itself says which
(R153, R216). -/
def unitTrans (s : State) (core part : Nat) (va : DWord) (k : AccKind) : EngTr :=
  match coreTrans s core part va k with
  | .ok pa pte => .ok pa pte
  | .fault f => .fault f
  | .miss => engTrans s part va k

/-- How one source word of a fill reads. -/
inductive FillWord where
  | word (w : Word) (bad : Bool)
  | held
  | fault (k : TrapKind)
  | refusal (pa : Nat) (home : Nat) (sub : Nat)
deriving DecidableEq, Repr

/-- One source word, never read through the L1 (R153). A page-table entry that reads uncorrectable in the walk gives a poisoned word and the fill
goes on: the model's choice, R155 speaks of source words only (log 43). -/
def fillWord (s : State) (core part : Nat) (va : DWord) : FillWord :=
  match unitTrans s core part va .read with
  | .fault k => .fault k
  | .poisoned => .word 0 true
  | .ok pa pte =>
    let cl := clusterOf core
    match refusalOf (getPart s part).lay pa with
    | some sub => .refusal pa (homeOf (getPart s part).lay pa pte) sub
    | none =>
      if (List.range 4).any fun j => lowHeld s cl (pa + j) then .held else
      .word (BitVec.ofNat 32 ((List.range 4).foldr (fun j acc => (lowByte s cl (pa + j)).toNat + 256 * acc) 0))
        (linePoisoned s pa && (List.range 4).any fun j => wqByte s cl (pa + j) == .none)

/-- The source words of row `i` of a window. -/
def fillRowWords (s : State) (core part : Nat) (w : Window) (i : Nat) : List (DWord × FillWord) :=
  (List.range w.roww).map fun j =>
    let va := w.gbase + BitVec.ofNat 64 (w.gpitch * i + 4 * j)
    (va, fillWord s core part va)

/-- The source words of row `i` that still miss in the TLBs: each asks for a walk (R153, R149). -/
def fillMisses (s : State) (core part : Nat) (w : Window) (i : Nat) : List DWord :=
  ((List.range w.roww).map fun j => w.gbase + BitVec.ofNat 64 (w.gpitch * i + 4 * j)).filter fun va =>
    coreTrans s core part va .read == .miss && engTrans s part va .read != .poisoned

/-- The walks that a row's source words ask for (R251). -/
def fillWalks (s : State) (core part : Nat) (l : List DWord) : State :=
  l.foldl (fun s va => missWalk s core fillWaiter part 0 va .read) s

/-- The translations of a row kept in the core's TLB (R153). -/
def fillKept (s : State) (core part : Nat) (w : Window) (i : Nat) : State :=
  (List.range w.roww).foldl (fun s j => fillTlb s core part (w.gbase + BitVec.ofNat 64 (w.gpitch * i + 4 * j))) s

/-- The requests for the source lines of a row (R335). -/
def fillRequests (s : State) (part : Nat) (w : Window) (i : Nat) : List Request :=
  requestsOf s part .read (((List.range w.roww).map fun j =>
    BitVec.ofNat 64 ((w.gbase + BitVec.ofNat 64 (w.gpitch * i + 4 * j)).toNat / 128 * 128)).dedup)

/-- Whether a source word stops a fill with a fault (R155). -/
def fillStops : FillWord → Bool
  | .fault _ | .refusal .. => true
  | _ => false

/-- Payload words written to the pool, bad ones with poison marks (R155); they are no write that re-evaluates a wait (R164). -/
def fillPut (s : State) (core a : Nat) (ws : List FillWord) : State :=
  let l := ws.zipIdx
  let bs := l.flatMap fun p => match p.1 with | .word w _ => bytesAt (a + 4 * p.2) 4 w.toNat | _ => []
  modCore s core fun k => let k := lputs k bs; { k with lpoison := k.lpoison ++ l.filterMap fun p => match p.1 with | .word _ true => some (a / 4 + p.2) | _ => none }

/-- The evaluations that waited until their windows are PRESENT (R152, R164). -/
def againWaits (k : Core) (core : Nat) : List Instr :=
  k.slots.flatMap fun p => p.2.front.flatMap fun e =>
    match e.wait with
    | some (.word _ _ _ _ ls _ _) => if ls.any (·.again) then [.waitWordEvaluation core p.1 (lowLane e.mask)] else []
    | _ => []

/-- The window fill unit writes one row of the first fill of its queue, or, after the last row, the arrival word; the window is
then PRESENT (R153). A word behind an operation of the cluster's write queue waits until that has been performed (R243). A fault stops it (R155), and
a stopped core's unit waits (R315). -/
def execWindowFill (core : Nat) (s : State) : Out :=
  let k := getCore s core
  match k.fillq with
  | [] => .next s
  | win :: rest =>
    let w := winOf k win
    if k.stopped || !powered s core || w.st != .filling then .next s else
    if w.rows ≤ k.fillRow then
      let s1 := localPut s core (bytesAt w.aaddr 4 w.aval.toNat)
      let s2 := modCore (setWin s1 core win { w with st := .present }) core fun k => { k with fillq := rest, fillRow := 0, fillFault := 0, fillFaddr := 0 }
      .next (post s2 ((if rest.isEmpty then [] else [.windowFill core]) ++ againWaits (getCore s2 core) core))
    else
      let miss := fillMisses s core k.part w k.fillRow
      if !miss.isEmpty then .next (fillWalks s core k.part miss) else
      let l := fillRowWords s core k.part w k.fillRow
      if l.any fun p => fillStops p.2 then .next (post s [.windowFillFault core])
      else if l.any fun p => p.2 == .held then .next s
      else match issueAll s k.part .fill (fillRequests s k.part w k.fillRow) with
      | none => .next (holdAll s k.part .fill (fillRequests s k.part w k.fillRow))
      | some s =>
        let bad := l.find? fun p => match p.2 with | .word _ b => b | _ => false
        .next (countLines k.part (k.node.getD 0) (fun _ => dieOf core) false (fillRequests s k.part w k.fillRow) (post (modCore (fillPut (fillKept s core k.part w k.fillRow) core (w.lbase + 4 * w.roww * k.fillRow) (l.map (·.2))) core fun k =>
            { k with fillRow := k.fillRow + 1, fillFault := if bad.isSome then 3 else k.fillFault,
                     fillFaddr := match bad with | some p => p.1 | none => k.fillFaddr })
          [.windowFill core]))

/-- The entry of a group that a touch is charged to: the one that waits at its IX, else the highest-ranked. -/
def touchEntry (g : Group) (t : Tag) : Option Entry :=
  match g.front.find? (fun e => instrIx e == t.ix && e.rgn == t.rgn) with
  | some e => some e
  | none => (ranked g.front).head?

/-- A fault raised against a toucher's entry at its region entry; with the group gone, the halt alone (R155). -/
def touchFault (s : State) (core part : Nat) (t : Tag) (k : TrapKind) (va : DWord) : State :=
  let slot := t.gslot % 64
  match getGroup s core slot with
  | some g =>
    match touchEntry g t with
    | some e => takeFault s core slot e.mask true k va 0 (match findNode s g.part g.node with | some n => n.la.btab | none => [])
    | none => s
  | none => raiseSquall s part { code := trapCode k, origin := 3, gslot := t.gslot, ix := t.ix, rgn := t.rgn, faddr := va,
                                 node := (getCore s core).node }

/-- A fill that a fault stops: the window returns to ABSENT, and PAGE or PROTECTION is raised against the toucher; a source line
refused at its home is recorded as a remote fault too (R155). -/
def execWindowFillFault (core : Nat) (s : State) : Out :=
  let k := getCore s core
  match k.fillq with
  | [] => .next s
  | win :: rest =>
    let w := winOf k win
    match (fillRowWords s core k.part w k.fillRow).find? (fun p => fillStops p.2) with
    | none => .next s
    | some (va, f) =>
      if w.st != .filling || decide (w.rows ≤ k.fillRow) then .next s else
      let code := match f with | .fault .page => 1 | _ => 2
      let s1 := modCore (setWin s core win { w with st := .absent }) core fun k => { k with fillq := rest, fillFault := code, fillFaddr := va,
                                                                                               fillLast := (win, w.touch.gslot, k.fillRow), fillRow := 0 }
      let s2 := match f with
        | .refusal pa home sub =>
          let g := getGroup s1 core (w.touch.gslot % 64)
          refuse s1 { core := core, part := k.part, node := k.node.getD 0, blk := (g.map (·.blk)).getD 0, grp := (g.map (·.grp)).getD 0,
                      tag := w.touch, va := va, pa := pa, home := home } (home / 64) sub 8
        | _ => s1
      let kind := match f with | .fault f => f | _ => TrapKind.protection
      let s3 := touchFault s2 core k.part w.touch kind va
      .next (clearDenied (post s3 (if rest.isEmpty then [] else [.windowFill core])) k.part)

/-! ## WAITW and TRYW -/

/-- How a waiting lane's word reads: its value and whether it is poisoned, or the code with which its home refuses it. -/
inductive WordRead where
  | word (w : Word) (bad : Bool)
  | refusal (sub : Nat)
deriving DecidableEq, Repr

/-- The word of a waiting lane: in the pool, or at its home slice, never through the L1 (R164). -/
def waitRead (s : State) (core part : Nat) (l : WaitLane) : WordRead :=
  if l.loc then .word (BitVec.ofNat 32 (lread (getCore s core) l.addr 4)) (lpoisoned (getCore s core) l.addr 4)
  else match refusalOf (getPart s part).lay l.addr with
    | some sub => .refusal sub
    | none => .word (BitVec.ofNat 32 (memRead s l.addr 4)) (linePoisoned s l.addr)

/-- One evaluation of a waiting lane (R164): a satisfied one stays so. -/
def evalLane (s : State) (core part : Nat) (cmp : WCmp) (l : WaitLane) : WaitLane :=
  match l.seen, waitRead s core part l with
  | none, .word w _ => if wcmpHolds cmp w l.cmpd then { l with seen := some w } else l
  | _, _ => l

/-- Whether an evaluation reads an uncorrectable error. -/
def evalBad (s : State) (core part : Nat) (l : WaitLane) : Bool :=
  l.seen.isNone && (match waitRead s core part l with | .word _ b => b | _ => false)

/-- The result row of a wait: the words seen, or the satisfied lanes (R164). -/
def waitRow (isTry : Bool) (ls : List WaitLane) : Row64 :=
  rowOf fun l => match (ls.find? fun w => w.lane == l).bind (·.seen) with
    | some w => if isTry then 1 else w.setWidth 64
    | none => 0

/-- A result written in the group by a blocked instruction. -/
def waitWrite (isTry : Bool) (o : Opnd) (nw : Bool) (act : Lanes) (r : Row64) (g : Group) : Group :=
  if nw then g else if isTry then predGroup g (numOf o) act (rowBits r) else dstGroup g o false act r

/-- The acquire of a wait that any lane has satisfied: device scope for global words (R164, R147). -/
def waitAcquire (s : State) (core : Nat) (ls : List WaitLane) : State :=
  if ls.any fun l => l.seen.isSome && !l.loc then acquire s core .device else s

/-- The local and global words of the lanes of `act`; the tag is recognised in BASE alone (R156). -/
def waitLanes (x : Ctx) (c : Enc) (v : Srcs) : List (Nat × Bool × DWord) :=
  (lanesOf x.act).map fun l =>
    let b := lane64 v.y l
    if hiWord b == 0x80000000 then (l, true, ((loWord b + c.imm).setWidth 64)) else (l, false, b + c.imm.signExtend 64)

/-- WAITW's and TRYW's own part (R164). -/
def waitBody (isTry : Bool) (c : Enc) (cmp : WCmp) (x : Ctx) (v : Srcs) (s : State) : Res :=
  let k := getCore s x.core
  let lanes := waitLanes x c v
  let loc := (lanes.filter (·.2.1)).map fun p => (p.1, p.2.2.toNat)
  let glo := (lanes.filter fun p => !p.2.1).map fun p => (p.1, p.2.2)
  match firstBad k 4 loc with
  | some a => .trap .protection (localFaddr a)
  | none =>
    match transLanes s x.core x.slot x.g.part x.e.mask 4 .read glo with
    | .trap f va => .trap f va
    | .wait s1 => .wait s1
    | .ok accs s1 =>
      match touch s1 x.core (tagOf x) (loc.map fun p => (p.2, 4)) with
      | some s2 => .waitGroup s2
      | none =>
        let ls : List WaitLane := lanes.map fun p =>
          { lane := p.1, loc := p.2.1, va := p.2.2, cmpd := loWord (lane64 v.z p.1),
            addr := if p.2.1 then p.2.2.toNat else match accs.find? (fun a => a.lane == p.1) with | some a => a.pa | none => 0 }
        let bad := ls.find? fun l => match waitRead s1 x.core x.g.part l with | .refusal _ => true | _ => false
        match bad with
        | some l =>
          let home := match accs.find? (fun a => a.lane == l.lane) with | some a => a.home | none => 0
          let sub := match waitRead s1 x.core x.g.part l with | .refusal n => n | _ => 0
          done (refuse s1 { core := x.core, part := x.g.part, node := x.g.node, blk := x.g.blk, grp := x.g.grp, tag := tagOf x, va := l.va,
                            pa := l.addr, home := home } (home / 64) sub 7)
        | none =>
          let s2 := match ls.find? (evalBad s1 x.core x.g.part) with
            | some l => consume s1 x.core x.slot (if l.loc then 3 else srcOf l.addr) (if l.loc then 0 else l.addr / 128 * 128)
            | none => s1
          let ls2 := ls.map (evalLane s1 x.core x.g.part cmp)
          if ls2.all fun l => l.seen.isSome then
            let r := waitRow isTry ls2
            .fin (modGroup (waitAcquire s2 x.core ls2) x.core x.slot (waitWrite isTry c.x c.nw x.act r)) r
          else .jump (blockEntry x c (.word isTry c.x c.nw cmp ls2 x.act k.cyc) s2)

/-- WAITW (R164). -/
def execWaitw (c : Enc) (cmp : WCmp) (s : State) : Out := issue (.waitw c cmp) c (waitBody false c cmp) s
/-- TRYW (R164). -/
def execTryw (c : Enc) (cmp : WCmp) (s : State) : Out := issue (.tryw c cmp) c (waitBody true c cmp) s

/-- A blocked wait that ends: its result, its acquire, and the entry at the IX that follows (R164, R122). -/
def endWait (s : State) (core slot : Nat) (g : Group) (e : Entry) (n : Node) (isTry : Bool) (o : Opnd) (nw : Bool) (act : Lanes)
    (ls : List WaitLane) : State :=
  let r := waitRow isTry ls
  let s1 := modGroup (waitAcquire s core ls) core slot (waitWrite isTry o nw act r)
  wake (lvPush s1 core slot g.shadow { ix := instrIx e, act := act, val := r }) core slot e.mask n false r

/-- The local accesses of the lanes that a wait still reads (R152). -/
def waitTouches (ls : List WaitLane) : List (Nat × Nat) := (ls.filter fun l => l.loc && l.seen.isNone).map fun l => (l.addr, 4)

/-- A local lane marked as waiting for its window. -/
def markAgain (l : WaitLane) : WaitLane := { l with again := l.loc && l.seen.isNone }

/-- TRYW's 2,048 cycles since its issue end (R164): the cycles that still lack pass first, and a last evaluation reads what can be read at once. -/
def execTrywTimeout (core slot lane : Nat) (s : State) : Out :=
  match getGroup s core slot with
  | none => .next s
  | some g =>
    match entryOf g.front lane, findNode s g.part g.node with
    | some e, some n =>
      match e.wait with
      | some (.word true o nw cmp ls act since) =>
        if e.st != .blocked || g.raised || (getCore s core).stopped then .next s else
        let s1 := tickCore core (since + 2048 - (getCore s core).cyc) s
        let ls2 := ls.map fun l => if l.loc && !(absentWins (getCore s core) [(l.addr, 4)]).isEmpty then l else evalLane s core g.part cmp l
        let s2 := match ls.find? (fun l => !(l.loc && !(absentWins (getCore s core) [(l.addr, 4)]).isEmpty) && evalBad s core g.part l) with
          | some l => consume s1 core slot (if l.loc then 3 else srcOf l.addr) (if l.loc then 0 else l.addr / 128 * 128)
          | none => s1
        .next (endWait s2 core slot g e n true o nw act ls2)
      | _ => .next s
    | _, _ => .next s

end Sys2Proof.Machine
end

