-- ==== Sys2Proof/Machine/Holdings.lean ====
section
/-! DEFINITION. Holdings (spec/11 R186 to R204): holding words, the estate table, heirs and conveyance, the transitions of locks,
promises and objects at their arithmetic unit, and the holdings instructions. -/
namespace Sys2Proof.Machine

/-! ## Holding words (R186) -/

/-- The fields of a holding word. -/
structure HWord where
  state : Nat
  brv : Bool
  hkind : Nat
  hgrp : Nat
  kind : Nat
  estag : Nat
  owner : Nat
  lo : Nat
  hi : Nat
deriving DecidableEq, Repr

/-- A holding word from its 16 bytes. Its reserved bits are not looked at and are written zero by `hwNum`: R5's error is that of a chapter that names one,
and the holdings chapter names none (DESIGN CHOICE, log 74). -/
def hwOf (n : Nat) : HWord :=
  { state := bitsAt n 1 0, brv := n.testBit 2, hkind := bitsAt n 6 4, hgrp := bitsAt n 12 8, kind := bitsAt n 14 13,
    estag := bitsAt n 31 16, owner := bitsAt n 63 32, lo := bitsAt n 95 64, hi := bitsAt n 127 96 }

/-- The 16 bytes of a holding word; the upper half of the payload of a lock or an object is reserved and written zero (R5, R186). -/
def hwNum (w : HWord) : Nat :=
  recordOf [(0, w.state % 4), (2, w.brv.toNat), (4, w.hkind % 8), (8, w.hgrp % 32), (13, w.kind % 4), (16, w.estag % 2 ^ 16),
    (32, w.owner % 2 ^ 32), (64, w.lo % 2 ^ 32), (96, if w.kind % 2 = 1 then 0 else w.hi % 2 ^ 32)]

/-- Whether a holding is live (R187). -/
def hwLive (w : HWord) : Bool :=
  (w.kind == 1 && w.state == 1) || (w.kind == 3 && w.state == 1) || (w.kind == 2 && w.state == 0 && (w.estag != 0 || w.owner != 0))

/-- The owner value of the host (R186). -/
def hostOwner : Nat := 0xFFFFFFFF
/-- A group's owner value (R186). -/
def ownerOf (blk grp : Nat) : Nat := blk * 32 + grp

/-- Heir kinds as coded in a holding word (R186). -/
def hkindCode : HKind → Nat
  | .group => 0 | .block => 1 | .parent => 2 | .successor => 3 | .none => 4
/-- The heir kind of a code. -/
def hkindOf : Nat → HKind
  | 0 => .group | 1 => .block | 2 => .parent | 3 => .successor | _ => .none

/-- A holding word written at its unit, with its liveness. -/
def hwPut (s : State) (pa : Nat) (w : HWord) : State :=
  let s1 := homeWrite s (pa / 128) (bytesAt pa 16 (hwNum w))
  { s1 with live := mapSet false s1.live (pa / 16) (hwLive w) }

/-- The holding word at an address. -/
def hwGet (s : State) (pa : Nat) : HWord := hwOf (memRead s pa 16)

/-- A word that a holdings instruction acts on, as it stands: the unit knows from now on whether it is live (R186, R187, log 17). -/
def noteHolding (s : State) (pa : Nat) : State := { s with live := mapSet false s.live (pa / 16) (hwLive (hwGet s pa)) }

/-! ## The estate table (R189) -/

/-- The virtual address of an estate entry. -/
def estAt (n : Node) (i : Nat) : DWord := n.la.estate + BitVec.ofNat 64 (32 * i)

/-- The fields of an estate entry: index, address, KIND, ESTAG, ORD and OWNER. -/
structure EstEnt where
  idx : Nat
  addr : DWord
  kind : Nat
  estag : Nat
  ord : Nat
  owner : Nat
deriving DecidableEq, Repr

/-- An estate entry from its bytes. -/
def estOf (i n : Nat) : EstEnt :=
  { idx := i, addr := BitVec.ofNat 64 n, kind := bitsAt n 65 64, estag := bitsAt n 95 80, ord := bitsAt n 127 96,
    owner := bitsAt n 159 128 }

/-- The bytes of an estate entry. -/
def estNum (e : EstEnt) : Nat := recordOf [(0, e.addr.toNat), (64, e.kind), (80, e.estag), (96, e.ord), (128, e.owner)]

/-- The line of an estate entry that reads back uncorrectable, with its home die (R192). -/
def badEntry (s : State) (part : Nat) (n : Node) (e : EstEnt) : Option (Nat × Nat) :=
  match engTrans s part (estAt n e.idx) .read with
  | .ok pa pte => if linePoisoned s pa then some (pa, homeOf (getPart s part).lay pa pte / 64) else none
  | _ => none

/-- The entries of a node's table that can be read. -/
def estTable (s : State) (part : Nat) (n : Node) : List EstEnt :=
  (List.range n.la.estn).filterMap fun i => (vaRaw s part (estAt n i) 32).map (estOf i)

/-- An estate entry written. -/
def estPut (s : State) (part : Nat) (n : Node) (e : EstEnt) : State := tryWrite s part (estAt n e.idx) 32 (estNum e)

/-- A group's holdings counter taken and increased (R189). -/
def takeOrd (s : State) (part : Nat) (node : DWord) (owner : Nat) : Nat × State :=
  match findNode s part node with
  | some n => ((mapGet 0 n.ords owner).toNat,
               modNode s part node fun m => { m with ords := mapSet 0 m.ords owner (mapGet 0 m.ords owner + 1) })
  | none => (0, s)

/-- An entry allocated for a holding that becomes live; which free entry is left to the implementation, and one whose line
reads back uncorrectable is not taken (R189, log 4, log 44). -/
def estAlloc (s : State) (part : Nat) (node : DWord) (owner kind : Nat) (va : DWord) : Option State :=
  match findNode s part node with
  | none => none
  | some n =>
    let open_ := (estTable s part n).filter fun e => e.kind == 0 && (badEntry s part n e).isNone
    if open_.isEmpty then none else
    match open_[Config.freeChoice s.free % open_.length]? with
    | none => none
    | some e =>
      let q := takeOrd { s with free := s.free + 1 } part node owner
      some (estPut q.2 part n { e with addr := va, kind := kind, estag := n.estag, ord := q.1, owner := owner })

/-- The entry of a holding freed by zeroing its KIND (R189). -/
def estFree (s : State) (part : Nat) (node : DWord) (owner : Nat) (va : DWord) : State :=
  match findNode s part node with
  | none => s
  | some n =>
    match (estTable s part n).find? fun e => e.kind != 0 && e.addr == va && e.owner == owner with
    | some e => estPut s part n { e with kind := 0 }
    | none => s

/-! ## Default heirs (R190) -/

/-- The group of a node with a block and group number: resident, saved with a core, or out of its slot as a tile (R284). -/
def groupOf (s : State) (part : Nat) (n : Node) (blk grp : Nat) : Option Group :=
  let fits := fun (g : Group) => g.node == n.addr && g.part == part && g.blk == blk && g.grp == grp && g.shadow != .shadow
  match (s.cores.flatMap fun k => k.2.slots.map (·.2)).find? fits with
  | some g => some g
  | none => match ((getPart s part).images.flatMap fun i => i.img.slots.map (·.2)).find? fits with
    | some g => some g
    | none => (((findNode s part n.addr).getD n).tileImgs.map (·.2)).find? fits

/-- A group's default heir: its own, or the launch record's before it is placed. -/
def defaultHeir (s : State) (part : Nat) (n : Node) (blk grp : Nat) : HKind × Nat :=
  match groupOf s part n blk grp with
  | some g => (g.heirKind, g.heirGrp)
  | none => (n.la.hkind, n.la.hgrp)

/-- A holding word given to a group, with that group's default heir. -/
def giveTo (s : State) (part : Nat) (n : Node) (blk grp : Nat) (w : HWord) : HWord :=
  let h := defaultHeir s part n blk grp
  { w with estag := n.estag, owner := ownerOf blk grp, hkind := hkindCode h.1, hgrp := if h.1 = .group then h.2 else 0 }

/-! ## Waiters -/

/-- The waits of a partition at an address, in order of arrival. -/
def waitersAt (s : State) (part pa : Nat) (lock : Bool) : List HoldWait :=
  (getPart s part).holdq.filter fun w => w.pa == pa && w.isLock == lock

/-- A wait removed. -/
def dropWait (s : State) (w : HoldWait) : State := modPart s w.part fun p => { p with holdq := p.holdq.filter (· != w) }

/-- Whether an entry waits in LOCK or PWAIT at an address. -/
def holdsAt (lock : Bool) (pa : Nat) (e : Entry) : Bool :=
  e.st == .blocked && (match e.wait with
    | some (.lock _ _ _ q _) => lock && q == pa
    | some (.pwait _ _ _ _ q _) => !lock && q == pa
    | _ => false)

/-- The result of a wait written in a group: LOCK's status, or PWAIT's state and value (R199, R202). -/
def holdWrite (st : Nat) (val : DWord) (wt : Wait) (g : Group) : Group :=
  match wt with
  | .lock o nw act _ _ => if nw then g else dstGroup g o false act (rowOf fun _ => BitVec.ofNat 64 st)
  | .pwait o z nw act _ _ =>
    if nw then g else dstGroup (dstGroup g o false act (rowOf fun _ => BitVec.ofNat 64 st)) z true act (rowOf fun _ => val)
  | _ => g

/-- A blocked LOCK or PWAIT of one slot that ends: with a result it writes and acquires, refused it writes nothing (R323). -/
def endHold (s : State) (core slot : Nat) (m : Lanes) (lock : Bool) (pa : Nat) (res : Option (Nat × DWord)) : State :=
  match getGroup s core slot with
  | none => s
  | some g =>
    match g.front.find? (fun e => holdsAt lock pa e && (e.mask &&& m) != 0), findNode s g.part g.node with
    | some e, some n =>
      let s1 := match res, e.wait with
        | some (st, val), some wt => acquire (modGroup s core slot (holdWrite st val wt)) core .device
        | _, _ => s
      wake s1 core slot e.mask n true zeroRow
    | _, _ => s

/-- The same for a group and, for a leader, its shadow (R198). -/
def deliverHold (s : State) (core slot : Nat) (m : Lanes) (lock : Bool) (pa : Nat) (res : Option (Nat × DWord)) : State :=
  let s1 := endHold s core slot m lock pa res
  match getGroup s core slot with
  | some g => if g.shadow == .leader then endHold s1 core (slot + 1) m lock pa res else s1
  | none => s1

/-- The origin of a waiting LOCK that is refused. -/
def waitOrigin (w : HoldWait) (home : Nat) : Origin :=
  { core := w.core, part := w.part, node := w.node, blk := w.blk, grp := w.grp, tag := w.tag, va := w.va, pa := w.pa, home := home }

/-- A lock granted to the first waiter whose estate table has room; the others are passed over and refused (R199). `orph` tells a
grant from ORPHANED. With no waiter left, the lock is as `left` says. -/
def grantQueue (s : State) (pa home : Nat) (w : HWord) (orph : Bool) (left : HWord) : List HoldWait → State
  | [] => hwPut s pa left
  | q :: t =>
    let s1 := dropWait s q
    match findNode s1 q.part q.node, estAlloc s1 q.part q.node (ownerOf q.blk q.grp) 1 q.va with
    | some n, some s2 =>
      let w1 := { giveTo s2 q.part n q.blk q.grp w with state := 1, kind := 1, lo := (w.lo + 1) % 2 ^ 32, brv := orph }
      deliverHold (hwPut s2 pa w1) q.core q.slot q.lanes true pa (some (if orph then 5 else 0, 0))
    | _, _ =>
      grantQueue (deliverHold (refuse s1 (waitOrigin q home) (dieOf q.core) 6 6) q.core q.slot q.lanes true pa none) pa home w orph left t

/-- PWAITs woken with the state of a settled promise (R196, R202). -/
def wakePromise (s : State) (part pa : Nat) (w : HWord) : State :=
  (waitersAt s part pa false).foldl (fun s q =>
    deliverHold (dropWait s q) q.core q.slot q.lanes false pa
      (some (w.state + 4 * w.brv.toNat, if w.state = 1 then BitVec.ofNat 64 (w.lo + 2 ^ 32 * w.hi) else 0))) s

/-- The PWAITs of a partition whose word no longer is an EMPTY promise, nor fresh: a plain write has settled it (R187, R202). -/
def settlePromises (s : State) (part : Nat) : State :=
  (((getPart s part).holdq.filter fun q => !q.isLock).map (·.pa)).dedup.foldl (fun s pa =>
    let w := hwGet s pa
    if w.kind = 0 || w.state = 0 then s else wakePromise s part pa w) s

/-- An evaluation of the wait of the entry that holds a lane (R164). Its local reads touch their windows, and it is made once those are PRESENT
(R152). For a PWAIT it is the look at the promise's word after a plain write of its line (R187, R202). -/
def execWaitWordEvaluation (core slot lane : Nat) (s : State) : Out :=
  match getGroup s core slot with
  | none => .next s
  | some g =>
    match entryOf g.front lane, findNode s g.part g.node with
    | some e, some n =>
      match e.wait with
      | some (.word isTry o nw cmp ls act since) =>
        if e.st != .blocked || g.raised || (getCore s core).stopped then .next s else
        match touch s core { gslot := gslotFor g core slot, ix := e.ix, rgn := e.rgn } (waitTouches ls) with
        | some s1 => .next (setWaitLanes s1 core slot e.mask markAgain)
        | none =>
        let s1 := match ls.find? (evalBad s core g.part) with
          | some l => consume s core slot (if l.loc then 3 else srcOf l.addr) (if l.loc then 0 else l.addr / 128 * 128)
          | none => s
        let ls2 := ls.map fun l => { evalLane s core g.part cmp l with again := false }
        if ls2.all fun l => l.seen.isSome then .next (endWait s1 core slot g e n isTry o nw act ls2)
        else .next (modGroup s1 core slot fun g =>
          { g with front := modEntry g.front e.mask fun e => { e with wait := some (.word isTry o nw cmp ls2 act since) } })
      | some (.pwait ..) => .next (settlePromises s g.part)
      | _ => .next s
    | _, _ => .next s

/-! ## The unit -/

/-- Whether the group of an entry owns a live holding. -/
def hwOwned (n : Node) (e : SbEntry) (w : HWord) : Bool :=
  hwLive w && w.estag == n.estag && w.owner == ownerOf e.blk e.grp && n.estag != 0

/-- The answer of an operation with a reply, on its way back to its core (R198, R264): its value, whether it was performed, and whether it acquires. -/
def holdAnswer (s : State) (e : SbEntry) (v : DWord) (ok acq : Bool) : State :=
  match e.req with
  | some q => sendPacket s (netPacket .response (.status e.slot q v ok acq) 1 e.part e.node e.blk e.home e.core e.slot e.tag)
  | none => s

/-- A reply to the group of an entry, which acquires where `acq` holds. -/
def holdReply (s : State) (e : SbEntry) (v : DWord) (acq : Bool) : State := holdAnswer s e v true acq

/-- The wait of the LOCK or PWAIT that an operation is of ended, or refused: that of the frontier entry whose lanes issued it. -/
def holdEnd (s : State) (e : SbEntry) (lock : Bool) (pa : Nat) (res : Option (Nat × DWord)) : State :=
  match getGroup s e.core e.slot with
  | none => s
  | some g =>
    match g.front.find? (fun b => holdsAt lock pa b && (b.mask &&& e.mask) != 0) with
    | some b => deliverHold s e.core e.slot b.mask lock pa res
    | none => s

/-- A holdings operation refused (R187, R189, R323): nothing is performed, no register is written, and a wait of it ends. -/
def holdRefuse (s : State) (e : SbEntry) (op : HoldOp) (pa die sub : Nat) : State :=
  let s1 := refuse s (originOf e pa) die sub 6
  match op with
  | .lock => holdEnd s1 e true pa none
  | .pwait => holdEnd s1 e false pa none
  | _ => holdAnswer s1 e 0 false false

/-- A LOCK or PWAIT queued in order of arrival (R195, R196). -/
def enqueue (s : State) (e : SbEntry) (pa : Nat) (lock : Bool) : State :=
  let m := match (getGroup s e.core e.slot).bind fun g => g.front.find? (fun b => holdsAt lock pa b && (b.mask &&& e.mask) != 0) with | some b => b.mask | none => 0
  modPart s e.part fun p =>
    { p with holdq := p.holdq ++ [{ pa := pa, isLock := lock, core := e.core, slot := e.slot, lanes := m, part := e.part, node := e.node,
                                    blk := e.blk, grp := e.grp, tag := e.tag, va := e.va }] }

/-- A lock or object taken by the group of an entry: `none` where its estate table is full. -/
def takeHolding (s : State) (n : Node) (e : SbEntry) (pa kind : Nat) (w : HWord) (brv : Bool) : Option State :=
  (estAlloc s e.part e.node (ownerOf e.blk e.grp) kind e.va).map fun s1 =>
    hwPut s1 pa { giveTo s1 e.part n e.blk e.grp w with state := 1, kind := kind, lo := (w.lo + 1) % 2 ^ 32, brv := brv }

/-- LOCK, TLOCK and CLAIM at the unit (R195, R197): `done` answers with a status, `busy` meets another owner. The reserved STATE 3 of a lock or object, to
which R186 gives no meaning, is taken as FREE, and that of a promise as settled (DESIGN CHOICE, log 75). -/
def acquireHold (s : State) (n : Node) (e : SbEntry) (op : HoldOp) (pa kind : Nat) (done : State → Nat → State)
    (busy : State → State) : State :=
  let w := hwGet s pa
  if w.kind != 0 && w.kind != kind then holdRefuse s e op pa (e.home / 64) 5
  else if w.kind = kind && w.state = 1 then
    (if hwOwned n e w then done s (w.brv.toNat + 2) else busy s)
  else
    let orph := w.kind == kind && w.state == 2
    match takeHolding s n e pa kind w (w.brv || orph) with
    | some s1 => done s1 (w.brv.toNat + (if orph then 4 else 0))
    | none => holdRefuse s e op pa (dieOf e.core) 6

/-- UNLOCK and RELS at the unit (R195, R197). -/
def releaseHold (s : State) (n : Node) (e : SbEntry) (op : HoldOp) (pa kind : Nat) : State :=
  let w := hwGet s pa
  if w.kind != kind || w.state != 1 || !hwOwned n e w then holdRefuse s e op pa (e.home / 64) 5 else
  let s1 := estFree s e.part e.node (ownerOf e.blk e.grp) e.va
  let free := { w with state := 0, brv := false, estag := 0, owner := 0 }
  if kind = 1 then grantQueue s1 pa e.home w false free (waitersAt s1 e.part pa true) else hwPut s1 pa free

/-- A holdings operation performed at its unit (R186, R195 to R204). -/
def performHold (s : State) (e : SbEntry) (op : HoldOp) (pa : Nat) : State :=
  match refusalOf (getPart s e.part).lay pa with
  | some sub => holdRefuse s e op pa (e.home / 64) sub
  | none =>
    if linePoisoned s pa then
      holdAnswer (consumeEntry s e pa) e 0 false false
    else
    match findNode s e.part e.node with
    | none => s
    | some n =>
      let w := hwGet s pa
      let s := noteHolding s pa
      match op with
      | .lock => acquireHold s n e op pa 1 (fun s r => holdEnd s e true pa (some (r, 0))) (fun s => enqueue s e pa true)
      | .tlock => acquireHold s n e op pa 1 (fun s _ => holdReply s e 1 true) (fun s => holdReply s e 0 false)
      | .claim => acquireHold s n e op pa 3 (fun s _ => holdReply s e 1 true) (fun s => holdReply s e 0 false)
      | .unlock => releaseHold s n e op pa 1
      | .rels => releaseHold s n e op pa 3
      | .heir k grp =>
        if !hwOwned n e w then holdRefuse s e op pa (e.home / 64) 5
        else hwPut s pa { w with hkind := hkindCode k, hgrp := if k = .group then grp else 0 }
      | .prom =>
        if (w.kind != 0 && w.kind != 2) || (w.kind = 2 && w.state = 0) then holdRefuse s e op pa (e.home / 64) 5 else
        match estAlloc s e.part e.node (ownerOf e.blk e.grp) 2 e.va with
        | none => holdRefuse s e op pa (dieOf e.core) 6
        | some s1 => hwPut s1 pa { giveTo s1 e.part n e.blk e.grp w with state := 0, kind := 2, brv := false, lo := 0, hi := 0 }
      | .fulf brk val =>
        if w.kind != 2 || w.state != 0 || !hwOwned n e w then holdRefuse s e op pa (e.home / 64) 5 else
        let w1 := if brk then { w with state := 2, estag := 0, owner := 0 }
          else { w with state := 1, estag := 0, owner := 0, lo := val.toNat % 2 ^ 32, hi := val.toNat / 2 ^ 32 }
        wakePromise (hwPut (estFree s e.part e.node (ownerOf e.blk e.grp) e.va) pa w1) e.part pa w1
      | .pwait =>
        if w.kind != 0 && w.kind != 2 then holdRefuse s e op pa (e.home / 64) 5
        else if w.kind = 0 || w.state = 0 then enqueue s e pa false
        else holdEnd s e false pa
          (some (w.state + 4 * w.brv.toNat, if w.state = 1 then BitVec.ofNat 64 (w.lo + 2 ^ 32 * w.hi) else 0))
      | .holdq =>
        let n64 := memRead s pa 8
        holdReply s e (BitVec.ofNat 64 (n64 - n64 / 8 % 2 * 8 + (if hwOwned n e w then 8 else 0))) false

/-! ## The instructions -/

/-- The address of a holdings instruction translated: not aligned, not canonical or without W it faults precisely (R187). -/
def holdAt (x : Ctx) (v : Srcs) (align : Nat) (s : State) : LaneTr :=
  transLanes s x.core x.slot x.g.part x.e.mask align .hold [(0, lane64 v.y 0)]

/-- Whether an operation gives a holding up. -/
def isUnlock (e : SbEntry) : Bool :=
  match e.op with
  | .hold .unlock _ | .hold .rels _ => true
  | _ => false

/-- Whether an operation takes a holding. -/
def takesHold : HoldOp → Bool
  | .lock | .tlock | .claim => true
  | _ => false

/-- Whether a group's earlier UNLOCK has not been performed yet, which its next LOCK waits for (R261, R374). -/
def unlocking (s : State) (x : Ctx) : Bool :=
  (coreEntries (getCore s x.core) ++ ((getCluster s (clusterOf x.core)).wq.filter fun e => e.core == x.core)).any fun e =>
    isUnlock e && e.part == x.g.part && e.node == x.g.node && e.blk == x.g.blk && e.grp == x.g.grp

/-- A holdings instruction that sends one operation; `rel` makes it release at device scope first (R198); one that takes a holding
waits until an earlier UNLOCK of its group has been performed (R261, R374). -/
def holdBody (op : HoldOp) (align : Nat) (rel : Bool) (k : Ctx → LaneAcc → SbEntry → State → Res) (x : Ctx) (v : Srcs) (s : State) : Res :=
  if x.act = 0 then done s else
  match holdAt x v align s with
  | .trap f va => .trap f va
  | .wait s1 => .wait s1
  | .ok accs s1 =>
    match accs.head? with
    | none => done s1
    | some a =>
      if (rel && !reached s1 x .device) || (takesHold op && unlocking s1 x) then .waitGroup s1
      else if !bufRoom s1 x 1 then .waitGroup s1
      else k x a (mkEntry x (.hold op a.pa) a.va a.pa a.home none) s1

/-- A holdings instruction without a reply. -/
def holdSend (op : HoldOp) (align : Nat) (rel : Bool) (x : Ctx) (v : Srcs) (s : State) : Res :=
  holdBody op align rel (fun x _ e s => done (emit x [e] s)) x v s

/-- A holdings instruction with a reply into a predicate or a pair. -/
def holdAsk (c : Enc) (op : HoldOp) (align : Nat) (acq : Bool) (pred : Option Nat) (ty : Ty) (x : Ctx) (v : Srcs) (s : State) : Res :=
  holdBody op align false (fun x a e s =>
    sendOff x { id := 0, kind := .hold acq, mask := x.e.mask, dst := if pred.isSome then .zero else c.x, ty := ty, nw := c.nw, act := x.act,
                lanes := [a], pred := pred, tag := tagOf x } (fun q => [{ e with req := q }]) s) x v s

/-- LOCK and PWAIT: the entry is BLOCKED until its unit answers (R199, R202). -/
def holdBlock (c : Enc) (op : HoldOp) (align : Nat) (w : Ctx → LaneAcc → Wait) (x : Ctx) (v : Srcs) (s : State) : Res :=
  holdBody op align false (fun x a e s => .jump (blockEntry x c (w x a) (emit x [e] s))) x v s

/-- LOCK (R199). -/
def execLock (c : Enc) (s : State) : Out :=
  issue (.lock c) c (holdBlock c .lock 128 fun x a => .lock c.x c.nw x.act a.pa a.va) s
/-- TLOCK (R199). -/
def execTlock (c : Enc) (s : State) : Out := issue (.tlock c) c (holdAsk c .tlock 128 true (some (numOf c.x)) .b32) s
/-- UNLOCK (R199). -/
def execUnlock (c : Enc) (s : State) : Out := issue (.unlock c) c (holdSend .unlock 128 true) s

/-- HEIR's own part (R200): with `.dflt` it sets the group's default heir and touches no memory. -/
def heirBody (c : Enc) (k : HKind) (dflt : Bool) (x : Ctx) (v : Srcs) (s : State) : Res :=
  let n := c.imm.toNat % 32
  if k = .group && groupsPerBlock x.node.la ≤ n then .trap .illegalOperand 0
  else if dflt then
    done (if x.act = 0 then s else modGroup s x.core x.slot fun g =>
      { g with heirKind := k, heirGrp := if k = .group then n else 0 })
  else holdSend (.heir k n) 16 false x v s

/-- HEIR (R200). -/
def execHeir (c : Enc) (k : HKind) (dflt : Bool) (s : State) : Out := issue (.heir c k dflt) c (heirBody c k dflt) s
/-- PROM (R201). -/
def execProm (c : Enc) (s : State) : Out := issue (.prom c) c (holdSend .prom 16 false) s
/-- FULF (R201). -/
def execFulf (c : Enc) (brk : Bool) (s : State) : Out :=
  issue (.fulf c brk) c (fun x v s => holdSend (.fulf brk (lane64 v.z 0)) 16 true x v s) s
/-- PWAIT (R202). -/
def execPwait (c : Enc) (s : State) : Out :=
  issue (.pwait c) c (holdBlock c .pwait 16 fun x a => .pwait c.x c.z c.nw x.act a.pa a.va) s
/-- CLAIM (R203). -/
def execClaim (c : Enc) (s : State) : Out := issue (.claim c) c (holdAsk c .claim 128 true (some (numOf c.x)) .b32) s
/-- RELS (R203). -/
def execRels (c : Enc) (s : State) : Out := issue (.rels c) c (holdSend .rels 128 true) s
/-- HOLDQ (R204). -/
def execHoldq (c : Enc) (s : State) : Out := issue (.holdq c) c (holdAsk c .holdq 16 false none .b64) s

/-- A host store to a holding that the host owns acts as UNLOCK or FULF (R187); to any other live word it is refused, and to a word
that is not live it is no holdings operation. The host of a module that is not presented to it stores nothing (R35). -/
def execHostHoldingStore (part pa : Nat) (state : Fin 4) (value : DWord) (s : State) : Out :=
  let w := hwGet s pa
  if !presented s || !hwLive w || w.owner != hostOwner || w.estag != 0 || pa % 16 != 0 || (refusalOf (getPart s part).lay pa).isSome then .next s
  else if w.kind = 1 && state = 0 then
    .next (grantQueue s pa 0 w false { w with state := 0, brv := false, owner := 0 } (waitersAt s part pa true))
  else if w.kind = 2 && (state = 1 || state = 2) then
    let w1 := if state = 1 then { w with state := 1, owner := 0, lo := value.toNat % 2 ^ 32, hi := value.toNat / 2 ^ 32 }
      else { w with state := 2, owner := 0, lo := value.toNat % 2 ^ 32, hi := value.toNat / 2 ^ 32 }
    .next (wakePromise (hwPut s pa w1) part pa w1)
  else .next s

end Sys2Proof.Machine
end

