-- ==== Sys2Proof/Machine/Estate.lean ====
section
/-! DEFINITION. The estate unit (spec/11 R189 to R194, spec/19 R309): walks of exited and killed groups, conveyance to heirs,
heirless holdings, and the conveyance to a relaunched block. -/
namespace Sys2Proof.Machine

/-! ## Heirs -/

/-- The groups of a node in ascending block and group number. -/
def allGroups (la : Launch) : List (Nat × Nat) :=
  let g := groupsPerBlock la
  let blocks := ((la.levels.drop 3).foldl (fun a l => a * l.extent) 1)
  (List.range blocks).flatMap fun b => (List.range g).map fun k => (b, k)

/-- Whether a group survives (R190). -/
def survives (s : State) (part : Nat) (n : Node) (blk grp : Nat) : Bool :=
  !groupGone n blk grp && !beingConveyed s part n.addr blk grp

/-- Where a holding goes (R190). -/
inductive HeirTo where
  | grp (blk grp : Nat)
  | host
  | none
  | later
deriving DecidableEq, Repr

/-- The heir of a holding of a group that has ended (R190); with `relaunch` its block is being relaunched. -/
def resolveHeir (s : State) (part : Nat) (n : Node) (blk grp : Nat) (relaunch : Bool) (w : HWord) : HeirTo :=
  match hkindOf w.hkind with
  | .group =>
    if w.hgrp != grp && decide (w.hgrp < groupsPerBlock n.la) && survives s part n blk w.hgrp then .grp blk w.hgrp else .none
  | .block =>
    match (List.range (groupsPerBlock n.la)).find? fun k => k != grp && survives s part n blk k with
    | some k => .grp blk k
    | none =>
      match (allGroups n.la).find? fun p => p != (blk, grp) && survives s part n p.1 p.2 with
      | some p => .grp p.1 p.2
      | none => .none
  | .parent => .host
  | .successor => if relaunch then .later else .none
  | .none => .none

/-! ## Conveyance (R191, R192) -/

/-- The holdings of a group in the order of its walk: promises, locks, objects, each in ascending ORD (R191). -/
def walkOrder (l : List EstEnt) : List EstEnt :=
  let rank := fun (e : EstEnt) => (if e.kind = 2 then 0 else if e.kind = 1 then 1 else 2) * 2 ^ 32 + e.ord
  sortBy l fun a b => decide (rank a ≤ rank b)

/-- The entries of an owner in its node's table. -/
def ownedEnts (s : State) (part : Nat) (n : Node) (blk grp : Nat) : List EstEnt :=
  walkOrder ((estTable s part n).filter fun e => e.kind != 0 && e.owner == ownerOf blk grp && e.estag == n.estag)

/-- A holding conveyed to a group of the node: word, estate entry, and the heir's own LOCK if it waits for it (R191). -/
def conveyTo (s : State) (part : Nat) (n : Node) (e : EstEnt) (pa blk grp : Nat) : State :=
  let w := { giveTo s part n blk grp (hwGet s pa) with brv := true }
  let q := takeOrd (hwPut s pa w) part n.addr (ownerOf blk grp)
  let s1 := estPut q.2 part n { e with ord := q.1, owner := ownerOf blk grp }
  match (waitersAt s1 part pa true).find? fun q => q.node == n.addr && q.blk == blk && q.grp == grp with
  | some h => deliverHold (dropWait s1 h) h.core h.slot h.lanes true pa (some (3, 0))
  | none => s1

/-- A holding conveyed to the host: the entry freed, the journal's entry and the note for the next EVENT (R190, R191, R341). -/
def conveyHost (s : State) (part : Nat) (n : Node) (e : EstEnt) (pa : Nat) : State :=
  let w := hwGet s pa
  let s1 := hwPut s pa { w with estag := 0, owner := hostOwner, hkind := 4, hgrp := 0, brv := true }
  let s2 := estPut s1 part n { e with kind := 0 }
  let s3 := journal s2 part 0x81 n.queue e.kind 0 e.addr n.addr
  modPart s3 part fun p =>
    { p with queues := mapSet {} p.queues n.queue { mapGet {} p.queues n.queue with notes := (mapGet {} p.queues n.queue).notes + 1 } }

/-- A heirless holding: its word settled, its waiters served, its entry freed (R192). -/
def orphan (s : State) (part : Nat) (n : Node) (e : EstEnt) (pa : Nat) : State :=
  let w := hwGet s pa
  let s1 := estPut s part n { e with kind := 0 }
  let w1 := { w with state := 2, brv := true, estag := 0, owner := 0 }
  if e.kind = 2 then wakePromise (hwPut s1 pa w1) part pa w1
  else if e.kind = 1 then grantQueue s1 pa 0 w1 true w1 (waitersAt s1 part pa true)
  else hwPut s1 pa w1

/-- What a walk did with one holding: the state, whether it was heirless, and whether its word or entry read back uncorrectable. -/
structure Conveyed where
  s : State
  heirless : Bool
  bad : Bool := false

/-- The report of an uncorrectable word or entry that a walk met (R309, R342). -/
def logBadWord (s : State) (die pa : Nat) : State := logError s die (ueReport die (srcOf pa) 0 0 0 pa)

/-- One holding of a walk conveyed (R191, R192); a word or entry that reads back uncorrectable is heirless, and its word is marked as its bytes
stand under the error (log 44). In a tear-down PARENT goes to the host and every other heir is as if none (R309). -/
def conveyOne (s : State) (w : EWalk) (n : Node) (e : EstEnt) : Conveyed :=
  match engTrans s w.part e.addr .write with
  | .ok pa pte =>
    if linePoisoned s pa then
      { s := logBadWord (orphan s w.part n e pa) (homeOf (getPart s w.part).lay pa pte / 64) pa, heirless := true, bad := true }
    else match badEntry s w.part n e with
    | some (bad, die) => { s := logBadWord (orphan s w.part n e pa) die bad, heirless := true, bad := true }
    | none =>
    let hw := hwGet s pa
    if w.teardown then
      (if hkindOf hw.hkind = .parent then { s := conveyHost s w.part n e pa, heirless := false }
       else { s := orphan s w.part n e pa, heirless := true })
    else match resolveHeir s w.part n w.blk w.grp w.relaunch hw with
      | .grp b g => { s := conveyTo s w.part n e pa b g, heirless := false }
      | .host => { s := conveyHost s w.part n e pa, heirless := false }
      | .none => { s := orphan s w.part n e pa, heirless := true }
      | .later => { s := s, heirless := false }
  | _ => { s := estPut s w.part n { e with kind := 0 }, heirless := true, bad := true }

/-- The holdings of a walk that are still to convey: those for a relaunched block stay (R191). -/
def leftOf (s : State) (w : EWalk) (n : Node) : List EstEnt :=
  (ownedEnts s w.part n w.blk w.grp).filter fun e =>
    match engTrans s w.part e.addr .write with
    | .ok pa _ => !(w.relaunch && !w.teardown && !linePoisoned s pa && (badEntry s w.part n e).isNone && hkindOf (hwGet s pa).hkind == .successor)
    | _ => true

/-- Whether operations of a group are still on their way to their units: its conveyance covers what it released (R191). -/
def inFlight (s : State) (w : EWalk) : Bool :=
  let mine := fun (e : SbEntry) => e.part == w.part && e.node == w.node && e.blk == w.blk && e.grp == w.grp
  (s.cores.any fun k => k.2.bufs.any fun b => b.ents.any mine) || (s.clusters.any fun k => k.2.wq.any mine)

/-- The HEIRLESS fault of a walk that found heirless holdings, raised once for the group (R192). -/
def raiseHeirless (s : State) (w : EWalk) : State :=
  if w.heirless = 0 || w.teardown then s else
  raiseSquall s w.part { code := 5, origin := 7, gslot := w.gslot, faddr := w.firstHl, aux := BitVec.ofNat 32 w.heirless,
                         node := some w.node }

/-- The slot of a walked group freed, once its last holding has been conveyed (R191). -/
def freeWalked (s : State) (w : EWalk) : State :=
  let core := w.gslot / 64
  let slot := w.gslot % 64
  match getGroup s core slot with
  | some g =>
    if g.part == w.part && g.node == w.node && g.blk == w.blk && g.grp == w.grp then
      match findNode s w.part w.node with
      | some n => if w.killed then freeSlot s core slot g (n.la.dims != 0) else leaveSlot s core slot g n
      | none => freeSlot s core slot g false
    else post s [.nodeDone w.part w.node.toNat]
  | none => post s [.nodeDone w.part w.node.toNat, .blockPlacement w.part (dieOf core)]

/-- The walk at the head of a die's queue replaced or, with `none`, ended. -/
def setWalk (s : State) (die : Nat) (w : Option EWalk) : State :=
  modDie s die fun d => { d with estq := match d.estq, w with | _ :: t, some v => v :: t | _ :: t, none => t | [], _ => [] }

/-- The end of a walk: its fault, its slot, the next walk. -/
def finishWalk (s : State) (die : Nat) (w : EWalk) : State :=
  let s1 := modDie (setWalk s die none) die fun d => { d with estFault := if w.heirless = 0 || w.teardown then 0 else 1 }
  let s2 := modNode s1 w.part w.node fun n => { n with walksLeft := n.walksLeft - 1 }
  let s3 := freeWalked (raiseHeirless s2 w) w
  if (getDie s3 die).estq.isEmpty then s3 else post s3 [.estateWalk die]

/-- Whether the squall line holds the estate unit: it has reached it (R193, R315). -/
def estateStopped (s : State) (part die : Nat) : Bool :=
  (getPart s part).squall && !(getPart s part).unitsLeft.contains (.estate die)

/-- One holding of the walk at the head of a die's queue (R191, R193); a walk waits for its group's operations to reach their
units. -/
def execEstateWalk (die : Nat) (s : State) : Out :=
  match (getDie s die).estq with
  | [] => .next s
  | w :: _ =>
    if estateStopped s w.part die then .next s
    else if inFlight s w then .next s
    else match findNode s w.part w.node with
      | none => .next (finishWalk s die w)
      | some n =>
        match leftOf s w n with
        | [] => .next (finishWalk s die w)
        | e :: _ =>
          let l := requestsOf s w.part .read [estAt n e.idx, e.addr]
          match issueAll s w.part .journal l with
          | none => .next (holdAll s w.part .journal l)
          | some s =>
          let r := conveyOne s w n e
          let w1 := if r.heirless then
            { w with heirless := w.heirless + 1, firstHl := if w.heirless = 0 then e.addr else w.firstHl } else w
          let s1 := modDie (setWalk r.s die (some w1)) die fun d =>
            { d with estLast := e.addr, estOwner := ownerOf w.blk w.grp, estTag := n.estag, estPart := w.part, estNode := n.addr,
                     estFault := if r.bad then 2 else 0 }
          .next (countLines w.part w.node (fun _ => die) false l (post s1 [.estateWalk die]))

/-- The line of a holding's word or of its estate entry that reads back uncorrectable, with the die that reports it (R192). -/
def badHolding (s : State) (part : Nat) (n : Node) (e : EstEnt) : Option (Nat × Nat) :=
  match engTrans s part e.addr .write with
  | .ok pa pte => if linePoisoned s pa then some (pa, homeOf (getPart s part).lay pa pte / 64) else badEntry s part n e
  | _ => none

/-- One holding of a relaunched group conveyed to it, or heirless where its word or entry reads back uncorrectable (R191, R192). -/
def conveyNext (part : Nat) (n : Node) (blk grp : Nat) (s : State) (e : EstEnt) : State :=
  match engTrans s part e.addr .write with
  | .ok pa _ =>
    (match badHolding s part n e with
     | some (bad, die) => logBadWord (orphan s part n e pa) die bad
     | none => if hkindOf (hwGet s pa).hkind = .successor then conveyTo s part n e pa blk grp else s)
  | _ => s

/-- The holdings of one group of a relaunched block: conveyed, and HEIRLESS raised once for those that could not be (R191, R192). -/
def conveyGroup (part : Nat) (n : Node) (blk : Nat) (s : State) (grp : Nat) : State :=
  if (groupOf s part n blk grp).isNone then s else
  let l := ownedEnts s part n blk grp
  let bad := l.filter fun e => (badHolding s part n e).isSome
  let slot := match n.placed.find? fun p => p.blk == blk && p.grp == grp with | some p => gslotOf p.core p.slot | none => 0
  raiseHeirless (l.foldl (conveyNext part n blk grp) s)
    { part := part, node := n.addr, blk := blk, grp := grp, gslot := slot, killed := true, heirless := bad.length,
      firstHl := (bad.head?.map (·.addr)).getD 0 }

/-- Holdings for the groups of a relaunched block, conveyed at its placement before its first issue (R191). -/
def execSuccessorConveyance (part node blk : Nat) (s : State) : Out :=
  match findNode s part (BitVec.ofNat 64 node) with
  | none => .next s
  | some n => .next ((List.range (groupsPerBlock n.la)).foldl (conveyGroup part n blk) s)

end Sys2Proof.Machine
end

