-- ==== Sys2Proof/Machine/Mesh.lean ====
section
/-! DEFINITION. The message queues (spec/16 R268 to R276, spec/06 R80): failed links, sends, acceptance and reads, MOV, MQCF and MQST. -/
namespace Sys2Proof.Machine

/-! ## Failed links (R268) -/

/-- The tile that owns a link. -/
def linkTile : LinkId → Nat
  | .ring t _ _ => t
  | .y t _ => t
  | .d2d t _ => t

/-- A link fails (R268): it is logged, reroute tables avoid it, and the packets queued for it are purged from their ports, to be sent again or
returned. The record's layout is not given (log 4). -/
def execLinkFailure (l : LinkId) (s : State) : Out :=
  if (s.failed.any fun o => sameLink l o) then .next s else
  let hit := s.packets.filter fun p => ((hopLink p (nextHop s.failed p)).any fun o => sameLink l o) && !p.nak
  let s1 := logError { s with failed := l :: s.failed, free := s.free + 1 } (linkTile l % 8) (Config.freeRecord s.free)
  let purged := fun (p : Packet) => { p with nak := true, rsv := 0, shr := 0, trail := [], base := none }
  let s2 := { s1 with packets := s1.packets.map fun p => if hit.any (fun h => h.id == p.id) then purged p else p }
  .next (hit.foldl departed (post s2 (hit.map fun p => .nakResend p.id)))

/-- Whether a leader issued a buffered operation after a load that is still out, from an entry that the load's rollback issues again (R125). -/
def afterLoad (p : Pend) (slot : Nat) (e : SbEntry) : Bool :=
  e.slot == slot && e.deps.contains p.id && (e.mask &&& p.mask) != 0

/-- Whether a lost load of a leader waits for its shadow, which has still to compare what was issued before it or apart from it (R128): the shadow's core
stands neither stopped nor without power. -/
def lostWaits (s : State) (core slot req : Nat) : Bool :=
  match getGroup s core slot, getGroup s core (slot + 1) with
  | some g, some h =>
    match pendOf g req with
    | some p => g.shadow == .leader && !h.raised && !h.front.isEmpty && !(getCore s core).stopped && (getDie s (dieOf core)).powered &&
        (getCore s core).bufs.any fun b => b.ents.any fun e => e.slot == slot && !e.cmp && !afterLoad p slot e
    | none => false
  | _, _ => false

/-- A load whose request returned, or whose reply was lost again, is asked for again by the rollback of its entry, once: a second failure of it is an
uncorrectable error of its block (R125, R268). What a leader issued after it and its shadow has not compared is issued again (R128). -/
def loadLost (s : State) (core slot req : Nat) : State :=
  match getGroup s core slot with
  | none => s
  | some g =>
    match pendOf g req, findNode s g.part g.node with
    | some p, some n =>
      let hit := g.front.filter fun e => (e.mask &&& p.mask) != 0
      if hit.any fun e => e.resend == some p.tag.ix then consumeBlock s g.part g.node g.blk core slot 8 else
      let g1 := hit.foldl (fun g e => rollGroup n.la.btab e.mask g)
        { g with pend := g.pend.filter (fun q => q.id != req),
                 front := g.front.map fun e => if (e.mask &&& p.mask) != 0 then { e with resend := some p.tag.ix } else e }
      let s1 := if g.shadow != .leader then s else modCore s core fun k => { k with bufs := k.bufs.map fun b =>
        { b with ents := b.ents.filter fun e => e.cmp || e.req.isSome || !afterLoad p slot e } }
      unhold (settlePair (setGroup s1 core slot { g1 with front := tidyFront g1.front }) core slot)
    | _, _ => s

/-- A packet that was resent and is purged again: a load is asked for again, a queued operation is lost with its block, and so is what a message
or an atomic's answer brought (R268, R327). What R268 leaves open, a second purge of a lattice packet, sends it once more (log 29). -/
def lostTwice (s : State) (p : Packet) : State :=
  match p.cargo with
  | .read slot req _ => loadLost s p.src slot req
  | .reply slot req =>
    match (getGroup s p.dst slot).bind fun g => pendOf g req with
    | some q => match q.kind with
      | .load _ | .tile .. => loadLost s p.dst slot req
      | _ => consumeBlock s p.part p.node p.blk p.dst slot 8
    | none => s
  | .write cl ord => consumeBlock (modCluster s cl fun k => { k with wq := k.wq.filter fun e => e.ord != ord }) p.part p.node p.blk p.src p.slot 8
  | .status slot .. => consumeBlock s p.part p.node p.blk p.dst slot 8
  | .words | .face _ => consumeBlock s p.part p.node p.blk p.src p.slot 8

/-- Whether a purged packet is a load's whose pair is not in step yet (R128, R268). -/
def nakWaits (s : State) (p : Packet) : Bool :=
  match p.cargo with
  | .read slot req _ => lostWaits s p.src slot req
  | .reply slot req => p.resent && lostWaits s p.dst slot req
  | _ => false

/-- The purged packets of a core's loads, which may be waiting for a shadow (R268). -/
def nakKicks (s : State) (core : Nat) : List Instr :=
  (s.packets.filter fun p => p.nak && (match p.cargo with | .read .. => p.src == core | .reply .. => p.dst == core | _ => false)).map fun p => .nakResend p.id

/-- A purged packet as it is sent once more from its source, on the escape channel (R268). -/
def resentPacket (p : Packet) : Packet :=
  { p with nak := false, resent := true, esc := true, post := false, blocked := 0, entry := outside + (if p.cls = .response then 12 else 8) + p.src % 4,
           tile := dieOf p.src, row := rowOfCore p.src, stop := stopOfCore p.src }

/-- A purged packet is sent once more over the reroute on the escape channel, a request or a message after its NAK has reached its originator; a
NAKed load is asked for again by its rollback; a second failure is an uncorrectable error of the originating block (R268, R327). -/
def execNakResend (pkt : Nat) (s : State) : Out :=
  match packetOf s pkt with
  | none => .next s
  | some p =>
    if !p.nak || nakWaits s p then .next s
    else match p.cargo with
      | .read slot req _ => .next (loadLost (dropPacket s pkt) p.src slot req)
      | _ =>
        if p.resent && p.cls != .lattice then .next (lostTwice (dropPacket s pkt) p)
        else
          let q := resentPacket p
          .next (post (movePacket s q) [carryOn s q])

/-! ## Acceptance and reads (R271, R272) -/

/-- Flits that a receive queue holds. -/
def queueFlits (q : RecvQ) : Nat := q.msgs.foldl (fun a m => a + flitsOf m.words.length) 0

/-- The entries of a core that are BLOCKED in a read of a receive queue. -/
def recvWaiters (k : Core) (core q : Nat) : List Instr :=
  k.slots.flatMap fun p => (p.2.front.filter fun e => e.st == .blocked && e.wait == some (.recv q)).map fun e =>
    .receivePortRead core p.1 (lowLane e.mask)

/-- Whether the node that holds a core is a packet's node (R272). -/
def coreHolds (k : Core) (part : Nat) (node : DWord) : Bool := k.part == part && k.node == some node

/-- Whether what a node had on a core is saved (R278): groups, or the slots of a lattice. -/
def savedFrom (s : State) (part : Nat) (node : DWord) (core : Nat) : Bool :=
  (getPart s part).images.any fun m => m.core == core && m.img.node == some node

/-- A packet at its destination's router is accepted when the queue has room; one of another node is discarded and counted (R271,
R272), and one for groups that have been vacated waits for them (R278). -/
def execMessageAccept (pkt : Nat) (s : State) : Out :=
  match packetOf s pkt with
  | none => .next s
  | some p =>
    if p.nak || p.cls != .message then .next s
    else if nextHop s.failed p ≠ .here then .next s
    else
      let k := getCore s p.dst
      let q := mapGet {} k.mq p.dq
      if savedFrom s p.part p.node p.dst then .next s
      else if !coreHolds k p.part p.node then
        .next (departed (modCore (dropPacket s pkt) p.dst fun k =>
          { k with mq := mapSet {} k.mq p.dq { q with discards := min 63 (q.discards + 1) } }) p)
      else if 16 < queueFlits q + flitsOf p.words.length then .next s
      else
        let m : Msg := { src := p.src, port := p.port, seq := p.seq, slot := p.slot, words := p.words }
        let s1 := modCore (dropPacket s pkt) p.dst fun k => { k with mq := mapSet {} k.mq p.dq { q with msgs := q.msgs ++ [m] } }
        .next (departed (post s1 (recvWaiters k p.dst p.dq)) p)

/-- An entry BLOCKED in a receive-port read stands LIVE again at its IX once a packet is deliverable, and re-issues (R271, R122). -/
def execReceivePortRead (core slot lane : Nat) (s : State) : Out :=
  match getGroup s core slot with
  | none => .next s
  | some g =>
    match entryOf g.front lane with
    | none => .next s
    | some e =>
      match e.st, e.wait with
      | .blocked, some (.recv q) =>
        if (deliverable s core q).isNone then .next s
        else .next (modFront s core slot fun l => modEntry l e.mask fun e => { e with st := .live, wait := none })
      | _, _ => .next s

/-! ## Sends (R270) -/

/-- Where a send goes: a core, a wait for a vacated block's resume, or nowhere (R270, R278). -/
inductive SendTo where
  | core (c : Nat)
  | wait
  | nowhere
deriving DecidableEq, Repr

/-- The destination of a send to a core id (R270, R278): a core that the placement table lists as a vacated block's is redirected to where that
block has resumed. -/
def sendTarget (s : State) (part : Nat) (n : Node) (d : Nat) : SendTo :=
  if savedFrom s part n.addr d then .wait
  else match assoc n.moved d with
    | some c => if savedFrom s part n.addr c then .wait else .core c
    | none => if coreHolds (getCore s d) part n.addr then .core d else .nowhere

/-- The words of the lanes of `act`, in ascending lane order (R270). -/
def packWords (act : Lanes) (r : Row64) : List Word := (lanesOf act).map fun l => loWord (lane64 r l)

/-- The packet of a send, at the core's port (R270). -/
def sendOut (s : State) (e : SbEntry) (port : Nat) (cfg : Word) (seq : Nat) (words : List Word) : Packet :=
  { id := s.reqId, part := e.part, node := e.node, src := e.core, dst := cfg.toNat % 512, dq := cfg.toNat / 512 % 4, port := port, seq := seq,
    slot := e.slot, words := words, route := cfg.toNat / 2048 % 4, tile := dieOf e.core, row := rowOfCore e.core, stop := stopOfCore e.core,
    entry := 8 + e.core % 4, tag := e.tag, blk := e.blk }

/-- The packet of a send that leaves its buffer, if the core's port accepts it (R270). -/
def injectPacket (s : State) (e : SbEntry) (port : Nat) (cfg : Word) (seq : Nat) (words : List Word) : Option State :=
  (takeSlots s.packets (sendOut s e port cfg seq words)).map fun q =>
    let s1 := movePacket { s with reqId := s.reqId + 1 } q
    post s1 [carryOn s1 q]

/-- Whether the core's port accepts a send now: nothing of its block stands before it in the buffer, it is checked, and the port has slots for all its
flits (R266, R270, R326). -/
def portAccepts (s : State) (x : Ctx) (e : SbEntry) (port : Nat) (cfg : Word) (seq : Nat) (words : List Word) : Bool :=
  (bufOf (getCore s x.core) x.g.blk).ents.isEmpty && checked s e && (takeSlots s.packets (sendOut s e port cfg seq words)).isSome

/-- A send's own part (R270): it waits at issue, the group ready for its other entries, until its destination's groups have resumed (R278), its
shadow has compared (R128), and the core's port accepts the packet. -/
def sendBody (port : Nat) (x : Ctx) (v : Srcs) (s : State) : Res :=
  if x.act = 0 then done s else
  let cfg := mapGet 0 x.g.ports port
  if !cfg.getLsbD 31 then .trap .protection 0 else
  match sendTarget s x.g.part x.node (cfg.toNat % 512) with
  | .nowhere => .trap .protection 0
  | .wait => .wait s
  | .core d =>
    let seq := mapGet 0 x.g.portSeq port
    let dest : Word := BitVec.ofNat 32 (cfg.toNat - cfg.toNat % 512 + d)
    let words := packWords x.act v.y
    let op : MemOp := .send port dest seq words
    let count := fun (s : State) => modGroup s x.core x.slot fun g => { g with portSeq := mapSet 0 g.portSeq port ((seq + 1) % 256) }
    if x.g.shadow == .shadow then done (count (shadowOffer x op s))
    else match matchShadow s x op with
      | .notYet => .wait s
      | .differs => .wait (consume s x.core x.slot 7)
      | .equal s1 =>
        let e := { mkEntry x op 0 0 0 none with cmp := true }
        if portAccepts s x e port dest seq words then done (count (emit x [e] s1)) else .wait s

/-- MOV (R80); into a send port it is a send (R270). -/
def execMov (c : Enc) (ty : Ty) (s : State) : Out :=
  issue (.mov c ty) c (fun x v s =>
    match c.x with
    | .mq n => sendBody n.val x v s
    | _ => compute x c (tyIs64 ty) (fun l => lane64 v.y l) s) s

/-! ## MQCF and MQST -/

/-- MQCF's own part (R274). -/
def mqcfBody (c : Enc) (x : Ctx) (v : Srcs) (s : State) : Res :=
  if x.act = 0 then done s else
  let w : Word := loWord (lane64 v.y 0)
  let n := w.toNat
  if bitsAtMq n 30 13 != 0 || bitsAtMq n 12 11 == 3 || (!w.getLsbD 31 && w != 0) then .trap .illegalOperand 0
  else if w.getLsbD 31 && !(getPart s x.g.part).lay.clusters.contains (clusterOf (n % 512)) then .trap .protection 0
  else done (modGroup s x.core x.slot fun g => { g with ports := mapSet 0 g.ports (portNum c.x) w })
where
  /-- Bits `hi` to `lo` of a number. -/
  bitsAtMq (n hi lo : Nat) : Nat := n / 2 ^ lo % 2 ^ (hi + 1 - lo)
  /-- The number of a port operand. -/
  portNum : Opnd → Nat
    | .mq k => k.val
    | _ => 0

/-- MQCF (R274). -/
def execMqcf (c : Enc) (s : State) : Out := issue (.mqcf c) c (mqcfBody c) s

/-- The packets of a queue that can be delivered (R271, R275): those with no earlier one of their sending port on its way. -/
def deliverables (s : State) (core q : Nat) : Nat :=
  ((mapGet {} (getCore s core).mq q).msgs.filter fun m =>
    !(s.packets.any fun o => o.cls == .message && o.dst == core && o.dq == q && o.src == m.src && o.slot == m.slot && o.port == m.port &&
      decide ((m.seq + 256 - o.seq) % 256 < 128))).length

/-- MQST's result (R275). -/
def mqstValue (s : State) (x : Ctx) (k sel : Nat) : Nat :=
  let q := mapGet {} (getCore s x.core).mq k
  if sel = 0 then min 16 (queueFlits q) + deliverables s x.core k * 32 + q.discards * 1024
  else if sel = 1 then (mapGet 0 x.g.lastRecv k).toNat
  else (mapGet 0 x.g.ports k).toNat

/-- MQST (R275). -/
def execMqst (c : Enc) (s : State) : Out :=
  issue (.mqst c) c (fun x _ s =>
    let n := c.imm.toNat
    if n / 4 % 4 = 3 then .trap .illegalOperand 0
    else compute x c false (fun _ => BitVec.ofNat 64 (mqstValue s x (n % 4) (n / 4 % 4))) s) s

end Sys2Proof.Machine
end

