-- ==== Sys2Proof/Machine/Release.lean ====
section
/-! DEFINITION. Entries that leave a block store buffer (spec/09 R147, R148, spec/20 R326), shadow comparisons (spec/08 R128, spec/20
R332), and the work of the slice and channel units (spec/13 R233, spec/15 R243 to R247). -/
namespace Sys2Proof.Machine

/-! ## What a departure sets off -/

/-- The estate walks that wait for operations of their group to reach their units (R191). -/
def walkKicks (s : State) (e : SbEntry) : List Instr :=
  s.dies.filterMap fun d =>
    match d.2.estq with
    | w :: _ => if w.part == e.part && w.node == e.node && w.blk == e.blk && w.grp == e.grp then some (.estateWalk d.1) else none
    | [] => none

/-- The completion of an entry's node, once its groups are gone and nothing of it is on its way (R299). -/
def doneKick (s : State) (e : SbEntry) : List Instr :=
  match findNode s e.part e.node with
  | some n => if allGone n && !nodeInFlight s e.part e.node then [.nodeDone e.part e.node.toNat] else []
  | none => []

/-- A group whose exit waits until its stores have drained from the buffer goes on with it (R130). -/
def exitOn (s : State) (e : SbEntry) : State :=
  match getGroup s e.core e.slot, findNode s e.part e.node with
  | some g, some n => if g.part == e.part && g.node == e.node && g.blk == e.blk && g.grp == e.grp then maybeExit e.core e.slot n s else s
  | _, _ => s

/-- What reads a line and has waited for an operation of its cluster's write queue to be performed (R243): loads at their homes, the window fill units
and the tile fetch unit of the cluster. -/
def readKicks (s : State) (e : SbEntry) : List Instr :=
  let cl := clusterOf e.core
  if (match e.op with | .rmw .. | .bop .. | .hold .. => false | _ => true) then [] else
  ((s.packets.filter fun p => requestHeld s p && clusterOf p.src == cl && (match p.cargo with | .read _ _ l => l == e.line | _ => false)).map (carryOn s)) ++
  ((s.cores.filter fun k => clusterOf k.1 == cl && !k.2.fillq.isEmpty).map fun k => .windowFill k.1) ++
  (if (getCluster s cl).table.any fun r => r.st == .fetching then [.matrixFetchDone cl] else [])

/-- What may go on once an entry has left a buffer or a queue. -/
def gone (s : State) (e : SbEntry) : State :=
  let s1 := exitOn s e
  post s1 (readKicks s1 e ++ walkKicks s1 e ++ doneKick s1 e ++ tlbiWaits s1)

/-! ## Release (R148, R326) -/

/-- Whether two operations of a cluster's write queue are performed in their order: they are of one line, or their lines have one home slice (R243,
R261). -/
def sameWay (a b : SbEntry) : Bool := a.line == b.line || a.home == b.home

/-- An entry in its cluster's write queue (R233); it is on its way to its home unless an earlier one of its line or of its home slice still stands there
(R243, R261). -/
def enterQueue (s : State) (e : SbEntry) : State :=
  let cl := clusterOf e.core
  let s1 := modCluster s cl fun k => { k with wq := k.wq ++ [e] }
  if (getCluster s cl).wq.any fun o => sameWay o e then s1 else sendWrite s1 e

/-- The operations of a cluster's write queue that only one which has left it kept from their homes, on their way (R243, R261). -/
def nextOfLine (s : State) (cl : Nat) (e : SbEntry) : State :=
  let q := (getCluster s cl).wq
  ((q.zipIdx.filter fun p => sameWay p.1 e && !(q.take p.2).any (sameWay p.1)).map (·.1)).foldl sendWrite s

/-- Operations withdrawn from a cluster's write queue; what only they kept from their homes goes on (R191, R194). -/
def withdrawQueued (s : State) (cl : Nat) (p : SbEntry → Bool) : State :=
  let q := (getCluster s cl).wq
  let free := fun (o : SbEntry × Nat) => !p o.1 && (q.take o.2).any (sameWay o.1) && !(q.take o.2).any fun a => sameWay o.1 a && !p a
  ((q.zipIdx.filter free).map (·.1)).foldl sendWrite (modCluster s cl fun k => { k with wq := k.wq.filter fun e => !p e })

/-- The reply of an engine post. -/
def postReply (s : State) (e : SbEntry) (v : Nat) : State :=
  match e.req with
  | some q => reply s e.core e.slot q (rowOf fun _ => BitVec.ofNat 64 v) true
  | none => s

/-- The head entry of a buffer sent where it goes; `none` while its engine or port has no room. A contribution that was issued under an earlier binding of
its identifier is late: it joins no other one (R375). -/
def sendEntry (s : State) (e : SbEntry) : Option State :=
  let s1 := markReleased s e.part e.node e.blk
  match e.op with
  | .store true _ => some (enterQueue (modCore s e.core fun k => l1Drop k e.line) e)
  | .store false bs => some (enterQueue (modCore s e.core fun k => l1Update k bs) e)
  | .rmw .. => some (enterQueue (modCore s1 e.core fun k => l1Drop k e.line) e)
  | .bop .. => some (enterQueue (modCore s1 e.core fun k => l1Drop k e.line) e)
  | .hold .. => some (enterQueue (modCore s1 e.core fun k => l1Drop k e.line) e)
  | .redt ident _ _ =>
    if (identOf s e.part ident).gen = e.gen then some (enterQueue (modIdent s1 e.part ident fun i => { i with infl := i.infl + 1 }) e)
    else some (modPart s1 e.part fun p => { p with late := p.late + 1 })
  | .send port cfg seq words => injectPacket s1 e port cfg seq words
  | .bcopy d c rbase rlog bq =>
    (bteAccept s1 e.part bq (dieOf e.core) e.node d c rbase rlog).map fun p => postReply p.2 e p.1.toNat
  | .bfence mask => some (bteFence s1 e.part mask)
  | .bgid mcast ident d =>
    if (identOf s e.part ident).st == .free && (frontAsks s e.part (bindPages s e.part mcast d)).isSome then none else
    let p := bindIdent s1 e.part ident mcast d
    some (postReply (clearDenied p.2 e.part) e p.1)
  | .bgfree ident => some (freeIdent s1 e.part ident)
  | .launch record q =>
    let p := launchPost s1 e.part e.core e.slot q record e.req
    some (match p.1 with | some v => postReply p.2 e v | none => p.2)
  | .stepSend .. | .bar .. | .matrix .. => some s1

/-- The head of a block's buffer leaves it once it is checked, and the next may follow (R148, R326); on a die without power nothing does (R34). -/
def execStoreBufferRelease (core blk : Nat) (s : State) : Out :=
  match (bufOf (getCore s core) blk).ents with
  | [] => .next s
  | e :: t =>
    if !checked s e || !powered s core then .next s else
    let s1 := modCore s core fun k => bufSet k { bufOf k blk with ents := t }
    match sendEntry s1 e with
    | none => .next (match e.op with | .bgid mcast _ d => (frontAsks s e.part (bindPages s e.part mcast d)).getD s | _ => s)
    | some s2 =>
      let s3 := gone s2 e
      .next (if t.isEmpty then s3 else post s3 [.storeBufferRelease core blk])

/-! ## Shadow comparison (R128, R332) -/

/-- The oldest uncompared entry of a leader that its shadow has an operation for, with that operation. -/
def comparable (k : Core) (leader : Nat) (g h : Group) : Option (SbEntry × SbEntry) :=
  ((bufOf k g.blk).ents.filter fun e => e.slot == leader && !e.cmp).findSome? fun e =>
    (h.shq.find? fun o => o.tag.ix == e.tag.ix).map fun o => (e, o)

/-- Whether two operations compare equal: kind, every lane's address and datum, the lane mask, and for an engine post its descriptor (R332). -/
def sameOp (a b : SbEntry) : Bool := a.op == b.op && a.va == b.va && a.line == b.line && a.mask == b.mask && a.lanes == b.lanes

/-- A shadow's operation compared with its leader's (R332): an equal pair lets the leader's entry go, a mismatch is a consumption by the
leader's block. -/
def execShadowCompare (core slot : Nat) (s : State) : Out :=
  match getGroup s core (slot - 1), getGroup s core slot with
  | some g, some h =>
    if g.shadow != .leader || h.shadow != .shadow || !powered s core then .next s else
    match comparable (getCore s core) (slot - 1) g h with
    | none => .next s
    | some (e, o) =>
      let s1 := modGroup s core slot fun h => { h with shq := h.shq.erase o }
      if sameOp e o then
        let s2 := modCore s1 core fun k =>
          let b := bufOf k g.blk
          bufSet k { b with ents := b.ents.map fun x => if x.ord == e.ord then { x with cmp := true } else x }
        .next (post s2 ([.storeBufferRelease core g.blk, .shadowCompare core slot] ++ nakKicks s2 core))
      else .next (consume s1 core (slot - 1) 7)
  | _, _ => .next s

/-! ## Slice and channel units (R233, R243, R246) -/

/-- A contribution at the slice that homes its node (R253): on its way to the node, or refused there (R323). -/
def performRedt (s : State) (e : SbEntry) (ident leaf : Nat) (v : DWord) : State :=
  let t := treeOf (identOf s e.part ident).desc
  match refusalOf (getPart s e.part).lay (e.line * 128) with
  | some sub => refuse (modIdent s e.part ident (lessInFlight 1)) (originOf e (e.line * 128)) (e.home / 64) sub 5
  | none =>
    post (modPart s e.part fun p => { p with contribs := p.contribs ++
      [{ ident := ident, leaf := true, idx := leaf, node := leafParent s e.part t leaf, val := v, inc := false, incn := 0 }] })
      [.redtContributionArrival e.part]

/-- One entry of a cluster write queue performed at its home point. -/
def performEntry (s : State) (e : SbEntry) : State :=
  match e.op with
  | .hold op pa => performHold s e op pa
  | .redt ident leaf v => performRedt s e ident leaf v
  | _ => settlePromises (performPlain s e) e.part

/-- A slice or channel unit performs what has reached it: an entry of a cluster write queue that has none of its line or home slice before
it, or one line of a load (R233, R243, R261). -/
def execSliceOperation (t : SliceTarget) (s : State) : Out :=
  match t with
  | .read core slot req line => .next (readLine s core slot req line)
  | .write cl idx =>
    let l := (getCluster s cl).wq
    match l[idx]? with
    | none => .next s
    | some e =>
      if (l.take idx).any fun o => sameWay o e then .next s else
      .next (gone (nextOfLine (performEntry (modCluster s cl fun k => { k with wq := listDrop k.wq idx }) e) cl e) e)

end Sys2Proof.Machine
end

