-- ==== Sys2Proof/Machine/Matrix.lean ====
section
/-! DEFINITION. The matrix engine (spec/13 R207 to R232): its reservation table, arbiter and requests, its stop record, and the
instructions MLDW, MPASS, ZCLR, ZMOV, ZST, ZLD, MSTAT, MWAIT; leave (spec/20 R336). -/
namespace Sys2Proof.Machine

/-- Whether an engine stands still: it is frozen, or its compute die has no power (R34, R221). -/
def engineStopped (s : State) (cl : Nat) : Bool := (getCluster s cl).frozen || !(getDie s (cl / 16)).powered

/-! ## Interlocks and the table (R214, R215) -/

/-- Whether an earlier instruction of a core still writes one of some tiles (R214). -/
def tileBusy (s : State) (core lo cnt : Nat) : Bool :=
  ((getCluster s (clusterOf core)).table.any fun r => r.core == core && r.pass && passHits r.zk r.m lo cnt) ||
  (getCore s core).slots.any fun p => p.2.pend.any fun q =>
    match q.kind with | .tile z _ => decide (lo ≤ z) && decide (z < lo + cnt) | _ => false

/-- The entries of a core in a table. -/
def coreEntriesOf (t : List MReq) (core : Nat) : Nat := (t.filter fun r => r.core == core).length

/-- Whether a core may post one more request: its reserved entry or a shared one is free (R215). -/
def tableRoom (s : State) (core : Nat) : Bool :=
  let t := (getCluster s (clusterOf core)).table
  let shared := (List.range 4).foldl (fun a j => a + (coreEntriesOf t (4 * clusterOf core + j) - 1)) 0
  coreEntriesOf t core == 0 || decide (shared < 12)

/-- The ticket after one (R218): 0 is skipped. -/
def nextTicket (t : Word) : Word := if t + 1 = 0 then 1 else t + 1

/-- A table entry changed. -/
def modReq (s : State) (cl i : Nat) (f : MReq → MReq) : State := modCluster s cl fun k => { k with table := listMod k.table i f }

/-- Whether an MLDW of the same core stands before entry `i` of a table. -/
def loadBefore (t : List MReq) (i core : Nat) : Bool := (t.take i).any fun r => r.core == core && !r.pass

/-- Whether any request of the same core stands before entry `i`. -/
def anyBefore (t : List MReq) (i core : Nat) : Bool := (t.take i).any fun r => r.core == core

/-! ## The arbiter -/

/-- The candidates of the arbiter: the oldest waiting request of each core's queue (R215). -/
def arbCandidates (t : List MReq) : List (Nat × MReq) :=
  (t.zipIdx.map fun p => (p.2, p.1)).filter fun p =>
    p.2.st == .queued && !((t.take p.1).any fun r => r.core == p.2.core && r.st == .queued)

/-- Whether the arbiter ranks a candidate before another (R215). -/
def arbBefore (a b : Nat × MReq) : Bool :=
  match a.2.promoted, b.2.promoted with
  | some m, some n => decide (m < n)
  | some _, none => true
  | none, some _ => false
  | none, none => if a.2.prio ≠ b.2.prio then decide (b.2.prio < a.2.prio) else decide (a.1 < b.1)

/-- The arbiter's choice. -/
def arbPick (t : List MReq) : Option (Nat × MReq) :=
  (arbCandidates t).foldl (fun b p => match b with | none => some p | some q => if arbBefore p q then some p else b) none

/-- A candidate passed over (R215): it is promoted the eighth time. -/
def passedOver (n : Nat) (r : MReq) : MReq :=
  { r with passed := r.passed + 1, promoted := if r.passed + 1 = 8 then some n else r.promoted }

/-- The table after a grant: the other candidates have been passed over. -/
def afterGrant (k : Cluster) (i : Nat) : Cluster :=
  let c := (arbCandidates k.table).map (·.1)
  { k with table := k.table.zipIdx.map (fun p => if p.2 ≠ i && c.contains p.2 then passedOver k.promo p.1 else p.1), promo := k.promo + 1 }

/-- Whether the partition of an engine keeps it from granting (R221, R224, R315). -/
def engineHeld (s : State) (cl : Nat) : Bool :=
  engineStopped s cl || s.parts.any fun p => p.2.lay.clusters.contains cl && (p.2.st == .quiescing || p.2.st == .quiesced)

/-! ## Completion (R218) -/

/-- The group that issued a request, and its shadow, learn of its completion. -/
def setCmp (s : State) (r : MReq) : State :=
  if r.killed then s else
  match getGroup s r.core r.slot with
  | some g =>
    if g.part == r.part && g.node == r.node && g.blk == r.blk && g.grp == r.grp then
      let s1 := modGroup s r.core r.slot fun g => { g with cmp := r.ticket }
      if g.shadow == .leader then modGroup s1 r.core (r.slot + 1) fun h => { h with cmp := r.ticket } else s1
    else s
  | none => s

/-- The events by which an engine goes on from where it stands. -/
def engineEvents (cl : Nat) : List Instr :=
  [.matrixGrant cl, .matrixFetchDone cl, .matrixStreamDone { cl := cl }, .matrixPassComplete cl, .mldwLoadComplete cl]

/-- A request leaves the table, complete (R217); an image that waits for room in the table may be restored (R223). -/
def completeReq (s : State) (cl i : Nat) (r : MReq) : State :=
  post (setCmp (modCluster s cl fun k => { k with table := listDrop k.table i }) r)
    ([.matrixGrant cl, .matrixFetchDone cl] ++ if (getPart s r.part).images.isEmpty then [] else [.blockPlacement r.part (cl / 16)])

/-- A consumption by the block of a request, charged to the group that issued it, or, once that has left its slot, to any of its block's
(R218, R219, R327). -/
def consumeReq (s : State) (r : MReq) (src : Nat) : State :=
  if r.killed then s else consumeBlock s r.part r.node r.blk r.core r.slot src

/-! ## Fetching (R216) -/

/-- How a line of an operand reads. -/
inductive LineRead where
  | ok (v : Line) (bad : Bool)
  | held
  | fault (k : TrapKind) (va : DWord)
  | refusal (va : DWord) (pa home sub : Nat)
deriving DecidableEq, Repr

/-- Translation by the tile fetch unit, through the die's TLB; once a walk that it asked for has ended in a fault, the table itself says which
(R216, R251). -/
def fetchTrans (s : State) (core part : Nat) (va : DWord) : EngTr :=
  match leafTrans s part va .read (tlbFind (getDie s (dieOf core)).stlb part va) with
  | .ok pa pte => .ok pa pte
  | .fault f => .fault f
  | .miss => engTrans s part va .read

/-- The operand pages of a request that miss in the die's TLB: each asks for a walk (R216, R251). -/
def fetchMisses (s : State) (core part : Nat) (vas : List DWord) : List DWord :=
  vas.filter fun va => leafTrans s part va .read (tlbFind (getDie s (dieOf core)).stlb part va) == .miss && engTrans s part va .read != .poisoned

/-- One operand line, read past the L1 (R216, R233). -/
def operandLine (s : State) (core part : Nat) (va : DWord) : LineRead :=
  match fetchTrans s core part va with
  | .fault k => .fault k va
  | .poisoned => .ok 0 true
  | .ok pa pte =>
    match refusalOf (getPart s part).lay pa with
    | some sub => .refusal va pa (homeOf (getPart s part).lay pa pte) sub
    | none =>
      let cl := clusterOf core
      let pas := (List.range 128).map fun j => pa / 128 * 128 + j
      if pas.any (lowHeld s cl) then .held
      else .ok (lowLine s cl (pa / 128)) (linePoisoned s pa && pas.any fun a => wqByte s cl a == .none)

/-- Several operand lines: a translation fault of any precedes everything else. -/
inductive LinesRead where
  | ok (l : List (Line × Bool))
  | held
  | fault (k : TrapKind) (va : DWord)
  | refusal (va : DWord) (pa home sub : Nat)

/-- The lines of an operand read (R216). -/
def operandLines (s : State) (core part : Nat) (vas : List DWord) : LinesRead :=
  let l := vas.map (operandLine s core part)
  match l.find? fun r => match r with | .fault .. => true | _ => false with
  | some (.fault k a) => .fault k a
  | _ =>
    match l.find? fun r => match r with | .refusal .. => true | _ => false with
    | some (.refusal a pa home sub) => .refusal a pa home sub
    | _ =>
      if l.any fun r => r == .held then .held
      else .ok (l.filterMap fun r => match r with | .ok v b => some (v, b) | _ => none)

/-- The lines of `n` bytes from a line boundary. -/
def lineVas (va : DWord) (n : Nat) : List DWord := (List.range ((n + 127) / 128)).map fun j => va + BitVec.ofNat 64 (128 * j)

/-- The operand lines of a request in the order of R216: an MLDW's scales before its elements, a pass's rows in turn. -/
def requestVas (r : MReq) : List DWord :=
  if r.pass then (List.range r.m).flatMap fun i => lineVas (r.elem + BitVec.ofNat 64 (r.pitch * i)) (rowBytes r.wf r.af r.rsc)
  else (if r.wf = .f4 then lineVas r.scale 16388 else []) ++ lineVas r.elem 65536

/-- The bytes of some lines as one number, the first lowest. -/
def linesNum (l : List (Line × Bool)) : Nat := l.foldr (fun v acc => v.1.toNat + 2 ^ 1024 * acc) 0

/-- The plane that an MLDW's lines make (R208, R210). -/
def planeOf (r : MReq) (l : List (Line × Bool)) : Plane :=
  let sc := if r.wf = .f4 then l.take 129 else []
  let el := if r.wf = .f4 then l.drop 129 else l
  let band := match sc[128]? with | some v => v.1.toNat | none => 0
  { fmt := some r.wf,
    cols := mapSets 0 [] ((List.range 128).map fun n => (n, BitVec.ofNat 4096 (linesNum ((el.drop (4 * n)).take 4)))),
    scales := mapSets 0 [] ((sc.take 128).zipIdx.map fun p => (p.2, p.1.1)),
    band0 := BitVec.ofNat 16 band, band1 := BitVec.ofNat 16 (band / 2 ^ 16), poison := l.any fun v => v.2 }

/-- The rows that a pass's lines make (R211). -/
def rowsOf (r : MReq) (l : List (Line × Bool)) : SMap (BitVec 9216) :=
  let per := (rowBytes r.wf r.af r.rsc) / 128
  mapSets 0 [] ((List.range r.m).map fun i => (i, BitVec.ofNat 9216 (linesNum ((l.drop (per * i)).take per))))

/-- The entry that is being fetched. -/
def fetchingIdx (t : List MReq) : Option Nat := t.findIdx? fun r => r.st == .fetching

/-- An MLDW with its data ready loads once every earlier request of its core is complete (R217). -/
def tryLoad (s : State) (cl i : Nat) (r : MReq) : State :=
  if anyBefore (getCluster s cl).table i r.core then s
  else post (modReq s cl i fun r => { r with st := .loading }) [.mldwLoadComplete cl, .matrixGrant cl]

/-! ## Leave and streaming -/

/-- A pass that has leave streams once the array is free and its plane loaded (R217). -/
def startStream (s : State) (cl : Nat) : State :=
  let t := (getCluster s cl).table
  match t.zipIdx.find? fun p => p.1.st == .leave && p.1.granted with
  | none => s
  | some (r, i) =>
    if (t.any fun q => q.st == .streaming) || loadBefore t i r.core || engineStopped s cl then s
    else post (modReq s cl i fun r => { r with st := .streaming }) [.matrixStreamDone { cl := cl }, .matrixGrant cl]

/-! ## The engine's events -/

/-- The arbiter grants a request once the one granted before has reached STREAMING or LOADING (R217); a pass over a plane that a faulted
MLDW emptied completes with a fault, after the requests of its core before it (R218, R220). -/
def execMatrixGrant (cl : Nat) (s : State) : Out :=
  let k := getCluster s cl
  if engineHeld s cl || k.table.any (fun r => r.st == .fetching || r.st == .leave) then .next s else
  match arbPick k.table with
  | none => .next s
  | some (i, r) =>
    let s1 := modCluster s cl fun k => afterGrant k i
    if r.pass && (mapGet {} k.planes r.core).fmt.isNone && anyBefore k.table i r.core && !loadBefore k.table i r.core then .next s
    else if r.pass && (mapGet {} k.planes r.core).fmt.isNone && !loadBefore k.table i r.core then
      let bad := { r with fault := 5, faddr := (assoc k.emptied r.core).getD 0 }
      .next (completeReq (modCluster s1 cl fun k => { k with report := some bad }) cl i r)
    else .next (post (modReq s1 cl i fun r => { r with st := .fetching }) [.matrixFetchDone cl])

/-- The operands of the granted request are fetched, once every page of them has its translation (R216, R217): a pass asks for leave, an MLDW loads
when it may. -/
def execMatrixFetchDone (cl : Nat) (s : State) : Out :=
  let t := (getCluster s cl).table
  match (fetchingIdx t).bind fun i => (t[i]?).map fun r => (i, r) with
  | none => .next (startStream s cl)
  | some (i, r) =>
    if engineStopped s cl then .next s
    else if !r.pass && r.plane.fmt.isSome then .next (tryLoad s cl i r)
    else if r.pass && r.ready then
      .next (post (modDie (modReq s cl i fun r => { r with st := .leave }) (dieOf r.core) fun k => { k with leaveq := k.leaveq ++ [(0, cl)] })
        [.leaveGrant (dieOf r.core)])
    else
    let miss := fetchMisses s r.core r.part (requestVas r)
    if !miss.isEmpty then .next (miss.foldl (fun s va => missWalk s r.core fetchWaiter r.part 0 va .read) s) else
    match operandLines s r.core r.part (requestVas r) with
      | .fault .. | .refusal .. => .next (post s [.matrixFetchFault cl])
      | .held => .next s
      | .ok l =>
        let rq := requestsOf s r.part .read (requestVas r)
        match issueAll s r.part .demand rq with
        | none => .next (holdAll s r.part .demand rq)
        | some s =>
        let count := countLines r.part r.node (fun _ => dieOf r.core) false rq
        if r.pass then
          let d := dieOf r.core
          let s1 := modReq s cl i fun r => { r with st := .leave, rows := rowsOf r l, poisoned := l.any fun v => v.2 }
          .next (count (post (modDie s1 d fun k => { k with leaveq := k.leaveq ++ [(0, cl)] }) [.leaveGrant d]))
        else .next (count (tryLoad (modReq s cl i fun r => { r with plane := planeOf r l }) cl i r))

/-- What a fetch found, as the FAULT code, the cause and the address; `none` when it can be made. -/
def fetchBad (s : State) (r : MReq) : Option (Nat × TrapKind × DWord × Option (Nat × Nat × Nat)) :=
  match operandLines s r.core r.part (requestVas r) with
  | .fault .page a => some (1, .page, a, none)
  | .fault k a => some (2, k, a, none)
  | .refusal a pa home sub => some (2, .protection, a, some (pa, home, sub))
  | _ => none

/-- A faulted MLDW empties its core's plane and its declared format (R220). -/
def emptyPlane (s : State) (cl : Nat) (r : MReq) (va : DWord) : State :=
  if r.pass then s else
  modCore (modCluster s cl fun k => { k with planes := mapSet {} k.planes r.core {},
                                             emptied := (r.core, va) :: k.emptied.filter fun p => p.1 != r.core }) r.core
    fun k => { k with declared := none }

/-- The fault of a request raised against its group at the group's region (R220); a killed block's raises nothing. -/
def raiseFetch (s : State) (r : MReq) (kind : TrapKind) (va : DWord) : State :=
  if r.killed then s else
  match getGroup s r.core r.slot with
  | some g => if g.node == r.node && g.blk == r.blk && g.grp == r.grp then touchFault s r.core r.part r.tag kind va
              else raiseSquall s r.part { code := trapCode kind, origin := 3, gslot := r.tag.gslot, ix := r.tag.ix, rgn := r.tag.rgn, faddr := va,
                                          node := some r.node }
  | none => raiseSquall s r.part { code := trapCode kind, origin := 3, gslot := r.tag.gslot, ix := r.tag.ix, rgn := r.tag.rgn, faddr := va,
                                   node := some r.node }

/-- The tile fetch unit meets a fault (R220): the request completes with it, after those of its core before it (R218), no accumulator changes, and a line refused at its home is a remote
fault too. -/
def execMatrixFetchFault (cl : Nat) (s : State) : Out :=
  let t := (getCluster s cl).table
  match (fetchingIdx t).bind fun i => (t[i]?).map fun r => (i, r) with
  | none => .next s
  | some (i, r) =>
    if engineStopped s cl || r.plane.fmt.isSome || r.ready || anyBefore t i r.core then .next s else
    match fetchBad s r with
    | none => .next s
    | some (code, kind, va, ref) =>
      let s1 := if r.killed then s else modCluster s cl fun k => { k with report := some { r with fault := code, faddr := va } }
      let s2 := match ref with
        | some (pa, home, sub) =>
          refuse s1 { core := r.core, part := r.part, node := r.node, blk := r.blk, grp := r.grp, tag := r.tag, va := va, pa := pa, home := home }
            (home / 64) sub 9
        | none => s1
      .next (clearDenied (raiseFetch (completeReq (emptyPlane s2 cl r va) cl i r) r kind va) r.part)

/-- The unit of a leave request is stopped: it stays queued (R336). -/
def leaveStopped (s : State) (q : Nat × Nat) : Bool :=
  if q.1 = 0 then engineStopped s q.2 else (bteOf s (q.2 / 16) (q.2 % 16)).stopped

/-- The power controller grants leave to the oldest request that is not stopped, while the die's estimate stays within its cap (R336). -/
def execLeaveGrant (die : Nat) (s : State) : Out :=
  let d := getDie s die
  match d.leaveq.find? fun q => !leaveStopped s q with
  | none => .next s
  | some q =>
    if !leaveFits d (q.1 == 0) then .next s else
    let s1 := modDie s die fun d => { d with leaveq := d.leaveq.erase q, committed := d.committed + Config.leaveEstimate (q.1 == 0) }
    let s2 := if q.1 = 0 then
        startStream (modCluster s1 q.2 fun k => { k with table := k.table.map fun r => if r.st == .leave then { r with granted := true } else r }) q.2
      else post (modRun s1 (q.2 / 16) (q.2 % 16) fun r => { r with leave := true }) [.bteDescriptorStart (q.2 / 16) (q.2 % 16)]
    .next (if (getDie s2 die).leaveq.isEmpty then s2 else post s2 [.leaveGrant die])

/-- The last row of the streaming pass enters the array (R217): the next pass may follow. `e.residue` says that a column's residue check has found a
mismatch (R219). -/
def execMatrixStreamDone (e : StreamEnd) (s : State) : Out :=
  let cl := e.cl
  let t := (getCluster s cl).table
  match t.findIdx? fun r => r.st == .streaming with
  | none => .next s
  | some i =>
    if engineStopped s cl then .next s else
    .next (startStream (post (modReq s cl i fun r => { r with st := .draining, residue := r.residue || e.residue }) [.matrixPassComplete cl]) cl)

/-- The accumulators of a core after a pass, and whether the pass consumed an error: SRC 5 for an operand or plane, 6 for a residue mismatch, 4 for a
target row (R212, R213, R219). -/
def passResult (k : Core) (p : Plane) (r : MReq) : Core × Option Nat :=
  let keys := passKeys r.zk r.m
  let opBad := r.poisoned || p.poison
  let accHit := keys.any fun key => mapGet 0 k.apoison key != 0
  let bad := opBad || r.residue || accHit
  (keys.zipIdx.foldl (fun k q =>
      accPut k q.1 (passRow p r.wf r.af r.rsc (mapGet 0 r.rows q.2).toNat (mapGet 0 k.accs q.1)) (if bad then BitVec.allOnes 128 else 0)) k,
    if opBad then some 5 else if r.residue then some 6 else if accHit then some 4 else none)

/-- The oldest draining pass has accumulated (R217, R218): its rows stand in the accumulators, its ticket completes and its leave ends. A
killed block's results are discarded (R222). -/
def execMatrixPassComplete (cl : Nat) (s : State) : Out :=
  let c := getCluster s cl
  match c.table.zipIdx.find? fun p => p.1.st == .draining with
  | none => .next s
  | some (r, i) =>
    if engineStopped s cl then .next s else
    let q := passResult (getCore s r.core) (mapGet {} c.planes r.core) r
    let s1 := if r.killed then s else setCore s r.core q.1
    let s2 := match q.2 with
      | some src => consumeReq s1 r src
      | none => s1
    .next (completeReq (giveLeave s2 (dieOf r.core) true) cl i r)

/-- The last weight word of the loading MLDW is written (R217): the plane is the new one, and the ticket completes.
Of a killed block the plane takes nothing (R222). -/
def execMldwLoadComplete (cl : Nat) (s : State) : Out :=
  let c := getCluster s cl
  match c.table.zipIdx.find? fun p => p.1.st == .loading with
  | none => .next s
  | some (r, i) =>
    if engineStopped s cl then .next s else
    let s1 := if r.killed then s else modCluster s cl fun k => { k with planes := mapSet {} k.planes r.core r.plane,
                                                                        emptied := k.emptied.filter fun p => p.1 != r.core }
    let s2 := if r.plane.poison then consumeReq s1 r 5 else s1
    .next (completeReq s2 cl i r)

/-! ## Stop record and freeze (R221) -/

/-- The request that a stop record describes: the faulted one, else the latest granted one (R220, R221). -/
def stopReq (k : Cluster) : Option MReq :=
  match k.report with
  | some r => some r
  | none =>
    match k.table.find? fun r => r.st == .fetching || r.st == .leave with
    | some r => some r
    | none => match k.table.find? fun r => r.st == .streaming || r.st == .loading with
      | some r => some r
      | none => k.table.find? fun r => r.st == .draining

/-- The FAULT code of the request that a stop record shows (R221): its own fault, an uncorrectable operand or plane, a residue mismatch. For a pass over
poisoned target rows, of which the table does not speak, the code is 3, the model's choice (log 70). -/
def faultShown (s : State) (k : Cluster) (r : MReq) : Nat :=
  if r.fault != 0 then r.fault
  else if r.poisoned || (if r.pass then r.st != .queued && r.st != .fetching && (mapGet {} k.planes r.core).poison else r.plane.poison) then 3
  else if r.residue then 4
  else if r.pass && r.st == .draining && (passKeys r.zk r.m).any fun key => mapGet 0 (getCore s r.core).apoison key != 0 then 3 else 0

/-- Whether a request is in the array. -/
def inArray (r : MReq) : Bool := r.st == .streaming || r.st == .draining || r.st == .loading

/-- Rows of a pass that have entered the array at a freeze: how many of a streaming pass is left to timing (log 4). -/
def rowsIn (n : Nat) (r : MReq) : Nat :=
  match r.st with
  | .draining => r.m
  | .streaming => Config.freeChoice n % r.m
  | _ => 0

/-- The engine's stop record (R221); the pins at a freeze are left to timing (log 4). -/
def matrixRecord (s : State) (k : Cluster) (cl free : Nat) : Nat :=
  let r := stopReq k
  let get := fun (f : MReq → Nat) => match r with | some q => f q | none => 0
  recordOf [(0, 2), (8, cl), (16, k.table.length), (24, (k.table.any inArray).toNat),
    (25, (k.table.any fun r => r.st == .leave && !r.granted).toNat), (26, get fun q => q.core % 4), (32, get fun q => q.ticket.toNat),
    (64, get (rowsIn free)), (80, get (faultShown s k)), (96, get fun q => q.faddr.toNat),
    (160, if k.table.any (fun r => r.st != .queued && r.st != .draining) then Config.freeChoice (free + 1) % 1025 else 0),
    (192, get fun q => q.tag.gslot)]

/-- The engine freezes and writes its record to the stop area of the node whose request it held (R221, R318). -/
def freezeEngine (s : State) (part cl : Nat) : State :=
  let k := getCluster s cl
  if k.frozen then s else
  let s1 := modCluster { s with free := s.free + 2 } cl fun k => { k with frozen := true }
  match (match stopReq k with | some r => some r | none => k.table.head?) with
  | some r => match findNode s part r.node with
    | some n => unitRecord s1 part n.la.stoparea 64 (matrixRecord s k cl s.free)
    | none => s1
  | none => s1

/-- The partition that owns a cluster, where one does (R337). -/
def partOfCluster (s : State) (cl : Nat) : Option Nat := (s.parts.find? fun p => p.2.lay.clusters.contains cl).map (·.1)

/-- At the squall line the engine freezes (R221). -/
def execMatrixEngineFreeze (cl : Nat) (s : State) : Out :=
  match partOfCluster s cl with
  | some p => .next (if (getPart s p).squall then freezeEngine s p cl else s)
  | none => .next s

/-! ## MLDW and MPASS -/

/-- A request posted (R215, R218), with the ticket in X; in a redundant launch it leaves once its shadow's has compared equal, and the shadow
only keeps the ticket (R128, R225). -/
def postReq (x : Ctx) (c : Enc) (op : MemOp) (r : Word → MReq) (declared : Option WFmt) (s : State) : Res :=
  let t := nextTicket x.g.tck
  let row : Row64 := rowOf fun _ => t.setWidth 64
  let mark := fun (s : State) => writeDst x c.x false c.nw row (modGroup s x.core x.slot fun g =>
    { g with tck := t, front := modEntry g.front x.e.mask fun e => { e with tckAt := e.tckAt <|> some g.tck } })
  if x.g.shadow == .shadow then .fin (mark (shadowOffer x op s)) row
  else if !tableRoom s x.core then .waitGroup s
  else match matchShadow s x op with
    | .notYet => .waitGroup s
    | .differs => .waitGroup (consume s x.core x.slot 7)
    | .equal s1 =>
      let cl := clusterOf x.core
      let s2 := modCluster s1 cl fun k => { k with table := k.table ++ [r t] }
      let s3 := match declared with | some f => modCore s2 x.core fun k => { k with declared := some f } | none => s2
      .fin (post (mark s3) [.matrixGrant cl]) row

/-- The fields of a request that its issue gives. -/
def reqOf (x : Ctx) (pass : Bool) (elem : DWord) (wf : WFmt) (t : Word) : MReq :=
  { part := x.g.part, core := x.core, slot := x.slot, node := x.g.node, blk := x.g.blk, grp := x.g.grp, tag := tagOf x, ticket := t,
    prio := x.node.la.prio, pass := pass, elem := elem, wf := wf }

/-- MLDW's own part (R226). -/
def mldwBody (c : Enc) (wf : WFmt) (x : Ctx) (v : Srcs) (s : State) : Res :=
  let elem := lane64 v.y 0
  let scale := lane64 v.z 0
  if badArea elem then .trap .protection elem
  else if wf = .f4 && badArea scale then .trap .protection scale
  else postReq x c (.matrix elem scale (BitVec.ofNat 32 (wfCode wf))) (fun t => { reqOf x false elem wf t with scale := scale }) (some wf) s

/-- MLDW (R226). -/
def execMldw (c : Enc) (wf : WFmt) (s : State) : Out := issue (.mldw c wf) c (mldwBody c wf) s

/-- MPASS's own part (R227). -/
def mpassBody (c : Enc) (wf af : WFmt) (x : Ctx) (v : Srcs) (s : State) : Res :=
  let q := passFields c.imm
  let a := lane64 v.y 0
  if passIllegal s x wf af c.imm then .trap .illegalInstruction 0
  else if badArea a then .trap .protection a
  else if x.g.shadow != .shadow && tileBusy s x.core q.2.1 ((q.1 + 15) / 16) then .waitGroup s
  else postReq x c (.matrix a 0 c.imm)
    (fun t => { reqOf x true a wf t with af := af, zk := q.2.1, m := q.1, pitch := q.2.2.2, rsc := q.2.2.1 }) none s

/-- MPASS (R227). -/
def execMpass (c : Enc) (wf af : WFmt) (s : State) : Out := issue (.mpass c wf af) c (mpassBody c wf af) s

/-! ## Tiles in registers and memory -/

/-- The number of a tile operand (R225). -/
def tileNum : Opnd → Nat
  | .v n => n.val
  | _ => 0

/-- ZCLR's own part (R228); a shadow leaves the accumulators to its leader. -/
def zclrBody (c : Enc) (x : Ctx) (s : State) : Res :=
  let k := tileNum c.x
  let n := c.imm.toNat % 128 + 1
  if 96 < k + n then .trap .illegalOperand 0
  else if x.g.shadow == .shadow then done s
  else if tileBusy s x.core k n then .waitGroup s
  else done (modCore s x.core fun q => ((List.range (16 * n)).map fun j => 16 * k + j).foldl (fun q key => accPut q key 0 0) q)

/-- ZCLR (R228). -/
def execZclr (c : Enc) (s : State) : Out := issue (.zclr c) c (fun x _ s => zclrBody c x s) s

/-- An accumulator row as it moves into a register pair: columns `l` and `l + 64` (R229). -/
def rowPair (k : Core) (key : Nat) : Row64 :=
  rowOf fun l => BitVec.ofNat 64 (accElem k key l + 2 ^ 32 * accElem k key (l + 64))

/-- ZMOV's own part (R229). -/
def zmovBody (c : Enc) (x : Ctx) (s : State) : Res :=
  let z := tileNum c.y
  if tileBusy s x.core z 1 then .waitGroup s else
  let key := z * 16 + c.imm.toNat % 16
  let r := rowPair (getCore s x.core) key
  let s1 := writeDst x c.x true c.nw r s
  .fin (if mapGet 0 (getCore s x.core).apoison key != 0 then consume s1 x.core x.slot 4 else s1) r

/-- ZMOV (R229). -/
def execZmov (c : Enc) (s : State) : Out := issue (.zmov c) c (fun x _ s => zmovBody c x s) s

/-- The offset of an element of a tile transfer from its base (R230). -/
def tileOffset (t : Bool) (w pitch i n : Nat) : Nat := if t then pitch * n + w * i else pitch * i + w * n

/-- Whether a pitch is illegal (R230). -/
def pitchBad (t : Bool) (w rows pitch : Nat) : Bool := pitch % w != 0 || decide (pitch < (if t then rows * w else 128 * w))

/-- The elements of a transfer, ascending row and then column, numbered 128 per row. -/
def tileElems (rows : Nat) : List Nat := List.range (128 * rows)

/-- An accumulator element as it is stored (R230): f32 as it stands. -/
def tileStored (rm : Rm) (ns : Bool) (t : Ty) (v : Nat) : Nat :=
  if t = .f32 then v else convNum (fmtOf t) rm ns false (valNum fmtF32 v)

/-- Element `j` of the rows that a transfer moves. -/
def pairElem (l : List Row64) (j : Nat) : Nat :=
  match l[j / 128]? with
  | some r => (lane64 r (j % 64)).toNat / 2 ^ (32 * (j / 64 % 2)) % 2 ^ 32
  | none => 0

/-- The local addresses of a transfer (R230). -/
def tileLocal (t : Bool) (w pitch rows : Nat) (base : DWord) : List (Nat × Nat) :=
  (tileElems rows).map fun j => (j, (base.toNat + tileOffset t w pitch (j / 128) (j % 128)) % 2 ^ 32)

/-- The global addresses of a transfer (R230). -/
def tileGlobal (t : Bool) (w pitch rows : Nat) (base : DWord) : List (Nat × DWord) :=
  (tileElems rows).map fun j => (j, base + BitVec.ofNat 64 (tileOffset t w pitch (j / 128) (j % 128)))

/-- The rows of a stored tile, from the accumulators or, for a shadow, from its queue; with what is left of the queue (R225). -/
def tileRows (s : State) (x : Ctx) (z rows : Nat) : Option (List Row64 × List LvEnt) :=
  if x.g.shadow == .shadow then takeRows rows x.g.lvq
  else some ((List.range rows).map fun i => rowPair (getCore s x.core) (z * 16 + i), [])
where
  /-- Rows taken from a shadow's queue. -/
  takeRows : Nat → List LvEnt → Option (List Row64 × List LvEnt)
    | 0, q => some ([], q)
    | n + 1, q =>
      match lvTake (instrIx x.e) x.act q with
      | none => none
      | some (e, t) => (takeRows n t).map fun p => (e.val :: p.1, p.2)

/-- What a leader leaves its shadow of a stored tile, or a shadow takes (R225); a poisoned element is a consumption (R213). -/
def tileTaken (x : Ctx) (z rows : Nat) (l : List Row64) (left : List LvEnt) (s : State) : State :=
  if x.g.shadow == .shadow then modGroup s x.core x.slot fun g => { g with lvq := left } else
  let s1 := if x.g.shadow == .leader then
      l.foldl (fun s r => lvPush s x.core x.slot .leader { ix := instrIx x.e, act := x.act, val := r }) s else s
  if (List.range rows).any fun i => mapGet 0 (getCore s x.core).apoison (z * 16 + i) != 0 then consume s1 x.core x.slot 4 else s1

/-- ZST's own part (R230). -/
def zstBody (c : Enc) (t loc : Bool) (rm : Rm) (ns : Bool) (ty : Ty) (x : Ctx) (v : Srcs) (s : State) : Res :=
  let w := accWidth ty
  let rows := c.imm.toNat % 16 + 1
  let z := tileNum c.x
  let pitch := (loWord (lane64 v.z 0)).toNat
  let val := fun (l : List Row64) (j : Nat) => BitVec.ofNat 64 (tileStored rm ns ty (pairElem l j))
  if pitchBad t w rows pitch then .trap .illegalOperand 0
  else if loc then
    let l := tileLocal t w pitch rows (lane64 v.y 0)
    match firstBad (getCore s x.core) w l with
    | some a => .trap .protection (localFaddr a)
    | none =>
      match touch s x.core (tagOf x) (l.map fun p => (p.2, w)) with
      | some s1 => .waitGroup s1
      | none =>
        if x.g.shadow != .shadow && tileBusy s x.core z 1 then .waitGroup s else
        match tileRows s x z rows with
        | none => .waitGroup s
        | some (d, left) =>
          let s1 := tileTaken x z rows d left s
          done (if x.g.shadow == .shadow then s1 else localPut s1 x.core (l.flatMap fun p => bytesAt p.2 w (val d p.1).toNat))
  else
    match transLanes s x.core x.slot x.g.part x.e.mask w .write (tileGlobal t w pitch rows (lane64 v.y 0)) with
    | .trap f va => .trap f va
    | .wait s1 => .wait s1
    | .ok accs s1 =>
      if x.g.shadow != .shadow && tileBusy s1 x.core z 1 then .waitGroup s1
      else if !bufRoom s1 x (linesOf accs).length then .waitGroup s1
      else match tileRows s1 x z rows with
        | none => .waitGroup s1
        | some (d, left) => done (emit x (storeEntries x false w (val d) accs) (tileTaken x z rows d left s1))

/-- ZST (R230). -/
def execZst (c : Enc) (t loc : Bool) (rm : Rm) (ns : Bool) (ty : Ty) (s : State) : Out :=
  issue (.zst c t loc rm ns ty) c (zstBody c t loc rm ns ty) s

/-- What the core's store buffer supplies for a byte of a loaded tile: never the L1 (R230). -/
def tileFound (s : State) (x : Ctx) (w : Nat) (a : LaneAcc) : List Found := (List.range w).map fun j => bufByte s x.core x.g.blk (a.pa + j)

/-- One row of a loaded tile: what the buffer supplies is written, the rest awaited (R230). -/
def loadRow (x : Ctx) (ty : Ty) (z : Nat) (s : State) (p : Nat × List LaneAcc) : State :=
  let w := accWidth ty
  let vals : List (LaneAcc × Option Nat) := p.2.map fun a => (a, foundValue (tileFound s x w a))
  let got := vals.filterMap fun q => q.2.map fun n => (q.1.lane, BitVec.ofNat 64 n)
  let miss : List LaneAcc := (vals.filter fun q => q.2.isNone).map (·.1)
  if miss.isEmpty then modCore s x.core (tileLoad (z * 16 + p.1) ty got) else
  let q := freshReq s
  sendReads x q.1 miss (addPend q.2 x.core x.slot { id := q.1, kind := .tile z p.1, mask := x.e.mask, ty := ty, nw := true, act := x.act,
                                                    lanes := miss, got := got, tag := tagOf x })

/-- ZLD's own part (R230); a shadow leaves the accumulators to its leader. -/
def zldBody (c : Enc) (t loc : Bool) (ty : Ty) (x : Ctx) (v : Srcs) (s : State) : Res :=
  let w := accWidth ty
  let rows := c.imm.toNat % 16 + 1
  let z := tileNum c.x
  let pitch := (loWord (lane64 v.z 0)).toNat
  if pitchBad t w rows pitch then .trap .illegalOperand 0
  else if x.g.shadow == .shadow then done s
  else if loc then
    let l := tileLocal t w pitch rows (lane64 v.y 0)
    let k := getCore s x.core
    match firstBad k w l with
    | some a => .trap .protection (localFaddr a)
    | none =>
      match touch s x.core (tagOf x) (l.map fun p => (p.2, w)) with
      | some s1 => .waitGroup s1
      | none =>
        if tileBusy s x.core z 1 then .waitGroup s else
        done (modCore s x.core fun q => (List.range rows).foldl (fun q i =>
          tileLoad (z * 16 + i) ty (((l.drop (128 * i)).take 128).map fun p =>
            (p.1 % 128, BitVec.ofNat 64 (lread k p.2 w + if lpoisoned k p.2 w then 2 ^ 63 else 0))) q) q)
  else
    match transLanes s x.core x.slot x.g.part x.e.mask w .read (tileGlobal t w pitch rows (lane64 v.y 0)) with
    | .trap f va => .trap f va
    | .wait s1 => .wait s1
    | .ok accs s1 =>
      if tileBusy s1 x.core z 1 then .waitGroup s1
      else if accs.any fun a =>
          let f := tileFound s1 x w a
          f.any (fun b => b == .hold) || ((foundValue f).isNone && f.any fun b => b != .none) then .waitGroup s1
      else done ((List.range rows).foldl (fun s i =>
        loadRow x ty z s (i, ((accs.drop (128 * i)).take 128).map fun a => { a with lane := a.lane % 128 })) s1)

/-- ZLD (R230). -/
def execZld (c : Enc) (t loc : Bool) (ty : Ty) (s : State) : Out := issue (.zld c t loc ty) c (zldBody c t loc ty) s

/-! ## MSTAT and MWAIT -/

/-- MSTAT's status word (R231). -/
def mstatWord (s : State) (core : Nat) : Nat :=
  let t := (getCluster s (clusterOf core)).table
  recordOf [(0, t.length), (5, coreEntriesOf t core), (10, (t.any fun r => r.st == .leave && !r.granted).toNat),
    (11, (t.any fun r => r.st != .queued).toNat), (12, match (getCore s core).declared with | some f => wfCode f | none => 0),
    (14, (getCore s core).declared.isSome.toNat)]

/-- MSTAT's own part (R231). -/
def mstatBody (c : Enc) (x : Ctx) (s : State) : Res :=
  let sel := c.imm.toNat % 4
  if sel = 3 then .trap .illegalOperand 0 else
  let v := if sel = 1 then x.g.tck.toNat else if sel = 2 then x.g.cmp.toNat else mstatWord s x.core
  compute x c false (fun _ => BitVec.ofNat 64 v) s

/-- MSTAT (R231). -/
def execMstat (c : Enc) (s : State) : Out := issue (.mstat c) c (fun x _ s => mstatBody c x s) s

/-- Whether a ticket has completed (R232). -/
def ticketDone (t cmp tck : Word) : Bool := if t = 0 then cmp == tck else decide ((cmp - t).toNat < 2 ^ 31)

/-- MWAIT's own part (R232). -/
def mwaitBody (x : Ctx) (v : Srcs) (s : State) : Res :=
  if x.act = 0 then done s
  else if ticketDone (loWord (lane64 v.y 0)) x.g.cmp x.g.tck then done (acquire s x.core .cluster)
  else .waitGroup s

/-- MWAIT (R232). -/
def execMwait (c : Enc) (s : State) : Out := issue (.mwait c) c (mwaitBody) s

end Sys2Proof.Machine
end

