-- ==== Sys2Proof/Machine/Contain.lean ====
section
/-! DEFINITION. Containment of a block that has consumed an uncorrectable error (spec/20 R327 to R331), and RDCLK (spec/19 R311). -/
namespace Sys2Proof.Machine

/-! ## RDCLK (R311) -/

/-- RDCLK's own part: the cycles that the core's counter has run since module reset; how many pass unseen before the read is open (log 4,
log 9). -/
def rdclkBody (c : Enc) (x : Ctx) (s : State) : Res :=
  if x.act = 0 then done s else
  let n := (getCore s x.core).cyc + Config.freeCycles s.free
  let s1 := modCore { s with free := s.free + 1 } x.core (passCycles (Config.freeCycles s.free))
  compute x c true (fun _ => BitVec.ofNat 64 n) s1

/-- RDCLK (R311). -/
def execRdclk (c : Enc) (s : State) : Out := issue (.rdclk c) c (fun x _ s => rdclkBody c x s) s

/-! ## Parts of a containment (R329) -/

/-- Whether a group is one of a block. -/
def ofBlock (part : Nat) (addr : DWord) (blk : Nat) (g : Group) : Bool := g.part == part && g.node == addr && g.blk == blk

/-- The resident groups of a block, with their places; shadows with their leaders. -/
def blockGroups (s : State) (part : Nat) (addr : DWord) (blk : Nat) : List (Nat × Nat × Group) :=
  s.cores.flatMap fun k => (k.2.slots.filter fun p => ofBlock part addr blk p.2).map fun p => (k.1, p.1, p.2)

/-- Whether an entry is a LOCK or PWAIT, whose wait a vacate or a kill withdraws (R191, R194). -/
def isWaitOp (e : SbEntry) : Bool :=
  match e.op with
  | .hold .lock _ | .hold .pwait _ => true
  | _ => false

/-- A block's unchecked entries dropped, with its LOCKs and PWAITs, whose waits are withdrawn; its checked ones drain (R191, R329 step 2). -/
def dropUnchecked (s : State) (part : Nat) (addr : DWord) (blk : Nat) : State :=
  { s with cores := s.cores.map fun k => (k.1, { k.2 with bufs := (k.2.bufs.map fun b =>
      if b.part == part && b.node == addr && b.blk == blk then { b with ents := b.ents.filter fun e => checked s e && !isWaitOp e } else b).filter fun b => !b.ents.isEmpty }) }

/-- The declared format of a core once requests have been withdrawn (R209): that of the last MLDW that is left in its queue, else its plane's, none while
the plane is empty. R222 does not say what it is over a plane that stays loaded with another format than the withdrawn one's (DESIGN CHOICE, log 78). -/
def declaredOn (s : State) (core : Nat) : Option WFmt :=
  let c := getCluster s (clusterOf core)
  match (c.table.filter fun r => r.core == core && !r.pass && !r.killed).getLast? with
  | some r => some r.wf
  | none => (mapGet {} c.planes core).fmt

/-- A block's matrix requests withdrawn and discarded, or left to run without results (R222). -/
def dropRequests (s : State) (part : Nat) (addr : DWord) (blk : Nat) : State :=
  let mine := fun (r : MReq) => r.part == part && r.node == addr && r.blk == blk
  let s1 := { s with clusters := s.clusters.map fun k => (k.1, { k.2 with
      table := (k.2.table.filter fun r => !(mine r && (r.st == .queued || r.st == .fetching))).map fun r =>
        if mine r then { r with killed := true } else r }) }
  let hit := ((s.clusters.flatMap fun k => k.2.table.filter fun r => mine r && !r.pass).map (·.core)).dedup
  post (hit.foldl (fun t c => modCore t c fun k => { k with declared := declaredOn t c }) s1)
    ((s.clusters.filter fun k => k.2.table.any mine).flatMap fun k => engineEvents k.1)

/-- A block's groups taken from their slots and from saved images, and from what waits on their behalf (R329 steps 1 and 3). -/
def dropGroups (s : State) (part : Nat) (addr : DWord) (blk : Nat) : State :=
  let places := (blockGroups s part addr blk).map fun p => (p.1, p.2.1)
  let s0 := (s.clusters.map (·.1)).foldl (fun s cl => withdrawQueued s cl fun e => isWaitOp e && e.part == part && e.node == addr && e.blk == blk) s
  let s1 := { s0 with
    cores := s0.cores.map fun k => (k.1, { k.2 with slots := k.2.slots.filter fun p => !ofBlock part addr blk p.2 }),
    dies := s0.dies.map fun d => (d.1, { d.2 with walks := d.2.walks.map fun w =>
      { w with waiters := w.waiters.filter fun q => !places.contains (q.core, q.slot) } }) }
  modPart s1 part fun p =>
    { p with holdq := p.holdq.filter (fun w => !(w.node == addr && w.blk == blk)),
             images := p.images.map fun i => { i with
               reqs := i.reqs.filter fun r => !(r.part == part && r.node == addr && r.blk == blk)
               img := { i.img with
               slots := i.img.slots.filter (fun q => !ofBlock part addr blk q.2),
               bufs := i.img.bufs.filter fun b => !(b.part == part && b.node == addr && b.blk == blk) } } }

/-- The estate walks of a contained block's groups (R191); the fault of one that is not resident shows its last slot (R192, R317). -/
def walkBlock (s : State) (part : Nat) (n : Node) (blk core : Nat) (relaunch : Bool) (l : List (Nat × Nat × Group)) : State :=
  if n.la.estn = 0 then s else
  let gs := (List.range (groupsPerBlock n.la)).map fun grp =>
    match l.find? fun p => p.2.2.grp == grp && p.2.2.shadow != .shadow with
    | some p => (grp, gslotOf p.1 p.2.1, true)
    | none => match n.placed.find? fun (p : Placed) => p.blk == blk && p.grp == grp with
      | some p => (grp, gslotOf p.core p.slot, false)
      | none => (grp, mapGet 0 n.lastSlots (blk * groupsPerBlock n.la + grp), false)
  let d := dieOf core
  let ws : List EWalk := gs.map fun g =>
    { part := part, node := n.addr, blk := blk, grp := g.1, gslot := g.2.1, killed := true, relaunch := relaunch, holds := g.2.2 }
  post (modDie (modNode s part n.addr fun m => { m with walksLeft := m.walksLeft + gs.length }) d fun k =>
      { k with estq := k.estq ++ ws }) [.estateWalk d]

/-- The swaps of a block's tiles given up (R285, R329). -/
def dropSwaps (s : State) (part : Nat) (n : Node) (blk : Nat) : State :=
  let s1 := { s with dies := s.dies.map fun d => (d.1, { d.2 with swapq := d.2.swapq.filter fun w =>
    !(w.part == part && w.node == n.addr && w.tile / groupsPerBlock n.la == blk) }) }
  post s1 (s1.dies.flatMap fun d => (d.2.swapq.head?.map swapEvent).toList)

/-- Whether a block that consumes is relaunched (R328): its own flag is clear, and no tile of a lattice has published. -/
def mayRelaunch (n : Node) (blk : Nat) : Bool :=
  n.la.rela && decide (mapGet 0 n.relaunched blk < 3) && !n.released.contains blk && !n.published

/-- A block set to be placed again in its entry state (R329). -/
def relaunchBlock (s : State) (part : Nat) (addr : DWord) (blk cl : Nat) : State :=
  modNode s part addr fun n =>
    let tiles := (List.range (groupsPerBlock n.la)).map fun g => blk * groupsPerBlock n.la + g
    { n with placed := n.placed.filter (fun p => p.blk != blk), relaunched := mapSet 0 n.relaunched blk (mapGet 0 n.relaunched blk + 1),
             badClusters := n.badClusters ++ [(blk, cl)], ords := n.ords.filter fun o => o.1 / 32 != blk,
             tiles := if n.la.dims = 0 then n.tiles else tiles.foldl (fun m t => mapSet .fresh m t .fresh) n.tiles,
             tileImgs := n.tileImgs.filter fun p => !tiles.contains (p.1 % 2 ^ 32) }

/-- The tiles of a relaunched block of an overcast lattice are fresh again in their records (R283, R329). -/
def freshHeads (s : State) (part : Nat) (n : Node) (blk : Nat) : State :=
  if n.la.dims = 0 || !overcast n then s else
  ((List.range (groupsPerBlock n.la)).map fun g => blk * groupsPerBlock n.la + g).foldl (fun s t => tryWrite s part (recordAt n.la t) 128 freshHeader) s

/-- A tile of a killed block leaves as exited: as it stood on its core, in its record, or as it would have begun (R330). -/
def killTile (part : Nat) (addr : DWord) (l : List (Nat × Nat × Group)) (s : State) (t : Nat) : State :=
  match findNode s part addr with
  | none => s
  | some n =>
    let g := groupsPerBlock n.la
    match l.find? fun p => tileOf n.la p.2.2 == t && p.2.2.shadow != .shadow with
    | some p => latticeExit p.2.2 n s
    | none => match assoc n.tileImgs t with
      | some i => latticeExit i n s
      | none => latticeExit (entryGroup part n (t / g) (t % g) .none 0) n s

/-- A block killed (R330): its members of barriers count as exited and its tiles are marked exited. -/
def killBlock (s : State) (part : Nat) (n : Node) (blk : Nat) (l : List (Nat × Nat × Group)) : State :=
  let s1 := modNode s part n.addr fun m =>
    settleBars { m with killedBlks := if m.killedBlks.contains blk then m.killedBlks else m.killedBlks ++ [blk], cause := 0x20,
                        placed := m.placed.map fun p => if p.blk == blk then { p with killed := true } else p }
  if n.la.dims = 0 then s1 else
  ((List.range (groupsPerBlock n.la)).map fun g => blk * groupsPerBlock n.la + g).foldl (killTile part n.addr l) s1

/-- The reports of a containment (R331). -/
def reportContainment (s : State) (part : Nat) (addr : DWord) (blk core gslot src pa : Nat) (relaunch : Bool) : State :=
  logError (journal s part 0x80 0 (if relaunch then 1 else 2) 0 addr (BitVec.ofNat 64 (blk % 2 ^ 32 + gslot * 2 ^ 32))) (dieOf core)
    (ueReport (dieOf core) src (if relaunch then 1 else 2) blk gslot pa)

/-- CONTAINMENT of a block (R328 to R331): nothing of it issues any more, what was unchecked is dropped, its waits and requests are withdrawn,
its holdings are conveyed, and it is relaunched or killed. -/
def containBlock (s : State) (part : Nat) (n : Node) (blk core gslot src pa : Nat) : State :=
  let l := blockGroups s part n.addr blk
  let again := mayRelaunch n blk
  let s1 := dropSwaps (dropGroups (dropRequests (dropUnchecked s part n.addr blk) part n.addr blk) part n.addr blk) part n blk
  let s2 := modNode s1 part n.addr fun m =>
    (List.range (groupsPerBlock n.la)).foldl (fun m g => { unarrive blk g m with granted := m.granted.filter (· != (blk, g)) }) m
  let s3 := if again then freshHeads (relaunchBlock s2 part n.addr blk (clusterOf core)) part n blk else killBlock s2 part n blk l
  let s4 := walkBlock (reportContainment s3 part n.addr blk core gslot src pa again) part n blk core again l
  post s4 ([.nodeDone part n.addr.toNat] ++ ((diesOf (getPart s4 part).lay).map fun d => .blockPlacement part d) ++
    (if n.la.dims = 0 then [] else [.updraft part n.addr.toNat]) ++ (s4.cores.filter fun k => k.2.part == part).map fun k => .storeBufferRelease k.1 blk)

/-- The consumptions of a core's partitions that wait for their containment, with the partition. -/
def dueConsumed (s : State) (core : Nat) : Option (Nat × Consumed) :=
  s.parts.findSome? fun p => (p.2.consumed.find? fun c => c.core == core).map fun c => (p.1, c)

/-- A block of which no group is resident contained, unless it has been killed before (R327, R329). -/
def containDue (s : State) (part : Nat) (c : Consumed) : State :=
  let s1 := modPart s part fun p => { p with consumed := p.consumed.erase c }
  match findNode s1 part c.node with
  | none => s1
  | some n => if n.killedBlks.contains c.blk then s1 else containBlock s1 part n c.blk c.core (gslotOf c.core c.slot) c.src c.pa

/-- A consumption charged to the group of a slot, or to a block without a resident group, is contained (R327, R329). -/
def execContainment (core slot src pa : Nat) (s : State) : Out :=
  match getGroup s core slot with
  | none => .next (match (if slot = fillWaiter then dueConsumed s core else none) with | some q => containDue s q.1 q.2 | none => s)
  | some g =>
    match findNode s g.part g.node with
    | none => .next s
    | some n => .next (containBlock s g.part n g.blk core (gslotFor g core slot) src pa)

end Sys2Proof.Machine
end

