-- ==== Sys2Proof/Machine/Save.lean ====
section
/-! DEFINITION. Core images (spec/19 R304 to R307, spec/13 R222, R223, spec/20 R333): how a core is vacated into the save pool and how an
image is restored; and the die dispatchers' placing, which restores before it places (spec/16 R278, spec/19 R307). -/
namespace Sys2Proof.Machine

/-! ## The save pool (R306) -/

/-- The bytes of a slot of the save pool (R306). -/
def slotBytes : Nat := 3407872

/-- The address of a slot of the save pool in force (R294, R306). -/
def slotVa (p : Part) (i : Nat) : DWord := p.saveBase + BitVec.ofNat 64 (slotBytes * i)

/-- The lowest free slot of the save pool. -/
def freeSaveSlot (p : Part) : Option Nat := (List.range p.psavesz.toNat).find? fun i => !p.images.any fun m => m.slot == i

/-- The free slots of the save pool. -/
def freeSaveCount (p : Part) : Nat := p.psavesz.toNat - p.images.length

/-- The slots of a lattice node that stand on a core. -/
def grantsOn (n : Node) (core : Nat) : List Nat := n.slots.filter fun g => g / 64 == core

/-- Whether a core of a partition holds groups or a carve (R304). -/
def occupied (s : State) (part core : Nat) : Bool :=
  let k := getCore s core
  k.part == part && (!k.slots.isEmpty || k.node.isSome) || (getPart s part).nodes.any fun n => !(grantsOn n core).isEmpty

/-! ## Vacating (R305) -/

/-- What the groups of a core wait for elsewhere withdrawn: barrier arrivals, LOCK and PWAIT waits, walks (R305 step 3). -/
def withdraw (s : State) (part core : Nat) : State :=
  let gs := (getCore s core).slots.map (·.2)
  let s1 := gs.foldl (fun s g => modNode s part g.node (unarrive g.blk g.grp)) s
  let s2 := modPart s1 part fun p => { p with holdq := p.holdq.filter fun w => w.core != core }
  modDie s2 (dieOf core) fun d => { d with walks := d.walks.map fun w => { w with waiters := w.waiters.filter fun q => q.core != core || (decide (fillWaiter ≤ q.slot) && q.slot != fetchWaiter) } }

/-- The buffers of a core without the LOCKs and PWAITs that still stand in them. -/
def dropWaitOps (k : Core) : Core :=
  let l := k.bufs.map fun b => { b with ents := b.ents.filter fun e => !isWaitOp e }
  { k with bufs := l.filter fun b => !b.ents.isEmpty }

/-- A core's LOCKs and PWAITs that have not reached their units withdrawn, from its buffers and from its cluster's write queue (R194). -/
def dropWaits (s : State) (core : Nat) : State :=
  withdrawQueued (modCore s core dropWaitOps) (clusterOf core) fun e => isWaitOp e && e.core == core

/-- A BAR whose meeting has completed retires before its group is saved or rolled back (R185): its entry passes it, with the acquire. -/
def retireBar (core : Nat) (s : State) (p : Nat × Group) : State :=
  match findNode s p.2.part p.2.node, p.2.front with
  | some n, [e] =>
    if p.2.shadow == .shadow || !n.granted.contains (p.2.blk, p.2.grp) then s else
    let sc := match peekInstr s n.la p.2.part e with | some (.bar _ l) => levelScope n.la l.val | _ => .system
    let s1 := modNode s p.2.part p.2.node fun m => { m with granted := m.granted.erase (p.2.blk, p.2.grp) }
    wake (acquire s1 core sc) core p.1 e.mask n true zeroRow
  | _, _ => s

/-- The BARs of a core that have completed retired, and its other waits withdrawn (R185, R194). -/
def endWaits (s : State) (part core : Nat) : State :=
  let s1 := (getCore s core).slots.foldl (retireBar core) s
  withdraw (dropWaits s1 core) part core

/-- A core named to be vacated begins (R305 steps 1 to 3): nothing is placed on it, its groups issue nothing, their waits are withdrawn. -/
def beginVacate (part : Nat) (s : State) (core : Nat) : State :=
  let s1 := endWaits (modCore s core fun k => { k with part := part, vacating := true }) part core
  post s1 (nakKicks s1 core)

/-- Whether the squall line has reached every unit of a partition: a window fills no further, and a swap stays where it stands (R155, R285, R339). -/
def unitsStopped (s : State) (part : Nat) : Bool := (getPart s part).squall && (getPart s part).unitsLeft.isEmpty

/-- Whether a core that is being vacated has drained (R305 steps 2 and 6): no window fills and no swap of a tile is in progress on it, unless a halt
has stopped both, no refusal is on its way, no load or operation with a reply is out, no checked entry could leave its buffers, and no shadow can make
a comparison (R128). -/
def drainedCore (s : State) (core : Nat) : Bool :=
  let k := getCore s core
  (unitsStopped s k.part || (k.fillq.isEmpty && !(getDie s (dieOf core)).swapq.any fun w => w.gslot / 64 == core)) && (refusalsOf s core).isEmpty && !repliesOut s core && !shadowsBehind s core &&
  k.bufs.all fun b => match b.ents with
    | e :: _ => !checked s e || (sendEntry s e).isNone
    | [] => true

/-- Whether a leader of a core still has an operation that its shadow has not compared. -/
def pairsUneven (s : State) (core : Nat) : Bool := (getCore s core).slots.any fun p => p.2.shadow == .leader && uncompared s core p.1

/-- The pairs of a core brought into step before they leave their slots (R128, log 16). -/
def levelPairs (s : State) (core : Nat) : State := (getCore s core).slots.foldl (fun s p => settlePair s core p.1) s

/-- The groups of lattice tiles on a core, shadows left out, with their tiles. -/
def tilesOn (s : State) (part core : Nat) : List (Nat × Nat × Group) :=
  (getCore s core).slots.filterMap fun p =>
    match findNode s part p.2.node with
    | some n => if n.la.dims != 0 && p.2.shadow != .shadow then some (tileOf n.la p.2, p.1, p.2) else none
    | none => none

/-- Whether a core may be saved now: its die has power (R34). A tile whose record faulted keeps it waiting until the halt that it raised is over (R285). -/
def mayVacate (s : State) (part core : Nat) : Bool :=
  (getCore s core).vacating && powered s core && occupied s part core && drainedCore s core && (freeSaveSlot (getPart s part)).isSome && !((tilesOn s part core).any fun t => t.2.2.raised)

/-- A vacated core's lattice tiles go to their records (R305 step 5, R284). -/
def tilesAway (s : State) (part core : Nat) : State :=
  (tilesOn s part core).foldl (fun s t =>
    match findNode s part t.2.2.node with
    | some n => match tilePlaced n t.1 with
      | some p => downTile s part n.addr t.1 p t.2.2
      | none => s
    | none => s) s

/-- A swap that a halt has stopped on a core that is vacated: an updraft is given up, a downdraft is made at once with the other tiles of the core, and
an exited tile's record is written at once, or, where that faults, its swap begins again at the resume (R285, R289, R305, R339). -/
def endSwap (part : Nat) (s : State) (w : Swap) : State :=
  let core := w.gslot / 64
  let slot := w.gslot % 64
  match findNode s part w.node, getGroup s core slot with
  | some n, some g =>
    if w.op = 3 then
      (if overcast n && (exitRecord g n s).isNone then
        modGroup (latticeFault (modDie s (dieOf core) fun d => { d with swapq := d.swapq ++ [{ w with line := 0 }] }) part n.addr
          { tile := w.tile, op := 1, code := 2, gslot := w.gslot, faddr := recordAt n.la w.tile }) core slot fun g => { g with raised := true }
       else freeSlot (latticeExit g n s) core slot g true)
    else if w.op = 2 then s
    else
      let stay := fun (t : State) (x : Nat) => modGroup t core x fun h => if h.part == part && h.node == w.node then { h with away := false } else h
      modNode (stay (stay s slot) (slot + 1)) part w.node fun m => { m with tiles := mapSet .fresh m.tiles w.tile .resident }
  | some n, none => modNode s part w.node fun m =>
      { m with tiles := mapSet .fresh m.tiles w.tile (if w.op = 2 then (if (assoc n.tileImgs w.tile).isSome then .out else .fresh) else mapGet .fresh m.tiles w.tile) }
  | none, _ => s

/-- The swaps that stand on a core ended. -/
def endSwaps (s : State) (part core : Nat) : State :=
  let d := dieOf core
  let mine := fun (w : Swap) => w.gslot / 64 == core && w.part == part
  let l := (getDie s d).swapq.filter mine
  if l.isEmpty then s else
  let s1 := l.foldl (endSwap part) (modDie s d fun k => { k with swapq := k.swapq.filter fun w => !mine w })
  post s1 (((getDie s1 d).swapq.head?.map swapEvent).toList)

/-- A matrix request as its image holds it (R222, R223): withdrawn if it was not in the array, and to be re-posted. -/
def reqSaved (r : MReq) : MReq :=
  { r with st := .queued, granted := false, passed := 0, promoted := none,
           ready := r.ready || (r.pass && (r.st == .leave || r.st == .streaming || r.st == .draining)) }

/-- The requests of a core taken out of its cluster's table, with the leave they hold or ask for (R222, R336). -/
def takeRequests (s : State) (core : Nat) : List MReq × State :=
  let cl := clusterOf core
  let mine := (getCluster s cl).table.filter fun r => r.core == core
  let asks := mine.any fun r => r.st == .leave && !r.granted
  let s1 := modCluster s cl fun k => { k with table := k.table.filter fun r => r.core != core }
  let s2 := if asks then modDie s1 (dieOf core) fun d => { d with leaveq := d.leaveq.erase (0, cl) } else s1
  let s3 := (mine.filter fun r => r.granted).foldl (fun s _ => giveLeave s (dieOf core) true) s2
  ((mine.filter fun r => !r.killed).map reqSaved, post s3 (engineEvents cl))

/-- The header of a core image (R306). -/
def imageHeader (s : State) (part core : Nat) (lat : Bool) : Nat :=
  let k := getCore s core
  let n := (k.slots.filter fun p => p.2.part == part).length
  recordOf [(0, 0x0E), (16, 1), (32, core), (48, n), (55, lat.toNat), (64, (k.node.getD 0).toNat), (128, k.wdc)]

/-- The header of a matrix save image (R222). -/
def matrixHeader (p : Plane) : Nat :=
  recordOf [(0, 0x0D), (16, 1), (32, match p.fmt with | some f => wfCode f | none => 0), (34, p.fmt.isSome.toNat), (35, p.poison.toNat)]

/-- Where the matrix save image stands in a slot of the save pool: in its last 256 KiB, the model's choice, since R306 makes what follows the header
opaque (log 32). -/
def matrixVa (base : DWord) : DWord := base + BitVec.ofNat 64 (slotBytes - 262144)

/-- The groups of a core recorded at their region entries (R305 step 6), each with the TCK of its region entry (R236, log 71): a request that has been taken
back into an image keeps its ticket (R223), and the instruction that posted it, replayed, takes the same one. -/
def rolledSlots (s : State) (k : Core) : List (Nat × Group) :=
  k.slots.map fun p => (p.1, { rollAll (coreBtab s k) p.2 with nbHold := none, stall := 0, sleep := 0, yld := false })

/-- The slot of a save pool written: a save rewrites every line of its slot, so that poison which stood there before is gone (R333). -/
def slotWritten (s : State) (part : Nat) (base : DWord) : State :=
  if s.poison.isEmpty then s else
  { s with poison := s.poison.filter fun l => !((List.range 53).any fun k =>
      let page := base.toNat / 65536 * 65536 + 65536 * k
      match engTrans s part (BitVec.ofNat 64 page) .write with
      | .ok pa _ => decide (pa ≤ 128 * l.1) && decide (128 * l.1 < pa + 65536) && decide (base.toNat ≤ page + (128 * l.1 - pa)) &&
          decide (page + (128 * l.1 - pa) < base.toNat + slotBytes)
      | _ => false) }

/-- A drained core written to a slot of the save pool and emptied (R305 steps 4 to 7, R306): what an image holds beyond its header is
opaque. -/
def saveCore (s : State) (part core : Nat) : State :=
  let s0 := tilesAway (endSwaps (levelPairs s core) part core) part core
  if (tilesOn s0 part core).any fun t => t.2.2.raised then s0 else
  match freeSaveSlot (getPart s0 part) with
  | none => s0
  | some slot =>
    let k := getCore s0 core
    let lats := (getPart s0 part).nodes.filter fun n => !(grantsOn n core).isEmpty
    let base := slotVa (getPart s0 part) slot
    let s1 := tryWrite (slotWritten s0 part base) part base 64 (imageHeader s0 part core !lats.isEmpty)
    let q := takeRequests s1 core
    let cl := clusterOf core
    let plane := mapGet {} (getCluster q.2 cl).planes core
    let q := (q.1, tryWrite q.2 part (matrixVa base) 64 (matrixHeader plane))
    let im : Image := { slot := slot, base := base, core := core, plane := plane, reqs := q.1, emptied := assoc (getCluster q.2 cl).emptied core,
                        img := { k with slots := rolledSlots s0 k, l1 := [], tlb := [], mirrors := [], inbound := [], stopped := false,
                                        node := if k.node.isSome then k.node else lats.head?.map (·.addr) },
                        grants := lats.flatMap fun n => grantsOn n core }
    let s2 := modCluster q.2 cl fun c => { c with planes := mapSet {} c.planes core {}, emptied := c.emptied.filter fun p => p.1 != core }
    let s3 := setCore s2 core { part := part, cyc := k.cyc, age := k.age, wdcs := k.wdcs, vacating := true }
    modPart s3 part fun p =>
      { p with images := p.images ++ [im],
               nodes := p.nodes.map fun n =>
                 { n with slots := n.slots.filter (fun g => g / 64 != core), nextBlk := n.nextBlk - (grantsOn n core).length,
                          placed := n.placed.map fun q =>
                            if q.core == core && !q.exited && !q.killed && !q.saved then { q with saved := true, was := q.was ++ [core] } else q } }

/-! ## Restoring (R307, R333) -/

/-- Whether a word of an image reads back uncorrectable (R333). -/
def imagePoisoned (s : State) (part : Nat) (base : DWord) : Bool :=
  !s.poison.isEmpty && (List.range 53).any fun k =>
    let page := base.toNat / 65536 * 65536 + 65536 * k
    match engTrans s part (BitVec.ofNat 64 page) .read with
    | .fault _ => false
    | .poisoned => true
    | .ok pa _ => s.poison.any fun l =>
        decide (pa ≤ 128 * l.1) && decide (128 * l.1 < pa + 65536) && decide (base.toNat ≤ page + (128 * l.1 - pa)) &&
        decide (page + (128 * l.1 - pa) < base.toNat + slotBytes)

/-- Whether the cores and the engines accept an image: its MAJORs are theirs (R223, R307). -/
def imageMajorOk (s : State) (part : Nat) (im : Image) : Bool :=
  vaRead s part (im.base + 2) 1 == some 1 && vaRead s part (matrixVa im.base + 2) 1 == some 1

/-- Whether a cluster's reservation table takes the requests of an image beside those of its other cores (R215, R223): the core's own leftover requests,
of groups that have exited (R218), are complete first, since they run over its plane and its tiles. -/
def tableTakes (s : State) (core n : Nat) : Bool :=
  let t := (getCluster s (clusterOf core)).table
  let others := (t.map (·.core)).dedup.filter (· != core)
  coreEntriesOf t core == 0 && decide ((others.map fun c => coreEntriesOf t c - 1).foldl (· + ·) 0 + (n - 1) ≤ 12)

/-- Whether a core can take an image (R307): it is empty, its engine has room for the requests, and it lies in the cluster and the die of the units of DOMAIN cluster and die that
the image held. -/
def fitsImage (s : State) (part : Nat) (im : Image) (core : Nat) : Bool :=
  let k := getCore s core
  let free := k.slots.isEmpty && !k.vacating && !k.stopped && (getDie s (dieOf core)).powered &&
    ((getPart s part).nodes.all fun n => (grantsOn n core).isEmpty) && tableTakes s core im.reqs.length
  match im.img.node.bind fun a => findNode s part a with
  | none => free
  | some n =>
    free && (!(n.la.levels.any fun l => l.domain == 3) || clusterOf core == clusterOf im.core) &&
    (!(n.la.levels.any fun l => l.domain == 4) || dieOf core == dieOf im.core)

/-- The core that takes an image: the one it was saved from, if it fits, else the lowest that fits. -/
def imageTarget (s : State) (part : Nat) (im : Image) (cores : List Nat) : Option Nat :=
  let l := cores.filter (fitsImage s part im)
  if l.contains im.core then some im.core else l.head?

/-- An image given up because a word of it is uncorrectable (R333): every block with a group in it has consumed the error. -/
def abortImage (s : State) (part : Nat) (im : Image) : State :=
  let s1 := modPart s part fun p => { p with images := p.images.filter fun m => m.slot != im.slot }
  let blks := ((im.img.slots.map fun p => (p.2.node, p.2.blk))).dedup
  let s2 := blks.foldl (fun s b => match findNode s part b.1 with | some n => containBlock s part n b.2 im.core 0 9 0 | none => s) s1
  modPart s2 part fun p => { p with nodes := p.nodes.map fun n =>
    if n.la.dims != 0 && n.slots.isEmpty && some n.addr == im.img.node then { n with grantedBlks := [] } else n }

/-- An entry of a buffer as it stands on another core. -/
def movedEntry (core : Nat) (e : SbEntry) : SbEntry := { e with core := core }

/-- A request as it is posted again from another core: its record shows the slot in which its group resumes (R221, R223). -/
def movedReq (core : Nat) (r : MReq) : MReq := { r with core := core, tag := { r.tag with gslot := gslotOf core (r.tag.gslot % 64) } }

/-- The core that an image makes (R307): its groups resume at their region entries. -/
def imageCore (s : State) (k : Core) (part core : Nat) (im : Image) : Core :=
  { im.img with
    part := part, cyc := k.cyc, tlb := k.tlb, wdcs := keptCounts k, vacating := false, stopped := false, fillFault := 0, fillFaddr := 0, fillRow := 0,
    bufs := im.img.bufs.map fun b => { b with ents := b.ents.map (movedEntry core) },
    slots := im.img.slots.map fun p => (p.1, resumeGroup (coreBtab s im.img) p.2) }

/-- A node's records of an image that stands on a new core: its placement table and its slots (R278, R283, R307). -/
def nodeRestored (core : Nat) (im : Image) (n : Node) : Node :=
  let at_ := fun (p : Placed) => im.img.slots.find? fun q => q.2.node == n.addr && q.2.blk == p.blk && q.2.grp == p.grp && q.2.shadow != .shadow
  let gs := if some n.addr == im.img.node then im.grants.map fun g => core * 64 + g % 64 else []
  { n with placed := n.placed.map fun p =>
             if !p.saved then p else match at_ p with | some q => { p with core := core, slot := q.1, saved := false } | none => p,
           slots := sortBy (n.slots ++ gs) (fun a b => decide (a ≤ b)), nextBlk := n.nextBlk + gs.length,
           moved := if some n.addr == im.img.node then
               (im.core, core) :: (n.moved.filter fun m => m.1 != im.core).map (fun m => if m.2 = im.core then (m.1, core) else m)
             else n.moved }

/-- What a restored core goes on with. -/
def restoreKicks (s : State) (part core : Nat) (im : Image) : List Instr :=
  engineEvents (clusterOf core) ++ (getCore s core).bufs.map (fun b => .storeBufferRelease core b.blk) ++
  ((getCore s core).slots.filter fun p => p.2.front.any (·.spilled)).map (fun p => .frontierRefill core p.1) ++
  (if im.img.fillq.isEmpty then [] else [.windowFill core]) ++
  (match im.img.node with | some a => if im.grants.isEmpty then [] else [.updraft part a.toNat] | none => [])

/-- An image restored onto a core, and its slot freed (R307, R223); packets that wait for its groups follow them (R278). -/
def restoreOnto (s : State) (part : Nat) (im : Image) (core : Nat) : State :=
  let cl := clusterOf core
  let k := getCore s core
  let s1 := setCore s core (imageCore s k part core im)
  let s2 := modCluster s1 cl fun c =>
    { c with planes := mapSet {} c.planes core im.plane, table := c.table ++ im.reqs.map (movedReq core),
             emptied := match im.emptied with | some a => (core, a) :: c.emptied | none => c.emptied }
  let s3 := modPart s2 part fun p =>
    { p with images := p.images.filter (fun m => m.slot != im.slot), nodes := p.nodes.map (nodeRestored core im) }
  let moved := fun (p : Packet) => p.part == part && some p.node == im.img.node && p.dst == im.core
  let s4 := { s3 with packets := s3.packets.map fun p => if moved p then { p with dst := core } else p }
  post s4 (restoreKicks s4 part core im ++ (s3.packets.filter moved).map fun p => carryOn s4 { p with dst := core })

/-- The image-version fault, reported to the front end: the image stays saved (R223, R307). -/
def refuseImage (s : State) (part : Nat) (im : Image) : State :=
  modPart s part fun p => { p with images := p.images.map fun m => if m.slot == im.slot then { m with refused := true } else m }

/-- One image: restored onto one of some cores, given up if it is uncorrectable, or left saved. -/
def restoreImage (s : State) (part : Nat) (cores : List Nat) (im : Image) : State :=
  match imageTarget s part im cores with
  | none => s
  | some c =>
    if imagePoisoned s part im.base then abortImage s part im
    else if imageMajorOk s part im then restoreOnto s part im c else refuseImage s part im

/-- Every saved image restored, in the order in which they were saved (R307). -/
def restoreAll (s : State) (part : Nat) (cores : List Nat) : State :=
  (getPart s part).images.foldl (fun s im => restoreImage s part cores im) s

/-! ## The dispatchers -/

/-- A die's dispatcher restores what has been saved onto empty cores of the die, places the next block of a partition, and tries again until
none can be placed (R277, R278, R300, R307). It places nothing in a partition that is not running (R316). -/
def execBlockPlacement (part die : Nat) (s : State) : Out :=
  let p := getPart s part
  if p.st != .running || p.squall || p.tearing then .next s else
  let s0 := restoreAll s part (coresOn p.lay die)
  match placeAny s0 part die (nodeOrder (getPart s0 part)) [] with
  | some s1 => .next (post s1 [.blockPlacement part die])
  | none => .next s0

end Sys2Proof.Machine
end

