-- ==== Sys2Proof/Machine/Commands.lean ====
section
/-! DEFINITION. Partition commands (spec/19 R304, R305, R308, R309): VACATE, PREEMPT, RESUME, TEARDOWN. A command that waits for its cores
or its walks goes on when the agenda is empty (log 2). -/
namespace Sys2Proof.Machine

/-! ## Ending a command -/

/-- A command of the partition block ends with a status (R294, R308, R341). -/
def finishCmd (s : State) (part stat : Nat) : State :=
  let cmd := (getPart s part).cmd
  journal (modPart s part fun p => { p with cstat := stat, named := none }) part 0x86 0 stat 0 0 (BitVec.ofNat 64 cmd)

/-- Whether a command of a kind is in progress. -/
def inProgress (s : State) (part cmd : Nat) : Bool := (getPart s part).cstat == 1 && (getPart s part).cmd == cmd

/-- One named core that may be saved now is saved, once what no shadow of it could compare is on its way (log 16); with none left occupied, `fin` ends the
command (R305). -/
def advanceVacate (s : State) (part : Nat) (l : List Nat) (fin : State → State) : State :=
  let s1 := match l.find? (mayVacate s part) with | some c => if pairsUneven s c then levelPairs s c else saveCore s part c | none => s
  if l.any (occupied s1 part) then s1 else fin s1

/-! ## VACATE (R304) -/

/-- The cores that a VACATE names (R304): those of the list at CREC, or the highest-numbered ones; `none` where the request is malformed. -/
def vacateList (s : State) (part : Nat) : Option (List Nat) :=
  let p := getPart s part
  let cs := sortBy (coresOf p.lay) fun a b => decide (b ≤ a)
  if p.carg = 0 || cs.length < p.carg then none
  else if p.crec = 0 then some (cs.take p.carg)
  else if p.crec.toNat % 2 != 0 then none
  else match vaRead s part p.crec (2 * p.carg) with
    | none => none
    | some n =>
      let l := (List.range p.carg).map fun i => n / 2 ^ (16 * i) % 2 ^ 16
      if l.dedup.length = l.length && l.all cs.contains then some l else none

/-- The journal's list of the cores that a VACATE names (R304, R341). -/
def journalNamed (part : Nat) (s : State) (core : Nat) : State := journal s part 0x84 0 0 0 0 (BitVec.ofNat 64 core)

/-- A VACATE completes: what it saved may be restored on other cores at once (R304, R307). -/
def endVacate (part : Nat) (s : State) : State :=
  post (finishCmd s part 2) ((diesOf (getPart s part).lay).map fun d => .blockPlacement part d)

/-- VACATE (R304, R305): the request is refused, or its cores are vacated concurrently, each once it has drained. -/
def execVacate (part : Nat) (s : State) : Out :=
  if !inProgress s part 3 then .next s else
  let p := getPart s part
  match p.named with
  | some l => .next (advanceVacate s part l (endVacate part))
  | none =>
    match vacateList s part with
    | none => .next (finishCmd s part 4)
    | some l =>
      if freeSaveCount p < (l.filter (occupied s part)).length then .next (finishCmd s part 3) else
      let s1 := l.foldl (beginVacate part) (l.foldl (journalNamed part) s)
      let s2 := modPart s1 part fun p => { p with named := some l }
      .next (if l.any (occupied s2 part) then s2 else endVacate part s2)

/-! ## PREEMPT (R308) -/

/-- A pre-empted partition (R339): PREEMPTED, unless a halt has come between. -/
def preempted (s : State) (part : Nat) : State :=
  finishCmd (modPart s part fun p => { p with st := if p.st == .preempting then .preempted else p.st }) part 2

/-- The queues and engines of a partition stop at a boundary (R308, R338, R339). -/
def stopQueues (s : State) (part : Nat) : State :=
  modPart s part fun p => { p with queues := p.queues.map fun q => (q.1, if q.2.qen && q.2.qstat != 3 then { q.2 with qstat := 2 } else q.2) }

/-- The block-transfer engines of a partition asked to stop (R354). -/
def bteStops (s : State) (part : Nat) : List Instr := (getPart s part).bte.map fun q => .bteStop part q.1

/-- PREEMPT (R308, R339): refused in a halted partition and for lack of save slots; else everything stops at a boundary and every core is
vacated. -/
def execPreempt (part : Nat) (s : State) : Out :=
  if !inProgress s part 1 then .next s else
  let p := getPart s part
  match p.named with
  | some l => .next (advanceVacate s part l fun s => preempted s part)
  | none =>
    if p.st == .halted then .next (finishCmd s part 4)
    else if p.st == .preempted then .next (finishCmd s part 2)
    else if p.st != .running then .next s
    else
      let l := coresOf p.lay
      if freeSaveCount p < (l.filter (occupied s part)).length then .next (finishCmd s part 3) else
      let s1 := stopClocks (stopQueues (modPart s part fun p => { p with st := .preempting, named := some l }) part) part
      let s2 := post (l.foldl (beginVacate part) s1) (bteStops s1 part)
      .next (if l.any (occupied s2 part) then s2 else preempted s2 part)

/-! ## RESUME (R308, R321) -/

/-- Everything that a partition does of its own accord, offered again. -/
def resumeKicks (s : State) (part : Nat) : List Instr :=
  let p := getPart s part
  let cs := s.cores.filter fun k => k.2.part == part
  let ds := diesOf p.lay
  (cs.flatMap fun k =>
    (if k.2.fillq.isEmpty then [] else [Instr.windowFill k.1]) ++ (k.2.bufs.map fun b => Instr.storeBufferRelease k.1 b.blk) ++
    (k.2.slots.flatMap fun g => (if g.2.shadow == .shadow then [Instr.shadowCompare k.1 g.1] else []) ++
      (if g.2.front.any (·.spilled) then [Instr.frontierRefill k.1 g.1] else []))) ++
  ((s.clusters.filter fun c => p.lay.clusters.contains c.1 && !c.2.table.isEmpty).flatMap fun c => engineEvents c.1) ++
  (ds.flatMap fun d => (if (getDie s d).leaveq.isEmpty then [] else [Instr.leaveGrant d]) ++
    (if (getDie s d).estq.isEmpty then [] else [.estateWalk d])) ++
  (p.bte.flatMap fun q => [Instr.bteDescriptorStart part q.1, .bteCompletion part q.1]) ++
  (p.nodes.flatMap fun n => (if n.la.dims = 0 then [] else [Instr.latticeStart part n.addr.toNat, .updraft part n.addr.toNat]) ++
    [.nodeDone part n.addr.toNat]) ++
  collEvents s part ++ (p.queues.map fun q => Instr.packetAccept part q.1) ++ (ds.map fun d => Instr.blockPlacement part d)

/-- The queues and engines of a partition run again (R308, R321). -/
def startQueues (p : Part) : Part :=
  { p with queues := p.queues.map (fun q => (q.1, if q.2.qstat == 2 then { q.2 with qstat := if q.2.pkts.isEmpty then 0 else 1 } else q.2)),
           bte := p.bte.map fun q => (q.1, { q.2 with stopped := false }) }

/-- A partition goes on (R307, R308): every saved image is restored, the queues restart, and its cores take blocks again. -/
def goOn (s : State) (part : Nat) : State :=
  let s1 := { s with cores := s.cores.map fun k => if k.2.part == part then (k.1, { k.2 with vacating := false }) else k }
  let s2 := restoreAll (modPart s1 part fun p => { startQueues p with st := .running }) part (coresOf (getPart s1 part).lay)
  kickFront (post (startClocks s2 part) (resumeKicks s2 part)) part

/-- RESUME (R308): it restores every saved image and restarts the queues; a halted partition resumes first (R321). -/
def execResume (part : Nat) (s : State) : Out :=
  if !inProgress s part 2 then .next s else
  match (getPart s part).st with
  | .halted => .next (finishCmd (goOn (returnFromHalt s part) part) part 2)
  | .running => .next (if (getPart s part).squall then s else finishCmd (goOn s part) part 2)
  | .preempted => .next (finishCmd (goOn s part) part 2)
  | _ => .next s

/-! ## TEARDOWN (R308, R309) -/

/-- A node of a torn-down partition: its record is KILLED and its LAUNCH completes (R295, R308). -/
def killNode (part : Nat) (s : State) (n : Node) : State :=
  let k := nodePkt s part n
  let s1 := writeState s part n.addr 6
  let s2 := modQueue s1 part n.queue fun u => { u with pkts := u.pkts.filter fun j => j.seq != k.seq }
  journal (modNode s2 part n.addr fun m => { m with st := if m.st == 3 then 6 else 7 }) part 0x41 n.queue 0x20 k.seq.toNat n.addr (BitVec.ofNat 64 (pktTag k.body))

/-- The record of a LAUNCH that has not started becomes KILLED, if it is FRESH (R299, R308). -/
def killFresh (part : Nat) (s : State) (a : DWord) : State :=
  if a.toNat % 64 = 0 && vaRead s part (a + 24) 1 = some 0 then writeState s part a 6 else s

/-- The node records that the LAUNCH packets of a partition name, those started among them. -/
def launchNames (p : Part) : List DWord :=
  p.queues.flatMap fun q => (q.2.pkts.filterMap fun k => if pktType k.body = 1 then some (pktOperand k.body) else none) ++
    q.2.posts.map (·.record)

/-- The groups that own holdings of a node, by its estate table, in ascending block and group number (R309). -/
def estateOwners (s : State) (part : Nat) (n : Node) : List (Nat × Nat) :=
  if n.la.estn = 0 then [] else
  (sortBy ((estTable s part n).filter fun e => e.kind != 0 && e.estag == n.estag) fun a b => decide (a.owner ≤ b.owner)).map
    (fun e => (e.owner / 32, e.owner % 32)) |>.dedup

/-- The walks that settle a node's holdings in a tear-down, on its home die (R309). -/
def tearWalks (s : State) (part : Nat) (n : Node) : State :=
  let ws := (estateOwners s part n).map fun o =>
    ({ part := part, node := n.addr, blk := o.1, grp := o.2, gslot := 0, killed := true, teardown := true } : EWalk)
  let d := homeDie s part n
  post (modDie s d fun k => { k with estq := k.estq ++ ws }) [.estateWalk d]

/-- A core of a torn-down partition: its groups, its buffers and its carve are gone. -/
def clearedCore (part : Nat) (k : Core) : Core := { part := part, cyc := k.cyc, age := k.age }

/-- Leave that the partition's requests hold or ask for given back. -/
def dropLeave (s : State) (part : Nat) : State :=
  let cls := (getPart s part).lay.clusters
  let mineQ := fun (q : Nat × Nat) => if q.1 = 0 then cls.contains q.2 else q.2 / 16 == part
  let s1 := { s with dies := s.dies.map fun d => (d.1, { d.2 with leaveq := d.2.leaveq.filter fun q => !mineQ q }) }
  cls.foldl (fun s cl => ((getCluster s cl).table.filter fun r => r.granted).foldl (fun s r => giveLeave s (dieOf r.core) true) s) s1

/-- A BTE queue of a torn-down partition: every queued and running descriptor ends with STATUS 5 (R353). -/
def tornQueue (b : BteQ) : BteQ :=
  { b with stopped := false,
           items := b.items.map (fun i => match i with | .post p => .post { p with cancel := true } | f => f),
           run := b.run.map fun r => { r with post := { r.post with cancel := true }, ended := true, status := 5, fcode := 0, faddr := 0, awaiting := 0 } }

/-- What a tear-down takes from the partition itself. -/
def tornPart (p : Part) : Part :=
  { p with st := .running, squall := false, unitsLeft := [], cause := 0, causeNode := none, faddr := 0, marked := [], tearing := true, named := none,
           clkStop := none, consumed := [], denied := [], holdq := [], idents := [], contribs := [], colls := [], images := [],
           queues := p.queues.map (fun q => (q.1, { q.2 with pkts := [], posts := [], qstat := 0, head := q.2.tail })),
           bte := p.bte.map fun q => (q.1, tornQueue q.2) }

/-- The completion entries of the packets that a tear-down drops (R308, R341). The table of OUTCOMEs names none for them; they take that of killed
blocks, the model's choice (log 68). -/
def journalDropped (part : Nat) (s : State) : State :=
  (getPart s part).queues.foldl (fun s q => q.2.pkts.foldl (fun s k =>
    journal s part (0x40 + pktType k.body) q.1 0x20 k.seq.toNat (pktOperand k.body) (BitVec.ofNat 64 (pktTag k.body))) s) s

/-- Whether an operation would give its group a holding: a tear-down withdraws it before it is performed, since its group is gone (R308, R309). -/
def acquires (e : SbEntry) : Bool :=
  match e.op with
  | .hold .tlock _ | .hold .claim _ | .hold .prom _ => true
  | _ => false

/-- The walks that come to be among the first of a die's as others are dropped (R251). -/
def walksUp (old new : List Walk) (d : Nat) : List Instr :=
  ((new.take walkLimit).filter fun w => !w.asked && !((old.take walkLimit).any fun v => v.id == w.id)).map fun w => .pageWalkComplete d w.id

/-- The tear-down of a partition begins (R308, R309, R353, R358): its nodes are killed, what they held in cores, engines and the front end is
dropped, and the estate units walk their holdings. -/
def tearDown (s : State) (part : Nat) : State :=
  let ns := (getPart s part).nodes
  let cls := (getPart s part).lay.clusters
  let s1 := dropLeave (journalDropped part ((launchNames (getPart s part)).foldl (killFresh part) (ns.foldl (killNode part) s))) part
  let s2 : State := { s1 with
    cores := s1.cores.map fun k => if k.2.part == part then (k.1, clearedCore part k.2) else k,
    clusters := s1.clusters.map fun c =>
      if cls.contains c.1 then (c.1, { wq := c.2.wq, promo := c.2.promo }) else c,
    dies := s1.dies.map fun d => (d.1, { d.2 with walks := d.2.walks.filter (fun w => w.part != part),
                                                  refused := d.2.refused.filter (fun f => f.part != part),
                                                  swapq := d.2.swapq.filter (fun w => w.part != part),
                                                  estq := d.2.estq.map fun w => if w.part == part then { w with teardown := true } else w }),
    rdma := s1.rdma.filter fun r => r.part != part }
  let s4 := (s2.clusters.map (·.1)).foldl (fun s cl => withdrawQueued s cl fun e => e.part == part && (isWaitOp e || acquires e)) s2
  let s3 := ns.foldl (fun s n => tearWalks s part n) (modPart s4 part tornPart)
  post s3 ((s1.dies.flatMap fun d => walksUp d.2.walks (getDie s3 d.1).walks d.1) ++ ((s3.dies.filter fun d => !d.2.estq.isEmpty).map fun d => .estateWalk d.1) ++
    (getPart s3 part).bte.flatMap fun q => [.bteDescriptorStart part q.1, .bteCompletion part q.1])

/-- Whether a walk of a partition is still to be made. -/
def walksOf (s : State) (part : Nat) : Bool := s.dies.any fun d => d.2.estq.any fun w => w.part == part

/-- The tear-down ends once every walk has (R309): the nodes and their tags are gone, and the partition takes work again. -/
def tornDown (s : State) (part : Nat) : State :=
  let s1 := modPart s part fun p => { p with nodes := [], estags := [], tearing := false }
  if (getPart s1 part).cstat = 1 then finishCmd s1 part 2 else s1

/-- TEARDOWN, by command, by the side-band port or by a function-level reset (R308, R309, R342, R368). -/
def execTeardown (part : Nat) (s : State) : Out :=
  if (getPart s part).tearing then .next (if walksOf s part then s else tornDown s part)
  else
    let s1 := tearDown s part
    .next (if walksOf s1 part then s1 else tornDown s1 part)

end Sys2Proof.Machine
end

