-- ==== Sys2Proof/Machine/Halt.lean ====
section
/-! DEFINITION. Halts of a partition (spec/20 R314 to R321, R339, spec/19 R310, R312): causes from outside, the line's arrival at each unit
with the unit's record, HALTED, the resume, and the watchdog. -/
namespace Sys2Proof.Machine

/-! ## Raising the line -/

/-- Whether a code is a halt cause (R314). -/
def isCause (c : Nat) : Bool := (decide (1 ≤ c) && decide (c ≤ 0x0A)) || (decide (0x10 ≤ c) && decide (c ≤ 0x12))

/-- A halt cause that no unit of the model has described raises the line (R314). -/
def execSquallRaise (part cause : Nat) (s : State) : Out := .next (if isCause cause then raiseSquall s part { code := cause } else s)

/-- A core's watchdog expires (R310): the cycles that still lack pass first; the halt names the core and its node. -/
def execWatchdogExpiry (core : Nat) (s : State) : Out :=
  let k := getCore s core
  let w := wdogOf s core
  if w = 0 || k.slots.isEmpty || k.stopped || k.vacating then .next s else
  let s1 := if k.wdc < w then tickCore core (w - k.wdc) s else s
  .next (raiseSquall s1 k.part { code := 0x0A, aux := BitVec.ofNat 32 core, node := k.node })

/-! ## Records (R319, R320) -/

/-- The STATE code of a frontier entry (R320). -/
def stateCode : EState → Nat
  | .live => 0
  | .blocked => 1
  | .yielded => 2

/-- An entry record (R320). -/
def entryRecord (charged : Lanes) (e : Entry) : Nat :=
  recordOf [(0, e.prio), (12, stateCode e.st), (15, e.spilled.toNat), (16, e.repi), (22, (e.mask &&& charged != 0).toNat), (32, e.ix.toNat),
    (64, e.rgn.toNat), (96, e.mask.toNat)]

/-- A group record (R319, R320): its header and one record per entry in rank order. -/
def groupRecord (s : State) (core slot : Nat) (g : Group) (n : Node) : Nat :=
  let es := ranked g.front
  let ents := (bufOf (getCore s core) g.blk).ents
  let lt := n.la.dims != 0
  let head := recordOf [(0, 3), (8, es.length), (16, g.rslot.getD (gslotOf core slot)), (31, lt.toNat), (32, g.grp),
    (37, (mapGet .fresh n.tiles (tileOf n.la g) == .exited).toNat), (38, (g.shadow == .leader).toNat), (40, g.cause), (64, g.blk),
    (96, if lt then g.step.toNat else 0), (128, g.serial.toNat), (192, g.faddr.toNat), (256, (ents.filter (checked s)).length),
    (266, (ents.filter fun e => !checked s e).length)]
  head + 2 ^ 512 * (es.foldr (fun e acc => entryRecord g.charged e + 2 ^ 256 * acc) 0)

/-- The record of the group in one slot put into its node's stop area (R318, R319); a shadow writes none of its own, nor does a group without
entries. -/
def recordGroup (core : Nat) (s : State) (p : Nat × Group) : State :=
  match findNode s p.2.part p.2.node with
  | some n =>
    if p.2.shadow == .shadow || p.2.front.isEmpty then s
    else unitRecord s p.2.part n.la.stoparea (64 + 32 * p.2.front.length) (groupRecord s core p.1 p.2 n)
  | none => s

/-- A core stops (R315): it issues nothing more, and each resident group has its record. -/
def stopCore (s : State) (core : Nat) : State :=
  let s1 := modCore s core fun k => { k with stopped := true }
  (getCore s1 core).slots.foldl (recordGroup core) s1

/-- The window fill unit's stop record (R155). -/
def fillRecord (k : Core) (core : Nat) : Nat :=
  let bad := k.fillFault == 1 || k.fillFault == 2
  let cur := match k.fillq with | w :: _ => (w, (mapGet {} k.wins w).touch.gslot, k.fillRow) | [] => k.fillLast
  let v := if bad then k.fillLast else cur
  recordOf [(0, 1), (16, core), (32, if bad then k.fillq.length else k.fillq.length - 1), (64, v.1), (72, v.2.2), (88, k.fillFault),
    (96, k.fillFaddr.toNat), (160, v.2.1)]

/-- The window fill unit of a core stops and writes its record (R155, R318). -/
def stopFill (s : State) (part core : Nat) : State :=
  let k := getCore s core
  match k.node.bind fun a => findNode s part a with
  | some n => unitRecord s part n.la.stoparea 64 (fillRecord k core)
  | none => s

/-- The estate unit's stop record (R193): the group that it walks, or the one whose heirless holdings it reported. -/
def estateRecord (s : State) (part die : Nat) : Nat :=
  let d := getDie s die
  let cur := d.estq.head?.filter fun w => d.estFault == 0 || (w.part == d.estPart && w.node == d.estNode && ownerOf w.blk w.grp == d.estOwner)
  let v := match cur with
    | some w => match findNode s part w.node with
      | some n => (ownerOf w.blk w.grp, n.estag, (leftOf s w n).length)
      | none => (0, 0, 0)
    | none => if d.estFault == 0 then (0, 0, 0) else (d.estOwner, d.estTag, 0)
  recordOf [(0, 7), (8, die), (16, d.estq.length - cur.toList.length), (32, v.1), (64, v.2.1), (80, v.2.2), (96, d.estLast.toNat), (160, d.estFault)]

/-- The estate unit of a die stops and writes its record (R193, R318). -/
def stopEstate (s : State) (part die : Nat) : State :=
  let d := getDie s die
  let addr := if d.estFault != 0 then d.estNode else match d.estq.head? with | some w => w.node | none => d.estNode
  match findNode s part addr with
  | some n => unitRecord s part n.la.stoparea 64 (estateRecord s part die)
  | none => s

/-- The lattice scheduler's stop record (R285): the fault that stopped it, else the swap in progress, with the swaps queued behind it. The record of a
tile that exits counts as a downdraft. -/
def latticeRecord (die : Nat) (q : List Swap) (addr : DWord) (f : Option LFault) : Nat :=
  let depth := recordOf [(0, 6), (8, die), (16, q.length - 1)]
  match f, q.find? (fun w => w.node == addr) with
  | some f, _ => depth + recordOf [(32, f.tile), (64, f.op), (72, f.code), (96, f.faddr.toNat), (160, f.gslot)]
  | none, some w => depth + recordOf [(32, w.tile), (64, if w.op = 2 then 2 else 1), (160, w.gslot)]
  | none, none => depth + recordOf [(32, 0xFFFFFFFF)]

/-- The lattice scheduler of a die stops and writes a record for each lattice that it serves (R285, R318): its swaps stay in progress, to begin again at
the resume, and those of other partitions go on. -/
def stopLattice (s : State) (part die : Nat) : State :=
  let ns := (getPart s part).nodes.filter fun n => n.st == 3 && n.la.dims != 0 && n.slots.any fun g => dieOf (g / 64) == die
  let s1 := ns.foldl (fun s n =>
    let f := n.lfault.filter fun f => if f.op = 0 then homeDie s part n == die else dieOf (f.gslot / 64) == die
    unitRecord s part n.la.stoparea 64 (latticeRecord die (getDie s die).swapq n.addr f)) s
  let s2 := modDie s1 die fun d => { d with swapq :=
    (d.swapq.filter fun w => w.part != part) ++ (d.swapq.filter fun w => w.part == part).map fun w => { w with line := 0 } }
  post s2 ((((getDie s2 die).swapq.head?.filter fun w => w.part != part).map swapEvent).toList)

/-- The front end's stop record (R312). -/
def frontRecord (p : Part) (part : Nat) : Nat :=
  recordOf [(0, 5), (8, part), (16, p.lastPkt.1), (32, p.lastPkt.2.1.toNat), (64, p.lastPkt.2.2),
    (80, (p.nodes.filter fun n => n.st == 2).length), (96, (p.nodes.filter fun n => n.st == 3).length)]

/-- The RUNNING node whose LAUNCH was accepted first (R312). -/
def oldestRunning (p : Part) : Option Node :=
  (p.nodes.filter fun n => n.st == 3).foldl (fun b n => match b with
    | none => some n
    | some m => if n.acc < m.acc then some n else some m) none

/-- The front end stops and writes its record, to the journal when no node runs (R312, R341). -/
def stopFront (s : State) (part : Nat) : State :=
  let p := getPart s part
  let r := frontRecord p part
  match oldestRunning p with
  | some n => unitRecord s part n.la.stoparea 64 r
  | none => journal s part 0x85 0 0 0 (BitVec.ofNat 64 r) (BitVec.ofNat 64 (r / 2 ^ 64))

/-- One unit stops and writes its record (R315). -/
def stopUnit (s : State) (part : Nat) : Unit' → State
  | .core c => stopCore s c
  | .matrix cl => freezeEngine s part cl
  | .fill c => stopFill s part c
  | .estate d => stopEstate s part d
  | .lattice d => stopLattice s part d
  | .bte q => stopBte s part q
  | .frontEnd => stopFront s part

/-- The squall line reaches a unit (R315). -/
def execSquallArrival (part : Nat) (u : Unit') (s : State) : Out :=
  let p := getPart s part
  if !p.squall || !p.unitsLeft.contains u then .next s else
  let s1 := modPart s part fun p => { p with unitsLeft := p.unitsLeft.filter (· != u) }
  .next (if (getPart s part).unitsLeft.length = 1 then post (stopUnit s1 part u) [.haltComplete part] else stopUnit s1 part u)

/-! ## HALTED and back (R316, R321, R339) -/

/-- Whether a vacated core need not be waited for any more: nothing stands on it, or a tile whose record faulted keeps it until the resume (R285, R339). -/
def vacateOver (s : State) (part core : Nat) : Bool := !occupied s part core || (tilesOn s part core).any fun t => t.2.2.raised

/-- Whether a halt may complete: the line has reached every unit, everything on its way has drained, refusals among it, and no move or vacate is
under way (R316, R323, R339). -/
def haltReady (s : State) (part : Nat) : Bool :=
  let p := getPart s part
  p.squall && p.st != .halted && p.st != .quiescing && p.st != .quiesced && p.unitsLeft.isEmpty && s.agenda.isEmpty && !requestsHeld s part &&
  (s.dies.all fun d => d.2.refused.all fun r => r.part != part) &&
  (match p.named with | some l => if p.st == .preempting then l.all (vacateOver s part) else !l.any (mayVacate s part) | none => true)

/-- Every unit has stopped and written its records (R339): the partition is HALTED, its enabled queues in QSTAT 2. Units that had nothing to
report have stopped as well. -/
def execHaltComplete (part : Nat) (s : State) : Out :=
  if !haltReady s part then .next s else
  let s1 := stopQueues (modPart s part fun p => { p with st := .halted, bte := p.bte.map fun q => (q.1, { q.2 with stopped := true }) }) part
  .next { s1 with
    cores := s1.cores.map (fun k => if k.2.part == part then (k.1, { k.2 with stopped := true }) else k),
    clusters := s1.clusters.map fun c => if (getPart s1 part).lay.clusters.contains c.1 then (c.1, { c.2 with frozen := true }) else c }

/-- A halted partition resumes (R321): a vacate that its halt kept from ending goes on, else the saved images return. -/
def resumeHalted (s : State) (part : Nat) : State :=
  let p := getPart s part
  if p.st != .halted then s else
  let s1 := returnFromHalt s part
  match p.named with
  | none => goOn s1 part
  | some _ =>
    if p.cmd = 1 then post (stopClocks (stopQueues (modPart s1 part fun p => { p with st := .preempting }) part) part) (bteStops s1 part)
    else kickFront (post s1 (resumeKicks s1 part)) part

/-- Resume of a halted partition (R321). -/
def execPartitionResume (part : Nat) (s : State) : Out := .next (resumeHalted s part)

end Sys2Proof.Machine
end

