-- ==== Sys2Proof/Machine/LaneExchange.lean ====
section
/-! DEFINITION. Lane exchange and reduction (spec/08 R136 to R141, spec/05 R72). -/
namespace Sys2Proof.Machine

/-- SMOV (R136). -/
def execSmov (c : Enc) (ty : Ty) (s : State) : Out :=
  issue (.smov c ty) c (fun x v s => compute x c (tyIs64 ty) (fun _ => lane64 v.y (lowLane x.act)) s) s

/-! ## VOTE -/

/-- The predicates of the lanes of `act` as a lane mask (R137). -/
def voteMask (x : Ctx) (c : Enc) : Lanes := predRow x.g (numOf c.y) &&& x.act

/-- The one bit of a predicate form of VOTE (R137). -/
def voteBit (k : VoteKind) (act b : Lanes) : Bool :=
  match k with
  | .every => b == act
  | .some => b != 0
  | .same => b == act || b == 0
  | .mask => false

/-- VOTE (R137); the latch of `.mask` holds the low word of the mask. -/
def execVote (c : Enc) (k : VoteKind) (s : State) : Out :=
  issue (.vote c k) c (fun x _ s =>
    let b := voteMask x c
    if k = .mask then .fin (writeDst x c.x true c.nw (rowOf fun _ => b) s) (rowOf fun _ => (loWord b).setWidth 64)
    else computeP x c (fun _ => voteBit k x.act b) s) s

/-! ## SHFL -/

/-- The source lane that a selector names, if it is in range (R138). -/
def shflLane (k : ShflKind) (l : Nat) (n : Word) : Option Nat :=
  let j : Int := match k with
    | .lane => n.toNat
    | .shift => l + n.toInt
    | .rot => ((l + n.toNat % 64) % 64 : Nat)
    | .flip => (l ^^^ (n.toNat % 64) : Nat)
  if 0 ≤ j ∧ j ≤ 63 then some j.toNat else none

/-- SHFL (R138). -/
def execShfl (c : Enc) (k : ShflKind) (ty : Ty) (s : State) : Out :=
  issue (.shfl c k ty) c (fun x v s => compute x c (tyIs64 ty) (fun l =>
    match shflLane k l (loWord (lane64 v.z l)) with
    | some j => if x.act.getLsbD j then lane64 v.y j else lane64 v.y l
    | none => lane64 v.y l) s) s

/-! ## LRED -/

/-- The nodes of one level of the tree from those below (R72); an absent node is `none`. -/
def treeLevel (f : Nat → Nat → Nat) : List (Option Nat) → List (Option Nat)
  | a :: b :: t => (match a, b with
      | some x, some y => some (f x y)
      | some x, none => some x
      | none, y => y) :: treeLevel f t
  | l => l

/-- The root of the tree over the 64 lanes (R72). -/
def treeSum (act : Lanes) (f : Nat → Nat → Nat) (v : Nat → Nat) : Option Nat :=
  ((List.range 6).foldl (fun l _ => treeLevel f l)
    ((List.range 64).map fun l => if act.getLsbD l then some (v l) else none)).head?.join

/-- A NaN of a format made canonical (R59, R72). -/
def canonNan (F : Fmt) (b : Nat) : Nat := if valNum F b == .nan then F.nan else b

/-- The reduction of the values of the lanes of `act`, `act` not empty (R139). -/
def lredOf (op : LredOp) (rm : Rm) (t : Ty) (act : Lanes) (v : Nat → DWord) : DWord :=
  let vals := (lanesOf act).map v
  let fold := fun (f : DWord → DWord → DWord) => match vals with | [] => 0 | a :: r => r.foldl f a
  match op with
  | .add =>
    if tyFloat t then
      enc64 (canonNan (fmtOf t) ((treeSum act
        (fun a b => canonNan (fmtOf t) (numAdd (fmtOf t) rm (valNum (fmtOf t) a) (valNum (fmtOf t) b)))
        (fun l => (v l).toNat % 2 ^ fmtWidth (fmtOf t))).getD 0))
    else wrapTo t (vals.foldl (fun a b => a + opVal t b) 0)
  | .min | .max =>
    if tyFloat t then
      enc64 (canonNan (fmtOf t) ((fold fun a b => enc64 (minmaxEnc (fmtOf t) (op == .max) false
        (a.toNat % 2 ^ fmtWidth (fmtOf t)) (b.toNat % 2 ^ fmtWidth (fmtOf t)))).toNat % 2 ^ fmtWidth (fmtOf t)))
    else fold fun a b => if decide (opVal t b < opVal t a) == (op == .min) then b else a
  | .and => fold (· &&& ·)
  | .or => fold (· ||| ·)
  | .xor => fold (· ^^^ ·)

/-- LRED (R139). -/
def execLred (c : Enc) (op : LredOp) (rm : Rm) (ty : Ty) (s : State) : Out :=
  issue (.lred c op rm ty) c (fun x v s =>
    let r := lredOf op rm ty x.act (lane64 v.y)
    compute x c (tyIs64 ty) (fun _ => r) s) s

/-! ## LSYNC -/

/-- The frontier with the lanes of `act` waiting at the issuing entry's IX with mask `m`; lanes outside `act` leave at once, but
for those of a REP pair (R140). -/
def syncFront (x : Ctx) (m : Lanes) : List Entry :=
  let stay : Lanes := if x.e.rep.isSome then x.e.mask else x.act
  let rest := x.e.mask &&& ~~~stay
  ((x.g.front.filter fun e => e.mask != x.e.mask).map (clearDue x.e.mask)) ++
  [{ x.e with mask := stay, cnt := countsFrom [] stay x.e.cnt, st := .blocked, wait := some (.lsync m x.act), chain := [],
              chn := false }] ++
  (if rest = 0 then [] else [splitOff x.node.la.btab x.e rest (x.e.ix + 1)])

/-- LSYNC's own part (R140). -/
def lsyncBody (c : Enc) (x : Ctx) (v : Srcs) (s : State) : Res :=
  let m : Lanes := lane64 v.y 0
  if x.act = 0 then done s
  else if m = 0 || (x.act &&& ~~~m) != 0 then .trap .membership 0
  else if x.g.front.any fun e => syncing e && (syncLanes e &&& m) != 0 && syncMask e != m then .trap .membership 0
  else match syncCheck x.node.la.btab x.g.ncall (syncFront x m) with
    | .bad _ => .trap .membership 0
    | .front l => .jump (modFront (chargeIssue x c false s) x.core x.slot fun _ => l)

/-- LSYNC (R140). -/
def execLsync (c : Enc) (s : State) : Out := issue (.lsync c) c (fun x v s => lsyncBody c x v s) s

end Sys2Proof.Machine
end

