-- ==== Sys2Proof/Machine/Package.lean ====
section
/-! DEFINITION. The package: boundary moves (spec/20 R337 to R339), scrubbing (R334), clocks, cooling and module reset (spec/03 R31, R34, R35),
the side-band port (spec/20 R342, spec/21 R344), attestation and firmware (spec/22 R372). -/
namespace Sys2Proof.Machine

/-! ## The side-band port's answers -/

/-- An answer of the management processor: the port and command code, and its records. -/
def sideReply (s : State) (code : Nat) (l : List Record) : State :=
  { s with mgmt := { s.mgmt with replies := s.mgmt.replies ++ [(code, l)] } }

/-- The code of an error completion of a command (log 21). -/
def errorCode (code : Nat) : Nat := code + 0x10000

/-- An error completion: the command changes nothing (R342, R344). -/
def sideError (s : State) (code : Nat) : State := sideReply s (errorCode code) []

/-- SPDM state of a port: port 0 is the side-band port, port k + 1 the physical function of I/O die k (R372). -/
def spdmOf (s : State) (port : Nat) : Spdm := mapGet {} s.mgmt.spdm port

/-- A command that changes state: it runs only inside a session of the side-band port (R342). -/
def inSession (s : State) (code : Nat) (f : State → State) : State :=
  if (spdmOf s 0).session then f s else sideError s code

/-- Bytes as records of 64, the last one filled up with zeros. -/
def packRecords : Nat → List Byte → List Record
  | 0, _ => []
  | n + 1, l => if l.isEmpty then [] else BitVec.ofNat 512 (bytesNum (l.take 64)) :: packRecords n (l.drop 64)

/-! ## Boundary moves (R337 to R339) -/

/-- Whether a number is one of the slice counts of R337. -/
def sliceCount (n : Nat) : Bool := [4, 8, 16, 32, 64].contains n

/-- The slices of a layout on a die. -/
def slicesAt (l : Layout) (d : Nat) : List Nat := (assoc l.slices d).getD []

/-- Whether a list of slice numbers is one of a die's, in ascending order (R337). -/
def sliceSet (l : List Nat) : Bool := (l.all fun x => decide (x < 64)) && (l.zip (l.drop 1)).all fun p => decide (p.1 < p.2)

/-- Whether a layout is one that a partition may have (R337): whole clusters, slices and ways only on its own dies. -/
def layoutOk (l : Layout) : Bool :=
  (l.clusters.all fun k => decide (k < 128)) && l.clusters.dedup.length == l.clusters.length &&
  ((List.range 8).all fun d => sliceSet (slicesAt l d) &&
    if (diesOf l).contains d then sliceCount (slicesOn l d) && decide (waysOn l d ≤ 8)
    else slicesOn l d == 0 && waysOn l d == 0) &&
  decide (1 ≤ l.weight) && decide (l.weight ≤ 16) && decide (l.hbmShare ≤ 100)

/-- Whether two layouts share nothing that one partition alone owns: clusters, slices with their ways, HBM ranges (R337). -/
def disjointLays (a b : Layout) : Bool :=
  (a.clusters.all fun k => !b.clusters.contains k) &&
  ((List.range 8).all fun d => (slicesAt a d).all fun x => !(slicesAt b d).contains x) &&
  a.hbm.all fun r => b.hbm.all fun q => decide (r.1 + r.2 ≤ q.1) || decide (q.1 + q.2 ≤ r.1)

/-- The layouts of all partitions once some moves are made. -/
def laysAfter (s : State) (moves : List (Nat × Layout)) : List (Nat × Layout) :=
  ((s.parts.map (·.1) ++ moves.map (·.1)).dedup).map fun p => (p, (assoc moves p).getD (getPart s p).lay)

/-- Whether the cores of the clusters that a layout gives up are empty (R337). -/
def leavesEmpty (s : State) (part : Nat) (lay : Layout) : Bool :=
  ((getPart s part).lay.clusters.filter fun k => !lay.clusters.contains k).all fun k => (List.range 4).all fun j => !occupied s part (4 * k + j)

/-- Whether some partitions may take new layouts together (R337): each is one that a partition may have, a cluster leaves its partition only once its
cores are empty, and no two partitions share anything afterwards. -/
def moveAllowed (s : State) (moves : List (Nat × Layout)) : Bool :=
  let l := laysAfter s moves
  (moves.map (·.1)).dedup.length == moves.length &&
  (moves.all fun m => decide (m.1 < 8) && layoutOk m.2 && (getPart s m.1).stopMove.isNone && leavesEmpty s m.1 m.2) &&
  l.all fun a => l.all fun b => a.1 == b.1 || disjointLays a.2 b.2

/-- Whether everything that a quiesce waits for has drained, swaps, estate walks and requests that wait for a budget among it (R338 step 1, R154, R224,
R335). Once the squall line has
reached the units these stand where they are, and the move completes with them stopped (R339). -/
def quiesced (s : State) (part : Nat) : Bool :=
  s.agenda.isEmpty && !requestsHeld s part &&
  ((coresOf (getPart s part).lay).all (drainedCore s)) && (unitsStopped s part || (s.dies.all fun d => (d.2.swapq.all fun w => w.part != part) && d.2.estq.all fun w => w.part != part) &&
  (s.clusters.all fun c => !(getPart s part).lay.clusters.contains c.1 || c.2.table.all fun r => r.st == .queued))

/-- Every frontier entry of a core rolled back to its region entry, the groups staying in their slots (R338 step 1). -/
def rollCore (part : Nat) (s : State) (core : Nat) : State :=
  let s1 := endWaits s part core
  modCore s1 core fun k => { k with slots := k.slots.map fun p =>
    let g := rollAll (coreBtab s1 k) p.2
    (p.1, { g with front := tidyFront g.front, nbHold := none }) }

/-- Whether the slice count or the ways of a die change (R338 step 3). -/
def carveChanges (a b : Layout) (d : Nat) : Bool := slicesOn a d != slicesOn b d || waysOn a d != waysOn b d

/-- Whether an address is one of a partition's bank memory on a die whose carve changes. -/
def lostBank (part : Nat) (a b : Layout) (pa : Nat) : Bool :=
  match regionOf pa with
  | .bank d _ => pa / 2 ^ 56 == part && carveChanges a b d
  | _ => false

/-- The cores of the clusters that one layout has and another has not. -/
def coresWithout (a b : Layout) : List Nat := coresOf { a with clusters := a.clusters.filter fun k => !b.clusters.contains k }

/-- The cores of the clusters that leave a partition (R337). -/
def giveCores (s : State) (m : Nat × Layout) : State :=
  (coresWithout (getPart s m.1).lay m.2).foldl (fun s c => modCore s c fun k => { cyc := k.cyc, age := k.age }) s

/-- The flush and the rehash of a move (R338 steps 2 and 3): bank memory whose carve changes reads as zero afterwards. Lines written back stay
what they were. -/
def rehash (s : State) (m : Nat × Layout) : State :=
  let old := (getPart s m.1).lay
  let s1 := { s with
    mem := s.mem.filter fun c => !lostBank m.1 old m.2 c.1,
    poison := s.poison.filter fun c => !lostBank m.1 old m.2 (128 * c.1),
    live := s.live.filter fun c => !lostBank m.1 old m.2 (16 * c.1) }
  let s2 := (coresWithout m.2 old).foldl (fun s c => modCore s c fun k => { part := m.1, cyc := k.cyc, age := k.age }) s1
  modPart s2 m.1 fun p => { p with lay := m.2, stopMove := none }

/-- The journal's entry of a completed move, with the partitions that it affected (R341). -/
def journalMove (s : State) (part : Nat) (moves : List (Nat × Layout)) : State :=
  journal s part 0x87 0 0 0 0 (BitVec.ofNat 64 ((moves.map fun m => 2 ^ m.1).foldl (· + ·) 0))

/-- A quiesced partition goes on after the move, or, with the squall line up, is left to halt; a halted or pre-empted one stays what it is (R338, R339). -/
def resumeMoved (s : State) (part : Nat) : State :=
  if (getPart s part).st != .quiesced then s
  else if (getPart s part).squall then modPart s part fun p => { p with st := .halting }
  else
    let s1 := startClocks (modPart s part fun p => { startQueues p with st := .running }) part
    kickFront (post s1 (resumeKicks s1 part)) part

/-- Steps 2 to 4 of a move, for all its partitions together (R338). -/
def finishMove (s : State) (moves : List (Nat × Layout)) : State :=
  let s1 := moves.foldl rehash (moves.foldl giveCores s)
  moves.foldl (fun s m => resumeMoved (journalMove s m.1 moves) m.1) s1

/-- A move given up, since blocks have come onto a cluster that was to leave its partition: the partitions go on as they were (R337). -/
def dropMove (s : State) (moves : List (Nat × Layout)) : State :=
  moves.foldl (fun s m => resumeMoved (modPart s m.1 fun p => { p with stopMove := none }) m.1) s

/-- Step 1 begins in a partition (R338): no packet starts, nothing is placed, its engines and timers stop. -/
def beginQuiesce (s : State) (part : Nat) : State :=
  let s1 := stopClocks (modPart s part fun p => { p with st := .quiescing }) part
  post s1 (bteStops s1 part)

/-- Step 1 is complete in a partition: every entry of its resident groups is rolled back to its region entry, its pairs in step
(R338, log 16). -/
def endQuiesce (s : State) (part : Nat) : State :=
  let cs := coresOf (getPart s part).lay
  if cs.any (pairsUneven s) then cs.foldl levelPairs s else
  modPart (cs.foldl (rollCore part) (cs.foldl levelPairs s)) part fun p => { p with st := .quiesced }

/-- A move goes on in one of its partitions (R338, R339): one that runs quiesces first; one in any other state of transition is waited for. -/
def quiesceOn (s : State) (part : Nat) : State :=
  match (getPart s part).st with
  | .running => if (getPart s part).squall then s else beginQuiesce s part
  | .quiescing => if quiesced s part then endQuiesce s part else s
  | _ => s

/-- Whether a partition is ready for the flush and the rehash (R338, R339). -/
def stoodStill (s : State) (part : Nat) : Bool :=
  match (getPart s part).st with
  | .quiesced | .halted | .preempted => true
  | _ => false

/-- BOUNDARY_MOVE (R338, R339): the partitions that run quiesce first; halted and pre-empted ones only flush and rehash; the steps after the first are
made in all of them together. A move that R337 does not allow changes nothing. -/
def execBoundaryMove (m : Nat × Layout) (more : List (Nat × Layout)) (s : State) : Out :=
  let moves := m :: more
  let begun := moves.all fun m => (getPart s m.1).stopMove == some moves
  if !begun && !moveAllowed s moves then .next s else
  let s1 := if begun then s else moves.foldl (fun s m => modPart s m.1 fun p => { p with stopMove := some moves }) s
  let s2 := moves.foldl (fun s m => quiesceOn s m.1) s1
  .next (if !(moves.all fun m => stoodStill s2 m.1) then s2
    else if moves.all fun m => leavesEmpty s2 m.1 m.2 then finishMove s2 moves else dropMove s2 moves)

/-- MoveBoundary (R342). -/
def execMoveBoundary (m : Nat × Layout) (more : List (Nat × Layout)) (s : State) : Out :=
  .next (inSession s 9 fun s =>
    if moveAllowed s (m :: more) then sideReply (post s [.boundaryMove m more]) 9 [] else sideError s 9)

/-! ## Scrubbing (R334) -/

/-- The lines of a stack: 64 GiB of 128 bytes (R33, R240). -/
def stackLines : Nat := 2 ^ 29

/-- The factor of a stack's temperature, in degrees (R334). -/
def tempFactor (t : Nat) : Nat := if t < 70 then 1 else if t < 85 then 2 else if t < 95 then 4 else 8

/-- The factor of the corrected errors of 16 periods (R334). -/
def errFactor (c : Nat) : Nat := if c = 0 then 1 else if c < 16 then 2 else if c < 256 then 4 else 8

/-- The uncorrectable lines that a scrub of `n` lines from the stack's position meets. -/
def scrubHits (s : State) (stack pos n : Nat) : List Nat :=
  (s.poison.filter fun l => l.2 != 0 && l.1 / stackLines == stack && decide ((l.1 % stackLines + stackLines - pos) % stackLines < n)).map (·.1)

/-- An HBM controller scrubs for one activity period (R334): not at all after a period in which the stack served too many demand lines. What its sensor
and its error counter read is not in the machine (log 4). -/
def execScrubPeriod (stack : Nat) (s : State) : Out :=
  if 32 ≤ stack then .next s else
  let k := mapGet {} s.hbm stack
  let temp := Config.freeChoice s.free
  let fixed := Config.freeChoice (s.free + 1)
  let cap := mapGet 512 (getDie s (stack / 4)).budgets (budgetKey 0 .scrub)
  let held := decide (k.share * 81920 < 100 * k.demand)
  let n := if held then 0 else min cap (min 512 (8 * tempFactor temp * errFactor (k.hist.foldl (· + ·) 0)))
  let s1 := (scrubHits s stack k.pos n).foldl (fun s l => logError s (stack / 4) (ueReport (stack / 4) 11 0 0 0 (128 * l))) s
  .next { s1 with free := s.free + 2,
                  hbm := mapSet {} s1.hbm stack { k with pos := (k.pos + n) % stackLines, hist := (fixed :: k.hist).take 16, demand := 0 } }

/-! ## Clocks and cooling (R31, R34) -/

/-- A die's core clock set (R31); its mesh clock goes on from where it stands. -/
def setFreq (s : State) (die f : Nat) : State :=
  let now := meshClock s die
  let cyc := dieCycles s die
  modDie s die fun d => { d with freq := f, clkBase := now, clkCyc := cyc }

/-- FREQUENCY_CHANGE (R31): 0.8 to 2.5 GHz in steps of 100 MHz. -/
def execFrequencyChange (die f : Nat) (s : State) : Out := .next (if die < 8 && 8 ≤ f && f ≤ 25 then setFreq s die f else s)

/-- THERMAL_THROTTLE (R34): the core clock is lowered, by how much is left to the controller (log 4). -/
def execThermalThrottle (die : Nat) (s : State) : Out :=
  let f := (getDie s die).freq
  .next (if die < 8 && 8 < f then setFreq { s with free := s.free + 1 } die (8 + Config.freeChoice s.free % (f - 8)) else s)

/-- THERMAL_SHUTDOWN (R34): the squall line of every partition rises and the side-band port reports; once every partition has stopped, the
compute dies lose power (log 2). -/
def execThermalShutdown (s : State) : Out :=
  if !s.mgmt.shutdown then
    let s1 := (List.range 8).foldl (fun s p => raiseSquall s p { code := 0x11 }) s
    .next (sideReply { s1 with mgmt := { s1.mgmt with shutdown := true } } 0x100 [])
  else if s.agenda.isEmpty then .next ((List.range 8).foldl (fun s d => modDie s d fun k => { k with powered := false }) s)
  else .next s

/-- The management processor as a module reset leaves it (R35, R372). A firmware whose signature does not hold is halted, and a stack, die or link that
fails its tests keeps the module in the management state; the side-band port tells of both. Which of these a bring-up finds is `nextBoot` (log 21). -/
def bootedMgmt (m : Mgmt) : Mgmt :=
  { certs := m.certs, firmware := m.nextImage.getD m.firmware, boot := m.nextBoot, nextBoot := m.nextBoot,
    replies := match m.nextBoot with | .presented => [] | .halted => [(0x101, [])] | .management => [(0x102, [])] }

/-- MODULE_RESET (R35): everything as after bring-up; certificates stay, and a firmware image that was accepted takes effect (R372). -/
def execModuleReset (s : State) : Out :=
  .next { State.reset with free := s.free, reqId := s.reqId, fns := s.fns, links := s.links, mgmt := bootedMgmt s.mgmt }

/-! ## Side-band commands (R342) -/

/-- The code of a partition's state in an answer, in the order of R339. -/
def pstateCode : PState → Nat
  | .running => 0 | .halting => 1 | .halted => 2 | .quiescing => 3 | .quiesced => 4 | .preempting => 5 | .preempted => 6

/-- GetPartitionState (R342): state and CSTAT, then the QSTAT of every queue. -/
def execGetPartitionState (part : Nat) (s : State) : Out :=
  let p := getPart s part
  let qs := (List.range 64).map fun q => (8 * q, (mapGet {} p.queues q).qstat)
  .next (sideReply s 1 [BitVec.ofNat 512 (recordOf [(0, pstateCode p.st), (8, p.cstat)]), BitVec.ofNat 512 (recordOf qs)])

/-- HaltPartition (R342). -/
def execHaltPartition (part : Nat) (s : State) : Out :=
  .next (inSession s 2 fun s => sideReply (raiseSquall s part { code := 0x10 }) 2 [])

/-- ResumePartition (R342). -/
def execResumePartition (part : Nat) (s : State) : Out :=
  .next (inSession s 3 fun s => if (getPart s part).st == .halted then sideReply (resumeHalted s part) 3 [] else sideError s 3)

/-- What ResetPartition leaves of a partition (R342, R361): its queues off and empty, its count of late contributions 0. -/
def queuesReset (s : State) (part : Nat) : State :=
  modPart s part fun p => { p with late := 0, queues := p.queues.map fun q => (q.1, { q.2 with qen := false, head := 0, tail := 0 }) }

/-- ResetPartition (R342): TEARDOWN, and every queue off and empty. -/
def execResetPartition (part : Nat) (s : State) : Out :=
  .next (inSession s 4 fun s =>
    if (getPart s part).tearing then sideReply (queuesReset s part) 4 [] else
    let s1 := tearDown s part
    sideReply (queuesReset (if walksOf s1 part then s1 else tornDown s1 part) part) 4 [])

/-- ReadJournal (R342): NEXT, then up to 32 entries from `n` of those that the ring still holds (R340). -/
def execReadJournal (part n : Nat) (s : State) : Out :=
  let p := getPart s part
  let es := (List.range 32).filterMap fun i => if n + i < p.jnext then p.journal[p.jnext - 1 - (n + i)]? else none
  .next (sideReply s 5 (BitVec.ofNat 512 p.jnext :: es.map fun e => e.setWidth 512))

/-- ReadErrorLog (R342): up to 8 of a die's kept records, counted from the oldest. -/
def execReadErrorLog (die idx : Nat) (s : State) : Out :=
  .next (sideReply s 6 (((getDie s die).errlog.reverse.drop idx).take 8))

/-- ReadDeviceMemory (R342): up to 1 KiB within the partition's share. -/
def execReadDeviceMemory (part pa len : Nat) (s : State) : Out :=
  let as := (List.range len).map fun k => pa + k
  .next (if 1024 < len || as.any fun a => !inShare (getPart s part).lay a || linePoisoned s a then sideError s 7
    else sideReply s 7 (packRecords 16 (as.map (memByte s))))

/-- A budget of a die set, or made unlimited again (R335). -/
def budgetPut (d : Die) (key : Nat) : Option Nat → Die
  | some v => { d with budgets := mapSet (v + 1) d.budgets key v }
  | none => { d with budgets := d.budgets.filter fun b => b.1 != key }

/-- SetBudgets (R342): classes 0 to 5 are those of a partition in the order of R335, 4 that of the die's scrubbers; 6 the scrub share of the die's stacks
(R334), 7 its leave cap (R336). -/
def execSetBudgets (die : Nat) (b : BudgetOf) (val : Option Nat) (s : State) : Out :=
  .next (inSession s 8 fun s =>
    if 8 ≤ b.part || 8 ≤ die || 8 ≤ b.cls then sideError s 8
    else if b.cls = 7 then sideReply (post (modDie s die fun d => { d with leaveCap := val }) [.leaveGrant die]) 8 []
    else if b.cls = 6 then
      sideReply { s with hbm := (List.range 4).foldl (fun m j => mapSet {} m (4 * die + j) { mapGet {} m (4 * die + j) with share := val.getD 80 }) s.hbm } 8 []
    else
      let s1 := modDie s die fun d => budgetPut d (if b.cls = 4 then 4 else 8 * b.part + b.cls) val
      sideReply (post s1 (if (getDie s die).waiting then budgetKicks s1 die else [])) 8 [])

/-- PoisonLine (R344): the line's check bits become uncorrectable, its data bits stay. -/
def execPoisonLine (line : Nat) (s : State) : Out :=
  .next (inSession s 10 fun s =>
    if line % 128 != 0 || !(s.parts.any fun p => inShare p.2.lay line) || regionOf line != .hbm then sideError s 10
    else sideReply { s with poison := mapSet 0 s.poison (line / 128) (BitVec.allOnes 128) } 10 [])

/-! ## Attestation and firmware (R372) -/

/-- The code of an SPDM request at a port. -/
def spdmCode (port k : Nat) : Nat := 0x1000 + 0x100 * port + k

/-- An SPDM request of a port served, where the exchange has come far enough: its answer holds what the spec tells of it, `told`, and a free value for the
rest (logs 4, 21). The physical functions of a module that is not presented to its host answer nothing (R35). -/
def spdmServe (s : State) (port k : Nat) (ok : Bool) (told : List Nat) (f : Spdm → Spdm) : Out :=
  .next (if port != 0 && !presented s then s else if !ok then sideError s (spdmCode port k) else
    let s1 := { s with free := s.free + 1, mgmt := { s.mgmt with spdm := mapSet {} s.mgmt.spdm port (f (spdmOf s port)) } }
    sideReply s1 (spdmCode port k) (told.map (BitVec.ofNat 512) ++ [Config.freeRecord s.free]))

/-- GET_VERSION (R372): an exchange begins anew; the version is 1.2. -/
def execGetVersion (port : Nat) (s : State) : Out := spdmServe s port 0 true [0x12] fun _ => { version := true }

/-- GET_CAPABILITIES (R372). -/
def execGetCapabilities (port : Nat) (s : State) : Out :=
  spdmServe s port 1 (spdmOf s port).version [] fun p => { p with caps := true }

/-- NEGOTIATE_ALGORITHMS (R372): bit 0 of the offer, and of the answer, stands for the one suite that is served: ECDSA and ECDHE on
P-384, SHA-384, AES-256-GCM. -/
def execNegotiateAlgorithms (port algs : Nat) (s : State) : Out :=
  spdmServe s port 2 ((spdmOf s port).caps && algs.testBit 0) [1] fun p => { p with algs := some 1 }

/-- Whether a certificate slot holds a chain (R372). -/
def hasCert (s : State) (slot : Nat) : Bool := decide (slot < 8) && mapGet 0 s.mgmt.certs slot != 0

/-- GET_DIGESTS (R372): the mask of the slots that hold a chain, and their digests. -/
def execGetDigests (port : Nat) (s : State) : Out := spdmServe s port 3 (spdmOf s port).algs.isSome [recordOf ((List.range 8).map fun k => (k, (hasCert s k).toNat))] id

/-- GET_CERTIFICATE (R372). -/
def execGetCertificate (port slot : Nat) (s : State) : Out :=
  spdmServe s port 4 ((spdmOf s port).algs.isSome && hasCert s slot) [mapGet 0 s.mgmt.certs slot] id

/-- CHALLENGE (R372). -/
def execChallenge (port slot : Nat) (s : State) : Out := spdmServe s port 5 ((spdmOf s port).algs.isSome && hasCert s slot) [] id

/-- What a measurement is of (R372): indexes 1 to 3 are of the firmware that runs, as the number of the image by which the model knows it, and index 4
of the partition layout, as four bits for each cluster, 8 plus the partition that owns it or 0; the digest is a free value beside it (log 21). -/
def measured (s : State) (index : Nat) : Nat :=
  if index = 4 then recordOf (s.parts.flatMap fun p => p.2.lay.clusters.map fun k => (4 * k, 8 + p.1)) else s.mgmt.firmware

/-- GET_MEASUREMENTS (R372): indexes 1 to 4. -/
def execGetMeasurements (port index : Nat) (s : State) : Out :=
  spdmServe s port 6 ((spdmOf s port).algs.isSome && decide (1 ≤ index) && decide (index ≤ 4)) [measured s index] id

/-- KEY_EXCHANGE (R372). -/
def execKeyExchange (port : Nat) (s : State) : Out := spdmServe s port 7 (spdmOf s port).algs.isSome [] fun p => { p with keyed := true }

/-- FINISH (R372): the session is open. -/
def execFinish (port : Nat) (s : State) : Out :=
  spdmServe s port 8 (spdmOf s port).keyed [] fun p => { p with keyed := false, session := true }

/-- END_SESSION (R372). -/
def execEndSession (port : Nat) (s : State) : Out :=
  spdmServe s port 9 (spdmOf s port).session [] fun p => { p with session := false }

/-- FIRMWARE_IMAGE_UPDATE (R372): an image with a valid signature is accepted for the next module reset. -/
def execFirmwareImageUpdate (image : Nat) (sigValid : Bool) (s : State) : Out :=
  .next (if sigValid then sideReply { s with mgmt := { s.mgmt with nextImage := some image } } 0x200 [] else sideError s 0x200)

/-- CERTIFICATE_PROVISIONING (R372): slots 1 to 7, over a secured session. -/
def execCertificateProvisioning (port slot chain : Nat) (s : State) : Out :=
  .next (if port != 0 && !presented s then s else if !(spdmOf s port).session || slot = 0 || 8 ≤ slot then sideError s (spdmCode port 10)
    else sideReply { s with mgmt := { s.mgmt with certs := mapSet 0 s.mgmt.certs slot chain } } (spdmCode port 10) [])

end Sys2Proof.Machine
end

