-- ==== Sys2Proof/Machine/Dispatch.lean ====
section
/-! DEFINITION. The dispatch of every operation to its meaning: one arm per constructor of `Instr`. -/
namespace Sys2Proof.Machine

def exec (i : Instr) (s : State) : Host.Outcome State Fault Refusal :=
  match i with
  | .nop c => Sys2Proof.Machine.execNop c s
  | .bra c => Sys2Proof.Machine.execBra c s
  | .bri c => Sys2Proof.Machine.execBri c s
  | .call c => Sys2Proof.Machine.execCall c s
  | .callInd c => Sys2Proof.Machine.execCallInd c s
  | .ret c => Sys2Proof.Machine.execRet c s
  | .exit c => Sys2Proof.Machine.execExit c s
  | .region c => Sys2Proof.Machine.execRegion c s
  | .trap c => Sys2Proof.Machine.execTrap c s
  | .bkpt c => Sys2Proof.Machine.execBkpt c s
  | .sleep c => Sys2Proof.Machine.execSleep c s
  | .yield c => Sys2Proof.Machine.execYield c s
  | .rep cnt xs ys zs ws => Sys2Proof.Machine.execRep cnt xs ys zs ws s
  | .mov c ty => Sys2Proof.Machine.execMov c ty s
  | .sel c ty => Sys2Proof.Machine.execSel c ty s
  | .iadd c sat ty => Sys2Proof.Machine.execIadd c sat ty s
  | .isub c sat ty => Sys2Proof.Machine.execIsub c sat ty s
  | .ineg c sat ty => Sys2Proof.Machine.execIneg c sat ty s
  | .iabs c sat ty => Sys2Proof.Machine.execIabs c sat ty s
  | .imul c ty => Sys2Proof.Machine.execImul c ty s
  | .imulh c ty => Sys2Proof.Machine.execImulh c ty s
  | .imad c ty => Sys2Proof.Machine.execImad c ty s
  | .imin c ty => Sys2Proof.Machine.execImin c ty s
  | .imax c ty => Sys2Proof.Machine.execImax c ty s
  | .idp4 c sat ty => Sys2Proof.Machine.execIdp4 c sat ty s
  | .lea c sh ty => Sys2Proof.Machine.execLea c sh ty s
  | .iset c cc ty => Sys2Proof.Machine.execIset c cc ty s
  | .bsel c => Sys2Proof.Machine.execBsel c s
  | .plop c t => Sys2Proof.Machine.execPlop c t s
  | .and c ty => Sys2Proof.Machine.execAnd c ty s
  | .or c ty => Sys2Proof.Machine.execOr c ty s
  | .xor c ty => Sys2Proof.Machine.execXor c ty s
  | .andn c ty => Sys2Proof.Machine.execAndn c ty s
  | .not c ty => Sys2Proof.Machine.execNot c ty s
  | .ltab c ty => Sys2Proof.Machine.execLtab c ty s
  | .shl c clamp ty => Sys2Proof.Machine.execShl c clamp ty s
  | .shr c clamp ty => Sys2Proof.Machine.execShr c clamp ty s
  | .sar c clamp ty => Sys2Proof.Machine.execSar c clamp ty s
  | .rol c ty => Sys2Proof.Machine.execRol c ty s
  | .bfx c signed ty => Sys2Proof.Machine.execBfx c signed ty s
  | .bfi c ty => Sys2Proof.Machine.execBfi c ty s
  | .popc c ty => Sys2Proof.Machine.execPopc c ty s
  | .clz c ty => Sys2Proof.Machine.execClz c ty s
  | .ctz c ty => Sys2Proof.Machine.execCtz c ty s
  | .brev c ty => Sys2Proof.Machine.execBrev c ty s
  | .fadd c rm ty => Sys2Proof.Machine.execFadd c rm ty s
  | .fsub c rm ty => Sys2Proof.Machine.execFsub c rm ty s
  | .fmul c rm ty => Sys2Proof.Machine.execFmul c rm ty s
  | .ffma c rm ty => Sys2Proof.Machine.execFfma c rm ty s
  | .fmin c nan ty => Sys2Proof.Machine.execFmin c nan ty s
  | .fmax c nan ty => Sys2Proof.Machine.execFmax c nan ty s
  | .fabs c ty => Sys2Proof.Machine.execFabs c ty s
  | .fneg c ty => Sys2Proof.Machine.execFneg c ty s
  | .fdiv c rm ty => Sys2Proof.Machine.execFdiv c rm ty s
  | .fsqrt c rm ty => Sys2Proof.Machine.execFsqrt c rm ty s
  | .frcp c rm ty => Sys2Proof.Machine.execFrcp c rm ty s
  | .frsq c rm ty => Sys2Proof.Machine.execFrsq c rm ty s
  | .fset c cc ty => Sys2Proof.Machine.execFset c cc ty s
  | .fclass c ty => Sys2Proof.Machine.execFclass c ty s
  | .frnd c rm ty => Sys2Proof.Machine.execFrnd c rm ty s
  | .fscl c rm ty => Sys2Proof.Machine.execFscl c rm ty s
  | .cvt c rm ns ty => Sys2Proof.Machine.execCvt c rm ns ty s
  | .cvts c ns ty => Sys2Proof.Machine.execCvts c ns ty s
  | .cvtp c rm ns q ty => Sys2Proof.Machine.execCvtp c rm ns q ty s
  | .cvtx c k ty => Sys2Proof.Machine.execCvtx c k ty s
  | .qb4 c rm => Sys2Proof.Machine.execQb4 c rm s
  | .p2v c => Sys2Proof.Machine.execP2v c s
  | .v2p c => Sys2Proof.Machine.execV2p c s
  | .rds c => Sys2Proof.Machine.execRds c s
  | .smov c ty => Sys2Proof.Machine.execSmov c ty s
  | .vote c k => Sys2Proof.Machine.execVote c k s
  | .shfl c k ty => Sys2Proof.Machine.execShfl c k ty s
  | .lred c op rm ty => Sys2Proof.Machine.execLred c op rm ty s
  | .lsync c => Sys2Proof.Machine.execLsync c s
  | .ld c k ty => Sys2Proof.Machine.execLd c k ty s
  | .ldl c ty => Sys2Proof.Machine.execLdl c ty s
  | .st c ev ty => Sys2Proof.Machine.execSt c ev ty s
  | .stl c ty => Sys2Proof.Machine.execStl c ty s
  | .pf c l1 => Sys2Proof.Machine.execPf c l1 s
  | .atom c op ord ty => Sys2Proof.Machine.execAtom c op ord ty s
  | .atoml c op ord ty => Sys2Proof.Machine.execAtoml c op ord ty s
  | .red c op ord ty => Sys2Proof.Machine.execRed c op ord ty s
  | .fence c k sc => Sys2Proof.Machine.execFence c k sc s
  | .l1inv c => Sys2Proof.Machine.execL1inv c s
  | .wdef c => Sys2Proof.Machine.execWdef c s
  | .wdrop c => Sys2Proof.Machine.execWdrop c s
  | .wstat c => Sys2Proof.Machine.execWstat c s
  | .waitw c cmp => Sys2Proof.Machine.execWaitw c cmp s
  | .tryw c cmp => Sys2Proof.Machine.execTryw c cmp s
  | .bar c level => Sys2Proof.Machine.execBar c level s
  | .lock c => Sys2Proof.Machine.execLock c s
  | .tlock c => Sys2Proof.Machine.execTlock c s
  | .unlock c => Sys2Proof.Machine.execUnlock c s
  | .heir c k dflt => Sys2Proof.Machine.execHeir c k dflt s
  | .prom c => Sys2Proof.Machine.execProm c s
  | .fulf c brk => Sys2Proof.Machine.execFulf c brk s
  | .pwait c => Sys2Proof.Machine.execPwait c s
  | .claim c => Sys2Proof.Machine.execClaim c s
  | .rels c => Sys2Proof.Machine.execRels c s
  | .holdq c => Sys2Proof.Machine.execHoldq c s
  | .step c => Sys2Proof.Machine.execStep c s
  | .lqry c => Sys2Proof.Machine.execLqry c s
  | .mqcf c => Sys2Proof.Machine.execMqcf c s
  | .mqst c => Sys2Proof.Machine.execMqst c s
  | .mldw c wf => Sys2Proof.Machine.execMldw c wf s
  | .mpass c wf af => Sys2Proof.Machine.execMpass c wf af s
  | .zclr c => Sys2Proof.Machine.execZclr c s
  | .zmov c => Sys2Proof.Machine.execZmov c s
  | .zst c t loc rm ns ty => Sys2Proof.Machine.execZst c t loc rm ns ty s
  | .zld c t loc ty => Sys2Proof.Machine.execZld c t loc ty s
  | .mstat c => Sys2Proof.Machine.execMstat c s
  | .mwait c => Sys2Proof.Machine.execMwait c s
  | .bop c op rm ty => Sys2Proof.Machine.execBop c op rm ty s
  | .redt c rm ty => Sys2Proof.Machine.execRedt c rm ty s
  | .bcopy c => Sys2Proof.Machine.execBcopy c s
  | .bfence c => Sys2Proof.Machine.execBfence c s
  | .bgid c mcast => Sys2Proof.Machine.execBgid c mcast s
  | .bgfree c => Sys2Proof.Machine.execBgfree c s
  | .launch c => Sys2Proof.Machine.execLaunch c s
  | .rdclk c => Sys2Proof.Machine.execRdclk c s
  | .groupPromotion core slot => Sys2Proof.Machine.execGroupPromotion core slot s
  | .stallExpiry core slot => Sys2Proof.Machine.execStallExpiry core slot s
  | .sleepEnd core slot => Sys2Proof.Machine.execSleepEnd core slot s
  | .frontierRefill core slot => Sys2Proof.Machine.execFrontierRefill core slot s
  | .loadReply core slot req => Sys2Proof.Machine.execLoadReply core slot req s
  | .storeBufferRelease core blk => Sys2Proof.Machine.execStoreBufferRelease core blk s
  | .sliceOperation t => Sys2Proof.Machine.execSliceOperation t s
  | .windowFill core => Sys2Proof.Machine.execWindowFill core s
  | .windowFillFault core => Sys2Proof.Machine.execWindowFillFault core s
  | .waitWordEvaluation core slot lane => Sys2Proof.Machine.execWaitWordEvaluation core slot lane s
  | .trywTimeout core slot lane => Sys2Proof.Machine.execTrywTimeout core slot lane s
  | .estateWalk die => Sys2Proof.Machine.execEstateWalk die s
  | .successorConveyance part node blk => Sys2Proof.Machine.execSuccessorConveyance part node blk s
  | .hostHoldingStore part pa state value => Sys2Proof.Machine.execHostHoldingStore part pa state value s
  | .neighbourLabelArrival core => Sys2Proof.Machine.execNeighbourLabelArrival core s
  | .matrixGrant cl => Sys2Proof.Machine.execMatrixGrant cl s
  | .matrixFetchDone cl => Sys2Proof.Machine.execMatrixFetchDone cl s
  | .leaveGrant die => Sys2Proof.Machine.execLeaveGrant die s
  | .matrixStreamDone e => Sys2Proof.Machine.execMatrixStreamDone e s
  | .matrixPassComplete cl => Sys2Proof.Machine.execMatrixPassComplete cl s
  | .mldwLoadComplete cl => Sys2Proof.Machine.execMldwLoadComplete cl s
  | .matrixFetchFault cl => Sys2Proof.Machine.execMatrixFetchFault cl s
  | .matrixEngineFreeze cl => Sys2Proof.Machine.execMatrixEngineFreeze cl s
  | .pageWalkComplete die walk => Sys2Proof.Machine.execPageWalkComplete die walk s
  | .pageRequestResponse die walk ok => Sys2Proof.Machine.execPageRequestResponse die walk ok s
  | .redtContributionArrival part => Sys2Proof.Machine.execRedtContributionArrival part s
  | .redtNodeTimeout part ident node => Sys2Proof.Machine.execRedtNodeTimeout part ident node s
  | .meshHop pkt => Sys2Proof.Machine.execMeshHop pkt s
  | .escapeChannelMove pkt => Sys2Proof.Machine.execEscapeChannelMove pkt s
  | .linkFailure l => Sys2Proof.Machine.execLinkFailure l s
  | .nakResend pkt => Sys2Proof.Machine.execNakResend pkt s
  | .messageAccept pkt => Sys2Proof.Machine.execMessageAccept pkt s
  | .receivePortRead core slot lane => Sys2Proof.Machine.execReceivePortRead core slot lane s
  | .blockPlacement part die => Sys2Proof.Machine.execBlockPlacement part die s
  | .activityPeriod die => Sys2Proof.Machine.execActivityPeriod die s
  | .latticeStart part node => Sys2Proof.Machine.execLatticeStart part node s
  | .tileEligible part node tile => Sys2Proof.Machine.execTileEligible part node tile s
  | .downdraft part node => Sys2Proof.Machine.execDowndraft part node s
  | .updraft part node => Sys2Proof.Machine.execUpdraft part node s
  | .tail part q val => Sys2Proof.Machine.execTail part q val s
  | .qen part q on => Sys2Proof.Machine.execQen part q on s
  | .registerWrite part off val => Sys2Proof.Machine.execRegisterWrite part off val s
  | .packetAccept part q => Sys2Proof.Machine.execPacketAccept part q s
  | .launchPacket part q => Sys2Proof.Machine.execLaunchPacket part q s
  | .coll part q => Sys2Proof.Machine.execColl part q s
  | .qfence part q => Sys2Proof.Machine.execQfence part q s
  | .event part q => Sys2Proof.Machine.execEvent part q s
  | .waitsem part q => Sys2Proof.Machine.execWaitsem part q s
  | .waitsemReread part q => Sys2Proof.Machine.execWaitsemReread part q s
  | .signal part q => Sys2Proof.Machine.execSignal part q s
  | .tlbi part q => Sys2Proof.Machine.execTlbi part q s
  | .nodeDone part node => Sys2Proof.Machine.execNodeDone part node s
  | .preempt part => Sys2Proof.Machine.execPreempt part s
  | .resume part => Sys2Proof.Machine.execResume part s
  | .vacate part => Sys2Proof.Machine.execVacate part s
  | .teardown part => Sys2Proof.Machine.execTeardown part s
  | .watchdogExpiry core => Sys2Proof.Machine.execWatchdogExpiry core s
  | .squallRaise part cause => Sys2Proof.Machine.execSquallRaise part cause s
  | .squallArrival part u => Sys2Proof.Machine.execSquallArrival part u s
  | .haltComplete part => Sys2Proof.Machine.execHaltComplete part s
  | .partitionResume part => Sys2Proof.Machine.execPartitionResume part s
  | .remoteFault core => Sys2Proof.Machine.execRemoteFault core s
  | .containment core slot src pa => Sys2Proof.Machine.execContainment core slot src pa s
  | .shadowCompare core slot => Sys2Proof.Machine.execShadowCompare core slot s
  | .scrubPeriod stack => Sys2Proof.Machine.execScrubPeriod stack s
  | .boundaryMove m more => Sys2Proof.Machine.execBoundaryMove m more s
  | .thermalThrottle die => Sys2Proof.Machine.execThermalThrottle die s
  | .thermalShutdown => Sys2Proof.Machine.execThermalShutdown s
  | .frequencyChange die f => Sys2Proof.Machine.execFrequencyChange die f s
  | .moduleReset => Sys2Proof.Machine.execModuleReset s
  | .getPartitionState part => Sys2Proof.Machine.execGetPartitionState part s
  | .haltPartition part => Sys2Proof.Machine.execHaltPartition part s
  | .resumePartition part => Sys2Proof.Machine.execResumePartition part s
  | .resetPartition part => Sys2Proof.Machine.execResetPartition part s
  | .readJournal part n => Sys2Proof.Machine.execReadJournal part n s
  | .readErrorLog die idx => Sys2Proof.Machine.execReadErrorLog die idx s
  | .readDeviceMemory part pa len => Sys2Proof.Machine.execReadDeviceMemory part pa len s
  | .setBudgets die b val => Sys2Proof.Machine.execSetBudgets die b val s
  | .moveBoundary m more => Sys2Proof.Machine.execMoveBoundary m more s
  | .poisonLine line => Sys2Proof.Machine.execPoisonLine line s
  | .bteDescriptorStart part q => Sys2Proof.Machine.execBteDescriptorStart part q s
  | .bteCompletion part q => Sys2Proof.Machine.execBteCompletion part q s
  | .bteStop part q => Sys2Proof.Machine.execBteStop part q s
  | .rdmaWriteArrival part comm src rkey va bytes immd => Sys2Proof.Machine.execRdmaWriteArrival part comm src rkey va bytes immd s
  | .rdmaReadRequest part rkey va len => Sys2Proof.Machine.execRdmaReadRequest part rkey va len s
  | .rdmaAck qp ok => Sys2Proof.Machine.execRdmaAck qp ok s
  | .rdmaRetryTimeout qp => Sys2Proof.Machine.execRdmaRetryTimeout qp s
  | .congestionNotification qp => Sys2Proof.Machine.execCongestionNotification qp s
  | .send part q => Sys2Proof.Machine.execSend part q s
  | .recv part q => Sys2Proof.Machine.execRecv part q s
  | .rrs part q => Sys2Proof.Machine.execRrs part q s
  | .copy part q => Sys2Proof.Machine.execCopy part q s
  | .wait part q => Sys2Proof.Machine.execWait part q s
  | .loop part q => Sys2Proof.Machine.execLoop part q s
  | .next part q => Sys2Proof.Machine.execNext part q s
  | .hostMemoryAccess part pa write len => Sys2Proof.Machine.execHostMemoryAccess part pa write len s
  | .functionLevelReset fn => Sys2Proof.Machine.execFunctionLevelReset fn s
  | .getVersion port => Sys2Proof.Machine.execGetVersion port s
  | .getCapabilities port => Sys2Proof.Machine.execGetCapabilities port s
  | .negotiateAlgorithms port algs => Sys2Proof.Machine.execNegotiateAlgorithms port algs s
  | .getDigests port => Sys2Proof.Machine.execGetDigests port s
  | .getCertificate port slot => Sys2Proof.Machine.execGetCertificate port slot s
  | .challenge port slot => Sys2Proof.Machine.execChallenge port slot s
  | .getMeasurements port index => Sys2Proof.Machine.execGetMeasurements port index s
  | .keyExchange port => Sys2Proof.Machine.execKeyExchange port s
  | .finish port => Sys2Proof.Machine.execFinish port s
  | .endSession port => Sys2Proof.Machine.execEndSession port s
  | .invalidRdmaRequest qp => Sys2Proof.Machine.execInvalidRdmaRequest qp s
  | .rdmaReadResponse qp bytes => Sys2Proof.Machine.execRdmaReadResponse qp bytes s
  | .pfcPause port prio on => Sys2Proof.Machine.execPfcPause port prio on s
  | .firmwareImageUpdate image sigValid => Sys2Proof.Machine.execFirmwareImageUpdate image sigValid s
  | .certificateProvisioning port slot chain => Sys2Proof.Machine.execCertificateProvisioning port slot chain s

end Sys2Proof.Machine
end

