-- ==== Sys2Proof/Machine/Turn.lean ====
section
/-! DEFINITION. The turns of the machine: an event of the agenda, a command that can go on, an issue, or the passing of time (log 2); and the placing of one word
for the next turn. -/
namespace Sys2Proof.Machine

/-- What the passing of time brings to one group, with the cycles until then: the end of a stall or a sleep (R43, R134), of a TRYW (R164), of
a tile's 256 held cycles (R283). -/
def groupTimes (s : State) (core : Nat) (k : Core) (p : Nat × Group) : List (Nat × Instr) :=
  (if p.2.stall != 0 then [(p.2.stall, Instr.stallExpiry core p.1)] else []) ++
  (if p.2.sleep != 0 then [(p.2.sleep, Instr.sleepEnd core p.1)] else []) ++
  (p.2.front.filterMap fun e => match e.st, e.wait with
    | .blocked, some (.word true _ _ _ _ _ since) => some (since + 2048 - k.cyc, Instr.trywTimeout core p.1 (lowLane e.mask))
    | _, _ => none) ++
  (match p.2.nbHold, findNode s p.2.part p.2.node with
   | some c, some n =>
     if mapGet .fresh n.tiles (tileOf n.la p.2) == .resident then
       [(256 - c, Instr.tileEligible p.2.part p.2.node.toNat (tileOf n.la p.2))] else []
   | _, _ => [])

/-- What the passing of time brings to one core, its watchdog's expiry among it (R310). -/
def coreTimes (s : State) (k : Nat × Core) : List (Nat × Instr) :=
  ((k.2.slots.filter fun p => !p.2.raised).flatMap (groupTimes s k.1 k.2)) ++
  (if wdogOf s k.1 != 0 && !k.2.slots.isEmpty then [(wdogOf s k.1 - k.2.wdc, .watchdogExpiry k.1)] else [])

/-- The waits whose word satisfies them, whoever wrote it (R164). -/
def wordsReady (s : State) (k : Nat × Core) : List Instr :=
  k.2.slots.flatMap fun p => p.2.front.flatMap fun e =>
    match e.st, e.wait with
    | .blocked, some (.word _ _ _ cmp ls _ _) =>
      if !p.2.raised && ls.any fun l => !l.loc && l.seen.isNone && (evalLane s k.1 p.2.part cmp l).seen.isSome then
        [Instr.waitWordEvaluation k.1 p.1 (lowLane e.mask)] else []
    | _, _ => []

/-- The ends of the activity periods of the dies at which requests wait for one (R335). -/
def periodTimes (s : State) : List (Nat × Instr) :=
  (s.dies.filter fun d => d.2.waiting).map fun d => (8192 * (d.2.periods + 1) - meshClock s d.1, .activityPeriod d.1)

/-- What happens when nothing can issue: a wait that its word satisfies ends, else the nearest of what time brings (log 2). -/
def idleEvent (s : State) : Option Instr :=
  let live := s.cores.filter (coreRuns s)
  match (live.flatMap (wordsReady s)).head? with
  | some i => some i
  | none => ((live.flatMap (coreTimes s) ++ ((redtTimers s).map fun r => (r.2.1, r.2.2)) ++ periodTimes s).foldl (fun b q => match b with
      | none => some q
      | some r => if q.1 < r.1 then some q else b) none).map (·.2)

/-- Whether a partition runs, is halted or is pre-empted, so that a command or a move that waits may start (R339). -/
def settledPart (p : Part) : Bool := (p.st == .running && !p.squall) || p.st == .halted || p.st == .preempted

/-- The command of a partition that can go on (R304, R308). -/
def commandReady (s : State) (p : Nat × Part) : Option Instr :=
  if p.2.tearing then (if walksOf s p.1 then none else some (.teardown p.1)) else
  if p.2.cstat != 1 then none else
  match p.2.named with
  | some l => if l.any (mayVacate s p.1) || !l.any (occupied s p.1) then some (if p.2.cmd = 1 then .preempt p.1 else .vacate p.1) else none
  | none =>
    if p.2.cmd = 3 then some (.vacate p.1)
    else if settledPart p.2 && p.2.cmd = 1 then some (.preempt p.1)
    else if settledPart p.2 && p.2.cmd = 2 then some (.resume p.1) else none

/-- The boundary move of a partition that can go on: in one of its partitions, or in all together (R338, R339). -/
def moveReady (s : State) (p : Nat × Part) : Option Instr :=
  match p.2.stopMove with
  | some (m :: more) =>
    let q := getPart s p.1
    if (q.st == .running && !q.squall) || (q.st == .quiescing && quiesced s p.1) || (m :: more).all (fun m => stoodStill s m.1) then some (.boundaryMove m more) else none
  | _ => none

/-- What has waited for everything on its way to end: a command, a boundary move, a halt, the power's removal (R304, R308, R338, R339, R34). -/
def pendingEvent (s : State) : Option Instr :=
  match s.parts.findSome? (commandReady s) with
  | some i => some i
  | none => match s.parts.findSome? (moveReady s) with
    | some i => some i
    | none => match s.parts.find? fun p => haltReady s p.1 with
      | some p => some (.haltComplete p.1)
      | none => if s.mgmt.shutdown && !allDark s then some .thermalShutdown else none

/-- The next turn of the machine. -/
def turn (s : State) : Turn :=
  match s.agenda with
  | i :: t => .run i { s with agenda := t, held := [], heldGroups := [] }
  | [] =>
    match pendingEvent s with
    | some i => .run i (unhold s)
    | none =>
    if allDark s then .dark else
    match pick s with
    | some sl => issueTurn s sl
    | none =>
      match idleEvent s with
      | some i => .run i (unhold s)
      | none => .quiet (unhold s)

/-! ## Placing one word for the next turn -/

/-- The record address of the node that `bootWord` places. -/
def bootNode : DWord := 0x3000000000
/-- The code base that `bootWord` places; virtual and physical addresses are the same. -/
def bootCode : DWord := 0x1000000000
/-- The launch record of that node: one block of one group, 768 registers per thread. -/
def bootLaunch : Launch :=
  { code := bootCode, nix := 2, btab := [(0, 0)], levels := [⟨0, 0, 1⟩, ⟨1, 0, 1⟩, ⟨2, 1, 1⟩], regs := 768, regg := 28, locg := 2 }
/-- The group in its entry state (R25, R119). -/
def bootGroup : Group := { part := 0, node := bootNode, front := [{ prio := 0, ix := 0, mask := allLanes, rgn := 0 }] }

/-- A state whose next turn issues a word: one group of a node stands in slot 0 of core 0 at IX 0 of a code page that the
core's TLB maps, and the word stands there. It stands for a launch by the host (log 2). -/
def bootWord (s : State) (w : BitVec 96) : State :=
  let s1 := modPart s 0 fun p => { p with nodes := [{ addr := bootNode, la := bootLaunch, st := 3,
                                                      placed := [{ blk := 0, grp := 0, core := 0, slot := 0 }] }] }
  let s2 := setCore s1 0 { part := 0, node := some bootNode, regg := 28, locg := 2, slots := [(0, bootGroup)],
                           tlb := [{ part := 0, base := 0x1000000000, size := 65536, pte := 0x1000000000 + 0x1F }] }
  memPuts { s2 with agenda := [], sel := none, held := [], heldGroups := [] }
    ((List.range 12).map fun k => (0x1000000000 + k, w.extractLsb' (8 * k) 8))

end Sys2Proof.Machine
end

