-- ==== Sys2Proof/Machine/Step.lean ====
section
/-! DEFINITION. One step of the machine, and the placing of one word where it fetches next. -/
namespace Sys2Proof.Machine

/-- One step: an event of the agenda, an issue, or a quiet turn (log 2). -/
def step (s : State) : Host.Outcome State Fault Refusal :=
  match turn s with
  | .run i s1 => exec i s1
  | .quiet s1 => .next s1
  | .dark => .fault .poweredOff

/-- A state whose next step fetches and runs the instruction whose bits are `w` (log 2). -/
def State.withFetchWord (s : State) (nbits w : Nat) : State := bootWord s (BitVec.ofNat 96 (w % 2 ^ nbits))

end Sys2Proof.Machine
end

