-- ==== Sys2Proof/Safety.lean ====
section
/-! DEFINITION. The terms the statements use: a safe step, an issue that nothing holds back, and what an issue's bookkeeping keeps. -/
namespace Sys2Proof.Machine

/-- A step runs safely when it neither faults nor meets an instruction without a meaning. -/
def Safe (s : State) : Prop := ∃ t, step s = .next t

/-- Taking a program fault is no safety failure: the partition halts in a next state (R314). What this names is that the
group in a slot has raised a cause. -/
def Raised (s : State) (core slot : Nat) : Prop := ∃ g, getGroup s core slot = some g ∧ g.raised = true

/-- A group without what scheduling alone reads and writes: its frontier, hints and counts (R43, R116, R117, R134, R283). -/
def regsOf (g : Group) : Group :=
  { g with front := [], stall := 0, sleep := 0, yld := false, passed := 0, promoted := none, issued := 0, nbHold := none }

/-- A core without its cycle counters and the scheduling of its groups. -/
def coreView (k : Core) : Core := { k with cyc := 0, wdc := 0, slots := k.slots.map fun p => (p.1, regsOf p.2) }

/-- A partition without the residency of lattice tiles (R283). -/
def partView (p : Part) : Part := { p with nodes := p.nodes.map fun n => { n with tiles := [] } }

/-- `t` is `s` but for scheduling: every register, predicate and special register of every group, every core's local memory, windows,
caches, queues and accumulators, all of memory and every other unit stand as they do in `s`. What may differ: frontiers, hints,
cycle counts, tile residency, the agenda and the marks of what waits. -/
def Kept (s t : State) : Prop :=
  (∀ c, coreView (getCore t c) = coreView (getCore s c)) ∧ (∀ p, partView (getPart t p) = partView (getPart s p)) ∧
  t.mem = s.mem ∧ t.poison = s.poison ∧ t.live = s.live ∧ t.clusters = s.clusters ∧ t.dies = s.dies ∧ t.packets = s.packets ∧
  t.failed = s.failed ∧ t.hbm = s.hbm ∧ t.rdma = s.rdma ∧ t.qps = s.qps ∧ t.bteTurn = s.bteTurn ∧ t.ats = s.ats ∧ t.paused = s.paused ∧ t.fns = s.fns ∧
  t.mgmt = s.mgmt ∧ t.irqs = s.irqs ∧ t.wire = s.wire ∧ t.free = s.free ∧ t.reqId = s.reqId

/-- Where a lane stands in a frontier: the IX and the RGN of the entry that holds it (R119, R124). -/
def laneAt (l : List Entry) (lane : Nat) : Option (Word × Word) := (entryOf l lane).map fun e => (e.ix, e.rgn)

/-- Where a lane of the group in a slot stands. -/
def lanePos (s : State) (core slot lane : Nat) : Option (Word × Word) :=
  (getGroup s core slot).bind fun g => laneAt g.front lane

/-- Entries of one frontier share no lane (R119). -/
def Disjoint' (l : List Entry) : Prop := l.Pairwise fun a b => a.mask &&& b.mask = 0

/-- An encoded instruction that nothing holds back at issue: the selection names a live entry, no reply that is out is in its way (R43),
its pair is not too far apart (R128), the checks of R52 pass, the entry has settled where the instruction ends a region (R124), and
every source reads. -/
def Ready (i : Instr) (c : Enc) (s : State) (x : Ctx) (v : Srcs) (left added : List LvEnt) : Prop :=
  ctxOf s c = some x ∧ busy x.g x.e (rulesOf i) c = false ∧ lagging s x = false ∧ issueCheck i c x = none ∧
  (endsNow i c x = true → settled x.g x.e = true) ∧ readAll s x (rulesOf i) c = .ok v left added ∧
  ((rulesOf i).taken && x.g.shadow == .shadow && x.act != 0) = false

end Sys2Proof.Machine
end

