-- ==== Sys2Proof/Certificates/Slice0/Obligations.lean ====
section
/-! DEFINITION. The statements for the provers. What stands above a statement says what it covers: tables of instructions with the value each
computes, and predicates over states. -/
open Sys2Proof Sys2Proof.Machine

/-! # Decoding and the machine as a whole -/

/-- Operand fields with no GN, NW or YLD. -/
def Sys2Proof.Machine.encOf3 (gp : Fin 8) (x y z : Opnd) (stall : Fin 16) (chn : Bool) (imm : Word) : Enc :=
  { gn := false, gp := gp, x := x, nw := false, y := y, z := z, stall := stall, yld := false, chn := chn, imm := imm }

/-- Words written out from the encoding tables of spec/04 decode to what they stand for: the worked encodings of that chapter, and two that the
decoder refuses, an unassigned OP and an FN that R51 does not give (R36, R37, R47, R51, R52). -/
def Obligations.WorkedWordsDecode : Prop :=
  decodeWord (0x12000C04#32 ++ 0x003FF920#32 ++ 0x00000010#32) = .ok (.iadd (encOf3 3 (.v 4) (.v 1) .imm 2 true 16) false .i32) ∧
  decodeWord (0x33011C03#32 ++ 0x00202000#32 ++ 0x00000002#32) = .ok (.ffma (encOf3 7 (.v 3) (.v 1) (.v 4) 0 false 2) .rne .f32) ∧
  decodeWord (0x0F001FB0#32 ++ 0x761D8000#32 ++ 0x00002103#32) = .ok (.rep 3 1 2 0 0) ∧
  decodeWord (0x0B001FB0#32 ++ 0x761D8000#32 ++ 0#32) = .error .reservedOp ∧
  decodeWord (0x00041FB0#32 ++ 0x761D8000#32 ++ 0#32) = .error .illegalFn

/-- The decoder reads back every well-formed instruction from its encoding, whatever its operands and its immediate (R36, R37, R50, R51). -/
def Obligations.DecodeEncode : Prop := ∀ i w, instrWf i = true → encode i = some w → decodeWord w = .ok i

/-- A word that decodes is the encoding of what it decodes to, and that is well-formed: no bit of a word is dropped and no two words stand for
one instruction (R36, R37, R51, R52). -/
def Obligations.EncodeDecode : Prop := ∀ w i, decodeWord w = .ok i → instrWf i = true ∧ encode i = some w

/-- Issue with an empty agenda, no command to go on with, and power: the schedulers select an entry, its word is fetched and decoded, and the
step is that instruction's meaning, under the operand steps of the REP pair the entry stands in (R36, R48, R116, R120). -/
def Obligations.StepRunsDecoded : Prop :=
  ∀ s sl g e n w s1 i, s.agenda = [] → pendingEvent s = none → allDark s = false → pick s = some sl →
    selected { s with sel := some sl } = some (sl, g, e, n) →
    fetchAt { s with sel := some sl } sl.core sl.slot n g.part e.mask (instrIx e) = .word w s1 → decodeWord w = .ok i →
    step s = exec (stepped e i) s1

/-- A word that the decoder refuses: ILLEGAL_INSTRUCTION is taken, charged to the entry that holds the word, which stays at its IX (R52, R53). -/
def Sys2Proof.Machine.Says.UndecodableTraps : Prop :=
  ∀ s sl g e n w s1 err, s.agenda = [] → pendingEvent s = none → allDark s = false → pick s = some sl →
    selected { s with sel := some sl } = some (sl, g, e, n) →
    fetchAt { s with sel := some sl } sl.core sl.slot n g.part e.mask (instrIx e) = .word w s1 → decodeWord w = .error err →
    step s = .next (takeFault (modCore (unhold s1) sl.core tick) sl.core sl.slot e.mask false .illegalInstruction 0 0 n.la.btab)

/-- An event of the agenda is the next turn, before any issue (log 2: the model's own order). -/
def Sys2Proof.Machine.Says.StepRunsAgenda : Prop :=
  ∀ s i l, s.agenda = i :: l → step s = exec i { s with agenda := l, held := [], heldGroups := [] }

/-- Memory keeps its one canonical form, addresses rising and no listed byte equal to what an unlisted one reads as, over every step from every
state that has it (the model's form of the space of R238). -/
def Obligations.StepKeepsMemoryForm : Prop := ∀ s t, memWf s = true → step s = .next t → memWf t = true

/-- After reset memory has the canonical form and lists nothing, no core holds a group, nothing is raised, and every compute die has power
(R34, R35). -/
def Sys2Proof.Machine.Says.ResetIsEmpty : Prop :=
  memWf State.reset = true ∧ State.reset.mem = [] ∧ (∀ c k, getGroup State.reset c k = none) ∧
  (∀ p, (getPart State.reset p).squall = false) ∧ (∀ d, (getDie State.reset d).powered = true) ∧ State.reset.packets = []

/-- A byte that is written reads back, and no other address changes (R3, R238). -/
def Sys2Proof.Machine.Says.MemoryReadsWrites : Prop :=
  ∀ s a b k, memByte (memPut s a b) k = if k = a then b else memByte s k

/-! # Instructions that compute lane by lane -/

namespace Sys2Proof.Machine

/-- What a lane's result is a function of: the issue, its sources, the lane. -/
abbrev LaneFn := Ctx → Srcs → Nat → DWord
/-- A result of source Y. -/
def ofY (f : DWord → DWord) : LaneFn := fun _ v l => f (lane64 v.y l)
/-- A result of sources Y and Z. -/
def ofYZ (f : DWord → DWord → DWord) : LaneFn := fun _ v l => f (lane64 v.y l) (lane64 v.z l)
/-- A result of sources Y, Z and W. -/
def ofYZW (f : DWord → DWord → DWord → DWord) : LaneFn := fun _ v l => f (lane64 v.y l) (lane64 v.z l) (lane64 v.w l)

/-- The integer, logic, shift and bit-field instructions (R81 to R94): operand fields, whether the result is 64 bits wide, and the result. -/
def intFn : Instr → Option (Enc × Bool × LaneFn)
  | .mov c t => if isPort c.x then none else some (c, tyIs64 t, ofY id)
  | .sel c t => some (c, tyIs64 t, fun x v l => if (predRow x.g (numOf (wOpnd c))).getLsbD l then lane64 v.y l else lane64 v.z l)
  | .iadd c sat t => some (c, tyIs64 t, ofYZ (eltOp sat t (· + ·)))
  | .isub c sat t => some (c, tyIs64 t, ofYZ (eltOp sat t (· - ·)))
  | .ineg c sat t => some (c, tyIs64 t, ofYZ (eltOp sat t fun a _ => -a))
  | .iabs c sat t => some (c, tyIs64 t, ofYZ (eltOp sat t fun a _ => (a.natAbs : Int)))
  | .imul c t => some (c, tyIs64 t, ofYZ fun a b => wrapTo t (opVal t a * opVal t b))
  | .imulh c t => some (c, tyIs64 t, ofYZ fun a b => wrapTo t (opVal t a * opVal t b / 2 ^ tyWidth t))
  | .imad c t => some (c, tyIs64 t, ofYZW fun a b d => wrapTo t (opVal t a * opVal t b + opVal t d))
  | .imin c t => some (c, tyIs64 t, ofYZ (eltOp false t fun a b => if a ≤ b then a else b))
  | .imax c t => some (c, tyIs64 t, ofYZ (eltOp false t fun a b => if a ≤ b then b else a))
  | .idp4 c sat t => some (c, tyIs64 t, ofYZW fun a b d =>
      BitVec.ofNat 64 (if sat then satInt (tySigned t) 32 (dot4 t a b d) else wrapInt (dot4 t a b d) 32))
  | .lea c sh t => some (c, tyIs64 t, ofYZ fun a b => wrapTo t ((a.toNat + b.toNat * 2 ^ sh.val : Nat) : Int))
  | .bsel c => if bselOk c.imm then some (c, false, ofYZ fun a b => BitVec.ofNat 64 (bselBytes c.imm a b 4)) else none
  | .and c t => some (c, tyIs64 t, ofYZ fun a b => a &&& b)
  | .or c t => some (c, tyIs64 t, ofYZ fun a b => a ||| b)
  | .xor c t => some (c, tyIs64 t, ofYZ fun a b => a ^^^ b)
  | .andn c t => some (c, tyIs64 t, ofYZ fun a b => a &&& ~~~b)
  | .not c t => some (c, tyIs64 t, ofY fun a => cutTo t (~~~a))
  | .ltab c t => some (c, tyIs64 t, ofYZW fun a b d => cutTo t (ltabOf (c.imm.extractLsb' 10 8).toNat a b d))
  | .shl c cl t => some (c, tyIs64 t, ofYZ fun a b =>
      match shiftCount cl t b with | none => 0 | some n => wrapTo t ((a.toNat * 2 ^ n : Nat) : Int))
  | .shr c cl t => some (c, tyIs64 t, ofYZ fun a b =>
      match shiftCount cl t b with | none => 0 | some n => BitVec.ofNat 64 (a.toNat / 2 ^ n))
  | .sar c cl t => some (c, tyIs64 t, ofYZ fun a b =>
      match shiftCount cl t b with
      | none => wrapTo t (if opVal t a < 0 then -1 else 0)
      | some n => wrapTo t (opVal t a / 2 ^ n))
  | .rol c t => some (c, tyIs64 t, ofYZ fun a b =>
      wrapTo t ((a.toNat * 2 ^ (b.toNat % 2 ^ 32 % tyWidth t) +
        a.toNat % 2 ^ tyWidth t / 2 ^ (tyWidth t - b.toNat % 2 ^ 32 % tyWidth t) : Nat) : Int))
  | .bfx c sg t => some (c, tyIs64 t, ofYZ fun a z =>
      if (fieldOf t z).2 = 0 then 0 else wrapTo t (intVal sg (fieldOf t z).2 (a.toNat / 2 ^ (fieldOf t z).1)))
  | .bfi c t => some (c, tyIs64 t, ofYZW fun a z d =>
      (d &&& ~~~(BitVec.ofNat 64 ((2 ^ (fieldOf t z).2 - 1) * 2 ^ (fieldOf t z).1))) |||
      (BitVec.ofNat 64 (a.toNat * 2 ^ (fieldOf t z).1) &&& BitVec.ofNat 64 ((2 ^ (fieldOf t z).2 - 1) * 2 ^ (fieldOf t z).1)))
  | .popc c t => some (c, tyIs64 t, ofY fun a => BitVec.ofNat 64 ((bitsOf (tyWidth t) a).count true))
  | .clz c t => some (c, tyIs64 t, ofY fun a => BitVec.ofNat 64 (((bitsOf (tyWidth t) a).reverse.takeWhile (!·)).length))
  | .ctz c t => some (c, tyIs64 t, ofY fun a => BitVec.ofNat 64 (((bitsOf (tyWidth t) a).takeWhile (!·)).length))
  | .brev c t => some (c, tyIs64 t, ofY fun a => BitVec.ofNat 64 ((bitsOf (tyWidth t) a).foldl (fun acc b => 2 * acc + b.toNat) 0))
  | _ => none

/-- The floating-point instructions and conversions without a draw (R100 to R112). -/
def floatFn : Instr → Option (Enc × Bool × LaneFn)
  | .fadd c rm t => some (c, false, ofYZ fun a b => enc64 (numAdd (fmtOf t) rm (fval t a) (fval t b)))
  | .fsub c rm t => some (c, false, ofYZ fun a b => enc64 (numAdd (fmtOf t) rm (fval t a) (numNeg (fval t b))))
  | .fmul c rm t => some (c, false, ofYZ fun a b => enc64 (numRound (fmtOf t) rm (numMulExact (fval t a) (fval t b))))
  | .ffma c rm t => some (c, false, ofYZW fun a b d => enc64 (numFma (fmtOf t) rm (fval t a) (fval t b) (fval t d)))
  | .fmin c nan t => some (c, tyIs64 t, ofYZ fun a b => enc64 (minmaxEnc (fmtOf t) false nan a.toNat b.toNat))
  | .fmax c nan t => some (c, tyIs64 t, ofYZ fun a b => enc64 (minmaxEnc (fmtOf t) true nan a.toNat b.toNat))
  | .fabs c t => some (c, tyIs64 t, ofY fun a => enc64 (a.toNat % 2 ^ (fmtWidth (fmtOf t) - 1)))
  | .fneg c t => some (c, tyIs64 t, ofY fun a => enc64 ((a.toNat % 2 ^ fmtWidth (fmtOf t)) ^^^ 2 ^ (fmtWidth (fmtOf t) - 1)))
  | .fdiv c rm t => some (c, false, ofYZ fun a b => enc64 (numDiv (fmtOf t) rm (fval t a) (fval t b)))
  | .fsqrt c rm t => some (c, false, ofY fun a => enc64 (numSqrt (fmtOf t) rm (fval t a)))
  | .frcp c rm t => some (c, false, ofY fun a => enc64 (numRcp (fmtOf t) rm (fval t a)))
  | .frsq c rm t => some (c, false, ofY fun a => enc64 (numRsq (fmtOf t) rm (fval t a)))
  | .fclass c t => some (c, false, ofY fun a => enc64 (2 ^ classBit (fmtOf t) (fval t a)))
  | .frnd c rm t => some (c, false, ofY fun a => enc64 (numRint (fmtOf t) rm (fval t a)))
  | .fscl c rm t => some (c, tyIs64 t, ofYZ fun a b => enc64 (numScale (fmtOf t) rm (fval t a) (intVal true 32 b.toNat)))
  | .cvt c rm ns t => some (c, tyIs64 t, ofY (cvtOf rm ns t (cvtSrcTy c)))
  | .cvtp c rm ns q t => some (c, false, fun x v l =>
      enc64 (putElt t (putElt t (vlane x.g (numOf c.x) l).toNat (2 * q.val) (packElt rm ns t (lane64 v.y l))) (2 * q.val + 1)
        (packElt rm ns t (lane64 v.z l))))
  | .cvtx c k t => some (c, tyIs64 t, ofY (cvtxOf t k.val))
  | .qb4 c rm => some (c, false, fun x v l => enc64 ((List.range 8).foldl
      (fun acc k => acc + qb4Elt rm (lane64 v.z l) (lane64 v.w l) (vlane x.g (numOf c.y + k) l) * 2 ^ (4 * k)) 0))
  | _ => none

/-- The instructions that move values between lanes, predicates, status and registers (R95, R96, R136 to R139). -/
def moveFn : Instr → Option (Enc × Bool × LaneFn)
  | .p2v c => some (c, false, fun x _ l => (predWord x.g l).setWidth 64)
  | .rds c => if 9 < c.imm.toNat || (c.imm.toNat == 5 && isScalar c.x) then none
      else some (c, false, fun x _ l => BitVec.ofNat 64 (rdsVal x c.imm.toNat l))
  | .smov c t => some (c, tyIs64 t, fun x v _ => lane64 v.y (lowLane x.act))
  | .vote c .mask => some (c, true, fun x _ _ => voteMask x c)
  | .shfl c k t => some (c, tyIs64 t, fun x v l => match shflLane k l (loWord (lane64 v.z l)) with
      | some j => if x.act.getLsbD j then lane64 v.y j else lane64 v.y l
      | none => lane64 v.y l)
  | .lred c op rm t => some (c, tyIs64 t, fun x v _ => lredOf op rm t x.act (lane64 v.y))
  | _ => none

/-- The instructions that write one predicate (R87, R88, R104, R137). -/
def predFn : Instr → Option (Enc × (Ctx → Srcs → Nat → Bool))
  | .iset c cc t => some (c, fun _ v l => iccHolds cc (opVal t (lane64 v.y l)) (opVal t (lane64 v.z l)))
  | .plop c t => some (c, fun x _ l => tableBit t ((predRow x.g (numOf c.y)).getLsbD l) ((predRow x.g (numOf c.z)).getLsbD l))
  | .fset c cc t => some (c, fun _ v l => fccHolds cc (fval t (lane64 v.y l)) (fval t (lane64 v.z l)))
  | .vote _ .mask => none
  | .vote c k => some (c, fun x _ _ => voteBit k x.act (voteMask x c))
  | _ => none

/-- What reading an issue's sources leaves besides their values: the packet a receive port gave is gone, and the values of a redundant pair's
queues have moved on; where the instruction's result is one of those, a leader's shadow gets it (R128, R271). With no port among the sources
and no pair, nothing. -/
def sourced (x : Ctx) (i : Instr) (c : Enc) (left added : List LvEnt) (r : Row64) (s : State) : State :=
  let s1 := commitSources x (rulesOf i) c left added s
  if (rulesOf i).taken && x.act != 0 then lvPush s1 x.core x.slot x.g.shadow { ix := instrIx x.e, act := x.act, val := r } else s1

/-- An instruction that computes a row completes: its destination takes the row in the lanes of `act`, and everything but scheduling is kept. -/
def Computes (i : Instr) (c : Enc) (wide : Bool) (f : LaneFn) : Prop :=
  ∀ s x v left added, Ready i c s x v left added →
    ∃ t, exec i s = .next t ∧
      Kept (sourced x i c left added (rowOf (f x v)) (writeDst x c.x wide c.nw (rowOf (f x v)) s)) t

end Sys2Proof.Machine

/-- Integer, logic, shift and bit-field instructions that are ready complete: X takes the value of the table in the lanes of `act`, and nothing
else changes but scheduling (R7, R42, R81 to R94). -/
def Obligations.IntegerComputes : Prop := ∀ i c wide f, intFn i = some (c, wide, f) → Computes i c wide f

/-- Floating-point instructions and conversions that are ready complete likewise (R100 to R112). -/
def Sys2Proof.Machine.Says.FloatComputes : Prop := ∀ i c wide f, floatFn i = some (c, wide, f) → Computes i c wide f

/-- CVTS completes: the call count of every lane of `act` goes up by one, and X takes the value rounded by the lane's draw (R67, R68, R109). -/
def Sys2Proof.Machine.Says.StochasticConversion : Prop :=
  ∀ c ns ty s x v left added, Ready (.cvts c ns ty) c s x v left added →
    ∃ t, exec (.cvts c ns ty) s = .next t ∧
      Kept (commitSources x (rulesOf (.cvts c ns ty)) c left added (writeDst x c.x false c.nw
        (rowOf fun l => enc64 (srndEnc (fmtOf ty) ns (laneDraw x l) (fval .f32 (lane64 v.y l))))
        (modGroup s x.core x.slot (countCalls x.act)))) t

/-- Instructions that move values between lanes, predicates, status and registers complete likewise (R95, R96, R136 to R139). -/
def Sys2Proof.Machine.Says.LaneMovesComplete : Prop := ∀ i c wide f, moveFn i = some (c, wide, f) → Computes i c wide f

/-- ISET, FSET, PLOP and the predicate forms of VOTE complete: the predicate that X names takes the table's bit in the lanes of `act`, unless
NW suppresses it, and nothing else changes but scheduling (R78, R87, R88, R104, R137). -/
def Sys2Proof.Machine.Says.PredicatesCompute : Prop :=
  ∀ i c f, predFn i = some (c, f) → ∀ s x v left added, Ready i c s x v left added →
    ∃ t, exec i s = .next t ∧
      Kept (commitSources x (rulesOf i) c left added
        (if c.nw then s else modGroup s x.core x.slot fun g => predGroup g (numOf c.x) x.act (maskOf (f x v)))) t

/-- V2P completes: for every k, predicate k takes bit k of Y in the lanes of `act` whose mask bit k of Z is set (R95). -/
def Sys2Proof.Machine.Says.PredicatesFromRegister : Prop :=
  (∀ c s x v left added, Ready (.v2p c) c s x v left added →
    ∃ t, exec (.v2p c) s = .next t ∧
      Kept (commitSources x (rulesOf (.v2p c)) c left added (if c.nw then s else modGroup s x.core x.slot (v2pGroup x.act v.y v.z))) t) ∧
  (∀ act y z g k l, k < 7 → l < 64 →
    (predRow (v2pGroup act y z g) k).getLsbD l =
      (if act.getLsbD l && (lane64 z l).getLsbD k then (lane64 y l).getLsbD k else (predRow g k).getLsbD l)) ∧
  (∀ act y z g, predRow (v2pGroup act y z g) 7 = allLanes ∧ (v2pGroup act y z g).vregs = g.vregs ∧ (v2pGroup act y z g).sregs = g.sregs)

/-! # Where a result goes -/

/-- A vector destination takes each lane's own result in the lanes of `act` and keeps its other lanes; a wide one takes the high halves in the
next register; no other register changes (R7, R40, R42, R54). -/
def Sys2Proof.Machine.Says.VectorDestination : Prop :=
  ∀ g n wide m r,
    (∀ l, l < 64 → vlane (dstGroup g (.v n) wide m r) n.val l = if m.getLsbD l then (lane64 r l).setWidth 32 else vlane g n.val l) ∧
    (∀ l, l < 64 → vlane (dstGroup g (.v n) wide m r) (n.val + 1) l =
      if wide && m.getLsbD l then (lane64 r l).extractLsb' 32 32 else vlane g (n.val + 1) l) ∧
    (∀ k, k ≠ n.val → k ≠ n.val + 1 → vreg (dstGroup g (.v n) wide m r) k = vreg g k) ∧
    { dstGroup g (.v n) wide m r with vregs := [] } = { g with vregs := [] }

/-- A scalar destination takes the result of the lowest lane of `act` once, and nothing when `act` is empty (R42, R77). -/
def Sys2Proof.Machine.Says.ScalarDestination : Prop :=
  ∀ g n wide m r, (m = 0 → dstGroup g (.s n) wide m r = g) ∧
    (m ≠ 0 → sreg (dstGroup g (.s n) wide m r) n.val = (lane64 r (lowLane m)).setWidth 32 ∧
      sreg (dstGroup g (.s n) wide m r) (n.val + 1) =
        (if wide then (lane64 r (lowLane m)).extractLsb' 32 32 else sreg g (n.val + 1)) ∧
      (∀ k, k ≠ n.val → k ≠ n.val + 1 → sreg (dstGroup g (.s n) wide m r) k = sreg g k) ∧
      { dstGroup g (.s n) wide m r with sregs := [] } = { g with sregs := [] })

/-- A predicate takes its bits in the lanes of `act` and keeps the others; a write to p7 is discarded, and p7 reads 1 in every lane (R8, R75). -/
def Sys2Proof.Machine.Says.PredicateDestination : Prop :=
  ∀ g k m b, predRow g 7 = allLanes ∧ predGroup g 7 m b = g ∧
    (k ≠ 7 → predRow (predGroup g k m b) k = (predRow g k &&& ~~~m) ||| (b &&& m)) ∧
    (∀ j, j ≠ k → predRow (predGroup g k m b) j = predRow g j) ∧ { predGroup g k m b with preds := [] } = { g with preds := [] }

/-- The write of a destination touches one group alone: every other group, every core's other state and all of memory are as before; NW writes
nothing (R7, R42). -/
def Sys2Proof.Machine.Says.DestinationFrame : Prop :=
  ∀ x o wide nw r s,
    (nw = true → writeDst x o wide nw r s = s) ∧
    (∀ c k, (c, k) ≠ (x.core, x.slot) → getGroup (writeDst x o wide nw r s) c k = getGroup s c k) ∧
    (∀ g, getGroup s x.core x.slot = some g → nw = false →
      getGroup (writeDst x o wide nw r s) x.core x.slot = some (dstGroup g o wide x.act r)) ∧
    (∀ a, memByte (writeDst x o wide nw r s) a = memByte s a) ∧
    (∀ c, { getCore (writeDst x o wide nw r s) c with slots := [] } = { getCore s c with slots := [] }) ∧
    { writeDst x o wide nw r s with cores := [] } = { s with cores := [] }

/-- With no receive port among the sources and no redundant pair, the sources leave nothing behind (R7, R128, R271). -/
def Sys2Proof.Machine.Says.SourcesAreReadOnly : Prop :=
  ∀ x i c left added r s, portOf (rulesOf i) c = none → x.g.shadow = .none → sourced x i c left added r s = s

/-! # Where an issue leaves its lanes -/

namespace Sys2Proof.Machine

/-- The operand fields of the instructions that complete in one issue with a result or none: the tables above, V2P, CVTS and NOP. -/
def plainEnc (i : Instr) : Option Enc :=
  match i with
  | .nop c | .v2p c | .cvts c _ _ => some c
  | i => match intFn i, floatFn i, moveFn i, predFn i with
    | some p, _, _, _ => some p.1
    | _, some p, _, _ => some p.1
    | _, _, some p, _ => some p.1
    | _, _, _, some p => some p.1
    | _, _, _, _ => none

/-- Where the lanes of an issue stand afterwards: those of the entry at `f`, every other lane of the group where it stood. -/
def LanesMoved (t : State) (x : Ctx) (f : Nat → Option (Word × Word)) : Prop :=
  ∀ l, l < 64 → lanePos t x.core x.slot l = if x.e.mask.getLsbD l then f l else laneAt x.g.front l

/-- The control transfers (R129): the IX that a lane of `act` gets. -/
def targetFn : Instr → Option (Enc × (Srcs → Nat → Word))
  | .bra c => some (c, fun _ _ => c.imm)
  | .bri c | .ret c => some (c, fun v l => loWord (lane64 v.y l))
  | .call c => some (c, fun _ _ => c.imm)
  | .callInd c => some (c, fun v l => loWord (lane64 v.y l))
  | _ => none

/-- Whether a transfer writes the return IX to X. -/
def links : Instr → Bool
  | .call _ | .callInd _ => true
  | _ => false

end Sys2Proof.Machine

/-- NOP, whatever its tag, completes and changes nothing but scheduling: its entry goes to IX + 1, or, under REP, to the next iteration. A field other
than 944 in X, Y or Z raises ILLEGAL_OPERAND, and the all-zero word is such a NOP (R132). -/
def Obligations.NopCompletes : Prop :=
  (∀ c s x v left added, Ready (.nop c) c s x v left added →
    ∃ t, exec (.nop c) s = .next t ∧ Kept (sourced x (.nop c) c left added zeroRow s) t ∧
      (Disjoint' x.g.front → x.e.rep = none → LanesMoved t x fun _ => some (x.e.ix + 1, x.e.rgn)) ∧
      (∀ rc, Disjoint' x.g.front → x.e.rep = some rc → x.e.repi < rc.last → LanesMoved t x fun _ => some (x.e.ix, x.e.rgn))) ∧
  (∀ c x, (c.x ≠ .zero ∨ c.y ≠ .zero ∨ c.z ≠ .zero) → instrWf (.nop c) = true → chnIllegal (.nop c) c = false →
    issueCheck (.nop c) c x = some .illegalOperand) ∧
  decodeWord 0 = .ok (.nop { gn := false, gp := 0, x := .v 0, nw := false, y := .v 0, z := .v 0, stall := 0, yld := false, chn := false, imm := 0 })

/-- Outside a REP pair, an instruction that completes in one issue moves every lane of its entry to IX + 1, inside `act` or not, and keeps RGN
unless it ends a region, when RGN is IX + 1 as well; the group then stands still for STALL cycles, and 4 more for each entry that its frontier, with this entry
advanced, newly spills, none while it has 16 at most (R43, R121, R123, R124). -/
def Sys2Proof.Machine.Says.NextInstruction : Prop :=
  ∀ i c s x v left added, plainEnc i = some c → Ready i c s x v left added → x.e.rep = none → Disjoint' x.g.front →
    ∃ t h nc item, exec i s = .next t ∧ getGroup t x.core x.slot = some h ∧
      (let l := modEntry (x.g.front.map (clearDue x.e.mask)) x.e.mask (advance x.node.la.btab nc c (endsRegion i c) (endsNow i c x) item)
       h.front = tidyFront l ∧ h.stall = c.stall.val + spillCost l) ∧
      (x.g.front.length ≤ 16 → h.stall = c.stall.val) ∧
      LanesMoved t x fun _ => some (x.e.ix + 1, if endsNow i c x then x.e.ix + 1 else x.e.rgn)

/-- BRA, BRI, CALL and RET complete: they move each lane of `act` to its own target and the entry's other lanes to IX + 1, with RGN inherited; CALL writes IX + 1
to X in the lanes of `act`; everything else is kept (R121, R129). -/
def Obligations.TransfersMoveLanes : Prop :=
  ∀ i c f s x v left added, targetFn i = some (c, f) → Ready i c s x v left added →
    ∃ t, exec i s = .next (commitSources x (rulesOf i) c left added t) ∧
      Kept (if links i then writeDst x c.x false c.nw (rowOf fun _ => (x.e.ix + 1).setWidth 64) s else s) t ∧
      (Disjoint' x.g.front → LanesMoved t x fun l => some (if x.act.getLsbD l then f v l else x.e.ix + 1, x.e.rgn))

/-- REGION completes: it moves the entry to IX + 1 and makes its own IX the entry's RGN, whatever `act` holds; no register or memory changes (R124, R131). -/
def Sys2Proof.Machine.Says.RegionOpens : Prop :=
  ∀ c s x v left added, Ready (.region c) c s x v left added →
    ∃ t, exec (.region c) s = .next (commitSources x (rulesOf (.region c)) c left added t) ∧ Kept s t ∧
      (Disjoint' x.g.front → LanesMoved t x fun _ => some (x.e.ix + 1, x.e.ix))

/-- SLEEP completes: it moves the entry on, and with a non-empty `act` holds the whole group for the count, at most 1,048,575 cycles (R134). -/
def Sys2Proof.Machine.Says.SleepSuspends : Prop :=
  ∀ c s x v left added, Ready (.sleep c) c s x v left added →
    ∃ t h, exec (.sleep c) s = .next (commitSources x (rulesOf (.sleep c)) c left added t) ∧ Kept s t ∧
      getGroup t x.core x.slot = some h ∧ (x.act ≠ 0 → h.sleep = min ((lane64 v.y 0).setWidth 32).toNat 1048575) ∧
      (x.e.rep = none → Disjoint' x.g.front → LanesMoved t x fun _ => some (x.e.ix + 1, x.e.rgn))

/-- YIELD completes: it moves the entry to IX + 1, whatever `act` holds, and the group's next selection prefers another group (R116, R135). -/
def Sys2Proof.Machine.Says.YieldMovesOn : Prop :=
  ∀ c s x v left added, Ready (.yield c) c s x v left added →
    ∃ t h, exec (.yield c) s = .next (commitSources x (rulesOf (.yield c)) c left added t) ∧ Kept s t ∧
      getGroup t x.core x.slot = some h ∧ h.yld = true ∧ (Disjoint' x.g.front → LanesMoved t x fun _ => some (x.e.ix + 1, x.e.rgn))

/-- A YIELDED entry is LIVE again exactly when no other LIVE entry is left among those it waits on, each of which leaves that set at its issue
(R122, R135; which entries it waits on is the model's choice, log 63). -/
def Sys2Proof.Machine.Says.YieldWaitsForOthers : Prop :=
  (∀ l e, e ∈ l → e.st = .yielded →
    ((∀ o ∈ l, o.mask ≠ e.mask → o.st = .live → o.mask &&& e.due = 0) → { e with st := .live, due := 0 } ∈ unyield l) ∧
    ((∃ o ∈ l, o.mask ≠ e.mask ∧ o.st = .live ∧ o.mask &&& e.due ≠ 0) → e ∈ unyield l)) ∧
  (∀ m e, e.st = .yielded → m &&& (clearDue m e).due = 0)

/-- EXIT of a part of its group completes: the lanes of `act` leave the frontier, the entry's others move to IX + 1 with a region ended, and while some
entry remains and none waits at an LSYNC nothing else changes (R124, R130). -/
def Sys2Proof.Machine.Says.ExitRemovesLanes : Prop :=
  ∀ c s x v left added, Ready (.exit c) c s x v left added → (x.node.la.dims = 0 ∨ x.act = 0) →
    (∀ e ∈ x.g.front, syncing e = false) → (∃ l, l < 64 ∧ (laneAt x.g.front l).isSome = true ∧ x.act.getLsbD l = false) → Disjoint' x.g.front →
    ∃ t, exec (.exit c) s = .next (commitSources x (rulesOf (.exit c)) c left added t) ∧ Kept s t ∧
      LanesMoved t x fun l => if x.act.getLsbD l then none else some (x.e.ix + 1, if x.act = 0 then x.e.rgn else x.e.ix + 1)

/-- EXIT completes whenever it removes all lanes of its tile or no lattice's: the lanes of `act` have left the group's frontier, in every launch, with
or without holdings (R130, R177). -/
def Sys2Proof.Machine.Says.ExitCompletes : Prop :=
  ∀ c s x v left added, Ready (.exit c) c s x v left added → exitPartial x = false → Disjoint' x.g.front →
    ∃ t, exec (.exit c) s = .next t ∧ ∀ l, l < 64 → x.act.getLsbD l = true → lanePos t x.core x.slot l = none

/-- EXIT completes with the last lanes of a group that holds nothing and whose stores have drained: its slot is freed, the node counts it as exited, and the registers of every other group
and all of memory stay (R130). -/
def Sys2Proof.Machine.Says.ExitFreesTheSlot : Prop :=
  ∀ c s x v left added, Ready (.exit c) c s x v left added → x.node.la.dims = 0 → x.node.la.estn = 0 → x.g.shadow = .none →
    x.g.front = [x.e] → x.act = x.e.mask → x.act ≠ 0 → storesLeft s x.core x.slot x.g = false →
    beingConveyed s x.g.part x.g.node x.g.blk x.g.grp = false → leavingNow s x.core x.slot = false →
    ∃ t, exec (.exit c) s = .next t ∧ getGroup t x.core x.slot = none ∧ t.mem = s.mem ∧
      ((x.node.placed.any fun p => p.blk == x.g.blk && p.grp == x.g.grp) = true →
        ∃ n, findNode t x.g.part x.g.node = some n ∧ groupGone n x.g.blk x.g.grp = true) ∧
      (∀ d k, (d, k) ≠ (x.core, x.slot) → (getGroup t d k).map regsOf = (getGroup s d k).map regsOf)

/-- TRAP and BKPT complete: the entry moves to IX + 1 and ends its region, and the fault is taken there with IMM as its code (R133, R314). -/
def Sys2Proof.Machine.Says.TrapRaisesSoftware : Prop :=
  ∀ i k c s x v left added, (i = .trap c ∧ k = .software ∨ i = .bkpt c ∧ k = .breakpoint) → Ready i c s x v left added →
    x.act ≠ 0 → x.g.shadow ≠ .shadow → x.e.rep = none → Disjoint' x.g.front →
    ∃ u g e, Kept s u ∧ LanesMoved u x (fun _ => some (x.e.ix + 1, x.e.ix + 1)) ∧ getGroup u x.core x.slot = some g ∧
      entryOf g.front (lowLane x.act) = some e ∧
      exec i s = .next (commitSources x (rulesOf i) c left added (takeFault u x.core x.slot e.mask false k 0 c.imm x.node.la.btab))

/-- TRAP and BKPT with an empty `act`, and those of a pair's shadow, raise nothing and move the entry on (R133; that a
shadow raises nothing is the model's reading, logs 16 and 53). -/
def Sys2Proof.Machine.Says.EmptyTrapMovesOn : Prop :=
  ∀ i c s x v left added, (i = .trap c ∨ i = .bkpt c) → Ready i c s x v left added → (x.act = 0 ∨ x.g.shadow = .shadow) →
    ∃ u, exec i s = .next (commitSources x (rulesOf i) c left added u) ∧ Kept s u ∧
      (x.e.rep = none → Disjoint' x.g.front → LanesMoved u x fun _ => some (x.e.ix + 1, if x.act = 0 then x.e.rgn else x.e.ix + 1))

/-- LSYNC completes at once where its mask is exactly the lanes of its entry, all of them act and nobody else of the group waits at one: they go on at IX + 1
with a region begun there, and no register and no memory changes (R124, R140). -/
def Sys2Proof.Machine.Says.LaneSyncCompletes : Prop :=
  ∀ c s x v left added, Ready (.lsync c) c s x v left added → x.act ≠ 0 → x.act = x.e.mask → lane64 v.y 0 = x.e.mask → x.e.rep = none →
    Disjoint' x.g.front → (∀ e ∈ x.g.front, syncing e = false) →
    ∃ t, exec (.lsync c) s = .next (commitSources x (rulesOf (.lsync c)) c left added t) ∧ Kept s t ∧
      LanesMoved t x fun _ => some (x.e.ix + 1, x.e.ix + 1)

/-- LSYNC with a good mask completes its issue: its lanes wait at this IX with that mask, or are joined at once; no register and no memory changes (R140). -/
def Sys2Proof.Machine.Says.LaneSyncWaits : Prop :=
  ∀ c s x v left added l, Ready (.lsync c) c s x v left added → x.act ≠ 0 → lane64 v.y 0 ≠ 0 → x.act &&& ~~~(lane64 v.y 0) = 0 →
    (∀ e ∈ x.g.front, syncing e = true → syncLanes e &&& lane64 v.y 0 ≠ 0 → syncMask e = lane64 v.y 0) →
    syncCheck x.node.la.btab x.g.ncall (syncFront x (lane64 v.y 0)) = .front l →
    ∃ t h, exec (.lsync c) s = .next (commitSources x (rulesOf (.lsync c)) c left added t) ∧ Kept s t ∧
      getGroup t x.core x.slot = some h ∧ h.front = tidyFront l

/-- A mask that is 0, that leaves out a lane of `act`, or that differs from the mask a lane of it already waits with: MEMBERSHIP (R140). -/
def Sys2Proof.Machine.Says.LaneSyncMembership : Prop :=
  ∀ c s x v left added, Ready (.lsync c) c s x v left added → x.act ≠ 0 →
    (lane64 v.y 0 = 0 ∨ x.act &&& ~~~(lane64 v.y 0) ≠ 0 ∨
      ∃ e ∈ x.g.front, syncing e = true ∧ syncLanes e &&& lane64 v.y 0 ≠ 0 ∧ syncMask e ≠ lane64 v.y 0) →
    exec (.lsync c) s = .next (trapIssue x .membership 0 s)

/-- The lanes that wait with a mask, once it is complete and they stand at one IX outside a REP pair, form one entry at IX + 1 with RGN there; no
other lane moves (R140). -/
def Sys2Proof.Machine.Says.LaneSyncJoins : Prop :=
  ∀ btab nc l m a t k, l.filter (syncsOn m) = a :: t → a.rep = none → Disjoint' l → k < 64 →
    laneAt (syncJoin btab nc l m) k =
      if (a :: t).any (fun e => e.mask.getLsbD k) then some (a.ix + 1, a.ix + 1) else laneAt l k

/-! # REP and chains -/

/-- REP completes: it starts its pair when the checks of every iteration pass: the entry stands in the pair at index 0, at the same IX,
its chain kept, which is the model's choice (R47, R48, R52; log 64). -/
def Sys2Proof.Machine.Says.RepStarts : Prop :=
  ∀ cnt xs ys zs ws s sl g e n w s1 i, selected s = some (sl, g, e, n) →
    fetchAt s sl.core sl.slot n g.part e.mask (e.ix + 1) = .word w s1 → decodeWord w = .ok i → e.rep = none →
    repCheck n.la { last := cnt.val, xs := xs, ys := ys, zs := zs, ws := ws } e.chain.length i = none →
    exec (.rep cnt xs ys zs ws) s = .next (modGroup (unhold s1) sl.core sl.slot fun g =>
      { g with front := modEntry g.front e.mask fun e =>
          { e with rep := some { last := cnt.val, xs := xs, ys := ys, zs := zs, ws := ws }, repi := 0 } })

/-- REP before an instruction that fails a check of R52 in any iteration: the fault is taken with no iteration performed (R48, R52). -/
def Sys2Proof.Machine.Says.RepChecksFail : Prop :=
  ∀ cnt xs ys zs ws s sl g e n w s1 i k, selected s = some (sl, g, e, n) →
    fetchAt s sl.core sl.slot n g.part e.mask (e.ix + 1) = .word w s1 → decodeWord w = .ok i → e.rep = none →
    repCheck n.la { last := cnt.val, xs := xs, ys := ys, zs := zs, ws := ws } e.chain.length i = some k →
    exec (.rep cnt xs ys zs ws) s = .next (takeFault (modCore (unhold s1) sl.core tick) sl.core sl.slot e.mask false k 0 0 n.la.btab)

/-- Iteration `k` issues the instruction with each register number moved by k times its step, and its other fields as they are (R47, R48). -/
def Sys2Proof.Machine.Says.RepSteps : Prop :=
  ∀ r rc k c d, stepEnc r rc k c = some d →
    (∀ n, c.x = .v n → ∃ m, d.x = .v m ∧ (m.val : Int) = n.val + rc.xs.toInt * k) ∧
    (∀ n, c.y = .v n → ∃ m, d.y = .v m ∧ (m.val : Int) = n.val + rc.ys.toInt * k) ∧
    (∀ n, c.z = .v n → ∃ m, d.z = .v m ∧ (m.val : Int) = n.val + rc.zs.toInt * k) ∧
    (isOpnd r.w = true → ∀ n, wOpnd c = .v n → ∃ m, wOpnd d = .v m ∧ (m.val : Int) = n.val + rc.ws.toInt * k) ∧
    (d.gn, d.gp, d.nw, d.stall, d.yld, d.chn) = (c.gn, c.gp, c.nw, c.stall, c.yld, c.chn) ∧ (isOpnd r.w = false → d.imm = c.imm)

/-- An entry after an issue: within a pair it repeats at its IX with the next index, after the last iteration it stands after the pair; a chain
grows only under CHN, up to seven results, and never over a region's end (R44, R45, R48); RGN stays within a pair, the model's
reading (log 23). -/
def Sys2Proof.Machine.Says.EntryAdvances : Prop :=
  ∀ btab nc c ends nr item e,
    let e' := advance btab nc c ends nr item e
    (e.rep = none → e'.ix = e.ix + 1 ∧ e'.repi = 0 ∧ e'.rgn = if nr then e.ix + 1 else e.rgn) ∧
    (∀ rc, e.rep = some rc → e.repi < rc.last → e'.ix = e.ix ∧ e'.repi = e.repi + 1 ∧ e'.rep = some rc ∧ e'.rgn = e.rgn) ∧
    (∀ rc, e.rep = some rc → rc.last ≤ e.repi → e'.ix = e.ix + 2 ∧ e'.repi = 0 ∧ e'.rep = none) ∧
    (c.chn = true → e.chain.length < 7 → ends = false → e'.chain = item :: e.chain) ∧
    (c.chn = false ∨ 7 ≤ e.chain.length ∨ ends = true → e'.chain = []) ∧ e'.mask = e.mask ∧ e'.st = .live

/-! # Traps -/

/-- Every encoded instruction that the decoder let through and that fails a later check of R52 takes that check's fault at its issue; no
register, predicate, memory or queue is touched before (R52, R53). -/
def Sys2Proof.Machine.Says.FailedCheckTraps : Prop :=
  ∀ i c s x k, encOf i = some c → ctxOf s c = some x → busy x.g x.e (rulesOf i) c = false → lagging s x = false →
    issueCheck i c x = some k → exec i s = .next (takeFault (modCore (unhold s) x.core tick) x.core x.slot x.e.mask false k 0 0 x.node.la.btab)

/-- Every encoded instruction waits at issue while a register it names is still to be written by a reply (R43, R116). -/
def Sys2Proof.Machine.Says.ScoreboardWaits : Prop :=
  ∀ i c s x, encOf i = some c → ctxOf s c = some x → busy x.g x.e (rulesOf i) c = true →
    exec i s = .next { s with heldGroups := (x.core, x.slot) :: s.heldGroups }

/-- Taking a fault: the charged group issues nothing further and keeps its cause, its fault address and its code; every register stays as it is;
the partition's squall line is up (R53, R314, R315, R319). -/
def Sys2Proof.Machine.Says.FaultIsTaken : Prop :=
  ∀ s core slot m back k faddr aux btab g e, getGroup s core slot = some g → g.front.find? (fun e => e.mask == m) = some e →
    ∃ h, getGroup (takeFault s core slot m back k faddr aux btab) core slot = some h ∧ h.raised = true ∧
      (g.cause = 0 → h.cause = trapCode k ∧ h.faddr = faddr ∧ h.aux = aux ∧ h.charged = m) ∧
      h.vregs = g.vregs ∧ h.preds = g.preds ∧ h.sregs = g.sregs ∧
      (back = false → ∀ l, laneAt h.front l = laneAt g.front l) ∧
      (getPart (takeFault s core slot m back k faddr aux btab) g.part).squall = true ∧
      (∀ d j, (d, j) ≠ (core, slot) → getGroup (takeFault s core slot m back k faddr aux btab) d j = getGroup s d j)

/-- The line rises once: the cause that raised it is the partition's, it goes on its way to every unit that has something to stop, and while it
is up a further cause changes nothing (R314, R315, R318). -/
def Sys2Proof.Machine.Says.SquallRises : Prop :=
  ∀ s p c,
    ((getPart s p).squall = true → raiseSquall s p c = s) ∧
    ((getPart s p).squall = false →
      (getPart (raiseSquall s p c) p).squall = true ∧ (getPart (raiseSquall s p c) p).cause = c.code ∧
      (getPart (raiseSquall s p c) p).unitsLeft = unitsOf s p ∧
      ((getPart s p).st = .running → (getPart (raiseSquall s p c) p).st = .halting) ∧
      (raiseSquall s p c).agenda = s.agenda ++ ((unitsOf s p).map (fun u => .squallArrival p u) ++ [.haltComplete p]) ∧
      (raiseSquall s p c).cores = s.cores)

/-- A rollback sets IX to RGN and REPI to 0, breaks the chain, keeps the lanes and RGN, and makes the entry LIVE (R125). -/
def Sys2Proof.Machine.Says.RollbackRestarts : Prop :=
  ∀ btab m g e, g.front.find? (fun e => e.mask == m) = some e →
    (rollback btab e).ix = e.rgn ∧ (rollback btab e).rgn = e.rgn ∧ (rollback btab e).repi = 0 ∧ (rollback btab e).rep = none ∧
    (rollback btab e).chain = [] ∧ (rollback btab e).mask = e.mask ∧ (rollback btab e).st = .live ∧
    (rollGroup btab m g).vregs = g.vregs ∧ (rollGroup btab m g).preds = g.preds ∧ (rollGroup btab m g).sregs = g.sregs ∧
    (∀ l, l < 64 → m.getLsbD l = true → mapGet 0 (rollGroup btab m g).ncall l = mapGet 0 e.cnt l)

/-! # Memory: what an issue asks for -/

namespace Sys2Proof.Machine

/-- What an issue whose reply `q` is still out leaves of its sources; a leader's shadow learns of the reply (R128). -/
def sourcedLate (x : Ctx) (i : Instr) (c : Enc) (left added : List LvEnt) (q : Nat) (s : State) : State :=
  lvPush (commitSources x (rulesOf i) c left added s) x.core x.slot x.g.shadow { ix := instrIx x.e, act := x.act, req := some q, val := zeroRow }

/-- The lanes and addresses of a load (R156, R157). -/
def loadAddrs (c : Enc) (x : Ctx) (v : Srcs) : List (Nat × DWord) :=
  (globalLanes x v c.imm).filter fun p => (loadLanes c x.act).getLsbD p.1

/-- The value that a load finds for a lane at its core, when all its bytes are there. -/
def foundAt (s : State) (x : Ctx) (ty : Ty) (a : LaneAcc) : Option Nat := foundValue (laneFound s x.core x.g.blk (accWidth ty) a)

/-- The global accesses of an instruction: their kind, width and addresses; `none` where its `act` is empty and it makes none. -/
def globalAccesses (i : Instr) (x : Ctx) (v : Srcs) : Option (AccKind × Nat × List (Nat × DWord)) :=
  match i with
  | .ld c _ ty => some (.read, accWidth ty, loadAddrs c x v)
  | .st c _ ty => some (.write, accWidth ty, globalLanes x v c.imm)
  | .atom c _ _ ty | .red c _ _ ty => if x.act = 0 then none else some (.rdwr, accWidth ty, globalLanes x { v with z := zeroRow } c.imm)
  | .bop c _ _ _ => if x.act = 0 then none else some (.bop, 4, vectorLanes x (lane64 v.y 0 + c.imm.signExtend 64))
  | _ => none

/-- The entries that a store, a reduction without a reply or a vector operation puts into its block's buffer (R158, R160, R258). -/
def bufferEntries (i : Instr) (x : Ctx) (v : Srcs) (accs : List LaneAcc) : Option (List SbEntry) :=
  match i with
  | .st _ ev ty => some (storeEntries x ev (accWidth ty) (lane64 v.x) accs)
  | .red c op _ ty => some (shareEntries x (fun l => .rmw op ty l false) none (lane64 v.z) (casNew x.g ty c.z) accs)
  | .bop _ op rm ty => some (shareEntries x (fun l => .bop op rm ty l) none (lane64 v.x) (lane64 v.z) accs)
  | _ => none

/-- The order of an atomic or a reduction; other accesses have none. -/
def orderOf : Instr → Ord
  | .atom _ _ ord _ | .red _ _ ord _ => ord
  | _ => .rlx

end Sys2Proof.Machine

/-- LD completes at once where its bytes all stand at the core, in the store buffer or the L1: the destination takes the little-endian value of each lane's bytes, the
youngest store first, in the lanes of `act`; no memory changes (R147, R148, R156, R157). -/
def Sys2Proof.Machine.Says.LoadHits : Prop :=
  ∀ c k ty s x v left added accs s1, Ready (.ld c k ty) c s x v left added →
    transLanes s x.core x.slot x.g.part x.e.mask (accWidth ty) .read (loadAddrs c x v) = .ok accs s1 →
    accs.any (laneHeld s1 x.core x.g.blk (accWidth ty)) = false → (∀ a ∈ accs, (foundAt s1 x ty a).isSome = true) →
    ∃ t, exec (.ld c k ty) s = .next t ∧
      (let r := rowOf fun l => (assoc (accs.filterMap fun a => (foundAt s1 x ty a).map fun n => (a.lane, BitVec.ofNat 64 n)) l).getD 0
       Kept (sourced x (.ld c k ty) c left added (latchRow c.x x.act r) (writeDst x c.x (tyIs64 ty) c.nw r s1)) t)

/-- LD with bytes that are not at the core completes its issue: a reply is out for the lanes that miss, one request sets out to the home of each line, and no
register is written yet (R43, R124, R157, R264). -/
def Sys2Proof.Machine.Says.LoadMisses : Prop :=
  ∀ c k ty s x v left added accs s1, Ready (.ld c k ty) c s x v left added →
    transLanes s x.core x.slot x.g.part x.e.mask (accWidth ty) .read (loadAddrs c x v) = .ok accs s1 →
    accs.any (laneHeld s1 x.core x.g.blk (accWidth ty)) = false → (∃ a ∈ accs, foundAt s1 x ty a = none) →
    ∃ t, exec (.ld c k ty) s = .next t ∧
      (let miss := accs.filter fun a => (foundAt s1 x ty a).isNone
       Kept (sourcedLate x (.ld c k ty) c left added s1.reqId (sendReads x s1.reqId miss
         (addPend { s1 with reqId := s1.reqId + 1 } x.core x.slot
           { id := s1.reqId, kind := .load k, mask := x.e.mask, dst := c.x, ty := ty, nw := c.nw, act := x.act, lanes := miss,
             got := accs.filterMap fun a => (foundAt s1 x ty a).map fun n => (a.lane, BitVec.ofNat 64 n), tag := tagOf x }))) t ∧
       ∀ ln ∈ linesOf miss, ∃ p ∈ t.packets, p.cls = .request ∧ p.cargo = .read x.slot s1.reqId ln ∧ p.src = x.core ∧
         ∃ a ∈ miss, a.pa / 128 = ln ∧ p.dst = a.home)

/-- ST, RED and BOP complete: they put one entry for each line into their block's buffer, if it has room, and change no memory yet; RED with a release waits
until the stores before it have reached the device (R148, R156, R158, R160, R258, R326). -/
def Sys2Proof.Machine.Says.StoresEnterTheBuffer : Prop :=
  ∀ i c s x v left added kind w addrs accs s1 es, encOf i = some c → Ready i c s x v left added →
    globalAccesses i x v = some (kind, w, addrs) → transLanes s x.core x.slot x.g.part x.e.mask w kind addrs = .ok accs s1 →
    bufferEntries i x v accs = some es → (ordRel (orderOf i) = true → reached s1 x .device = true) → bufRoom s1 x (linesOf accs).length = true →
    ∃ t, exec i s = .next t ∧ Kept (sourced x i c left added zeroRow (emit x es s1)) t

/-- ATOM completes its issue: it puts one entry for each line into its block's buffer and has a reply out; with a release it first waits for the stores before it
(R160, R326). -/
def Sys2Proof.Machine.Says.AtomicsAreSent : Prop :=
  ∀ c op ord ty s x v left added accs s1, Ready (.atom c op ord ty) c s x v left added → x.act ≠ 0 → x.g.shadow ≠ .shadow →
    transLanes s x.core x.slot x.g.part x.e.mask (accWidth ty) .rdwr (globalLanes x { v with z := zeroRow } c.imm) = .ok accs s1 →
    (ordRel ord = true → reached s1 x .device = true) → bufRoom s1 x (linesOf accs).length = true →
    ∃ t, exec (.atom c op ord ty) s = .next t ∧
      Kept (sourcedLate x (.atom c op ord ty) c left added s1.reqId (addPend
        (emit x (shareEntries x (fun l => .rmw op ty l true) (some s1.reqId) (lane64 v.z) (casNew x.g ty c.z) accs)
          { s1 with reqId := s1.reqId + 1 }) x.core x.slot
        { id := s1.reqId, kind := .atom (ordAcq ord), mask := x.e.mask, dst := c.x, ty := ty, nw := c.nw, act := x.act, lanes := accs,
          tag := tagOf x })) t

/-- An access that is misaligned, not canonical or not permitted faults before any access of the issue is made, for the first such lane in
ascending order; every register and all of memory stay (R42, R156, R250). -/
def Sys2Proof.Machine.Says.BadAccessTraps : Prop :=
  ∀ i c s x v left added kind w addrs k va, encOf i = some c → Ready i c s x v left added → globalAccesses i x v = some (kind, w, addrs) →
    laneFault s x.core x.g.part w kind addrs = some (k, va) → exec i s = .next (trapIssue x k va s)

/-- A lane faults with PROTECTION where its address is not a multiple of the width or not canonical, and where the cached leaf does not permit the
access; the first lane that faults decides (R156, R250; that the leaf's fault is precise is the model's reading, log 25). -/
def Sys2Proof.Machine.Says.FirstFaultingLane : Prop :=
  (∀ s core part w k l va t, va.toNat % w ≠ 0 → laneFault s core part w k ((l, va) :: t) = some (.protection, va)) ∧
  (∀ s core part w k l va t, va.toNat % w = 0 → canonical va = false → laneFault s core part w k ((l, va) :: t) = some (.protection, va)) ∧
  (∀ s core part w k l va t tr, va.toNat % w = 0 → canonical va = true → coreLookup s core part va = some tr →
    ((getPart s part).hmode && tr.pte.getLsbD 6) = false → permits tr.pte k = false →
    laneFault s core part w k ((l, va) :: t) = some (.protection, va)) ∧
  (∀ s core part w k l va t pa pte, va.toNat % w = 0 → coreTrans s core part va k = .ok pa pte →
    laneFault s core part w k ((l, va) :: t) = laneFault s core part w k t)

/-- The entries an issue emits stand at the end of its block's buffer, in order; nothing else of the core changes. An entry as an issue makes it
is checked at once where its group has no reply out, unless a pair has to compare it (R128, R148, R326). -/
def Sys2Proof.Machine.Says.EmitAppends : Prop :=
  (∀ s x op va pa home req, x.g.pend = [] → checked s (mkEntry x op va pa home req) = decide (x.g.shadow ≠ .leader)) ∧
  ∀ x es s, x.g.shadow ≠ .shadow →
    (bufOf (getCore (emit x es s) x.core) x.g.blk).ents =
      (bufOf (getCore s x.core) x.g.blk).ents ++ es.zipIdx.map (fun p => { p.1 with ord := s.reqId + p.2 }) ∧
    (∀ c, { getCore (emit x es s) c with bufs := [] } = { getCore s c with bufs := [] }) ∧
    (emit x es s).mem = s.mem ∧ (emit x es s).parts = s.parts

/-- PF and WSTAT complete: PF changes nothing (the device performs none of these hints, log 13); WSTAT writes the state of the window IMM names: 0 ABSENT, 1 FILLING,
2 PRESENT (R159, R163). -/
def Sys2Proof.Machine.Says.PrefetchAndWindowState : Prop :=
  (∀ c l1 s x v left added, Ready (.pf c l1) c s x v left added →
    ∃ t, exec (.pf c l1) s = .next t ∧ Kept (sourced x (.pf c l1) c left added zeroRow s) t) ∧
  (∀ c s x v left added, Ready (.wstat c) c s x v left added →
    ∃ t, exec (.wstat c) s = .next t ∧
      (let r := rowOf fun _ => match (winOf (getCore s x.core) (c.imm.toNat % 32)).st with | .absent => 0 | .filling => 1 | .present => 2
       Kept (sourced x (.wstat c) c left added r (writeDst x c.x false c.nw r s)) t))

/-- LDL completes: it reads each lane's bytes of the pool, little-endian, once no window it overlaps is missing; nothing else changes (R146, R152, R157). -/
def Sys2Proof.Machine.Says.LocalLoads : Prop :=
  ∀ c ty s x v left added, Ready (.ldl c ty) c s x v left added →
    (let l := (localLanes x v c.imm).filter fun p => (loadLanes c x.act).getLsbD p.1
     firstBad (getCore s x.core) (accWidth ty) l = none → touch s x.core (tagOf x) (l.map fun p => (p.2, accWidth ty)) = none →
     (∀ p ∈ l, lpoisoned (getCore s x.core) p.2 (accWidth ty) = false) →
     ∃ t, exec (.ldl c ty) s = .next t ∧
       (let r := rowOf fun k => match assoc l k with | some a => BitVec.ofNat 64 (lread (getCore s x.core) a (accWidth ty)) | none => 0
        Kept (sourced x (.ldl c ty) c left added (latchRow c.x x.act r) (writeDst x c.x (tyIs64 ty) c.nw r s)) t))

/-- STL completes: it writes the low bytes of each lane's value to the pool in ascending lane order; a pair's shadow stores nothing, the model's
reading of R128 (R146, R152, R158; log 15). -/
def Sys2Proof.Machine.Says.LocalStores : Prop :=
  ∀ c ty s x v left added, Ready (.stl c ty) c s x v left added → firstBad (getCore s x.core) (accWidth ty) (localLanes x v c.imm) = none →
    touch s x.core (tagOf x) ((localLanes x v c.imm).map fun p => (p.2, accWidth ty)) = none →
    ∃ t, exec (.stl c ty) s = .next t ∧
      Kept (sourced x (.stl c ty) c left added zeroRow (if x.g.shadow = .shadow then s else
        modCore s x.core fun k => lputs k ((localLanes x v c.imm).flatMap fun p => bytesAt p.2 (accWidth ty) (lane64 v.x p.1).toNat))) t

/-- ATOML completes: it performs its lanes in ascending order on the pool and gives each lane the value it found (R146, R152, R156, R160). -/
def Sys2Proof.Machine.Says.LocalAtomics : Prop :=
  ∀ c op ord ty s x v left added, Ready (.atoml c op ord ty) c s x v left added →
    (let l := localLanes x { v with z := zeroRow } c.imm
     firstBad (getCore s x.core) (accWidth ty) l = none → touch s x.core (tagOf x) (l.map fun p => (p.2, accWidth ty)) = none →
     (ordRel ord = true → reached s x .core = true) → (∀ p ∈ l, lpoisoned (getCore s x.core) p.2 (accWidth ty) = false) →
     ∃ t, exec (.atoml c op ord ty) s = .next t ∧
       (let q := atomlRun op ty (accWidth ty) (lane64 v.z) (casNew x.g ty c.z) (getCore s x.core) l
        let r := rowOf fun k => (assoc q.2 k).getD 0
        Kept (sourced x (.atoml c op ord ty) c left added r (modCore (writeDst x c.x (tyIs64 ty) c.nw r s) x.core fun k => lputs k q.1)) t))

/-- A local access beyond the program's share or not a multiple of its width raises PROTECTION, for the first such lane, and there is one exactly where some
lane is such (R146). -/
def Sys2Proof.Machine.Says.BadLocalAccessTraps : Prop :=
  (∀ c ty s x v left added a, Ready (.ldl c ty) c s x v left added →
    firstBad (getCore s x.core) (accWidth ty) ((localLanes x v c.imm).filter fun p => (loadLanes c x.act).getLsbD p.1) = some a →
    exec (.ldl c ty) s = .next (trapIssue x .protection (BitVec.ofNat 64 a) s)) ∧
  (∀ c ty s x v left added a, Ready (.stl c ty) c s x v left added →
    firstBad (getCore s x.core) (accWidth ty) (localLanes x v c.imm) = some a →
    exec (.stl c ty) s = .next (trapIssue x .protection (BitVec.ofNat 64 a) s)) ∧
  (∀ c op ord ty s x v left added a, Ready (.atoml c op ord ty) c s x v left added →
    firstBad (getCore s x.core) (accWidth ty) (localLanes x { v with z := zeroRow } c.imm) = some a →
    exec (.atoml c op ord ty) s = .next (trapIssue x .protection (BitVec.ofNat 64 a) s)) ∧
  (∀ k w l a, firstBad k w l = some a → (68608 * k.locg - k.reserve < a + w ∨ a % w ≠ 0)) ∧
  (∀ k w l, firstBad k w l = none → ∀ p ∈ l, p.2 + w ≤ 68608 * k.locg - k.reserve ∧ p.2 % w = 0) ∧
  (∀ k w p l, (68608 * k.locg - k.reserve < p.2 + w ∨ p.2 % w ≠ 0) → firstBad k w (p :: l) = some p.2)

/-- The pool reads back what is written and keeps every other byte; a word written, or a part of one, is no longer poisoned (R146; that
any write clears it is the model's choice, log 11). -/
def Sys2Proof.Machine.Says.PoolReadsWrites : Prop :=
  ∀ k a n v b, lbyte (lwrite k a n v) b = (if a ≤ b ∧ b < a + n then BitVec.ofNat 8 (v / 256 ^ (b - a)) else lbyte k b) ∧
    (a ≤ b → b < a + n → (b / 4) ∉ (lwrite k a n v).lpoison) ∧ { lwrite k a n v with lmem := [], lpoison := [] } = { k with lmem := [], lpoison := [] }

/-- FENCE completes once the loads before it have returned and, where it releases, the stores before it have reached its scope; where it acquires
at a scope wider than core, the L1 is emptied; until then its group waits, all of it (log 56). L1INV completes and empties the L1. Neither does anything under an empty `act` (R147, R161,
R162). -/
def Sys2Proof.Machine.Says.FencesComplete : Prop :=
  (∀ c k sc s x v left added, Ready (.fence c k sc) c s x v left added →
    (x.act = 0 ∨ settled x.g x.e = true ∧ (fenceRel k = true → reached s x sc = true)) →
    ∃ t, exec (.fence c k sc) s = .next t ∧ Kept (sourced x (.fence c k sc) c left added zeroRow
      (if x.act ≠ 0 ∧ fenceAcq k = true ∧ sc ≠ .group ∧ sc ≠ .core then modCore s x.core fun k => { k with l1 := [] } else s)) t) ∧
  (∀ c k sc s x v left added, Ready (.fence c k sc) c s x v left added → x.act ≠ 0 →
    (settled x.g x.e = false ∨ fenceRel k = true ∧ reached s x sc = false) → exec (.fence c k sc) s = .next (holdGroup x s)) ∧
  (∀ c s x v left added, Ready (.l1inv c) c s x v left added →
    ∃ t, exec (.l1inv c) s = .next t ∧ Kept (sourced x (.l1inv c) c left added zeroRow
      (if x.act = 0 then s else modCore s x.core fun k => { k with l1 := [] })) t)

/-- WDEF and WDROP complete. WDEF defines its window from a good descriptor, ABSENT, once no fill of it runs; a zero length makes it the default window; WDROP makes it ABSENT;
neither moves data, and neither acts under an empty `act`, nor, in the model's reading, for a pair's shadow (R151, R154, R163; log 16). -/
def Sys2Proof.Machine.Says.WindowsDefined : Prop :=
  (∀ c s x v left added, Ready (.wdef c) c s x v left added → x.act ≠ 0 →
    (let a := ((lane64 v.y 0).setWidth 32).toNat
     let k := getCore s x.core
     a % 32 = 0 → a + 32 ≤ localLimit k → touch s x.core (tagOf x) [(a, 32)] = none → (winOf k (c.imm.toNat % 32)).st ≠ .filling →
     lpoisoned k a 32 = false → windowBad k (c.imm.toNat % 32) (lread k a 32) = false →
     ∃ t, exec (.wdef c) s = .next t ∧ Kept (sourced x (.wdef c) c left added zeroRow (if x.g.shadow = .shadow then s else modCore s x.core fun k =>
       { k with wins := mapSet {} k.wins (c.imm.toNat % 32) (if (windowOf (lread k a 32)).llen = 0 then {} else windowOf (lread k a 32)) })) t)) ∧
  (∀ c s x v left added, Ready (.wdrop c) c s x v left added → x.act ≠ 0 →
    (winOf (getCore s x.core) (c.imm.toNat % 32)).st ≠ .filling →
    ∃ t, exec (.wdrop c) s = .next t ∧ Kept (sourced x (.wdrop c) c left added zeroRow (if x.g.shadow = .shadow then s else modCore s x.core fun k =>
       { k with wins := mapSet {} k.wins (c.imm.toNat % 32) { winOf k (c.imm.toNat % 32) with st := .absent, touch := {} } })) t) ∧
  (∀ i c s x v left added, (i = .wdef c ∨ i = .wdrop c) → Ready i c s x v left added → x.act = 0 →
    ∃ t, exec i s = .next t ∧ Kept (sourced x i c left added zeroRow s) t)

/-- An access that overlaps an ABSENT window of nonzero length begins its fill, with the toucher recorded, and waits; no other window and no byte
changes (R152, R154, R155). -/
def Sys2Proof.Machine.Says.TouchBeginsFill : Prop :=
  ∀ s core t l s1, touch s core t l = some s1 →
    (∀ w, w < 32 → (l.any fun p => overlaps (winOf (getCore s core) w) p.1 p.2) = true → (winOf (getCore s core) w).st = .absent →
      winOf (getCore s1 core) w = { winOf (getCore s core) w with st := .filling, touch := t } ∧ w ∈ (getCore s1 core).fillq) ∧
    (∀ w, (l.any fun p => overlaps (winOf (getCore s core) w) p.1 p.2) = false ∨ (winOf (getCore s core) w).st ≠ .absent →
      winOf (getCore s1 core) w = winOf (getCore s core) w) ∧
    (getCore s1 core).lmem = (getCore s core).lmem ∧ s1.mem = s.mem ∧
    (∀ c ty x v left added, Ready (.ldl c ty) c s x v left added → core = x.core → t = tagOf x →
      (let a := (localLanes x v c.imm).filter fun p => (loadLanes c x.act).getLsbD p.1
       firstBad (getCore s x.core) (accWidth ty) a = none → l = (a.map fun p => (p.2, accWidth ty)) →
       exec (.ldl c ty) s = .next { s1 with heldGroups := (x.core, x.slot) :: s1.heldGroups }))

/-! # Memory: the units that perform it -/

namespace Sys2Proof.Machine

/-- Whether an entry is an access to memory that the cluster write queue carries (R233). -/
def isPlain (e : SbEntry) : Bool :=
  match e.op with
  | .store .. | .rmw .. | .bop .. | .hold .. | .redt .. => true
  | _ => false

/-- The SUB code with which an entry is refused at its home point, if it is: outside the partition's memory, or a plain access to a live holding
word (R187, R245, R250). -/
def entryRefusal (s : State) (e : SbEntry) : Option Nat :=
  match refusalOf (getPart s e.part).lay (e.line * 128) with
  | some r => some r
  | none => if hitsLive s (touched e) then some 3 else none

/-- An entry of a cluster's write queue that may be performed: no earlier one names its line or has its home slice (R233, R243, R261). -/
def FirstOfLine (s : State) (cl idx : Nat) (e : SbEntry) : Prop :=
  (getCluster s cl).wq[idx]? = some e ∧ ∀ o ∈ (getCluster s cl).wq.take idx, o.line ≠ e.line ∧ o.home ≠ e.home

/-- Every group that still has lanes stands as it did, where no PWAIT of the entry's partition is left to be ended by what it writes: a group without
lanes may have waited for this entry to exit (R130, R202). -/
def KeepsGroups (s t : State) (e : SbEntry) : Prop :=
  ((getPart s e.part).holdq.all fun q => q.isLock) = true → ∀ c k g, getGroup s c k = some g → g.front ≠ [] → getGroup t c k = some g

/-- A core's buffer of a block without its head. -/
def headless (s : State) (core blk : Nat) (t : List SbEntry) : State := modCore s core fun k => bufSet k { bufOf k blk with ents := t }

/-- Whether an entry is a contribution that was issued under an earlier binding of its identifier. -/
def isLate (s : State) (e : SbEntry) : Bool :=
  match e.op with
  | .redt ident .. => (identOf s e.part ident).gen != e.gen
  | _ => false

/-- What a release does to the L1 line of an entry's bytes (R147): a store updates it, what acts at the line's home drops it. -/
def dropsLine (e : SbEntry) : Bool :=
  match e.op with
  | .store true _ | .rmw .. | .bop .. | .hold .. => true
  | _ => false

/-- A load's reply that waits on a line: its group, itself, and its accesses there. -/
def ReplyWaits (s : State) (core slot req line : Nat) (g : Group) (p : Pend) (a : LaneAcc) (l : List LaneAcc) : Prop :=
  getGroup s core slot = some g ∧ pendOf g req = some p ∧ (p.lanes.filter fun a => a.pa / 128 == line) = a :: l

/-- The value of a lane's bytes below the L1: the cluster write queue's youngest store, then memory (R233, R243). -/
def lowValue (s : State) (cl pa w : Nat) : Nat := (List.range w).foldr (fun j acc => (lowByte s cl (pa + j)).toNat + 256 * acc) 0

/-- Every entry that waits on a walk takes PAGE, unless its group has taken a fault before (R251, R315). -/
def TakePage (s t : State) (w : Walk) : Prop :=
  ∀ q ∈ w.waiters, ∀ g e, getGroup s q.core q.slot = some g → entryOf g.front (lowLane q.lanes) = some e →
    ∃ h, getGroup t q.core q.slot = some h ∧ h.raised = true ∧ (g.cause = 0 → h.cause = trapCode .page)

/-- A blocked wait on words (R164): its group, its entry, its node and its parts. -/
def WaitStands (s : State) (core slot lane : Nat) (g : Group) (e : Entry) (n : Node) (isTry : Bool) (o : Opnd) (nw : Bool) (cmp : WCmp)
    (ls : List WaitLane) (act : Lanes) (since : Nat) : Prop :=
  getGroup s core slot = some g ∧ entryOf g.front lane = some e ∧ findNode s g.part g.node = some n ∧
  e.wait = some (.word isTry o nw cmp ls act since) ∧ e.st = .blocked ∧ g.raised = false ∧ (getCore s core).stopped = false

end Sys2Proof.Machine

/-- A store buffer release completes: the head of a block's buffer leaves once it is checked; an access to memory goes to the end of its cluster's write
queue, a store has its bytes put into the L1 line that its core holds, an eviction store or an atomic has the line dropped, and in the model's reading
also a vector or holdings operation (log 55); no memory changes, and no group that still has lanes (R147, R148, R233, R326). -/
def Sys2Proof.Machine.Says.BufferReleases : Prop :=
  ∀ core blk s e t, (bufOf (getCore s core) blk).ents = e :: t → checked s e = true → isPlain e = true → isLate s e = false →
    powered s core = true →
    ∃ u, exec (.storeBufferRelease core blk) s = .next u ∧ (bufOf (getCore u core) blk).ents = t ∧
      (getCluster u (clusterOf e.core)).wq = (getCluster s (clusterOf e.core)).wq ++ [e] ∧ u.mem = s.mem ∧
      (∀ c k g, getGroup s c k = some g → g.front ≠ [] → getGroup u c k = some g) ∧
      (∀ bs, e.op = .store false bs → (getCore u e.core).l1 = (l1Update (getCore s e.core) bs).l1) ∧
      (dropsLine e = true → (getCore u e.core).l1 = (getCore s e.core).l1.filter fun p => p.1 != e.line)

/-- A checked head that is no access to memory goes to its engine or port, and the next may follow; while that has no room it stays, and so does one
whose control block the front end has still to ask the host for. A contribution whose identifier has been bound anew since its issue joins no binding:
it is counted as late (R148, R268, R326, R349, R375). -/
def Sys2Proof.Machine.Says.PostsAreReleased : Prop :=
  ∀ core blk s e t, (bufOf (getCore s core) blk).ents = e :: t → checked s e = true → powered s core = true →
    (∀ u, isPlain e = false → sendEntry (headless s core blk t) e = some u →
      exec (.storeBufferRelease core blk) s = .next (if t.isEmpty then gone u e else post (gone u e) [.storeBufferRelease core blk])) ∧
    (∀ p c q ws, e.op = .send p c q ws → sendEntry (headless s core blk t) e = none → exec (.storeBufferRelease core blk) s = .next s) ∧
    (∀ d c rb rl bq, e.op = .bcopy d c rb rl bq → sendEntry (headless s core blk t) e = none →
      exec (.storeBufferRelease core blk) s = .next s) ∧
    (isLate s e = true → ∃ u, exec (.storeBufferRelease core blk) s = .next u ∧ (bufOf (getCore u core) blk).ents = t ∧ u.mem = s.mem ∧
      u.clusters = s.clusters ∧ (getPart u e.part).late = (getPart s e.part).late + 1)

/-- The head of a buffer that is not yet checked stays (R148, R326), and all of a buffer on a die without power (R34). -/
def Sys2Proof.Machine.Says.UncheckedStays : Prop :=
  ∀ core blk s e t, (bufOf (getCore s core) blk).ents = e :: t → (checked s e = false ∨ powered s core = false) →
    exec (.storeBufferRelease core blk) s = .next s

/-- A slice operation completes. A store at its home slice writes its bytes, the last of several to one address standing, and nothing else of memory; it
leaves the queue, and groups with lanes stay (R156, R233, R243). -/
def Sys2Proof.Machine.Says.StoreIsPerformed : Prop :=
  ∀ cl idx s e ev bs, FirstOfLine s cl idx e → e.op = .store ev bs → entryRefusal s e = none →
    ∃ t, exec (.sliceOperation (.write cl idx)) s = .next t ∧ (getCluster t cl).wq = listDrop (getCluster s cl).wq idx ∧
      (∀ a, memByte t a = match (bs.filter fun p => p.1 == a).getLast? with | some p => p.2 | none => memByte s a) ∧ KeepsGroups s t e

/-- A write or read-modify-write that its home point refuses changes no memory: the die takes its next serial, logs the full record and sends it to
the originating core (R187, R323, R324; that the record shows the first byte touched is the model's choice, log 52). -/
def Sys2Proof.Machine.Says.RefusedWriteChangesNothing : Prop :=
  ∀ cl idx s e sub, FirstOfLine s cl idx e → (match e.op with | .store .. | .rmw .. | .bop .. => true | _ => false) = true →
    entryRefusal s e = some sub →
    (let n := nextSerial (getDie s (e.home / 64)).serial
     let r := fullRecord (getPart s e.part).lay (originOf e ((touched e).headD (e.line * 128, 0)).1) (e.home / 64) sub (opkOf e) (BitVec.ofNat 32 (e.home / 64 * 2 ^ 29 + n))
     ∃ t, exec (.sliceOperation (.write cl idx)) s = .next t ∧ t.mem = s.mem ∧ (getDie t (e.home / 64)).errlog.head? = some r ∧
       (getDie t (e.home / 64)).serial = n ∧ (∃ f ∈ (getDie t (e.home / 64)).refused, f.core = e.core ∧ f.tag = e.tag ∧ f.full = r))

/-- The full record of a remote fault holds each field where R324 puts it, and zero in the reserved bits; SLICE is the slice index of R242, the rank of the home
slice among the partition's slices on its die, and 0 for a region check and for a refusal
at the estate unit. -/
def Obligations.RemoteFaultRecordFields : Prop :=
  ∀ l o die sub opk serial, die < 8 → sub < 256 → opk < 256 → o.tag.gslot < 32768 → sliceIndex l o.home < 64 →
    (let r := fullRecord l o die sub opk serial
     r.extractLsb' 0 8 = 8 ∧ r.extractLsb' 8 3 = BitVec.ofNat 3 die ∧ r.extractLsb' 11 5 = 0 ∧
     r.extractLsb' 16 6 = (if sub = 4 ∨ sub = 6 then 0 else BitVec.ofNat 6 (sliceIndex l o.home)) ∧ r.extractLsb' 22 2 = 0 ∧
     r.extractLsb' 24 8 = BitVec.ofNat 8 sub ∧ r.extractLsb' 32 32 = serial ∧ r.extractLsb' 64 8 = BitVec.ofNat 8 opk ∧ r.extractLsb' 72 8 = 0 ∧
     r.extractLsb' 80 15 = BitVec.ofNat 15 o.tag.gslot ∧ r.extractLsb' 95 1 = 0 ∧ r.extractLsb' 96 32 = o.tag.ix ∧
     r.extractLsb' 128 32 = o.tag.rgn ∧ r.extractLsb' 160 64 = o.va ∧ r.extractLsb' 224 32 = 0 ∧
     r.extractLsb' 256 52 = BitVec.ofNat 52 (o.pa % 2 ^ 52) ∧ r.extractLsb' 308 204 = 0)

/-- A read-modify-write at its home slice: its lanes act in ascending order, each on what the one before left, and the reply gathers the values they
found (R156, R160, R243); one without a reply, a RED, changes memory alone. -/
def Sys2Proof.Machine.Says.AtomicIsPerformed : Prop :=
  (∀ cl idx s e op ty l ret, FirstOfLine s cl idx e → e.op = .rmw op ty l ret → entryRefusal s e = none →
    linePoisoned s (e.line * 128) = false → e.req = none →
    ∃ t, exec (.sliceOperation (.write cl idx)) s = .next t ∧ t.mem = (rmwRun op ty s l).1.mem ∧ KeepsGroups s t e) ∧
  ∀ cl idx s e op ty l ret q g p, FirstOfLine s cl idx e → e.op = .rmw op ty l ret → entryRefusal s e = none →
    linePoisoned s (e.line * 128) = false → e.req = some q → getGroup s e.core e.slot = some g → pendOf g q = some p →
    ∃ t, exec (.sliceOperation (.write cl idx)) s = .next t ∧ t.mem = (rmwRun op ty s l).1.mem ∧
      (((getPart s e.part).holdq.all fun w => w.isLock) = true → g.front ≠ [] → ∃ h, getGroup t e.core e.slot = some h ∧
        (∃ p', pendOf h q = some p' ∧ p'.got = p.got ++ (rmwRun op ty s l).2 ∧ p'.lanes = p.lanes.filter fun a => a.pa / 128 != e.line) ∧
        h.vregs = g.vregs ∧ h.sregs = g.sregs)

/-- A vector operation at its home slice unit, or, on an MS page, at its channel unit: memory takes each lane's new word; no group with lanes changes (R246, R258). -/
def Sys2Proof.Machine.Says.VectorOperationIsPerformed : Prop :=
  ∀ cl idx s e op rm ty l, FirstOfLine s cl idx e → e.op = .bop op rm ty l → entryRefusal s e = none →
    linePoisoned s (e.line * 128) = false →
    ∃ t, exec (.sliceOperation (.write cl idx)) s = .next t ∧ t.mem = (bopRun op rm ty s l).mem ∧ KeepsGroups s t e

/-- The new value of an atomic on integers: addition wraps, minimum and maximum compare as the type does, `.cas` replaces only an equal word (R160). -/
def Sys2Proof.Machine.Says.AtomicValues : Prop :=
  ∀ old a b : DWord,
    (∀ t, t = .i32 ∨ t = .n32 → (atomNew .add t old a b).setWidth 32 = (old.setWidth 32 + a.setWidth 32 : Word)) ∧
    (∀ t, t = .i64 ∨ t = .n64 → atomNew .add t old a b = old + a) ∧
    ((atomNew .min .i64 old a b).toInt = min old.toInt a.toInt) ∧ ((atomNew .max .i64 old a b).toInt = max old.toInt a.toInt) ∧
    (((atomNew .min .i32 old a b).setWidth 32 : Word).toInt = min (old.setWidth 32 : Word).toInt (a.setWidth 32 : Word).toInt) ∧
    (((atomNew .max .i32 old a b).setWidth 32 : Word).toInt = max (old.setWidth 32 : Word).toInt (a.setWidth 32 : Word).toInt) ∧
    (((atomNew .min .n32 old a b).setWidth 32 : Word).toNat = min (old.setWidth 32 : Word).toNat (a.setWidth 32 : Word).toNat) ∧
    (((atomNew .max .n32 old a b).setWidth 32 : Word).toNat = max (old.setWidth 32 : Word).toNat (a.setWidth 32 : Word).toNat) ∧
    ((atomNew .min .n64 old a b).toNat = min old.toNat a.toNat) ∧ ((atomNew .max .n64 old a b).toNat = max old.toNat a.toNat) ∧
    (∀ t, atomNew .and t old a b = old &&& a ∧ atomNew .or t old a b = old ||| a ∧ atomNew .xor t old a b = old ^^^ a) ∧
    atomNew .exch .b64 old a b = a ∧ (atomNew .exch .b32 old a b) = (a.setWidth 32).setWidth 64 ∧
    atomNew .cas .b64 old a b = (if old = a then b else old)

/-- One line of a load at its home point: its lanes get the little-endian value that the cluster's queue and memory hold, the reply no longer
waits on it, and the answer sets out for the core; memory stays (R157, R243, R264). -/
def Sys2Proof.Machine.Says.LineIsRead : Prop :=
  ∀ s core slot req line g p a l, ReplyWaits s core slot req line g p a l → (match p.kind with | .tile .. => true | _ => false) = false →
    ((a :: l).all fun b => (List.range (accWidth p.ty)).all fun j => !lowHeld s (clusterOf core) (b.pa + j)) = true →
    refusalOf (getPart s g.part).lay (line * 128) = none → linePoisoned s (line * 128) = false →
    ∃ t h p', exec (.sliceOperation (.read core slot req line)) s = .next t ∧ t.mem = s.mem ∧ getGroup t core slot = some h ∧
      pendOf h req = some p' ∧ p'.lanes = (p.lanes.filter fun b => b.pa / 128 != line) ∧
      p'.got = p.got ++ (a :: l).map (fun b => (b.lane, BitVec.ofNat 64 (lowValue s (clusterOf core) b.pa (accWidth p.ty)))) ∧
      h.vregs = g.vregs ∧ h.sregs = g.sregs ∧
      ∃ q ∈ t.packets, q.cls = .response ∧ q.cargo = .reply slot req ∧ q.src = a.home ∧ q.dst = core

/-- A load reply completes, once every line of a load or an atomic has answered and no answer is still on its way: the destination takes the values in the lanes of `act`, the reply is no longer out, and one that
acquires empties the L1; a refused or poisoned one writes no register (R124, R147, R157, R160, R323, R327). -/
def Sys2Proof.Machine.Says.ReplyWritesDestination : Prop :=
  ∀ s core slot req g p, getGroup s core slot = some g → pendOf g req = some p → p.lanes = [] → onWay s core slot req = false →
    (match p.kind with | .tile .. => true | _ => false) = false →
    ∃ t h, exec (.loadReply core slot req) s = .next t ∧ t.mem = s.mem ∧ getGroup t core slot = some h ∧ pendOf h req = none ∧
      (let r := rowOf fun l => (assoc p.got l).getD 0
       let g' := if p.refused || p.poisoned || p.nw then g else
         match p.pred with | some k => predGroup g k p.act (rowBits r) | none => dstGroup g p.dst (tyIs64 p.ty) p.act r
       h.vregs = g'.vregs ∧ h.sregs = g'.sregs ∧ h.preds = g'.preds) ∧
      (acquiring p = true → (getCore t core).l1 = []) ∧ (acquiring p = false → (getCore t core).l1 = (getCore s core).l1)

/-- A window fill step completes. With no source word that misses in the TLBs it copies one row: word j of it goes to the pool at LBASE + 4 (ROWW i + j), and every other byte of the pool stays; with words that miss it asks for their walks and waits (R151, R153, R251, R335). -/
def Sys2Proof.Machine.Says.WindowFillsRow : Prop :=
  ∀ s core win rest, (getCore s core).fillq = win :: rest → (getCore s core).stopped = false → powered s core = true →
    (let w := winOf (getCore s core) win
     let i := (getCore s core).fillRow
     (w.st = .filling → i < w.rows → fillMisses s core (getCore s core).part w i ≠ [] →
       exec (.windowFill core) s = .next (fillWalks s core (getCore s core).part (fillMisses s core (getCore s core).part w i))) ∧
     (w.st = .filling → i < w.rows → fillMisses s core (getCore s core).part w i = [] →
      (issueAll s (getCore s core).part .fill (fillRequests s (getCore s core).part w i)).isSome = true → (∀ p ∈ fillRowWords s core (getCore s core).part w i, ∃ v, p.2 = .word v false) →
     ∃ t, exec (.windowFill core) s = .next t ∧ (getCore t core).fillRow = i + 1 ∧ t.mem = s.mem ∧
       (∀ j v, j < w.roww → fillWord s core (getCore s core).part (w.gbase + BitVec.ofNat 64 (w.gpitch * i + 4 * j)) = .word v false →
         BitVec.ofNat 32 (lread (getCore t core) (w.lbase + 4 * w.roww * i + 4 * j) 4) = v) ∧
       (∀ b, (b < w.lbase + 4 * w.roww * i ∨ w.lbase + 4 * w.roww * i + 4 * w.roww ≤ b) → lbyte (getCore t core) b = lbyte (getCore s core) b)))

/-- After the last row the arrival word is written and the window is PRESENT; its fill leaves the queue (R153, R154). -/
def Sys2Proof.Machine.Says.WindowArrives : Prop :=
  ∀ s core win rest, (getCore s core).fillq = win :: rest → (getCore s core).stopped = false → powered s core = true →
    (let w := winOf (getCore s core) win
     w.st = .filling → w.rows ≤ (getCore s core).fillRow →
     ∃ t, exec (.windowFill core) s = .next t ∧ (winOf (getCore t core) win).st = .present ∧ (getCore t core).fillq = rest ∧
       (getCore t core).fillRow = 0 ∧ BitVec.ofNat 32 (lread (getCore t core) w.aaddr 4) = w.aval ∧ t.mem = s.mem ∧
       (∀ b, b < w.aaddr ∨ w.aaddr + 4 ≤ b → lbyte (getCore t core) b = lbyte (getCore s core) b))

/-- A window fill fault completes: a fill whose source word does not translate stops; its window is ABSENT again, its fill leaves the queue, and the cause is kept for the
unit's record: 1 for PAGE, 2 for PROTECTION; the toucher's entry is charged, or its partition halted where its group is gone (R155, R315, R316). -/
def Sys2Proof.Machine.Says.WindowFillFaults : Prop :=
  ∀ s core win rest va k, (getCore s core).fillq = win :: rest →
    (let w := winOf (getCore s core) win
     w.st = .filling → (getCore s core).fillRow < w.rows →
     (fillRowWords s core (getCore s core).part w (getCore s core).fillRow).find? (fun p => fillStops p.2) = some (va, .fault k) →
     ∃ t, exec (.windowFillFault core) s = .next t ∧ (winOf (getCore t core) win).st = .absent ∧ (getCore t core).fillq = rest ∧
       (getCore t core).fillFault = (if k = .page then 1 else 2) ∧ (getCore t core).fillFaddr = va ∧
       (getGroup s core (w.touch.gslot % 64) = none → (getPart t (getCore s core).part).squall = true) ∧
       (∀ g e, getGroup s core (w.touch.gslot % 64) = some g → touchEntry g w.touch = some e →
         (getPart t g.part).squall = true ∧ ∃ h, getGroup t core (w.touch.gslot % 64) = some h ∧ h.raised = true))

/-- WAITW and TRYW complete: those whose words all satisfy at once end; WAITW writes each lane's word, TRYW sets its lanes' predicate; where a global word was
read, the L1 is emptied (R147, R164). -/
def Sys2Proof.Machine.Says.WaitsCompleteAtOnce : Prop :=
  ∀ (isTry : Bool) c cmp s x v left added accs s1,
    (let i : Instr := if isTry then .tryw c cmp else .waitw c cmp
     let lanes := waitLanes x c v
     let loc := (lanes.filter (·.2.1)).map fun p => (p.1, p.2.2.toNat)
     let glo := (lanes.filter fun p => !p.2.1).map fun p => (p.1, p.2.2)
     let ls : List WaitLane := lanes.map fun p =>
       { lane := p.1, loc := p.2.1, va := p.2.2, cmpd := loWord (lane64 v.z p.1),
         addr := if p.2.1 then p.2.2.toNat else match accs.find? (fun a => a.lane == p.1) with | some a => a.pa | none => 0 }
     Ready i c s x v left added → firstBad (getCore s x.core) 4 loc = none →
     transLanes s x.core x.slot x.g.part x.e.mask 4 .read glo = .ok accs s1 →
     touch s1 x.core (tagOf x) (loc.map fun p => (p.2, 4)) = none →
     (∀ l ∈ ls, ∃ w, waitRead s1 x.core x.g.part l = .word w false ∧ wcmpHolds cmp w l.cmpd = true) →
     ∃ t, exec i s = .next t ∧
       (let r := waitRow isTry (ls.map (evalLane s1 x.core x.g.part cmp))
        Kept (sourced x i c left added r (modGroup
          (if ls.any fun l => !l.loc then modCore s1 x.core fun k => { k with l1 := [] } else s1) x.core x.slot fun g =>
            if c.nw then g else if isTry then predGroup g (numOf c.x) x.act (rowBits r) else dstGroup g c.x false x.act r)) t))

/-- A wait word evaluation completes: a blocked wait is looked at again, once the windows of its local words are PRESENT; once every lane's word has satisfied, its result is written and the entry goes on at the next IX; until then
the lanes that are satisfied stay so, and where a window is not PRESENT its fill is asked for and the wait is looked at again after it (R122, R152, R164). -/
def Sys2Proof.Machine.Says.WaitsAreReevaluated : Prop :=
  ∀ s core slot lane g e n isTry o nw cmp ls act since, WaitStands s core slot lane g e n isTry o nw cmp ls act since →
    (∀ s1, touch s core { gslot := gslotFor g core slot, ix := e.ix, rgn := e.rgn } (waitTouches ls) = some s1 →
      exec (.waitWordEvaluation core slot lane) s = .next (setWaitLanes s1 core slot e.mask markAgain)) ∧
    (touch s core { gslot := gslotFor g core slot, ix := e.ix, rgn := e.rgn } (waitTouches ls) = none → ls.find? (evalBad s core g.part) = none →
     (((ls.map (evalLane s core g.part cmp)).all fun l => l.seen.isSome) = true →
      ∃ t h, exec (.waitWordEvaluation core slot lane) s = .next t ∧ getGroup t core slot = some h ∧ t.mem = s.mem ∧
        (let g' := waitWrite isTry o nw act (waitRow isTry (ls.map (evalLane s core g.part cmp))) g
         h.vregs = g'.vregs ∧ h.preds = g'.preds ∧ h.sregs = g'.sregs) ∧
        (Disjoint' g.front → e.rep = none → laneAt h.front lane = some (e.ix + 1, e.rgn))) ∧
    (((ls.map (evalLane s core g.part cmp)).all fun l => l.seen.isSome) = false →
      exec (.waitWordEvaluation core slot lane) s = .next (modGroup s core slot fun g =>
        { g with front := modEntry g.front e.mask fun e =>
            { e with wait := some (.word isTry o nw cmp (ls.map fun l => { evalLane s core g.part cmp l with again := false }) act since) } })))

/-- A TRYW timeout completes: the TRYW ends 2,048 cycles after its issue with the lanes satisfied so far in its predicate, and the entry goes on; a word in a window that is not PRESENT is not read (R152, R164). -/
def Sys2Proof.Machine.Says.TryWaitTimesOut : Prop :=
  ∀ s core slot lane g e n o nw cmp ls act since, WaitStands s core slot lane g e n true o nw cmp ls act since →
    ∃ t h, exec (.trywTimeout core slot lane) s = .next t ∧ getGroup t core slot = some h ∧ since + 2048 ≤ (getCore t core).cyc ∧
      (let r := waitRow true (ls.map fun l =>
          if l.loc && !(absentWins (getCore s core) [(l.addr, 4)]).isEmpty then l else evalLane s core g.part cmp l)
       h.preds = (if nw then g else predGroup g (numOf o) act (rowBits r)).preds) ∧ h.vregs = g.vregs ∧
      (Disjoint' g.front → e.rep = none → laneAt h.front lane = some (e.ix + 1, e.rgn))

/-- A page walk completes. Where it finds a leaf, the die's TLB holds it, the walk is over, and where it permits every waiting access no entry faults (R248 to
R251). With nothing in the die's page-walk cache a walk reads the tables in memory (R252). -/
def Sys2Proof.Machine.Says.WalkFindsLeaf : Prop :=
  (∀ s die part va, (getDie s die).pwc = [] → (dieWalk s die part va).1 = walkVa s part va) ∧
  ∀ s die id w base size pte, (getDie s die).walks.find? (fun w => w.id == id) = some w → w.asked = false → w.again = false →
    (dieWalk s die w.part (match w.waiters.head? with | some q => q.va | none => BitVec.ofNat 64 (w.page * 65536))).1 = .leaf base size pte →
    ((getPart s w.part).hmode && pte.getLsbD 6) = false →
    (∀ q ∈ w.waiters, permits pte q.kind = true ∧ regionOf (paOf 0 base pte q.va) ≠ .device) →
    ∃ t, exec (.pageWalkComplete die id) s = .next t ∧ (getDie t die).walks = (getDie s die).walks.filter (fun w => w.id != id) ∧
      (getDie t die).stlb = tlbAdd 8192 (getDie s die).stlb { part := w.part, base := base, size := size, pte := pte } ∧
      t.mem = s.mem ∧ t.cores = s.cores ∧ t.parts = s.parts

/-- A walk that finds an invalid entry while the partition sends page requests asks the host once, and faults nothing yet (R251, R369). -/
def Sys2Proof.Machine.Says.WalkAsksTheHost : Prop :=
  ∀ s die id w, (getDie s die).walks.find? (fun w => w.id == id) = some w → w.asked = false → w.again = false → (getPart s w.part).prq = true →
    (dieWalk s die w.part (match w.waiters.head? with | some q => q.va | none => BitVec.ofNat 64 (w.page * 65536))).1 = .invalid →
    ∃ t, exec (.pageWalkComplete die id) s = .next t ∧
      (getDie t die).walks = ((getDie s die).walks.map fun v => if v.id = id then { v with asked := true } else v) ∧
      t.cores = s.cores ∧ t.parts = s.parts ∧ t.mem = s.mem

/-- A walk that finds an invalid entry, where the partition sends no page requests or the host has already served one, ends, and every waiting entry
takes PAGE (R251, R316, R369). -/
def Sys2Proof.Machine.Says.WalkRaisesPage : Prop :=
  ∀ s die id w, (getDie s die).walks.find? (fun w => w.id == id) = some w → w.asked = false →
    ((getPart s w.part).prq = false ∨ w.again = true) →
    (dieWalk s die w.part (match w.waiters.head? with | some q => q.va | none => BitVec.ofNat 64 (w.page * 65536))).1 = .invalid →
    ∃ t, exec (.pageWalkComplete die id) s = .next t ∧ (getDie t die).walks = ((getDie s die).walks.filter fun w => w.id != id) ∧ TakePage s t w

/-- A page request response completes: after a success the walk is made once more, after a failure it ends and every waiting entry takes PAGE
(R251, R369). -/
def Sys2Proof.Machine.Says.HostAnswersPageRequest : Prop :=
  ∀ s die id w, (getDie s die).walks.find? (fun w => w.id == id) = some w → w.asked = true →
    (∃ t, exec (.pageRequestResponse die id true) s = .next t ∧ .pageWalkComplete die id ∈ t.agenda ∧ t.cores = s.cores ∧ t.mem = s.mem ∧
      (getDie t die).walks = ((getDie s die).walks.map fun v => if v.id = id then { v with asked := false, again := true } else v)) ∧
    (∃ t, exec (.pageRequestResponse die id false) s = .next t ∧ (getDie t die).walks = ((getDie s die).walks.filter fun w => w.id != id) ∧
      TakePage s t w)

/-- A remote fault completes: a refusal reaches its core, the group charged issues nothing further and keeps the serial, its cause is PROTECTION unless it already has one,
and the line of its partition is up (R319, R323). -/
def Sys2Proof.Machine.Says.RefusalArrives : Prop :=
  ∀ s core d f l n, refusalsOf s core = (d, f) :: l → findNode s f.part f.node = some n →
    ∃ t, exec (.remoteFault core) s = .next t ∧ (getPart t f.part).squall = true ∧
      (∀ c k g, getGroup s c k = some g → g.part = f.part → g.node = f.node → g.blk = f.blk → g.grp = f.grp → g.shadow ≠ .shadow →
        ∃ h, getGroup t c k = some h ∧ h.raised = true ∧ h.serial = f.serial ∧ (g.cause = 0 → h.cause = 6 ∧ h.faddr = f.va) ∧
          h.vregs = g.vregs ∧ h.sregs = g.sregs ∧ h.preds = g.preds) ∧
      (∀ c k g, getGroup s c k = some g → ¬(g.part = f.part ∧ g.node = f.node ∧ g.blk = f.blk ∧ g.grp = f.grp) → getGroup t c k = some g)

/-- A shadow compare completes: equal ones let the leader's entry go, different ones are a consumption charged to the leader; the shadow's
operation is used up (R128, R332). -/
def Sys2Proof.Machine.Says.PairsAreCompared : Prop :=
  ∀ s core slot g h e o, getGroup s core (slot - 1) = some g → getGroup s core slot = some h → g.shadow = .leader → h.shadow = .shadow →
    comparable (getCore s core) (slot - 1) g h = some (e, o) → powered s core = true →
    ∃ t k, exec (.shadowCompare core slot) s = .next t ∧ getGroup t core slot = some k ∧ k.shq = h.shq.erase o ∧ k.vregs = h.vregs ∧
      t.mem = s.mem ∧
      (sameOp e o = true → .storeBufferRelease core g.blk ∈ t.agenda ∧
        ∀ x ∈ (bufOf (getCore t core) g.blk).ents, x.ord = e.ord → x.cmp = true) ∧
      (sameOp e o = false → .containment core (slot - 1) 7 0 ∈ t.agenda ∧
        (bufOf (getCore t core) g.blk).ents = (bufOf (getCore s core) g.blk).ents)

/-! # Barriers and holdings -/

namespace Sys2Proof.Machine

/-- An arrival at a barrier that passes the checks of R184 and R185: all live lanes take part, the node has the level, the group has nothing to wait for
at its scope, and its mask is one the unit can have that names it and disagrees with no meeting in progress; a pair's shadow has come to the same
arrival, which `s1` has used up (R128). -/
def MayArrive (s s1 : State) (x : Ctx) (v : Srcs) (level : Nat) : Prop :=
  level < x.node.la.levels.length ∧ x.act = x.g.front.foldl (fun m e => m ||| e.mask) 0 ∧ x.g.shadow ≠ .shadow ∧
  x.node.granted.contains (x.g.blk, x.g.grp) = false ∧ atBar x.node x.g.blk x.g.grp = false ∧
  reached s x (levelScope x.node.la level) = true ∧ arrivalBad x.node level (loWord (lane64 v.y 0)) x.g.blk x.g.grp = false ∧
  matchShadow s x (.bar level (loWord (lane64 v.y 0))) = .equal s1

/-- The node once the group has arrived (R184). -/
def arrivedNode (x : Ctx) (v : Srcs) (level : Nat) : Node := arrive x.node level (loWord (lane64 v.y 0)) x.g.blk x.g.grp

/-- The holdings instructions that send one operation and go on (R199 to R203): the operation, the alignment, whether it releases first. -/
def holdSends : Instr → Option (Enc × (Srcs → HoldOp) × Nat × Bool)
  | .unlock c => some (c, fun _ => .unlock, 128, true)
  | .rels c => some (c, fun _ => .rels, 128, true)
  | .prom c => some (c, fun _ => .prom, 16, false)
  | .fulf c brk => some (c, fun v => .fulf brk (lane64 v.z 0), 16, true)
  | .heir c k false => some (c, fun _ => .heir k (c.imm.toNat % 32), 16, false)
  | _ => none

/-- The holdings instructions that ask and go on with a reply out (R199, R203, R204): operation, alignment, whether the reply acquires, the predicate
it writes or `none` for a pair, the reply's type. -/
def holdAsks : Instr → Option (Enc × HoldOp × Nat × Bool × Option Nat × Ty)
  | .tlock c => some (c, .tlock, 128, true, some (numOf c.x), .b32)
  | .claim c => some (c, .claim, 128, true, some (numOf c.x), .b32)
  | .holdq c => some (c, .holdq, 16, false, none, .b64)
  | _ => none

/-- The holdings instructions whose entry is BLOCKED until the unit answers (R199, R202). -/
def holdBlocks : Instr → Option (Enc × HoldOp × Nat × (Ctx → LaneAcc → Wait))
  | .lock c => some (c, .lock, 128, fun x a => .lock c.x c.nw x.act a.pa a.va)
  | .pwait c => some (c, .pwait, 16, fun x a => .pwait c.x c.z c.nw x.act a.pa a.va)
  | _ => none

/-- A holding word's operation first of its line at its unit, not refused and not poisoned, of a node that stands. -/
def HoldReady (s : State) (cl idx : Nat) (e : SbEntry) (op : HoldOp) (pa : Nat) (n : Node) : Prop :=
  FirstOfLine s cl idx e ∧ e.op = .hold op pa ∧ refusalOf (getPart s e.part).lay pa = none ∧ linePoisoned s pa = false ∧
  findNode s e.part e.node = some n

end Sys2Proof.Machine

/-- BAR whose arrival ends its meeting, or whose meeting has released the group already, completes: the acquire of the level's scope is made, and no
register and no memory changes (R147, R183 to R185). -/
def Sys2Proof.Machine.Says.BarrierCompletes : Prop :=
  (∀ c level s s1 x v left added, Ready (.bar c level) c s x v left added → MayArrive s s1 x v level.val →
    (arrivedNode x v level.val).granted.contains (x.g.blk, x.g.grp) = true →
    ∃ t, exec (.bar c level) s = .next t ∧ Kept (sourced x (.bar c level) c left added zeroRow (acquire
      (modNode s1 x.g.part x.g.node fun _ => { arrivedNode x v level.val with granted := (arrivedNode x v level.val).granted.erase (x.g.blk, x.g.grp) })
      x.core (levelScope x.node.la level.val))) t) ∧
  (∀ c level s x v left added, Ready (.bar c level) c s x v left added → level.val < x.node.la.levels.length →
    x.act = x.g.front.foldl (fun m e => m ||| e.mask) 0 → x.g.shadow ≠ .shadow → x.node.granted.contains (x.g.blk, x.g.grp) = true →
    ∃ t, exec (.bar c level) s = .next t ∧ Kept (sourced x (.bar c level) c left added zeroRow (acquire
      (modNode s x.g.part x.g.node fun n => { n with granted := n.granted.erase (x.g.blk, x.g.grp) }) x.core (levelScope x.node.la level.val))) t)

/-- An arrival that leaves members of its meeting to come waits at the barrier (R184, R185). -/
def Sys2Proof.Machine.Says.BarrierWaits : Prop :=
  ∀ c level s s1 x v left added, Ready (.bar c level) c s x v left added → MayArrive s s1 x v level.val →
    (arrivedNode x v level.val).granted.contains (x.g.blk, x.g.grp) = false →
    exec (.bar c level) s = .next (holdGroup x (modNode s1 x.g.part x.g.node fun _ => arrivedNode x v level.val))

/-- BAR with some live lanes missing raises ILLEGAL_CONVERGENCE; a mask that the unit cannot have, that does not name the group or that disagrees with a
meeting in progress raises MEMBERSHIP (R184, R185). -/
def Sys2Proof.Machine.Says.BarrierFaults : Prop :=
  (∀ c level s x v left added, Ready (.bar c level) c s x v left added → level.val < x.node.la.levels.length →
    x.act ≠ x.g.front.foldl (fun m e => m ||| e.mask) 0 → exec (.bar c level) s = .next (trapIssue x .illegalConvergence 0 s)) ∧
  (∀ c level s x v left added, Ready (.bar c level) c s x v left added → level.val < x.node.la.levels.length →
    x.act = x.g.front.foldl (fun m e => m ||| e.mask) 0 → x.g.shadow ≠ .shadow → x.node.granted.contains (x.g.blk, x.g.grp) = false →
    atBar x.node x.g.blk x.g.grp = false → reached s x (levelScope x.node.la level.val) = true →
    arrivalBad x.node level.val (loWord (lane64 v.y 0)) x.g.blk x.g.grp = true → exec (.bar c level) s = .next (trapIssue x .membership 0 s))

/-- A meeting whose every member has arrived or is gone releases all who arrived, at once, and is over; any other stays as it is (R184). -/
def Sys2Proof.Machine.Says.MeetingReleasesTogether : Prop :=
  ∀ n b, b ∈ n.bars →
    (barDone n b = true → b ∉ (settleBars n).bars ∧ ∀ a ∈ b.arrived, a ∈ (settleBars n).granted) ∧
    (barDone n b = false → b ∈ (settleBars n).bars)

/-- UNLOCK, RELS, PROM, FULF and HEIR on a word complete: they send their operation in the block's buffer and go on; those that release wait until the stores before
them have reached the device; nothing else changes (R187, R198 to R203). -/
def Sys2Proof.Machine.Says.HoldingsSend : Prop :=
  ∀ i c op align rel s x v left added a s1, holdSends i = some (c, op, align, rel) → Ready i c s x v left added → x.act ≠ 0 →
    (∀ k d, i = .heir c k d → ¬(k = .group ∧ groupsPerBlock x.node.la ≤ c.imm.toNat % 32)) →
    holdAt x v align s = .ok [a] s1 → (rel = true → reached s1 x .device = true) → bufRoom s1 x 1 = true →
    ∃ t, exec i s = .next t ∧ Kept (sourced x i c left added zeroRow (emit x [mkEntry x (.hold (op v) a.pa) a.va a.pa a.home none] s1)) t

/-- HEIR with `.dflt` completes: it sets the group's own default heir and touches no memory; a group number that the block does not have raises
ILLEGAL_OPERAND (R200). -/
def Sys2Proof.Machine.Says.HeirDefault : Prop :=
  ∀ c k s x v left added, Ready (.heir c k true) c s x v left added →
    ((k = .group ∧ groupsPerBlock x.node.la ≤ c.imm.toNat % 32) → exec (.heir c k true) s = .next (trapIssue x .illegalOperand 0 s)) ∧
    (¬(k = .group ∧ groupsPerBlock x.node.la ≤ c.imm.toNat % 32) →
      ∃ t, exec (.heir c k true) s = .next t ∧ Kept (sourced x (.heir c k true) c left added zeroRow (if x.act = 0 then s else
        modGroup s x.core x.slot fun g => { g with heirKind := k, heirGrp := if k = .group then c.imm.toNat % 32 else 0 })) t)

/-- TLOCK, CLAIM and HOLDQ complete their issue: they send their operation and have a reply out for their predicate or pair; one that takes a
holding does so once no UNLOCK of its group is still to be performed (R198, R199, R203, R204, R374). -/
def Sys2Proof.Machine.Says.HoldingsAsk : Prop :=
  ∀ i c op align acq pred ty s x v left added a s1, holdAsks i = some (c, op, align, acq, pred, ty) → Ready i c s x v left added →
    x.act ≠ 0 → x.g.shadow ≠ .shadow → holdAt x v align s = .ok [a] s1 → (takesHold op && unlocking s1 x) = false → bufRoom s1 x 1 = true →
    ∃ t, exec i s = .next t ∧ Kept (sourcedLate x i c left added s1.reqId (addPend
      (emit x [mkEntry x (.hold op a.pa) a.va a.pa a.home (some s1.reqId)] { s1 with reqId := s1.reqId + 1 }) x.core x.slot
      { id := s1.reqId, kind := .hold acq, mask := x.e.mask, dst := if pred.isSome then .zero else c.x, ty := ty, nw := c.nw, act := x.act,
        lanes := [a], pred := pred, tag := tagOf x })) t

/-- LOCK and PWAIT complete their issue: they send their operation, and their entry is BLOCKED at its IX until the unit answers (R122, R198, R199, R202);
that it is so of a free lock too is the model's reading (log 18). -/
def Sys2Proof.Machine.Says.HoldingsBlock : Prop :=
  ∀ i c op align w s x v left added a s1, holdBlocks i = some (c, op, align, w) → Ready i c s x v left added → x.act ≠ 0 →
    holdAt x v align s = .ok [a] s1 → (takesHold op && unlocking s1 x) = false → bufRoom s1 x 1 = true →
    ∃ t h e, exec i s = .next (commitSources x (rulesOf i) c left added t) ∧
      Kept (emit x [mkEntry x (.hold op a.pa) a.va a.pa a.home none] s1) t ∧ getGroup t x.core x.slot = some h ∧ e ∈ h.front ∧
      e.mask = x.e.mask ∧ e.st = .blocked ∧ e.wait = some (w x a) ∧ e.ix = x.e.ix

/-- A holdings instruction whose address is misaligned, not canonical or without W faults before anything is sent (R187, R198). -/
def Sys2Proof.Machine.Says.HoldingsFault : Prop :=
  ∀ i c align k va s x v left added,
    ((∃ op rel, holdSends i = some (c, op, align, rel)) ∨ (∃ op acq pred ty, holdAsks i = some (c, op, align, acq, pred, ty)) ∨
      (∃ op w, holdBlocks i = some (c, op, align, w))) →
    Ready i c s x v left added → x.act ≠ 0 → (∀ j d, i = .heir c j d → ¬(j = .group ∧ groupsPerBlock x.node.la ≤ c.imm.toNat % 32)) →
    holdAt x v align s = .trap k va → exec i s = .next (trapIssue x k va s)

/-- A free lock taken at its unit: the word is LOCKED with its generation counted up, owned by the group with that group's default heir, and live (R186,
R187, R190, R195). -/
def Sys2Proof.Machine.Says.LockIsTaken : Prop :=
  ∀ s cl idx e pa n s1, HoldReady s cl idx e .lock pa n → ((hwGet s pa).kind = 0 ∨ (hwGet s pa).kind = 1) → (hwGet s pa).state = 0 →
    takeHolding (modCluster s cl fun k => { k with wq := listDrop k.wq idx }) n e pa 1 (hwGet s pa) (hwGet s pa).brv = some s1 →
    ∃ t, exec (.sliceOperation (.write cl idx)) s = .next t ∧ (hwGet t pa).state = 1 ∧ (hwGet t pa).kind = 1 ∧
      (hwGet t pa).owner = (e.blk * 32 + e.grp) % 2 ^ 32 ∧ (hwGet t pa).estag = n.estag % 2 ^ 16 ∧ (hwGet t pa).lo = ((hwGet s pa).lo + 1) % 2 ^ 32 ∧
      mapGet false t.live (pa / 16) = true ∧ (hwGet t pa).hkind = hkindCode (defaultHeir s e.part n e.blk e.grp).1 ∧
      (hwGet t pa).hgrp = (if (defaultHeir s e.part n e.blk e.grp).1 = .group then (defaultHeir s e.part n e.blk e.grp).2 % 32 else 0)

/-- What becomes live takes a free entry of its node's estate table whose line can be read: its address, KIND, ESTAG, ORD and OWNER are written
there, and the owner's next ORD is one more; with no such entry there is none (R189, R192). -/
def Sys2Proof.Machine.Says.EstateEntryTaken : Prop :=
  (∀ s part node n owner kind va t, findNode s part node = some n → estAlloc s part node owner kind va = some t →
    ∃ e ∈ estTable s part n, e.kind = 0 ∧ badEntry s part n e = none ∧
      (∃ u m, t = tryWrite u part (n.la.estate + BitVec.ofNat 64 (32 * e.idx)) 32
          (recordOf [(0, va.toNat), (64, kind), (80, n.estag), (96, (mapGet 0 n.ords owner).toNat), (128, owner)]) ∧
        u.mem = s.mem ∧ findNode u part node = some m ∧ mapGet 0 m.ords owner = mapGet 0 n.ords owner + 1)) ∧
  (∀ s part node n owner kind va, findNode s part node = some n → (∀ e ∈ estTable s part n, e.kind = 0 → badEntry s part n e ≠ none) →
    estAlloc s part node owner kind va = none)

/-- A lock that another group holds: the LOCK joins the end of its queue, and the word stays (R195). -/
def Sys2Proof.Machine.Says.LockQueues : Prop :=
  ∀ s cl idx e pa n, HoldReady s cl idx e .lock pa n → (hwGet s pa).kind = 1 → (hwGet s pa).state = 1 → hwOwned n e (hwGet s pa) = false →
    ∃ t w, exec (.sliceOperation (.write cl idx)) s = .next t ∧ t.mem = s.mem ∧ (getPart t e.part).holdq = (getPart s e.part).holdq ++ [w] ∧
      w.pa = pa ∧ w.isLock = true ∧ w.core = e.core ∧ w.slot = e.slot ∧ w.blk = e.blk ∧ w.grp = e.grp

/-- UNLOCK by the owner with nobody waiting: the word is FREE without owner, and no longer live (R187, R195). -/
def Sys2Proof.Machine.Says.UnlockFrees : Prop :=
  ∀ s cl idx e pa n, HoldReady s cl idx e .unlock pa n → (hwGet s pa).kind = 1 → (hwGet s pa).state = 1 → hwOwned n e (hwGet s pa) = true →
    waitersAt s e.part pa true = [] →
    ∃ t, exec (.sliceOperation (.write cl idx)) s = .next t ∧ (hwGet t pa).state = 0 ∧ (hwGet t pa).owner = 0 ∧ (hwGet t pa).estag = 0 ∧
      (hwGet t pa).brv = false ∧ mapGet false t.live (pa / 16) = false

/-- FULF by the owner settles the promise: FULFILLED with its value, or BROKEN; it has no owner and is no longer live (R187, R196, R201). -/
def Sys2Proof.Machine.Says.PromiseSettles : Prop :=
  ∀ s cl idx e pa n brk val, HoldReady s cl idx e (.fulf brk val) pa n → (hwGet s pa).kind = 2 → (hwGet s pa).state = 0 →
    hwOwned n e (hwGet s pa) = true → waitersAt s e.part pa false = [] →
    ∃ t, exec (.sliceOperation (.write cl idx)) s = .next t ∧ (hwGet t pa).state = (if brk then 2 else 1) ∧ (hwGet t pa).owner = 0 ∧
      (brk = false → (hwGet t pa).lo + 2 ^ 32 * (hwGet t pa).hi = val.toNat) ∧ mapGet false t.live (pa / 16) = false

/-- An operation that the word's state does not admit is refused with SUB 5, and the word stays; whether it is live is as it reads (R187, R195, R196,
R323). -/
def Sys2Proof.Machine.Says.WrongStateIsRefused : Prop :=
  ∀ s cl idx e op pa n, HoldReady s cl idx e op pa n → (op = .unlock ∨ op = .rels ∨ (∃ b v, op = .fulf b v) ∨ (∃ k g, op = .heir k g)) →
    hwOwned n e (hwGet s pa) = false →
    ∃ t, exec (.sliceOperation (.write cl idx)) s = .next t ∧ t.mem = s.mem ∧ t.live = mapSet false s.live (pa / 16) (hwLive (hwGet s pa)) ∧
      (let k := nextSerial (getDie s (e.home / 64)).serial
       (getDie t (e.home / 64)).serial = k ∧ (getDie t (e.home / 64)).errlog.head? = some
         (fullRecord (getPart s e.part).lay (originOf e pa) (e.home / 64) 5 6 (BitVec.ofNat 32 (e.home / 64 * 2 ^ 29 + k))))

/-- A host holding store completes. On a word that the host owns, 0 frees a lock nobody waits for; 1 or 2 settles a promise; a word that the host does not own is no
holding of its, and the host of a module that is not presented to it stores nothing (R35, R187, R194). -/
def Sys2Proof.Machine.Says.HostStoresSettle : Prop :=
  (∀ s part pa st val, presented s = false → exec (.hostHoldingStore part pa st val) s = .next s) ∧
  (∀ s part pa val, presented s = true → hwLive (hwGet s pa) = true → (hwGet s pa).owner = 0xFFFFFFFF → (hwGet s pa).estag = 0 → pa % 16 = 0 →
    refusalOf (getPart s part).lay pa = none → (hwGet s pa).kind = 1 → waitersAt s part pa true = [] →
    ∃ t, exec (.hostHoldingStore part pa 0 val) s = .next t ∧ (hwGet t pa).state = 0 ∧ (hwGet t pa).owner = 0 ∧ mapGet false t.live (pa / 16) = false) ∧
  (∀ s part pa val, presented s = true → hwLive (hwGet s pa) = true → (hwGet s pa).owner = 0xFFFFFFFF → (hwGet s pa).estag = 0 → pa % 16 = 0 →
    refusalOf (getPart s part).lay pa = none → (hwGet s pa).kind = 2 → waitersAt s part pa false = [] →
    ∀ st : Fin 4, st = 1 ∨ st = 2 →
    ∃ t, exec (.hostHoldingStore part pa st val) s = .next t ∧ (hwGet t pa).state = st.val ∧ (hwGet t pa).owner = 0 ∧
      (hwGet t pa).lo + 2 ^ 32 * (hwGet t pa).hi = val.toNat ∧ mapGet false t.live (pa / 16) = false) ∧
  (∀ s part pa st val, hwLive (hwGet s pa) = false ∨ (hwGet s pa).owner ≠ 0xFFFFFFFF → exec (.hostHoldingStore part pa st val) s = .next s)

/-- An estate walk step completes: it conveys it as the word's heir says, counts it as heirless where there is none, and goes on with the
next; with none left the walk is over, and the group's slot is free, in an overcast lattice once its tile's record is written (R190 to R193, R289,
R335). -/
def Sys2Proof.Machine.Says.EstateWalks : Prop :=
  (∀ s s1 die w q n e l, (getDie s die).estq = w :: q → estateStopped s w.part die = false → inFlight s w = false →
    findNode s w.part w.node = some n → leftOf s w n = e :: l →
    issueAll s w.part .journal (requestsOf s w.part .read [estAt n e.idx, e.addr]) = some s1 →
    ∃ t, exec (.estateWalk die) s = .next t ∧ t.mem = (conveyOne s1 w n e).s.mem ∧ (getDie t die).estLast = e.addr ∧ .estateWalk die ∈ t.agenda ∧
      (∃ w1 q1, (getDie t die).estq = w1 :: q1 ∧ w1.heirless = w.heirless + (if (conveyOne s1 w n e).heirless then 1 else 0))) ∧
  (∀ s die w q n, (getDie s die).estq = w :: q → estateStopped s w.part die = false → inFlight s w = false →
    findNode s w.part w.node = some n → leftOf s w n = [] → w.heirless = 0 →
    ∃ t, exec (.estateWalk die) s = .next t ∧ (getDie t die).estq = q ∧ t.mem = s.mem ∧
      (∀ g, getGroup s (w.gslot / 64) (w.gslot % 64) = some g → g.part = w.part → g.node = w.node → g.blk = w.blk → g.grp = w.grp →
        (n.la.dims = 0 ∨ overcast n = false ∨ w.killed = true) → getGroup t (w.gslot / 64) (w.gslot % 64) = none) ∧
      (∀ g, getGroup s (w.gslot / 64) (w.gslot % 64) = some g → g.part = w.part → g.node = w.node → g.blk = w.blk → g.grp = w.grp →
        n.la.dims ≠ 0 → overcast n = true → w.killed = false → getGroup t (w.gslot / 64) (w.gslot % 64) = some g ∧
          .downdraft w.part w.node.toNat ∈ t.agenda ∧
          ∃ q ∈ (getDie t (dieOf (w.gslot / 64))).swapq, q.tile = tileOf n.la g ∧ q.op = 3 ∧ q.node = w.node))

/-- The heir of a holding: the named group of the block if it survives, else none; the lowest surviving other group of the block, then of the node; the
host for PARENT; the relaunched block for SUCCESSOR (R190). -/
def Sys2Proof.Machine.Says.HeirsResolve : Prop :=
  ∀ s part n blk grp rel w,
    (w.hkind = 0 → w.hgrp ≠ grp → w.hgrp < groupsPerBlock n.la → survives s part n blk w.hgrp = true →
      resolveHeir s part n blk grp rel w = .grp blk w.hgrp) ∧
    (w.hkind = 0 → survives s part n blk w.hgrp = false → resolveHeir s part n blk grp rel w = .none) ∧
    (∀ k, w.hkind = 1 → k < groupsPerBlock n.la → k ≠ grp → survives s part n blk k = true →
      (∀ j, j < k → j ≠ grp → survives s part n blk j = false) → resolveHeir s part n blk grp rel w = .grp blk k) ∧
    (∀ b k, w.hkind = 1 → (∀ j, j < groupsPerBlock n.la → j ≠ grp → survives s part n blk j = false) →
      ((∀ p ∈ allGroups n.la, p ≠ (blk, grp) → survives s part n p.1 p.2 = false) → resolveHeir s part n blk grp rel w = .none) ∧
      ((b, k) ∈ allGroups n.la → (b, k) ≠ (blk, grp) → survives s part n b k = true →
        (∀ p ∈ allGroups n.la, (p.1 < b ∨ p.1 = b ∧ p.2 < k) → p ≠ (blk, grp) → survives s part n p.1 p.2 = false) →
        resolveHeir s part n blk grp rel w = .grp b k)) ∧
    (w.hkind = 2 → resolveHeir s part n blk grp rel w = .host) ∧
    (w.hkind = 3 → resolveHeir s part n blk grp rel w = if rel then .later else .none) ∧ (w.hkind = 4 → resolveHeir s part n blk grp rel w = .none)

/-- A successor conveyance completes. A relaunched block with one group that its predecessor left one SUCCESSOR holding: the holding is conveyed to that group (R190, R191). -/
def Sys2Proof.Machine.Says.SuccessorInherits : Prop :=
  ∀ s part node blk n e pa pte, findNode s part (BitVec.ofNat 64 node) = some n → groupsPerBlock n.la = 1 →
    (groupOf s part n blk 0).isSome = true → ownedEnts s part n blk 0 = [e] → engTrans s part e.addr .write = .ok pa pte →
    (hwGet s pa).hkind = 3 → exec (.successorConveyance part node blk) s = .next (conveyTo s part n e pa blk 0)

/-! # Lattices and messages -/

/-- STEP completes with no neighbour behind: it publishes and counts, and sends the labels to the cores that mirror the tile; otherwise its group waits
(R175, R180, R281). -/
def Sys2Proof.Machine.Says.StepPublishes : Prop :=
  (∀ c s s1 x v left added, Ready (.step c) c s x v left added → x.node.la.dims ≠ 0 → x.g.step ≠ 0xFFFFFFFF → x.g.shadow ≠ .shadow → stepFault s x = none →
    matchShadow s x (.stepSend x.g.step.toNat (exportsOf x.node.la x.g)) = .equal s1 →
    (∀ t ∈ neighbourTiles x.node.la (tileOf x.node.la x.g), tileBehind s x.node x.g.part x.core (tileOf x.node.la x.g) x.g.step.toNat t = false) →
    ∃ t, exec (.step c) s = .next t ∧ Kept (sourced x (.step c) c left added zeroRow
      (sendLabels (modNode (markReleased (modGroup s1 x.core x.slot (published x.node.la)) x.g.part x.g.node x.g.blk) x.g.part x.g.node
        fun n => { n with published := true }) x.node x.core (published x.node.la x.g))) t) ∧
  (∀ c s x v left added, Ready (.step c) c s x v left added → x.node.la.dims ≠ 0 → x.g.step ≠ 0xFFFFFFFF → x.g.shadow ≠ .shadow → stepFault s x = none →
    (∃ t ∈ neighbourTiles x.node.la (tileOf x.node.la x.g), tileBehind s x.node x.g.part x.core (tileOf x.node.la x.g) x.g.step.toNat t = true) →
    exec (.step c) s = .next (holdGroup x (markHeld x (neighbourTiles x.node.la (tileOf x.node.la x.g)) s)))

/-- BAR and STEP of a pair's shadow go on at once: the operation is kept for the leader's, and a shadow's STEP counts too: the model's
reading (log 16). -/
def Sys2Proof.Machine.Says.ShadowsGoOn : Prop :=
  (∀ c level s x v left added, Ready (.bar c level) c s x v left added → level.val < x.node.la.levels.length →
    x.act = x.g.front.foldl (fun m e => m ||| e.mask) 0 → x.g.shadow = .shadow →
    ∃ t, exec (.bar c level) s = .next t ∧ Kept (sourced x (.bar c level) c left added zeroRow
      (modGroup s x.core x.slot fun g => { g with shq := g.shq ++ [mkEntry x (.bar level.val (loWord (lane64 v.y 0))) 0 0 0 none] })) t) ∧
  (∀ c s x v left added, Ready (.step c) c s x v left added → x.node.la.dims ≠ 0 → x.g.step ≠ 0xFFFFFFFF → x.g.shadow = .shadow →
    ∃ t, exec (.step c) s = .next t ∧ Kept (sourced x (.step c) c left added zeroRow
      (modGroup s x.core x.slot fun g =>
        { g with step := g.step + 1, shq := g.shq ++ [mkEntry x (.stepSend x.g.step.toNat (exportsOf x.node.la x.g)) 0 0 0 none] })) t)

/-- A publication: bank C mod 2 takes v0 to v(E - 1) with label C, the other bank stays, and the counter goes to C + 1 (R171, R175). -/
def Sys2Proof.Machine.Says.PublicationWritesBank : Prop :=
  ∀ la g,
    (published la g).step = g.step + 1 ∧ (published la g).vregs = g.vregs ∧ (published la g).sregs = g.sregs ∧
    (∀ b, b = (if g.step.toNat % 2 = 0 then (published la g).bank0 else (published la g).bank1) →
      b.label = some (Int.ofNat g.step.toNat) ∧ ∀ k, k < la.ecount → bankRow b k = vreg g k) ∧
    (if g.step.toNat % 2 = 0 then (published la g).bank1 = g.bank1 else (published la g).bank0 = g.bank0)

/-- A neighbour read: SELF is the group's own bank with label C - 1, a neighbour in the same tile is another of its lanes, beyond an edge without
wrap the EDGE rule gives the value, and a neighbour tile that is behind, or whose label has not come to this core's face yet, is waited for (R173,
R174, R281). -/
def Sys2Proof.Machine.Says.NeighbourReads : Prop :=
  ∀ s n g core d k l,
    nbLane s n g core .self k l = .val (bankVal g.bank0 g.bank1 ((g.step.toNat + 1) % 2) k l) ∧
    (d ≠ .self → moveCell n.la d (cellOf n.la (tileOf n.la g) l) = none →
      nbLane s n g core d k l = .val (if n.la.edge = 0 then 0 else if n.la.edge = 1 then
        bankVal g.bank0 g.bank1 ((g.step.toNat + 1) % 2) k l else n.la.kconst)) ∧
    (∀ c2, d ≠ .self → moveCell n.la d (cellOf n.la (tileOf n.la g) l) = some c2 → (tileOfCell n.la c2).1 = tileOf n.la g →
      nbLane s n g core d k l = .val (bankVal g.bank0 g.bank1 ((g.step.toNat + 1) % 2) k
        ((tileOfCell n.la c2).2 * lanesPerCell n.la + l % lanesPerCell n.la))) ∧
    (∀ c2 v, d ≠ .self → moveCell n.la d (cellOf n.la (tileOf n.la g) l) = some c2 → (tileOfCell n.la c2).1 ≠ tileOf n.la g →
      findTile s g.part n core (tileOf n.la g) d (tileOfCell n.la c2).1 = .view v →
      (v.count < g.step.toNat ∧ v.exited = false ∨ v.has (Int.ofNat g.step.toNat - 1) = false) → nbLane s n g core d k l = .wait) ∧
    (∀ c2 v, d ≠ .self → moveCell n.la d (cellOf n.la (tileOf n.la g) l) = some c2 → (tileOfCell n.la c2).1 ≠ tileOf n.la g →
      findTile s g.part n core (tileOf n.la g) d (tileOfCell n.la c2).1 = .view v → g.step.toNat ≤ v.count →
      v.has (Int.ofNat g.step.toNat - 1) = true →
      nbLane s n g core d k l = v.bank ((g.step.toNat + 1) % 2) k ((tileOfCell n.la c2).2 * lanesPerCell n.la + l % lanesPerCell n.la))

/-- LQRY in a lattice launch completes: it tells each lane how its cell reaches the neighbour IMM names and where that neighbour's banks are; a code of no
direction, and LQRY outside a lattice, raise ILLEGAL_INSTRUCTION (R181). -/
def Sys2Proof.Machine.Says.LatticeQuery : Prop :=
  (∀ c s x v left added d, Ready (.lqry c) c s x v left added → dirOfCode c.imm.toNat = some d → x.node.la.dims ≠ 0 →
    ∃ t, exec (.lqry c) s = .next t ∧
      (let r := rowOf fun l => BitVec.ofNat 64 (relOf x.node.la d (cellOf x.node.la (tileOf x.node.la x.g) l) +
          4 * locOf x.node x.g x.core d (cellOf x.node.la (tileOf x.node.la x.g) l))
       Kept (sourced x (.lqry c) c left added r (writeDst x c.x false c.nw r s)) t)) ∧
  (∀ c s x v left added, Ready (.lqry c) c s x v left added → (dirOfCode c.imm.toNat = none ∨ x.node.la.dims = 0) →
    exec (.lqry c) s = .next (trapIssue x .illegalInstruction 0 s))

/-- MQCF and MQST complete: MQCF sets its port's configuration from a legal word whose destination lies in the partition; MQST reads a port's status (R274, R275). -/
def Sys2Proof.Machine.Says.PortsConfigured : Prop :=
  (∀ c s x v left added (n : Fin 4), Ready (.mqcf c) c s x v left added → x.act ≠ 0 → c.x = .mq n →
    (let w : Word := (lane64 v.y 0).setWidth 32
     w.extractLsb' 13 18 = 0 → w.extractLsb' 11 2 ≠ 3 → (w.getLsbD 31 = true ∧ (getPart s x.g.part).lay.clusters.contains (w.toNat % 512 / 4) = true ∨ w = 0) →
     ∃ t, exec (.mqcf c) s = .next t ∧ Kept (sourced x (.mqcf c) c left added zeroRow
       (modGroup s x.core x.slot fun g => { g with ports := mapSet 0 g.ports n.val w })) t)) ∧
  (∀ c s x v left added, Ready (.mqst c) c s x v left added → c.imm.toNat / 4 % 4 ≠ 3 →
    ∃ t, exec (.mqst c) s = .next t ∧
      (let r := rowOf fun _ => BitVec.ofNat 64 (mqstValue s x (c.imm.toNat % 4) (c.imm.toNat / 4 % 4))
       Kept (sourced x (.mqst c) c left added r (writeDst x c.x false c.nw r s)) t))

/-- MOV to a send port completes once the core's port accepts its packet: the words of the lanes of `act` are packed in ascending lane order, with the
port's next sequence number; until then, and while its destination is vacated, its entry alone waits; a port that is not configured, or that names a core of
another node, raises PROTECTION (R270, R274, R278). -/
def Sys2Proof.Machine.Says.SendsArePacked : Prop :=
  (∀ c ty s s1 x v left added (n : Fin 4) d, Ready (.mov c ty) c s x v left added → c.x = .mq n → x.act ≠ 0 → x.g.shadow ≠ .shadow →
    (mapGet 0 x.g.ports n.val).getLsbD 31 = true → sendTarget s x.g.part x.node ((mapGet 0 x.g.ports n.val).toNat % 512) = .core d →
    (let cfg : Word := BitVec.ofNat 32 ((mapGet 0 x.g.ports n.val).toNat - (mapGet 0 x.g.ports n.val).toNat % 512 + d)
     let words := (lanesOf x.act).map fun l => (lane64 v.y l).setWidth 32
     let op : MemOp := .send n.val cfg (mapGet 0 x.g.portSeq n.val) words
     let e := { mkEntry x op 0 0 0 none with cmp := true }
     matchShadow s x op = .equal s1 →
     (portAccepts s x e n.val cfg (mapGet 0 x.g.portSeq n.val) words = true →
       ∃ t, exec (.mov c ty) s = .next t ∧ Kept (sourced x (.mov c ty) c left added zeroRow (modGroup (emit x [e] s1) x.core x.slot fun g =>
         { g with portSeq := mapSet 0 g.portSeq n.val ((mapGet 0 x.g.portSeq n.val + 1) % 256) })) t) ∧
     (portAccepts s x e n.val cfg (mapGet 0 x.g.portSeq n.val) words = false → exec (.mov c ty) s = .next (holdEntry x s)))) ∧
  (∀ c ty s x v left added (n : Fin 4), Ready (.mov c ty) c s x v left added → c.x = .mq n → x.act ≠ 0 →
    (mapGet 0 x.g.ports n.val).getLsbD 31 = true → sendTarget s x.g.part x.node ((mapGet 0 x.g.ports n.val).toNat % 512) = .wait →
    exec (.mov c ty) s = .next (holdEntry x s)) ∧
  (∀ c ty s x v left added (n : Fin 4), Ready (.mov c ty) c s x v left added → c.x = .mq n → x.act ≠ 0 →
    ((mapGet 0 x.g.ports n.val).getLsbD 31 = false ∨ sendTarget s x.g.part x.node ((mapGet 0 x.g.ports n.val).toNat % 512) = .nowhere) →
    exec (.mov c ty) s = .next (trapIssue x .protection 0 s))

/-- A message accept completes, for a packet at its destination's router: accepted into its queue when that has room for its flits, discarded and counted where the core belongs to
another node, otherwise it stays (R271, R272). -/
def Sys2Proof.Machine.Says.MessagesAccepted : Prop :=
  ∀ s id p, packetOf s id = some p → p.nak = false → p.cls = .message → nextHop s.failed p = .here → savedFrom s p.part p.node p.dst = false →
    (coreHolds (getCore s p.dst) p.part p.node = true → queueFlits (mapGet {} (getCore s p.dst).mq p.dq) + flitsOf p.words.length ≤ 16 →
      ∃ t, exec (.messageAccept id) s = .next t ∧ packetOf t id = none ∧
        (mapGet {} (getCore t p.dst).mq p.dq).msgs = (mapGet {} (getCore s p.dst).mq p.dq).msgs ++
          [{ src := p.src, port := p.port, seq := p.seq, slot := p.slot, words := p.words }]) ∧
    (coreHolds (getCore s p.dst) p.part p.node = true → 16 < queueFlits (mapGet {} (getCore s p.dst).mq p.dq) + flitsOf p.words.length →
      exec (.messageAccept id) s = .next s) ∧
    (coreHolds (getCore s p.dst) p.part p.node = false →
      ∃ t, exec (.messageAccept id) s = .next t ∧ packetOf t id = none ∧
        (mapGet {} (getCore t p.dst).mq p.dq).msgs = (mapGet {} (getCore s p.dst).mq p.dq).msgs ∧
        (mapGet {} (getCore t p.dst).mq p.dq).discards = min 63 ((mapGet {} (getCore s p.dst).mq p.dq).discards + 1))

/-- A mesh hop and an escape channel move complete. A packet makes one hop on its channel when it is the head there and the next port has slots for all
its flits; blocked it stays and counts; after 64 clocks it goes to the escape channel, where it moves flit by flit; at its destination a message waits to be
accepted and any other packet is delivered once its last flit has come, a line's read to its slice, where it waits behind an operation of its
cluster's queue that must be performed first (R243, R264 to R267, R281). -/
def Sys2Proof.Machine.Says.PacketsHop : Prop :=
  (∀ s id p q, packetOf s id = some p → p.esc = false → p.nak = false → nextHop s.failed p ≠ .here → isHead s.packets p = true →
    takeSlots s.packets (hopped p (nextHop s.failed p)) = some q →
    ∃ t, exec (.meshHop id) s = .next t ∧ t.packets = (s.packets.filter fun r => r.id != q.id) ++ [q] ∧ t.mem = s.mem ∧ t.cores = s.cores) ∧
  (∀ s id p, packetOf s id = some p → p.esc = false → p.nak = false → nextHop s.failed p ≠ .here → isHead s.packets p = true →
    takeSlots s.packets (hopped p (nextHop s.failed p)) = none →
    ∃ t, exec (.meshHop id) s = .next t ∧ t.packets = (s.packets.map fun r => if r.id = p.id then { p with blocked := p.blocked + 1 } else r) ∧
      (63 ≤ p.blocked → p.entry < outside → .escapeChannelMove id ∈ t.agenda)) ∧
  (∀ s id p, packetOf s id = some p → p.esc = false → p.nak = false → 64 ≤ p.blocked → p.entry < outside →
    ∃ t, exec (.escapeChannelMove id) s = .next t ∧
      t.packets = s.packets.map fun r => if r.id = p.id then { p with esc := true, base := some (headPort p), blocked := 0 } else r) ∧
  (∀ s id p q, packetOf s id = some p → p.esc = true → p.nak = false → nextHop s.failed p ≠ .here → escStep s.failed s.packets p = some q →
    ∃ t, exec (.escapeChannelMove id) s = .next t ∧ t.packets = (s.packets.filter fun r => r.id != q.id) ++ [q] ∧ t.cores = s.cores) ∧
  (∀ s id p, packetOf s id = some p → p.nak = false → nextHop s.failed p = .here →
    (p.esc = false → exec (.meshHop id) s = .next (if p.cls = .message then post s [.messageAccept id] else deliver s p)) ∧
    (p.esc = true → p.cls = .message ∨ p.trail = [] →
      exec (.escapeChannelMove id) s = .next (if p.cls = .message then post s [.messageAccept id] else deliver s p)) ∧
    (∀ q k r, p.esc = true → p.cls ≠ .message → p.trail = (q, k) :: r → ∃ t p2, exec (.escapeChannelMove id) s = .next t ∧ p2 ∈ t.packets ∧
      p2.id = id ∧ p2.trail = (if k ≤ 1 then r else (q, k - 1) :: r) ∧ .escapeChannelMove id ∈ t.agenda ∧ t.mem = s.mem ∧ t.cores = s.cores)) ∧
  (∀ s p, budgetWaits s p = false → readHeld s p = true → deliver s p = s) ∧
  (∀ s p slot req line, p.cargo = .read slot req line → budgetWaits s p = false → readHeld s p = false →
    (deliver s p).agenda.head? = some (.sliceOperation (.read p.src slot req line)) ∧ packetOf (deliver s p) p.id = none)

/-- A link failure and a NAK resend complete. A link fails: it is logged at its tile's die, and the packets whose next hop it was are purged; a purged
packet is sent once more, on the escape channel from its source, but a load's request is asked for again by the rollback of its entry, on that channel
too, once a pair's shadow has compared what its leader issued before it; a message purged again, and a load that fails again, is a consumption by its
block (R125, R128, R268, R327). That responses and lattice packets are sent
again like requests is the model's choice (log 29). -/
def Sys2Proof.Machine.Says.LinksFail : Prop :=
  (∀ s l, (s.failed.any fun o => sameLink l o) = false →
    ∃ t, exec (.linkFailure l) s = .next t ∧ t.failed = l :: s.failed ∧ (getDie t (linkTile l % 8)).errCount = (getDie s (linkTile l % 8)).errCount + 1 ∧
      (∀ p o, p ∈ s.packets → hopLink p (nextHop s.failed p) = some o → sameLink l o = true → p.nak = false →
        { p with nak := true, rsv := 0, shr := 0, trail := [], base := none } ∈ t.packets ∧ .nakResend p.id ∈ t.agenda) ∧
      t.mem = s.mem ∧ t.cores = s.cores) ∧
  (∀ s id p, packetOf s id = some p → p.nak = true → p.resent = false → (∀ sl q ln, p.cargo ≠ .read sl q ln) →
    ∃ t q, exec (.nakResend id) s = .next t ∧ q ∈ t.packets ∧ q.id = p.id ∧ q.nak = false ∧ q.resent = true ∧ q.esc = true ∧ q.words = p.words ∧
      q.cargo = p.cargo ∧ q.dst = p.dst ∧ q.tile = dieOf p.src ∧ t.cores = s.cores) ∧
  (∀ s id p sl q ln, packetOf s id = some p → p.nak = true → p.cargo = .read sl q ln → lostWaits s p.src sl q = true → exec (.nakResend id) s = .next s) ∧
  (∀ s id p sl q ln, packetOf s id = some p → p.nak = true → p.cargo = .read sl q ln → lostWaits s p.src sl q = false →
    ∃ t, exec (.nakResend id) s = .next t ∧ packetOf t id = none ∧ t.mem = s.mem ∧
      ∀ g n pd, getGroup s p.src sl = some g → findNode s g.part g.node = some n → pendOf g q = some pd → Disjoint' g.front →
        (∀ e ∈ g.front, e.mask &&& pd.mask ≠ 0 → e.resend ≠ some pd.tag.ix) →
        ∃ h, getGroup t p.src sl = some h ∧ pendOf h q = none ∧ h.vregs = g.vregs ∧
          ∀ l e, l < 64 → entryOf g.front l = some e → e.mask &&& pd.mask ≠ 0 → laneAt h.front l = some (e.rgn, e.rgn)) ∧
  (∀ s id p sl q ln g n pd e, packetOf s id = some p → p.nak = true → p.cargo = .read sl q ln → lostWaits s p.src sl q = false → getGroup s p.src sl = some g →
    findNode s g.part g.node = some n → pendOf g q = some pd → e ∈ g.front → e.mask &&& pd.mask ≠ 0 → e.resend = some pd.tag.ix →
    ∃ t, exec (.nakResend id) s = .next t ∧ packetOf t id = none ∧ .containment p.src sl 8 0 ∈ t.agenda ∧ t.cores = s.cores) ∧
  (∀ x p, x.e.resend = some x.e.ix → (afterNak x p).esc = true ∧ (afterNak x p).resent = true) ∧
  (∀ s id p g, packetOf s id = some p → p.nak = true → p.resent = true → p.cls = .message → p.cargo = .words →
    getGroup s p.src p.slot = some g → g.part = p.part → g.node = p.node → g.blk = p.blk →
    ∃ t, exec (.nakResend id) s = .next t ∧ packetOf t id = none ∧ .containment p.src p.slot 8 0 ∈ t.agenda ∧ t.cores = s.cores)

/-- A neighbour label arrival and a receive port read complete. What arrives of a neighbour tile is written into its face on the core: its counter,
never lowered, or the cells of one export, unless the face holds that label or a later one; a blocked receive-port read whose packet has come stands LIVE
at its IX again (R122, R271, R281). -/
def Sys2Proof.Machine.Says.ArrivalsAtTheCore : Prop :=
  (∀ s core m l n, (getCore s core).inbound = m :: l → findNode s (getCore s core).part m.node = some n →
    ∃ t, exec (.neighbourLabelArrival core) s = .next t ∧ (getCore t core).inbound = l ∧ t.mem = s.mem ∧
      mirrorOf (getCore t core) m.node m.tile m.dir = faceTake n.la.ecount m (mirrorOf (getCore s core) m.node m.tile m.dir)) ∧
  (∀ k m f, m.cells = none → faceTake k m f = { f with count := max f.count (m.label + 1) }) ∧
  (∀ k m f j cells i w, m.cells = some (j, cells) → assoc cells i = some w → i < 64 →
    (∀ o, (if m.label % 2 = 0 then f.bank0 else f.bank1).label = some o → o < Int.ofNat m.label) →
    (bankRow (if m.label % 2 = 0 then (faceTake k m f).bank0 else (faceTake k m f).bank1) j)[i]? = some w ∧
    (if m.label % 2 = 0 then (faceTake k m f).bank1 = f.bank1 else (faceTake k m f).bank0 = f.bank0)) ∧
  (∀ s core slot lane g e q, getGroup s core slot = some g → entryOf g.front lane = some e → e.st = .blocked → e.wait = some (.recv q) →
    (deliverable s core q).isSome = true → Disjoint' g.front →
    ∃ t h f, exec (.receivePortRead core slot lane) s = .next t ∧ getGroup t core slot = some h ∧ entryOf h.front lane = some f ∧ f.st = .live ∧
      f.ix = e.ix ∧ f.rgn = e.rgn ∧ h.vregs = g.vregs ∧ t.mem = s.mem)

/-! # The matrix engine -/

namespace Sys2Proof.Machine

/-- What MLDW and MPASS post (R218, R226, R227): the operation a redundant pair compares, the request under its ticket, and the format that MLDW
declares. -/
def matrixPosts : Instr → Option (Enc × (Ctx → Srcs → MemOp × (Word → MReq) × Option WFmt))
  | .mldw c wf => some (c, fun x v => (.matrix (lane64 v.y 0) (lane64 v.z 0) (BitVec.ofNat 32 (wfCode wf)),
      fun t => { reqOf x false (lane64 v.y 0) wf t with scale := lane64 v.z 0 }, some wf))
  | .mpass c wf af => some (c, fun x v => (.matrix (lane64 v.y 0) 0 c.imm,
      fun t =>
        { reqOf x true (lane64 v.y 0) wf t with af := af, zk := c.imm.toNat / 256 % 128, m := c.imm.toNat % 256 + 1,
                                                pitch := c.imm.toNat / 65536 * 128, rsc := c.imm.toNat.testBit 15 }, none))
  | _ => none

/-- Whether the operand areas and the shape of an MLDW or MPASS are legal, and no earlier pass of its core writes a tile that it names (R214, R226,
R227). -/
def matrixOk (i : Instr) (s : State) (x : Ctx) (v : Srcs) : Prop :=
  match i with
  | .mldw _ wf => badArea (lane64 v.y 0) = false ∧ (wf = .f4 → badArea (lane64 v.z 0) = false)
  | .mpass c wf af => passIllegal s x wf af c.imm = false ∧ badArea (lane64 v.y 0) = false ∧
      tileBusy s x.core (c.imm.toNat / 256 % 128) ((c.imm.toNat % 256 + 16) / 16) = false
  | _ => False

/-- The values of a tile's rows as they move (R229, R230). -/
def tileRowPairs (k : Core) (z rows : Nat) : List Row64 := (List.range rows).map fun i => rowPair k (z * 16 + i)

/-- The value of element `j` of a stored tile (R230). -/
def storedElem (k : Core) (rm : Rm) (ns : Bool) (ty : Ty) (z rows j : Nat) : DWord :=
  BitVec.ofNat 64 (tileStored rm ns ty (pairElem (tileRowPairs k z rows) j))

/-- The entry of a table that stands at an index. -/
def ReqAt (s : State) (cl i : Nat) (r : MReq) : Prop := (getCluster s cl).table[i]? = some r

/-- The first request of a table in a state, with its index. -/
def FirstReq (s : State) (cl i : Nat) (r : MReq) (st : MState) : Prop :=
  (getCluster s cl).table.zipIdx.find? (fun p => p.1.st == st) = some (r, i)

end Sys2Proof.Machine

/-- MLDW and MPASS complete: they post a request under the group's next ticket, which X takes, once the table has room; MLDW declares its format (R215, R218, R226,
R227). -/
def Sys2Proof.Machine.Says.MatrixPosts : Prop :=
  ∀ i c f s s1 x v left added, matrixPosts i = some (c, f) → Ready i c s x v left added → matrixOk i s x v → x.g.shadow ≠ .shadow →
    tableRoom s x.core = true → matchShadow s x (f x v).1 = .equal s1 →
    ∃ t, exec i s = .next t ∧ .matrixGrant (clusterOf x.core) ∈ t.agenda ∧
      (let tk := nextTicket x.g.tck
       let row := rowOf fun _ => tk.setWidth 64
       let s2 := modCluster s1 (clusterOf x.core) fun k => { k with table := k.table ++ [(f x v).2.1 tk] }
       let s3 := match (f x v).2.2 with
         | some w => modCore s2 x.core fun k => { k with declared := some w }
         | none => s2
       Kept (sourced x i c left added row (writeDst x c.x false c.nw row (modGroup s3 x.core x.slot fun g => { g with tck := tk }))) t)

/-- An operand area that is misaligned or not canonical raises PROTECTION with its address; a shape that R227 does not allow raises
ILLEGAL_INSTRUCTION (R226, R227). -/
def Sys2Proof.Machine.Says.MatrixFaults : Prop :=
  (∀ c wf s x v left added, Ready (.mldw c wf) c s x v left added → badArea (lane64 v.y 0) = true →
    exec (.mldw c wf) s = .next (trapIssue x .protection (lane64 v.y 0) s)) ∧
  (∀ c wf af s x v left added, Ready (.mpass c wf af) c s x v left added → passIllegal s x wf af c.imm = true →
    exec (.mpass c wf af) s = .next (trapIssue x .illegalInstruction 0 s)) ∧
  (∀ c wf af s x v left added, Ready (.mpass c wf af) c s x v left added → passIllegal s x wf af c.imm = false →
    badArea (lane64 v.y 0) = true → exec (.mpass c wf af) s = .next (trapIssue x .protection (lane64 v.y 0) s)) ∧
  (∀ c s x v left added, Ready (.zclr c) c s x v left added → 96 < tileNum c.x + (c.imm.toNat % 128 + 1) →
    exec (.zclr c) s = .next (trapIssue x .illegalOperand 0 s))

/-- ZCLR completes: it clears the rows of its tiles and their poison, and nothing else (R228). -/
def Sys2Proof.Machine.Says.TilesAreCleared : Prop :=
  ∀ c s x v left added, Ready (.zclr c) c s x v left added →
    (let k := tileNum c.x
     let n := c.imm.toNat % 128 + 1
     k + n ≤ 96 → x.g.shadow ≠ .shadow → tileBusy s x.core k n = false →
     ∃ t u, exec (.zclr c) s = .next t ∧ Kept (sourced x (.zclr c) c left added zeroRow u) t ∧
       (∀ key, mapGet 0 (getCore u x.core).accs key = if 16 * k ≤ key ∧ key < 16 * (k + n) then 0 else mapGet 0 (getCore s x.core).accs key) ∧
       (∀ key, mapGet 0 (getCore u x.core).apoison key =
         if 16 * k ≤ key ∧ key < 16 * (k + n) then 0 else mapGet 0 (getCore s x.core).apoison key) ∧
       (∀ d, { getCore u d with accs := [], apoison := [] } = { getCore s d with accs := [], apoison := [] }) ∧
       { u with cores := [] } = { s with cores := [] })

/-- ZMOV and MSTAT complete. ZMOV moves one row of a tile into a pair: lane l takes column l in bits 31 to 0 and column l + 64 above; MSTAT reads the engine's status, the
group's latest ticket or its latest completed one (R229, R231). -/
def Sys2Proof.Machine.Says.TileRowsAndStatus : Prop :=
  (∀ c s x v left added, Ready (.zmov c) c s x v left added → tileBusy s x.core (tileNum c.y) 1 = false →
    ∃ t, exec (.zmov c) s = .next t ∧
      (let key := tileNum c.y * 16 + c.imm.toNat % 16
       let r := rowOf fun l => BitVec.ofNat 64 (accElem (getCore s x.core) key l + 2 ^ 32 * accElem (getCore s x.core) key (l + 64))
       Kept (sourced x (.zmov c) c left added r (writeDst x c.x true c.nw r s)) t)) ∧
  (∀ c s x v left added, Ready (.mstat c) c s x v left added → c.imm.toNat % 4 ≠ 3 →
    ∃ t, exec (.mstat c) s = .next t ∧
      (let r := rowOf fun _ => BitVec.ofNat 64 (if c.imm.toNat % 4 = 1 then x.g.tck.toNat else if c.imm.toNat % 4 = 2 then x.g.cmp.toNat
         else mstatWord s x.core)
       Kept (sourced x (.mstat c) c left added r (writeDst x c.x false c.nw r s)) t)) ∧
  (∀ c s x v left added, Ready (.mstat c) c s x v left added → c.imm.toNat % 4 = 3 →
    exec (.mstat c) s = .next (trapIssue x .illegalOperand 0 s))

/-- MWAIT completes once its ticket has, or under an empty `act`, with the acquire of cluster scope; until then the group waits (R232). -/
def Sys2Proof.Machine.Says.TicketsAreAwaited : Prop :=
  (∀ c s x v left added, Ready (.mwait c) c s x v left added → (x.act = 0 ∨ ticketDone (loWord (lane64 v.y 0)) x.g.cmp x.g.tck = true) →
    ∃ t, exec (.mwait c) s = .next t ∧
      Kept (sourced x (.mwait c) c left added zeroRow (if x.act = 0 then s else modCore s x.core fun k => { k with l1 := [] })) t) ∧
  (∀ c s x v left added, Ready (.mwait c) c s x v left added → x.act ≠ 0 → ticketDone (loWord (lane64 v.y 0)) x.g.cmp x.g.tck = false →
    exec (.mwait c) s = .next (holdGroup x s)) ∧
  (∀ tk cmp tck : Word, tk ≠ 0 → (ticketDone tk cmp tck = true ↔ (cmp - tk).toNat < 2 ^ 31)) ∧
  (∀ cmp tck : Word, ticketDone 0 cmp tck = true ↔ cmp = tck)

/-- ZST completes: to the pool it writes each element at its offset, to memory its stores enter the block's buffer; the pitch is checked first; a leader's
shadow gets the rows, the model's reading of R128 (R225, R230; log 16). -/
def Sys2Proof.Machine.Says.TilesAreStored : Prop :=
  ∀ c tr loc rm ns ty s x v left added, Ready (.zst c tr loc rm ns ty) c s x v left added →
    (let w := accWidth ty
     let rows := c.imm.toNat % 16 + 1
     let z := tileNum c.x
     let pitch := (loWord (lane64 v.z 0)).toNat
     (pitchBad tr w rows pitch = true → exec (.zst c tr loc rm ns ty) s = .next (trapIssue x .illegalOperand 0 s)) ∧
     (pitchBad tr w rows pitch = false → loc = true → x.g.shadow ≠ .shadow →
       (let l := tileLocal tr w pitch rows (lane64 v.y 0)
        firstBad (getCore s x.core) w l = none → touch s x.core (tagOf x) (l.map fun p => (p.2, w)) = none → tileBusy s x.core z 1 = false →
        ∃ t, exec (.zst c tr loc rm ns ty) s = .next t ∧ Kept (sourced x (.zst c tr loc rm ns ty) c left added zeroRow
          (modCore (tileTaken x z rows (tileRowPairs (getCore s x.core) z rows) [] s) x.core fun k =>
            lputs k (l.flatMap fun p => bytesAt p.2 w (storedElem (getCore s x.core) rm ns ty z rows p.1).toNat))) t)) ∧
     (pitchBad tr w rows pitch = false → loc = false → x.g.shadow ≠ .shadow → ∀ accs s1,
       transLanes s x.core x.slot x.g.part x.e.mask w .write (tileGlobal tr w pitch rows (lane64 v.y 0)) = .ok accs s1 →
       tileBusy s1 x.core z 1 = false → bufRoom s1 x (linesOf accs).length = true →
       ∃ t, exec (.zst c tr loc rm ns ty) s = .next t ∧ Kept (sourced x (.zst c tr loc rm ns ty) c left added zeroRow
         (emit x (storeEntries x false w (storedElem (getCore s1 x.core) rm ns ty z rows) accs)
           (tileTaken x z rows (tileRowPairs (getCore s1 x.core) z rows) [] s1))) t))

/-- ZLD completes: from the pool each row of the tile takes its elements, widened exactly; from memory each row takes what the store buffer supplies and has a
reply out for the rest; a pair's shadow leaves the accumulators alone, the model's reading of R128 (R225, R230; log 16). -/
def Sys2Proof.Machine.Says.TilesAreLoaded : Prop :=
  ∀ c tr loc ty s x v left added, Ready (.zld c tr loc ty) c s x v left added →
    (let w := accWidth ty
     let rows := c.imm.toNat % 16 + 1
     let z := tileNum c.x
     let pitch := (loWord (lane64 v.z 0)).toNat
     (pitchBad tr w rows pitch = true → exec (.zld c tr loc ty) s = .next (trapIssue x .illegalOperand 0 s)) ∧
     (pitchBad tr w rows pitch = false → x.g.shadow = .shadow →
       ∃ t, exec (.zld c tr loc ty) s = .next t ∧ Kept (sourced x (.zld c tr loc ty) c left added zeroRow s) t) ∧
     (pitchBad tr w rows pitch = false → loc = true → x.g.shadow ≠ .shadow →
       (let l := tileLocal tr w pitch rows (lane64 v.y 0)
        let k := getCore s x.core
        firstBad k w l = none → touch s x.core (tagOf x) (l.map fun p => (p.2, w)) = none → tileBusy s x.core z 1 = false →
        (∀ p ∈ l, lpoisoned k p.2 w = false) →
        ∃ t, exec (.zld c tr loc ty) s = .next t ∧ Kept (sourced x (.zld c tr loc ty) c left added zeroRow
          (modCore s x.core fun q => (List.range rows).foldl (fun q i =>
            tileLoad (z * 16 + i) ty (((l.drop (128 * i)).take 128).map fun p => (p.1 % 128, BitVec.ofNat 64 (lread k p.2 w))) q) q)) t)) ∧
     (pitchBad tr w rows pitch = false → loc = false → x.g.shadow ≠ .shadow → ∀ accs s1,
       transLanes s x.core x.slot x.g.part x.e.mask w .read (tileGlobal tr w pitch rows (lane64 v.y 0)) = .ok accs s1 →
       tileBusy s1 x.core z 1 = false → (∀ a ∈ accs, ∀ b ∈ tileFound s1 x w a, b = .none) →
       ∃ t, exec (.zld c tr loc ty) s = .next t ∧ Kept (sourced x (.zld c tr loc ty) c left added zeroRow
         ((List.range rows).foldl (fun s i =>
           loadRow x ty z s (i, ((accs.drop (128 * i)).take 128).map fun a => { a with lane := a.lane % 128 })) s1)) t))

/-- A matrix grant completes: the arbiter's choice is granted and fetches, its operands being read; a pass over the plane that a faulted MLDW emptied
completes with FAULT 5 instead, once the requests of its core before it have (R215 to R218, R220). -/
def Sys2Proof.Machine.Says.RequestsAreGranted : Prop :=
  ∀ s cl i r, engineHeld s cl = false → ((getCluster s cl).table.any fun r => r.st == .fetching || r.st == .leave) = false →
    arbPick (getCluster s cl).table = some (i, r) →
    (let empty := r.pass && (mapGet {} (getCluster s cl).planes r.core).fmt.isNone && !loadBefore (getCluster s cl).table i r.core
     (empty = false → ∃ t, exec (.matrixGrant cl) s = .next t ∧ ReqAt t cl i { r with st := .fetching } ∧ .matrixFetchDone cl ∈ t.agenda ∧
       t.cores = s.cores ∧ t.mem = s.mem) ∧
     (empty = true → anyBefore (getCluster s cl).table i r.core = true → exec (.matrixGrant cl) s = .next s) ∧
     (empty = true → anyBefore (getCluster s cl).table i r.core = false → ∃ t q, exec (.matrixGrant cl) s = .next t ∧ (getCluster t cl).report = some q ∧ q.fault = 5 ∧ q.ticket = r.ticket ∧
       (getCluster t cl).table.length + 1 = (getCluster s cl).table.length ∧ t.mem = s.mem))

/-- A matrix fetch completes: with pages of its operands that miss in the die's TLB it asks for their walks; with the operands there, a pass keeps its rows and asks for leave, an MLDW with none of its core's requests before it
begins to load (R216, R217, R251, R335). That its operands are read in one step is the model's choice (log 50). -/
def Sys2Proof.Machine.Says.FetchesEnd : Prop :=
  ∀ s cl i r l, fetchingIdx (getCluster s cl).table = some i → ReqAt s cl i r → engineStopped s cl = false → r.ready = false →
    r.plane.fmt = none →
    (fetchMisses s r.core r.part (requestVas r) ≠ [] → exec (.matrixFetchDone cl) s =
      .next ((fetchMisses s r.core r.part (requestVas r)).foldl (fun s va => missWalk s r.core fetchWaiter r.part 0 va .read) s)) ∧
    (fetchMisses s r.core r.part (requestVas r) = [] → operandLines s r.core r.part (requestVas r) = .ok l →
     (issueAll s r.part .demand (requestsOf s r.part .read (requestVas r))).isSome = true →
    (r.pass = true → ∃ t, exec (.matrixFetchDone cl) s = .next t ∧
      ReqAt t cl i { r with st := .leave, rows := rowsOf r l, poisoned := l.any fun v => v.2 } ∧
      (getDie t (dieOf r.core)).leaveq = (getDie s (dieOf r.core)).leaveq ++ [(0, cl)] ∧ .leaveGrant (dieOf r.core) ∈ t.agenda ∧ t.mem = s.mem) ∧
    (r.pass = false → anyBefore (getCluster s cl).table i r.core = false → ∃ t, exec (.matrixFetchDone cl) s = .next t ∧
      ReqAt t cl i { r with st := .loading, plane := planeOf r l } ∧ .mldwLoadComplete cl ∈ t.agenda ∧ t.mem = s.mem ∧ t.cores = s.cores))

/-- A matrix fetch fault completes: the request leaves the table with its FAULT code and address for the stop record, no accumulator changes, and the
partition's line rises: the fault is raised against the group where that still stands, at its region, and else charged to its node alone; it waits
for the requests of its core before it (R218, R220). -/
def Sys2Proof.Machine.Says.FetchesFault : Prop :=
  ∀ s cl i r code kind va, fetchingIdx (getCluster s cl).table = some i → ReqAt s cl i r → engineStopped s cl = false → r.ready = false →
    r.plane.fmt = none → anyBefore (getCluster s cl).table i r.core = false → fetchBad s r = some (code, kind, va, none) →
    ∃ t, exec (.matrixFetchFault cl) s = .next t ∧ (r.killed = false → (getCluster t cl).report = some { r with fault := code, faddr := va }) ∧
      (getCluster t cl).table = listDrop (getCluster s cl).table i ∧ (∀ c, (getCore t c).accs = (getCore s c).accs) ∧
      (r.killed = false → getGroup s r.core r.slot = none → (getPart t r.part).squall = true) ∧
      (r.killed = false → ∀ g e, getGroup s r.core r.slot = some g → r.tag.gslot % 64 = r.slot → touchEntry g r.tag = some e →
        g.node = r.node → g.blk = r.blk → g.grp = r.grp → (getPart t g.part).squall = true ∧
          ∃ h, getGroup t r.core r.slot = some h ∧ h.raised = true ∧ (g.cause = 0 → h.cause = trapCode kind ∧ h.faddr = va)) ∧
      (r.killed = false → ∀ g, getGroup s r.core r.slot = some g → (g.node ≠ r.node ∨ g.blk ≠ r.blk ∨ g.grp ≠ r.grp) →
        (getPart t r.part).squall = true)

/-- A leave grant completes: leave is granted to the oldest request that is not stopped while the estimate of its kind fits under the die's cap; otherwise nothing changes
(R336). -/
def Sys2Proof.Machine.Says.LeaveIsGranted : Prop :=
  ∀ s die q, (getDie s die).leaveq.find? (fun q => !leaveStopped s q) = some q →
    (leaveFits (getDie s die) (q.1 == 0) = true → ∃ t, exec (.leaveGrant die) s = .next t ∧
      (getDie t die).leaveq = (getDie s die).leaveq.erase q ∧
      (getDie t die).committed = (getDie s die).committed + Config.leaveEstimate (q.1 == 0) ∧ t.mem = s.mem ∧ t.cores = s.cores) ∧
    (leaveFits (getDie s die) (q.1 == 0) = false → exec (.leaveGrant die) s = .next s)

/-- A matrix stream done completes: the last row of the streaming pass enters the array and it drains; a residue mismatch of a column is kept with it
(R217, R219). -/
def Sys2Proof.Machine.Says.StreamsEnd : Prop :=
  ∀ s cl residue i r, (getCluster s cl).table.findIdx? (fun r => r.st == .streaming) = some i → ReqAt s cl i r → engineStopped s cl = false →
    ∃ t, exec (.matrixStreamDone ⟨cl, residue⟩) s = .next t ∧ ReqAt t cl i { r with st := .draining, residue := r.residue || residue } ∧ .matrixPassComplete cl ∈ t.agenda ∧
      t.cores = s.cores ∧ t.mem = s.mem

/-- A matrix pass complete completes: a drained pass has its rows in the accumulators, its group's CMP is its ticket, it leaves the table and gives its leave back (R212,
R217, R218, R336). -/
def Sys2Proof.Machine.Says.PassesComplete : Prop :=
  ∀ s cl i r, FirstReq s cl i r .draining → engineStopped s cl = false → r.killed = false →
    (passResult (getCore s r.core) (mapGet {} (getCluster s cl).planes r.core) r).2 = none →
    ∃ t, exec (.matrixPassComplete cl) s = .next t ∧ (getCluster t cl).table = listDrop (getCluster s cl).table i ∧ t.mem = s.mem ∧
      { getCore t r.core with slots := [] } =
        { (passResult (getCore s r.core) (mapGet {} (getCluster s cl).planes r.core) r).1 with slots := [] } ∧
      (getDie t (dieOf r.core)).committed = (getDie s (dieOf r.core)).committed - Config.leaveEstimate true ∧
      (∀ g, getGroup s r.core r.slot = some g → g.part = r.part → g.node = r.node → g.blk = r.blk → g.grp = r.grp →
        ∃ h, getGroup t r.core r.slot = some h ∧ h.cmp = r.ticket ∧ h.vregs = g.vregs ∧ h.front = g.front)

/-- A pass adds each of its rows to its target row and keeps every other accumulator row (R212). -/
def Sys2Proof.Machine.Says.PassAccumulates : Prop :=
  ∀ k p r, r.poisoned = false → p.poison = false → r.residue = false → (∀ key ∈ passKeys r.zk r.m, mapGet 0 k.apoison key = 0) →
    (passResult k p r).2 = none ∧
    (∀ j, j < r.m → mapGet 0 (passResult k p r).1.accs (r.zk * 16 + j) =
      passRow p r.wf r.af r.rsc (mapGet 0 r.rows j).toNat (mapGet 0 k.accs (r.zk * 16 + j))) ∧
    (∀ key, (key < r.zk * 16 ∨ r.zk * 16 + r.m ≤ key) → mapGet 0 (passResult k p r).1.accs key = mapGet 0 k.accs key) ∧
    { (passResult k p r).1 with accs := [], apoison := [] } = { k with accs := [], apoison := [] }

/-- An MLDW load complete completes: its core's plane is the new one, but a killed block's takes nothing, and the request leaves the table (R217, R222,
R226). -/
def Sys2Proof.Machine.Says.PlanesAreLoaded : Prop :=
  ∀ s cl i r, FirstReq s cl i r .loading → engineStopped s cl = false →
    ∃ t, exec (.mldwLoadComplete cl) s = .next t ∧ mapGet {} (getCluster t cl).planes r.core = (if r.killed then mapGet {} (getCluster s cl).planes r.core else r.plane) ∧
      (∀ c, c ≠ r.core → mapGet {} (getCluster t cl).planes c = mapGet {} (getCluster s cl).planes c) ∧
      (getCluster t cl).table = listDrop (getCluster s cl).table i ∧ t.mem = s.mem

/-- A matrix engine freeze completes: at the squall line an engine freezes and keeps its table; with no line up nothing changes (R221). -/
def Sys2Proof.Machine.Says.EnginesFreeze : Prop :=
  ∀ s cl p, partOfCluster s cl = some p →
    ((getPart s p).squall = true → ∃ t, exec (.matrixEngineFreeze cl) s = .next t ∧ (getCluster t cl).frozen = true ∧
      (getCluster t cl).table = (getCluster s cl).table ∧ t.cores = s.cores) ∧
    ((getPart s p).squall = false → exec (.matrixEngineFreeze cl) s = .next s)

/-! # Engine posts and the clock -/

namespace Sys2Proof.Machine

/-- The posts that expect no reply, with the entry each puts into its block's buffer (R259, R357, R360). -/
def plainPosts (i : Instr) (s : State) (x : Ctx) (v : Srcs) : Option (Enc × List SbEntry) :=
  match i with
  | .redt c _ _ => some (c, (leafLanes x v).map
      (redtEntry s x v (loWord (lane64 v.y 0)).toNat (treeOf (identOf s x.g.part (loWord (lane64 v.y 0)).toNat).desc)))
  | .bfence c => some (c, [mkEntry x (.bfence (loWord (lane64 v.y 0)).toNat) 0 0 0 none])
  | .bgfree c => some (c, [mkEntry x (.bgfree (loWord (lane64 v.y 0)).toNat) 0 0 0 none])
  | _ => none

/-- Whether the operands of such a post are legal (R259, R357, R360). -/
def plainPostOk (i : Instr) (s : State) (x : Ctx) (v : Srcs) : Prop :=
  match i with
  | .redt _ rm ty =>
    (let d := identOf s x.g.part (loWord (lane64 v.y 0)).toNat
     let l := (leafLanes x v).map fun p => p.2
     d.st = .bound ∧ d.mcast = false ∧ tyCode ty = (treeOf d.desc).ty ∧ rmOfCode (treeOf d.desc).rm = rm ∧
     (∀ n ∈ l, n < (treeOf d.desc).nleaf) ∧ l.Nodup ∧ reached s x .device = true)
  | .bfence _ => 0 < (loWord (lane64 v.y 0)).toNat ∧ (loWord (lane64 v.y 0)).toNat < 2 ^ 16
  | .bgfree _ => (loWord (lane64 v.y 0)).toNat ≤ 255
  | _ => False

/-- The posts that wait for a reply, with the operation each sends and its address (R280, R359). -/
def askPosts (i : Instr) (v : Srcs) : Option (Enc × MemOp × DWord) :=
  match i with
  | .bgid c mcast => some (c, .bgid mcast (loWord (lane64 v.z 0)).toNat (lane64 v.y 0), lane64 v.y 0)
  | .launch c => some (c, .launch (lane64 v.y 0) (c.imm.toNat % 64), lane64 v.y 0)
  | _ => none

/-- Whether the operands of such a post are legal, and a LAUNCH's stores have reached the device (R280, R359). -/
def askPostOk (i : Instr) (s : State) (x : Ctx) (v : Srcs) : Prop :=
  match i with
  | .bgid _ _ => (loWord (lane64 v.z 0)).toNat ≤ 255 ∧ badAddr (lane64 v.y 0) = false
  | .launch _ => badAddr (lane64 v.y 0) = false ∧ reached s x .device = true
  | _ => False

/-- The instructions that do nothing where no lane acts. -/
def idleEnc : Instr → Option Enc
  | .atom c _ _ _ | .red c _ _ _ | .bop c _ _ _ | .redt c _ _ | .bcopy c | .bfence c | .bgid c _ | .bgfree c | .launch c | .rdclk c
  | .mqcf c | .lsync c | .lock c | .tlock c | .unlock c | .prom c | .fulf c _ | .pwait c | .claim c | .rels c | .holdq c => some c
  | .mov c _ => if isPort c.x then some c else none
  | _ => none

/-- The reply that a post waits for. -/
def postPend (x : Ctx) (c : Enc) (q : Nat) : Pend :=
  { id := q, kind := .post, mask := x.e.mask, dst := c.x, ty := .b32, nw := c.nw, act := x.act, tag := tagOf x }

end Sys2Proof.Machine

/-- REDT, BFENCE and BGFREE put their posts into their block's buffer and complete (R259, R326, R357, R360). -/
def Sys2Proof.Machine.Says.PostsAreSent : Prop :=
  ∀ i c es s x v left added, plainPosts i s x v = some (c, es) → Ready i c s x v left added → x.act ≠ 0 → plainPostOk i s x v →
    bufRoom s x es.length = true → ∃ t, exec i s = .next t ∧ Kept (sourced x i c left added zeroRow (emit x es s)) t

/-- BGID and LAUNCH complete their issue: they put their post into their block's buffer and have a reply out (R280, R326, R359). -/
def Sys2Proof.Machine.Says.PostsAreAsked : Prop :=
  ∀ i c op va s x v left added, askPosts i v = some (c, op, va) → Ready i c s x v left added → x.act ≠ 0 → x.g.shadow ≠ .shadow →
    askPostOk i s x v → bufRoom s x 1 = true →
    ∃ t, exec i s = .next t ∧ Kept (sourcedLate x i c left added s.reqId (addPend
      (emit x [mkEntry x op va 0 0 (some s.reqId)] { s with reqId := s.reqId + 1 }) x.core x.slot (postPend x c s.reqId))) t

/-- BCOPY completes: it reads RBASE and RLOG from its control block and posts its descriptor; only an X that names a register waits for the sequence number
(R356). -/
def Sys2Proof.Machine.Says.CopiesArePosted : Prop :=
  ∀ c s x v left added rbase rlog s1, Ready (.bcopy c) c s x v left added → x.act ≠ 0 → x.g.shadow ≠ .shadow →
    (let d := lane64 v.y (lowLane x.act)
     let ctl := lane64 v.z 0
     let op : MemOp := .bcopy d ctl rbase rlog (c.imm.toNat % 16)
     let s2 := lvPush s1 x.core x.slot x.g.shadow
       { ix := instrIx x.e, act := x.act, val := rowOf fun l => if l = 0 then rbase else if l = 1 then BitVec.ofNat 64 rlog else 0 }
     badAddr d = false → badAddr ctl = false → readCtl s x ctl = .ok rbase rlog s1 → rbase.toNat % 32 = 0 → 4 ≤ rlog → rlog ≤ 16 →
     bufRoom s1 x 1 = true →
     (c.x = .zero → ∃ t, exec (.bcopy c) s = .next t ∧ Kept (sourced x (.bcopy c) c left added zeroRow (emit x [mkEntry x op d 0 0 none] s2)) t) ∧
     (c.x ≠ .zero → ∃ t, exec (.bcopy c) s = .next t ∧ Kept (sourcedLate x (.bcopy c) c left added s2.reqId (addPend
       (emit x [mkEntry x op d 0 0 (some s2.reqId)] { s2 with reqId := s2.reqId + 1 }) x.core x.slot (postPend x c s2.reqId))) t))

/-- The operands that these posts refuse: an address not canonical or not 64-byte aligned raises PROTECTION, a mask or an identifier out of its range
ILLEGAL_OPERAND, an identifier that is not bound to a tree PROTECTION (R259, R280, R357, R359, R360). -/
def Sys2Proof.Machine.Says.PostsFault : Prop :=
  (∀ c rm ty s x v left added, Ready (.redt c rm ty) c s x v left added → x.act ≠ 0 →
    (identOf s x.g.part (loWord (lane64 v.y 0)).toNat).st ≠ .bound → exec (.redt c rm ty) s = .next (trapIssue x .protection 0 s)) ∧
  (∀ c s x v left added, Ready (.bfence c) c s x v left added → x.act ≠ 0 →
    ((loWord (lane64 v.y 0)).toNat = 0 ∨ 2 ^ 16 ≤ (loWord (lane64 v.y 0)).toNat) → exec (.bfence c) s = .next (trapIssue x .illegalOperand 0 s)) ∧
  (∀ c m s x v left added, Ready (.bgid c m) c s x v left added → x.act ≠ 0 → 255 < (loWord (lane64 v.z 0)).toNat →
    exec (.bgid c m) s = .next (trapIssue x .illegalOperand 0 s)) ∧
  (∀ c s x v left added, Ready (.bgfree c) c s x v left added → x.act ≠ 0 → 255 < (loWord (lane64 v.y 0)).toNat →
    exec (.bgfree c) s = .next (trapIssue x .illegalOperand 0 s)) ∧
  (∀ c s x v left added, Ready (.launch c) c s x v left added → x.act ≠ 0 → badAddr (lane64 v.y 0) = true →
    exec (.launch c) s = .next (trapIssue x .protection (lane64 v.y 0) s))

/-- RDCLK completes: it reads the core's cycle counter, which never runs back; how many cycles pass before the read is open, and the next read's are others
(R311; logs 4 and 9). -/
def Sys2Proof.Machine.Says.ClockIsRead : Prop :=
  ∀ c s x v left added, Ready (.rdclk c) c s x v left added → x.act ≠ 0 →
    ∃ t n, exec (.rdclk c) s = .next t ∧ (getCore s x.core).cyc ≤ n ∧ n < (getCore t x.core).cyc ∧
      Kept (sourced x (.rdclk c) c left added (rowOf fun _ => BitVec.ofNat 64 n)
        (writeDst x c.x true c.nw (rowOf fun _ => BitVec.ofNat 64 n) { s with free := s.free + 1 })) t

/-- Where no lane acts, these instructions complete, and nothing but scheduling changes (R42). -/
def Sys2Proof.Machine.Says.EmptyActDoesNothing : Prop :=
  ∀ i c s x v left added, idleEnc i = some c → Ready i c s x v left added → x.act = 0 →
    ∃ t, exec i s = .next t ∧ Kept (sourced x i c left added zeroRow s) t

/-- What the load-value queue supplies to a pair's shadow: an instruction whose result it holds completes with it, without acting itself (R128). -/
def Sys2Proof.Machine.Says.ShadowsAreServed : Prop :=
  ∀ i c x s v left added e q, encOf i = some c → ctxOf s c = some x → busy x.g x.e (rulesOf i) c = false → issueCheck i c x = none →
    (endsNow i c x = true → settled x.g x.e = true) → readAll s x (rulesOf i) c = .ok v left added →
    (rulesOf i).taken = true → x.g.shadow = .shadow → x.act ≠ 0 → lvTake (instrIx x.e) x.act left = some (e, q) → e.req = none →
    ∃ t, exec i s = .next t ∧ Kept (modGroup (putResult x (rulesOf i) c e.val s) x.core x.slot fun g => { g with lvq := q }) t

/-! # What time brings to a group -/

/-- What time brings to a group completes: a stall or a sleep runs out after its cycles, which the core counts; a group that was passed over 1,024 times
is promoted after those promoted before it; a spilled frontier entry comes back at the price of four cycles, of eight in exchange for another one, and
no lane moves (R43, R117, R123, R134). -/
def Sys2Proof.Machine.Says.TimeReleasesGroups : Prop :=
  (∀ s core slot g, getGroup s core slot = some g →
    ∃ t h, exec (.stallExpiry core slot) s = .next t ∧ getGroup t core slot = some h ∧ h.stall = 0 ∧
      (getCore t core).cyc = (getCore s core).cyc + g.stall ∧ h.vregs = g.vregs ∧ h.front = g.front ∧ t.mem = s.mem) ∧
  (∀ s core slot g, getGroup s core slot = some g →
    ∃ t h, exec (.sleepEnd core slot) s = .next t ∧ getGroup t core slot = some h ∧ h.sleep = 0 ∧
      (getCore t core).cyc = (getCore s core).cyc + g.sleep ∧ h.vregs = g.vregs ∧ h.front = g.front ∧ t.mem = s.mem) ∧
  (∀ s core slot g, getGroup s core slot = some g → 1024 ≤ g.passed → g.promoted = none →
    ∃ t h k, exec (.groupPromotion core slot) s = .next t ∧ getGroup t core slot = some h ∧ h.promoted = some k ∧
      (∀ p ∈ (getCore s core).slots, ∀ j, p.2.promoted = some j → j < k) ∧ h.vregs = g.vregs ∧ h.front = g.front ∧ t.mem = s.mem) ∧
  (∀ s core slot g, getGroup s core slot = some g → refill g.front ≠ g.front →
    ∃ t h, exec (.frontierRefill core slot) s = .next t ∧ getGroup t core slot = some h ∧ h.front = refill g.front ∧
      h.stall = g.stall + (if (g.front.filter fun e => !e.spilled).length < 16 then 4 else 8) ∧
      (∀ l, laneAt h.front l = laneAt g.front l) ∧ h.vregs = g.vregs ∧ t.mem = s.mem)

/-! # Reduction trees -/

/-- A contribution completes at its node: it takes its child's place, a second one with the same value is discarded, and one that names no child of the node, or
comes to a node that has flushed, is discarded and counted as late (R254, R256). -/
def Sys2Proof.Machine.Says.ContributionsArrive : Prop :=
  ∀ s part c l, (getPart s part).contribs = c :: l →
    (let s1 := modPart s part fun p => { p with contribs := l }
     let d := identOf s1 part c.ident
     let tr := treeOf d.desc
     (∀ j, slotOf s1 part tr c = some j → (rnodeOf d c.node).flushed = false → d.delivered = false → assoc (rnodeOf d c.node).vals j = none →
       (rnodeOf d c.node).vals.length + 1 ≠ nodeCount s1 part tr c.node →
       ∃ t, exec (.redtContributionArrival part) s = .next t ∧ t.mem = s.mem ∧ (getPart t part).contribs = l ∧
         (rnodeOf (identOf t part c.ident) c.node).vals = (rnodeOf d c.node).vals ++ [(j, (c.val, c.inc, c.incn))]) ∧
     (∀ j i k, slotOf s1 part tr c = some j → (rnodeOf d c.node).flushed = false → d.delivered = false →
       assoc (rnodeOf d c.node).vals j = some (c.val, i, k) →
       ∃ t, exec (.redtContributionArrival part) s = .next t ∧ t.mem = s.mem ∧ (getPart t part).contribs = l ∧
         (rnodeOf (identOf t part c.ident) c.node).vals = (rnodeOf d c.node).vals ∧ (getPart t part).late = (getPart s part).late) ∧
     ((slotOf s1 part tr c = none ∨ (rnodeOf d c.node).flushed = true ∨ d.delivered = true) →
       ∃ t, exec (.redtContributionArrival part) s = .next t ∧ t.mem = s.mem ∧ (getPart t part).late = (getPart s part).late + 1 ∧
         (getPart t part).contribs = l))

/-- The timeout of a node below the root completes: the node sends the fold of what has arrived to its parent, marked incomplete where a child is
missing; while the context is halted or pre-empted the timer does nothing (R73, R254). -/
def Sys2Proof.Machine.Says.NodesTimeOut : Prop :=
  (∀ s part ident k, (getPart s part).clkStop = none → k ≠ 0 →
    (let d := identOf s part ident
     let tr := treeOf d.desc
     let r := rnodeOf d k
     r.flushed = false → r.vals ≠ [] → r.due.isSome = true →
     ∃ t c, exec (.redtNodeTimeout part ident k) s = .next t ∧ t.mem = s.mem ∧ (getPart t part).contribs = (getPart s part).contribs ++ [c] ∧
       c.ident = ident ∧ c.leaf = false ∧ c.idx = k ∧ c.node = nodeParent s part tr k ∧
       c.val = redtFold tr ((List.range (nodeCount s part tr k)).filterMap fun j => (assoc r.vals j).map fun q => q.1) ∧
       ((∃ j, j < nodeCount s part tr k ∧ assoc r.vals j = none) → c.inc = true) ∧ .redtContributionArrival part ∈ t.agenda)) ∧
  (∀ s part ident k, (getPart s part).clkStop.isSome = true → exec (.redtNodeTimeout part ident k) s = .next s)

/-! # Placement and the lattice scheduler -/

/-- A placement completes: the dispatcher places the lowest waiting block of its first node: each of its groups stands in its slot in its entry state, all 64 lanes at the entry
IX, its vector registers and predicates zero, its first 32 scalar registers the words of the argument block, which is read as the node starts; where
its partition does not run it places nothing (R25, R119, R277, R278, R300, R316). -/
def Sys2Proof.Machine.Says.BlocksArePlaced : Prop :=
  (∀ s part die n ns b bs l, (getPart s part).st = .running → (getPart s part).squall = false → (getPart s part).tearing = false →
    (getPart s part).images = [] → nodeOrder (getPart s part) = n :: ns → findNode s part n.addr = some n → n.la.dims = 0 → n.la.redun = false →
    heldBack s part die n = false → waitingBlocks s part die n = b :: bs → blockPlace s part die n [] b = some l → l.Nodup →
    ∃ t m, exec (.blockPlacement part die) s = .next t ∧ .blockPlacement part die ∈ t.agenda ∧ findNode t part n.addr = some m ∧
      (n.st ≠ 2 → m.args = n.args) ∧
      (n.st = 2 → ∀ j, 4 * j < n.la.argb → m.args[j]? =
        some (BitVec.ofNat 32 ((vaRead s part (n.la.args + BitVec.ofNat 64 (4 * j)) (min 4 (n.la.argb - 4 * j))).getD 0))) ∧
      ∀ k core slot, l[k]? = some (core, slot) → ∃ h, getGroup t core slot = some h ∧ h.part = part ∧ h.node = n.addr ∧ h.blk = b ∧ h.grp = k ∧
        h.vregs = [] ∧ h.preds = [] ∧ (∀ j, mapGet 0 h.sregs j = if j < 32 then m.args[j]?.getD 0 else 0) ∧
        h.front = [{ prio := prioOf n.la.btab n.la.entry, ix := n.la.entry, mask := allLanes, rgn := n.la.entry }]) ∧
  (∀ s part die, ((getPart s part).st ≠ .running ∨ (getPart s part).squall = true) → exec (.blockPlacement part die) s = .next s)

/-- The end of a die's activity period completes: its link counts start anew, and every node below a full share that used more than it is held back for the next one
(R279). -/
def Sys2Proof.Machine.Says.PeriodsEnd : Prop :=
  ∀ s die, ∃ t, exec (.activityPeriod die) s = .next t ∧ (getDie t die).linkUse = [] ∧ t.cores = s.cores ∧ t.mem = s.mem ∧
    (∀ u ∈ (getDie s die).linkUse, ∀ n, findNode s u.1.1 u.1.2 = some n → n.la.share ≠ 100 → shareFlits s die n.la.share < u.2 →
      u.1 ∈ (getDie t die).heldNodes) ∧ (∀ p ∈ s.parts, .blockPlacement p.1 die ∈ t.agenda)

/-- The start of a lattice completes: with a slot for every tile it starts with them all resident, tile k in its k-th slot, counters at 0 and the bank of label -1 readable
(R170, R283). -/
def Sys2Proof.Machine.Says.LatticesStart : Prop :=
  ∀ s part node n, findNode s part (BitVec.ofNat 64 node) = some n → n.st = 3 → n.la.dims ≠ 0 → n.la.redun = false → n.placed = [] → n.tiles = [] →
    n.slots ≠ [] → n.slots.Nodup → (getDie s (homeDie s part n)).powered = true → tileCount n.la ≤ n.slots.length → latticeStopped s part = false →
    ∃ t, exec (.latticeStart part node) s = .next t ∧ t.mem = s.mem ∧
      ∀ k g, k < tileCount n.la → n.slots[k]? = some g → ∃ h m, getGroup t (g / 64) (g % 64) = some h ∧ h.blk = k / groupsPerBlock n.la ∧
        h.grp = k % groupsPerBlock n.la ∧ h.step = 0 ∧ h.bank1.label = some (-1) ∧
        findNode t part (BitVec.ofNat 64 node) = some m ∧ mapGet .fresh m.tiles k = .resident

/-- The scheduler's steps complete: a resident tile held for 256 cycles on a tile that is not resident is eligible to leave; the eligible tile with the
highest counter begins to leave when no slot is free, together with the coming of the waiting tile that is to take its slot; with a slot free the
waiting tile with the lowest counter comes; each line of a record is one step of its swap, after the last of which the tile is out and its slot free,
or it goes on from its record and its frontier; a fresh tile begins in its entry state (R282 to R284, R288). One line a step and one queue of swaps a die
are the model's choice (log 41), and so is what stands for the opaque part of a record (log 31). -/
def Sys2Proof.Machine.Says.TilesComeAndGo : Prop :=
  (∀ s part node tile n p g c, findNode s part (BitVec.ofNat 64 node) = some n → mapGet .fresh n.tiles tile = .resident → tilePlaced n tile = some p →
    getGroup s p.core p.slot = some g → g.nbHold = some c → stillHeld s part n p.core g = true → mayNotLeave s n p.core p.slot g = false →
    g.raised = false →
    ∃ t m, exec (.tileEligible part node tile) s = .next t ∧ findNode t part (BitVec.ofNat 64 node) = some m ∧
      mapGet .fresh m.tiles tile = .eligible ∧ .downdraft part node ∈ t.agenda ∧ t.mem = s.mem) ∧
  (∀ s part node n, findNode s part (BitVec.ofNat 64 node) = some n → latticeStopped s part = false → headSwap s part (BitVec.ofNat 64 node) = none →
    n.st = 3 → (getPart s part).st ≠ .quiescing →
    (∀ tile p g rest v, openSlots s n = [] → leavers s part n = (tile, p, g) :: rest →
      (outTiles n).find? (fun u => mayTake n u (gslotOf p.core p.slot)) = some v →
      ∃ t m h, exec (.downdraft part node) s = .next t ∧ findNode t part (BitVec.ofNat 64 node) = some m ∧ mapGet .fresh m.tiles tile = .moving ∧
        mapGet .fresh m.tiles v = .moving ∧ getGroup t p.core p.slot = some h ∧ h.away = true ∧ t.mem = s.mem ∧
        ∃ w u, (getDie t (gslotOf p.core p.slot / 4096)).swapq = (getDie s (gslotOf p.core p.slot / 4096)).swapq ++ [w, u] ∧
          w.tile = tile ∧ w.op = 1 ∧ w.gslot = gslotOf p.core p.slot ∧ w.node = n.addr ∧ u.tile = v ∧ u.op = 2 ∧ u.gslot = w.gslot) ∧
    (∀ tile slot, (n.placed ≠ [] ∨ n.tiles ≠ []) →
      ((outTiles n).findSome? fun t => ((openSlots s n).find? (mayTake n t)).map fun g => (t, g)) = some (tile, slot) →
      ∃ t m, exec (.updraft part node) s = .next t ∧ findNode t part (BitVec.ofNat 64 node) = some m ∧ mapGet .fresh m.tiles tile = .moving ∧
        t.mem = s.mem ∧ t.cores = s.cores ∧ ∃ w ∈ (getDie t (slot / 4096)).swapq, w.tile = tile ∧ w.op = 2 ∧ w.gslot = slot ∧ w.node = n.addr)) ∧
  (∀ s part node n die w g u, findNode s part (BitVec.ofNat 64 node) = some n → latticeStopped s part = false →
    headSwap s part (BitVec.ofNat 64 node) = some (die, w) → (getDie s die).powered = true → w.op = 1 → getGroup s (w.gslot / 64) (w.gslot % 64) = some g → g.shadow = .none →
    issueAll s part .lattice (requestsOf s part .write [recordAt n.la w.tile + BitVec.ofNat 64 (128 * w.line)]) = some u →
    lineFault u part n w.tile w.line .write = none →
    (w.line + 1 < recordLines n.la → ∃ t, exec (.downdraft part node) s = .next t ∧ t.mem = (writeLine u part n g w.line).mem ∧
      (getDie t die).swapq.head? = some { w with line := w.line + 1 } ∧ swapEvent w ∈ t.agenda) ∧
    (recordLines n.la ≤ w.line + 1 → ∃ t m, exec (.downdraft part node) s = .next t ∧ t.mem = (writeLine u part n g w.line).mem ∧
      getGroup t (w.gslot / 64) (w.gslot % 64) = none ∧ findNode t part (BitVec.ofNat 64 node) = some m ∧ mapGet .fresh m.tiles w.tile = .out ∧
      assoc m.tileImgs w.tile = some (leaving n.la { g with away := false }))) ∧
  (∀ s part node n die w u f, findNode s part (BitVec.ofNat 64 node) = some n → latticeStopped s part = false →
    headSwap s part (BitVec.ofNat 64 node) = some (die, w) → (getDie s die).powered = true → w.op = 2 →
    issueAll s part .lattice (requestsOf s part .read [recordAt n.la w.tile + BitVec.ofNat 64 (128 * w.line)]) = some u →
    lineFault u part n w.tile w.line .read = none → (∀ pa, recordWord u part (recordAt n.la w.tile + BitVec.ofNat 64 (128 * w.line)) ≠ .poison pa) →
    headWord u part n w.tile 1 = .val f →
    (f.getLsbD 1 = true → ∃ t h, exec (.updraft part node) s = .next t ∧ getGroup t (w.gslot / 64) (w.gslot % 64) = some h ∧
      h.blk = w.tile / groupsPerBlock n.la ∧ h.grp = w.tile % groupsPerBlock n.la ∧
      h.front = [{ prio := prioOf n.la.btab n.la.entry, ix := n.la.entry, mask := allLanes, rgn := n.la.entry }] ∧ t.mem = s.mem) ∧
    (∀ img, f.getLsbD 1 = false → assoc n.tileImgs w.tile = some img → assoc n.tileImgs (shadowKey w.tile) = none →
      recordLines n.la ≤ w.line + 1 →
      ∃ t h, exec (.updraft part node) s = .next t ∧ getGroup t (w.gslot / 64) (w.gslot % 64) = some h ∧ h.front = img.front ∧
        h.vregs = (restored u part n w.tile img).vregs ∧ h.step = (restored u part n w.tile img).step ∧ t.mem = s.mem))

/-! # The front end -/

/-- A doorbell completes: a TAIL within the ring is taken and the queue looked at, one beyond it puts the queue in error; where the module is not
presented to the host nothing changes (R35, R294). -/
def Sys2Proof.Machine.Says.DoorbellsRing : Prop :=
  (∀ s part q v, presented s = true → q < 64 →
    (v.toNat < 2 ^ (queueOf s part q).qlog → ∃ t, exec (.tail part q v) s = .next t ∧ (queueOf t part q).tail = v ∧
      .packetAccept part q ∈ t.agenda ∧ t.mem = s.mem ∧ t.cores = s.cores) ∧
    (2 ^ (queueOf s part q).qlog ≤ v.toNat → ∃ t, exec (.tail part q v) s = .next t ∧ (queueOf t part q).qstat = 3 ∧
      (queueOf t part q).tail = (queueOf s part q).tail ∧ (getPart t part).jnext = (getPart s part).jnext + 1 ∧ t.cores = s.cores)) ∧
  (∀ s part q v, (presented s = false ∨ 64 ≤ q) → exec (.tail part q v) s = .next s)

/-- A write of QEN completes: a queue in error that is written 0 and then 1 starts anew at 0, its accepted packets running on; written 0 it accepts
nothing more (R35, R294, R295). -/
def Sys2Proof.Machine.Says.QueuesAreEnabled : Prop :=
  (∀ s part q, presented s = true → q < 64 →
    ((queueOf s part q).qen = false → ∃ t, exec (.qen part q true) s = .next t ∧ (queueOf t part q).qen = true ∧
      (queueOf t part q).pkts = (queueOf s part q).pkts ∧
      ((queueOf s part q).qstat = 3 → (queueOf t part q).qstat = (if (queueOf s part q).pkts.isEmpty then 0 else 1) ∧
        (queueOf t part q).head = 0 ∧ (queueOf t part q).tail = 0) ∧
      ((queueOf s part q).qstat ≠ 3 → (queueOf t part q).tail = (queueOf s part q).tail)) ∧
    (∃ t, exec (.qen part q false) s = .next t ∧ (queueOf t part q).qen = false ∧ accepting (queueOf t part q) = false)) ∧
  (∀ s part q on, (presented s = false ∨ 64 ≤ q) → exec (.qen part q on) s = .next s)

/-- A write of the control registers completes, 64 bits at a time: PTROOT and CREC at their offsets, QBASE only while its queue is off, RKEY on the
fabric page; a write inside a register, or where the module is not presented to the host, changes nothing (R35, R294, R361). -/
def Sys2Proof.Machine.Says.RegistersAreWritten : Prop :=
  (∀ s part (v : DWord), presented s = true →
    (∃ t, exec (.registerWrite part 0x1000 v) s = .next t ∧ (getPart t part).ptroot = v ∧ t.cores = s.cores ∧ t.mem = s.mem) ∧
    (∃ t, exec (.registerWrite part 0x1018 v) s = .next t ∧ (getPart t part).crec = v) ∧
    (∃ t, exec (.registerWrite part 0x10008 v) s = .next t ∧ (getPart t part).rkey = v.extractLsb' 32 32) ∧
    (∀ q, q < 64 → ∃ t, exec (.registerWrite part (64 * q) v) s = .next t ∧
      (queueOf t part q).qbase = if (queueOf s part q).qen then (queueOf s part q).qbase else v)) ∧
  (∀ s part off v, (off % 8 ≠ 0 ∨ presented s = false) → exec (.registerWrite part off v) s = .next s)

/-- An acceptance completes: a queue that accepts takes the oldest device post as a LAUNCH packet; with none it takes the ring entry at HEAD, which
moves on, once the host has given its page; while a post waits in a stopped queue no entry overtakes it; a packet that breaks its format is refused
with cause 1; each takes the queue's next sequence number (R295, R297, R303, R369). -/
def Sys2Proof.Machine.Says.PacketsAreAccepted : Prop :=
  ∀ s part q, accepting (queueOf s part q) = true →
    (let u := queueOf s part q
     (∀ d ds, u.qstat ≠ 2 → u.posts = d :: ds → ∃ t, exec (.packetAccept part q) s = .next t ∧ (queueOf t part q).posts = ds ∧
       (queueOf t part q).pkts = u.pkts ++ [{ seq := u.seq, acc := s.reqId, body := postPkt d.record, late := (getPart s part).tearing }] ∧
       (queueOf t part q).seq = u.seq + 1) ∧
     (u.qstat = 2 → u.posts ≠ [] → exec (.packetAccept part q) s = .next s) ∧
     (∀ t, u.posts = [] → u.head ≠ u.tail → frontAsks s part [u.qbase + BitVec.ofNat 64 (64 * u.head.toNat)] = some t →
       exec (.packetAccept part q) s = .next t) ∧
     (∀ l bad, u.posts = [] → frontAsks s part [u.qbase + BitVec.ofNat 64 (64 * u.head.toNat)] = none → u.head ≠ u.tail → readDevice s part (u.qbase + BitVec.ofNat 64 (64 * u.head.toNat)) 64 = .ok l bad →
       (l.any fun b => b.2) = false →
       (let body : Record := BitVec.ofNat 512 (bytesNum (l.map fun b => b.1))
        ∃ t, exec (.packetAccept part q) s = .next t ∧ (queueOf t part q).head = BitVec.ofNat 32 ((u.head.toNat + 1) % 2 ^ u.qlog) ∧
          (queueOf t part q).seq = u.seq + 1 ∧ t.mem = s.mem ∧
          (pktBad body = false → (queueOf t part q).pkts = u.pkts ++ [{ seq := u.seq, acc := s.reqId, body := body, late := (getPart s part).tearing }]) ∧
          (pktBad body = true → (queueOf t part q).pkts = u.pkts ∧
            (queueOf t part q).fails = u.fails ++ [(s.reqId, 1, if pktType body = 1 then pktOperand body else 0)]))) ∧
     (u.posts = [] → u.head = u.tail → exec (.packetAccept part q) s = .next s))

/-- A LAUNCH completes its start: one whose records pass the checks of R302 has its node accepted under its queue and sequence number, READY at once
where it waits for no predecessor, once the host has given the pages that the checks touch (R369, R371); one that fails a check is refused with its cause, and one that arrived in a tear-down of its context with cause 8
(R299, R300, R302, R303). -/
def Sys2Proof.Machine.Says.LaunchesAreChecked : Prop :=
  (∀ s part q k t, mayStart s part q 1 = some k → k.late = false → frontAsks s part (launchPages s part (pktOperand k.body)) = some t →
    exec (.launchPacket part q) s = .next t) ∧
  (∀ s part q k rn n, mayStart s part q 1 = some k → k.late = false → frontAsks s part (launchPages s part (pktOperand k.body)) = none →
    (let s1 := markStarted s part q k
     let a := pktOperand k.body
     let r := nodeRecOf rn
     badAddr a = false → vaRead s1 part a 64 = some rn → badAddr r.lrec = false → vaRead s1 part r.lrec 512 = some n →
     (launchCause s1 part r n = 0 → ∃ t m, exec (.launchPacket part q) s = .next t ∧ findNode t part a = some m ∧ m.queue = q ∧ m.seq = k.seq ∧
       m.la = launchOf s1 part n ∧ m.st = (if r.pred = 0 then 2 else 1) ∧ t.cores = s.cores) ∧
     (launchCause s1 part r n ≠ 0 → ∃ t, exec (.launchPacket part q) s = .next t ∧ (∀ j ∈ (queueOf t part q).pkts, j.seq ≠ k.seq) ∧
       (queueOf t part q).fails = (queueOf s part q).fails ++ [(k.acc, launchCause s1 part r n, a)] ∧ t.cores = s.cores))) ∧
  (∀ s part q k, mayStart s part q 1 = some k → k.late = true →
    ∃ t, exec (.launchPacket part q) s = .next t ∧ (∀ j ∈ (queueOf t part q).pkts, j.seq ≠ k.seq) ∧
      (queueOf t part q).fails = (queueOf s part q).fails ++ [(k.acc, 8, pktOperand k.body)] ∧ t.mem = s.mem ∧ t.cores = s.cores)

/-- A node completes once its groups are all gone, with its holdings conveyed and nothing on its way: it is DONE, its LAUNCH completes and it leaves the front end,
once the host has given the pages of its record and its successors' (R188, R299, R330, R369). -/
def Sys2Proof.Machine.Says.NodesComplete : Prop :=
  ∀ s part node n, findNode s part (BitVec.ofNat 64 node) = some n → n.st = 3 →
    (allGone n = true → n.walksLeft = 0 → nodeInFlight s part (BitVec.ofNat 64 node) = false →
      ∀ t, frontAsks s part (BitVec.ofNat 64 node :: n.succs) = some t → exec (.nodeDone part node) s = .next t) ∧
    (allGone n = true → n.walksLeft = 0 → nodeInFlight s part (BitVec.ofNat 64 node) = false →
      frontAsks s part (BitVec.ofNat 64 node :: n.succs) = none →
      ∃ t, exec (.nodeDone part node) s = .next t ∧ findNode t part (BitVec.ofNat 64 node) = none ∧
        (∀ j ∈ (queueOf t part n.queue).pkts, j.seq ≠ n.seq) ∧
        (n.succs = [] → n.cause = 0 → t.mem = (writeState s part (BitVec.ofNat 64 node) 4).mem)) ∧
    ((allGone n = false ∨ n.walksLeft ≠ 0 ∨ nodeInFlight s part (BitVec.ofNat 64 node) = true) → exec (.nodeDone part node) s = .next s)

namespace Sys2Proof.Machine

/-- A packet of a queue has completed: it is no longer there, and the failures noted for the next EVENT are `fails` (R295, R297). -/
def PktGone (t : State) (part q : Nat) (k : Pkt) (fails : List (Nat × Nat × DWord)) : Prop :=
  (∀ j ∈ (queueOf t part q).pkts, j.seq ≠ k.seq) ∧ (queueOf t part q).fails = fails

end Sys2Proof.Machine

/-- QFENCE completes at its start when every earlier packet of the queues it names has completed, else it waits; a COLL with usable addresses starts its
program; a packet whose address cannot be used completes with cause 3; the pages of a COLL are asked of the host first, where that
gives them (R295, R296, R362, R369). -/
def Sys2Proof.Machine.Says.FencesAndCollectivesStart : Prop :=
  (∀ s part q k, mayStart s part q 3 = some k →
    ∃ t, exec (.qfence part q) s = .next t ∧ PktGone t part q k (queueOf s part q).fails ∧ t.mem = s.mem) ∧
  (∀ s part q, (∀ u ∈ (getPart s part).queues, u.1 = q → ∀ k, nextStart u.2 = some k → pktType k.body = 3 →
      ∃ v ∈ (getPart s part).queues, (pktOperand k.body).toNat.testBit v.1 = true ∧ ∃ j ∈ v.2.pkts, j.acc < k.acc) →
    exec (.qfence part q) s = .next s) ∧
  (∀ s part q k t, mayStart s part q 2 = some k → frontAsks s part (collPages k.body) = some t → exec (.coll part q) s = .next t) ∧
  (∀ s part q k, mayStart s part q 2 = some k → frontAsks s part (collPages k.body) = none →
    (collAddrOk s part k.body = true → ∃ t c, exec (.coll part q) s = .next t ∧ (getPart t part).colls = (getPart s part).colls ++ [c] ∧
      c.q = q ∧ c.pseq = k.seq ∧ c.prog = pktOperand k.body ∧ c.pc = 0 ∧ c.comm = field k.body.toNat 261 256 ∧ t.mem = s.mem) ∧
    (collAddrOk s part k.body = false → ∃ t, exec (.coll part q) s = .next t ∧
      PktGone t part q k ((queueOf s part q).fails ++ [(k.acc, 3, 0)]) ∧ t.mem = s.mem))

/-- EVENT completes: it writes its record, DONE last, and the failures of the packets before it are reported and forgotten; a misaligned one is refused
with cause 3 and, in the model's reading, carries them over (log 45); either raises the interrupt it asks for. SIGNAL completes: it writes or adds to its
word in one step (R295, R297). Either waits for a page that the host has still to give (R369). -/
def Sys2Proof.Machine.Says.EventsAndSignals : Prop :=
  (∀ s part q k t, mayStart s part q 4 = some k → (pktOperand k.body).toNat % 32 = 0 → frontAsks s part [pktOperand k.body] = some t →
    exec (.event part q) s = .next t) ∧
  (∀ s part q k t, mayStart s part q 6 = some k → (pktOperand k.body).toNat % 8 = 0 → frontAsks s part [pktOperand k.body] = some t →
    exec (.signal part q) s = .next t) ∧
  (∀ s part q k u v, mayStart s part q 4 = some k → (pktOperand k.body).toNat % 32 = 0 → frontAsks s part [pktOperand k.body] = none →
    engWrite (markStarted s part q k) part (pktOperand k.body) 28 (eventBody (queueOf s part q) k) = some u →
    engWrite u part (pktOperand k.body + 28) 4 1 = some v →
    ∃ t, exec (.event part q) s = .next t ∧ t.mem = v.mem ∧
      PktGone t part q k ((queueOf s part q).fails.filter fun f => decide (k.acc ≤ f.1)) ∧ (queueOf t part q).notes = 0 ∧
      t.irqs = s.irqs ++ (if (pktTag k.body).testBit 31 then [(part, (getPart s part).ivec)] else [])) ∧
  (∀ s part q k, mayStart s part q 4 = some k → (pktOperand k.body).toNat % 32 ≠ 0 →
    ∃ t, exec (.event part q) s = .next t ∧ t.mem = s.mem ∧ PktGone t part q k ((queueOf s part q).fails ++ [(k.acc, 3, 0)]) ∧
      t.irqs = s.irqs ++ (if (pktTag k.body).testBit 31 then [(part, (getPart s part).ivec)] else [])) ∧
  (∀ s part q k w u, mayStart s part q 6 = some k → (pktOperand k.body).toNat % 8 = 0 → frontAsks s part [pktOperand k.body] = none → signalValue s part k = some w →
    engWrite (markStarted s part q k) part (pktOperand k.body) 8 w = some u →
    ∃ t, exec (.signal part q) s = .next t ∧ t.mem = u.mem ∧ PktGone t part q k (queueOf s part q).fails)

/-- WAITSEM: satisfied, at its start or when its word is read again, it completes; else it stays, started; a misaligned or unreadable word completes it
with cause 3; a page that the host has still to give is waited for (R295, R369). -/
def Sys2Proof.Machine.Says.SemaphoresAreAwaited : Prop :=
  (∀ s part q k t, mayStart s part q 5 = some k → (pktOperand k.body).toNat % 8 = 0 → frontAsks s part [pktOperand k.body] = some t →
    exec (.waitsem part q) s = .next t) ∧
  (∀ s part q k, mayStart s part q 5 = some k → ((pktOperand k.body).toNat % 8 = 0 → frontAsks s part [pktOperand k.body] = none) →
    ((pktOperand k.body).toNat % 8 = 0 → semHolds s part k.body = some true →
      ∃ t, exec (.waitsem part q) s = .next t ∧ PktGone t part q k (queueOf s part q).fails ∧ t.mem = s.mem) ∧
    ((pktOperand k.body).toNat % 8 = 0 → semHolds s part k.body = some false →
      exec (.waitsem part q) s = .next (kickFront (markStarted s part q k) part)) ∧
    (((pktOperand k.body).toNat % 8 ≠ 0 ∨ semHolds s part k.body = none) →
      ∃ t, exec (.waitsem part q) s = .next t ∧ PktGone t part q k ((queueOf s part q).fails ++ [(k.acc, 3, 0)]) ∧ t.mem = s.mem)) ∧
  (∀ s part q k, (queueOf s part q).pkts.find? (fun k => k.started && pktType k.body == 5) = some k → frontRuns s part = true →
    frontAsks s part [pktOperand k.body] = none →
    (semHolds s part k.body = some true →
      ∃ t, exec (.waitsemReread part q) s = .next t ∧ PktGone t part q k (queueOf s part q).fails ∧ t.mem = s.mem) ∧
    (semHolds s part k.body ≠ some true → exec (.waitsemReread part q) s = .next s))

/-- TLBI drops every translation that it covers, in every core and die, and all that the page-walk caches hold of its partition, and completes once nothing
translated before it is on its way; a wait that is still blocked then reads its words by the new translation (R164, R252, R295). -/
def Sys2Proof.Machine.Says.TranslationsAreDropped : Prop :=
  (∀ s part q k, (queueOf s part q).pkts.find? (fun k => k.started && pktType k.body == 7) = none → mayStart s part q 7 = some k →
    canonical (pktOperand k.body) = true → (pktOperand k.body).toNat % 65536 = 0 →
    (let base := (pktOperand k.body).toNat % 2 ^ 57
     let pages := field k.body.toNat 159 128
     ∃ t, exec (.tlbi part q) s = .next t ∧ t.mem = s.mem ∧ (∀ c, ∀ e ∈ (getCore t c).tlb, covered part base pages e = false) ∧
       (∀ d, ∀ e ∈ (getDie t d).stlb, covered part base pages e = false) ∧
       (∀ c, ∀ e ∈ (getCore s c).tlb, covered part base pages e = false → e ∈ (getCore t c).tlb) ∧
       (∀ d, ∀ e ∈ (getDie t d).pwc, e.1 / 2 ^ 60 ≠ part) ∧
       (quietPart s part = true → PktGone t part q k (queueOf s part q).fails))) ∧
  (∀ s part l pa pte, l.loc = false → l.seen = none → engTrans s part l.va .read = .ok pa pte → laneMoved s part l = { l with addr := pa })

/-! # Commands and halts -/

/-- VACATE completes: a request that is malformed ends with CSTAT 4, one without save slots with CSTAT 3, and otherwise its cores issue nothing more; a core that has
drained is written to the save pool, its groups at their region entries and at the tickets of these, and is empty; where a leader still has what no
shadow can compare, its pair is brought into step first, the model's choice (R128, R236, R304 to R306; logs 16, 71). -/
def Sys2Proof.Machine.Says.CoresAreVacated : Prop :=
  (∀ s part, inProgress s part 3 = true → (getPart s part).named = none →
    (vacateList s part = none → ∃ t, exec (.vacate part) s = .next t ∧ (getPart t part).cstat = 4 ∧ t.cores = s.cores ∧ t.mem = s.mem) ∧
    (∀ l, vacateList s part = some l → freeSaveCount (getPart s part) < (l.filter (occupied s part)).length →
      ∃ t, exec (.vacate part) s = .next t ∧ (getPart t part).cstat = 3 ∧ t.cores = s.cores ∧ t.mem = s.mem) ∧
    (∀ l, vacateList s part = some l → (l.filter (occupied s part)).length ≤ freeSaveCount (getPart s part) →
      ∃ t, exec (.vacate part) s = .next t ∧ ∀ c ∈ l, (getCore t c).vacating = true)) ∧
  (∀ s part l c slot, inProgress s part 3 = true → (getPart s part).named = some l → l.find? (mayVacate s part) = some c → tilesOn s part c = [] →
    (∀ w ∈ (getDie s (dieOf c)).swapq, w.gslot / 64 ≠ c) → freeSaveSlot (getPart s part) = some slot →
    (pairsUneven s c = true → exec (.vacate part) s = .next (levelPairs s c)) ∧ (pairsUneven s c = false →
    ∃ t im, exec (.vacate part) s = .next t ∧ (getPart t part).images = (getPart s part).images ++ [im] ∧ im.core = c ∧ im.slot = slot ∧
      im.img.slots = rolledSlots (levelPairs s c) (getCore (levelPairs s c) c) ∧ im.img.lmem = (getCore s c).lmem ∧ im.img.accs = (getCore s c).accs ∧
      (getCore t c).slots = [])) ∧
  (∀ s c, (∀ p ∈ (getCore s c).slots, p.2.shadow ≠ .leader) → levelPairs s c = s)

/-- PREEMPT completes: in a halted partition it is refused with CSTAT 4; a running one with nothing on its cores is PREEMPTED at once, its enabled queues in QSTAT 2
(R308, R339). -/
def Sys2Proof.Machine.Says.PartitionsArePreempted : Prop :=
  ∀ s part, inProgress s part 1 = true → (getPart s part).named = none →
    ((getPart s part).st = .halted → ∃ t, exec (.preempt part) s = .next t ∧ (getPart t part).cstat = 4 ∧ (getPart t part).st = .halted ∧
      t.cores = s.cores) ∧
    ((getPart s part).st = .running →
      (∀ c ∈ coresOf (getPart s part).lay, (getCore s c).slots = [] ∧ (getCore s c).node = none ∧
        ∀ n ∈ (getPart s part).nodes, grantsOn n c = []) →
      ∃ t, exec (.preempt part) s = .next t ∧ (getPart t part).st = .preempted ∧ (getPart t part).cstat = 2 ∧
        (∀ c ∈ coresOf (getPart s part).lay, (getCore t c).vacating = true) ∧
        (∀ q, (queueOf s part q).qen = true → (queueOf s part q).qstat ≠ 3 → (queueOf t part q).qstat = 2))

/-- RESUME of a pre-empted or halted partition with no image saved completes: it runs, its cores take blocks again, and its stopped queues go on (R307, R308). -/
def Sys2Proof.Machine.Says.PartitionsResume : Prop :=
  (∀ s part, inProgress s part 2 = true → (getPart s part).st = .preempted → (getPart s part).images = [] →
    ∃ t, exec (.resume part) s = .next t ∧ (getPart t part).st = .running ∧ (getPart t part).cstat = 2 ∧
      (∀ k ∈ t.cores, k.2.part = part → k.2.vacating = false) ∧
      (∀ q, (queueOf s part q).qstat = 2 → (queueOf t part q).qstat = if (queueOf s part q).pkts.isEmpty then 0 else 1)) ∧
  (∀ s part, (getPart s part).st = .halted → (getPart s part).named = none → (getPart s part).images = [] →
    ∃ t, exec (.partitionResume part) s = .next t ∧ (getPart t part).st = .running ∧ (getPart t part).squall = false ∧
      (∀ k ∈ t.cores, k.2.part = part → k.2.stopped = false ∧ ∀ p ∈ k.2.slots, p.2.raised = false ∧ p.2.cause = 0) ∧
      (∀ k ∈ t.cores, ∀ e ∈ k.2.tlb, e.part ≠ part)) ∧
  (∀ s part, (getPart s part).st ≠ .halted → exec (.partitionResume part) s = .next s)

/-- TEARDOWN completes: every queue and every core of the partition is emptied and the line is down; once no holding is left to walk, its nodes are gone (R308,
R309). -/
def Sys2Proof.Machine.Says.PartitionsAreTornDown : Prop :=
  (∀ s part, (getPart s part).tearing = false → ∃ t, exec (.teardown part) s = .next t ∧ (getPart t part).st = .running ∧
    (getPart t part).squall = false ∧ (∀ q, (queueOf t part q).pkts = []) ∧ (getPart t part).images = [] ∧
    (∀ k ∈ t.cores, k.2.part = part → k.2.slots = [] ∧ k.2.bufs = [])) ∧
  (∀ s part, (getPart s part).tearing = true → walksOf s part = false → ∃ t, exec (.teardown part) s = .next t ∧ (getPart t part).nodes = [] ∧
    (getPart t part).tearing = false ∧ t.mem = s.mem ∧ t.cores = s.cores)

/-- The expiry of a core's watchdog completes once its node's budget is used up with groups resident: the partition's line rises with cause 0x0A; a budget of 0 never
expires (R310, R314). -/
def Sys2Proof.Machine.Says.WatchdogsExpire : Prop :=
  (∀ s core, wdogOf s core ≠ 0 → (getCore s core).slots ≠ [] → (getCore s core).stopped = false → (getCore s core).vacating = false →
    ∃ t, exec (.watchdogExpiry core) s = .next t ∧ (getPart t (getCore s core).part).squall = true ∧
      wdogOf s core ≤ (getCore t core).wdc ∧ ((getPart s (getCore s core).part).squall = false → (getPart t (getCore s core).part).cause = 0x0A)) ∧
  (∀ s core, wdogOf s core = 0 → exec (.watchdogExpiry core) s = .next s)

/-- The steps of a halt complete: a cause raises the line of its partition, a code that is none does nothing; where the line reaches a unit it stops; once it has reached them all
and everything has drained the partition is HALTED (R314 to R316, R339). -/
def Sys2Proof.Machine.Says.HaltsComplete : Prop :=
  (∀ s part c, (isCause c = true → ∃ t, exec (.squallRaise part c) s = .next t ∧ (getPart t part).squall = true ∧ t.cores = s.cores) ∧
    (isCause c = false → exec (.squallRaise part c) s = .next s)) ∧
  (∀ s part u, (getPart s part).squall = true → u ∈ (getPart s part).unitsLeft →
    ∃ t, exec (.squallArrival part u) s = .next t ∧ (getPart t part).unitsLeft = (getPart s part).unitsLeft.filter (· != u) ∧
      (∀ c, u = .core c → (getCore t c).stopped = true) ∧ (∀ cl, u = .matrix cl → (getCluster t cl).frozen = true) ∧
      (∀ q, u = .bte q → (bteOf t part q).stopped = true) ∧ (∀ c k, (getGroup t c k).map regsOf = (getGroup s c k).map regsOf)) ∧
  (∀ s part, haltReady s part = true → ∃ t, exec (.haltComplete part) s = .next t ∧ (getPart t part).st = .halted ∧ t.mem = s.mem ∧
    (∀ k ∈ t.cores, k.2.part = part → k.2.stopped = true)) ∧
  (∀ s part, haltReady s part = false → exec (.haltComplete part) s = .next s)

/-- Containment completes: it takes every group of the block from the cores and reports it in the error log; a block that may not be relaunched is killed and its node's
CAUSE is 0x20, one that may is set to be placed again, away from its cluster (R328 to R331). -/
def Sys2Proof.Machine.Says.BlocksAreContained : Prop :=
  ∀ s core slot src pa g n, getGroup s core slot = some g → findNode s g.part g.node = some n →
    ∃ t, exec (.containment core slot src pa) s = .next t ∧ (∀ c k h, getGroup t c k = some h → ofBlock g.part n.addr g.blk h = false) ∧
      (∀ c k h, getGroup s c k = some h → ofBlock g.part n.addr g.blk h = false → (∀ p ∈ (getCore s c).slots, ∀ q ∈ (getCore s c).slots, p.1 = q.1 → p = q) →
        getGroup t c k = some h) ∧
      (getDie t (dieOf core)).errCount = (getDie s (dieOf core)).errCount + 1 ∧
      ∃ m, findNode t g.part g.node = some m ∧
        (mayRelaunch n g.blk = false → g.blk ∈ m.killedBlks ∧ m.cause = 0x20) ∧
        (mayRelaunch n g.blk = true → mapGet 0 m.relaunched g.blk = mapGet 0 n.relaunched g.blk + 1 ∧ (g.blk, clusterOf core) ∈ m.badClusters ∧
          ∀ p ∈ m.placed, p.blk ≠ g.blk)

/-! # The package -/

/-- A boundary move that R337 does not allow changes nothing, the model's choice (log 37); one of a halted or pre-empted partition completes at once with its new layout, one of
running partitions quiesces them all first (R337 to R339). -/
def Sys2Proof.Machine.Says.BoundariesMove : Prop :=
  (∀ s m more, moveAllowed s (m :: more) = false → (∃ n ∈ m :: more, (getPart s n.1).stopMove ≠ some (m :: more)) → exec (.boundaryMove m more) s = .next s) ∧
  (∀ s part lay, moveAllowed s [(part, lay)] = true → ((getPart s part).st = .halted ∨ (getPart s part).st = .preempted) →
    ∃ t, exec (.boundaryMove (part, lay) []) s = .next t ∧ (getPart t part).lay = lay ∧ (getPart t part).st = (getPart s part).st ∧
      (getPart t part).stopMove = none ∧ (getPart t part).jnext = (getPart s part).jnext + 1) ∧
  (∀ s m more, moveAllowed s (m :: more) = true → (∀ n ∈ m :: more, (getPart s n.1).st = .running ∧ (getPart s n.1).squall = false) →
    ∃ t, exec (.boundaryMove m more) s = .next t ∧ t.mem = s.mem ∧
      ∀ n ∈ m :: more, (getPart t n.1).st = .quiescing ∧ (getPart t n.1).stopMove = some (m :: more) ∧ (getPart t n.1).lay = (getPart s n.1).lay)

/-- A scrub period completes: it moves a stack's position on, no further than 512 lines a period, and not at all after a period of too much demand; no data changes (R334). -/
def Sys2Proof.Machine.Says.StacksAreScrubbed : Prop :=
  ∀ s stack, stack < 32 →
    ∃ t n, exec (.scrubPeriod stack) s = .next t ∧ n ≤ 512 ∧
      (mapGet {} t.hbm stack).pos = ((mapGet {} s.hbm stack).pos + n) % stackLines ∧
      ((mapGet {} s.hbm stack).share * 81920 < 100 * (mapGet {} s.hbm stack).demand → n = 0) ∧ t.mem = s.mem ∧ t.poison = s.poison ∧ t.cores = s.cores

/-- Clocks and cooling complete: a core clock is set to 0.8 to 2.5 GHz and the mesh clock goes on from where it stands; throttling lowers it, to no less
than 0.8 GHz; a thermal shutdown raises every partition's line, reports, and, with nothing left to do, takes the power of all compute dies (R31, R34; the code
0x100 of the report is the model's, log 21). -/
def Sys2Proof.Machine.Says.ClocksAndCooling : Prop :=
  (∀ s die f, die < 8 → 8 ≤ f → f ≤ 25 → ∃ t, exec (.frequencyChange die f) s = .next t ∧ (getDie t die).freq = f ∧
    meshClock t die = meshClock s die ∧ t.cores = s.cores ∧ t.mem = s.mem) ∧
  (∀ s die f, (8 ≤ die ∨ f < 8 ∨ 25 < f) → exec (.frequencyChange die f) s = .next s) ∧
  (∀ s die, die < 8 → 8 < (getDie s die).freq → ∃ t, exec (.thermalThrottle die) s = .next t ∧ 8 ≤ (getDie t die).freq ∧
    (getDie t die).freq < (getDie s die).freq ∧ t.cores = s.cores ∧ t.mem = s.mem) ∧
  (∀ s, s.mgmt.shutdown = false → ∃ t, exec .thermalShutdown s = .next t ∧ t.mgmt.shutdown = true ∧ t.cores = s.cores ∧
    t.mgmt.replies = s.mgmt.replies ++ [(0x100, [])] ∧ ∀ p, p < 8 → (getPart t p).squall = true) ∧
  (∀ s, s.mgmt.shutdown = true → s.agenda = [] → ∃ t, exec .thermalShutdown s = .next t ∧ (∀ d, d < 8 → (getDie t d).powered = false) ∧
    t.mem = s.mem ∧ t.cores = s.cores)

/-- A module reset completes: it leaves the machine as after bring-up, but for certificates, the functions' bindings and an accepted firmware image,
which now runs; without a valid signature its start is halted, with a stack, die or link that fails it stays in the management state, and it is
presented to the host in neither, and the side-band port tells of it (R35, R372; which of the three a bring-up finds is the model's own input `nextBoot`, and that the bindings
stay is the model's choice, log 21). -/
def Sys2Proof.Machine.Says.ModuleResets : Prop :=
  ∀ s, ∃ t, exec .moduleReset s = .next t ∧ t.mem = [] ∧ t.cores = [] ∧ t.dies = [] ∧ t.parts = State.reset.parts ∧
    t.packets = [] ∧ t.agenda = [] ∧ t.mgmt.certs = s.mgmt.certs ∧ t.mgmt.firmware = s.mgmt.nextImage.getD s.mgmt.firmware ∧ t.mgmt.spdm = [] ∧
    t.mgmt.boot = s.mgmt.nextBoot ∧
    (presented t = true ↔ s.mgmt.nextBoot = .presented) ∧ (presented t = false → t.mgmt.replies ≠ [])

namespace Sys2Proof.Machine

/-- The port gives an answer with a code and records, and keeps all earlier ones (R342; the codes and formats are the model's, log 21). -/
def Answers (s t : State) (code : Nat) (l : List Record) : Prop := t.mgmt.replies = s.mgmt.replies ++ [(code, l)]

/-- The commands of the side-band port that change state, with their codes (R342, R344). -/
def stateCommands : Instr → Option Nat
  | .haltPartition _ => some 2
  | .resumePartition _ => some 3
  | .resetPartition _ => some 4
  | .setBudgets .. => some 8
  | .moveBoundary .. => some 9
  | .poisonLine _ => some 10
  | _ => none

end Sys2Proof.Machine

/-- Outside a session the side-band port runs no command that changes state: an error completion, and nothing else changes (R342; its code is the
model's, log 21). -/
def Sys2Proof.Machine.Says.CommandsNeedASession : Prop :=
  ∀ i code s, stateCommands i = some code → (spdmOf s 0).session = false →
    ∃ t, exec i s = .next t ∧ Answers s t (errorCode code) [] ∧ { t with mgmt := s.mgmt } = s

/-- In a session the commands complete: HaltPartition raises the line with cause 0x10, ResumePartition resumes a halted partition, ResetPartition tears it down and turns its
queues off, SetBudgets sets the budget of a class of a partition on a die, its stacks' scrub share or its leave cap, MoveBoundary starts an allowed move, PoisonLine makes every byte of an owned HBM line
uncorrectable without touching its data (R334 to R337, R342, R344). -/
def Sys2Proof.Machine.Says.CommandsInASession : Prop :=
  ∀ s, (spdmOf s 0).session = true →
    (∀ part, ∃ t, exec (.haltPartition part) s = .next t ∧ Answers s t 2 [] ∧ (getPart t part).squall = true ∧
      ((getPart s part).squall = false → (getPart t part).cause = 0x10)) ∧
    (∀ part, (getPart s part).st = .halted → (getPart s part).named = none → (getPart s part).images = [] →
      ∃ t, exec (.resumePartition part) s = .next t ∧ Answers s t 3 [] ∧ (getPart t part).st = .running ∧ (getPart t part).squall = false) ∧
    (∀ part, (getPart s part).tearing = false → ∃ t, exec (.resetPartition part) s = .next t ∧ Answers s t 4 [] ∧
      (∀ q, (queueOf t part q).qen = false ∧ (queueOf t part q).head = 0 ∧ (queueOf t part q).tail = 0 ∧ (queueOf t part q).pkts = [])) ∧
    (∀ part die cls v, part < 8 → die < 8 → cls < 6 → ∃ t, exec (.setBudgets die ⟨part, cls⟩ (some v)) s = .next t ∧ Answers s t 8 [] ∧
      assoc (getDie t die).budgets (if cls = 4 then 4 else 8 * part + cls) = some v ∧ t.mem = s.mem ∧ t.cores = s.cores) ∧
    (∀ part die v, part < 8 → die < 8 → ∃ t, exec (.setBudgets die ⟨part, 6⟩ (some v)) s = .next t ∧ Answers s t 8 [] ∧
      (∀ j, j < 4 → (mapGet {} t.hbm (4 * die + j)).share = v) ∧ t.mem = s.mem ∧ t.cores = s.cores) ∧
    (∀ part die v, part < 8 → die < 8 → ∃ t, exec (.setBudgets die ⟨part, 7⟩ v) s = .next t ∧ (getDie t die).leaveCap = v ∧ .leaveGrant die ∈ t.agenda) ∧
    (∀ m more, moveAllowed s (m :: more) = true → ∃ t, exec (.moveBoundary m more) s = .next t ∧ Answers s t 9 [] ∧ .boundaryMove m more ∈ t.agenda) ∧
    (∀ line, line % 128 = 0 → (s.parts.any fun p => inShare p.2.lay line) = true → regionOf line = .hbm →
      ∃ t, exec (.poisonLine line) s = .next t ∧ Answers s t 10 [] ∧ linePoisoned t line = true ∧ t.mem = s.mem)

/-- The side-band port's reads complete and change nothing but its answers: a partition's state, CSTAT and QSTATs; up to 32 entries of the journal; up to 8 records of a
die's error log; up to 1 KiB of the partition's share (R340, R342). -/
def Sys2Proof.Machine.Says.SideBandReads : Prop :=
  ∀ s part,
    (∃ t r q, exec (.getPartitionState part) s = .next t ∧ Answers s t 1 [r, q] ∧ { t with mgmt := s.mgmt } = s) ∧
    (∀ n, ∃ t es, exec (.readJournal part n) s = .next t ∧ Answers s t 5 (BitVec.ofNat 512 (getPart s part).jnext :: es) ∧ es.length ≤ 32 ∧
      { t with mgmt := s.mgmt } = s) ∧
    (∀ die idx, ∃ t, exec (.readErrorLog die idx) s = .next t ∧ Answers s t 6 (((getDie s die).errlog.reverse.drop idx).take 8) ∧
      { t with mgmt := s.mgmt } = s) ∧
    (∀ pa len, len ≤ 1024 → (∀ j, j < len → inShare (getPart s part).lay (pa + j) = true ∧ linePoisoned s (pa + j) = false) →
      ∃ t, exec (.readDeviceMemory part pa len) s = .next t ∧
        Answers s t 7 (packRecords 16 ((List.range len).map fun j => memByte s (pa + j))) ∧ { t with mgmt := s.mgmt } = s) ∧
    (∀ pa len, (1024 < len ∨ ∃ j, j < len ∧ inShare (getPart s part).lay (pa + j) = false) →
      ∃ t, exec (.readDeviceMemory part pa len) s = .next t ∧ Answers s t (errorCode 7) [] ∧ { t with mgmt := s.mgmt } = s)

namespace Sys2Proof.Machine

/-- The SPDM requests: port, number, when the exchange has come far enough, and what the exchange becomes (R372; that each needs what it needs is the
model's reading, log 21). -/
def spdmAsk : Instr → Option (Nat × Nat × (State → Bool) × (State → List Record) × (Spdm → Spdm))
  | .getVersion p => some (p, 0, fun _ => true, fun _ => [0x12], fun _ => { version := true })
  | .getCapabilities p => some (p, 1, fun s => (spdmOf s p).version, fun _ => [], fun e => { e with caps := true })
  | .negotiateAlgorithms p a => some (p, 2, fun s => (spdmOf s p).caps && a.testBit 0, fun _ => [1], fun e => { e with algs := some 1 })
  | .getDigests p => some (p, 3, fun s => (spdmOf s p).algs.isSome,
      fun s => [BitVec.ofNat 512 (recordOf ((List.range 8).map fun j => (j, (hasCert s j).toNat)))], id)
  | .getCertificate p k => some (p, 4, fun s => (spdmOf s p).algs.isSome && hasCert s k, fun s => [BitVec.ofNat 512 (mapGet 0 s.mgmt.certs k)], id)
  | .challenge p k => some (p, 5, fun s => (spdmOf s p).algs.isSome && hasCert s k, fun _ => [], id)
  | .getMeasurements p k => some (p, 6, fun s => (spdmOf s p).algs.isSome && decide (1 ≤ k) && decide (k ≤ 4),
      fun s => [BitVec.ofNat 512 (measured s k)], id)
  | .keyExchange p => some (p, 7, fun s => (spdmOf s p).algs.isSome, fun _ => [], fun e => { e with keyed := true })
  | .finish p => some (p, 8, fun s => (spdmOf s p).keyed, fun _ => [], fun e => { e with keyed := false, session := true })
  | .endSession p => some (p, 9, fun s => (spdmOf s p).session, fun _ => [], fun e => { e with session := false })
  | _ => none

/-- Whether SPDM is served at a port: the side-band port always, a physical function of a module that is presented to its host (R35, R372). -/
def portServed (s : State) (p : Nat) : Bool := p == 0 || presented s

end Sys2Proof.Machine

/-- An SPDM request completes: one that its exchange admits is answered with what R372 tells of its answer and a record that is open, and its exchange goes on; any other
gets an error and changes nothing, and at a function of a module that is not presented there is no answer (R35, R372; the answers' formats are the
model's, log 21). -/
def Sys2Proof.Machine.Says.AttestationAnswers : Prop :=
  ∀ i p k ok told f s, spdmAsk i = some (p, k, ok, told, f) →
    (portServed s p = false → exec i s = .next s) ∧ (portServed s p = true →
    (ok s = true → ∃ t, exec i s = .next t ∧ Answers s t (spdmCode p k) (told s ++ [Config.freeRecord s.free]) ∧ spdmOf t p = f (spdmOf s p) ∧
      (∀ o, o ≠ p → spdmOf t o = spdmOf s o) ∧ t.free = s.free + 1 ∧ t.mem = s.mem ∧ t.cores = s.cores ∧ t.parts = s.parts) ∧
    (ok s = false → ∃ t, exec i s = .next t ∧ Answers s t (errorCode (spdmCode p k)) [] ∧ t.mgmt.spdm = s.mgmt.spdm ∧ { t with mgmt := s.mgmt } = s))

/-- Firmware and certificate commands complete: an image is taken only with a valid signature, and runs after the next module reset; certificates are written to slots 1 to 7 over a secured
session only (R35, R372). -/
def Sys2Proof.Machine.Says.FirmwareAndCertificates : Prop :=
  (∀ img s, ∃ t, exec (.firmwareImageUpdate img true) s = .next t ∧ t.mgmt.nextImage = some img ∧ t.mgmt.firmware = s.mgmt.firmware) ∧
  (∀ img s, ∃ t, exec (.firmwareImageUpdate img false) s = .next t ∧ t.mgmt.nextImage = s.mgmt.nextImage ∧ { t with mgmt := s.mgmt } = s) ∧
  (∀ port slot chain s, portServed s port = false → exec (.certificateProvisioning port slot chain) s = .next s) ∧
  (∀ port slot chain s, portServed s port = true → (spdmOf s port).session = true → 1 ≤ slot → slot < 8 →
    ∃ t, exec (.certificateProvisioning port slot chain) s = .next t ∧ mapGet 0 t.mgmt.certs slot = chain ∧
      (∀ k, k ≠ slot → mapGet 0 t.mgmt.certs k = mapGet 0 s.mgmt.certs k) ∧ { t with mgmt := s.mgmt } = s) ∧
  (∀ port slot chain s, portServed s port = true → ((spdmOf s port).session = false ∨ slot = 0 ∨ 8 ≤ slot) →
    ∃ t, exec (.certificateProvisioning port slot chain) s = .next t ∧ t.mgmt.certs = s.mgmt.certs ∧ { t with mgmt := s.mgmt } = s)

/-! # Block transfers, the fabric and collectives -/

/-- The head descriptor of a BTE queue starts, where the queue runs and its engine serves it, and the start completes: one that has been torn down ends with STATUS
5; one with a format error, whose list cannot be read, or whose peer entry cannot be used, ends at once, that last one and where a list's entry is
uncorrectable being the model's choice (logs 72, 47); a good one runs, at once or, beyond 1 MiB, once it has leave; pages that the host has still to give
are waited for; a fence leaves its queues together when all have come to it with nothing running, and else waits (R336, R347, R349, R352, R353, R359,
R369). -/
def Sys2Proof.Machine.Says.DescriptorsStart : Prop :=
  (∀ s part q p rest, bteHeld s part q = false → engineAway s part q = false → (bteOf s part q).run = none →
    (bteOf s part q).items = .post p :: rest → p.cancel = true → ∃ t r, exec (.bteDescriptorStart part q) s = .next t ∧
      (bteOf t part q).run = some r ∧ r.post = p ∧ r.ended = true ∧ r.status = 5 ∧ .bteCompletion part q ∈ t.agenda ∧ t.mem = s.mem) ∧
  (∀ s part q p rest t, bteHeld s part q = false → engineAway s part q = false → (bteOf s part q).run = none →
    (bteOf s part q).items = .post p :: rest → p.cancel = false → bteAsks s part q p.die [p.d] = some t →
    exec (.bteDescriptorStart part q) s = .next t) ∧
  (∀ s part q p rest l bad, bteHeld s part q = false → engineAway s part q = false → (bteOf s part q).run = none →
    (bteOf s part q).items = .post p :: rest → p.cancel = false → bteAsks s part q p.die [p.d] = none →
    readDevice s part p.d 64 = .ok l bad → (l.any fun b => b.2) = false →
    (let d : Record := BitVec.ofNat 512 (bytesNum (l.map fun b => b.1))
     let m : Record := if (descOf d).dsp = 3 then (identOf s part (descOf d).peer).desc else 0
     let ends := fun (st fc : Nat) (fa : DWord) => ∃ t, exec (.bteDescriptorStart part q) s = .next t ∧
       (bteOf t part q).run = some { post := p, desc := d, ended := true, status := st, fcode := fc, faddr := fa } ∧
       .bteCompletion part q ∈ t.agenda ∧ t.mem = s.mem
     (formatBad s part (descOf d) = true → ends 2 0 0) ∧
     (∀ t, formatBad s part (descOf d) = false → bteAsks s part q p.die (startPages s part (descOf d)) = some t →
       exec (.bteDescriptorStart part q) s = .next t) ∧
     (∀ e, formatBad s part (descOf d) = false → bteAsks s part q p.die (startPages s part (descOf d)) = none →
       readDests s part (descOf d) = .error e → ends e.1 e.2.1 e.2.2) ∧
     (∀ ds e, formatBad s part (descOf d) = false → bteAsks s part q p.die (startPages s part (descOf d)) = none →
       readDests s part (descOf d) = .ok ds → peerProblem s part (descOf d).comm (ranksOf (descOf d) ds) = some e → ends e.1 e.2.1 e.2.2) ∧
     (∀ ds, formatBad s part (descOf d) = false → bteAsks s part q p.die (startPages s part (descOf d)) = none →
       readDests s part (descOf d) = .ok ds → peerProblem s part (descOf d).comm (ranksOf (descOf d) ds) = none → (descOf d).len ≤ 2 ^ 20 →
       ∃ t, exec (.bteDescriptorStart part q) s = .next t ∧ (bteOf t part q).run = some { post := p, desc := d, mdesc := m, dests := ds, leave := true } ∧
         .bteDescriptorStart part q ∈ t.agenda ∧ t.mem = s.mem) ∧
     (∀ ds, formatBad s part (descOf d) = false → bteAsks s part q p.die (startPages s part (descOf d)) = none →
       readDests s part (descOf d) = .ok ds → peerProblem s part (descOf d).comm (ranksOf (descOf d) ds) = none → 2 ^ 20 < (descOf d).len →
       ∃ t, exec (.bteDescriptorStart part q) s = .next t ∧ (bteOf t part q).run = some { post := p, desc := d, mdesc := m, dests := ds } ∧
       (getDie t p.die).leaveq = (getDie s p.die).leaveq ++ [(1, part * 16 + q)] ∧ t.mem = s.mem))) ∧
  (∀ s part q n m rest, bteHeld s part q = false → (bteOf s part q).run = none → (bteOf s part q).items = .fence n m :: rest →
    ((∀ j ∈ maskQueues m, (bteOf s part j).run = none ∧ ∃ m' r, (bteOf s part j).items = .fence n m' :: r) →
      ∃ t, exec (.bteDescriptorStart part q) s = .next t ∧ (∀ j ∈ maskQueues m, (bteOf t part j).items = (bteOf s part j).items.drop 1) ∧
        t.mem = s.mem) ∧
    ((∃ j ∈ maskQueues m, (bteOf s part j).run.isSome = true ∨ (bteOf s part j).items = []) → exec (.bteDescriptorStart part q) s = .next s)) ∧
  (∀ s part q, bteHeld s part q = true → exec (.bteDescriptorStart part q) s = .next s)

/-- A running copy from device memory to device memory moves its next chunk, byte by byte, where its budget admits it and the host has given its pages; it
completes with its last one (R335, R350, R353, R354, R369). How much one step moves, and what it counts, are the model's choice (logs 47, 69). -/
def Sys2Proof.Machine.Says.DescriptorsMove : Prop :=
  ∀ s part q r bytes pas u, bteHeld s part q = false → engineAway s part q = false → (bteOf s part q).run = some r → r.ended = false →
    r.leave = true → r.dests = [(0, (descOf r.desc).dst, (descOf r.desc).peer)] →
    (let b := descOf r.desc
     let s1 := { s with bteTurn := mapSet (part + 1) s.bteTurn (engineKey part q) part }
     let n := chunkLen b [(0, b.dst, b.peer)] r.bytesDone
     b.ssp = 0 → b.dsp = 0 → b.redop = 0 → r.status = 0 → bteAsks s1 part q r.post.die (chunkPages b r.dests r.bytesDone) = none → readDevice s1 part (b.src + BitVec.ofNat 64 r.bytesDone) n = .ok bytes [] →
     (bytes.any fun p => p.2) = false → issueAll s1 part .bte (chunkRequests s1 part b [(0, b.dst, b.peer)] r.bytesDone) = some u →
     destPas u part .write (b.dst + BitVec.ofNat 64 r.bytesDone) n = .ok pas →
     ∃ t r', exec (.bteDescriptorStart part q) s = .next t ∧ t.mem = (memPuts s (pas.zip (bytes.map fun p => p.1))).mem ∧ t.cores = s.cores ∧
       (bteOf t part q).run = some r' ∧ r'.bytesDone = r.bytesDone + n ∧ r'.ended = decide (r.bytesDone + n = b.len) ∧
       (r'.ended = true → r'.status = if r.poisoned then 4 else 0))

/-- An ended descriptor completes in three steps: it locks its ring's control block, it writes its record to the slot at TAIL, it counts TAIL up, unlocks
and leaves its queue; while the block is locked by another, the ring is full, or the host has still to give a page of them, it waits. A BTE's stop completes: at the line the
queue stops (R351, R354, R369). -/
def Sys2Proof.Machine.Says.DescriptorsComplete : Prop :=
  (∀ s part q r t, bteHeld s part q = false → (bteOf s part q).run = some r → r.ended = true → r.awaiting = 0 →
    bteAsks s part q r.post.die (ringPages r) = some t → exec (.bteCompletion part q) s = .next t) ∧
  (∀ s part q r n, bteHeld s part q = false → (bteOf s part q).run = some r → r.ended = true → r.awaiting = 0 → r.phase = 0 →
    bteAsks s part q r.post.die (ringPages r) = none →
    vaRead s part r.post.c 64 = some n → ringBad n = false →
    (let head := field n 127 96
     let tail := field n 159 128
     (∀ u, n.testBit 69 = false → (tail + 2 ^ 32 - head) % 2 ^ 32 < 2 ^ r.post.rlog →
       engWrite s part (r.post.c + 8) 1 (field n 68 64 + 32) = some u →
       ∃ t, exec (.bteCompletion part q) s = .next t ∧ t.mem = u.mem ∧ (bteOf t part q).run = some { r with phase := 1, tail := tail } ∧
         .bteCompletion part q ∈ t.agenda) ∧
     ((n.testBit 69 = true ∨ 2 ^ r.post.rlog ≤ (tail + 2 ^ 32 - head) % 2 ^ 32) → exec (.bteCompletion part q) s = .next s))) ∧
  (∀ s part q r u, (bteOf s part q).run = some r → r.ended = true → r.awaiting = 0 → r.phase = 1 →
    bteAsks s part q r.post.die (ringPages r) = none →
    engWrite s part (r.post.rbase + BitVec.ofNat 64 (32 * (r.tail % 2 ^ r.post.rlog))) 32 (completionRecord r) = some u →
    ∃ t, exec (.bteCompletion part q) s = .next t ∧ t.mem = u.mem ∧ (bteOf t part q).run = some { r with phase := 2 } ∧
      .bteCompletion part q ∈ t.agenda) ∧
  (∀ s part q r n u v, (bteOf s part q).run = some r → r.ended = true → r.awaiting = 0 → r.phase = 2 → vaRead s part r.post.c 64 = some n →
    bteAsks s part q r.post.die (ringPages r) = none →
    engWrite s part (r.post.c + 16) 4 ((field n 159 128 + 1) % 2 ^ 32) = some u → engWrite u part (r.post.c + 8) 1 (field n 68 64) = some v →
    ∃ t, exec (.bteCompletion part q) s = .next t ∧ t.mem = v.mem ∧ (bteOf t part q).run = none ∧
      (bteOf t part q).items = (bteOf s part q).items.drop 1) ∧
  (∀ s part q, (getPart s part).squall = true → ∃ t, exec (.bteStop part q) s = .next t ∧ (bteOf t part q).stopped = true ∧
    (bteOf t part q).items = (bteOf s part q).items) ∧
  (∀ s part q, (getPart s part).squall = false → (getPart s part).st = .running → exec (.bteStop part q) s = .next s)

/-- Requests from peers complete: a write with the partition's key is placed and acknowledged, a read answered with its data; with another key both are refused and
nothing changes; other requests are answered as invalid (R367). -/
def Sys2Proof.Machine.Says.PeersAreServed : Prop :=
  (∀ s part comm src rkey va bytes pas, rkey = (getPart s part).rkey → destPas s part .write va bytes.length = .ok pas →
    ∃ t, exec (.rdmaWriteArrival part comm src rkey va bytes none) s = .next t ∧ t.mem = (memPuts s (pas.zip bytes)).mem ∧
      t.wire = s.wire ++ [.ack part] ∧ t.cores = s.cores) ∧
  (∀ s part comm src rkey va bytes, rkey ≠ (getPart s part).rkey →
    exec (.rdmaWriteArrival part comm src rkey va bytes none) s = .next { s with wire := s.wire ++ [.refused part] }) ∧
  (∀ s part rkey va len l, rkey = (getPart s part).rkey → readDevice s part va len = .ok l [] →
    exec (.rdmaReadRequest part rkey va len) s = .next { s with wire := s.wire ++ [.data part (l.map fun b => b.1)] }) ∧
  (∀ s part rkey va len, rkey ≠ (getPart s part).rkey →
    exec (.rdmaReadRequest part rkey va len) s = .next { s with wire := s.wire ++ [.refused part] }) ∧
  (∀ s qp, exec (.invalidRdmaRequest qp) s = .next { s with wire := s.wire ++ [.invalid qp] })

/-- What comes of requests to peers completes: an acknowledgement ends the oldest one of its queue pair, a refusal fails its descriptor with STATUS 3; a timeout sends it again, up
to seven times; a read's data is written where the descriptor says, and not taken while the queue stands still, the model's reading (R354, log 47); a port that does not exist pauses nothing (R26, R351, R353, R367). -/
def Sys2Proof.Machine.Says.PeersAnswer : Prop :=
  (∀ s qp ok r u, s.rdma.find? (fun r => r.qp == qp && (!ok || !r.isRead)) = some r → r.isColl = false → r.bad = false →
    (bteOf s r.part r.q).run = some u →
    ∃ t v, exec (.rdmaAck qp ok) s = .next t ∧ t.rdma = s.rdma.erase r ∧ (bteOf t r.part r.q).run = some v ∧ v.awaiting = u.awaiting - 1 ∧
      (ok = true → v.status = u.status) ∧ (ok = false → v.status = 3 ∧ v.fcode = 2) ∧ .bteCompletion r.part r.q ∈ t.agenda ∧ t.mem = s.mem) ∧
  (∀ s qp r, s.rdma.find? (fun r => r.qp == qp) = some r → r.retries < 7 →
    exec (.rdmaRetryTimeout qp) s = .next { s with rdma := s.rdma.map fun u => if u = r then { u with retries := u.retries + 1 } else u }) ∧
  (∀ s qp r u, s.rdma.find? (fun r => r.qp == qp) = some r → 7 ≤ r.retries → r.isColl = false → (bteOf s r.part r.q).run = some u →
    ∃ t v, exec (.rdmaRetryTimeout qp) s = .next t ∧ t.rdma = s.rdma.erase r ∧ (bteOf t r.part r.q).run = some v ∧ v.status = 3 ∧ v.fcode = 1) ∧
  (∀ s qp bytes r pas, s.rdma.find? (fun r => r.qp == qp && r.isRead) = some r → r.isColl = false → bteHeld s r.part r.q = false → bytes.length = r.len →
    destPas s r.part .write r.dst r.len = .ok pas →
    ∃ t, exec (.rdmaReadResponse qp bytes) s = .next t ∧ t.mem = (memPuts s (pas.zip bytes)).mem ∧ t.rdma = s.rdma.erase r ∧ t.cores = s.cores) ∧
  (∀ s qp bytes r, s.rdma.find? (fun r => r.qp == qp && r.isRead) = some r → bteHeld s r.part r.q = true →
    exec (.rdmaReadResponse qp bytes) s = .next s) ∧
  (∀ s qp, qpRoom s qp = true →
    ∃ t, exec (.congestionNotification qp) s = .next t ∧ (mapGet {} t.qps qp).slow = (mapGet {} s.qps qp).slow + 1 ∧ t.mem = s.mem) ∧
  (∀ s port prio, port < 32 → prio < 8 → ∃ t, exec (.pfcPause port prio true) s = .next t ∧ (port, prio) ∈ t.paused ∧ t.mem = s.mem) ∧
  (∀ s port prio, port < 32 → prio < 8 → ∃ t, exec (.pfcPause port prio false) s = .next t ∧ (port, prio) ∉ t.paused ∧ t.mem = s.mem) ∧
  (∀ s port prio on, (32 ≤ port ∨ 8 ≤ prio) → exec (.pfcPause port prio on) s = .next s)

/-- The host's port, through a function that is bound to a partition: a read completes with the bytes of the partition's share, or of its control, journal and fabric pages; a write stores its bytes
unless one touches a live holding, and eight bytes at a control or fabric page are a register write; an access to what is neither does nothing; a
function-level reset completes: it tears down the partition of its function (R6, R187, R294, R340, R361, R368). -/
def Sys2Proof.Machine.Says.HostAccesses : Prop :=
  (∀ s fn part pa len, part = fnPart s fn → presented s = true → pageByte (getPart s part) part pa = none →
    (∀ j, j < len → inShare (getPart s part).lay (pa + j) = true ∧ linePoisoned s (pa + j) = false) →
    exec (.hostMemoryAccess fn pa none len) s =
      .next { s with wire := s.wire ++ [.data part ((List.range len).map fun j => memByte s (pa + j))] }) ∧
  (∀ s fn part pa l len, part = fnPart s fn → presented s = true → pageByte (getPart s part) part pa = none →
    (∀ j, j < l.length → inShare (getPart s part).lay (pa + j) = true) → hitsLive s (l.zipIdx.map fun b => (pa + b.2, 1)) = false →
    ∃ t, exec (.hostMemoryAccess fn pa (some l) len) s = .next t ∧ t.mem = (memPuts s (l.zipIdx.map fun b => (pa + b.2, b.1))).mem ∧
      t.cores = s.cores ∧ t.parts = s.parts) ∧
  (∀ s fn part pa l len, part = fnPart s fn → pageByte (getPart s part) part pa = none → ((∃ j, j < l.length ∧ inShare (getPart s part).lay (pa + j) = false) ∨
    hitsLive s (l.zipIdx.map fun b => (pa + b.2, 1)) = true) → exec (.hostMemoryAccess fn pa (some l) len) s = .next s) ∧
  (∀ s fn part pa len, part = fnPart s fn → presented s = true → (pageByte (getPart s part) part pa).isSome = true →
    exec (.hostMemoryAccess fn pa none len) s =
      .next { s with wire := s.wire ++ [.data part ((List.range len).map fun j => (pageByte (getPart s part) part (pa + j)).getD 0)] }) ∧
  (∀ s fn part off l len, part = fnPart s fn → presented s = true → part < 8 → off < 0x10000 → l.length = 8 →
    exec (.hostMemoryAccess fn (0xE000000000000 + part * 0x10000 + off) (some l) len) s =
      exec (.registerWrite part off (BitVec.ofNat 64 (bytesNum l))) s ∧
    exec (.hostMemoryAccess fn (0xE000200000000 + part * 0x10000 + off) (some l) len) s =
      exec (.registerWrite part (0x10000 + off) (BitVec.ofNat 64 (bytesNum l))) s) ∧
  (∀ s fn, (∀ f ∈ s.fns, f.1 ≠ fn) → fnPart s fn = fn % 8) ∧
  (∀ s fn, presented s = true →
    exec (.functionLevelReset fn) s = .next { s with agenda := s.agenda ++ [.teardown (fnPart s fn)] }) ∧
  (∀ s fn pa w len, presented s = false → exec (.hostMemoryAccess fn pa w len) s = .next s)

namespace Sys2Proof.Machine

/-- A collective that makes its next step: the first of its queue, standing at a well-formed step of a communicator it belongs to, with
no page that the host has still to give (R362 to R366, R369). -/
def CollAt (s : State) (part q : Nat) (c : CollRun) (st : CStep) : Prop :=
  frontRuns s part = true ∧ ((getPart s part).colls.filter fun c => c.q == q).head? = some c ∧ stepNow s part c = some st ∧ c.pc ≤ 4095 ∧
  frontAsks s part [c.prog + BitVec.ofNat 64 (16 * c.pc)] = none ∧ frontAsks s part (stepPages s part c st) = none ∧ stepBad st = false ∧ commOk (commOf s part c.comm) = true

end Sys2Proof.Machine

/-- The steps of a collective complete: each kind makes its own step when it can and goes on at the next one, LOOP at its target until its counter has run; NEXT
completes the COLL once every write is acknowledged (R364, R366). -/
def Obligations.CollectivesStep : Prop :=
  (∀ s part q c st s1 d, CollAt s part q c st → st.sop ≤ 6 → signalStep part c st (stepWork s part c st) = .ok s1 d →
    ∃ t e, exec (stepEvent part q st.sop) s = .next t ∧ t.mem = s1.mem ∧ t.rdma = s1.rdma ∧ e ∈ (getPart t part).colls ∧ e.q = c.q ∧ e.pseq = c.pseq ∧
      e.pc = (if st.sop = 6 then d.pc else d.pc + 1) ∧ e.sent = d.sent ∧ e.got = d.got ∧ e.lc = d.lc) ∧
  (∀ s part q c st s1 d, CollAt s part q c st → st.sop = 7 → signalStep part c st (stepWork s part c st) = .ok s1 d →
    ∃ t, exec (.next part q) s = .next t ∧ (∀ e ∈ (getPart t part).colls, ¬(e.q = c.q ∧ e.pseq = c.pseq)) ∧
      (∀ j ∈ (queueOf t part c.q).pkts, j.seq ≠ c.pseq) ∧ t.mem = s1.mem) ∧
  (∀ s part c st, (st.sop = 5 ∨ st.sop = 7) → c.unacked = 0 → stepWork s part c st = .ok s c) ∧
  (∀ c st, mapGet 0 c.lc st.lc + 1 < st.loff → (loopStep c st).pc = st.target ∧ mapGet 0 (loopStep c st).lc st.lc = mapGet 0 c.lc st.lc + 1) ∧
  (∀ c st, st.loff ≤ mapGet 0 c.lc st.lc + 1 → (loopStep c st).pc = c.pc + 1 ∧ mapGet 0 (loopStep c st).lc st.lc = 0) ∧
  (∀ s part c st s1 d, sendChunk s part c st = .ok s1 d → ∃ r, s1.rdma = s.rdma ++ [r] ∧ s1.mem = s.mem ∧ (mapGet {} s1.qps r.qp).live = true ∧ r.len = st.bytes ∧ r.isRead = false ∧
    d.unacked = c.unacked + 1 ∧ d.pc = c.pc) ∧
  (∀ s part c st s1 d, takeArrival s part c st = .ok s1 d → s1 = s ∧ ∃ a ∈ c.arrivals, a.va = chunkVa s part c st ∧ a.len = st.bytes ∧
    d.arrivals = c.arrivals.erase a)

/-! # Values of integer instructions, and what every step keeps -/

namespace Sys2Proof.Machine

/-- The integer types (R54). -/
def intTypes : List Ty := [.i32, .n32, .i64, .n64, .i8x4, .n8x4, .i16x2]

/-- The least and the greatest value of an element of an integer type (R54, R55). -/
def eltMin (t : Ty) : Int := if tySigned t then -(2 ^ ((eltShape t).2 - 1)) else 0
/-- See `eltMin`. -/
def eltMax (t : Ty) : Int := if tySigned t then 2 ^ ((eltShape t).2 - 1) - 1 else 2 ^ (eltShape t).2 - 1

/-- No group that a core holds, that an image keeps or that a lattice tile left behind has two frontier entries with a lane in common (R119). -/
def FrontsOk (s : State) : Prop :=
  (∀ k ∈ s.cores, ∀ p ∈ k.2.slots, Disjoint' p.2.front) ∧
  ∀ p ∈ s.parts, (∀ im ∈ p.2.images, ∀ q ∈ im.img.slots, Disjoint' q.2.front) ∧ ∀ n ∈ p.2.nodes, ∀ q ∈ n.tileImgs, Disjoint' q.2.front

end Sys2Proof.Machine

/-- Element k of an element-wise result is the exact result of the elements k, wrapped into the type or, with SAT, clamped to its range; 32-bit and
64-bit addition, subtraction and multiplication wrap (R54 to R56, R82, R83). -/
def Obligations.IntegerValues : Prop :=
  (∀ t f a b k, t ∈ intTypes → k < (eltShape t).1 →
    eltVal t (eltOp true t f a b) k = max (eltMin t) (min (eltMax t) (f (eltVal t a k) (eltVal t b k)))) ∧
  (∀ t f a b k, t ∈ intTypes → k < (eltShape t).1 → (f (eltVal t a k) (eltVal t b k) - eltVal t (eltOp false t f a b) k) % 2 ^ (eltShape t).2 = 0) ∧
  (∀ t f a b k, t ∈ intTypes → k < (eltShape t).1 → eltMin t ≤ eltVal t (eltOp false t f a b) k ∧ eltVal t (eltOp false t f a b) k ≤ eltMax t) ∧
  (∀ t a b, t = .i32 ∨ t = .n32 →
    eltOp false t (· + ·) a b = ((a.setWidth 32 + b.setWidth 32 : Word)).setWidth 64 ∧
    eltOp false t (· - ·) a b = ((a.setWidth 32 - b.setWidth 32 : Word)).setWidth 64 ∧
    wrapTo t (opVal t a * opVal t b) = ((a.setWidth 32 * b.setWidth 32 : Word)).setWidth 64) ∧
  (∀ t a b, t = .i64 ∨ t = .n64 → eltOp false t (· + ·) a b = a + b ∧ eltOp false t (· - ·) a b = a - b ∧ wrapTo t (opVal t a * opVal t b) = a * b)

/-- A BSEL selector with a code that R94 does not give raises ILLEGAL_INSTRUCTION; an RDS number that R96 does not give, and RDS of the wall of lanes into a
scalar, raise ILLEGAL_OPERAND (R94, R96). -/
def Sys2Proof.Machine.Says.BadSelectorsTrap : Prop :=
  (∀ c s x v left added, Ready (.bsel c) c s x v left added → bselOk c.imm = false →
    exec (.bsel c) s = .next (trapIssue x .illegalInstruction 0 s)) ∧
  (∀ c s x v left added, Ready (.rds c) c s x v left added → (9 < c.imm.toNat ∨ c.imm.toNat = 5 ∧ isScalar c.x = true) →
    exec (.rds c) s = .next (trapIssue x .illegalOperand 0 s))

/-- Entries of a frontier share no lane, in every group that a core, an image or a lattice tile's record holds: a step from any state of which this
is true leads to one (R119, R121). -/
def Obligations.StepKeepsFrontiers : Prop := ∀ s t, FrontsOk s → step s = .next t → FrontsOk t

/-- The machine after reset has disjoint frontiers (R34, R119). -/
def Sys2Proof.Machine.Says.ResetFrontiers : Prop := FrontsOk State.reset

/-- An encoded instruction writes the vector, scalar and predicate registers of no group but the one that issues it, and brings no group into a slot:
whatever group stands in another slot afterwards stood there before with the same registers (R40, R42, R74 to R76). -/
def Obligations.OtherGroupsKeepRegisters : Prop :=
  ∀ i c s x t, encOf i = some c → ctxOf s c = some x → exec i s = .next t →
    ∀ d j h, (d, j) ≠ (x.core, x.slot) → getGroup t d j = some h →
      ∃ g, getGroup s d j = some g ∧ h.vregs = g.vregs ∧ h.sregs = g.sregs ∧ h.preds = g.preds ∧ h.part = g.part ∧ h.node = g.node

/-! # The statements that gather several -/

/-- A word that does not decode is trapped, and an event of the agenda is the next turn. -/
def Obligations.StepTurns : Prop :=
  Says.UndecodableTraps ∧ Says.StepRunsAgenda

/-- The state after reset: empty, with power, and with both invariants. -/
def Obligations.ResetState : Prop :=
  Says.ResetIsEmpty ∧ Says.ResetFrontiers

/-- Memory and the pool read back what is written and keep the rest. -/
def Obligations.MemoryAndPoolReadWrites : Prop :=
  Says.MemoryReadsWrites ∧ Says.PoolReadsWrites

/-- Floating-point instructions and conversions complete with their results. -/
def Obligations.FloatComputes : Prop :=
  Says.FloatComputes ∧ Says.StochasticConversion

/-- Lane moves, status reads and predicate writes complete with their results, and bad selectors trap. -/
def Obligations.LaneAndPredicateMoves : Prop :=
  Says.LaneMovesComplete ∧ Says.PredicatesCompute ∧ Says.PredicatesFromRegister ∧ Says.BadSelectorsTrap

/-- A destination takes its result in the lanes of act and nothing else changes. -/
def Obligations.DestinationWrites : Prop :=
  Says.VectorDestination ∧ Says.ScalarDestination ∧ Says.PredicateDestination

/-- Writing a result touches one group alone; sources leave nothing behind. -/
def Obligations.DestinationFrame : Prop :=
  Says.DestinationFrame ∧ Says.SourcesAreReadOnly

/-- REGION, SLEEP, YIELD and every other completed instruction: where they leave their lanes. -/
def Obligations.EntriesMoveOn : Prop :=
  Says.NextInstruction ∧ Says.RegionOpens ∧ Says.SleepSuspends ∧ Says.YieldMovesOn ∧ Says.YieldWaitsForOthers

/-- EXIT completes: it removes lanes, and the last one frees the slot. -/
def Obligations.ExitEndsLanes : Prop :=
  Says.ExitCompletes ∧ Says.ExitRemovesLanes ∧ Says.ExitFreesTheSlot

/-- TRAP and BKPT complete: they take their fault, or move on under an empty act. -/
def Obligations.TrapsAndBreakpoints : Prop :=
  Says.TrapRaisesSoftware ∧ Says.EmptyTrapMovesOn

/-- LSYNC completes at once, or waits, faults on a bad mask, and joins its lanes. -/
def Obligations.LaneSyncReconverges : Prop :=
  Says.LaneSyncCompletes ∧ Says.LaneSyncWaits ∧ Says.LaneSyncMembership ∧ Says.LaneSyncJoins

/-- REP completes: it starts its pair, checks every iteration first, and steps registers. -/
def Obligations.RepRepeats : Prop :=
  Says.RepStarts ∧ Says.RepChecksFail ∧ Says.RepSteps ∧ Says.EntryAdvances

/-- Failed checks trap before any effect; pending registers hold the issue. -/
def Obligations.IssueChecks : Prop :=
  Says.FailedCheckTraps ∧ Says.ScoreboardWaits

/-- Taking a fault, raising the squall line, and rolling back. -/
def Obligations.FaultsAreTaken : Prop :=
  Says.FaultIsTaken ∧ Says.SquallRises ∧ Says.RollbackRestarts

/-- LD completes: it takes bytes at the core, or asks the memory side for its lines. -/
def Obligations.LoadsComplete : Prop :=
  Says.LoadHits ∧ Says.LoadMisses

/-- ST, RED, BOP and ATOM complete: they enter the store buffer in order. -/
def Obligations.StoresAndAtomicsAreSent : Prop :=
  Says.StoresEnterTheBuffer ∧ Says.AtomicsAreSent ∧ Says.EmitAppends

/-- A bad global address faults before any access, for the first such lane. -/
def Obligations.BadAccessesTrap : Prop :=
  Says.BadAccessTraps ∧ Says.FirstFaultingLane

/-- LDL, STL and ATOML complete: they act on the pool, and trap beyond it. -/
def Obligations.LocalAccesses : Prop :=
  Says.LocalLoads ∧ Says.LocalStores ∧ Says.LocalAtomics ∧ Says.BadLocalAccessTraps

/-- FENCE, L1INV, PF and WSTAT complete. -/
def Obligations.FencesAndHints : Prop :=
  Says.FencesComplete ∧ Says.PrefetchAndWindowState

/-- WDEF, WDROP and window fills complete: windows are defined, dropped, fill row by row, arrive, and fault. -/
def Obligations.WindowsFill : Prop :=
  Says.WindowsDefined ∧ Says.TouchBeginsFill ∧ Says.WindowFillsRow ∧ Says.WindowArrives ∧ Says.WindowFillFaults

/-- A store buffer release completes: the checked head goes to the cluster write queue. -/
def Obligations.BufferReleases : Prop :=
  Says.BufferReleases ∧ Says.PostsAreReleased ∧ Says.UncheckedStays

/-- A slice operation completes: a store writes its bytes alone; a refused write changes nothing. -/
def Obligations.StoresReachMemory : Prop :=
  Says.StoreIsPerformed ∧ Says.RefusedWriteChangesNothing

/-- Slice operations of atomics and vector operations complete, lane by lane at their home. -/
def Obligations.AtomicsReachMemory : Prop :=
  Says.AtomicIsPerformed ∧ Says.VectorOperationIsPerformed ∧ Says.AtomicValues

/-- Line reads and load replies complete: a line is read at its home, and the last reply writes the destination. -/
def Obligations.RepliesArrive : Prop :=
  Says.LineIsRead ∧ Says.ReplyWritesDestination

/-- WAITW and TRYW complete at once, when looked at again, or at their timeout, with the events that do so. -/
def Obligations.WordWaits : Prop :=
  Says.WaitsCompleteAtOnce ∧ Says.WaitsAreReevaluated ∧ Says.TryWaitTimesOut

/-- Page walks and page responses complete: the TLB is filled, or the host asked and its answer taken. -/
def Obligations.PageWalks : Prop :=
  Says.WalkFindsLeaf ∧ Says.WalkAsksTheHost ∧ Says.WalkRaisesPage ∧ Says.HostAnswersPageRequest

/-- Refusals and shadow comparisons complete: a refusal stops its group, a redundant pair compares its operations. -/
def Obligations.RefusalsAndPairs : Prop :=
  Says.RefusalArrives ∧ Says.PairsAreCompared ∧ Says.ShadowsAreServed ∧ Says.ShadowsGoOn

/-- BAR completes, waits or faults, and a meeting releases together. -/
def Obligations.BarriersMeet : Prop :=
  Says.BarrierCompletes ∧ Says.BarrierWaits ∧ Says.BarrierFaults ∧ Says.MeetingReleasesTogether

/-- LOCK, TLOCK, UNLOCK, HEIR, PROM, FULF, PWAIT, CLAIM, RELS and HOLDQ complete their issue, or fault. -/
def Obligations.HoldingsIssue : Prop :=
  Says.HoldingsSend ∧ Says.HeirDefault ∧ Says.HoldingsAsk ∧ Says.HoldingsBlock ∧ Says.HoldingsFault

/-- Holdings operations and host stores complete at their unit as the word's state admits. -/
def Obligations.HoldingsChange : Prop :=
  Says.LockIsTaken ∧ Says.EstateEntryTaken ∧ Says.LockQueues ∧ Says.UnlockFrees ∧ Says.PromiseSettles ∧ Says.WrongStateIsRefused ∧
  Says.HostStoresSettle

/-- Estate walks and successor conveyances complete: holdings go to their heirs. -/
def Obligations.EstatesAreConveyed : Prop :=
  Says.EstateWalks ∧ Says.HeirsResolve ∧ Says.SuccessorInherits

/-- STEP and LQRY complete: STEP publishes, neighbours are read, LQRY answers. -/
def Obligations.LatticePublication : Prop :=
  Says.StepPublishes ∧ Says.PublicationWritesBank ∧ Says.NeighbourReads ∧ Says.LatticeQuery

/-- MQCF, MQST, sends, message acceptance and packet hops complete. -/
def Obligations.MessagesAreSent : Prop :=
  Says.PortsConfigured ∧ Says.SendsArePacked ∧ Says.MessagesAccepted ∧ Says.PacketsHop

/-- Link failures, resends and arrivals at a core complete. -/
def Obligations.LinksAndArrivals : Prop :=
  Says.LinksFail ∧ Says.ArrivalsAtTheCore

/-- Matrix instructions complete at issue, or fault. -/
def Obligations.MatrixIssue : Prop :=
  Says.MatrixPosts ∧ Says.MatrixFaults ∧ Says.TilesAreCleared ∧ Says.TileRowsAndStatus ∧ Says.TicketsAreAwaited

/-- ZST and ZLD complete: they move tiles. -/
def Obligations.TileMoves : Prop :=
  Says.TilesAreStored ∧ Says.TilesAreLoaded

/-- The matrix engine's events complete: it grants, fetches, streams, ends passes and loads, and freezes. -/
def Obligations.MatrixEngine : Prop :=
  Says.RequestsAreGranted ∧ Says.FetchesEnd ∧ Says.FetchesFault ∧ Says.LeaveIsGranted ∧ Says.StreamsEnd ∧ Says.PassesComplete ∧
  Says.PassAccumulates ∧ Says.PlanesAreLoaded ∧ Says.EnginesFreeze

/-- REDT, BCOPY, BFENCE, BGID, BGFREE, LAUNCH and RDCLK complete, and an empty act does nothing. -/
def Obligations.PostsAndClock : Prop :=
  Says.PostsAreSent ∧ Says.PostsAreAsked ∧ Says.CopiesArePosted ∧ Says.PostsFault ∧ Says.ClockIsRead ∧ Says.EmptyActDoesNothing

/-- What time brings to groups completes, and contributions and timeouts at reduction trees. -/
def Obligations.TimeAndTrees : Prop :=
  Says.TimeReleasesGroups ∧ Says.ContributionsArrive ∧ Says.NodesTimeOut

/-- Placements, period ends, lattice starts and tile swaps complete. -/
def Obligations.BlocksAndTilesArePlaced : Prop :=
  Says.BlocksArePlaced ∧ Says.PeriodsEnd ∧ Says.LatticesStart ∧ Says.TilesComeAndGo

/-- Doorbells, queue enables, register writes, acceptances, launches and nodes complete. -/
def Obligations.QueuesAndPackets : Prop :=
  Says.DoorbellsRing ∧ Says.QueuesAreEnabled ∧ Says.RegistersAreWritten ∧ Says.PacketsAreAccepted ∧ Says.LaunchesAreChecked ∧
  Says.NodesComplete

/-- QFENCE, COLL, EVENT, SIGNAL, WAITSEM and TLBI complete. -/
def Obligations.PacketsComplete : Prop :=
  Says.FencesAndCollectivesStart ∧ Says.EventsAndSignals ∧ Says.SemaphoresAreAwaited ∧ Says.TranslationsAreDropped

/-- VACATE, PREEMPT, RESUME, TEARDOWN, watchdogs and halts complete. -/
def Obligations.CommandsAndHalts : Prop :=
  Says.CoresAreVacated ∧ Says.PartitionsArePreempted ∧ Says.PartitionsResume ∧ Says.PartitionsAreTornDown ∧ Says.WatchdogsExpire ∧
  Says.HaltsComplete

/-- Containment, boundary moves, scrubbing, clocks and module reset complete. -/
def Obligations.ContainmentAndPackage : Prop :=
  Says.BlocksAreContained ∧ Says.BoundariesMove ∧ Says.StacksAreScrubbed ∧ Says.ClocksAndCooling ∧ Says.ModuleResets

/-- Side-band, attestation and firmware commands complete, inside and outside a session. -/
def Obligations.SideBandPort : Prop :=
  Says.CommandsNeedASession ∧ Says.CommandsInASession ∧ Says.SideBandReads ∧ Says.AttestationAnswers ∧ Says.FirmwareAndCertificates

/-- Block transfers start, move and complete. -/
def Obligations.TransfersRun : Prop :=
  Says.DescriptorsStart ∧ Says.DescriptorsMove ∧ Says.DescriptorsComplete

/-- Requests of peers and the host complete, and so do peers' answers. -/
def Obligations.FabricAnswers : Prop :=
  Says.PeersAreServed ∧ Says.PeersAnswer ∧ Says.HostAccesses
end

