-- ==== Sys2Proof/Laws/Maps.lean ====
section
/-! SUPPORT. The laws of sparse maps: a read after a write, and that a write keeps the canonical form. -/
namespace Sys2Proof.Machine

theorem mapGet_mapDel_self {α : Type} (d : α) (m : SMap α) (k : Nat) : mapGet d (mapDel m k) k = d := by
  induction m with
  | nil => rfl
  | cons p t ih =>
    obtain ⟨j, v⟩ := p
    by_cases h : j = k <;> simp [mapDel, mapGet, h, ih]

theorem mapGet_mapDel_ne {α : Type} (d : α) (m : SMap α) {k j : Nat} (h : j ≠ k) :
    mapGet d (mapDel m k) j = mapGet d m j := by
  induction m with
  | nil => rfl
  | cons p t ih =>
    obtain ⟨i, v⟩ := p
    by_cases h1 : i = k
    · subst h1
      simp [mapDel, mapGet, ih, Ne.symm h]
    · simp [mapDel, mapGet, h1, ih]

theorem mapGet_mapIns_ne {α : Type} (d : α) (m : SMap α) {k j : Nat} (v : α) (h : j ≠ k) :
    mapGet d (mapIns m k v) j = mapGet d m j := by
  induction m with
  | nil => simp [mapIns, mapGet, Ne.symm h]
  | cons p t ih =>
    obtain ⟨i, w⟩ := p
    by_cases h1 : i < k <;> simp [mapIns, mapGet, h1, ih, Ne.symm h]

theorem mapGet_mapIns_self {α : Type} (d : α) (m : SMap α) (k : Nat) (v : α) :
    mapGet d (mapIns (mapDel m k) k v) k = v := by
  induction m with
  | nil => simp [mapDel, mapIns, mapGet]
  | cons p t ih =>
    obtain ⟨i, w⟩ := p
    by_cases h1 : i = k
    · simp [mapDel, h1, ih]
    · by_cases h2 : i < k <;> simp [mapDel, mapIns, mapGet, h1, h2, ih]

/-- A read of the key just written. -/
@[simp] theorem mapGet_mapSet_self {α : Type} [DecidableEq α] (d : α) (m : SMap α) (k : Nat) (v : α) :
    mapGet d (mapSet d m k v) k = v := by
  by_cases h : v = d
  · simp [mapSet, h, mapGet_mapDel_self]
  · simp [mapSet, h, mapGet_mapIns_self]

/-- A read of any other key. -/
theorem mapGet_mapSet_ne {α : Type} [DecidableEq α] (d : α) (m : SMap α) {k j : Nat} (v : α) (h : j ≠ k) :
    mapGet d (mapSet d m k v) j = mapGet d m j := by
  by_cases h1 : v = d
  · simp [mapSet, h1, mapGet_mapDel_ne d m h]
  · simp [mapSet, h1, mapGet_mapIns_ne d _ v h, mapGet_mapDel_ne d m h]

/-- A read after a write, in one equation. -/
theorem mapGet_mapSet {α : Type} [DecidableEq α] (d : α) (m : SMap α) (k j : Nat) (v : α) :
    mapGet d (mapSet d m k v) j = if j = k then v else mapGet d m j := by
  by_cases h : j = k
  · subst h; simp
  · simp [h, mapGet_mapSet_ne]

theorem mapOk_weaken {α : Type} [DecidableEq α] (d : α) (m : SMap α) {l k : Nat} (h : l ≤ k) (hm : mapOk d (some k) m = true) :
    mapOk d (some l) m = true := by
  cases m with
  | nil => rfl
  | cons p t =>
    obtain ⟨j, v⟩ := p
    simp only [mapOk, Bool.and_eq_true, decide_eq_true_eq] at hm ⊢
    exact ⟨⟨by omega, hm.1.2⟩, hm.2⟩

theorem mapOk_none {α : Type} [DecidableEq α] (d : α) (m : SMap α) {l : Nat} (hm : mapOk d (some l) m = true) :
    mapOk d none m = true := by
  cases m with
  | nil => rfl
  | cons p t =>
    obtain ⟨j, v⟩ := p
    simp only [mapOk, Bool.and_eq_true, decide_eq_true_eq] at hm ⊢
    exact ⟨⟨trivial, hm.1.2⟩, hm.2⟩

theorem mapOk_mapDel {α : Type} [DecidableEq α] (d : α) (m : SMap α) (lo : Option Nat) (k : Nat) (hm : mapOk d lo m = true) :
    mapOk d lo (mapDel m k) = true := by
  induction m generalizing lo with
  | nil => rfl
  | cons p t ih =>
    obtain ⟨j, v⟩ := p
    simp only [mapOk, Bool.and_eq_true, decide_eq_true_eq] at hm
    by_cases h : j = k
    · simp only [mapDel, h, if_true]
      have h2 := ih (some j) hm.2
      cases lo with
      | none => exact mapOk_none d _ h2
      | some l => exact mapOk_weaken d _ (Nat.le_of_lt (by simpa using hm.1.1)) h2
    · simp only [mapDel, h, if_false, mapOk, Bool.and_eq_true, decide_eq_true_eq]
      exact ⟨hm.1, ih (some j) hm.2⟩

theorem mapDel_keys {α : Type} (m : SMap α) (k : Nat) : ∀ p ∈ mapDel m k, p.1 ≠ k := by
  induction m with
  | nil => simp [mapDel]
  | cons q t ih =>
    obtain ⟨j, v⟩ := q
    by_cases h : j = k
    · simpa [mapDel, h] using ih
    · simp only [mapDel, h, if_false, List.mem_cons]
      rintro p (rfl | hp)
      · exact h
      · exact ih p hp

theorem mapOk_mapIns {α : Type} [DecidableEq α] (d : α) (m : SMap α) (lo : Option Nat) (k : Nat) (v : α) (hv : v ≠ d)
    (hm : mapOk d lo m = true) (hk : ∀ p ∈ m, p.1 ≠ k) (hlo : ∀ l, lo = some l → l < k) :
    mapOk d lo (mapIns m k v) = true := by
  induction m generalizing lo with
  | nil =>
    cases lo with
    | none => simp [mapIns, mapOk, hv]
    | some l => simp [mapIns, mapOk, hv, hlo l rfl]
  | cons p t ih =>
    obtain ⟨j, w⟩ := p
    have hj : j ≠ k := hk (j, w) (by simp)
    simp only [mapOk, Bool.and_eq_true, decide_eq_true_eq] at hm
    by_cases h : j < k
    · simp only [mapIns, h, if_true, mapOk, Bool.and_eq_true, decide_eq_true_eq]
      refine ⟨hm.1, ih (some j) hm.2 (fun p hp => hk p (by simp [hp])) ?_⟩
      rintro l ⟨⟩
      exact h
    · simp only [mapIns, h, if_false, mapOk, Bool.and_eq_true, decide_eq_true_eq]
      refine ⟨⟨?_, hv⟩, ⟨by omega, hm.1.2⟩, hm.2⟩
      cases lo with
      | none => rfl
      | some l => simpa using hlo l rfl

/-- A write keeps the canonical form. -/
theorem mapOk_mapSet {α : Type} [DecidableEq α] (d : α) (m : SMap α) (k : Nat) (v : α) (hm : mapOk d none m = true) :
    mapOk d none (mapSet d m k v) = true := by
  have h1 := mapOk_mapDel d m none k hm
  by_cases h : v = d
  · simpa [mapSet, h] using h1
  · simp only [mapSet, h, if_false]
    exact mapOk_mapIns d _ none k v h h1 (mapDel_keys m k) (by simp)

/-- Leaving out entries keeps the canonical form. -/
theorem mapOk_filter {α : Type} [DecidableEq α] (d : α) (f : Nat × α → Bool) (m : SMap α) (lo : Option Nat)
    (hm : mapOk d lo m = true) : mapOk d lo (m.filter f) = true := by
  induction m generalizing lo with
  | nil => rfl
  | cons p t ih =>
    obtain ⟨j, v⟩ := p
    simp only [mapOk, Bool.and_eq_true, decide_eq_true_eq] at hm
    have h2 := ih (some j) hm.2
    by_cases hf : f (j, v) = true
    · simp only [List.filter_cons, hf, if_true, mapOk, Bool.and_eq_true, decide_eq_true_eq]
      exact ⟨hm.1, h2⟩
    · simp only [List.filter_cons, hf]
      cases lo with
      | none => exact mapOk_none d _ h2
      | some l => exact mapOk_weaken d _ (Nat.le_of_lt (by simpa using hm.1.1)) h2

end Sys2Proof.Machine
end

