-- ==== Sys2Proof/Laws/State.lean ====
section
/-! SUPPORT. What each named update of State leaves in each field: one lemma per field per update, true by `rfl`. -/
namespace Sys2Proof.Machine

/-! ## setCore -/

@[simp] theorem setCore_agenda (s : State) (c : Nat) (v : Core) : (setCore s c v).agenda = s.agenda := rfl
@[simp] theorem setCore_sel (s : State) (c : Nat) (v : Core) : (setCore s c v).sel = s.sel := rfl
@[simp] theorem setCore_held (s : State) (c : Nat) (v : Core) : (setCore s c v).held = s.held := rfl
@[simp] theorem setCore_heldGroups (s : State) (c : Nat) (v : Core) : (setCore s c v).heldGroups = s.heldGroups := rfl
@[simp] theorem setCore_free (s : State) (c : Nat) (v : Core) : (setCore s c v).free = s.free := rfl
@[simp] theorem setCore_reqId (s : State) (c : Nat) (v : Core) : (setCore s c v).reqId = s.reqId := rfl
@[simp] theorem setCore_mem (s : State) (c : Nat) (v : Core) : (setCore s c v).mem = s.mem := rfl
@[simp] theorem setCore_poison (s : State) (c : Nat) (v : Core) : (setCore s c v).poison = s.poison := rfl
@[simp] theorem setCore_live (s : State) (c : Nat) (v : Core) : (setCore s c v).live = s.live := rfl
@[simp] theorem setCore_cores (s : State) (c : Nat) (v : Core) : (setCore s c v).cores = mapSet {} s.cores c v := rfl
@[simp] theorem setCore_clusters (s : State) (c : Nat) (v : Core) : (setCore s c v).clusters = s.clusters := rfl
@[simp] theorem setCore_dies (s : State) (c : Nat) (v : Core) : (setCore s c v).dies = s.dies := rfl
@[simp] theorem setCore_packets (s : State) (c : Nat) (v : Core) : (setCore s c v).packets = s.packets := rfl
@[simp] theorem setCore_failed (s : State) (c : Nat) (v : Core) : (setCore s c v).failed = s.failed := rfl
@[simp] theorem setCore_hbm (s : State) (c : Nat) (v : Core) : (setCore s c v).hbm = s.hbm := rfl
@[simp] theorem setCore_parts (s : State) (c : Nat) (v : Core) : (setCore s c v).parts = s.parts := rfl
@[simp] theorem setCore_rdma (s : State) (c : Nat) (v : Core) : (setCore s c v).rdma = s.rdma := rfl
@[simp] theorem setCore_qps (s : State) (c : Nat) (v : Core) : (setCore s c v).qps = s.qps := rfl
@[simp] theorem setCore_bteTurn (s : State) (c : Nat) (v : Core) : (setCore s c v).bteTurn = s.bteTurn := rfl
@[simp] theorem setCore_ats (s : State) (c : Nat) (v : Core) : (setCore s c v).ats = s.ats := rfl
@[simp] theorem setCore_paused (s : State) (c : Nat) (v : Core) : (setCore s c v).paused = s.paused := rfl
@[simp] theorem setCore_fns (s : State) (c : Nat) (v : Core) : (setCore s c v).fns = s.fns := rfl
@[simp] theorem setCore_mgmt (s : State) (c : Nat) (v : Core) : (setCore s c v).mgmt = s.mgmt := rfl
@[simp] theorem setCore_irqs (s : State) (c : Nat) (v : Core) : (setCore s c v).irqs = s.irqs := rfl
@[simp] theorem setCore_wire (s : State) (c : Nat) (v : Core) : (setCore s c v).wire = s.wire := rfl

/-! ## modCore -/

@[simp] theorem modCore_agenda (s : State) (c : Nat) (f : Core → Core) : (modCore s c f).agenda = s.agenda := rfl
@[simp] theorem modCore_sel (s : State) (c : Nat) (f : Core → Core) : (modCore s c f).sel = s.sel := rfl
@[simp] theorem modCore_held (s : State) (c : Nat) (f : Core → Core) : (modCore s c f).held = s.held := rfl
@[simp] theorem modCore_heldGroups (s : State) (c : Nat) (f : Core → Core) : (modCore s c f).heldGroups = s.heldGroups := rfl
@[simp] theorem modCore_free (s : State) (c : Nat) (f : Core → Core) : (modCore s c f).free = s.free := rfl
@[simp] theorem modCore_reqId (s : State) (c : Nat) (f : Core → Core) : (modCore s c f).reqId = s.reqId := rfl
@[simp] theorem modCore_mem (s : State) (c : Nat) (f : Core → Core) : (modCore s c f).mem = s.mem := rfl
@[simp] theorem modCore_poison (s : State) (c : Nat) (f : Core → Core) : (modCore s c f).poison = s.poison := rfl
@[simp] theorem modCore_live (s : State) (c : Nat) (f : Core → Core) : (modCore s c f).live = s.live := rfl
@[simp] theorem modCore_cores (s : State) (c : Nat) (f : Core → Core) : (modCore s c f).cores = mapSet {} s.cores c (f (getCore s c)) := rfl
@[simp] theorem modCore_clusters (s : State) (c : Nat) (f : Core → Core) : (modCore s c f).clusters = s.clusters := rfl
@[simp] theorem modCore_dies (s : State) (c : Nat) (f : Core → Core) : (modCore s c f).dies = s.dies := rfl
@[simp] theorem modCore_packets (s : State) (c : Nat) (f : Core → Core) : (modCore s c f).packets = s.packets := rfl
@[simp] theorem modCore_failed (s : State) (c : Nat) (f : Core → Core) : (modCore s c f).failed = s.failed := rfl
@[simp] theorem modCore_hbm (s : State) (c : Nat) (f : Core → Core) : (modCore s c f).hbm = s.hbm := rfl
@[simp] theorem modCore_parts (s : State) (c : Nat) (f : Core → Core) : (modCore s c f).parts = s.parts := rfl
@[simp] theorem modCore_rdma (s : State) (c : Nat) (f : Core → Core) : (modCore s c f).rdma = s.rdma := rfl
@[simp] theorem modCore_qps (s : State) (c : Nat) (f : Core → Core) : (modCore s c f).qps = s.qps := rfl
@[simp] theorem modCore_bteTurn (s : State) (c : Nat) (f : Core → Core) : (modCore s c f).bteTurn = s.bteTurn := rfl
@[simp] theorem modCore_ats (s : State) (c : Nat) (f : Core → Core) : (modCore s c f).ats = s.ats := rfl
@[simp] theorem modCore_paused (s : State) (c : Nat) (f : Core → Core) : (modCore s c f).paused = s.paused := rfl
@[simp] theorem modCore_fns (s : State) (c : Nat) (f : Core → Core) : (modCore s c f).fns = s.fns := rfl
@[simp] theorem modCore_mgmt (s : State) (c : Nat) (f : Core → Core) : (modCore s c f).mgmt = s.mgmt := rfl
@[simp] theorem modCore_irqs (s : State) (c : Nat) (f : Core → Core) : (modCore s c f).irqs = s.irqs := rfl
@[simp] theorem modCore_wire (s : State) (c : Nat) (f : Core → Core) : (modCore s c f).wire = s.wire := rfl

/-! ## modCluster -/

@[simp] theorem modCluster_agenda (s : State) (k : Nat) (f : Cluster → Cluster) : (modCluster s k f).agenda = s.agenda := rfl
@[simp] theorem modCluster_sel (s : State) (k : Nat) (f : Cluster → Cluster) : (modCluster s k f).sel = s.sel := rfl
@[simp] theorem modCluster_held (s : State) (k : Nat) (f : Cluster → Cluster) : (modCluster s k f).held = s.held := rfl
@[simp] theorem modCluster_heldGroups (s : State) (k : Nat) (f : Cluster → Cluster) : (modCluster s k f).heldGroups = s.heldGroups := rfl
@[simp] theorem modCluster_free (s : State) (k : Nat) (f : Cluster → Cluster) : (modCluster s k f).free = s.free := rfl
@[simp] theorem modCluster_reqId (s : State) (k : Nat) (f : Cluster → Cluster) : (modCluster s k f).reqId = s.reqId := rfl
@[simp] theorem modCluster_mem (s : State) (k : Nat) (f : Cluster → Cluster) : (modCluster s k f).mem = s.mem := rfl
@[simp] theorem modCluster_poison (s : State) (k : Nat) (f : Cluster → Cluster) : (modCluster s k f).poison = s.poison := rfl
@[simp] theorem modCluster_live (s : State) (k : Nat) (f : Cluster → Cluster) : (modCluster s k f).live = s.live := rfl
@[simp] theorem modCluster_cores (s : State) (k : Nat) (f : Cluster → Cluster) : (modCluster s k f).cores = s.cores := rfl
@[simp] theorem modCluster_clusters (s : State) (k : Nat) (f : Cluster → Cluster) : (modCluster s k f).clusters = mapSet {} s.clusters k (f (getCluster s k)) := rfl
@[simp] theorem modCluster_dies (s : State) (k : Nat) (f : Cluster → Cluster) : (modCluster s k f).dies = s.dies := rfl
@[simp] theorem modCluster_packets (s : State) (k : Nat) (f : Cluster → Cluster) : (modCluster s k f).packets = s.packets := rfl
@[simp] theorem modCluster_failed (s : State) (k : Nat) (f : Cluster → Cluster) : (modCluster s k f).failed = s.failed := rfl
@[simp] theorem modCluster_hbm (s : State) (k : Nat) (f : Cluster → Cluster) : (modCluster s k f).hbm = s.hbm := rfl
@[simp] theorem modCluster_parts (s : State) (k : Nat) (f : Cluster → Cluster) : (modCluster s k f).parts = s.parts := rfl
@[simp] theorem modCluster_rdma (s : State) (k : Nat) (f : Cluster → Cluster) : (modCluster s k f).rdma = s.rdma := rfl
@[simp] theorem modCluster_qps (s : State) (k : Nat) (f : Cluster → Cluster) : (modCluster s k f).qps = s.qps := rfl
@[simp] theorem modCluster_bteTurn (s : State) (k : Nat) (f : Cluster → Cluster) : (modCluster s k f).bteTurn = s.bteTurn := rfl
@[simp] theorem modCluster_ats (s : State) (k : Nat) (f : Cluster → Cluster) : (modCluster s k f).ats = s.ats := rfl
@[simp] theorem modCluster_paused (s : State) (k : Nat) (f : Cluster → Cluster) : (modCluster s k f).paused = s.paused := rfl
@[simp] theorem modCluster_fns (s : State) (k : Nat) (f : Cluster → Cluster) : (modCluster s k f).fns = s.fns := rfl
@[simp] theorem modCluster_mgmt (s : State) (k : Nat) (f : Cluster → Cluster) : (modCluster s k f).mgmt = s.mgmt := rfl
@[simp] theorem modCluster_irqs (s : State) (k : Nat) (f : Cluster → Cluster) : (modCluster s k f).irqs = s.irqs := rfl
@[simp] theorem modCluster_wire (s : State) (k : Nat) (f : Cluster → Cluster) : (modCluster s k f).wire = s.wire := rfl

/-! ## modDie -/

@[simp] theorem modDie_agenda (s : State) (d : Nat) (f : Die → Die) : (modDie s d f).agenda = s.agenda := rfl
@[simp] theorem modDie_sel (s : State) (d : Nat) (f : Die → Die) : (modDie s d f).sel = s.sel := rfl
@[simp] theorem modDie_held (s : State) (d : Nat) (f : Die → Die) : (modDie s d f).held = s.held := rfl
@[simp] theorem modDie_heldGroups (s : State) (d : Nat) (f : Die → Die) : (modDie s d f).heldGroups = s.heldGroups := rfl
@[simp] theorem modDie_free (s : State) (d : Nat) (f : Die → Die) : (modDie s d f).free = s.free := rfl
@[simp] theorem modDie_reqId (s : State) (d : Nat) (f : Die → Die) : (modDie s d f).reqId = s.reqId := rfl
@[simp] theorem modDie_mem (s : State) (d : Nat) (f : Die → Die) : (modDie s d f).mem = s.mem := rfl
@[simp] theorem modDie_poison (s : State) (d : Nat) (f : Die → Die) : (modDie s d f).poison = s.poison := rfl
@[simp] theorem modDie_live (s : State) (d : Nat) (f : Die → Die) : (modDie s d f).live = s.live := rfl
@[simp] theorem modDie_cores (s : State) (d : Nat) (f : Die → Die) : (modDie s d f).cores = s.cores := rfl
@[simp] theorem modDie_clusters (s : State) (d : Nat) (f : Die → Die) : (modDie s d f).clusters = s.clusters := rfl
@[simp] theorem modDie_dies (s : State) (d : Nat) (f : Die → Die) : (modDie s d f).dies = mapSet {} s.dies d (f (getDie s d)) := rfl
@[simp] theorem modDie_packets (s : State) (d : Nat) (f : Die → Die) : (modDie s d f).packets = s.packets := rfl
@[simp] theorem modDie_failed (s : State) (d : Nat) (f : Die → Die) : (modDie s d f).failed = s.failed := rfl
@[simp] theorem modDie_hbm (s : State) (d : Nat) (f : Die → Die) : (modDie s d f).hbm = s.hbm := rfl
@[simp] theorem modDie_parts (s : State) (d : Nat) (f : Die → Die) : (modDie s d f).parts = s.parts := rfl
@[simp] theorem modDie_rdma (s : State) (d : Nat) (f : Die → Die) : (modDie s d f).rdma = s.rdma := rfl
@[simp] theorem modDie_qps (s : State) (d : Nat) (f : Die → Die) : (modDie s d f).qps = s.qps := rfl
@[simp] theorem modDie_bteTurn (s : State) (d : Nat) (f : Die → Die) : (modDie s d f).bteTurn = s.bteTurn := rfl
@[simp] theorem modDie_ats (s : State) (d : Nat) (f : Die → Die) : (modDie s d f).ats = s.ats := rfl
@[simp] theorem modDie_paused (s : State) (d : Nat) (f : Die → Die) : (modDie s d f).paused = s.paused := rfl
@[simp] theorem modDie_fns (s : State) (d : Nat) (f : Die → Die) : (modDie s d f).fns = s.fns := rfl
@[simp] theorem modDie_mgmt (s : State) (d : Nat) (f : Die → Die) : (modDie s d f).mgmt = s.mgmt := rfl
@[simp] theorem modDie_irqs (s : State) (d : Nat) (f : Die → Die) : (modDie s d f).irqs = s.irqs := rfl
@[simp] theorem modDie_wire (s : State) (d : Nat) (f : Die → Die) : (modDie s d f).wire = s.wire := rfl

/-! ## setPart -/

@[simp] theorem setPart_agenda (s : State) (p : Nat) (v : Part) : (setPart s p v).agenda = s.agenda := rfl
@[simp] theorem setPart_sel (s : State) (p : Nat) (v : Part) : (setPart s p v).sel = s.sel := rfl
@[simp] theorem setPart_held (s : State) (p : Nat) (v : Part) : (setPart s p v).held = s.held := rfl
@[simp] theorem setPart_heldGroups (s : State) (p : Nat) (v : Part) : (setPart s p v).heldGroups = s.heldGroups := rfl
@[simp] theorem setPart_free (s : State) (p : Nat) (v : Part) : (setPart s p v).free = s.free := rfl
@[simp] theorem setPart_reqId (s : State) (p : Nat) (v : Part) : (setPart s p v).reqId = s.reqId := rfl
@[simp] theorem setPart_mem (s : State) (p : Nat) (v : Part) : (setPart s p v).mem = s.mem := rfl
@[simp] theorem setPart_poison (s : State) (p : Nat) (v : Part) : (setPart s p v).poison = s.poison := rfl
@[simp] theorem setPart_live (s : State) (p : Nat) (v : Part) : (setPart s p v).live = s.live := rfl
@[simp] theorem setPart_cores (s : State) (p : Nat) (v : Part) : (setPart s p v).cores = s.cores := rfl
@[simp] theorem setPart_clusters (s : State) (p : Nat) (v : Part) : (setPart s p v).clusters = s.clusters := rfl
@[simp] theorem setPart_dies (s : State) (p : Nat) (v : Part) : (setPart s p v).dies = s.dies := rfl
@[simp] theorem setPart_packets (s : State) (p : Nat) (v : Part) : (setPart s p v).packets = s.packets := rfl
@[simp] theorem setPart_failed (s : State) (p : Nat) (v : Part) : (setPart s p v).failed = s.failed := rfl
@[simp] theorem setPart_hbm (s : State) (p : Nat) (v : Part) : (setPart s p v).hbm = s.hbm := rfl
@[simp] theorem setPart_parts (s : State) (p : Nat) (v : Part) : (setPart s p v).parts = mapSet {} s.parts p v := rfl
@[simp] theorem setPart_rdma (s : State) (p : Nat) (v : Part) : (setPart s p v).rdma = s.rdma := rfl
@[simp] theorem setPart_qps (s : State) (p : Nat) (v : Part) : (setPart s p v).qps = s.qps := rfl
@[simp] theorem setPart_bteTurn (s : State) (p : Nat) (v : Part) : (setPart s p v).bteTurn = s.bteTurn := rfl
@[simp] theorem setPart_ats (s : State) (p : Nat) (v : Part) : (setPart s p v).ats = s.ats := rfl
@[simp] theorem setPart_paused (s : State) (p : Nat) (v : Part) : (setPart s p v).paused = s.paused := rfl
@[simp] theorem setPart_fns (s : State) (p : Nat) (v : Part) : (setPart s p v).fns = s.fns := rfl
@[simp] theorem setPart_mgmt (s : State) (p : Nat) (v : Part) : (setPart s p v).mgmt = s.mgmt := rfl
@[simp] theorem setPart_irqs (s : State) (p : Nat) (v : Part) : (setPart s p v).irqs = s.irqs := rfl
@[simp] theorem setPart_wire (s : State) (p : Nat) (v : Part) : (setPart s p v).wire = s.wire := rfl

/-! ## modPart -/

@[simp] theorem modPart_agenda (s : State) (p : Nat) (f : Part → Part) : (modPart s p f).agenda = s.agenda := rfl
@[simp] theorem modPart_sel (s : State) (p : Nat) (f : Part → Part) : (modPart s p f).sel = s.sel := rfl
@[simp] theorem modPart_held (s : State) (p : Nat) (f : Part → Part) : (modPart s p f).held = s.held := rfl
@[simp] theorem modPart_heldGroups (s : State) (p : Nat) (f : Part → Part) : (modPart s p f).heldGroups = s.heldGroups := rfl
@[simp] theorem modPart_free (s : State) (p : Nat) (f : Part → Part) : (modPart s p f).free = s.free := rfl
@[simp] theorem modPart_reqId (s : State) (p : Nat) (f : Part → Part) : (modPart s p f).reqId = s.reqId := rfl
@[simp] theorem modPart_mem (s : State) (p : Nat) (f : Part → Part) : (modPart s p f).mem = s.mem := rfl
@[simp] theorem modPart_poison (s : State) (p : Nat) (f : Part → Part) : (modPart s p f).poison = s.poison := rfl
@[simp] theorem modPart_live (s : State) (p : Nat) (f : Part → Part) : (modPart s p f).live = s.live := rfl
@[simp] theorem modPart_cores (s : State) (p : Nat) (f : Part → Part) : (modPart s p f).cores = s.cores := rfl
@[simp] theorem modPart_clusters (s : State) (p : Nat) (f : Part → Part) : (modPart s p f).clusters = s.clusters := rfl
@[simp] theorem modPart_dies (s : State) (p : Nat) (f : Part → Part) : (modPart s p f).dies = s.dies := rfl
@[simp] theorem modPart_packets (s : State) (p : Nat) (f : Part → Part) : (modPart s p f).packets = s.packets := rfl
@[simp] theorem modPart_failed (s : State) (p : Nat) (f : Part → Part) : (modPart s p f).failed = s.failed := rfl
@[simp] theorem modPart_hbm (s : State) (p : Nat) (f : Part → Part) : (modPart s p f).hbm = s.hbm := rfl
@[simp] theorem modPart_parts (s : State) (p : Nat) (f : Part → Part) : (modPart s p f).parts = mapSet {} s.parts p (f (getPart s p)) := rfl
@[simp] theorem modPart_rdma (s : State) (p : Nat) (f : Part → Part) : (modPart s p f).rdma = s.rdma := rfl
@[simp] theorem modPart_qps (s : State) (p : Nat) (f : Part → Part) : (modPart s p f).qps = s.qps := rfl
@[simp] theorem modPart_bteTurn (s : State) (p : Nat) (f : Part → Part) : (modPart s p f).bteTurn = s.bteTurn := rfl
@[simp] theorem modPart_ats (s : State) (p : Nat) (f : Part → Part) : (modPart s p f).ats = s.ats := rfl
@[simp] theorem modPart_paused (s : State) (p : Nat) (f : Part → Part) : (modPart s p f).paused = s.paused := rfl
@[simp] theorem modPart_fns (s : State) (p : Nat) (f : Part → Part) : (modPart s p f).fns = s.fns := rfl
@[simp] theorem modPart_mgmt (s : State) (p : Nat) (f : Part → Part) : (modPart s p f).mgmt = s.mgmt := rfl
@[simp] theorem modPart_irqs (s : State) (p : Nat) (f : Part → Part) : (modPart s p f).irqs = s.irqs := rfl
@[simp] theorem modPart_wire (s : State) (p : Nat) (f : Part → Part) : (modPart s p f).wire = s.wire := rfl

/-! ## setGroup -/

@[simp] theorem setGroup_agenda (s : State) (c slot : Nat) (g : Group) : (setGroup s c slot g).agenda = s.agenda := rfl
@[simp] theorem setGroup_sel (s : State) (c slot : Nat) (g : Group) : (setGroup s c slot g).sel = s.sel := rfl
@[simp] theorem setGroup_held (s : State) (c slot : Nat) (g : Group) : (setGroup s c slot g).held = s.held := rfl
@[simp] theorem setGroup_heldGroups (s : State) (c slot : Nat) (g : Group) : (setGroup s c slot g).heldGroups = s.heldGroups := rfl
@[simp] theorem setGroup_free (s : State) (c slot : Nat) (g : Group) : (setGroup s c slot g).free = s.free := rfl
@[simp] theorem setGroup_reqId (s : State) (c slot : Nat) (g : Group) : (setGroup s c slot g).reqId = s.reqId := rfl
@[simp] theorem setGroup_mem (s : State) (c slot : Nat) (g : Group) : (setGroup s c slot g).mem = s.mem := rfl
@[simp] theorem setGroup_poison (s : State) (c slot : Nat) (g : Group) : (setGroup s c slot g).poison = s.poison := rfl
@[simp] theorem setGroup_live (s : State) (c slot : Nat) (g : Group) : (setGroup s c slot g).live = s.live := rfl
@[simp] theorem setGroup_clusters (s : State) (c slot : Nat) (g : Group) : (setGroup s c slot g).clusters = s.clusters := rfl
@[simp] theorem setGroup_dies (s : State) (c slot : Nat) (g : Group) : (setGroup s c slot g).dies = s.dies := rfl
@[simp] theorem setGroup_packets (s : State) (c slot : Nat) (g : Group) : (setGroup s c slot g).packets = s.packets := rfl
@[simp] theorem setGroup_failed (s : State) (c slot : Nat) (g : Group) : (setGroup s c slot g).failed = s.failed := rfl
@[simp] theorem setGroup_hbm (s : State) (c slot : Nat) (g : Group) : (setGroup s c slot g).hbm = s.hbm := rfl
@[simp] theorem setGroup_parts (s : State) (c slot : Nat) (g : Group) : (setGroup s c slot g).parts = s.parts := rfl
@[simp] theorem setGroup_rdma (s : State) (c slot : Nat) (g : Group) : (setGroup s c slot g).rdma = s.rdma := rfl
@[simp] theorem setGroup_qps (s : State) (c slot : Nat) (g : Group) : (setGroup s c slot g).qps = s.qps := rfl
@[simp] theorem setGroup_bteTurn (s : State) (c slot : Nat) (g : Group) : (setGroup s c slot g).bteTurn = s.bteTurn := rfl
@[simp] theorem setGroup_ats (s : State) (c slot : Nat) (g : Group) : (setGroup s c slot g).ats = s.ats := rfl
@[simp] theorem setGroup_paused (s : State) (c slot : Nat) (g : Group) : (setGroup s c slot g).paused = s.paused := rfl
@[simp] theorem setGroup_fns (s : State) (c slot : Nat) (g : Group) : (setGroup s c slot g).fns = s.fns := rfl
@[simp] theorem setGroup_mgmt (s : State) (c slot : Nat) (g : Group) : (setGroup s c slot g).mgmt = s.mgmt := rfl
@[simp] theorem setGroup_irqs (s : State) (c slot : Nat) (g : Group) : (setGroup s c slot g).irqs = s.irqs := rfl
@[simp] theorem setGroup_wire (s : State) (c slot : Nat) (g : Group) : (setGroup s c slot g).wire = s.wire := rfl

/-! ## dropGroup -/

@[simp] theorem dropGroup_agenda (s : State) (c slot : Nat) : (dropGroup s c slot).agenda = s.agenda := rfl
@[simp] theorem dropGroup_sel (s : State) (c slot : Nat) : (dropGroup s c slot).sel = s.sel := rfl
@[simp] theorem dropGroup_held (s : State) (c slot : Nat) : (dropGroup s c slot).held = s.held := rfl
@[simp] theorem dropGroup_heldGroups (s : State) (c slot : Nat) : (dropGroup s c slot).heldGroups = s.heldGroups := rfl
@[simp] theorem dropGroup_free (s : State) (c slot : Nat) : (dropGroup s c slot).free = s.free := rfl
@[simp] theorem dropGroup_reqId (s : State) (c slot : Nat) : (dropGroup s c slot).reqId = s.reqId := rfl
@[simp] theorem dropGroup_mem (s : State) (c slot : Nat) : (dropGroup s c slot).mem = s.mem := rfl
@[simp] theorem dropGroup_poison (s : State) (c slot : Nat) : (dropGroup s c slot).poison = s.poison := rfl
@[simp] theorem dropGroup_live (s : State) (c slot : Nat) : (dropGroup s c slot).live = s.live := rfl
@[simp] theorem dropGroup_clusters (s : State) (c slot : Nat) : (dropGroup s c slot).clusters = s.clusters := rfl
@[simp] theorem dropGroup_dies (s : State) (c slot : Nat) : (dropGroup s c slot).dies = s.dies := rfl
@[simp] theorem dropGroup_packets (s : State) (c slot : Nat) : (dropGroup s c slot).packets = s.packets := rfl
@[simp] theorem dropGroup_failed (s : State) (c slot : Nat) : (dropGroup s c slot).failed = s.failed := rfl
@[simp] theorem dropGroup_hbm (s : State) (c slot : Nat) : (dropGroup s c slot).hbm = s.hbm := rfl
@[simp] theorem dropGroup_parts (s : State) (c slot : Nat) : (dropGroup s c slot).parts = s.parts := rfl
@[simp] theorem dropGroup_rdma (s : State) (c slot : Nat) : (dropGroup s c slot).rdma = s.rdma := rfl
@[simp] theorem dropGroup_qps (s : State) (c slot : Nat) : (dropGroup s c slot).qps = s.qps := rfl
@[simp] theorem dropGroup_bteTurn (s : State) (c slot : Nat) : (dropGroup s c slot).bteTurn = s.bteTurn := rfl
@[simp] theorem dropGroup_ats (s : State) (c slot : Nat) : (dropGroup s c slot).ats = s.ats := rfl
@[simp] theorem dropGroup_paused (s : State) (c slot : Nat) : (dropGroup s c slot).paused = s.paused := rfl
@[simp] theorem dropGroup_fns (s : State) (c slot : Nat) : (dropGroup s c slot).fns = s.fns := rfl
@[simp] theorem dropGroup_mgmt (s : State) (c slot : Nat) : (dropGroup s c slot).mgmt = s.mgmt := rfl
@[simp] theorem dropGroup_irqs (s : State) (c slot : Nat) : (dropGroup s c slot).irqs = s.irqs := rfl
@[simp] theorem dropGroup_wire (s : State) (c slot : Nat) : (dropGroup s c slot).wire = s.wire := rfl

/-! ## post -/

@[simp] theorem post_agenda (s : State) (l : List Instr) : (post s l).agenda = s.agenda ++ l := rfl
@[simp] theorem post_sel (s : State) (l : List Instr) : (post s l).sel = s.sel := rfl
@[simp] theorem post_held (s : State) (l : List Instr) : (post s l).held = s.held := rfl
@[simp] theorem post_heldGroups (s : State) (l : List Instr) : (post s l).heldGroups = s.heldGroups := rfl
@[simp] theorem post_free (s : State) (l : List Instr) : (post s l).free = s.free := rfl
@[simp] theorem post_reqId (s : State) (l : List Instr) : (post s l).reqId = s.reqId := rfl
@[simp] theorem post_mem (s : State) (l : List Instr) : (post s l).mem = s.mem := rfl
@[simp] theorem post_poison (s : State) (l : List Instr) : (post s l).poison = s.poison := rfl
@[simp] theorem post_live (s : State) (l : List Instr) : (post s l).live = s.live := rfl
@[simp] theorem post_cores (s : State) (l : List Instr) : (post s l).cores = s.cores := rfl
@[simp] theorem post_clusters (s : State) (l : List Instr) : (post s l).clusters = s.clusters := rfl
@[simp] theorem post_dies (s : State) (l : List Instr) : (post s l).dies = s.dies := rfl
@[simp] theorem post_packets (s : State) (l : List Instr) : (post s l).packets = s.packets := rfl
@[simp] theorem post_failed (s : State) (l : List Instr) : (post s l).failed = s.failed := rfl
@[simp] theorem post_hbm (s : State) (l : List Instr) : (post s l).hbm = s.hbm := rfl
@[simp] theorem post_parts (s : State) (l : List Instr) : (post s l).parts = s.parts := rfl
@[simp] theorem post_rdma (s : State) (l : List Instr) : (post s l).rdma = s.rdma := rfl
@[simp] theorem post_qps (s : State) (l : List Instr) : (post s l).qps = s.qps := rfl
@[simp] theorem post_bteTurn (s : State) (l : List Instr) : (post s l).bteTurn = s.bteTurn := rfl
@[simp] theorem post_ats (s : State) (l : List Instr) : (post s l).ats = s.ats := rfl
@[simp] theorem post_paused (s : State) (l : List Instr) : (post s l).paused = s.paused := rfl
@[simp] theorem post_fns (s : State) (l : List Instr) : (post s l).fns = s.fns := rfl
@[simp] theorem post_mgmt (s : State) (l : List Instr) : (post s l).mgmt = s.mgmt := rfl
@[simp] theorem post_irqs (s : State) (l : List Instr) : (post s l).irqs = s.irqs := rfl
@[simp] theorem post_wire (s : State) (l : List Instr) : (post s l).wire = s.wire := rfl

/-! ## unhold -/

@[simp] theorem unhold_agenda (s : State) : (unhold s).agenda = s.agenda := rfl
@[simp] theorem unhold_sel (s : State) : (unhold s).sel = s.sel := rfl
@[simp] theorem unhold_held (s : State) : (unhold s).held = [] := rfl
@[simp] theorem unhold_heldGroups (s : State) : (unhold s).heldGroups = [] := rfl
@[simp] theorem unhold_free (s : State) : (unhold s).free = s.free := rfl
@[simp] theorem unhold_reqId (s : State) : (unhold s).reqId = s.reqId := rfl
@[simp] theorem unhold_mem (s : State) : (unhold s).mem = s.mem := rfl
@[simp] theorem unhold_poison (s : State) : (unhold s).poison = s.poison := rfl
@[simp] theorem unhold_live (s : State) : (unhold s).live = s.live := rfl
@[simp] theorem unhold_cores (s : State) : (unhold s).cores = s.cores := rfl
@[simp] theorem unhold_clusters (s : State) : (unhold s).clusters = s.clusters := rfl
@[simp] theorem unhold_dies (s : State) : (unhold s).dies = s.dies := rfl
@[simp] theorem unhold_packets (s : State) : (unhold s).packets = s.packets := rfl
@[simp] theorem unhold_failed (s : State) : (unhold s).failed = s.failed := rfl
@[simp] theorem unhold_hbm (s : State) : (unhold s).hbm = s.hbm := rfl
@[simp] theorem unhold_parts (s : State) : (unhold s).parts = s.parts := rfl
@[simp] theorem unhold_rdma (s : State) : (unhold s).rdma = s.rdma := rfl
@[simp] theorem unhold_qps (s : State) : (unhold s).qps = s.qps := rfl
@[simp] theorem unhold_bteTurn (s : State) : (unhold s).bteTurn = s.bteTurn := rfl
@[simp] theorem unhold_ats (s : State) : (unhold s).ats = s.ats := rfl
@[simp] theorem unhold_paused (s : State) : (unhold s).paused = s.paused := rfl
@[simp] theorem unhold_fns (s : State) : (unhold s).fns = s.fns := rfl
@[simp] theorem unhold_mgmt (s : State) : (unhold s).mgmt = s.mgmt := rfl
@[simp] theorem unhold_irqs (s : State) : (unhold s).irqs = s.irqs := rfl
@[simp] theorem unhold_wire (s : State) : (unhold s).wire = s.wire := rfl

/-! ## memPut -/

@[simp] theorem memPut_agenda (s : State) (a : Nat) (b : Byte) : (memPut s a b).agenda = s.agenda := rfl
@[simp] theorem memPut_sel (s : State) (a : Nat) (b : Byte) : (memPut s a b).sel = s.sel := rfl
@[simp] theorem memPut_held (s : State) (a : Nat) (b : Byte) : (memPut s a b).held = s.held := rfl
@[simp] theorem memPut_heldGroups (s : State) (a : Nat) (b : Byte) : (memPut s a b).heldGroups = s.heldGroups := rfl
@[simp] theorem memPut_free (s : State) (a : Nat) (b : Byte) : (memPut s a b).free = s.free := rfl
@[simp] theorem memPut_reqId (s : State) (a : Nat) (b : Byte) : (memPut s a b).reqId = s.reqId := rfl
@[simp] theorem memPut_mem (s : State) (a : Nat) (b : Byte) : (memPut s a b).mem = mapSet memDefault s.mem a b := rfl
@[simp] theorem memPut_poison (s : State) (a : Nat) (b : Byte) : (memPut s a b).poison = poisonAfter s.poison a := rfl
@[simp] theorem memPut_live (s : State) (a : Nat) (b : Byte) : (memPut s a b).live = s.live := rfl
@[simp] theorem memPut_cores (s : State) (a : Nat) (b : Byte) : (memPut s a b).cores = s.cores := rfl
@[simp] theorem memPut_clusters (s : State) (a : Nat) (b : Byte) : (memPut s a b).clusters = s.clusters := rfl
@[simp] theorem memPut_dies (s : State) (a : Nat) (b : Byte) : (memPut s a b).dies = s.dies := rfl
@[simp] theorem memPut_packets (s : State) (a : Nat) (b : Byte) : (memPut s a b).packets = s.packets := rfl
@[simp] theorem memPut_failed (s : State) (a : Nat) (b : Byte) : (memPut s a b).failed = s.failed := rfl
@[simp] theorem memPut_hbm (s : State) (a : Nat) (b : Byte) : (memPut s a b).hbm = s.hbm := rfl
@[simp] theorem memPut_parts (s : State) (a : Nat) (b : Byte) : (memPut s a b).parts = s.parts := rfl
@[simp] theorem memPut_rdma (s : State) (a : Nat) (b : Byte) : (memPut s a b).rdma = s.rdma := rfl
@[simp] theorem memPut_qps (s : State) (a : Nat) (b : Byte) : (memPut s a b).qps = s.qps := rfl
@[simp] theorem memPut_bteTurn (s : State) (a : Nat) (b : Byte) : (memPut s a b).bteTurn = s.bteTurn := rfl
@[simp] theorem memPut_ats (s : State) (a : Nat) (b : Byte) : (memPut s a b).ats = s.ats := rfl
@[simp] theorem memPut_paused (s : State) (a : Nat) (b : Byte) : (memPut s a b).paused = s.paused := rfl
@[simp] theorem memPut_fns (s : State) (a : Nat) (b : Byte) : (memPut s a b).fns = s.fns := rfl
@[simp] theorem memPut_mgmt (s : State) (a : Nat) (b : Byte) : (memPut s a b).mgmt = s.mgmt := rfl
@[simp] theorem memPut_irqs (s : State) (a : Nat) (b : Byte) : (memPut s a b).irqs = s.irqs := rfl
@[simp] theorem memPut_wire (s : State) (a : Nat) (b : Byte) : (memPut s a b).wire = s.wire := rfl

end Sys2Proof.Machine
end

