-- ==== Sys2Proof/Laws/Memory.lean ====
section
/-! SUPPORT. The laws of memory: a read after a write, that every memory operation keeps the canonical form, and that an engine's write
changes memory and poison alone. -/
namespace Sys2Proof.Machine

/-- A byte read after a byte written (R3). -/
theorem memByte_memPut (s : State) (a b : Nat) (v : Byte) :
    memByte (memPut s a v) b = if b = a then v else memByte s b := mapGet_mapSet _ _ _ _ _

theorem memWf_memPut (s : State) (a : Nat) (v : Byte) (h : memWf s = true) : memWf (memPut s a v) = true :=
  mapOk_mapSet _ _ _ _ h

theorem memWf_memPuts (l : List (Nat × Byte)) (s : State) (h : memWf s = true) : memWf (memPuts s l) = true := by
  induction l generalizing s with
  | nil => exact h
  | cons p t ih => exact ih _ (memWf_memPut s p.1 p.2 h)

theorem memWf_memWrite (s : State) (a n v : Nat) (h : memWf s = true) : memWf (memWrite s a n v) = true :=
  memWf_memPuts _ s h

/-- Addresses that no written pair names read as before. -/
theorem memByte_memPuts_ne (l : List (Nat × Byte)) (s : State) (b : Nat) (h : ∀ p ∈ l, p.1 ≠ b) :
    memByte (memPuts s l) b = memByte s b := by
  induction l generalizing s with
  | nil => rfl
  | cons p t ih =>
    have h1 := ih (memPut s p.1 p.2) (fun q hq => h q (by simp [hq]))
    refine h1.trans ?_
    rw [memByte_memPut, if_neg (Ne.symm (h p (by simp)))]

/-- The poison that an engine's write leaves does not touch memory. -/
theorem mem_enginePuts (s : State) (l : List (Bool × Nat × Byte)) : (enginePuts s l).mem = (memPuts s (l.map (·.2))).mem := by
  have h : ∀ (ls : List Nat) (f : Nat → Nat) (t : State), (ls.foldl (fun t ln => keepPoison s ln (f ln) t) t).mem = t.mem := by
    intro ls f
    induction ls with
    | nil => intro t; rfl
    | cons a r ih => intro t; rw [List.foldl_cons, ih]; unfold keepPoison; split <;> rfl
  exact h _ _ _

theorem memWf_enginePuts (l : List (Bool × Nat × Byte)) (s : State) (hs : memWf s = true) : memWf (enginePuts s l) = true := by
  rw [memWf, mem_enginePuts]; exact memWf_memPuts _ s hs

/-- An engine's write keeps the memory's canonical form. -/
theorem memWf_vaWrite {s t : State} {part : Nat} {va : DWord} {n v : Nat} (h : vaWrite s part va n v = some t)
    (hs : memWf s = true) : memWf t = true := by
  unfold vaWrite at h
  dsimp only at h
  split at h
  · cases h
    exact memWf_enginePuts _ s hs
  · cases h

theorem memWf_eq {s t : State} (h : t.mem = s.mem) : memWf t = memWf s := by simp [memWf, h]

/-- What several byte writes change: memory and poison alone. -/
theorem memPuts_eq (l : List (Nat × Byte)) (s : State) :
    memPuts s l = { s with mem := (memPuts s l).mem, poison := (memPuts s l).poison } := by
  induction l generalizing s with
  | nil => rfl
  | cons p t ih => exact (ih (memPut s p.1 p.2)).trans (by simp [memPuts, memPut])

/-! ## Walks and reads within a page -/

theorem levelShift_ge (l : Nat) : 16 ≤ levelShift l := by unfold levelShift; split <;> omega
theorem div_of_page {a b k : Nat} (hk : 16 ≤ k) (h : a / 2 ^ 16 = b / 2 ^ 16) : a / 2 ^ k = b / 2 ^ k := by
  obtain ⟨j, rfl⟩ := Nat.exists_eq_add_of_le hk
  rw [Nat.pow_add, ← Nat.div_div_eq_div_mul, ← Nat.div_div_eq_div_mul, h]
theorem walkEntry_page (s : State) {a b : Nat} (h : a / 2 ^ 16 = b / 2 ^ 16) (l t : Nat) : walkEntry s a l t = walkEntry s b l t := by
  simp only [walkEntry, div_of_page (levelShift_ge l) h]
/-- A walk depends on the 64 KiB page of its address alone (R248). -/
theorem walkTable_page (s : State) {a b : Nat} (h : a / 2 ^ 16 = b / 2 ^ 16) (l t : Nat) : walkTable s a l t = walkTable s b l t := by
  induction l generalizing t with
  | zero => simp only [walkTable, walkEntry_page s h]
  | succ l ih => simp only [walkTable, walkEntry_page s h, ih]
/-- Bytes of one page that the partition holds, none of them poisoned, read by an engine, are those of memory. -/
theorem vaRead_page {s : State} {part : Nat} {va : DWord} {n base size : Nat} {pte : DWord} (hw : walkVa s part va = .leaf base size pte)
    (h : ∀ k < n, (va + BitVec.ofNat 64 k).toNat % 2 ^ 57 / 2 ^ 16 = va.toNat % 2 ^ 57 / 2 ^ 16 ∧ canonical (va + BitVec.ofNat 64 k) = true ∧
      paOf part base pte (va + BitVec.ofNat 64 k) = paOf part base pte va + k ∧ regionOf (paOf part base pte va + k) ≠ .device ∧
      refusalOf (getPart s part).lay (paOf part base pte va + k) = none ∧ linePoisoned s (paOf part base pte va + k) = false) (hr : permits pte .read = true)
    (hd : (getPart s part).hmode = false ∨ (getPart s part).denied = []) :
    vaRead s part va n = some (memRead s (paOf part base pte va) n) := by
  have ht : ∀ k < n, engTrans s part (va + BitVec.ofNat 64 k) .read = .ok (paOf part base pte va + k) pte := by
    intro k hk
    obtain ⟨h1, h2, h3, h4, -⟩ := h k hk
    have hw2 : walkVa s part (va + BitVec.ofNat 64 k) = .leaf base size pte := by
      rw [← hw]; exact walkTable_page s h1 4 _
    rcases hd with hd | hd <;> simp [engTrans, h2, hw2, h3, hr, h4, hd]
  unfold vaRead memRead
  suffices hs : ∀ l : List Nat, (∀ k ∈ l, k < n) → l.foldr (fun k acc =>
      match acc, engTrans s part (va + BitVec.ofNat 64 k) .read with
      | some x, .ok pa _ => if refusalOf (getPart s part).lay pa == none && !linePoisoned s pa then some ((memByte s pa).toNat + 256 * x) else none
      | _, _ => none) (some 0) = some (l.foldr (fun k acc => (memByte s (paOf part base pte va + k)).toNat + 256 * acc) 0) from
    hs _ fun k hk => List.mem_range.mp hk
  intro l hl
  induction l with
  | nil => rfl
  | cons k t ih =>
    rw [List.foldr_cons, ih fun j hj => hl j (List.mem_cons_of_mem _ hj), List.foldr_cons]
    have hk := hl k List.mem_cons_self
    simp [ht k hk, (h k hk).2.2.2.2.1, (h k hk).2.2.2.2.2]

end Sys2Proof.Machine
end

