-- ==== Sys2Proof/Laws/Groups.lean ====
section
/-! SUPPORT. The laws of cores, slots, registers and predicates: a read after a write, and what a write leaves alone. -/
namespace Sys2Proof.Machine

/-! ## Cores and slots -/

theorem getCore_setCore (s : State) (c d : Nat) (v : Core) : getCore (setCore s c v) d = if d = c then v else getCore s d :=
  mapGet_mapSet _ _ _ _ _

theorem getCore_modCore (s : State) (c d : Nat) (f : Core → Core) :
    getCore (modCore s c f) d = if d = c then f (getCore s c) else getCore s d := getCore_setCore s c d _

theorem getPart_setPart (s : State) (p q : Nat) (v : Part) : getPart (setPart s p v) q = if q = p then v else getPart s q :=
  mapGet_mapSet _ _ _ _ _

theorem getPart_modPart (s : State) (p q : Nat) (f : Part → Part) :
    getPart (modPart s p f) q = if q = p then f (getPart s p) else getPart s q := getPart_setPart s p q _

theorem getDie_modDie (s : State) (d e : Nat) (f : Die → Die) :
    getDie (modDie s d f) e = if e = d then f (getDie s d) else getDie s e := mapGet_mapSet _ _ _ _ _

theorem getCluster_modCluster (s : State) (k j : Nat) (f : Cluster → Cluster) :
    getCluster (modCluster s k f) j = if j = k then f (getCluster s k) else getCluster s j := mapGet_mapSet _ _ _ _ _

theorem assoc_slotPut_self (l : List (Nat × Group)) (k : Nat) (g : Group) : assoc (slotPut l k g) k = some g := by
  induction l with
  | nil => simp [slotPut, assoc]
  | cons p t ih =>
    obtain ⟨j, h⟩ := p
    by_cases h1 : j = k
    · simp [slotPut, assoc, h1]
    · by_cases h2 : k < j <;> simp [slotPut, assoc, h1, h2, ih]

theorem assoc_slotPut_ne (l : List (Nat × Group)) {k j : Nat} (g : Group) (h : j ≠ k) :
    assoc (slotPut l k g) j = assoc l j := by
  induction l with
  | nil => simp [slotPut, assoc, Ne.symm h]
  | cons p t ih =>
    obtain ⟨i, w⟩ := p
    by_cases h1 : i = k
    · subst h1; simp [slotPut, assoc, Ne.symm h]
    · by_cases h2 : k < i
      · simp [slotPut, assoc, h1, h2, Ne.symm h]
      · simp [slotPut, assoc, h1, h2, ih]

theorem getGroup_setGroup_self (s : State) (c k : Nat) (g : Group) : getGroup (setGroup s c k g) c k = some g := by
  simp [getGroup, setGroup, getCore_modCore, assoc_slotPut_self]

theorem getGroup_setGroup_ne (s : State) (c k d j : Nat) (g : Group) (h : (d, j) ≠ (c, k)) :
    getGroup (setGroup s c k g) d j = getGroup s d j := by
  simp only [getGroup, setGroup, getCore_modCore]
  by_cases hd : d = c
  · subst hd
    have hj : j ≠ k := fun hj => h (by rw [hj])
    simp [assoc_slotPut_ne _ g hj]
  · simp [hd]

theorem assoc_slotMod_self (l : List (Nat × Group)) (k : Nat) (f : Group → Group) :
    assoc (slotMod l k f) k = (assoc l k).map f := by
  induction l with
  | nil => rfl
  | cons p t ih =>
    obtain ⟨j, h⟩ := p
    by_cases h1 : j = k <;> simp [slotMod, assoc, h1, ih]

theorem assoc_slotMod_ne (l : List (Nat × Group)) {k j : Nat} (f : Group → Group) (h : j ≠ k) :
    assoc (slotMod l k f) j = assoc l j := by
  induction l with
  | nil => rfl
  | cons p t ih =>
    obtain ⟨i, w⟩ := p
    by_cases h1 : i = k
    · subst h1; simp [slotMod, assoc, Ne.symm h]
    · simp [slotMod, assoc, h1, ih]

theorem modGroup_some {s : State} {c k : Nat} {g : Group} (f : Group → Group) (h : getGroup s c k = some g) :
    modGroup s c k f = modCore s c fun q => { q with slots := slotMod q.slots k f } := by simp [modGroup, h]

theorem modGroup_none {s : State} {c k : Nat} (f : Group → Group) (h : getGroup s c k = none) : modGroup s c k f = s := by
  simp [modGroup, h]

theorem getGroup_modGroup_self (s : State) (c k : Nat) (f : Group → Group) :
    getGroup (modGroup s c k f) c k = (getGroup s c k).map f := by
  cases h : getGroup s c k with
  | none => simp [modGroup_none f h, h]
  | some g =>
    rw [modGroup_some f h]
    simp only [getGroup] at h
    simp [getGroup, getCore_modCore, assoc_slotMod_self, h]

theorem getGroup_modGroup_ne (s : State) (c k d j : Nat) (f : Group → Group) (h : (d, j) ≠ (c, k)) :
    getGroup (modGroup s c k f) d j = getGroup s d j := by
  cases hg : getGroup s c k with
  | none => simp [modGroup_none f hg]
  | some g =>
    rw [modGroup_some f hg]
    simp only [getGroup, getCore_modCore]
    by_cases hd : d = c
    · subst hd
      have hj : j ≠ k := fun hj => h (by rw [hj])
      simp [assoc_slotMod_ne _ f hj]
    · simp [hd]

/-- A changed group leaves every part of the state but the cores alone. -/
theorem modGroup_eq (s : State) (c k : Nat) (f : Group → Group) : modGroup s c k f = { s with cores := (modGroup s c k f).cores } := by
  cases h : getGroup s c k with
  | none => simp [modGroup_none f h]
  | some g => simp [modGroup_some f h]; rfl

@[simp] theorem modGroup_mem (s : State) (c k : Nat) (f : Group → Group) : (modGroup s c k f).mem = s.mem := by rw [modGroup_eq]
@[simp] theorem modGroup_agenda (s : State) (c k : Nat) (f : Group → Group) : (modGroup s c k f).agenda = s.agenda := by
  rw [modGroup_eq]
@[simp] theorem modGroup_parts (s : State) (c k : Nat) (f : Group → Group) : (modGroup s c k f).parts = s.parts := by
  rw [modGroup_eq]
@[simp] theorem modGroup_dies (s : State) (c k : Nat) (f : Group → Group) : (modGroup s c k f).dies = s.dies := by
  rw [modGroup_eq]
@[simp] theorem modGroup_clusters (s : State) (c k : Nat) (f : Group → Group) : (modGroup s c k f).clusters = s.clusters := by
  rw [modGroup_eq]

/-! ## Registers and predicates -/

theorem ofFn_lane (f : Fin 64 → Word) {l : Nat} (h : l < 64) : (Vector.ofFn f)[l]?.getD 0 = f ⟨l, h⟩ := by simp [h]

theorem vreg_vwrite (g : Group) (n k : Nat) (m : Lanes) (f : Nat → Word) :
    vreg (vwrite g n m f) k = if k = n then Vector.ofFn fun l : Fin 64 => if m.getLsbD l.val then f l.val else vlane g n l.val
      else vreg g k := by
  simp only [vreg, vwrite, mapGet_mapSet]

/-- One lane of a vector register after a write under a mask (R42): lanes outside it keep their value. -/
theorem vlane_vwrite (g : Group) (n k : Nat) (m : Lanes) (f : Nat → Word) {l : Nat} (h : l < 64) :
    vlane (vwrite g n m f) k l = if k = n ∧ m.getLsbD l = true then f l else vlane g k l := by
  unfold vlane
  rw [vreg_vwrite]
  by_cases hk : k = n
  · subst hk
    by_cases hm : m.getLsbD l = true
    · simp [h, hm]
    · simp [h, vlane]
  · simp [hk]

theorem sreg_swrite (g : Group) (n k : Nat) (v : Word) : sreg (swrite g n v) k = if k = n then v else sreg g k := by
  simp only [sreg, swrite, mapGet_mapSet]

@[simp] theorem sreg_vwrite (g : Group) (n k : Nat) (m : Lanes) (f : Nat → Word) : sreg (vwrite g n m f) k = sreg g k := by
  simp only [sreg, vwrite]
@[simp] theorem vlane_swrite (g : Group) (n k l : Nat) (v : Word) : vlane (swrite g n v) k l = vlane g k l := by
  simp only [vlane, vreg, swrite]

theorem lane64_rowOf (f : Nat → DWord) {l : Nat} (h : l < 64) : lane64 (rowOf f) l = f l := by simp [lane64, rowOf, h]

/-- A predicate after a write under a mask; p7 reads 1 whatever is written (R8, R75, R78). -/
theorem predRow_predGroup (g : Group) (k j : Nat) (m b : Lanes) :
    predRow (predGroup g k m b) j = if j = 7 then allLanes else if j = k then (predRow g k &&& ~~~m) ||| (b &&& m) else predRow g j := by
  by_cases hj : j = 7
  · simp [predRow, hj]
  · by_cases hk : k = 7
    · simp [predRow, predGroup, hj, hk]
    · simp only [predRow, predGroup, hj, hk, if_false, mapGet_mapSet]

/-! ## Masks -/

theorem maskOf_fold (f : Nat → Bool) (L : List Nat) (m0 : Lanes) (hL : ∀ l ∈ L, l < 64) {j : Nat} (hj : j < 64) :
    (L.foldl (fun m l => if f l then m ||| laneBit l else m) m0).getLsbD j = (m0.getLsbD j || (L.contains j && f j)) := by
  induction L generalizing m0 with
  | nil => simp
  | cons a t ih =>
    rw [List.foldl_cons, ih _ (fun l hl => hL l (by simp [hl]))]
    have ha : a < 64 := hL a (by simp)
    by_cases hf : f a = true
    · by_cases hja : j = a
      · subst hja; simp [hf, laneBit, hj]
      · have : (laneBit a).getLsbD j = false := by
          simp only [laneBit, BitVec.getLsbD_shiftLeft, BitVec.getLsbD_one]
          simp only [Bool.and_eq_false_iff, decide_eq_false_iff_not]
          by_cases h2 : j < a
          · simp [h2]
          · right; omega
        simp [hf, this, hja]
    · by_cases hja : j = a
      · subst hja; simp [hf]
      · simp [hf, hja]

/-- A mask holds exactly the lanes for which its function does. -/
theorem maskOf_lane (f : Nat → Bool) {j : Nat} (hj : j < 64) : (maskOf f).getLsbD j = f j := by
  rw [maskOf, maskOf_fold f _ _ (fun l hl => List.mem_range.1 hl) hj]
  simp [hj]

end Sys2Proof.Machine
end

