-- ==== Sys2Proof/Laws/Engines.lean ====
section
/-! SUPPORT. What the shared operations of engines, front end and halts can do: which fields they leave as they were, that they keep memory's canonical
form, and what reads back after a change of a node, queue, identifier or transfer queue. -/
namespace Sys2Proof.Machine

/-! ## Writes by engines: nothing but memory, its poison and the agenda -/

/-- `t` differs from `s` in memory, its poison and the agenda at most, and keeps memory's canonical form. -/
def WritesOnly (s t : State) : Prop := t = { s with mem := t.mem, poison := t.poison, agenda := t.agenda } ∧ (memWf s = true → memWf t = true)

theorem WritesOnly.refl (s : State) : WritesOnly s s := ⟨rfl, id⟩
theorem WritesOnly.trans {s t u : State} (h : WritesOnly s t) (k : WritesOnly t u) : WritesOnly s u := by
  refine ⟨?_, fun hw => k.2 (h.2 hw)⟩
  rw [k.1, h.1]
theorem WritesOnly.cores {s t : State} (h : WritesOnly s t) : t.cores = s.cores := by rw [h.1]
theorem WritesOnly.parts {s t : State} (h : WritesOnly s t) : t.parts = s.parts := by rw [h.1]
theorem WritesOnly.dies {s t : State} (h : WritesOnly s t) : t.dies = s.dies := by rw [h.1]
theorem WritesOnly.clusters {s t : State} (h : WritesOnly s t) : t.clusters = s.clusters := by rw [h.1]
theorem WritesOnly.getPart {s t : State} (h : WritesOnly s t) (p : Nat) : getPart t p = getPart s p := by
  simp only [Machine.getPart, h.parts]
theorem WritesOnly.getCore {s t : State} (h : WritesOnly s t) (c : Nat) : getCore t c = getCore s c := by
  simp only [Machine.getCore, h.cores]

theorem writesOnly_post (s : State) (l : List Instr) : WritesOnly s (post s l) := ⟨rfl, id⟩
theorem writesOnly_memPuts (s : State) (l : List (Nat × Byte)) : WritesOnly s (memPuts s l) :=
  ⟨by rw [memPuts_eq], memWf_memPuts l s⟩
theorem writesOnly_keepPoison (o : State) (ln n : Nat) (s : State) : WritesOnly s (keepPoison o ln n s) := by
  unfold keepPoison
  split
  · exact .refl s
  · exact ⟨rfl, id⟩
theorem writesOnly_keeps (o : State) (l : List Nat) (f : Nat → Nat) (s : State) : WritesOnly s (l.foldl (fun t ln => keepPoison o ln (f ln) t) s) := by
  induction l generalizing s with
  | nil => exact .refl s
  | cons a t ih => exact (writesOnly_keepPoison o a (f a) s).trans (ih _)
theorem writesOnly_enginePuts (s : State) (l : List (Bool × Nat × Byte)) : WritesOnly s (enginePuts s l) :=
  (writesOnly_memPuts s _).trans (writesOnly_keeps s _ (fun ln => (((l.filter (·.1)).map (·.2.1)).filter fun a => a / 128 == ln).dedup.length) _)
theorem writesOnly_vaWrite {s t : State} {part : Nat} {va : DWord} {n v : Nat} (h : vaWrite s part va n v = some t) : WritesOnly s t := by
  refine ⟨?_, memWf_vaWrite h⟩
  unfold vaWrite at h
  dsimp only at h
  split at h
  · cases h; exact (writesOnly_enginePuts s _).1
  · cases h
theorem writesOnly_getD {s : State} {o : Option State} (h : ∀ t, o = some t → WritesOnly s t) : WritesOnly s (o.getD s) := by
  cases o with
  | none => exact .refl s
  | some t => exact h t rfl
theorem writesOnly_tryWrite (s : State) (part : Nat) (va : DWord) (n v : Nat) : WritesOnly s (tryWrite s part va n v) :=
  writesOnly_getD fun _ h => writesOnly_vaWrite h
theorem writesOnly_foldl {α : Type} (f : State → α → State) (h : ∀ s a, WritesOnly s (f s a)) (l : List α) (s : State) : WritesOnly s (l.foldl f s) := by
  induction l generalizing s with
  | nil => exact .refl s
  | cons a t ih => exact (h s a).trans (ih _)
theorem writesOnly_reportWrite (s : State) (line : Nat) : WritesOnly s (reportWrite s line) := writesOnly_post s _
theorem writesOnly_homeWrite (s : State) (line : Nat) (l : List (Nat × Byte)) : WritesOnly s (homeWrite s line l) :=
  (writesOnly_memPuts s l).trans (writesOnly_reportWrite _ _)
theorem writesOnly_engWrite {s t : State} {part : Nat} {va : DWord} {n v : Nat} (h : engWrite s part va n v = some t) : WritesOnly s t := by
  unfold engWrite at h
  dsimp only at h
  split at h
  · cases h
  · rw [Option.map_eq_some_iff] at h
    obtain ⟨u, hu, rfl⟩ := h
    exact (writesOnly_vaWrite hu).trans (writesOnly_foldl _ writesOnly_reportWrite _ _)
theorem writesOnly_poisonByte (s : State) (pa : Nat) : WritesOnly s (poisonByte s pa) := ⟨rfl, id⟩
theorem writesOnly_putBytes (s : State) (l : List (Nat × Byte × Bool)) : WritesOnly s (putBytes s l) := by
  refine ((writesOnly_memPuts s _).trans (writesOnly_foldl _ (fun s p => ?_) l _)).trans (writesOnly_foldl _ writesOnly_reportWrite _ _)
  split
  · exact writesOnly_poisonByte s _
  · exact .refl s
theorem writesOnly_writeState (s : State) (part : Nat) (a : DWord) (v : Nat) : WritesOnly s (writeState s part a v) := writesOnly_tryWrite s _ _ _ _
theorem writesOnly_writeCause (s : State) (part : Nat) (a : DWord) (c : Nat) : WritesOnly s (writeCause s part a c) := writesOnly_tryWrite s _ _ _ _
theorem writesOnly_stopLost (s : State) (part : Nat) (a : DWord) : WritesOnly s (stopLost s part a) := by
  unfold stopLost
  split
  · exact writesOnly_getD fun _ h => writesOnly_vaWrite h
  · exact .refl s
theorem writesOnly_stopRecord (s : State) (part : Nat) (a : DWord) (n v : Nat) : WritesOnly s (stopRecord s part a n v) := by
  unfold stopRecord
  split
  · split
    · exact writesOnly_stopLost s _ _
    · split
      · exact .refl s
      · rename_i h
        split
        · rename_i h2
          exact (writesOnly_vaWrite h).trans (writesOnly_vaWrite h2)
        · exact (writesOnly_vaWrite h).trans (writesOnly_stopLost _ _ _)
  · exact .refl s
theorem writesOnly_summaryPut (s : State) (part : Nat) (a : DWord) (c : Cause) : WritesOnly s (summaryPut s part a c) := by
  unfold summaryPut
  split
  · exact writesOnly_getD fun _ h => writesOnly_vaWrite h
  · exact .refl s
theorem writesOnly_summaryFor (part : Nat) (c : Cause) (s : State) (n : Node) : WritesOnly s (summaryFor part c s n) := by
  unfold summaryFor
  split
  · exact .refl s
  · split <;> exact writesOnly_summaryPut s _ _ _

/-! ## Reads after a change -/

theorem getPart_post (s : State) (l : List Instr) (p : Nat) : getPart (post s l) p = getPart s p := rfl
theorem getCore_post (s : State) (l : List Instr) (c : Nat) : getCore (post s l) c = getCore s c := rfl
theorem getCore_modPart (s : State) (p c : Nat) (f : Part → Part) : getCore (modPart s p f) c = getCore s c := rfl
theorem getPart_modPart_self (s : State) (p : Nat) (f : Part → Part) : getPart (modPart s p f) p = f (getPart s p) := by simp [getPart_modPart]
theorem getPart_modCore (s : State) (c p : Nat) (f : Core → Core) : getPart (modCore s c f) p = getPart s p := rfl
theorem getPart_modDie (s : State) (d p : Nat) (f : Die → Die) : getPart (modDie s d f) p = getPart s p := rfl
theorem getPart_modCluster (s : State) (k p : Nat) (f : Cluster → Cluster) : getPart (modCluster s k f) p = getPart s p := rfl

theorem queueOf_modQueue (s : State) (part q r : Nat) (f : Queue → Queue) :
    queueOf (modQueue s part q f) part r = if r = q then f (queueOf s part q) else queueOf s part r := by
  simp only [queueOf, modQueue, getPart_modPart_self, mapGet_mapSet]
theorem bteOf_modBte (s : State) (part q r : Nat) (f : BteQ → BteQ) :
    bteOf (modBte s part q f) part r = if r = q then f (bteOf s part q) else bteOf s part r := by
  simp only [bteOf, modBte, getPart_modPart_self, mapGet_mapSet]
theorem identOf_modIdent (s : State) (part i j : Nat) (f : Ident → Ident) :
    identOf (modIdent s part i f) part j = if j = i then f (identOf s part i) else identOf s part j := by
  simp only [identOf, modIdent, getPart_modPart_self, mapGet_mapSet]
theorem find_nodes_map (l : List Node) (a b : DWord) (f : Node → Node) (hf : ∀ n, (f n).addr = n.addr) :
    (l.map fun n => if n.addr == a then f n else n).find? (fun n => n.addr == b) =
      (l.find? fun n => n.addr == b).map fun n => if n.addr == a then f n else n := by
  rw [List.find?_map]
  congr 1
  congr 1
  funext n
  simp only [Function.comp]
  split <;> simp [hf]
/-- A node after a change that keeps its address; the others stay. -/
theorem findNode_modNode (s : State) (part : Nat) (a b : DWord) (f : Node → Node) (hf : ∀ n, (f n).addr = n.addr) :
    findNode (modNode s part a f) part b = (findNode s part b).map fun n => if b = a then f n else n := by
  simp only [findNode, modNode, getPart_modPart_self]
  rw [find_nodes_map _ _ _ _ hf]
  cases h : (getPart s part).nodes.find? fun n => n.addr == b with
  | none => rfl
  | some n =>
    have hn : n.addr = b := by simpa using List.find?_some h
    simp [hn]

/-! ## Pages of the host -/

/-- A partition without page requests and without page-exclusive sharing asks the host for nothing (R369, R371). -/
theorem frontAsks_none (s : State) (part : Nat) (l : List DWord) (h1 : (getPart s part).prq = false) (h2 : (getPart s part).hmode = false) :
    frontAsks s part l = none := by simp [frontAsks, hostAsked, h1, h2]
theorem bteAsks_none (s : State) (part q die : Nat) (l : List DWord) (h1 : (getPart s part).prq = false) (h2 : (getPart s part).hmode = false) :
    bteAsks s part q die l = none := by simp [bteAsks, hostAsked, h1, h2]
/-- Asking for pages changes the walks of one die and the numbers of requests alone. -/
theorem askPages_frame (die part : Nat) (w : DWord → Waiter) (l : List DWord) (s : State) :
    (askPages s die part w l).mem = s.mem ∧ (askPages s die part w l).cores = s.cores ∧ (askPages s die part w l).parts = s.parts := by
  induction l generalizing s with
  | nil => exact ⟨rfl, rfl, rfl⟩
  | cons a t ih =>
    simp only [askPages, List.foldl_cons] at ih ⊢
    refine ⟨(ih _).1.trans ?_, (ih _).2.1.trans ?_, (ih _).2.2.trans ?_⟩ <;> (split; · rfl) <;> split <;> rfl

/-! ## The front end and the line -/

/-- Looking at the queues only puts events on the agenda. -/
theorem kickFront_eq (s : State) (part : Nat) : ∃ l, kickFront s part = post s l := ⟨_, rfl⟩
theorem queueOf_kickFront (s : State) (part p q : Nat) : queueOf (kickFront s part) p q = queueOf s p q := rfl
theorem queueOf_journal (s : State) (part ty q o n r : Nat) (a x : DWord) : queueOf (journal s part ty q o n a x) part r = queueOf s part r := by
  simp only [queueOf, journal, getPart_modPart_self]
theorem queueOf_clearDenied (s : State) (part q : Nat) : queueOf (clearDenied s part) part q = queueOf s part q := by
  simp only [queueOf, clearDenied, getPart_modPart_self]
theorem queueOf_forgetDenied (s : State) (part q o : Nat) : queueOf (forgetDenied s part o) part q = queueOf s part q := by
  unfold forgetDenied
  split
  · exact queueOf_clearDenied s part q
  · rfl
theorem forgetDenied_frame (s : State) (part o : Nat) : (forgetDenied s part o).mem = s.mem ∧ (forgetDenied s part o).cores = s.cores ∧
    (forgetDenied s part o).clusters = s.clusters ∧ (forgetDenied s part o).dies = s.dies ∧ (forgetDenied s part o).irqs = s.irqs := by
  unfold forgetDenied
  split <;> exact ⟨rfl, rfl, rfl, rfl, rfl⟩
theorem queueOf_markStarted (s : State) (part q r : Nat) (k : Pkt) : queueOf (markStarted s part q k) part r =
    if r = q then { queueOf s part q with pkts := (queueOf s part q).pkts.map fun j => if j.seq == k.seq then { j with started := true } else j }
    else queueOf s part r := by
  rw [markStarted]
  simp only [queueOf, getPart_modPart_self]
  exact queueOf_modQueue s part q r _
/-- What the completion of a packet does: its queue loses it and notes a failure; everything but the partition and the agenda stays. -/
theorem finishPkt_queue (s : State) (part q : Nat) (k : Pkt) (o : Nat) (a : DWord) :
    (queueOf (finishPkt s part q k o a) part q).pkts = (queueOf s part q).pkts.filter (fun j => j.seq != k.seq) ∧
    (queueOf (finishPkt s part q k o a) part q).fails =
      (if o = 0 then (queueOf s part q).fails else (queueOf s part q).fails ++ [(k.acc, o, a)]) ∧
    (queueOf (finishPkt s part q k o a) part q).notes = (queueOf s part q).notes := by
  simp only [finishPkt, queueOf_kickFront, queueOf_journal, queueOf_forgetDenied, queueOf_modQueue, if_true, and_self]
theorem finishPkt_frame (s : State) (part q : Nat) (k : Pkt) (o : Nat) (a : DWord) :
    (finishPkt s part q k o a).mem = s.mem ∧ (finishPkt s part q k o a).cores = s.cores ∧ (finishPkt s part q k o a).clusters = s.clusters ∧
    (finishPkt s part q k o a).dies = s.dies ∧ (finishPkt s part q k o a).irqs = s.irqs := by
  have h := forgetDenied_frame (modQueue s part q fun u =>
    let l := u.pkts.filter fun j => j.seq != k.seq
    { u with pkts := l, qstat := if u.qstat = 1 && l.isEmpty then 0 else u.qstat,
             fails := if o = 0 then u.fails else u.fails ++ [(k.acc, o, a)] }) part o
  exact h
/-- What the rise of a partition's line does. -/
theorem raiseSquall_spec (s : State) (part : Nat) (c : Cause) : (getPart (raiseSquall s part c) part).squall = true ∧
    (raiseSquall s part c).cores = s.cores ∧ (raiseSquall s part c).clusters = s.clusters ∧ (raiseSquall s part c).dies = s.dies ∧
    ((getPart s part).squall = false → (getPart (raiseSquall s part c) part).cause = c.code) := by
  cases h : (getPart s part).squall with
  | true => simp [raiseSquall, h]
  | false =>
    have hw := fun u => writesOnly_foldl (summaryFor part c) (writesOnly_summaryFor part c) (getPart s part).nodes u
    simp only [raiseSquall, h, Bool.false_eq_true, if_false]
    refine ⟨?_, ?_, ?_, ?_, fun _ => ?_⟩
    · rw [getPart_post, journal, getPart_modPart_self]
      dsimp only
      rw [(hw _).getPart, getPart_modPart_self]
    · exact (hw _).cores
    · exact (hw _).clusters
    · exact (hw _).dies
    · rw [getPart_post, journal, getPart_modPart_self]
      dsimp only
      rw [(hw _).getPart, getPart_modPart_self]

end Sys2Proof.Machine
end

