-- ==== Sys2Proof/Laws/Exec.lean ====
section
/-! SUPPORT. `exec` at each constructor is its meaning: the equations of the dispatch, each true by `rfl`. -/
namespace Sys2Proof.Machine

@[simp] theorem exec_nop (c) (s : State) : exec (.nop c) s = execNop c s := rfl
@[simp] theorem exec_bra (c) (s : State) : exec (.bra c) s = execBra c s := rfl
@[simp] theorem exec_bri (c) (s : State) : exec (.bri c) s = execBri c s := rfl
@[simp] theorem exec_call (c) (s : State) : exec (.call c) s = execCall c s := rfl
@[simp] theorem exec_callInd (c) (s : State) : exec (.callInd c) s = execCallInd c s := rfl
@[simp] theorem exec_ret (c) (s : State) : exec (.ret c) s = execRet c s := rfl
@[simp] theorem exec_exit (c) (s : State) : exec (.exit c) s = execExit c s := rfl
@[simp] theorem exec_region (c) (s : State) : exec (.region c) s = execRegion c s := rfl
@[simp] theorem exec_trap (c) (s : State) : exec (.trap c) s = execTrap c s := rfl
@[simp] theorem exec_bkpt (c) (s : State) : exec (.bkpt c) s = execBkpt c s := rfl
@[simp] theorem exec_sleep (c) (s : State) : exec (.sleep c) s = execSleep c s := rfl
@[simp] theorem exec_yield (c) (s : State) : exec (.yield c) s = execYield c s := rfl
@[simp] theorem exec_rep (cnt) (xs) (ys) (zs) (ws) (s : State) : exec (.rep cnt xs ys zs ws) s = execRep cnt xs ys zs ws s := rfl
@[simp] theorem exec_mov (c) (ty) (s : State) : exec (.mov c ty) s = execMov c ty s := rfl
@[simp] theorem exec_sel (c) (ty) (s : State) : exec (.sel c ty) s = execSel c ty s := rfl
@[simp] theorem exec_iadd (c) (sat) (ty) (s : State) : exec (.iadd c sat ty) s = execIadd c sat ty s := rfl
@[simp] theorem exec_isub (c) (sat) (ty) (s : State) : exec (.isub c sat ty) s = execIsub c sat ty s := rfl
@[simp] theorem exec_ineg (c) (sat) (ty) (s : State) : exec (.ineg c sat ty) s = execIneg c sat ty s := rfl
@[simp] theorem exec_iabs (c) (sat) (ty) (s : State) : exec (.iabs c sat ty) s = execIabs c sat ty s := rfl
@[simp] theorem exec_imul (c) (ty) (s : State) : exec (.imul c ty) s = execImul c ty s := rfl
@[simp] theorem exec_imulh (c) (ty) (s : State) : exec (.imulh c ty) s = execImulh c ty s := rfl
@[simp] theorem exec_imad (c) (ty) (s : State) : exec (.imad c ty) s = execImad c ty s := rfl
@[simp] theorem exec_imin (c) (ty) (s : State) : exec (.imin c ty) s = execImin c ty s := rfl
@[simp] theorem exec_imax (c) (ty) (s : State) : exec (.imax c ty) s = execImax c ty s := rfl
@[simp] theorem exec_idp4 (c) (sat) (ty) (s : State) : exec (.idp4 c sat ty) s = execIdp4 c sat ty s := rfl
@[simp] theorem exec_lea (c) (sh) (ty) (s : State) : exec (.lea c sh ty) s = execLea c sh ty s := rfl
@[simp] theorem exec_iset (c) (cc) (ty) (s : State) : exec (.iset c cc ty) s = execIset c cc ty s := rfl
@[simp] theorem exec_bsel (c) (s : State) : exec (.bsel c) s = execBsel c s := rfl
@[simp] theorem exec_plop (c) (t) (s : State) : exec (.plop c t) s = execPlop c t s := rfl
@[simp] theorem exec_and (c) (ty) (s : State) : exec (.and c ty) s = execAnd c ty s := rfl
@[simp] theorem exec_or (c) (ty) (s : State) : exec (.or c ty) s = execOr c ty s := rfl
@[simp] theorem exec_xor (c) (ty) (s : State) : exec (.xor c ty) s = execXor c ty s := rfl
@[simp] theorem exec_andn (c) (ty) (s : State) : exec (.andn c ty) s = execAndn c ty s := rfl
@[simp] theorem exec_not (c) (ty) (s : State) : exec (.not c ty) s = execNot c ty s := rfl
@[simp] theorem exec_ltab (c) (ty) (s : State) : exec (.ltab c ty) s = execLtab c ty s := rfl
@[simp] theorem exec_shl (c) (clamp) (ty) (s : State) : exec (.shl c clamp ty) s = execShl c clamp ty s := rfl
@[simp] theorem exec_shr (c) (clamp) (ty) (s : State) : exec (.shr c clamp ty) s = execShr c clamp ty s := rfl
@[simp] theorem exec_sar (c) (clamp) (ty) (s : State) : exec (.sar c clamp ty) s = execSar c clamp ty s := rfl
@[simp] theorem exec_rol (c) (ty) (s : State) : exec (.rol c ty) s = execRol c ty s := rfl
@[simp] theorem exec_bfx (c) (signed) (ty) (s : State) : exec (.bfx c signed ty) s = execBfx c signed ty s := rfl
@[simp] theorem exec_bfi (c) (ty) (s : State) : exec (.bfi c ty) s = execBfi c ty s := rfl
@[simp] theorem exec_popc (c) (ty) (s : State) : exec (.popc c ty) s = execPopc c ty s := rfl
@[simp] theorem exec_clz (c) (ty) (s : State) : exec (.clz c ty) s = execClz c ty s := rfl
@[simp] theorem exec_ctz (c) (ty) (s : State) : exec (.ctz c ty) s = execCtz c ty s := rfl
@[simp] theorem exec_brev (c) (ty) (s : State) : exec (.brev c ty) s = execBrev c ty s := rfl
@[simp] theorem exec_fadd (c) (rm) (ty) (s : State) : exec (.fadd c rm ty) s = execFadd c rm ty s := rfl
@[simp] theorem exec_fsub (c) (rm) (ty) (s : State) : exec (.fsub c rm ty) s = execFsub c rm ty s := rfl
@[simp] theorem exec_fmul (c) (rm) (ty) (s : State) : exec (.fmul c rm ty) s = execFmul c rm ty s := rfl
@[simp] theorem exec_ffma (c) (rm) (ty) (s : State) : exec (.ffma c rm ty) s = execFfma c rm ty s := rfl
@[simp] theorem exec_fmin (c) (nan) (ty) (s : State) : exec (.fmin c nan ty) s = execFmin c nan ty s := rfl
@[simp] theorem exec_fmax (c) (nan) (ty) (s : State) : exec (.fmax c nan ty) s = execFmax c nan ty s := rfl
@[simp] theorem exec_fabs (c) (ty) (s : State) : exec (.fabs c ty) s = execFabs c ty s := rfl
@[simp] theorem exec_fneg (c) (ty) (s : State) : exec (.fneg c ty) s = execFneg c ty s := rfl
@[simp] theorem exec_fdiv (c) (rm) (ty) (s : State) : exec (.fdiv c rm ty) s = execFdiv c rm ty s := rfl
@[simp] theorem exec_fsqrt (c) (rm) (ty) (s : State) : exec (.fsqrt c rm ty) s = execFsqrt c rm ty s := rfl
@[simp] theorem exec_frcp (c) (rm) (ty) (s : State) : exec (.frcp c rm ty) s = execFrcp c rm ty s := rfl
@[simp] theorem exec_frsq (c) (rm) (ty) (s : State) : exec (.frsq c rm ty) s = execFrsq c rm ty s := rfl
@[simp] theorem exec_fset (c) (cc) (ty) (s : State) : exec (.fset c cc ty) s = execFset c cc ty s := rfl
@[simp] theorem exec_fclass (c) (ty) (s : State) : exec (.fclass c ty) s = execFclass c ty s := rfl
@[simp] theorem exec_frnd (c) (rm) (ty) (s : State) : exec (.frnd c rm ty) s = execFrnd c rm ty s := rfl
@[simp] theorem exec_fscl (c) (rm) (ty) (s : State) : exec (.fscl c rm ty) s = execFscl c rm ty s := rfl
@[simp] theorem exec_cvt (c) (rm) (ns) (ty) (s : State) : exec (.cvt c rm ns ty) s = execCvt c rm ns ty s := rfl
@[simp] theorem exec_cvts (c) (ns) (ty) (s : State) : exec (.cvts c ns ty) s = execCvts c ns ty s := rfl
@[simp] theorem exec_cvtp (c) (rm) (ns) (q) (ty) (s : State) : exec (.cvtp c rm ns q ty) s = execCvtp c rm ns q ty s := rfl
@[simp] theorem exec_cvtx (c) (k) (ty) (s : State) : exec (.cvtx c k ty) s = execCvtx c k ty s := rfl
@[simp] theorem exec_qb4 (c) (rm) (s : State) : exec (.qb4 c rm) s = execQb4 c rm s := rfl
@[simp] theorem exec_p2v (c) (s : State) : exec (.p2v c) s = execP2v c s := rfl
@[simp] theorem exec_v2p (c) (s : State) : exec (.v2p c) s = execV2p c s := rfl
@[simp] theorem exec_rds (c) (s : State) : exec (.rds c) s = execRds c s := rfl
@[simp] theorem exec_smov (c) (ty) (s : State) : exec (.smov c ty) s = execSmov c ty s := rfl
@[simp] theorem exec_vote (c) (k) (s : State) : exec (.vote c k) s = execVote c k s := rfl
@[simp] theorem exec_shfl (c) (k) (ty) (s : State) : exec (.shfl c k ty) s = execShfl c k ty s := rfl
@[simp] theorem exec_lred (c) (op) (rm) (ty) (s : State) : exec (.lred c op rm ty) s = execLred c op rm ty s := rfl
@[simp] theorem exec_lsync (c) (s : State) : exec (.lsync c) s = execLsync c s := rfl
@[simp] theorem exec_ld (c) (k) (ty) (s : State) : exec (.ld c k ty) s = execLd c k ty s := rfl
@[simp] theorem exec_ldl (c) (ty) (s : State) : exec (.ldl c ty) s = execLdl c ty s := rfl
@[simp] theorem exec_st (c) (ev) (ty) (s : State) : exec (.st c ev ty) s = execSt c ev ty s := rfl
@[simp] theorem exec_stl (c) (ty) (s : State) : exec (.stl c ty) s = execStl c ty s := rfl
@[simp] theorem exec_pf (c) (l1) (s : State) : exec (.pf c l1) s = execPf c l1 s := rfl
@[simp] theorem exec_atom (c) (op) (ord) (ty) (s : State) : exec (.atom c op ord ty) s = execAtom c op ord ty s := rfl
@[simp] theorem exec_atoml (c) (op) (ord) (ty) (s : State) : exec (.atoml c op ord ty) s = execAtoml c op ord ty s := rfl
@[simp] theorem exec_red (c) (op) (ord) (ty) (s : State) : exec (.red c op ord ty) s = execRed c op ord ty s := rfl
@[simp] theorem exec_fence (c) (k) (sc) (s : State) : exec (.fence c k sc) s = execFence c k sc s := rfl
@[simp] theorem exec_l1inv (c) (s : State) : exec (.l1inv c) s = execL1inv c s := rfl
@[simp] theorem exec_wdef (c) (s : State) : exec (.wdef c) s = execWdef c s := rfl
@[simp] theorem exec_wdrop (c) (s : State) : exec (.wdrop c) s = execWdrop c s := rfl
@[simp] theorem exec_wstat (c) (s : State) : exec (.wstat c) s = execWstat c s := rfl
@[simp] theorem exec_waitw (c) (cmp) (s : State) : exec (.waitw c cmp) s = execWaitw c cmp s := rfl
@[simp] theorem exec_tryw (c) (cmp) (s : State) : exec (.tryw c cmp) s = execTryw c cmp s := rfl
@[simp] theorem exec_bar (c) (level) (s : State) : exec (.bar c level) s = execBar c level s := rfl
@[simp] theorem exec_lock (c) (s : State) : exec (.lock c) s = execLock c s := rfl
@[simp] theorem exec_tlock (c) (s : State) : exec (.tlock c) s = execTlock c s := rfl
@[simp] theorem exec_unlock (c) (s : State) : exec (.unlock c) s = execUnlock c s := rfl
@[simp] theorem exec_heir (c) (k) (dflt) (s : State) : exec (.heir c k dflt) s = execHeir c k dflt s := rfl
@[simp] theorem exec_prom (c) (s : State) : exec (.prom c) s = execProm c s := rfl
@[simp] theorem exec_fulf (c) (brk) (s : State) : exec (.fulf c brk) s = execFulf c brk s := rfl
@[simp] theorem exec_pwait (c) (s : State) : exec (.pwait c) s = execPwait c s := rfl
@[simp] theorem exec_claim (c) (s : State) : exec (.claim c) s = execClaim c s := rfl
@[simp] theorem exec_rels (c) (s : State) : exec (.rels c) s = execRels c s := rfl
@[simp] theorem exec_holdq (c) (s : State) : exec (.holdq c) s = execHoldq c s := rfl
@[simp] theorem exec_step (c) (s : State) : exec (.step c) s = execStep c s := rfl
@[simp] theorem exec_lqry (c) (s : State) : exec (.lqry c) s = execLqry c s := rfl
@[simp] theorem exec_mqcf (c) (s : State) : exec (.mqcf c) s = execMqcf c s := rfl
@[simp] theorem exec_mqst (c) (s : State) : exec (.mqst c) s = execMqst c s := rfl
@[simp] theorem exec_mldw (c) (wf) (s : State) : exec (.mldw c wf) s = execMldw c wf s := rfl
@[simp] theorem exec_mpass (c) (wf) (af) (s : State) : exec (.mpass c wf af) s = execMpass c wf af s := rfl
@[simp] theorem exec_zclr (c) (s : State) : exec (.zclr c) s = execZclr c s := rfl
@[simp] theorem exec_zmov (c) (s : State) : exec (.zmov c) s = execZmov c s := rfl
@[simp] theorem exec_zst (c) (t) (loc) (rm) (ns) (ty) (s : State) : exec (.zst c t loc rm ns ty) s = execZst c t loc rm ns ty s := rfl
@[simp] theorem exec_zld (c) (t) (loc) (ty) (s : State) : exec (.zld c t loc ty) s = execZld c t loc ty s := rfl
@[simp] theorem exec_mstat (c) (s : State) : exec (.mstat c) s = execMstat c s := rfl
@[simp] theorem exec_mwait (c) (s : State) : exec (.mwait c) s = execMwait c s := rfl
@[simp] theorem exec_bop (c) (op) (rm) (ty) (s : State) : exec (.bop c op rm ty) s = execBop c op rm ty s := rfl
@[simp] theorem exec_redt (c) (rm) (ty) (s : State) : exec (.redt c rm ty) s = execRedt c rm ty s := rfl
@[simp] theorem exec_bcopy (c) (s : State) : exec (.bcopy c) s = execBcopy c s := rfl
@[simp] theorem exec_bfence (c) (s : State) : exec (.bfence c) s = execBfence c s := rfl
@[simp] theorem exec_bgid (c) (mcast) (s : State) : exec (.bgid c mcast) s = execBgid c mcast s := rfl
@[simp] theorem exec_bgfree (c) (s : State) : exec (.bgfree c) s = execBgfree c s := rfl
@[simp] theorem exec_launch (c) (s : State) : exec (.launch c) s = execLaunch c s := rfl
@[simp] theorem exec_rdclk (c) (s : State) : exec (.rdclk c) s = execRdclk c s := rfl
@[simp] theorem exec_groupPromotion (core) (slot) (s : State) : exec (.groupPromotion core slot) s = execGroupPromotion core slot s := rfl
@[simp] theorem exec_stallExpiry (core) (slot) (s : State) : exec (.stallExpiry core slot) s = execStallExpiry core slot s := rfl
@[simp] theorem exec_sleepEnd (core) (slot) (s : State) : exec (.sleepEnd core slot) s = execSleepEnd core slot s := rfl
@[simp] theorem exec_frontierRefill (core) (slot) (s : State) : exec (.frontierRefill core slot) s = execFrontierRefill core slot s := rfl
@[simp] theorem exec_loadReply (core) (slot) (req) (s : State) : exec (.loadReply core slot req) s = execLoadReply core slot req s := rfl
@[simp] theorem exec_storeBufferRelease (core) (blk) (s : State) : exec (.storeBufferRelease core blk) s = execStoreBufferRelease core blk s := rfl
@[simp] theorem exec_sliceOperation (t) (s : State) : exec (.sliceOperation t) s = execSliceOperation t s := rfl
@[simp] theorem exec_windowFill (core) (s : State) : exec (.windowFill core) s = execWindowFill core s := rfl
@[simp] theorem exec_windowFillFault (core) (s : State) : exec (.windowFillFault core) s = execWindowFillFault core s := rfl
@[simp] theorem exec_waitWordEvaluation (core) (slot) (lane) (s : State) : exec (.waitWordEvaluation core slot lane) s = execWaitWordEvaluation core slot lane s := rfl
@[simp] theorem exec_trywTimeout (core) (slot) (lane) (s : State) : exec (.trywTimeout core slot lane) s = execTrywTimeout core slot lane s := rfl
@[simp] theorem exec_estateWalk (die) (s : State) : exec (.estateWalk die) s = execEstateWalk die s := rfl
@[simp] theorem exec_successorConveyance (part) (node) (blk) (s : State) : exec (.successorConveyance part node blk) s = execSuccessorConveyance part node blk s := rfl
@[simp] theorem exec_hostHoldingStore (part) (pa) (state) (value) (s : State) : exec (.hostHoldingStore part pa state value) s = execHostHoldingStore part pa state value s := rfl
@[simp] theorem exec_neighbourLabelArrival (core) (s : State) : exec (.neighbourLabelArrival core) s = execNeighbourLabelArrival core s := rfl
@[simp] theorem exec_matrixGrant (cl) (s : State) : exec (.matrixGrant cl) s = execMatrixGrant cl s := rfl
@[simp] theorem exec_matrixFetchDone (cl) (s : State) : exec (.matrixFetchDone cl) s = execMatrixFetchDone cl s := rfl
@[simp] theorem exec_leaveGrant (die) (s : State) : exec (.leaveGrant die) s = execLeaveGrant die s := rfl
@[simp] theorem exec_matrixStreamDone (e) (s : State) : exec (.matrixStreamDone e) s = execMatrixStreamDone e s := rfl
@[simp] theorem exec_matrixPassComplete (cl) (s : State) : exec (.matrixPassComplete cl) s = execMatrixPassComplete cl s := rfl
@[simp] theorem exec_mldwLoadComplete (cl) (s : State) : exec (.mldwLoadComplete cl) s = execMldwLoadComplete cl s := rfl
@[simp] theorem exec_matrixFetchFault (cl) (s : State) : exec (.matrixFetchFault cl) s = execMatrixFetchFault cl s := rfl
@[simp] theorem exec_matrixEngineFreeze (cl) (s : State) : exec (.matrixEngineFreeze cl) s = execMatrixEngineFreeze cl s := rfl
@[simp] theorem exec_pageWalkComplete (die) (walk) (s : State) : exec (.pageWalkComplete die walk) s = execPageWalkComplete die walk s := rfl
@[simp] theorem exec_pageRequestResponse (die) (walk) (ok) (s : State) : exec (.pageRequestResponse die walk ok) s = execPageRequestResponse die walk ok s := rfl
@[simp] theorem exec_redtContributionArrival (part) (s : State) : exec (.redtContributionArrival part) s = execRedtContributionArrival part s := rfl
@[simp] theorem exec_redtNodeTimeout (part) (ident) (node) (s : State) : exec (.redtNodeTimeout part ident node) s = execRedtNodeTimeout part ident node s := rfl
@[simp] theorem exec_meshHop (pkt) (s : State) : exec (.meshHop pkt) s = execMeshHop pkt s := rfl
@[simp] theorem exec_escapeChannelMove (pkt) (s : State) : exec (.escapeChannelMove pkt) s = execEscapeChannelMove pkt s := rfl
@[simp] theorem exec_linkFailure (l) (s : State) : exec (.linkFailure l) s = execLinkFailure l s := rfl
@[simp] theorem exec_nakResend (pkt) (s : State) : exec (.nakResend pkt) s = execNakResend pkt s := rfl
@[simp] theorem exec_messageAccept (pkt) (s : State) : exec (.messageAccept pkt) s = execMessageAccept pkt s := rfl
@[simp] theorem exec_receivePortRead (core) (slot) (lane) (s : State) : exec (.receivePortRead core slot lane) s = execReceivePortRead core slot lane s := rfl
@[simp] theorem exec_blockPlacement (part) (die) (s : State) : exec (.blockPlacement part die) s = execBlockPlacement part die s := rfl
@[simp] theorem exec_activityPeriod (die) (s : State) : exec (.activityPeriod die) s = execActivityPeriod die s := rfl
@[simp] theorem exec_latticeStart (part) (node) (s : State) : exec (.latticeStart part node) s = execLatticeStart part node s := rfl
@[simp] theorem exec_tileEligible (part) (node) (tile) (s : State) : exec (.tileEligible part node tile) s = execTileEligible part node tile s := rfl
@[simp] theorem exec_downdraft (part) (node) (s : State) : exec (.downdraft part node) s = execDowndraft part node s := rfl
@[simp] theorem exec_updraft (part) (node) (s : State) : exec (.updraft part node) s = execUpdraft part node s := rfl
@[simp] theorem exec_tail (part) (q) (val) (s : State) : exec (.tail part q val) s = execTail part q val s := rfl
@[simp] theorem exec_qen (part) (q) (on) (s : State) : exec (.qen part q on) s = execQen part q on s := rfl
@[simp] theorem exec_registerWrite (part) (off) (val) (s : State) : exec (.registerWrite part off val) s = execRegisterWrite part off val s := rfl
@[simp] theorem exec_packetAccept (part) (q) (s : State) : exec (.packetAccept part q) s = execPacketAccept part q s := rfl
@[simp] theorem exec_launchPacket (part) (q) (s : State) : exec (.launchPacket part q) s = execLaunchPacket part q s := rfl
@[simp] theorem exec_coll (part) (q) (s : State) : exec (.coll part q) s = execColl part q s := rfl
@[simp] theorem exec_qfence (part) (q) (s : State) : exec (.qfence part q) s = execQfence part q s := rfl
@[simp] theorem exec_event (part) (q) (s : State) : exec (.event part q) s = execEvent part q s := rfl
@[simp] theorem exec_waitsem (part) (q) (s : State) : exec (.waitsem part q) s = execWaitsem part q s := rfl
@[simp] theorem exec_waitsemReread (part) (q) (s : State) : exec (.waitsemReread part q) s = execWaitsemReread part q s := rfl
@[simp] theorem exec_signal (part) (q) (s : State) : exec (.signal part q) s = execSignal part q s := rfl
@[simp] theorem exec_tlbi (part) (q) (s : State) : exec (.tlbi part q) s = execTlbi part q s := rfl
@[simp] theorem exec_nodeDone (part) (node) (s : State) : exec (.nodeDone part node) s = execNodeDone part node s := rfl
@[simp] theorem exec_preempt (part) (s : State) : exec (.preempt part) s = execPreempt part s := rfl
@[simp] theorem exec_resume (part) (s : State) : exec (.resume part) s = execResume part s := rfl
@[simp] theorem exec_vacate (part) (s : State) : exec (.vacate part) s = execVacate part s := rfl
@[simp] theorem exec_teardown (part) (s : State) : exec (.teardown part) s = execTeardown part s := rfl
@[simp] theorem exec_watchdogExpiry (core) (s : State) : exec (.watchdogExpiry core) s = execWatchdogExpiry core s := rfl
@[simp] theorem exec_squallRaise (part) (cause) (s : State) : exec (.squallRaise part cause) s = execSquallRaise part cause s := rfl
@[simp] theorem exec_squallArrival (part) (u) (s : State) : exec (.squallArrival part u) s = execSquallArrival part u s := rfl
@[simp] theorem exec_haltComplete (part) (s : State) : exec (.haltComplete part) s = execHaltComplete part s := rfl
@[simp] theorem exec_partitionResume (part) (s : State) : exec (.partitionResume part) s = execPartitionResume part s := rfl
@[simp] theorem exec_remoteFault (core) (s : State) : exec (.remoteFault core) s = execRemoteFault core s := rfl
@[simp] theorem exec_containment (core) (slot) (src) (pa) (s : State) : exec (.containment core slot src pa) s = execContainment core slot src pa s := rfl
@[simp] theorem exec_shadowCompare (core) (slot) (s : State) : exec (.shadowCompare core slot) s = execShadowCompare core slot s := rfl
@[simp] theorem exec_scrubPeriod (stack) (s : State) : exec (.scrubPeriod stack) s = execScrubPeriod stack s := rfl
@[simp] theorem exec_boundaryMove (m) (more) (s : State) : exec (.boundaryMove m more) s = execBoundaryMove m more s := rfl
@[simp] theorem exec_thermalThrottle (die) (s : State) : exec (.thermalThrottle die) s = execThermalThrottle die s := rfl
@[simp] theorem exec_thermalShutdown (s : State) : exec .thermalShutdown s = execThermalShutdown s := rfl
@[simp] theorem exec_frequencyChange (die) (f) (s : State) : exec (.frequencyChange die f) s = execFrequencyChange die f s := rfl
@[simp] theorem exec_moduleReset (s : State) : exec .moduleReset s = execModuleReset s := rfl
@[simp] theorem exec_getPartitionState (part) (s : State) : exec (.getPartitionState part) s = execGetPartitionState part s := rfl
@[simp] theorem exec_haltPartition (part) (s : State) : exec (.haltPartition part) s = execHaltPartition part s := rfl
@[simp] theorem exec_resumePartition (part) (s : State) : exec (.resumePartition part) s = execResumePartition part s := rfl
@[simp] theorem exec_resetPartition (part) (s : State) : exec (.resetPartition part) s = execResetPartition part s := rfl
@[simp] theorem exec_readJournal (part) (n) (s : State) : exec (.readJournal part n) s = execReadJournal part n s := rfl
@[simp] theorem exec_readErrorLog (die) (idx) (s : State) : exec (.readErrorLog die idx) s = execReadErrorLog die idx s := rfl
@[simp] theorem exec_readDeviceMemory (part) (pa) (len) (s : State) : exec (.readDeviceMemory part pa len) s = execReadDeviceMemory part pa len s := rfl
@[simp] theorem exec_setBudgets (die) (b) (val) (s : State) : exec (.setBudgets die b val) s = execSetBudgets die b val s := rfl
@[simp] theorem exec_moveBoundary (m) (more) (s : State) : exec (.moveBoundary m more) s = execMoveBoundary m more s := rfl
@[simp] theorem exec_poisonLine (line) (s : State) : exec (.poisonLine line) s = execPoisonLine line s := rfl
@[simp] theorem exec_bteDescriptorStart (part) (q) (s : State) : exec (.bteDescriptorStart part q) s = execBteDescriptorStart part q s := rfl
@[simp] theorem exec_bteCompletion (part) (q) (s : State) : exec (.bteCompletion part q) s = execBteCompletion part q s := rfl
@[simp] theorem exec_bteStop (part) (q) (s : State) : exec (.bteStop part q) s = execBteStop part q s := rfl
@[simp] theorem exec_rdmaWriteArrival (part) (comm) (src) (rkey) (va) (bytes) (immd) (s : State) : exec (.rdmaWriteArrival part comm src rkey va bytes immd) s = execRdmaWriteArrival part comm src rkey va bytes immd s := rfl
@[simp] theorem exec_rdmaReadRequest (part) (rkey) (va) (len) (s : State) : exec (.rdmaReadRequest part rkey va len) s = execRdmaReadRequest part rkey va len s := rfl
@[simp] theorem exec_rdmaAck (qp) (ok) (s : State) : exec (.rdmaAck qp ok) s = execRdmaAck qp ok s := rfl
@[simp] theorem exec_rdmaRetryTimeout (qp) (s : State) : exec (.rdmaRetryTimeout qp) s = execRdmaRetryTimeout qp s := rfl
@[simp] theorem exec_congestionNotification (qp) (s : State) : exec (.congestionNotification qp) s = execCongestionNotification qp s := rfl
@[simp] theorem exec_send (part) (q) (s : State) : exec (.send part q) s = execSend part q s := rfl
@[simp] theorem exec_recv (part) (q) (s : State) : exec (.recv part q) s = execRecv part q s := rfl
@[simp] theorem exec_rrs (part) (q) (s : State) : exec (.rrs part q) s = execRrs part q s := rfl
@[simp] theorem exec_copy (part) (q) (s : State) : exec (.copy part q) s = execCopy part q s := rfl
@[simp] theorem exec_wait (part) (q) (s : State) : exec (.wait part q) s = execWait part q s := rfl
@[simp] theorem exec_loop (part) (q) (s : State) : exec (.loop part q) s = execLoop part q s := rfl
@[simp] theorem exec_next (part) (q) (s : State) : exec (.next part q) s = execNext part q s := rfl
@[simp] theorem exec_hostMemoryAccess (part) (pa) (write) (len) (s : State) : exec (.hostMemoryAccess part pa write len) s = execHostMemoryAccess part pa write len s := rfl
@[simp] theorem exec_functionLevelReset (fn) (s : State) : exec (.functionLevelReset fn) s = execFunctionLevelReset fn s := rfl
@[simp] theorem exec_getVersion (port) (s : State) : exec (.getVersion port) s = execGetVersion port s := rfl
@[simp] theorem exec_getCapabilities (port) (s : State) : exec (.getCapabilities port) s = execGetCapabilities port s := rfl
@[simp] theorem exec_negotiateAlgorithms (port) (algs) (s : State) : exec (.negotiateAlgorithms port algs) s = execNegotiateAlgorithms port algs s := rfl
@[simp] theorem exec_getDigests (port) (s : State) : exec (.getDigests port) s = execGetDigests port s := rfl
@[simp] theorem exec_getCertificate (port) (slot) (s : State) : exec (.getCertificate port slot) s = execGetCertificate port slot s := rfl
@[simp] theorem exec_challenge (port) (slot) (s : State) : exec (.challenge port slot) s = execChallenge port slot s := rfl
@[simp] theorem exec_getMeasurements (port) (index) (s : State) : exec (.getMeasurements port index) s = execGetMeasurements port index s := rfl
@[simp] theorem exec_keyExchange (port) (s : State) : exec (.keyExchange port) s = execKeyExchange port s := rfl
@[simp] theorem exec_finish (port) (s : State) : exec (.finish port) s = execFinish port s := rfl
@[simp] theorem exec_endSession (port) (s : State) : exec (.endSession port) s = execEndSession port s := rfl
@[simp] theorem exec_invalidRdmaRequest (qp) (s : State) : exec (.invalidRdmaRequest qp) s = execInvalidRdmaRequest qp s := rfl
@[simp] theorem exec_rdmaReadResponse (qp) (bytes) (s : State) : exec (.rdmaReadResponse qp bytes) s = execRdmaReadResponse qp bytes s := rfl
@[simp] theorem exec_pfcPause (port) (prio) (on) (s : State) : exec (.pfcPause port prio on) s = execPfcPause port prio on s := rfl
@[simp] theorem exec_firmwareImageUpdate (image) (sigValid) (s : State) : exec (.firmwareImageUpdate image sigValid) s = execFirmwareImageUpdate image sigValid s := rfl
@[simp] theorem exec_certificateProvisioning (port) (slot) (chain) (s : State) : exec (.certificateProvisioning port slot chain) s = execCertificateProvisioning port slot chain s := rfl

end Sys2Proof.Machine
end

