-- ==== Sys2Proof/Laws/Issue.lean ====
section
/-! SUPPORT. What an issue leaves: its bookkeeping keeps everything but scheduling, and an instruction that is ready ends as its own part does. -/
namespace Sys2Proof.Machine

/-! ## The relation -/

theorem Kept.refl (s : State) : Kept s s := by simp [Kept]

theorem Kept.trans {s t u : State} (h : Kept s t) (k : Kept t u) : Kept s u := by
  obtain ⟨h1, h2, h3, h4, h5, h6, h7, h8, h9, h10, h11, h12, h13, h14, h15, h16, h17, h18, h19, h20, h21⟩ := h
  obtain ⟨k1, k2, k3, k4, k5, k6, k7, k8, k9, k10, k11, k12, k13, k14, k15, k16, k17, k18, k19, k20, k21⟩ := k
  exact ⟨fun c => (k1 c).trans (h1 c), fun p => (k2 p).trans (h2 p), k3.trans h3, k4.trans h4, k5.trans h5, k6.trans h6,
    k7.trans h7, k8.trans h8, k9.trans h9, k10.trans h10, k11.trans h11, k12.trans h12, k13.trans h13, k14.trans h14,
    k15.trans h15, k16.trans h16, k17.trans h17, k18.trans h18, k19.trans h19, k20.trans h20, k21.trans h21⟩

theorem kept_post (s : State) (l : List Instr) : Kept s (post s l) := by simp [Kept, post, getCore, getPart]
theorem kept_unhold (s : State) : Kept s (unhold s) := by simp [Kept, unhold, getCore, getPart]

/-- A change of one core that scheduling alone sees. -/
theorem kept_modCore (s : State) (c : Nat) (f : Core → Core) (h : coreView (f (getCore s c)) = coreView (getCore s c)) :
    Kept s (modCore s c f) := by
  refine ⟨fun d => ?_, fun p => rfl, rfl, rfl, rfl, rfl, rfl, rfl, rfl, rfl, rfl, rfl, rfl, rfl, rfl, rfl, rfl, rfl, rfl, rfl, rfl⟩
  rw [getCore_modCore]
  by_cases hd : d = c
  · subst hd; simp [h]
  · simp [hd]

theorem slotMod_view (l : List (Nat × Group)) (k : Nat) (f : Group → Group) (h : ∀ g, regsOf (f g) = regsOf g) :
    (slotMod l k f).map (fun p => (p.1, regsOf p.2)) = l.map fun p => (p.1, regsOf p.2) := by
  induction l with
  | nil => rfl
  | cons p t ih =>
    obtain ⟨j, w⟩ := p
    by_cases h1 : j = k <;> simp [slotMod, h1, h, ih]

/-- A change of one group that scheduling alone sees. -/
theorem kept_modGroup (s : State) (c k : Nat) (f : Group → Group) (h : ∀ g, regsOf (f g) = regsOf g) : Kept s (modGroup s c k f) := by
  cases hg : getGroup s c k with
  | none => rw [modGroup_none f hg]; exact Kept.refl s
  | some g =>
    rw [modGroup_some f hg]
    exact kept_modCore s c _ (by simp [coreView, slotMod_view _ _ _ h])

theorem kept_modNode_tiles (s : State) (p : Nat) (a : DWord) (f : Node → SMap TileSt) :
    Kept s (modNode s p a fun n => { n with tiles := f n }) := by
  refine ⟨fun c => rfl, fun q => ?_, rfl, rfl, rfl, rfl, rfl, rfl, rfl, rfl, rfl, rfl, rfl, rfl, rfl, rfl, rfl, rfl, rfl, rfl, rfl⟩
  rw [modNode, getPart_modPart]
  by_cases hq : q = p
  · subst hq
    simp only [if_true, partView, List.map_map]
    congr 1
    apply List.map_congr_left
    intro n _
    dsimp only [Function.comp]
    split <;> rfl
  · simp [hq]

/-- Cycles are scheduling's alone. -/
theorem coreView_passCycles (n : Nat) (k : Core) : coreView (passCycles n k) = coreView k := by
  simp [coreView, passCycles, regsOf, Function.comp_def]

theorem kept_tickCore (core n : Nat) (s : State) : Kept s (tickCore core n s) :=
  (kept_modCore s core _ (coreView_passCycles n _)).trans (kept_post _ _)

theorem kept_foldl_modGroup (core : Nat) (f : Nat × Group → Group → Group) (hf : ∀ p g, regsOf (f p g) = regsOf g)
    (l : List (Nat × Group)) (s : State) : Kept s (l.foldl (fun t p => modGroup t core p.1 (f p)) s) := by
  induction l generalizing s with
  | nil => exact Kept.refl s
  | cons p t ih => exact (kept_modGroup s core p.1 (f p) (hf p)).trans (ih _)

theorem kept_passOver (core slot : Nat) (s : State) : Kept s (passOver core slot s) := by
  unfold passOver
  exact (kept_foldl_modGroup core
    (fun p g => { g with yld := false, passed := if groupPassed s core p then g.passed + 1 else 0 })
    (fun _ _ => rfl) _ s).trans (kept_post _ _)

theorem kept_notEligible (x : Ctx) (s : State) : Kept s (notEligible x s) := by
  unfold notEligible
  dsimp only
  split
  · exact kept_modNode_tiles s _ _ _
  · exact Kept.refl s

theorem kept_chargeIssue (x : Ctx) (c : Enc) (keep : Bool) (s : State) : Kept s (chargeIssue x c keep s) := by
  unfold chargeIssue
  refine Kept.trans ?_ (kept_notEligible x _)
  refine Kept.trans ?_ (kept_unhold _)
  exact ((kept_passOver x.core x.slot s).trans (kept_tickCore x.core 1 _)).trans
    (kept_modGroup _ x.core x.slot (afterIssue c keep x.e.mask) (fun _ => rfl))

theorem kept_modFront (s : State) (c slot : Nat) (f : List Entry → List Entry) : Kept s (modFront s c slot f) := by
  unfold modFront
  have h := kept_modGroup s c slot (fun g => { g with front := tidyFront (f g.front), stall := g.stall + spillCost (f g.front) }) (fun _ => rfl)
  dsimp only
  split
  · split
    · exact h.trans (kept_post _ _)
    · exact h
  · exact h

/-- The bookkeeping of an issue that completes keeps all but scheduling. -/
theorem kept_complete (x : Ctx) (c : Enc) (ends newRgn : Bool) (item : Option Nat × Row64) (s : State) :
    Kept s (complete x c ends newRgn item s) :=
  (kept_chargeIssue x c _ s).trans (kept_modFront _ _ _ _)

theorem kept_replaceEntry (x : Ctx) (c : Enc) (l : List Entry) (s : State) : Kept s (replaceEntry x c l s) :=
  (kept_chargeIssue x c false s).trans (kept_modFront _ _ _ _)

theorem kept_blockEntry (x : Ctx) (c : Enc) (w : Wait) (s : State) : Kept s (blockEntry x c w s) := by
  unfold blockEntry
  dsimp only
  split
  · exact ((kept_chargeIssue x _ false s).trans (kept_modFront _ _ _ _)).trans (kept_modGroup _ _ _ _ fun _ => rfl)
  · exact (kept_chargeIssue x _ false s).trans (kept_modFront _ _ _ _)

theorem kept_holdEntry (x : Ctx) (s : State) : Kept s (holdEntry x s) := by simp [Kept, holdEntry, getCore, getPart]
theorem kept_holdGroup (x : Ctx) (s : State) : Kept s (holdGroup x s) := by simp [Kept, holdGroup, getCore, getPart]

/-! ## A ready issue -/

/-- An instruction that nothing holds back and whose result no queue supplies ends as its own part ends. -/
theorem issueState_ready {i : Instr} {c : Enc} {s : State} {x : Ctx} {v : Srcs} {left added : List LvEnt}
    (body : Ctx → Srcs → State → Res) (h : Ready i c s x v left added) :
    issueState i c body s = finish x i c s left added (body x v s) := by
  obtain ⟨h1, h2, h3, h4, h5, h6, ht⟩ := h
  unfold issueState
  simp only [h1, h2, h3, h4, h6, Bool.or_self, Bool.false_eq_true, if_false]
  cases he : endsNow i c x with
  | false => simp only [Bool.false_and, Bool.false_eq_true, if_false, ht]
  | true => simp only [h5 he, Bool.not_true, Bool.and_false, Bool.false_eq_true, if_false, ht]

end Sys2Proof.Machine
end

