-- ==== Sys2Proof/Laws/Frontier.lean ====
section
/-! SUPPORT. What putting a frontier in order keeps: every lane's IX and RGN (R121 to R123). -/
namespace Sys2Proof.Machine

theorem disjoint_lane {a b : Lanes} (h : a &&& b = 0) {k : Nat} (ha : a.getLsbD k = true) : b.getLsbD k = false := by
  have := congrArg (fun v : Lanes => v.getLsbD k) h
  simpa [ha] using this

theorem mergeTwo_mask (a b : Entry) : (mergeTwo a b).mask = a.mask ||| b.mask := rfl

theorem canMerge_pos {a b : Entry} (h : canMerge a b = true) : a.ix = b.ix ∧ a.rgn = b.rgn := by
  simp only [canMerge, Bool.and_eq_true, beq_iff_eq] at h
  exact ⟨h.1.1.1.1.1.1, h.1.1.1.1.1.2⟩

theorem laneAt_cons (a : Entry) (l : List Entry) (k : Nat) :
    laneAt (a :: l) k = if a.mask.getLsbD k = true then some (a.ix, a.rgn) else laneAt l k := by
  unfold laneAt entryOf
  rw [List.find?_cons]
  by_cases h : a.mask.getLsbD k = true
  · simp [h]
  · have h' : a.mask.getLsbD k = false := by simpa using h
    simp [h']

/-- An entry merged into a frontier with which it shares no lane. -/
theorem laneAt_mergeInto (e : Entry) (l : List Entry) (k : Nat) (hd : ∀ a ∈ l, e.mask &&& a.mask = 0) :
    laneAt (mergeInto e l) k = if e.mask.getLsbD k = true then some (e.ix, e.rgn) else laneAt l k := by
  induction l with
  | nil => simp [mergeInto, laneAt_cons]
  | cons a t ih =>
    by_cases hc : canMerge a e = true
    · obtain ⟨h1, h2⟩ := canMerge_pos hc
      simp only [mergeInto, hc, if_true, laneAt_cons, mergeTwo_mask, BitVec.getLsbD_or, Bool.or_eq_true]
      have e1 : (mergeTwo a e).ix = a.ix := rfl
      have e2 : (mergeTwo a e).rgn = a.rgn := rfl
      by_cases ha : a.mask.getLsbD k = true
      · by_cases he : e.mask.getLsbD k = true <;> simp [ha, he, e1, e2, h1, h2]
      · by_cases he : e.mask.getLsbD k = true <;> simp [ha, he, e1, e2, h1, h2]
    · have hc' : canMerge a e = false := by simpa using hc
      simp only [mergeInto, hc', Bool.false_eq_true, if_false, laneAt_cons, ih fun b hb => hd b (by simp [hb])]
      by_cases he : e.mask.getLsbD k = true
      · have : a.mask.getLsbD k = false := disjoint_lane (hd a (by simp)) he
        simp [he, this]
      · simp [he]

theorem disjoint_mergeInto (e m : Entry) (l : List Entry) (h1 : m.mask &&& e.mask = 0) (h2 : ∀ a ∈ l, m.mask &&& a.mask = 0) :
    ∀ a ∈ mergeInto e l, m.mask &&& a.mask = 0 := by
  induction l with
  | nil => intro a ha; simp only [mergeInto, List.mem_singleton] at ha; subst ha; exact h1
  | cons b t ih =>
    by_cases hc : canMerge b e = true
    · simp only [mergeInto, hc, if_true, List.mem_cons]
      rintro a (rfl | ha)
      · have h3 := h2 b (by simp)
        ext i hi
        have e1 := congrArg (fun v : Lanes => v[i]) h1
        have e2 := congrArg (fun v : Lanes => v[i]) h3
        simp only [BitVec.getElem_and, mergeTwo_mask, BitVec.getElem_or] at e1 e2 ⊢
        cases hm : m.mask[i] <;> simp_all
      · exact h2 a (by simp [ha])
    · intro a ha
      simp only [mergeInto, hc] at ha
      rcases List.mem_cons.1 ha with rfl | ha
      · exact h2 a (by simp)
      · exact ih (fun a ha => h2 a (by simp [ha])) a ha

/-- Merging keeps where every lane stands, when no two entries share one. -/
theorem laneAt_foldl_merge (l acc : List Entry) (k : Nat) (hl : Disjoint' l)
    (hc : ∀ a ∈ l, ∀ b ∈ acc, a.mask &&& b.mask = 0) :
    laneAt (l.foldl (fun acc e => mergeInto e acc) acc) k = if (laneAt l k).isSome then laneAt l k else laneAt acc k := by
  induction l generalizing acc with
  | nil => simp [laneAt, entryOf]
  | cons a t ih =>
    obtain ⟨h1, h2⟩ := List.pairwise_cons.1 hl
    rw [List.foldl_cons, ih (mergeInto a acc) h2]
    · rw [laneAt_mergeInto a acc k (fun b hb => hc a (by simp) b hb), laneAt_cons]
      by_cases ha : a.mask.getLsbD k = true
      · have : laneAt t k = none := by
          unfold laneAt
          have : entryOf t k = none := by
            unfold entryOf
            rw [List.find?_eq_none]
            intro b hb
            simp [disjoint_lane (h1 b hb) ha]
          simp [this]
        simp [ha, this]
      · simp [ha]
    · intro b hb c hc2
      have h3 : b.mask &&& a.mask = 0 := by rw [BitVec.and_comm]; exact h1 b hb
      exact disjoint_mergeInto a b acc h3 (fun d hd => hc b (by simp [hb]) d hd) c hc2

theorem laneAt_filter (l : List Entry) (k : Nat) : laneAt (l.filter fun e => e.mask != 0) k = laneAt l k := by
  induction l with
  | nil => rfl
  | cons a t ih =>
    by_cases h : a.mask = 0
    · have h0 : (a.mask != 0) = false := by simp [h]
      have h1 : a.mask.getLsbD k = false := by simp [h]
      rw [List.filter_cons, h0, laneAt_cons, h1]
      simpa using ih
    · have : (a.mask != 0) = true := by simpa using h
      simp only [List.filter_cons, this, if_true, laneAt_cons, ih]

theorem disjoint_filter {l : List Entry} (h : Disjoint' l) (f : Entry → Bool) : Disjoint' (l.filter f) := List.Pairwise.filter f h

theorem laneAt_mergeAll (l : List Entry) (k : Nat) (h : Disjoint' l) : laneAt (mergeAll l) k = laneAt l k := by
  unfold mergeAll
  rw [laneAt_foldl_merge _ _ k (disjoint_filter h _) (by simp), laneAt_filter]
  cases laneAt l k <;> simp [laneAt, entryOf]

theorem disjoint_mergeInto_self (e : Entry) (l : List Entry) (hl : Disjoint' l) (he : ∀ a ∈ l, e.mask &&& a.mask = 0) :
    Disjoint' (mergeInto e l) := by
  induction l with
  | nil => simp [mergeInto, Disjoint']
  | cons a t ih =>
    obtain ⟨h1, h2⟩ := List.pairwise_cons.1 hl
    by_cases hc : canMerge a e = true
    · simp only [mergeInto, hc, if_true, Disjoint', List.pairwise_cons]
      refine ⟨fun b hb => ?_, h2⟩
      have h3 := h1 b hb
      have h4 := he b (by simp [hb])
      ext i hi
      have e1 := congrArg (fun v : Lanes => v[i]) h3
      have e2 := congrArg (fun v : Lanes => v[i]) h4
      simp only [BitVec.getElem_and, mergeTwo_mask, BitVec.getElem_or] at e1 e2 ⊢
      cases hb2 : b.mask[i] <;> simp_all
    · simp only [mergeInto, hc, Disjoint']
      refine List.pairwise_cons.2 ⟨?_, ih h2 fun b hb => he b (by simp [hb])⟩
      refine disjoint_mergeInto e a t ?_ h1
      rw [BitVec.and_comm]
      exact he a (by simp)

theorem disjoint_mergeAll (l : List Entry) (h : Disjoint' l) : Disjoint' (mergeAll l) := by
  have key : ∀ (l acc : List Entry), Disjoint' l → Disjoint' acc → (∀ a ∈ l, ∀ b ∈ acc, a.mask &&& b.mask = 0) →
      Disjoint' (l.foldl (fun acc e => mergeInto e acc) acc) := by
    intro l
    induction l with
    | nil => intro acc _ h _; exact h
    | cons a t ih =>
      intro acc hl ha hc
      obtain ⟨h1, h2⟩ := List.pairwise_cons.1 hl
      refine ih _ h2 (disjoint_mergeInto_self a acc ha fun b hb => hc a (by simp) b hb) ?_
      intro b hb c hc2
      have h3 : b.mask &&& a.mask = 0 := by rw [BitVec.and_comm]; exact h1 b hb
      exact disjoint_mergeInto a b acc h3 (fun d hd => hc b (by simp [hb]) d hd) c hc2
  exact key _ _ (disjoint_filter h _) (by simp [Disjoint']) (by simp)

/-- A map over a frontier that changes no mask, IX or RGN. -/
theorem laneAt_map (l : List Entry) (f : Entry → Entry) (k : Nat)
    (h : ∀ e, (f e).mask = e.mask ∧ (f e).ix = e.ix ∧ (f e).rgn = e.rgn) : laneAt (l.map f) k = laneAt l k := by
  induction l with
  | nil => rfl
  | cons a t ih => simp only [List.map_cons, laneAt_cons, h a, ih]

theorem disjoint_map (l : List Entry) (f : Entry → Entry) (h : ∀ e, (f e).mask = e.mask) (hl : Disjoint' l) :
    Disjoint' (l.map f) := by
  unfold Disjoint' at *
  rw [List.pairwise_map]
  simpa [h] using hl

theorem laneAt_unyield (l : List Entry) (k : Nat) : laneAt (unyield l) k = laneAt l k := by
  unfold unyield
  exact laneAt_map l _ k fun e => by split <;> simp

theorem disjoint_unyield (l : List Entry) (h : Disjoint' l) : Disjoint' (unyield l) := by
  unfold unyield
  exact disjoint_map l _ (fun e => by split <;> simp) h

theorem laneAt_markSpilled (l : List Entry) (k : Nat) : laneAt (markSpilled l) k = laneAt l k := by
  unfold markSpilled
  exact laneAt_map l _ k fun e => by split <;> simp

/-- Putting a frontier in order keeps where every lane stands (R121 to R123). -/
theorem laneAt_tidyFront (l : List Entry) (k : Nat) (h : Disjoint' l) : laneAt (tidyFront l) k = laneAt l k := by
  unfold tidyFront mergeFront
  rw [laneAt_markSpilled, laneAt_mergeAll _ k (disjoint_unyield _ (disjoint_mergeAll l h)), laneAt_unyield, laneAt_mergeAll l k h]

/-- It keeps entries without a common lane. -/
theorem disjoint_tidyFront (l : List Entry) (h : Disjoint' l) : Disjoint' (tidyFront l) := by
  unfold tidyFront mergeFront markSpilled
  exact disjoint_map _ _ (fun e => by split <;> simp) (disjoint_mergeAll _ (disjoint_unyield _ (disjoint_mergeAll l h)))

end Sys2Proof.Machine
end

