-- ==== Sys2Proof/Laws/PerInstr.lean ====
section
/-! SUPPORT. The per-instruction family RoundTrip: the decoder reads back every well-formed instruction that the encoder writes, one
lemma per constructor. -/
namespace Sys2Proof.Laws

set_option linter.unusedSimpArgs false

theorem extract_append_hi {m n : Nat} (a : BitVec m) (b : BitVec n) : (a ++ b).extractLsb' n m = a := by
  ext i hi
  simp [BitVec.getElem_extractLsb', BitVec.getLsbD_append, hi]
theorem extract_append_lo {m n : Nat} (a : BitVec m) (b : BitVec n) : (a ++ b).extractLsb' 0 n = b := by
  ext i hi
  simp [BitVec.getLsbD_append, hi]
theorem extract_append_shift {m n : Nat} (a : BitVec m) (b : BitVec n) (k w : Nat) (h : n ≤ k) :
    (a ++ b).extractLsb' k w = a.extractLsb' (k - n) w := by
  ext i hi
  simp only [BitVec.getElem_extractLsb', BitVec.getLsbD_append]
  have : ¬ (k + i < n) := by omega
  simp [this, show k + i - n = k - n + i by omega]
theorem unpack_pack (f : Fields) : unpackFields (packFields f) = f := by
  obtain ⟨op, fn, ty, gn, gp, x, nw, y, z, stall, yld, chn, res, imm⟩ := f
  simp only [unpackFields, packFields]
  congr 1 <;> simp only [extract_append_shift, extract_append_lo, Nat.sub_self, Nat.reduceSub, Nat.reduceLeDiff, BitVec.extractLsb'_eq_self]

set_option maxRecDepth 8000 in
theorem opndOfBits_opndBits (o : Opnd) (h : opndWf o = true) : opndOfBits (opndBits o) = o := by
  cases o with
  | v n =>
    have := n.isLt
    simp [opndBits, opndNo, opndOfBits, Nat.mod_eq_of_lt (show n.val < 1024 by omega)]
  | nb d k =>
    have := k.isLt
    cases d <;> revert k <;> decide
  | latch n => revert n; decide
  | mq n => revert n; decide
  | s n => revert n; decide
  | zero => rfl
  | special k => cases k <;> rfl
  | imm => rfl
  | reserved raw =>
    simp only [opndWf, reservedRaw, Bool.or_eq_true, Bool.and_eq_true, decide_eq_true_eq] at h
    have hl := raw.isLt
    simp only [opndBits, opndNo, opndOfBits, BitVec.ofNat_toNat, BitVec.setWidth_eq]
    split
    · omega
    · repeat (first | split | rfl | omega)

theorem enc_fields (op fn ty : Nat) (c : Enc) (h : encWf c = true) : encOfFields (fieldsOfEnc op fn ty c) = c := by
  simp only [encWf, Bool.and_eq_true] at h
  obtain ⟨gn, gp, x, nw, y, z, stall, yld, chn, imm⟩ := c
  simp only [encOfFields, fieldsOfEnc, opndOfBits_opndBits _ h.1.1, opndOfBits_opndBits _ h.1.2, opndOfBits_opndBits _ h.2]
  cases gn <;> cases nw <;> cases yld <;> cases chn <;> simp [bit1]


theorem tyOfCode_tyCode (t : Ty) : tyOfCode (tyCode t) = some t := by cases t <;> rfl
theorem tyCode_lt (t : Ty) : tyCode t < 16 := by cases t <;> decide

/-- Decoding reads back an encoded instruction of the family's table. -/
def RoundTrip.Statement (i : Instr) : Prop := ∀ w, instrWf i = true → encode i = some w → decodeWord w = .ok i

/-- The fields that the encoder writes decode by the row of their OP, FN and TY. -/
theorem decode_fieldsOfEnc (i : Instr) (op fn ty : Nat) (c : Enc) (b : Builder) (hop : op < 256) (hfn : fn < 64) (hty : ty < 16)
    (h0 : op ≠ 15) (ha : opAssigned op = true) (hb : builderOf op fn = some b) (ht : (tyOfCode ty).bind (b c) = some i)
    (hc : encWf c = true) (ho : tyOk i = true) (hm : immOk i = true) : decodeFields (fieldsOfEnc op fn ty c) = .ok i := by
  have h1 : (fieldsOfEnc op fn ty c).op = BitVec.ofNat 8 op := rfl
  have h2 : (fieldsOfEnc op fn ty c).op.toNat = op := by simp [h1, Nat.mod_eq_of_lt hop]
  have h3 : (fieldsOfEnc op fn ty c).fn.toNat = fn := by simp [fieldsOfEnc, Nat.mod_eq_of_lt hfn]
  have h4 : (fieldsOfEnc op fn ty c).ty.toNat = ty := by simp [fieldsOfEnc, Nat.mod_eq_of_lt hty]
  have h5 : (fieldsOfEnc op fn ty c).op ≠ 0x0F := by
    intro h
    have := congrArg BitVec.toNat h
    rw [h2] at this
    exact h0 this
  have h6 : (fieldsOfEnc op fn ty c).res = 0 := rfl
  simp only [decodeFields, h5, if_false, h2, ha, Bool.not_true, Bool.false_eq_true, h3, hb, h4, enc_fields op fn ty c hc, ht, ho, h6, hm]
  simp

theorem roundTrip_of (i : Instr) (op fn ty : Nat) (c : Enc) (b : Builder) (he : encodeFields i = some (fieldsOfEnc op fn ty c))
    (hi : encOf i = some c) (hop : op < 256) (hfn : fn < 64) (hty : ty < 16)
    (h0 : op ≠ 15) (ha : opAssigned op = true) (hb : fnOk i = true → builderOf op fn = some b)
    (ht : (tyOfCode ty).bind (b c) = some i) : RoundTrip.Statement i := by
  intro w hw hen
  simp only [instrWf, hi, Bool.and_eq_true] at hw
  simp only [encode, he, Option.map_some, Option.some.injEq] at hen
  subst hen
  rw [decodeWord, unpack_pack]
  exact decode_fieldsOfEnc i op fn ty c b hop hfn hty h0 ha (hb hw.1.1.1) ht hw.2 hw.1.1.2 hw.1.2

theorem decodeRep_repFields (cnt : Fin 64) (xs ys zs ws : BitVec 4) :
    decodeFields (repFields (repImm cnt xs ys zs ws)) = .ok (.rep cnt xs ys zs ws) := by
  have e1 : (repImm cnt xs ys zs ws).extractLsb' 24 8 = 0 := by
    simp only [repImm, extract_append_shift, Nat.reduceSub, Nat.reduceLeDiff, BitVec.extractLsb'_eq_self]
  have e2 : (repImm cnt xs ys zs ws).extractLsb' 6 2 = 0 := by
    simp only [repImm, extract_append_shift, extract_append_lo, Nat.sub_self, Nat.reduceLeDiff]
  have e3 : (repImm cnt xs ys zs ws).extractLsb' 0 6 = BitVec.ofNat 6 cnt.val := by
    simp only [repImm, extract_append_lo]
  have e4 : (repImm cnt xs ys zs ws).extractLsb' 8 4 = xs := by
    simp only [repImm, extract_append_shift, extract_append_lo, Nat.sub_self, Nat.reduceSub, Nat.reduceLeDiff]
  have e5 : (repImm cnt xs ys zs ws).extractLsb' 12 4 = ys := by
    simp only [repImm, extract_append_shift, extract_append_lo, Nat.sub_self, Nat.reduceSub, Nat.reduceLeDiff]
  have e6 : (repImm cnt xs ys zs ws).extractLsb' 16 4 = zs := by
    simp only [repImm, extract_append_shift, extract_append_lo, Nat.sub_self, Nat.reduceSub, Nat.reduceLeDiff]
  have e7 : (repImm cnt xs ys zs ws).extractLsb' 20 4 = ws := by
    simp only [repImm, extract_append_shift, extract_append_lo, Nat.sub_self, Nat.reduceSub, Nat.reduceLeDiff]
  have e8 : (BitVec.ofNat 6 cnt.val).toFin = cnt := by
    apply Fin.ext
    simp
  have e0 : (repFields (repImm cnt xs ys zs ws)).imm = repImm cnt xs ys zs ws := rfl
  have o0 : (repFields (repImm cnt xs ys zs ws)).op = 0x0F := rfl
  simp only [decodeFields, o0, if_true, decodeRep, e0, e1, e2, e3, e4, e5, e6, e7, e8]
  simp [repFields]

/-! ## One lemma per constructor -/

theorem RoundTrip.nop (c : Enc) : RoundTrip.Statement (.nop c) := by
  exact roundTrip_of _ _ _ _ c _ rfl rfl (by dsimp only; decide) (by dsimp only; decide) (by dsimp only; decide) (by dsimp only; decide) rfl (fun _ => rfl) rfl

theorem RoundTrip.bra (c : Enc) : RoundTrip.Statement (.bra c) := by
  exact roundTrip_of _ _ _ _ c _ rfl rfl (by dsimp only; decide) (by dsimp only; decide) (by dsimp only; decide) (by dsimp only; decide) rfl (fun _ => rfl) rfl

theorem RoundTrip.bri (c : Enc) : RoundTrip.Statement (.bri c) := by
  exact roundTrip_of _ _ _ _ c _ rfl rfl (by dsimp only; decide) (by dsimp only; decide) (by dsimp only; decide) (by dsimp only; decide) rfl (fun _ => rfl) rfl

theorem RoundTrip.call (c : Enc) : RoundTrip.Statement (.call c) := by
  exact roundTrip_of _ _ _ _ c _ rfl rfl (by dsimp only; decide) (by dsimp only; decide) (by dsimp only; decide) (by dsimp only; decide) rfl (fun _ => rfl) rfl

theorem RoundTrip.callInd (c : Enc) : RoundTrip.Statement (.callInd c) := by
  exact roundTrip_of _ _ _ _ c _ rfl rfl (by dsimp only; decide) (by dsimp only; decide) (by dsimp only; decide) (by dsimp only; decide) rfl (fun _ => rfl) rfl

theorem RoundTrip.ret (c : Enc) : RoundTrip.Statement (.ret c) := by
  exact roundTrip_of _ _ _ _ c _ rfl rfl (by dsimp only; decide) (by dsimp only; decide) (by dsimp only; decide) (by dsimp only; decide) rfl (fun _ => rfl) rfl

theorem RoundTrip.exit (c : Enc) : RoundTrip.Statement (.exit c) := by
  exact roundTrip_of _ _ _ _ c _ rfl rfl (by dsimp only; decide) (by dsimp only; decide) (by dsimp only; decide) (by dsimp only; decide) rfl (fun _ => rfl) rfl

theorem RoundTrip.region (c : Enc) : RoundTrip.Statement (.region c) := by
  exact roundTrip_of _ _ _ _ c _ rfl rfl (by dsimp only; decide) (by dsimp only; decide) (by dsimp only; decide) (by dsimp only; decide) rfl (fun _ => rfl) rfl

theorem RoundTrip.trap (c : Enc) : RoundTrip.Statement (.trap c) := by
  exact roundTrip_of _ _ _ _ c _ rfl rfl (by dsimp only; decide) (by dsimp only; decide) (by dsimp only; decide) (by dsimp only; decide) rfl (fun _ => rfl) rfl

theorem RoundTrip.bkpt (c : Enc) : RoundTrip.Statement (.bkpt c) := by
  exact roundTrip_of _ _ _ _ c _ rfl rfl (by dsimp only; decide) (by dsimp only; decide) (by dsimp only; decide) (by dsimp only; decide) rfl (fun _ => rfl) rfl

theorem RoundTrip.sleep (c : Enc) : RoundTrip.Statement (.sleep c) := by
  exact roundTrip_of _ _ _ _ c _ rfl rfl (by dsimp only; decide) (by dsimp only; decide) (by dsimp only; decide) (by dsimp only; decide) rfl (fun _ => rfl) rfl

theorem RoundTrip.yield (c : Enc) : RoundTrip.Statement (.yield c) := by
  exact roundTrip_of _ _ _ _ c _ rfl rfl (by dsimp only; decide) (by dsimp only; decide) (by dsimp only; decide) (by dsimp only; decide) rfl (fun _ => rfl) rfl

theorem RoundTrip.rep (cnt : Fin 64) (xs : BitVec 4) (ys : BitVec 4) (zs : BitVec 4) (ws : BitVec 4) : RoundTrip.Statement (.rep cnt xs ys zs ws) := by
  intro w _ h
  simp only [encode, encodeFields, Option.map_some, Option.some.injEq] at h
  subst h
  rw [decodeWord, unpack_pack]
  exact decodeRep_repFields cnt xs ys zs ws

theorem RoundTrip.mov (c : Enc) (ty : Ty) : RoundTrip.Statement (.mov c ty) := by
  exact roundTrip_of _ _ _ (tyCode ty) c _ rfl rfl (by dsimp only; decide) (by dsimp only; decide) (tyCode_lt ty) (by dsimp only; decide) rfl (fun _ => rfl) (by rw [tyOfCode_tyCode]; rfl)

theorem RoundTrip.sel (c : Enc) (ty : Ty) : RoundTrip.Statement (.sel c ty) := by
  exact roundTrip_of _ _ _ (tyCode ty) c _ rfl rfl (by dsimp only; decide) (by dsimp only; decide) (tyCode_lt ty) (by dsimp only; decide) rfl (fun _ => rfl) (by rw [tyOfCode_tyCode]; rfl)

theorem RoundTrip.iadd (c : Enc) (sat : Bool) (ty : Ty) : RoundTrip.Statement (.iadd c sat ty) := by
  cases sat <;>
    exact roundTrip_of _ _ _ (tyCode ty) c _ rfl rfl (by dsimp only; decide) (by dsimp only; decide) (tyCode_lt ty) (by dsimp only; decide) rfl (fun _ => rfl) (by rw [tyOfCode_tyCode]; rfl)

theorem RoundTrip.isub (c : Enc) (sat : Bool) (ty : Ty) : RoundTrip.Statement (.isub c sat ty) := by
  cases sat <;>
    exact roundTrip_of _ _ _ (tyCode ty) c _ rfl rfl (by dsimp only; decide) (by dsimp only; decide) (tyCode_lt ty) (by dsimp only; decide) rfl (fun _ => rfl) (by rw [tyOfCode_tyCode]; rfl)

theorem RoundTrip.ineg (c : Enc) (sat : Bool) (ty : Ty) : RoundTrip.Statement (.ineg c sat ty) := by
  cases sat <;>
    exact roundTrip_of _ _ _ (tyCode ty) c _ rfl rfl (by dsimp only; decide) (by dsimp only; decide) (tyCode_lt ty) (by dsimp only; decide) rfl (fun _ => rfl) (by rw [tyOfCode_tyCode]; rfl)

theorem RoundTrip.iabs (c : Enc) (sat : Bool) (ty : Ty) : RoundTrip.Statement (.iabs c sat ty) := by
  cases sat <;>
    exact roundTrip_of _ _ _ (tyCode ty) c _ rfl rfl (by dsimp only; decide) (by dsimp only; decide) (tyCode_lt ty) (by dsimp only; decide) rfl (fun _ => rfl) (by rw [tyOfCode_tyCode]; rfl)

theorem RoundTrip.imul (c : Enc) (ty : Ty) : RoundTrip.Statement (.imul c ty) := by
  exact roundTrip_of _ _ _ (tyCode ty) c _ rfl rfl (by dsimp only; decide) (by dsimp only; decide) (tyCode_lt ty) (by dsimp only; decide) rfl (fun _ => rfl) (by rw [tyOfCode_tyCode]; rfl)

theorem RoundTrip.imulh (c : Enc) (ty : Ty) : RoundTrip.Statement (.imulh c ty) := by
  exact roundTrip_of _ _ _ (tyCode ty) c _ rfl rfl (by dsimp only; decide) (by dsimp only; decide) (tyCode_lt ty) (by dsimp only; decide) rfl (fun _ => rfl) (by rw [tyOfCode_tyCode]; rfl)

theorem RoundTrip.imad (c : Enc) (ty : Ty) : RoundTrip.Statement (.imad c ty) := by
  exact roundTrip_of _ _ _ (tyCode ty) c _ rfl rfl (by dsimp only; decide) (by dsimp only; decide) (tyCode_lt ty) (by dsimp only; decide) rfl (fun _ => rfl) (by rw [tyOfCode_tyCode]; rfl)

theorem RoundTrip.imin (c : Enc) (ty : Ty) : RoundTrip.Statement (.imin c ty) := by
  exact roundTrip_of _ _ _ (tyCode ty) c _ rfl rfl (by dsimp only; decide) (by dsimp only; decide) (tyCode_lt ty) (by dsimp only; decide) rfl (fun _ => rfl) (by rw [tyOfCode_tyCode]; rfl)

theorem RoundTrip.imax (c : Enc) (ty : Ty) : RoundTrip.Statement (.imax c ty) := by
  exact roundTrip_of _ _ _ (tyCode ty) c _ rfl rfl (by dsimp only; decide) (by dsimp only; decide) (tyCode_lt ty) (by dsimp only; decide) rfl (fun _ => rfl) (by rw [tyOfCode_tyCode]; rfl)

theorem RoundTrip.idp4 (c : Enc) (sat : Bool) (ty : Ty) : RoundTrip.Statement (.idp4 c sat ty) := by
  cases sat <;>
    exact roundTrip_of _ _ _ (tyCode ty) c _ rfl rfl (by dsimp only; decide) (by dsimp only; decide) (tyCode_lt ty) (by dsimp only; decide) rfl (fun _ => rfl) (by rw [tyOfCode_tyCode]; rfl)

theorem RoundTrip.lea (c : Enc) (sh : Fin 8) (ty : Ty) : RoundTrip.Statement (.lea c sh ty) := by
  fin_cases sh <;>
    exact roundTrip_of _ _ _ (tyCode ty) c _ rfl rfl (by dsimp only; decide) (by dsimp only; decide) (tyCode_lt ty) (by dsimp only; decide) rfl (fun _ => rfl) (by rw [tyOfCode_tyCode]; rfl)

theorem RoundTrip.iset (c : Enc) (cc : Icc) (ty : Ty) : RoundTrip.Statement (.iset c cc ty) := by
  cases cc <;>
    exact roundTrip_of _ _ _ (tyCode ty) c _ rfl rfl (by dsimp only; decide) (by dsimp only; decide) (tyCode_lt ty) (by dsimp only; decide) rfl (fun _ => rfl) (by rw [tyOfCode_tyCode]; rfl)

theorem RoundTrip.bsel (c : Enc) : RoundTrip.Statement (.bsel c) := by
  exact roundTrip_of _ _ _ _ c _ rfl rfl (by dsimp only; decide) (by dsimp only; decide) (by dsimp only; decide) (by dsimp only; decide) rfl (fun _ => rfl) rfl

theorem RoundTrip.plop (c : Enc) (t : Fin 16) : RoundTrip.Statement (.plop c t) := by
  fin_cases t <;>
    exact roundTrip_of _ _ _ _ c _ rfl rfl (by dsimp only; decide) (by dsimp only; decide) (by dsimp only; decide) (by dsimp only; decide) rfl (fun _ => rfl) rfl

theorem RoundTrip.and (c : Enc) (ty : Ty) : RoundTrip.Statement (.and c ty) := by
  exact roundTrip_of _ _ _ (tyCode ty) c _ rfl rfl (by dsimp only; decide) (by dsimp only; decide) (tyCode_lt ty) (by dsimp only; decide) rfl (fun _ => rfl) (by rw [tyOfCode_tyCode]; rfl)

theorem RoundTrip.or (c : Enc) (ty : Ty) : RoundTrip.Statement (.or c ty) := by
  exact roundTrip_of _ _ _ (tyCode ty) c _ rfl rfl (by dsimp only; decide) (by dsimp only; decide) (tyCode_lt ty) (by dsimp only; decide) rfl (fun _ => rfl) (by rw [tyOfCode_tyCode]; rfl)

theorem RoundTrip.xor (c : Enc) (ty : Ty) : RoundTrip.Statement (.xor c ty) := by
  exact roundTrip_of _ _ _ (tyCode ty) c _ rfl rfl (by dsimp only; decide) (by dsimp only; decide) (tyCode_lt ty) (by dsimp only; decide) rfl (fun _ => rfl) (by rw [tyOfCode_tyCode]; rfl)

theorem RoundTrip.andn (c : Enc) (ty : Ty) : RoundTrip.Statement (.andn c ty) := by
  exact roundTrip_of _ _ _ (tyCode ty) c _ rfl rfl (by dsimp only; decide) (by dsimp only; decide) (tyCode_lt ty) (by dsimp only; decide) rfl (fun _ => rfl) (by rw [tyOfCode_tyCode]; rfl)

theorem RoundTrip.not (c : Enc) (ty : Ty) : RoundTrip.Statement (.not c ty) := by
  exact roundTrip_of _ _ _ (tyCode ty) c _ rfl rfl (by dsimp only; decide) (by dsimp only; decide) (tyCode_lt ty) (by dsimp only; decide) rfl (fun _ => rfl) (by rw [tyOfCode_tyCode]; rfl)

theorem RoundTrip.ltab (c : Enc) (ty : Ty) : RoundTrip.Statement (.ltab c ty) := by
  exact roundTrip_of _ _ _ (tyCode ty) c _ rfl rfl (by dsimp only; decide) (by dsimp only; decide) (tyCode_lt ty) (by dsimp only; decide) rfl (fun _ => rfl) (by rw [tyOfCode_tyCode]; rfl)

theorem RoundTrip.shl (c : Enc) (clamp : Bool) (ty : Ty) : RoundTrip.Statement (.shl c clamp ty) := by
  cases clamp <;>
    exact roundTrip_of _ _ _ (tyCode ty) c _ rfl rfl (by dsimp only; decide) (by dsimp only; decide) (tyCode_lt ty) (by dsimp only; decide) rfl (fun _ => rfl) (by rw [tyOfCode_tyCode]; rfl)

theorem RoundTrip.shr (c : Enc) (clamp : Bool) (ty : Ty) : RoundTrip.Statement (.shr c clamp ty) := by
  cases clamp <;>
    exact roundTrip_of _ _ _ (tyCode ty) c _ rfl rfl (by dsimp only; decide) (by dsimp only; decide) (tyCode_lt ty) (by dsimp only; decide) rfl (fun _ => rfl) (by rw [tyOfCode_tyCode]; rfl)

theorem RoundTrip.sar (c : Enc) (clamp : Bool) (ty : Ty) : RoundTrip.Statement (.sar c clamp ty) := by
  cases clamp <;>
    exact roundTrip_of _ _ _ (tyCode ty) c _ rfl rfl (by dsimp only; decide) (by dsimp only; decide) (tyCode_lt ty) (by dsimp only; decide) rfl (fun _ => rfl) (by rw [tyOfCode_tyCode]; rfl)

theorem RoundTrip.rol (c : Enc) (ty : Ty) : RoundTrip.Statement (.rol c ty) := by
  exact roundTrip_of _ _ _ (tyCode ty) c _ rfl rfl (by dsimp only; decide) (by dsimp only; decide) (tyCode_lt ty) (by dsimp only; decide) rfl (fun _ => rfl) (by rw [tyOfCode_tyCode]; rfl)

theorem RoundTrip.bfx (c : Enc) (signed : Bool) (ty : Ty) : RoundTrip.Statement (.bfx c signed ty) := by
  cases signed <;>
    exact roundTrip_of _ _ _ (tyCode ty) c _ rfl rfl (by dsimp only; decide) (by dsimp only; decide) (tyCode_lt ty) (by dsimp only; decide) rfl (fun _ => rfl) (by rw [tyOfCode_tyCode]; rfl)

theorem RoundTrip.bfi (c : Enc) (ty : Ty) : RoundTrip.Statement (.bfi c ty) := by
  exact roundTrip_of _ _ _ (tyCode ty) c _ rfl rfl (by dsimp only; decide) (by dsimp only; decide) (tyCode_lt ty) (by dsimp only; decide) rfl (fun _ => rfl) (by rw [tyOfCode_tyCode]; rfl)

theorem RoundTrip.popc (c : Enc) (ty : Ty) : RoundTrip.Statement (.popc c ty) := by
  exact roundTrip_of _ _ _ (tyCode ty) c _ rfl rfl (by dsimp only; decide) (by dsimp only; decide) (tyCode_lt ty) (by dsimp only; decide) rfl (fun _ => rfl) (by rw [tyOfCode_tyCode]; rfl)

theorem RoundTrip.clz (c : Enc) (ty : Ty) : RoundTrip.Statement (.clz c ty) := by
  exact roundTrip_of _ _ _ (tyCode ty) c _ rfl rfl (by dsimp only; decide) (by dsimp only; decide) (tyCode_lt ty) (by dsimp only; decide) rfl (fun _ => rfl) (by rw [tyOfCode_tyCode]; rfl)

theorem RoundTrip.ctz (c : Enc) (ty : Ty) : RoundTrip.Statement (.ctz c ty) := by
  exact roundTrip_of _ _ _ (tyCode ty) c _ rfl rfl (by dsimp only; decide) (by dsimp only; decide) (tyCode_lt ty) (by dsimp only; decide) rfl (fun _ => rfl) (by rw [tyOfCode_tyCode]; rfl)

theorem RoundTrip.brev (c : Enc) (ty : Ty) : RoundTrip.Statement (.brev c ty) := by
  exact roundTrip_of _ _ _ (tyCode ty) c _ rfl rfl (by dsimp only; decide) (by dsimp only; decide) (tyCode_lt ty) (by dsimp only; decide) rfl (fun _ => rfl) (by rw [tyOfCode_tyCode]; rfl)

theorem RoundTrip.fadd (c : Enc) (rm : Rm) (ty : Ty) : RoundTrip.Statement (.fadd c rm ty) := by
  cases rm <;>
    exact roundTrip_of _ _ _ (tyCode ty) c _ rfl rfl (by dsimp only; decide) (by dsimp only; decide) (tyCode_lt ty) (by dsimp only; decide) rfl (fun _ => rfl) (by rw [tyOfCode_tyCode]; rfl)

theorem RoundTrip.fsub (c : Enc) (rm : Rm) (ty : Ty) : RoundTrip.Statement (.fsub c rm ty) := by
  cases rm <;>
    exact roundTrip_of _ _ _ (tyCode ty) c _ rfl rfl (by dsimp only; decide) (by dsimp only; decide) (tyCode_lt ty) (by dsimp only; decide) rfl (fun _ => rfl) (by rw [tyOfCode_tyCode]; rfl)

theorem RoundTrip.fmul (c : Enc) (rm : Rm) (ty : Ty) : RoundTrip.Statement (.fmul c rm ty) := by
  cases rm <;>
    exact roundTrip_of _ _ _ (tyCode ty) c _ rfl rfl (by dsimp only; decide) (by dsimp only; decide) (tyCode_lt ty) (by dsimp only; decide) rfl (fun _ => rfl) (by rw [tyOfCode_tyCode]; rfl)

theorem RoundTrip.ffma (c : Enc) (rm : Rm) (ty : Ty) : RoundTrip.Statement (.ffma c rm ty) := by
  cases rm <;>
    exact roundTrip_of _ _ _ (tyCode ty) c _ rfl rfl (by dsimp only; decide) (by dsimp only; decide) (tyCode_lt ty) (by dsimp only; decide) rfl (fun _ => rfl) (by rw [tyOfCode_tyCode]; rfl)

theorem RoundTrip.fmin (c : Enc) (nan : Bool) (ty : Ty) : RoundTrip.Statement (.fmin c nan ty) := by
  cases nan <;>
    exact roundTrip_of _ _ _ (tyCode ty) c _ rfl rfl (by dsimp only; decide) (by dsimp only; decide) (tyCode_lt ty) (by dsimp only; decide) rfl (fun _ => rfl) (by rw [tyOfCode_tyCode]; rfl)

theorem RoundTrip.fmax (c : Enc) (nan : Bool) (ty : Ty) : RoundTrip.Statement (.fmax c nan ty) := by
  cases nan <;>
    exact roundTrip_of _ _ _ (tyCode ty) c _ rfl rfl (by dsimp only; decide) (by dsimp only; decide) (tyCode_lt ty) (by dsimp only; decide) rfl (fun _ => rfl) (by rw [tyOfCode_tyCode]; rfl)

theorem RoundTrip.fabs (c : Enc) (ty : Ty) : RoundTrip.Statement (.fabs c ty) := by
  exact roundTrip_of _ _ _ (tyCode ty) c _ rfl rfl (by dsimp only; decide) (by dsimp only; decide) (tyCode_lt ty) (by dsimp only; decide) rfl (fun _ => rfl) (by rw [tyOfCode_tyCode]; rfl)

theorem RoundTrip.fneg (c : Enc) (ty : Ty) : RoundTrip.Statement (.fneg c ty) := by
  exact roundTrip_of _ _ _ (tyCode ty) c _ rfl rfl (by dsimp only; decide) (by dsimp only; decide) (tyCode_lt ty) (by dsimp only; decide) rfl (fun _ => rfl) (by rw [tyOfCode_tyCode]; rfl)

theorem RoundTrip.fdiv (c : Enc) (rm : Rm) (ty : Ty) : RoundTrip.Statement (.fdiv c rm ty) := by
  cases rm <;>
    exact roundTrip_of _ _ _ (tyCode ty) c _ rfl rfl (by dsimp only; decide) (by dsimp only; decide) (tyCode_lt ty) (by dsimp only; decide) rfl (fun _ => rfl) (by rw [tyOfCode_tyCode]; rfl)

theorem RoundTrip.fsqrt (c : Enc) (rm : Rm) (ty : Ty) : RoundTrip.Statement (.fsqrt c rm ty) := by
  cases rm <;>
    exact roundTrip_of _ _ _ (tyCode ty) c _ rfl rfl (by dsimp only; decide) (by dsimp only; decide) (tyCode_lt ty) (by dsimp only; decide) rfl (fun _ => rfl) (by rw [tyOfCode_tyCode]; rfl)

theorem RoundTrip.frcp (c : Enc) (rm : Rm) (ty : Ty) : RoundTrip.Statement (.frcp c rm ty) := by
  cases rm <;>
    exact roundTrip_of _ _ _ (tyCode ty) c _ rfl rfl (by dsimp only; decide) (by dsimp only; decide) (tyCode_lt ty) (by dsimp only; decide) rfl (fun _ => rfl) (by rw [tyOfCode_tyCode]; rfl)

theorem RoundTrip.frsq (c : Enc) (rm : Rm) (ty : Ty) : RoundTrip.Statement (.frsq c rm ty) := by
  cases rm <;>
    exact roundTrip_of _ _ _ (tyCode ty) c _ rfl rfl (by dsimp only; decide) (by dsimp only; decide) (tyCode_lt ty) (by dsimp only; decide) rfl (fun _ => rfl) (by rw [tyOfCode_tyCode]; rfl)

theorem RoundTrip.fset (c : Enc) (cc : Fcc) (ty : Ty) : RoundTrip.Statement (.fset c cc ty) := by
  cases cc <;>
    exact roundTrip_of _ _ _ (tyCode ty) c _ rfl rfl (by dsimp only; decide) (by dsimp only; decide) (tyCode_lt ty) (by dsimp only; decide) rfl (fun _ => rfl) (by rw [tyOfCode_tyCode]; rfl)

theorem RoundTrip.fclass (c : Enc) (ty : Ty) : RoundTrip.Statement (.fclass c ty) := by
  exact roundTrip_of _ _ _ (tyCode ty) c _ rfl rfl (by dsimp only; decide) (by dsimp only; decide) (tyCode_lt ty) (by dsimp only; decide) rfl (fun _ => rfl) (by rw [tyOfCode_tyCode]; rfl)

theorem RoundTrip.frnd (c : Enc) (rm : Rm) (ty : Ty) : RoundTrip.Statement (.frnd c rm ty) := by
  cases rm <;>
    exact roundTrip_of _ _ _ (tyCode ty) c _ rfl rfl (by dsimp only; decide) (by dsimp only; decide) (tyCode_lt ty) (by dsimp only; decide) rfl (fun _ => rfl) (by rw [tyOfCode_tyCode]; rfl)

theorem RoundTrip.fscl (c : Enc) (rm : Rm) (ty : Ty) : RoundTrip.Statement (.fscl c rm ty) := by
  cases rm <;>
    exact roundTrip_of _ _ _ (tyCode ty) c _ rfl rfl (by dsimp only; decide) (by dsimp only; decide) (tyCode_lt ty) (by dsimp only; decide) rfl (fun _ => rfl) (by rw [tyOfCode_tyCode]; rfl)

theorem RoundTrip.cvt (c : Enc) (rm : Rm) (ns : Bool) (ty : Ty) : RoundTrip.Statement (.cvt c rm ns ty) := by
  cases rm <;> cases ns
  · exact roundTrip_of _ 0x40 0 (tyCode ty) c (typed fun c tt => .cvt c .rne false tt) rfl rfl (by decide) (by decide) (tyCode_lt ty)
      (by decide) rfl (fun _ => rfl) (by rw [tyOfCode_tyCode]; rfl)
  · exact roundTrip_of _ 0x40 4 (tyCode ty) c (typed fun c tt => .cvt c .rne true tt) rfl rfl (by decide) (by decide) (tyCode_lt ty)
      (by decide) rfl (fun _ => rfl) (by rw [tyOfCode_tyCode]; rfl)
  · exact roundTrip_of _ 0x40 1 (tyCode ty) c (typed fun c tt => .cvt c .rtz false tt) rfl rfl (by decide) (by decide) (tyCode_lt ty)
      (by decide) rfl (fun _ => rfl) (by rw [tyOfCode_tyCode]; rfl)
  · exact roundTrip_of _ 0x40 5 (tyCode ty) c (typed fun c tt => .cvt c .rtz true tt) rfl rfl (by decide) (by decide) (tyCode_lt ty)
      (by decide) rfl (fun _ => rfl) (by rw [tyOfCode_tyCode]; rfl)
  · exact roundTrip_of _ 0x40 2 (tyCode ty) c (typed fun c tt => .cvt c .rdn false tt) rfl rfl (by decide) (by decide) (tyCode_lt ty)
      (by decide) rfl (fun _ => rfl) (by rw [tyOfCode_tyCode]; rfl)
  · exact roundTrip_of _ 0x40 6 (tyCode ty) c (typed fun c tt => .cvt c .rdn true tt) rfl rfl (by decide) (by decide) (tyCode_lt ty)
      (by decide) rfl (fun _ => rfl) (by rw [tyOfCode_tyCode]; rfl)
  · exact roundTrip_of _ 0x40 3 (tyCode ty) c (typed fun c tt => .cvt c .rup false tt) rfl rfl (by decide) (by decide) (tyCode_lt ty)
      (by decide) rfl (fun _ => rfl) (by rw [tyOfCode_tyCode]; rfl)
  · exact roundTrip_of _ 0x40 7 (tyCode ty) c (typed fun c tt => .cvt c .rup true tt) rfl rfl (by decide) (by decide) (tyCode_lt ty)
      (by decide) rfl (fun _ => rfl) (by rw [tyOfCode_tyCode]; rfl)

theorem RoundTrip.cvts (c : Enc) (ns : Bool) (ty : Ty) : RoundTrip.Statement (.cvts c ns ty) := by
  cases ns <;>
    exact roundTrip_of _ _ _ (tyCode ty) c _ rfl rfl (by dsimp only; decide) (by dsimp only; decide) (tyCode_lt ty) (by dsimp only; decide) rfl (fun _ => rfl) (by rw [tyOfCode_tyCode]; rfl)

theorem RoundTrip.cvtp (c : Enc) (rm : Rm) (ns : Bool) (q : Fin 8) (ty : Ty) : RoundTrip.Statement (.cvtp c rm ns q ty) := by
  cases rm <;> cases ns <;> fin_cases q <;>
    exact roundTrip_of _ _ _ (tyCode ty) c _ rfl rfl (by dsimp only; decide) (by dsimp only; decide) (tyCode_lt ty) (by dsimp only; decide) rfl (fun _ => rfl) (by rw [tyOfCode_tyCode]; first | rfl | (simp [typed, rmCode, bnat, rmOfCode]; done) | (simp [typed, rmCode, bnat, rmOfCode]; rfl))

theorem RoundTrip.cvtx (c : Enc) (k : Fin 8) (ty : Ty) : RoundTrip.Statement (.cvtx c k ty) := by
  fin_cases k <;>
    exact roundTrip_of _ _ _ (tyCode ty) c _ rfl rfl (by dsimp only; decide) (by dsimp only; decide) (tyCode_lt ty) (by dsimp only; decide) rfl (fun _ => rfl) (by rw [tyOfCode_tyCode]; rfl)

theorem RoundTrip.qb4 (c : Enc) (rm : Rm) : RoundTrip.Statement (.qb4 c rm) := by
  cases rm <;>
    exact roundTrip_of _ _ _ _ c _ rfl rfl (by dsimp only; decide) (by dsimp only; decide) (by dsimp only; decide) (by dsimp only; decide) rfl (fun _ => rfl) rfl

theorem RoundTrip.p2v (c : Enc) : RoundTrip.Statement (.p2v c) := by
  exact roundTrip_of _ _ _ _ c _ rfl rfl (by dsimp only; decide) (by dsimp only; decide) (by dsimp only; decide) (by dsimp only; decide) rfl (fun _ => rfl) rfl

theorem RoundTrip.v2p (c : Enc) : RoundTrip.Statement (.v2p c) := by
  exact roundTrip_of _ _ _ _ c _ rfl rfl (by dsimp only; decide) (by dsimp only; decide) (by dsimp only; decide) (by dsimp only; decide) rfl (fun _ => rfl) rfl

theorem RoundTrip.rds (c : Enc) : RoundTrip.Statement (.rds c) := by
  exact roundTrip_of _ _ _ _ c _ rfl rfl (by dsimp only; decide) (by dsimp only; decide) (by dsimp only; decide) (by dsimp only; decide) rfl (fun _ => rfl) rfl

theorem RoundTrip.smov (c : Enc) (ty : Ty) : RoundTrip.Statement (.smov c ty) := by
  exact roundTrip_of _ _ _ (tyCode ty) c _ rfl rfl (by dsimp only; decide) (by dsimp only; decide) (tyCode_lt ty) (by dsimp only; decide) rfl (fun _ => rfl) (by rw [tyOfCode_tyCode]; rfl)

theorem RoundTrip.vote (c : Enc) (k : VoteKind) : RoundTrip.Statement (.vote c k) := by
  cases k <;>
    exact roundTrip_of _ _ _ _ c _ rfl rfl (by dsimp only; decide) (by dsimp only; decide) (by dsimp only; decide) (by dsimp only; decide) rfl (fun _ => rfl) rfl

theorem RoundTrip.shfl (c : Enc) (k : ShflKind) (ty : Ty) : RoundTrip.Statement (.shfl c k ty) := by
  cases k <;>
    exact roundTrip_of _ _ _ (tyCode ty) c _ rfl rfl (by dsimp only; decide) (by dsimp only; decide) (tyCode_lt ty) (by dsimp only; decide) rfl (fun _ => rfl) (by rw [tyOfCode_tyCode]; rfl)

theorem RoundTrip.lred (c : Enc) (op : LredOp) (rm : Rm) (ty : Ty) : RoundTrip.Statement (.lred c op rm ty) := by
  cases op <;> cases rm
  · exact roundTrip_of _ 0x56 0 (tyCode ty) c (typed fun c tt => .lred c .add .rne tt) rfl rfl (by decide) (by decide) (tyCode_lt ty)
      (by decide) rfl (fun _ => rfl) (by rw [tyOfCode_tyCode]; rfl)
  · exact roundTrip_of _ 0x56 8 (tyCode ty) c (typed fun c tt => .lred c .add .rtz tt) rfl rfl (by decide) (by decide) (tyCode_lt ty)
      (by decide) rfl (fun _ => rfl) (by rw [tyOfCode_tyCode]; rfl)
  · exact roundTrip_of _ 0x56 16 (tyCode ty) c (typed fun c tt => .lred c .add .rdn tt) rfl rfl (by decide) (by decide) (tyCode_lt ty)
      (by decide) rfl (fun _ => rfl) (by rw [tyOfCode_tyCode]; rfl)
  · exact roundTrip_of _ 0x56 24 (tyCode ty) c (typed fun c tt => .lred c .add .rup tt) rfl rfl (by decide) (by decide) (tyCode_lt ty)
      (by decide) rfl (fun _ => rfl) (by rw [tyOfCode_tyCode]; rfl)
  · exact roundTrip_of _ 0x56 1 (tyCode ty) c (typed fun c tt => .lred c .min .rne tt) rfl rfl (by decide) (by decide) (tyCode_lt ty)
      (by decide) rfl (fun _ => rfl) (by rw [tyOfCode_tyCode]; rfl)
  · exact roundTrip_of _ 0x56 9 (tyCode ty) c (typed fun c tt => .lred c .min .rtz tt) rfl rfl (by decide) (by decide) (tyCode_lt ty)
      (by decide) rfl (fun _ => rfl) (by rw [tyOfCode_tyCode]; rfl)
  · exact roundTrip_of _ 0x56 17 (tyCode ty) c (typed fun c tt => .lred c .min .rdn tt) rfl rfl (by decide) (by decide) (tyCode_lt ty)
      (by decide) rfl (fun _ => rfl) (by rw [tyOfCode_tyCode]; rfl)
  · exact roundTrip_of _ 0x56 25 (tyCode ty) c (typed fun c tt => .lred c .min .rup tt) rfl rfl (by decide) (by decide) (tyCode_lt ty)
      (by decide) rfl (fun _ => rfl) (by rw [tyOfCode_tyCode]; rfl)
  · exact roundTrip_of _ 0x56 2 (tyCode ty) c (typed fun c tt => .lred c .max .rne tt) rfl rfl (by decide) (by decide) (tyCode_lt ty)
      (by decide) rfl (fun _ => rfl) (by rw [tyOfCode_tyCode]; rfl)
  · exact roundTrip_of _ 0x56 10 (tyCode ty) c (typed fun c tt => .lred c .max .rtz tt) rfl rfl (by decide) (by decide) (tyCode_lt ty)
      (by decide) rfl (fun _ => rfl) (by rw [tyOfCode_tyCode]; rfl)
  · exact roundTrip_of _ 0x56 18 (tyCode ty) c (typed fun c tt => .lred c .max .rdn tt) rfl rfl (by decide) (by decide) (tyCode_lt ty)
      (by decide) rfl (fun _ => rfl) (by rw [tyOfCode_tyCode]; rfl)
  · exact roundTrip_of _ 0x56 26 (tyCode ty) c (typed fun c tt => .lred c .max .rup tt) rfl rfl (by decide) (by decide) (tyCode_lt ty)
      (by decide) rfl (fun _ => rfl) (by rw [tyOfCode_tyCode]; rfl)
  · exact roundTrip_of _ 0x56 3 (tyCode ty) c (typed fun c tt => .lred c .and .rne tt) rfl rfl (by decide) (by decide) (tyCode_lt ty)
      (by decide) rfl (fun _ => rfl) (by rw [tyOfCode_tyCode]; rfl)
  · exact roundTrip_of _ 0x56 11 (tyCode ty) c (typed fun c tt => .lred c .and .rtz tt) rfl rfl (by decide) (by decide) (tyCode_lt ty)
      (by decide) rfl (fun _ => rfl) (by rw [tyOfCode_tyCode]; rfl)
  · exact roundTrip_of _ 0x56 19 (tyCode ty) c (typed fun c tt => .lred c .and .rdn tt) rfl rfl (by decide) (by decide) (tyCode_lt ty)
      (by decide) rfl (fun _ => rfl) (by rw [tyOfCode_tyCode]; rfl)
  · exact roundTrip_of _ 0x56 27 (tyCode ty) c (typed fun c tt => .lred c .and .rup tt) rfl rfl (by decide) (by decide) (tyCode_lt ty)
      (by decide) rfl (fun _ => rfl) (by rw [tyOfCode_tyCode]; rfl)
  · exact roundTrip_of _ 0x56 4 (tyCode ty) c (typed fun c tt => .lred c .or .rne tt) rfl rfl (by decide) (by decide) (tyCode_lt ty)
      (by decide) rfl (fun _ => rfl) (by rw [tyOfCode_tyCode]; rfl)
  · exact roundTrip_of _ 0x56 12 (tyCode ty) c (typed fun c tt => .lred c .or .rtz tt) rfl rfl (by decide) (by decide) (tyCode_lt ty)
      (by decide) rfl (fun _ => rfl) (by rw [tyOfCode_tyCode]; rfl)
  · exact roundTrip_of _ 0x56 20 (tyCode ty) c (typed fun c tt => .lred c .or .rdn tt) rfl rfl (by decide) (by decide) (tyCode_lt ty)
      (by decide) rfl (fun _ => rfl) (by rw [tyOfCode_tyCode]; rfl)
  · exact roundTrip_of _ 0x56 28 (tyCode ty) c (typed fun c tt => .lred c .or .rup tt) rfl rfl (by decide) (by decide) (tyCode_lt ty)
      (by decide) rfl (fun _ => rfl) (by rw [tyOfCode_tyCode]; rfl)
  · exact roundTrip_of _ 0x56 5 (tyCode ty) c (typed fun c tt => .lred c .xor .rne tt) rfl rfl (by decide) (by decide) (tyCode_lt ty)
      (by decide) rfl (fun _ => rfl) (by rw [tyOfCode_tyCode]; rfl)
  · exact roundTrip_of _ 0x56 13 (tyCode ty) c (typed fun c tt => .lred c .xor .rtz tt) rfl rfl (by decide) (by decide) (tyCode_lt ty)
      (by decide) rfl (fun _ => rfl) (by rw [tyOfCode_tyCode]; rfl)
  · exact roundTrip_of _ 0x56 21 (tyCode ty) c (typed fun c tt => .lred c .xor .rdn tt) rfl rfl (by decide) (by decide) (tyCode_lt ty)
      (by decide) rfl (fun _ => rfl) (by rw [tyOfCode_tyCode]; rfl)
  · exact roundTrip_of _ 0x56 29 (tyCode ty) c (typed fun c tt => .lred c .xor .rup tt) rfl rfl (by decide) (by decide) (tyCode_lt ty)
      (by decide) rfl (fun _ => rfl) (by rw [tyOfCode_tyCode]; rfl)

theorem RoundTrip.lsync (c : Enc) : RoundTrip.Statement (.lsync c) := by
  exact roundTrip_of _ _ _ _ c _ rfl rfl (by dsimp only; decide) (by dsimp only; decide) (by dsimp only; decide) (by dsimp only; decide) rfl (fun _ => rfl) rfl

theorem RoundTrip.ld (c : Enc) (k : LdKind) (ty : Ty) : RoundTrip.Statement (.ld c k ty) := by
  cases k <;>
    exact roundTrip_of _ _ _ (tyCode ty) c _ rfl rfl (by dsimp only; decide) (by dsimp only; decide) (tyCode_lt ty) (by dsimp only; decide) rfl (fun _ => rfl) (by rw [tyOfCode_tyCode]; rfl)

theorem RoundTrip.ldl (c : Enc) (ty : Ty) : RoundTrip.Statement (.ldl c ty) := by
  exact roundTrip_of _ _ _ (tyCode ty) c _ rfl rfl (by dsimp only; decide) (by dsimp only; decide) (tyCode_lt ty) (by dsimp only; decide) rfl (fun _ => rfl) (by rw [tyOfCode_tyCode]; rfl)

theorem RoundTrip.st (c : Enc) (ev : Bool) (ty : Ty) : RoundTrip.Statement (.st c ev ty) := by
  cases ev <;>
    exact roundTrip_of _ _ _ (tyCode ty) c _ rfl rfl (by dsimp only; decide) (by dsimp only; decide) (tyCode_lt ty) (by dsimp only; decide) rfl (fun _ => rfl) (by rw [tyOfCode_tyCode]; rfl)

theorem RoundTrip.stl (c : Enc) (ty : Ty) : RoundTrip.Statement (.stl c ty) := by
  exact roundTrip_of _ _ _ (tyCode ty) c _ rfl rfl (by dsimp only; decide) (by dsimp only; decide) (tyCode_lt ty) (by dsimp only; decide) rfl (fun _ => rfl) (by rw [tyOfCode_tyCode]; rfl)

theorem RoundTrip.pf (c : Enc) (l1 : Bool) : RoundTrip.Statement (.pf c l1) := by
  cases l1 <;>
    exact roundTrip_of _ _ _ _ c _ rfl rfl (by dsimp only; decide) (by dsimp only; decide) (by dsimp only; decide) (by dsimp only; decide) rfl (fun _ => rfl) rfl

theorem RoundTrip.atom (c : Enc) (op : Aop) (ord : Ord) (ty : Ty) : RoundTrip.Statement (.atom c op ord ty) := by
  cases op <;> cases ord
  · exact roundTrip_of _ 0x65 0 (tyCode ty) c (typed fun c tt => .atom c .add .rlx tt) rfl rfl (by decide) (by decide) (tyCode_lt ty)
      (by decide) rfl (fun _ => rfl) (by rw [tyOfCode_tyCode]; rfl)
  · exact roundTrip_of _ 0x65 16 (tyCode ty) c (typed fun c tt => .atom c .add .acq tt) rfl rfl (by decide) (by decide) (tyCode_lt ty)
      (by decide) rfl (fun _ => rfl) (by rw [tyOfCode_tyCode]; rfl)
  · exact roundTrip_of _ 0x65 32 (tyCode ty) c (typed fun c tt => .atom c .add .rel tt) rfl rfl (by decide) (by decide) (tyCode_lt ty)
      (by decide) rfl (fun _ => rfl) (by rw [tyOfCode_tyCode]; rfl)
  · exact roundTrip_of _ 0x65 48 (tyCode ty) c (typed fun c tt => .atom c .add .ar tt) rfl rfl (by decide) (by decide) (tyCode_lt ty)
      (by decide) rfl (fun _ => rfl) (by rw [tyOfCode_tyCode]; rfl)
  · exact roundTrip_of _ 0x65 1 (tyCode ty) c (typed fun c tt => .atom c .min .rlx tt) rfl rfl (by decide) (by decide) (tyCode_lt ty)
      (by decide) rfl (fun _ => rfl) (by rw [tyOfCode_tyCode]; rfl)
  · exact roundTrip_of _ 0x65 17 (tyCode ty) c (typed fun c tt => .atom c .min .acq tt) rfl rfl (by decide) (by decide) (tyCode_lt ty)
      (by decide) rfl (fun _ => rfl) (by rw [tyOfCode_tyCode]; rfl)
  · exact roundTrip_of _ 0x65 33 (tyCode ty) c (typed fun c tt => .atom c .min .rel tt) rfl rfl (by decide) (by decide) (tyCode_lt ty)
      (by decide) rfl (fun _ => rfl) (by rw [tyOfCode_tyCode]; rfl)
  · exact roundTrip_of _ 0x65 49 (tyCode ty) c (typed fun c tt => .atom c .min .ar tt) rfl rfl (by decide) (by decide) (tyCode_lt ty)
      (by decide) rfl (fun _ => rfl) (by rw [tyOfCode_tyCode]; rfl)
  · exact roundTrip_of _ 0x65 2 (tyCode ty) c (typed fun c tt => .atom c .max .rlx tt) rfl rfl (by decide) (by decide) (tyCode_lt ty)
      (by decide) rfl (fun _ => rfl) (by rw [tyOfCode_tyCode]; rfl)
  · exact roundTrip_of _ 0x65 18 (tyCode ty) c (typed fun c tt => .atom c .max .acq tt) rfl rfl (by decide) (by decide) (tyCode_lt ty)
      (by decide) rfl (fun _ => rfl) (by rw [tyOfCode_tyCode]; rfl)
  · exact roundTrip_of _ 0x65 34 (tyCode ty) c (typed fun c tt => .atom c .max .rel tt) rfl rfl (by decide) (by decide) (tyCode_lt ty)
      (by decide) rfl (fun _ => rfl) (by rw [tyOfCode_tyCode]; rfl)
  · exact roundTrip_of _ 0x65 50 (tyCode ty) c (typed fun c tt => .atom c .max .ar tt) rfl rfl (by decide) (by decide) (tyCode_lt ty)
      (by decide) rfl (fun _ => rfl) (by rw [tyOfCode_tyCode]; rfl)
  · exact roundTrip_of _ 0x65 3 (tyCode ty) c (typed fun c tt => .atom c .and .rlx tt) rfl rfl (by decide) (by decide) (tyCode_lt ty)
      (by decide) rfl (fun _ => rfl) (by rw [tyOfCode_tyCode]; rfl)
  · exact roundTrip_of _ 0x65 19 (tyCode ty) c (typed fun c tt => .atom c .and .acq tt) rfl rfl (by decide) (by decide) (tyCode_lt ty)
      (by decide) rfl (fun _ => rfl) (by rw [tyOfCode_tyCode]; rfl)
  · exact roundTrip_of _ 0x65 35 (tyCode ty) c (typed fun c tt => .atom c .and .rel tt) rfl rfl (by decide) (by decide) (tyCode_lt ty)
      (by decide) rfl (fun _ => rfl) (by rw [tyOfCode_tyCode]; rfl)
  · exact roundTrip_of _ 0x65 51 (tyCode ty) c (typed fun c tt => .atom c .and .ar tt) rfl rfl (by decide) (by decide) (tyCode_lt ty)
      (by decide) rfl (fun _ => rfl) (by rw [tyOfCode_tyCode]; rfl)
  · exact roundTrip_of _ 0x65 4 (tyCode ty) c (typed fun c tt => .atom c .or .rlx tt) rfl rfl (by decide) (by decide) (tyCode_lt ty)
      (by decide) rfl (fun _ => rfl) (by rw [tyOfCode_tyCode]; rfl)
  · exact roundTrip_of _ 0x65 20 (tyCode ty) c (typed fun c tt => .atom c .or .acq tt) rfl rfl (by decide) (by decide) (tyCode_lt ty)
      (by decide) rfl (fun _ => rfl) (by rw [tyOfCode_tyCode]; rfl)
  · exact roundTrip_of _ 0x65 36 (tyCode ty) c (typed fun c tt => .atom c .or .rel tt) rfl rfl (by decide) (by decide) (tyCode_lt ty)
      (by decide) rfl (fun _ => rfl) (by rw [tyOfCode_tyCode]; rfl)
  · exact roundTrip_of _ 0x65 52 (tyCode ty) c (typed fun c tt => .atom c .or .ar tt) rfl rfl (by decide) (by decide) (tyCode_lt ty)
      (by decide) rfl (fun _ => rfl) (by rw [tyOfCode_tyCode]; rfl)
  · exact roundTrip_of _ 0x65 5 (tyCode ty) c (typed fun c tt => .atom c .xor .rlx tt) rfl rfl (by decide) (by decide) (tyCode_lt ty)
      (by decide) rfl (fun _ => rfl) (by rw [tyOfCode_tyCode]; rfl)
  · exact roundTrip_of _ 0x65 21 (tyCode ty) c (typed fun c tt => .atom c .xor .acq tt) rfl rfl (by decide) (by decide) (tyCode_lt ty)
      (by decide) rfl (fun _ => rfl) (by rw [tyOfCode_tyCode]; rfl)
  · exact roundTrip_of _ 0x65 37 (tyCode ty) c (typed fun c tt => .atom c .xor .rel tt) rfl rfl (by decide) (by decide) (tyCode_lt ty)
      (by decide) rfl (fun _ => rfl) (by rw [tyOfCode_tyCode]; rfl)
  · exact roundTrip_of _ 0x65 53 (tyCode ty) c (typed fun c tt => .atom c .xor .ar tt) rfl rfl (by decide) (by decide) (tyCode_lt ty)
      (by decide) rfl (fun _ => rfl) (by rw [tyOfCode_tyCode]; rfl)
  · exact roundTrip_of _ 0x65 6 (tyCode ty) c (typed fun c tt => .atom c .exch .rlx tt) rfl rfl (by decide) (by decide) (tyCode_lt ty)
      (by decide) rfl (fun _ => rfl) (by rw [tyOfCode_tyCode]; rfl)
  · exact roundTrip_of _ 0x65 22 (tyCode ty) c (typed fun c tt => .atom c .exch .acq tt) rfl rfl (by decide) (by decide) (tyCode_lt ty)
      (by decide) rfl (fun _ => rfl) (by rw [tyOfCode_tyCode]; rfl)
  · exact roundTrip_of _ 0x65 38 (tyCode ty) c (typed fun c tt => .atom c .exch .rel tt) rfl rfl (by decide) (by decide) (tyCode_lt ty)
      (by decide) rfl (fun _ => rfl) (by rw [tyOfCode_tyCode]; rfl)
  · exact roundTrip_of _ 0x65 54 (tyCode ty) c (typed fun c tt => .atom c .exch .ar tt) rfl rfl (by decide) (by decide) (tyCode_lt ty)
      (by decide) rfl (fun _ => rfl) (by rw [tyOfCode_tyCode]; rfl)
  · exact roundTrip_of _ 0x65 7 (tyCode ty) c (typed fun c tt => .atom c .cas .rlx tt) rfl rfl (by decide) (by decide) (tyCode_lt ty)
      (by decide) rfl (fun _ => rfl) (by rw [tyOfCode_tyCode]; rfl)
  · exact roundTrip_of _ 0x65 23 (tyCode ty) c (typed fun c tt => .atom c .cas .acq tt) rfl rfl (by decide) (by decide) (tyCode_lt ty)
      (by decide) rfl (fun _ => rfl) (by rw [tyOfCode_tyCode]; rfl)
  · exact roundTrip_of _ 0x65 39 (tyCode ty) c (typed fun c tt => .atom c .cas .rel tt) rfl rfl (by decide) (by decide) (tyCode_lt ty)
      (by decide) rfl (fun _ => rfl) (by rw [tyOfCode_tyCode]; rfl)
  · exact roundTrip_of _ 0x65 55 (tyCode ty) c (typed fun c tt => .atom c .cas .ar tt) rfl rfl (by decide) (by decide) (tyCode_lt ty)
      (by decide) rfl (fun _ => rfl) (by rw [tyOfCode_tyCode]; rfl)

theorem RoundTrip.atoml (c : Enc) (op : Aop) (ord : Ord) (ty : Ty) : RoundTrip.Statement (.atoml c op ord ty) := by
  cases op <;> cases ord
  · exact roundTrip_of _ 0x66 0 (tyCode ty) c (typed fun c tt => .atoml c .add .rlx tt) rfl rfl (by decide) (by decide) (tyCode_lt ty)
      (by decide) rfl (fun _ => rfl) (by rw [tyOfCode_tyCode]; rfl)
  · exact roundTrip_of _ 0x66 16 (tyCode ty) c (typed fun c tt => .atoml c .add .acq tt) rfl rfl (by decide) (by decide) (tyCode_lt ty)
      (by decide) rfl (fun _ => rfl) (by rw [tyOfCode_tyCode]; rfl)
  · exact roundTrip_of _ 0x66 32 (tyCode ty) c (typed fun c tt => .atoml c .add .rel tt) rfl rfl (by decide) (by decide) (tyCode_lt ty)
      (by decide) rfl (fun _ => rfl) (by rw [tyOfCode_tyCode]; rfl)
  · exact roundTrip_of _ 0x66 48 (tyCode ty) c (typed fun c tt => .atoml c .add .ar tt) rfl rfl (by decide) (by decide) (tyCode_lt ty)
      (by decide) rfl (fun _ => rfl) (by rw [tyOfCode_tyCode]; rfl)
  · exact roundTrip_of _ 0x66 1 (tyCode ty) c (typed fun c tt => .atoml c .min .rlx tt) rfl rfl (by decide) (by decide) (tyCode_lt ty)
      (by decide) rfl (fun _ => rfl) (by rw [tyOfCode_tyCode]; rfl)
  · exact roundTrip_of _ 0x66 17 (tyCode ty) c (typed fun c tt => .atoml c .min .acq tt) rfl rfl (by decide) (by decide) (tyCode_lt ty)
      (by decide) rfl (fun _ => rfl) (by rw [tyOfCode_tyCode]; rfl)
  · exact roundTrip_of _ 0x66 33 (tyCode ty) c (typed fun c tt => .atoml c .min .rel tt) rfl rfl (by decide) (by decide) (tyCode_lt ty)
      (by decide) rfl (fun _ => rfl) (by rw [tyOfCode_tyCode]; rfl)
  · exact roundTrip_of _ 0x66 49 (tyCode ty) c (typed fun c tt => .atoml c .min .ar tt) rfl rfl (by decide) (by decide) (tyCode_lt ty)
      (by decide) rfl (fun _ => rfl) (by rw [tyOfCode_tyCode]; rfl)
  · exact roundTrip_of _ 0x66 2 (tyCode ty) c (typed fun c tt => .atoml c .max .rlx tt) rfl rfl (by decide) (by decide) (tyCode_lt ty)
      (by decide) rfl (fun _ => rfl) (by rw [tyOfCode_tyCode]; rfl)
  · exact roundTrip_of _ 0x66 18 (tyCode ty) c (typed fun c tt => .atoml c .max .acq tt) rfl rfl (by decide) (by decide) (tyCode_lt ty)
      (by decide) rfl (fun _ => rfl) (by rw [tyOfCode_tyCode]; rfl)
  · exact roundTrip_of _ 0x66 34 (tyCode ty) c (typed fun c tt => .atoml c .max .rel tt) rfl rfl (by decide) (by decide) (tyCode_lt ty)
      (by decide) rfl (fun _ => rfl) (by rw [tyOfCode_tyCode]; rfl)
  · exact roundTrip_of _ 0x66 50 (tyCode ty) c (typed fun c tt => .atoml c .max .ar tt) rfl rfl (by decide) (by decide) (tyCode_lt ty)
      (by decide) rfl (fun _ => rfl) (by rw [tyOfCode_tyCode]; rfl)
  · exact roundTrip_of _ 0x66 3 (tyCode ty) c (typed fun c tt => .atoml c .and .rlx tt) rfl rfl (by decide) (by decide) (tyCode_lt ty)
      (by decide) rfl (fun _ => rfl) (by rw [tyOfCode_tyCode]; rfl)
  · exact roundTrip_of _ 0x66 19 (tyCode ty) c (typed fun c tt => .atoml c .and .acq tt) rfl rfl (by decide) (by decide) (tyCode_lt ty)
      (by decide) rfl (fun _ => rfl) (by rw [tyOfCode_tyCode]; rfl)
  · exact roundTrip_of _ 0x66 35 (tyCode ty) c (typed fun c tt => .atoml c .and .rel tt) rfl rfl (by decide) (by decide) (tyCode_lt ty)
      (by decide) rfl (fun _ => rfl) (by rw [tyOfCode_tyCode]; rfl)
  · exact roundTrip_of _ 0x66 51 (tyCode ty) c (typed fun c tt => .atoml c .and .ar tt) rfl rfl (by decide) (by decide) (tyCode_lt ty)
      (by decide) rfl (fun _ => rfl) (by rw [tyOfCode_tyCode]; rfl)
  · exact roundTrip_of _ 0x66 4 (tyCode ty) c (typed fun c tt => .atoml c .or .rlx tt) rfl rfl (by decide) (by decide) (tyCode_lt ty)
      (by decide) rfl (fun _ => rfl) (by rw [tyOfCode_tyCode]; rfl)
  · exact roundTrip_of _ 0x66 20 (tyCode ty) c (typed fun c tt => .atoml c .or .acq tt) rfl rfl (by decide) (by decide) (tyCode_lt ty)
      (by decide) rfl (fun _ => rfl) (by rw [tyOfCode_tyCode]; rfl)
  · exact roundTrip_of _ 0x66 36 (tyCode ty) c (typed fun c tt => .atoml c .or .rel tt) rfl rfl (by decide) (by decide) (tyCode_lt ty)
      (by decide) rfl (fun _ => rfl) (by rw [tyOfCode_tyCode]; rfl)
  · exact roundTrip_of _ 0x66 52 (tyCode ty) c (typed fun c tt => .atoml c .or .ar tt) rfl rfl (by decide) (by decide) (tyCode_lt ty)
      (by decide) rfl (fun _ => rfl) (by rw [tyOfCode_tyCode]; rfl)
  · exact roundTrip_of _ 0x66 5 (tyCode ty) c (typed fun c tt => .atoml c .xor .rlx tt) rfl rfl (by decide) (by decide) (tyCode_lt ty)
      (by decide) rfl (fun _ => rfl) (by rw [tyOfCode_tyCode]; rfl)
  · exact roundTrip_of _ 0x66 21 (tyCode ty) c (typed fun c tt => .atoml c .xor .acq tt) rfl rfl (by decide) (by decide) (tyCode_lt ty)
      (by decide) rfl (fun _ => rfl) (by rw [tyOfCode_tyCode]; rfl)
  · exact roundTrip_of _ 0x66 37 (tyCode ty) c (typed fun c tt => .atoml c .xor .rel tt) rfl rfl (by decide) (by decide) (tyCode_lt ty)
      (by decide) rfl (fun _ => rfl) (by rw [tyOfCode_tyCode]; rfl)
  · exact roundTrip_of _ 0x66 53 (tyCode ty) c (typed fun c tt => .atoml c .xor .ar tt) rfl rfl (by decide) (by decide) (tyCode_lt ty)
      (by decide) rfl (fun _ => rfl) (by rw [tyOfCode_tyCode]; rfl)
  · exact roundTrip_of _ 0x66 6 (tyCode ty) c (typed fun c tt => .atoml c .exch .rlx tt) rfl rfl (by decide) (by decide) (tyCode_lt ty)
      (by decide) rfl (fun _ => rfl) (by rw [tyOfCode_tyCode]; rfl)
  · exact roundTrip_of _ 0x66 22 (tyCode ty) c (typed fun c tt => .atoml c .exch .acq tt) rfl rfl (by decide) (by decide) (tyCode_lt ty)
      (by decide) rfl (fun _ => rfl) (by rw [tyOfCode_tyCode]; rfl)
  · exact roundTrip_of _ 0x66 38 (tyCode ty) c (typed fun c tt => .atoml c .exch .rel tt) rfl rfl (by decide) (by decide) (tyCode_lt ty)
      (by decide) rfl (fun _ => rfl) (by rw [tyOfCode_tyCode]; rfl)
  · exact roundTrip_of _ 0x66 54 (tyCode ty) c (typed fun c tt => .atoml c .exch .ar tt) rfl rfl (by decide) (by decide) (tyCode_lt ty)
      (by decide) rfl (fun _ => rfl) (by rw [tyOfCode_tyCode]; rfl)
  · exact roundTrip_of _ 0x66 7 (tyCode ty) c (typed fun c tt => .atoml c .cas .rlx tt) rfl rfl (by decide) (by decide) (tyCode_lt ty)
      (by decide) rfl (fun _ => rfl) (by rw [tyOfCode_tyCode]; rfl)
  · exact roundTrip_of _ 0x66 23 (tyCode ty) c (typed fun c tt => .atoml c .cas .acq tt) rfl rfl (by decide) (by decide) (tyCode_lt ty)
      (by decide) rfl (fun _ => rfl) (by rw [tyOfCode_tyCode]; rfl)
  · exact roundTrip_of _ 0x66 39 (tyCode ty) c (typed fun c tt => .atoml c .cas .rel tt) rfl rfl (by decide) (by decide) (tyCode_lt ty)
      (by decide) rfl (fun _ => rfl) (by rw [tyOfCode_tyCode]; rfl)
  · exact roundTrip_of _ 0x66 55 (tyCode ty) c (typed fun c tt => .atoml c .cas .ar tt) rfl rfl (by decide) (by decide) (tyCode_lt ty)
      (by decide) rfl (fun _ => rfl) (by rw [tyOfCode_tyCode]; rfl)

theorem RoundTrip.red (c : Enc) (op : Aop) (ord : Ord) (ty : Ty) : RoundTrip.Statement (.red c op ord ty) := by
  cases op <;> cases ord
  · exact roundTrip_of _ 0x67 0 (tyCode ty) c (typed fun c tt => .red c .add .rlx tt) rfl rfl (by decide) (by decide) (tyCode_lt ty)
      (by decide) rfl (fun _ => rfl) (by rw [tyOfCode_tyCode]; rfl)
  · intro w hw _; simp [instrWf, fnOk] at hw
  · exact roundTrip_of _ 0x67 32 (tyCode ty) c (typed fun c tt => .red c .add .rel tt) rfl rfl (by decide) (by decide) (tyCode_lt ty)
      (by decide) rfl (fun _ => rfl) (by rw [tyOfCode_tyCode]; rfl)
  · intro w hw _; simp [instrWf, fnOk] at hw
  · exact roundTrip_of _ 0x67 1 (tyCode ty) c (typed fun c tt => .red c .min .rlx tt) rfl rfl (by decide) (by decide) (tyCode_lt ty)
      (by decide) rfl (fun _ => rfl) (by rw [tyOfCode_tyCode]; rfl)
  · intro w hw _; simp [instrWf, fnOk] at hw
  · exact roundTrip_of _ 0x67 33 (tyCode ty) c (typed fun c tt => .red c .min .rel tt) rfl rfl (by decide) (by decide) (tyCode_lt ty)
      (by decide) rfl (fun _ => rfl) (by rw [tyOfCode_tyCode]; rfl)
  · intro w hw _; simp [instrWf, fnOk] at hw
  · exact roundTrip_of _ 0x67 2 (tyCode ty) c (typed fun c tt => .red c .max .rlx tt) rfl rfl (by decide) (by decide) (tyCode_lt ty)
      (by decide) rfl (fun _ => rfl) (by rw [tyOfCode_tyCode]; rfl)
  · intro w hw _; simp [instrWf, fnOk] at hw
  · exact roundTrip_of _ 0x67 34 (tyCode ty) c (typed fun c tt => .red c .max .rel tt) rfl rfl (by decide) (by decide) (tyCode_lt ty)
      (by decide) rfl (fun _ => rfl) (by rw [tyOfCode_tyCode]; rfl)
  · intro w hw _; simp [instrWf, fnOk] at hw
  · exact roundTrip_of _ 0x67 3 (tyCode ty) c (typed fun c tt => .red c .and .rlx tt) rfl rfl (by decide) (by decide) (tyCode_lt ty)
      (by decide) rfl (fun _ => rfl) (by rw [tyOfCode_tyCode]; rfl)
  · intro w hw _; simp [instrWf, fnOk] at hw
  · exact roundTrip_of _ 0x67 35 (tyCode ty) c (typed fun c tt => .red c .and .rel tt) rfl rfl (by decide) (by decide) (tyCode_lt ty)
      (by decide) rfl (fun _ => rfl) (by rw [tyOfCode_tyCode]; rfl)
  · intro w hw _; simp [instrWf, fnOk] at hw
  · exact roundTrip_of _ 0x67 4 (tyCode ty) c (typed fun c tt => .red c .or .rlx tt) rfl rfl (by decide) (by decide) (tyCode_lt ty)
      (by decide) rfl (fun _ => rfl) (by rw [tyOfCode_tyCode]; rfl)
  · intro w hw _; simp [instrWf, fnOk] at hw
  · exact roundTrip_of _ 0x67 36 (tyCode ty) c (typed fun c tt => .red c .or .rel tt) rfl rfl (by decide) (by decide) (tyCode_lt ty)
      (by decide) rfl (fun _ => rfl) (by rw [tyOfCode_tyCode]; rfl)
  · intro w hw _; simp [instrWf, fnOk] at hw
  · exact roundTrip_of _ 0x67 5 (tyCode ty) c (typed fun c tt => .red c .xor .rlx tt) rfl rfl (by decide) (by decide) (tyCode_lt ty)
      (by decide) rfl (fun _ => rfl) (by rw [tyOfCode_tyCode]; rfl)
  · intro w hw _; simp [instrWf, fnOk] at hw
  · exact roundTrip_of _ 0x67 37 (tyCode ty) c (typed fun c tt => .red c .xor .rel tt) rfl rfl (by decide) (by decide) (tyCode_lt ty)
      (by decide) rfl (fun _ => rfl) (by rw [tyOfCode_tyCode]; rfl)
  · intro w hw _; simp [instrWf, fnOk] at hw
  · intro w hw _; simp [instrWf, fnOk] at hw
  · intro w hw _; simp [instrWf, fnOk] at hw
  · intro w hw _; simp [instrWf, fnOk] at hw
  · intro w hw _; simp [instrWf, fnOk] at hw
  · intro w hw _; simp [instrWf, fnOk] at hw
  · intro w hw _; simp [instrWf, fnOk] at hw
  · intro w hw _; simp [instrWf, fnOk] at hw
  · intro w hw _; simp [instrWf, fnOk] at hw

theorem RoundTrip.fence (c : Enc) (k : FKind) (sc : Scope) : RoundTrip.Statement (.fence c k sc) := by
  cases k <;> cases sc
  · exact roundTrip_of _ 0x68 1 0 c (untyped fun c => .fence c .acq .group) rfl rfl (by decide) (by decide) (by decide)
      (by decide) rfl (fun _ => rfl) rfl
  · exact roundTrip_of _ 0x68 5 0 c (untyped fun c => .fence c .acq .core) rfl rfl (by decide) (by decide) (by decide)
      (by decide) rfl (fun _ => rfl) rfl
  · exact roundTrip_of _ 0x68 9 0 c (untyped fun c => .fence c .acq .cluster) rfl rfl (by decide) (by decide) (by decide)
      (by decide) rfl (fun _ => rfl) rfl
  · exact roundTrip_of _ 0x68 13 0 c (untyped fun c => .fence c .acq .die) rfl rfl (by decide) (by decide) (by decide)
      (by decide) rfl (fun _ => rfl) rfl
  · exact roundTrip_of _ 0x68 17 0 c (untyped fun c => .fence c .acq .device) rfl rfl (by decide) (by decide) (by decide)
      (by decide) rfl (fun _ => rfl) rfl
  · exact roundTrip_of _ 0x68 21 0 c (untyped fun c => .fence c .acq .system) rfl rfl (by decide) (by decide) (by decide)
      (by decide) rfl (fun _ => rfl) rfl
  · exact roundTrip_of _ 0x68 2 0 c (untyped fun c => .fence c .rel .group) rfl rfl (by decide) (by decide) (by decide)
      (by decide) rfl (fun _ => rfl) rfl
  · exact roundTrip_of _ 0x68 6 0 c (untyped fun c => .fence c .rel .core) rfl rfl (by decide) (by decide) (by decide)
      (by decide) rfl (fun _ => rfl) rfl
  · exact roundTrip_of _ 0x68 10 0 c (untyped fun c => .fence c .rel .cluster) rfl rfl (by decide) (by decide) (by decide)
      (by decide) rfl (fun _ => rfl) rfl
  · exact roundTrip_of _ 0x68 14 0 c (untyped fun c => .fence c .rel .die) rfl rfl (by decide) (by decide) (by decide)
      (by decide) rfl (fun _ => rfl) rfl
  · exact roundTrip_of _ 0x68 18 0 c (untyped fun c => .fence c .rel .device) rfl rfl (by decide) (by decide) (by decide)
      (by decide) rfl (fun _ => rfl) rfl
  · exact roundTrip_of _ 0x68 22 0 c (untyped fun c => .fence c .rel .system) rfl rfl (by decide) (by decide) (by decide)
      (by decide) rfl (fun _ => rfl) rfl
  · exact roundTrip_of _ 0x68 3 0 c (untyped fun c => .fence c .full .group) rfl rfl (by decide) (by decide) (by decide)
      (by decide) rfl (fun _ => rfl) rfl
  · exact roundTrip_of _ 0x68 7 0 c (untyped fun c => .fence c .full .core) rfl rfl (by decide) (by decide) (by decide)
      (by decide) rfl (fun _ => rfl) rfl
  · exact roundTrip_of _ 0x68 11 0 c (untyped fun c => .fence c .full .cluster) rfl rfl (by decide) (by decide) (by decide)
      (by decide) rfl (fun _ => rfl) rfl
  · exact roundTrip_of _ 0x68 15 0 c (untyped fun c => .fence c .full .die) rfl rfl (by decide) (by decide) (by decide)
      (by decide) rfl (fun _ => rfl) rfl
  · exact roundTrip_of _ 0x68 19 0 c (untyped fun c => .fence c .full .device) rfl rfl (by decide) (by decide) (by decide)
      (by decide) rfl (fun _ => rfl) rfl
  · exact roundTrip_of _ 0x68 23 0 c (untyped fun c => .fence c .full .system) rfl rfl (by decide) (by decide) (by decide)
      (by decide) rfl (fun _ => rfl) rfl

theorem RoundTrip.l1inv (c : Enc) : RoundTrip.Statement (.l1inv c) := by
  exact roundTrip_of _ _ _ _ c _ rfl rfl (by dsimp only; decide) (by dsimp only; decide) (by dsimp only; decide) (by dsimp only; decide) rfl (fun _ => rfl) rfl

theorem RoundTrip.wdef (c : Enc) : RoundTrip.Statement (.wdef c) := by
  exact roundTrip_of _ _ _ _ c _ rfl rfl (by dsimp only; decide) (by dsimp only; decide) (by dsimp only; decide) (by dsimp only; decide) rfl (fun _ => rfl) rfl

theorem RoundTrip.wdrop (c : Enc) : RoundTrip.Statement (.wdrop c) := by
  exact roundTrip_of _ _ _ _ c _ rfl rfl (by dsimp only; decide) (by dsimp only; decide) (by dsimp only; decide) (by dsimp only; decide) rfl (fun _ => rfl) rfl

theorem RoundTrip.wstat (c : Enc) : RoundTrip.Statement (.wstat c) := by
  exact roundTrip_of _ _ _ _ c _ rfl rfl (by dsimp only; decide) (by dsimp only; decide) (by dsimp only; decide) (by dsimp only; decide) rfl (fun _ => rfl) rfl

theorem RoundTrip.waitw (c : Enc) (cmp : WCmp) : RoundTrip.Statement (.waitw c cmp) := by
  cases cmp <;>
    exact roundTrip_of _ _ _ _ c _ rfl rfl (by dsimp only; decide) (by dsimp only; decide) (by dsimp only; decide) (by dsimp only; decide) rfl (fun _ => rfl) rfl

theorem RoundTrip.tryw (c : Enc) (cmp : WCmp) : RoundTrip.Statement (.tryw c cmp) := by
  cases cmp <;>
    exact roundTrip_of _ _ _ _ c _ rfl rfl (by dsimp only; decide) (by dsimp only; decide) (by dsimp only; decide) (by dsimp only; decide) rfl (fun _ => rfl) rfl

theorem RoundTrip.bar (c : Enc) (level : Fin 8) : RoundTrip.Statement (.bar c level) := by
  fin_cases level <;>
    first | exact roundTrip_of _ _ _ _ c _ rfl rfl (by dsimp only; decide) (by dsimp only; decide) (by dsimp only; decide) (by dsimp only; decide) rfl (fun _ => rfl) rfl | (intro w hw _; simp [instrWf, fnOk] at hw)

theorem RoundTrip.lock (c : Enc) : RoundTrip.Statement (.lock c) := by
  exact roundTrip_of _ _ _ _ c _ rfl rfl (by dsimp only; decide) (by dsimp only; decide) (by dsimp only; decide) (by dsimp only; decide) rfl (fun _ => rfl) rfl

theorem RoundTrip.tlock (c : Enc) : RoundTrip.Statement (.tlock c) := by
  exact roundTrip_of _ _ _ _ c _ rfl rfl (by dsimp only; decide) (by dsimp only; decide) (by dsimp only; decide) (by dsimp only; decide) rfl (fun _ => rfl) rfl

theorem RoundTrip.unlock (c : Enc) : RoundTrip.Statement (.unlock c) := by
  exact roundTrip_of _ _ _ _ c _ rfl rfl (by dsimp only; decide) (by dsimp only; decide) (by dsimp only; decide) (by dsimp only; decide) rfl (fun _ => rfl) rfl

theorem RoundTrip.heir (c : Enc) (k : HKind) (dflt : Bool) : RoundTrip.Statement (.heir c k dflt) := by
  cases k <;> cases dflt
  · exact roundTrip_of _ 0x84 0 0 c (untyped fun c => .heir c .group false) rfl rfl (by decide) (by decide) (by decide)
      (by decide) rfl (fun _ => rfl) rfl
  · exact roundTrip_of _ 0x84 8 0 c (untyped fun c => .heir c .group true) rfl rfl (by decide) (by decide) (by decide)
      (by decide) rfl (fun _ => rfl) rfl
  · exact roundTrip_of _ 0x84 1 0 c (untyped fun c => .heir c .block false) rfl rfl (by decide) (by decide) (by decide)
      (by decide) rfl (fun _ => rfl) rfl
  · exact roundTrip_of _ 0x84 9 0 c (untyped fun c => .heir c .block true) rfl rfl (by decide) (by decide) (by decide)
      (by decide) rfl (fun _ => rfl) rfl
  · exact roundTrip_of _ 0x84 2 0 c (untyped fun c => .heir c .parent false) rfl rfl (by decide) (by decide) (by decide)
      (by decide) rfl (fun _ => rfl) rfl
  · exact roundTrip_of _ 0x84 10 0 c (untyped fun c => .heir c .parent true) rfl rfl (by decide) (by decide) (by decide)
      (by decide) rfl (fun _ => rfl) rfl
  · exact roundTrip_of _ 0x84 3 0 c (untyped fun c => .heir c .successor false) rfl rfl (by decide) (by decide) (by decide)
      (by decide) rfl (fun _ => rfl) rfl
  · exact roundTrip_of _ 0x84 11 0 c (untyped fun c => .heir c .successor true) rfl rfl (by decide) (by decide) (by decide)
      (by decide) rfl (fun _ => rfl) rfl
  · exact roundTrip_of _ 0x84 4 0 c (untyped fun c => .heir c .none false) rfl rfl (by decide) (by decide) (by decide)
      (by decide) rfl (fun _ => rfl) rfl
  · exact roundTrip_of _ 0x84 12 0 c (untyped fun c => .heir c .none true) rfl rfl (by decide) (by decide) (by decide)
      (by decide) rfl (fun _ => rfl) rfl

theorem RoundTrip.prom (c : Enc) : RoundTrip.Statement (.prom c) := by
  exact roundTrip_of _ _ _ _ c _ rfl rfl (by dsimp only; decide) (by dsimp only; decide) (by dsimp only; decide) (by dsimp only; decide) rfl (fun _ => rfl) rfl

theorem RoundTrip.fulf (c : Enc) (brk : Bool) : RoundTrip.Statement (.fulf c brk) := by
  cases brk <;>
    exact roundTrip_of _ _ _ _ c _ rfl rfl (by dsimp only; decide) (by dsimp only; decide) (by dsimp only; decide) (by dsimp only; decide) rfl (fun _ => rfl) rfl

theorem RoundTrip.pwait (c : Enc) : RoundTrip.Statement (.pwait c) := by
  exact roundTrip_of _ _ _ _ c _ rfl rfl (by dsimp only; decide) (by dsimp only; decide) (by dsimp only; decide) (by dsimp only; decide) rfl (fun _ => rfl) rfl

theorem RoundTrip.claim (c : Enc) : RoundTrip.Statement (.claim c) := by
  exact roundTrip_of _ _ _ _ c _ rfl rfl (by dsimp only; decide) (by dsimp only; decide) (by dsimp only; decide) (by dsimp only; decide) rfl (fun _ => rfl) rfl

theorem RoundTrip.rels (c : Enc) : RoundTrip.Statement (.rels c) := by
  exact roundTrip_of _ _ _ _ c _ rfl rfl (by dsimp only; decide) (by dsimp only; decide) (by dsimp only; decide) (by dsimp only; decide) rfl (fun _ => rfl) rfl

theorem RoundTrip.holdq (c : Enc) : RoundTrip.Statement (.holdq c) := by
  exact roundTrip_of _ _ _ _ c _ rfl rfl (by dsimp only; decide) (by dsimp only; decide) (by dsimp only; decide) (by dsimp only; decide) rfl (fun _ => rfl) rfl

theorem RoundTrip.step (c : Enc) : RoundTrip.Statement (.step c) := by
  exact roundTrip_of _ _ _ _ c _ rfl rfl (by dsimp only; decide) (by dsimp only; decide) (by dsimp only; decide) (by dsimp only; decide) rfl (fun _ => rfl) rfl

theorem RoundTrip.lqry (c : Enc) : RoundTrip.Statement (.lqry c) := by
  exact roundTrip_of _ _ _ _ c _ rfl rfl (by dsimp only; decide) (by dsimp only; decide) (by dsimp only; decide) (by dsimp only; decide) rfl (fun _ => rfl) rfl

theorem RoundTrip.mqcf (c : Enc) : RoundTrip.Statement (.mqcf c) := by
  exact roundTrip_of _ _ _ _ c _ rfl rfl (by dsimp only; decide) (by dsimp only; decide) (by dsimp only; decide) (by dsimp only; decide) rfl (fun _ => rfl) rfl

theorem RoundTrip.mqst (c : Enc) : RoundTrip.Statement (.mqst c) := by
  exact roundTrip_of _ _ _ _ c _ rfl rfl (by dsimp only; decide) (by dsimp only; decide) (by dsimp only; decide) (by dsimp only; decide) rfl (fun _ => rfl) rfl

theorem RoundTrip.mldw (c : Enc) (wf : WFmt) : RoundTrip.Statement (.mldw c wf) := by
  cases wf <;>
    exact roundTrip_of _ _ _ _ c _ rfl rfl (by dsimp only; decide) (by dsimp only; decide) (by dsimp only; decide) (by dsimp only; decide) rfl (fun _ => rfl) rfl

theorem RoundTrip.mpass (c : Enc) (wf : WFmt) (af : WFmt) : RoundTrip.Statement (.mpass c wf af) := by
  cases wf <;> cases af <;>
    exact roundTrip_of _ _ _ _ c _ rfl rfl (by dsimp only; decide) (by dsimp only; decide) (by dsimp only; decide) (by dsimp only; decide) rfl (fun _ => rfl) rfl

theorem RoundTrip.zclr (c : Enc) : RoundTrip.Statement (.zclr c) := by
  exact roundTrip_of _ _ _ _ c _ rfl rfl (by dsimp only; decide) (by dsimp only; decide) (by dsimp only; decide) (by dsimp only; decide) rfl (fun _ => rfl) rfl

theorem RoundTrip.zmov (c : Enc) : RoundTrip.Statement (.zmov c) := by
  exact roundTrip_of _ _ _ _ c _ rfl rfl (by dsimp only; decide) (by dsimp only; decide) (by dsimp only; decide) (by dsimp only; decide) rfl (fun _ => rfl) rfl

theorem RoundTrip.zst (c : Enc) (t : Bool) (loc : Bool) (rm : Rm) (ns : Bool) (ty : Ty) : RoundTrip.Statement (.zst c t loc rm ns ty) := by
  cases t <;> cases loc <;> cases rm <;> cases ns
  · exact roundTrip_of _ 0xA4 0 (tyCode ty) c (typed fun c tt => .zst c false false .rne false tt) rfl rfl (by decide) (by decide) (tyCode_lt ty)
      (by decide) rfl (fun _ => rfl) (by rw [tyOfCode_tyCode]; rfl)
  · exact roundTrip_of _ 0xA4 16 (tyCode ty) c (typed fun c tt => .zst c false false .rne true tt) rfl rfl (by decide) (by decide) (tyCode_lt ty)
      (by decide) rfl (fun _ => rfl) (by rw [tyOfCode_tyCode]; rfl)
  · exact roundTrip_of _ 0xA4 4 (tyCode ty) c (typed fun c tt => .zst c false false .rtz false tt) rfl rfl (by decide) (by decide) (tyCode_lt ty)
      (by decide) rfl (fun _ => rfl) (by rw [tyOfCode_tyCode]; rfl)
  · exact roundTrip_of _ 0xA4 20 (tyCode ty) c (typed fun c tt => .zst c false false .rtz true tt) rfl rfl (by decide) (by decide) (tyCode_lt ty)
      (by decide) rfl (fun _ => rfl) (by rw [tyOfCode_tyCode]; rfl)
  · exact roundTrip_of _ 0xA4 8 (tyCode ty) c (typed fun c tt => .zst c false false .rdn false tt) rfl rfl (by decide) (by decide) (tyCode_lt ty)
      (by decide) rfl (fun _ => rfl) (by rw [tyOfCode_tyCode]; rfl)
  · exact roundTrip_of _ 0xA4 24 (tyCode ty) c (typed fun c tt => .zst c false false .rdn true tt) rfl rfl (by decide) (by decide) (tyCode_lt ty)
      (by decide) rfl (fun _ => rfl) (by rw [tyOfCode_tyCode]; rfl)
  · exact roundTrip_of _ 0xA4 12 (tyCode ty) c (typed fun c tt => .zst c false false .rup false tt) rfl rfl (by decide) (by decide) (tyCode_lt ty)
      (by decide) rfl (fun _ => rfl) (by rw [tyOfCode_tyCode]; rfl)
  · exact roundTrip_of _ 0xA4 28 (tyCode ty) c (typed fun c tt => .zst c false false .rup true tt) rfl rfl (by decide) (by decide) (tyCode_lt ty)
      (by decide) rfl (fun _ => rfl) (by rw [tyOfCode_tyCode]; rfl)
  · exact roundTrip_of _ 0xA4 2 (tyCode ty) c (typed fun c tt => .zst c false true .rne false tt) rfl rfl (by decide) (by decide) (tyCode_lt ty)
      (by decide) rfl (fun _ => rfl) (by rw [tyOfCode_tyCode]; rfl)
  · exact roundTrip_of _ 0xA4 18 (tyCode ty) c (typed fun c tt => .zst c false true .rne true tt) rfl rfl (by decide) (by decide) (tyCode_lt ty)
      (by decide) rfl (fun _ => rfl) (by rw [tyOfCode_tyCode]; rfl)
  · exact roundTrip_of _ 0xA4 6 (tyCode ty) c (typed fun c tt => .zst c false true .rtz false tt) rfl rfl (by decide) (by decide) (tyCode_lt ty)
      (by decide) rfl (fun _ => rfl) (by rw [tyOfCode_tyCode]; rfl)
  · exact roundTrip_of _ 0xA4 22 (tyCode ty) c (typed fun c tt => .zst c false true .rtz true tt) rfl rfl (by decide) (by decide) (tyCode_lt ty)
      (by decide) rfl (fun _ => rfl) (by rw [tyOfCode_tyCode]; rfl)
  · exact roundTrip_of _ 0xA4 10 (tyCode ty) c (typed fun c tt => .zst c false true .rdn false tt) rfl rfl (by decide) (by decide) (tyCode_lt ty)
      (by decide) rfl (fun _ => rfl) (by rw [tyOfCode_tyCode]; rfl)
  · exact roundTrip_of _ 0xA4 26 (tyCode ty) c (typed fun c tt => .zst c false true .rdn true tt) rfl rfl (by decide) (by decide) (tyCode_lt ty)
      (by decide) rfl (fun _ => rfl) (by rw [tyOfCode_tyCode]; rfl)
  · exact roundTrip_of _ 0xA4 14 (tyCode ty) c (typed fun c tt => .zst c false true .rup false tt) rfl rfl (by decide) (by decide) (tyCode_lt ty)
      (by decide) rfl (fun _ => rfl) (by rw [tyOfCode_tyCode]; rfl)
  · exact roundTrip_of _ 0xA4 30 (tyCode ty) c (typed fun c tt => .zst c false true .rup true tt) rfl rfl (by decide) (by decide) (tyCode_lt ty)
      (by decide) rfl (fun _ => rfl) (by rw [tyOfCode_tyCode]; rfl)
  · exact roundTrip_of _ 0xA4 1 (tyCode ty) c (typed fun c tt => .zst c true false .rne false tt) rfl rfl (by decide) (by decide) (tyCode_lt ty)
      (by decide) rfl (fun _ => rfl) (by rw [tyOfCode_tyCode]; rfl)
  · exact roundTrip_of _ 0xA4 17 (tyCode ty) c (typed fun c tt => .zst c true false .rne true tt) rfl rfl (by decide) (by decide) (tyCode_lt ty)
      (by decide) rfl (fun _ => rfl) (by rw [tyOfCode_tyCode]; rfl)
  · exact roundTrip_of _ 0xA4 5 (tyCode ty) c (typed fun c tt => .zst c true false .rtz false tt) rfl rfl (by decide) (by decide) (tyCode_lt ty)
      (by decide) rfl (fun _ => rfl) (by rw [tyOfCode_tyCode]; rfl)
  · exact roundTrip_of _ 0xA4 21 (tyCode ty) c (typed fun c tt => .zst c true false .rtz true tt) rfl rfl (by decide) (by decide) (tyCode_lt ty)
      (by decide) rfl (fun _ => rfl) (by rw [tyOfCode_tyCode]; rfl)
  · exact roundTrip_of _ 0xA4 9 (tyCode ty) c (typed fun c tt => .zst c true false .rdn false tt) rfl rfl (by decide) (by decide) (tyCode_lt ty)
      (by decide) rfl (fun _ => rfl) (by rw [tyOfCode_tyCode]; rfl)
  · exact roundTrip_of _ 0xA4 25 (tyCode ty) c (typed fun c tt => .zst c true false .rdn true tt) rfl rfl (by decide) (by decide) (tyCode_lt ty)
      (by decide) rfl (fun _ => rfl) (by rw [tyOfCode_tyCode]; rfl)
  · exact roundTrip_of _ 0xA4 13 (tyCode ty) c (typed fun c tt => .zst c true false .rup false tt) rfl rfl (by decide) (by decide) (tyCode_lt ty)
      (by decide) rfl (fun _ => rfl) (by rw [tyOfCode_tyCode]; rfl)
  · exact roundTrip_of _ 0xA4 29 (tyCode ty) c (typed fun c tt => .zst c true false .rup true tt) rfl rfl (by decide) (by decide) (tyCode_lt ty)
      (by decide) rfl (fun _ => rfl) (by rw [tyOfCode_tyCode]; rfl)
  · exact roundTrip_of _ 0xA4 3 (tyCode ty) c (typed fun c tt => .zst c true true .rne false tt) rfl rfl (by decide) (by decide) (tyCode_lt ty)
      (by decide) rfl (fun _ => rfl) (by rw [tyOfCode_tyCode]; rfl)
  · exact roundTrip_of _ 0xA4 19 (tyCode ty) c (typed fun c tt => .zst c true true .rne true tt) rfl rfl (by decide) (by decide) (tyCode_lt ty)
      (by decide) rfl (fun _ => rfl) (by rw [tyOfCode_tyCode]; rfl)
  · exact roundTrip_of _ 0xA4 7 (tyCode ty) c (typed fun c tt => .zst c true true .rtz false tt) rfl rfl (by decide) (by decide) (tyCode_lt ty)
      (by decide) rfl (fun _ => rfl) (by rw [tyOfCode_tyCode]; rfl)
  · exact roundTrip_of _ 0xA4 23 (tyCode ty) c (typed fun c tt => .zst c true true .rtz true tt) rfl rfl (by decide) (by decide) (tyCode_lt ty)
      (by decide) rfl (fun _ => rfl) (by rw [tyOfCode_tyCode]; rfl)
  · exact roundTrip_of _ 0xA4 11 (tyCode ty) c (typed fun c tt => .zst c true true .rdn false tt) rfl rfl (by decide) (by decide) (tyCode_lt ty)
      (by decide) rfl (fun _ => rfl) (by rw [tyOfCode_tyCode]; rfl)
  · exact roundTrip_of _ 0xA4 27 (tyCode ty) c (typed fun c tt => .zst c true true .rdn true tt) rfl rfl (by decide) (by decide) (tyCode_lt ty)
      (by decide) rfl (fun _ => rfl) (by rw [tyOfCode_tyCode]; rfl)
  · exact roundTrip_of _ 0xA4 15 (tyCode ty) c (typed fun c tt => .zst c true true .rup false tt) rfl rfl (by decide) (by decide) (tyCode_lt ty)
      (by decide) rfl (fun _ => rfl) (by rw [tyOfCode_tyCode]; rfl)
  · exact roundTrip_of _ 0xA4 31 (tyCode ty) c (typed fun c tt => .zst c true true .rup true tt) rfl rfl (by decide) (by decide) (tyCode_lt ty)
      (by decide) rfl (fun _ => rfl) (by rw [tyOfCode_tyCode]; rfl)

theorem RoundTrip.zld (c : Enc) (t : Bool) (loc : Bool) (ty : Ty) : RoundTrip.Statement (.zld c t loc ty) := by
  cases t <;> cases loc
  · exact roundTrip_of _ 0xA5 0 (tyCode ty) c (typed fun c tt => .zld c false false tt) rfl rfl (by decide) (by decide) (tyCode_lt ty)
      (by decide) rfl (fun _ => rfl) (by rw [tyOfCode_tyCode]; rfl)
  · exact roundTrip_of _ 0xA5 2 (tyCode ty) c (typed fun c tt => .zld c false true tt) rfl rfl (by decide) (by decide) (tyCode_lt ty)
      (by decide) rfl (fun _ => rfl) (by rw [tyOfCode_tyCode]; rfl)
  · exact roundTrip_of _ 0xA5 1 (tyCode ty) c (typed fun c tt => .zld c true false tt) rfl rfl (by decide) (by decide) (tyCode_lt ty)
      (by decide) rfl (fun _ => rfl) (by rw [tyOfCode_tyCode]; rfl)
  · exact roundTrip_of _ 0xA5 3 (tyCode ty) c (typed fun c tt => .zld c true true tt) rfl rfl (by decide) (by decide) (tyCode_lt ty)
      (by decide) rfl (fun _ => rfl) (by rw [tyOfCode_tyCode]; rfl)

theorem RoundTrip.mstat (c : Enc) : RoundTrip.Statement (.mstat c) := by
  exact roundTrip_of _ _ _ _ c _ rfl rfl (by dsimp only; decide) (by dsimp only; decide) (by dsimp only; decide) (by dsimp only; decide) rfl (fun _ => rfl) rfl

theorem RoundTrip.mwait (c : Enc) : RoundTrip.Statement (.mwait c) := by
  exact roundTrip_of _ _ _ _ c _ rfl rfl (by dsimp only; decide) (by dsimp only; decide) (by dsimp only; decide) (by dsimp only; decide) rfl (fun _ => rfl) rfl

theorem RoundTrip.bop (c : Enc) (op : BopKind) (rm : Rm) (ty : Ty) : RoundTrip.Statement (.bop c op rm ty) := by
  cases op <;> cases rm
  · exact roundTrip_of _ 0xB0 0 (tyCode ty) c (typed fun c tt => .bop c .add .rne tt) rfl rfl (by decide) (by decide) (tyCode_lt ty)
      (by decide) rfl (fun _ => rfl) (by rw [tyOfCode_tyCode]; rfl)
  · exact roundTrip_of _ 0xB0 4 (tyCode ty) c (typed fun c tt => .bop c .add .rtz tt) rfl rfl (by decide) (by decide) (tyCode_lt ty)
      (by decide) rfl (fun _ => rfl) (by rw [tyOfCode_tyCode]; rfl)
  · exact roundTrip_of _ 0xB0 8 (tyCode ty) c (typed fun c tt => .bop c .add .rdn tt) rfl rfl (by decide) (by decide) (tyCode_lt ty)
      (by decide) rfl (fun _ => rfl) (by rw [tyOfCode_tyCode]; rfl)
  · exact roundTrip_of _ 0xB0 12 (tyCode ty) c (typed fun c tt => .bop c .add .rup tt) rfl rfl (by decide) (by decide) (tyCode_lt ty)
      (by decide) rfl (fun _ => rfl) (by rw [tyOfCode_tyCode]; rfl)
  · exact roundTrip_of _ 0xB0 1 (tyCode ty) c (typed fun c tt => .bop c .mad .rne tt) rfl rfl (by decide) (by decide) (tyCode_lt ty)
      (by decide) rfl (fun _ => rfl) (by rw [tyOfCode_tyCode]; rfl)
  · exact roundTrip_of _ 0xB0 5 (tyCode ty) c (typed fun c tt => .bop c .mad .rtz tt) rfl rfl (by decide) (by decide) (tyCode_lt ty)
      (by decide) rfl (fun _ => rfl) (by rw [tyOfCode_tyCode]; rfl)
  · exact roundTrip_of _ 0xB0 9 (tyCode ty) c (typed fun c tt => .bop c .mad .rdn tt) rfl rfl (by decide) (by decide) (tyCode_lt ty)
      (by decide) rfl (fun _ => rfl) (by rw [tyOfCode_tyCode]; rfl)
  · exact roundTrip_of _ 0xB0 13 (tyCode ty) c (typed fun c tt => .bop c .mad .rup tt) rfl rfl (by decide) (by decide) (tyCode_lt ty)
      (by decide) rfl (fun _ => rfl) (by rw [tyOfCode_tyCode]; rfl)
  · exact roundTrip_of _ 0xB0 2 (tyCode ty) c (typed fun c tt => .bop c .min .rne tt) rfl rfl (by decide) (by decide) (tyCode_lt ty)
      (by decide) rfl (fun _ => rfl) (by rw [tyOfCode_tyCode]; rfl)
  · exact roundTrip_of _ 0xB0 6 (tyCode ty) c (typed fun c tt => .bop c .min .rtz tt) rfl rfl (by decide) (by decide) (tyCode_lt ty)
      (by decide) rfl (fun _ => rfl) (by rw [tyOfCode_tyCode]; rfl)
  · exact roundTrip_of _ 0xB0 10 (tyCode ty) c (typed fun c tt => .bop c .min .rdn tt) rfl rfl (by decide) (by decide) (tyCode_lt ty)
      (by decide) rfl (fun _ => rfl) (by rw [tyOfCode_tyCode]; rfl)
  · exact roundTrip_of _ 0xB0 14 (tyCode ty) c (typed fun c tt => .bop c .min .rup tt) rfl rfl (by decide) (by decide) (tyCode_lt ty)
      (by decide) rfl (fun _ => rfl) (by rw [tyOfCode_tyCode]; rfl)
  · exact roundTrip_of _ 0xB0 3 (tyCode ty) c (typed fun c tt => .bop c .max .rne tt) rfl rfl (by decide) (by decide) (tyCode_lt ty)
      (by decide) rfl (fun _ => rfl) (by rw [tyOfCode_tyCode]; rfl)
  · exact roundTrip_of _ 0xB0 7 (tyCode ty) c (typed fun c tt => .bop c .max .rtz tt) rfl rfl (by decide) (by decide) (tyCode_lt ty)
      (by decide) rfl (fun _ => rfl) (by rw [tyOfCode_tyCode]; rfl)
  · exact roundTrip_of _ 0xB0 11 (tyCode ty) c (typed fun c tt => .bop c .max .rdn tt) rfl rfl (by decide) (by decide) (tyCode_lt ty)
      (by decide) rfl (fun _ => rfl) (by rw [tyOfCode_tyCode]; rfl)
  · exact roundTrip_of _ 0xB0 15 (tyCode ty) c (typed fun c tt => .bop c .max .rup tt) rfl rfl (by decide) (by decide) (tyCode_lt ty)
      (by decide) rfl (fun _ => rfl) (by rw [tyOfCode_tyCode]; rfl)

theorem RoundTrip.redt (c : Enc) (rm : Rm) (ty : Ty) : RoundTrip.Statement (.redt c rm ty) := by
  cases rm <;>
    exact roundTrip_of _ _ _ (tyCode ty) c _ rfl rfl (by dsimp only; decide) (by dsimp only; decide) (tyCode_lt ty) (by dsimp only; decide) rfl (fun _ => rfl) (by rw [tyOfCode_tyCode]; rfl)

theorem RoundTrip.bcopy (c : Enc) : RoundTrip.Statement (.bcopy c) := by
  exact roundTrip_of _ _ _ _ c _ rfl rfl (by dsimp only; decide) (by dsimp only; decide) (by dsimp only; decide) (by dsimp only; decide) rfl (fun _ => rfl) rfl

theorem RoundTrip.bfence (c : Enc) : RoundTrip.Statement (.bfence c) := by
  exact roundTrip_of _ _ _ _ c _ rfl rfl (by dsimp only; decide) (by dsimp only; decide) (by dsimp only; decide) (by dsimp only; decide) rfl (fun _ => rfl) rfl

theorem RoundTrip.bgid (c : Enc) (mcast : Bool) : RoundTrip.Statement (.bgid c mcast) := by
  cases mcast <;>
    exact roundTrip_of _ _ _ _ c _ rfl rfl (by dsimp only; decide) (by dsimp only; decide) (by dsimp only; decide) (by dsimp only; decide) rfl (fun _ => rfl) rfl

theorem RoundTrip.bgfree (c : Enc) : RoundTrip.Statement (.bgfree c) := by
  exact roundTrip_of _ _ _ _ c _ rfl rfl (by dsimp only; decide) (by dsimp only; decide) (by dsimp only; decide) (by dsimp only; decide) rfl (fun _ => rfl) rfl

theorem RoundTrip.launch (c : Enc) : RoundTrip.Statement (.launch c) := by
  exact roundTrip_of _ _ _ _ c _ rfl rfl (by dsimp only; decide) (by dsimp only; decide) (by dsimp only; decide) (by dsimp only; decide) rfl (fun _ => rfl) rfl

theorem RoundTrip.rdclk (c : Enc) : RoundTrip.Statement (.rdclk c) := by
  exact roundTrip_of _ _ _ _ c _ rfl rfl (by dsimp only; decide) (by dsimp only; decide) (by dsimp only; decide) (by dsimp only; decide) rfl (fun _ => rfl) rfl

theorem RoundTrip.groupPromotion (core : Nat) (slot : Nat) : RoundTrip.Statement (.groupPromotion core slot) := by
  intro w _ h
  cases h

theorem RoundTrip.stallExpiry (core : Nat) (slot : Nat) : RoundTrip.Statement (.stallExpiry core slot) := by
  intro w _ h
  cases h

theorem RoundTrip.sleepEnd (core : Nat) (slot : Nat) : RoundTrip.Statement (.sleepEnd core slot) := by
  intro w _ h
  cases h

theorem RoundTrip.frontierRefill (core : Nat) (slot : Nat) : RoundTrip.Statement (.frontierRefill core slot) := by
  intro w _ h
  cases h

theorem RoundTrip.loadReply (core : Nat) (slot : Nat) (req : Nat) : RoundTrip.Statement (.loadReply core slot req) := by
  intro w _ h
  cases h

theorem RoundTrip.storeBufferRelease (core : Nat) (blk : Nat) : RoundTrip.Statement (.storeBufferRelease core blk) := by
  intro w _ h
  cases h

theorem RoundTrip.sliceOperation (t : SliceTarget) : RoundTrip.Statement (.sliceOperation t) := by
  intro w _ h
  cases h

theorem RoundTrip.windowFill (core : Nat) : RoundTrip.Statement (.windowFill core) := by
  intro w _ h
  cases h

theorem RoundTrip.windowFillFault (core : Nat) : RoundTrip.Statement (.windowFillFault core) := by
  intro w _ h
  cases h

theorem RoundTrip.waitWordEvaluation (core : Nat) (slot : Nat) (lane : Nat) : RoundTrip.Statement (.waitWordEvaluation core slot lane) := by
  intro w _ h
  cases h

theorem RoundTrip.trywTimeout (core : Nat) (slot : Nat) (lane : Nat) : RoundTrip.Statement (.trywTimeout core slot lane) := by
  intro w _ h
  cases h

theorem RoundTrip.estateWalk (die : Nat) : RoundTrip.Statement (.estateWalk die) := by
  intro w _ h
  cases h

theorem RoundTrip.successorConveyance (part : Nat) (node : Nat) (blk : Nat) : RoundTrip.Statement (.successorConveyance part node blk) := by
  intro w _ h
  cases h

theorem RoundTrip.hostHoldingStore (part : Nat) (pa : Nat) (state : Fin 4) (value : DWord) : RoundTrip.Statement (.hostHoldingStore part pa state value) := by
  intro w _ h
  cases h

theorem RoundTrip.neighbourLabelArrival (core : Nat) : RoundTrip.Statement (.neighbourLabelArrival core) := by
  intro w _ h
  cases h

theorem RoundTrip.matrixGrant (cl : Nat) : RoundTrip.Statement (.matrixGrant cl) := by
  intro w _ h
  cases h

theorem RoundTrip.matrixFetchDone (cl : Nat) : RoundTrip.Statement (.matrixFetchDone cl) := by
  intro w _ h
  cases h

theorem RoundTrip.leaveGrant (die : Nat) : RoundTrip.Statement (.leaveGrant die) := by
  intro w _ h
  cases h

theorem RoundTrip.matrixStreamDone (e : StreamEnd) : RoundTrip.Statement (.matrixStreamDone e) := by
  intro w _ h
  cases h

theorem RoundTrip.matrixPassComplete (cl : Nat) : RoundTrip.Statement (.matrixPassComplete cl) := by
  intro w _ h
  cases h

theorem RoundTrip.mldwLoadComplete (cl : Nat) : RoundTrip.Statement (.mldwLoadComplete cl) := by
  intro w _ h
  cases h

theorem RoundTrip.matrixFetchFault (cl : Nat) : RoundTrip.Statement (.matrixFetchFault cl) := by
  intro w _ h
  cases h

theorem RoundTrip.matrixEngineFreeze (cl : Nat) : RoundTrip.Statement (.matrixEngineFreeze cl) := by
  intro w _ h
  cases h

theorem RoundTrip.pageWalkComplete (die : Nat) (walk : Nat) : RoundTrip.Statement (.pageWalkComplete die walk) := by
  intro w _ h
  cases h

theorem RoundTrip.pageRequestResponse (die : Nat) (walk : Nat) (ok : Bool) : RoundTrip.Statement (.pageRequestResponse die walk ok) := by
  intro w _ h
  cases h

theorem RoundTrip.redtContributionArrival (part : Nat) : RoundTrip.Statement (.redtContributionArrival part) := by
  intro w _ h
  cases h

theorem RoundTrip.redtNodeTimeout (part : Nat) (ident : Nat) (node : Nat) : RoundTrip.Statement (.redtNodeTimeout part ident node) := by
  intro w _ h
  cases h

theorem RoundTrip.meshHop (pkt : Nat) : RoundTrip.Statement (.meshHop pkt) := by
  intro w _ h
  cases h

theorem RoundTrip.escapeChannelMove (pkt : Nat) : RoundTrip.Statement (.escapeChannelMove pkt) := by
  intro w _ h
  cases h

theorem RoundTrip.linkFailure (l : LinkId) : RoundTrip.Statement (.linkFailure l) := by
  intro w _ h
  cases h

theorem RoundTrip.nakResend (pkt : Nat) : RoundTrip.Statement (.nakResend pkt) := by
  intro w _ h
  cases h

theorem RoundTrip.messageAccept (pkt : Nat) : RoundTrip.Statement (.messageAccept pkt) := by
  intro w _ h
  cases h

theorem RoundTrip.receivePortRead (core : Nat) (slot : Nat) (lane : Nat) : RoundTrip.Statement (.receivePortRead core slot lane) := by
  intro w _ h
  cases h

theorem RoundTrip.blockPlacement (part : Nat) (die : Nat) : RoundTrip.Statement (.blockPlacement part die) := by
  intro w _ h
  cases h

theorem RoundTrip.activityPeriod (die : Nat) : RoundTrip.Statement (.activityPeriod die) := by
  intro w _ h
  cases h

theorem RoundTrip.latticeStart (part : Nat) (node : Nat) : RoundTrip.Statement (.latticeStart part node) := by
  intro w _ h
  cases h

theorem RoundTrip.tileEligible (part : Nat) (node : Nat) (tile : Nat) : RoundTrip.Statement (.tileEligible part node tile) := by
  intro w _ h
  cases h

theorem RoundTrip.downdraft (part : Nat) (node : Nat) : RoundTrip.Statement (.downdraft part node) := by
  intro w _ h
  cases h

theorem RoundTrip.updraft (part : Nat) (node : Nat) : RoundTrip.Statement (.updraft part node) := by
  intro w _ h
  cases h

theorem RoundTrip.tail (part : Nat) (q : Nat) (val : Word) : RoundTrip.Statement (.tail part q val) := by
  intro w _ h
  cases h

theorem RoundTrip.qen (part : Nat) (q : Nat) (on : Bool) : RoundTrip.Statement (.qen part q on) := by
  intro w _ h
  cases h

theorem RoundTrip.registerWrite (part : Nat) (off : Nat) (val : DWord) : RoundTrip.Statement (.registerWrite part off val) := by
  intro w _ h
  cases h

theorem RoundTrip.packetAccept (part : Nat) (q : Nat) : RoundTrip.Statement (.packetAccept part q) := by
  intro w _ h
  cases h

theorem RoundTrip.launchPacket (part : Nat) (q : Nat) : RoundTrip.Statement (.launchPacket part q) := by
  intro w _ h
  cases h

theorem RoundTrip.coll (part : Nat) (q : Nat) : RoundTrip.Statement (.coll part q) := by
  intro w _ h
  cases h

theorem RoundTrip.qfence (part : Nat) (q : Nat) : RoundTrip.Statement (.qfence part q) := by
  intro w _ h
  cases h

theorem RoundTrip.event (part : Nat) (q : Nat) : RoundTrip.Statement (.event part q) := by
  intro w _ h
  cases h

theorem RoundTrip.waitsem (part : Nat) (q : Nat) : RoundTrip.Statement (.waitsem part q) := by
  intro w _ h
  cases h

theorem RoundTrip.waitsemReread (part : Nat) (q : Nat) : RoundTrip.Statement (.waitsemReread part q) := by
  intro w _ h
  cases h

theorem RoundTrip.signal (part : Nat) (q : Nat) : RoundTrip.Statement (.signal part q) := by
  intro w _ h
  cases h

theorem RoundTrip.tlbi (part : Nat) (q : Nat) : RoundTrip.Statement (.tlbi part q) := by
  intro w _ h
  cases h

theorem RoundTrip.nodeDone (part : Nat) (node : Nat) : RoundTrip.Statement (.nodeDone part node) := by
  intro w _ h
  cases h

theorem RoundTrip.preempt (part : Nat) : RoundTrip.Statement (.preempt part) := by
  intro w _ h
  cases h

theorem RoundTrip.resume (part : Nat) : RoundTrip.Statement (.resume part) := by
  intro w _ h
  cases h

theorem RoundTrip.vacate (part : Nat) : RoundTrip.Statement (.vacate part) := by
  intro w _ h
  cases h

theorem RoundTrip.teardown (part : Nat) : RoundTrip.Statement (.teardown part) := by
  intro w _ h
  cases h

theorem RoundTrip.watchdogExpiry (core : Nat) : RoundTrip.Statement (.watchdogExpiry core) := by
  intro w _ h
  cases h

theorem RoundTrip.squallRaise (part : Nat) (cause : Nat) : RoundTrip.Statement (.squallRaise part cause) := by
  intro w _ h
  cases h

theorem RoundTrip.squallArrival (part : Nat) (u : Unit') : RoundTrip.Statement (.squallArrival part u) := by
  intro w _ h
  cases h

theorem RoundTrip.haltComplete (part : Nat) : RoundTrip.Statement (.haltComplete part) := by
  intro w _ h
  cases h

theorem RoundTrip.partitionResume (part : Nat) : RoundTrip.Statement (.partitionResume part) := by
  intro w _ h
  cases h

theorem RoundTrip.remoteFault (core : Nat) : RoundTrip.Statement (.remoteFault core) := by
  intro w _ h
  cases h

theorem RoundTrip.containment (core : Nat) (slot : Nat) (src : Nat) (pa : Nat) : RoundTrip.Statement (.containment core slot src pa) := by
  intro w _ h
  cases h

theorem RoundTrip.shadowCompare (core : Nat) (slot : Nat) : RoundTrip.Statement (.shadowCompare core slot) := by
  intro w _ h
  cases h

theorem RoundTrip.scrubPeriod (stack : Nat) : RoundTrip.Statement (.scrubPeriod stack) := by
  intro w _ h
  cases h

theorem RoundTrip.boundaryMove (m : Nat × Layout) (more : List (Nat × Layout)) : RoundTrip.Statement (.boundaryMove m more) := by
  intro w _ h
  cases h

theorem RoundTrip.thermalThrottle (die : Nat) : RoundTrip.Statement (.thermalThrottle die) := by
  intro w _ h
  cases h

theorem RoundTrip.thermalShutdown : RoundTrip.Statement .thermalShutdown := by
  intro w _ h
  cases h

theorem RoundTrip.frequencyChange (die : Nat) (f : Nat) : RoundTrip.Statement (.frequencyChange die f) := by
  intro w _ h
  cases h

theorem RoundTrip.moduleReset : RoundTrip.Statement .moduleReset := by
  intro w _ h
  cases h

theorem RoundTrip.getPartitionState (part : Nat) : RoundTrip.Statement (.getPartitionState part) := by
  intro w _ h
  cases h

theorem RoundTrip.haltPartition (part : Nat) : RoundTrip.Statement (.haltPartition part) := by
  intro w _ h
  cases h

theorem RoundTrip.resumePartition (part : Nat) : RoundTrip.Statement (.resumePartition part) := by
  intro w _ h
  cases h

theorem RoundTrip.resetPartition (part : Nat) : RoundTrip.Statement (.resetPartition part) := by
  intro w _ h
  cases h

theorem RoundTrip.readJournal (part : Nat) (n : Nat) : RoundTrip.Statement (.readJournal part n) := by
  intro w _ h
  cases h

theorem RoundTrip.readErrorLog (die : Nat) (idx : Nat) : RoundTrip.Statement (.readErrorLog die idx) := by
  intro w _ h
  cases h

theorem RoundTrip.readDeviceMemory (part : Nat) (pa : Nat) (len : Nat) : RoundTrip.Statement (.readDeviceMemory part pa len) := by
  intro w _ h
  cases h

theorem RoundTrip.setBudgets (die : Nat) (b : BudgetOf) (val : Option Nat) : RoundTrip.Statement (.setBudgets die b val) := by
  intro w _ h
  cases h

theorem RoundTrip.moveBoundary (m : Nat × Layout) (more : List (Nat × Layout)) : RoundTrip.Statement (.moveBoundary m more) := by
  intro w _ h
  cases h

theorem RoundTrip.poisonLine (line : Nat) : RoundTrip.Statement (.poisonLine line) := by
  intro w _ h
  cases h

theorem RoundTrip.bteDescriptorStart (part : Nat) (q : Nat) : RoundTrip.Statement (.bteDescriptorStart part q) := by
  intro w _ h
  cases h

theorem RoundTrip.bteCompletion (part : Nat) (q : Nat) : RoundTrip.Statement (.bteCompletion part q) := by
  intro w _ h
  cases h

theorem RoundTrip.bteStop (part : Nat) (q : Nat) : RoundTrip.Statement (.bteStop part q) := by
  intro w _ h
  cases h

theorem RoundTrip.rdmaWriteArrival (part : Nat) (comm : Nat) (src : Nat) (rkey : Word) (va : DWord) (bytes : List Byte) (immd : Option Word) : RoundTrip.Statement (.rdmaWriteArrival part comm src rkey va bytes immd) := by
  intro w _ h
  cases h

theorem RoundTrip.rdmaReadRequest (part : Nat) (rkey : Word) (va : DWord) (len : Nat) : RoundTrip.Statement (.rdmaReadRequest part rkey va len) := by
  intro w _ h
  cases h

theorem RoundTrip.rdmaAck (qp : Nat) (ok : Bool) : RoundTrip.Statement (.rdmaAck qp ok) := by
  intro w _ h
  cases h

theorem RoundTrip.rdmaRetryTimeout (qp : Nat) : RoundTrip.Statement (.rdmaRetryTimeout qp) := by
  intro w _ h
  cases h

theorem RoundTrip.congestionNotification (qp : Nat) : RoundTrip.Statement (.congestionNotification qp) := by
  intro w _ h
  cases h

theorem RoundTrip.send (part : Nat) (q : Nat) : RoundTrip.Statement (.send part q) := by
  intro w _ h
  cases h

theorem RoundTrip.recv (part : Nat) (q : Nat) : RoundTrip.Statement (.recv part q) := by
  intro w _ h
  cases h

theorem RoundTrip.rrs (part : Nat) (q : Nat) : RoundTrip.Statement (.rrs part q) := by
  intro w _ h
  cases h

theorem RoundTrip.copy (part : Nat) (q : Nat) : RoundTrip.Statement (.copy part q) := by
  intro w _ h
  cases h

theorem RoundTrip.wait (part : Nat) (q : Nat) : RoundTrip.Statement (.wait part q) := by
  intro w _ h
  cases h

theorem RoundTrip.loop (part : Nat) (q : Nat) : RoundTrip.Statement (.loop part q) := by
  intro w _ h
  cases h

theorem RoundTrip.next (part : Nat) (q : Nat) : RoundTrip.Statement (.next part q) := by
  intro w _ h
  cases h

theorem RoundTrip.hostMemoryAccess (part : Nat) (pa : Nat) (write : Option (List Byte)) (len : Nat) : RoundTrip.Statement (.hostMemoryAccess part pa write len) := by
  intro w _ h
  cases h

theorem RoundTrip.functionLevelReset (fn : Nat) : RoundTrip.Statement (.functionLevelReset fn) := by
  intro w _ h
  cases h

theorem RoundTrip.getVersion (port : Nat) : RoundTrip.Statement (.getVersion port) := by
  intro w _ h
  cases h

theorem RoundTrip.getCapabilities (port : Nat) : RoundTrip.Statement (.getCapabilities port) := by
  intro w _ h
  cases h

theorem RoundTrip.negotiateAlgorithms (port : Nat) (algs : Nat) : RoundTrip.Statement (.negotiateAlgorithms port algs) := by
  intro w _ h
  cases h

theorem RoundTrip.getDigests (port : Nat) : RoundTrip.Statement (.getDigests port) := by
  intro w _ h
  cases h

theorem RoundTrip.getCertificate (port : Nat) (slot : Nat) : RoundTrip.Statement (.getCertificate port slot) := by
  intro w _ h
  cases h

theorem RoundTrip.challenge (port : Nat) (slot : Nat) : RoundTrip.Statement (.challenge port slot) := by
  intro w _ h
  cases h

theorem RoundTrip.getMeasurements (port : Nat) (index : Nat) : RoundTrip.Statement (.getMeasurements port index) := by
  intro w _ h
  cases h

theorem RoundTrip.keyExchange (port : Nat) : RoundTrip.Statement (.keyExchange port) := by
  intro w _ h
  cases h

theorem RoundTrip.finish (port : Nat) : RoundTrip.Statement (.finish port) := by
  intro w _ h
  cases h

theorem RoundTrip.endSession (port : Nat) : RoundTrip.Statement (.endSession port) := by
  intro w _ h
  cases h

theorem RoundTrip.invalidRdmaRequest (qp : Nat) : RoundTrip.Statement (.invalidRdmaRequest qp) := by
  intro w _ h
  cases h

theorem RoundTrip.rdmaReadResponse (qp : Nat) (bytes : List Byte) : RoundTrip.Statement (.rdmaReadResponse qp bytes) := by
  intro w _ h
  cases h

theorem RoundTrip.pfcPause (port : Nat) (prio : Nat) (on : Bool) : RoundTrip.Statement (.pfcPause port prio on) := by
  intro w _ h
  cases h

theorem RoundTrip.firmwareImageUpdate (image : Nat) (sigValid : Bool) : RoundTrip.Statement (.firmwareImageUpdate image sigValid) := by
  intro w _ h
  cases h

theorem RoundTrip.certificateProvisioning (port : Nat) (slot : Nat) (chain : Nat) : RoundTrip.Statement (.certificateProvisioning port slot chain) := by
  intro w _ h
  cases h

end Sys2Proof.Laws
end

