-- ==== Sys2Proof/Tests/Slice0.lean ====
section
/-! SUPPORT. Tests of the model: words and values that spec/ works out, the refusal of ill-formed terms, single steps, and for every statement a
state and operands that meet its hypotheses. -/
namespace Sys2Proof.Machine

set_option maxRecDepth 100000
set_option Elab.async false

/-! # Words that spec/ writes out -/

/-- Fields without guard and hints. -/
def encT (x y z : Opnd) (imm : Word) : Enc := { gn := false, gp := 7, x := x, nw := false, y := y, z := z, stall := 0, yld := false, chn := false, imm := imm }

/-- spec/04, worked encodings. -/
theorem test_word_iadd : decodeWord (0x12000C04#32 ++ 0x003FF920#32 ++ 0x00000010#32) =
    .ok (.iadd { encT (.v 4) (.v 1) .imm 16 with gp := 3, stall := 2, chn := true } false .i32) := by decide +kernel
theorem test_word_ffma : decodeWord (0x33011C03#32 ++ 0x00202000#32 ++ 0x00000002#32) = .ok (.ffma (encT (.v 3) (.v 1) (.v 4) 2) .rne .f32) := by
  decide +kernel
theorem test_word_rep : decodeWord (0x0F001FB0#32 ++ 0x761D8000#32 ++ 0x00002103#32) = .ok (.rep 3 1 2 0 0) := by decide +kernel
/-- spec/06: ISET.lt of the lane number and s4. -/
theorem test_word_iset : decodeWord (0x1D085C01#32 ++ 0x781CA000#32 ++ 0#32) = .ok (.iset (encT (.v 1) (.special .lane) (.s 4) 0) .lt .n32) := by
  decide +kernel
/-- spec/06: LTAB with table 0xF2 and W = v3. -/
theorem test_word_ltab : encode (.ltab (encT (.v 5) (.v 1) (.v 2) 0x0003C803) .b32) = some (0x25035C05#32 ++ 0x00201000#32 ++ 0x0003C803#32) := by
  decide +kernel
/-- spec/07: CVTP.f4 v9, v1, v2, 2. -/
theorem test_word_cvtp : decodeWord (0x42425C09#32 ++ 0x00201000#32 ++ 0#32) = .ok (.cvtp (encT (.v 9) (.v 1) (.v 2) 0) .rne false 2 .f4) := by
  decide +kernel
/-- spec/08: the branch of the divergence example under p1. -/
theorem test_word_bra : decodeWord (0x010007B0#32 ++ 0x761D8000#32 ++ 4#32) = .ok (.bra { encT .zero .zero .zero 4 with gp := 1 }) := by decide +kernel
/-- spec/09: LDL.f32 v5, [v2 + 0x40] and FENCE.rel.core. -/
theorem test_word_ldl : decodeWord (0x62011C05#32 ++ 0x005D8000#32 ++ 0x40#32) = .ok (.ldl (encT (.v 5) (.v 2) .zero 0x40) .f32) := by decide +kernel
theorem test_word_fence : decodeWord (0x68181FB0#32 ++ 0x761D8000#32 ++ 0#32) = .ok (.fence (encT .zero .zero .zero 0) .rel .core) := by decide +kernel
/-- spec/10: STEP and LQRY v9, W. -/
theorem test_word_step : decodeWord (0x90001FB0#32 ++ 0x761D8000#32 ++ 0#32) = .ok (.step (encT .zero .zero .zero 0)) := by decide +kernel
theorem test_word_lqry : decodeWord (0x91001C09#32 ++ 0x761D8000#32 ++ 1#32) = .ok (.lqry (encT (.v 9) .zero .zero 1)) := by decide +kernel
/-- spec/11: BAR 2, 0xF and LOCK s6, [s10]. -/
theorem test_word_bar : decodeWord (0x80081FB0#32 ++ 0x7FFD8000#32 ++ 0xF#32) = .ok (.bar (encT .zero .imm .zero 0xF) 2) := by decide +kernel
theorem test_word_lock : decodeWord (0x81001F96#32 ++ 0x735D8000#32 ++ 0#32) = .ok (.lock (encT (.s 6) (.s 10) .zero 0)) := by decide +kernel
/-- spec/13: MPASS.f4 s4 of four rows into z0 with the operand descriptor in s4. -/
theorem test_word_mpass : decodeWord (0xA1025FA4#32 ++ 0x729D8000#32 ++ 0x00060003#32) = .ok (.mpass (encT (.s 20) (.s 4) .zero 0x00060003) .f4 .f4) := by
  decide +kernel
/-- spec/15: BOP.add.f32 [s4 + 0x100], v3 and REDT.f32 s10, v2, v5. -/
theorem test_word_bop : decodeWord (0xB0011C03#32 ++ 0x729D8000#32 ++ 0x100#32) = .ok (.bop (encT (.v 3) (.s 4) .zero 0x100) .add .rne .f32) := by
  decide +kernel
theorem test_word_redt : decodeWord (0xB1011C02#32 ++ 0x73402800#32 ++ 0#32) = .ok (.redt (encT (.v 2) (.s 10) (.v 5) 0) .rne .f32) := by decide +kernel
/-- spec/16: MQCF mq0, s3 and LAUNCH s4, [s8], 3. -/
theorem test_word_mqcf : decodeWord (0x92001F88#32 ++ 0x727D8000#32 ++ 0#32) = .ok (.mqcf (encT (.mq 0) (.s 3) .zero 0)) := by decide +kernel
theorem test_word_launch : decodeWord (0xC4001F94#32 ++ 0x731D8000#32 ++ 3#32) = .ok (.launch (encT (.s 4) (.s 8) .zero 3)) := by decide +kernel
/-- spec/19: RDCLK.n64 s6. -/
theorem test_word_rdclk : decodeWord (0xD000DF96#32 ++ 0x761D8000#32 ++ 0#32) = .ok (.rdclk (encT (.s 6) .zero .zero 0)) := by decide +kernel
/-- spec/22: BCOPY s30, [s8], [s10], 5 and BFENCE 0x3. -/
theorem test_word_bcopy : decodeWord (0xC0001FAE#32 ++ 0x731CD000#32 ++ 5#32) = .ok (.bcopy (encT (.s 30) (.s 8) (.s 10) 5)) := by decide +kernel
theorem test_word_bfence : decodeWord (0xC1001FB0#32 ++ 0x7FFD8000#32 ++ 3#32) = .ok (.bfence (encT .zero .imm .zero 3)) := by decide +kernel
/-- R51, R52: an unassigned OP, an FN and a TY that the grid does not give, and a set reserved bit are refused by name. -/
theorem test_word_refused :
    decodeWord (0x0B001FB0#32 ++ 0x761D8000#32 ++ 0#32) = .error .reservedOp ∧ decodeWord (0x00041FB0#32 ++ 0x761D8000#32 ++ 0#32) = .error .illegalFn ∧
    decodeWord (0x12011C04#32 ++ 0x003FF920#32 ++ 0x10#32) = .error .illegalTy ∧
    decodeWord (0x00001FB0#32 ++ 0x761D8001#32 ++ 0#32) = .error .reservedBits := by decide +kernel

/-! # Ill-formed terms, one for each check of WellFormed -/

theorem test_ill_operand : instrWf (.nop (encT (.reserved 5) .zero .zero 0)) = false := by decide +kernel
theorem test_ill_type : instrWf (.imul (encT (.v 1) (.v 2) (.v 3) 0) .f32) = false := by decide +kernel
theorem test_ill_imm : instrWf (.exit (encT .zero .zero .zero 1)) = false := by decide +kernel
theorem test_ill_level : instrWf (.bar (encT .zero .imm .zero 1) 1) = false := by decide +kernel
theorem test_ill_reduction : instrWf (.red (encT .zero (.v 1) (.v 2) 0) .cas .rlx .b32) = false := by decide +kernel
theorem test_ill_order : instrWf (.red (encT .zero (.v 1) (.v 2) 0) .add .acq .n32) = false := by decide +kernel
theorem test_ill_formats : instrWf (.mpass (encT (.s 4) (.s 4) .zero 0) .bf16 .f4) = false := by decide +kernel

/-! # Values that spec/ works out -/

/-- R83: IMULH of two words of ones, unsigned and signed. -/
theorem test_imulh :
    wrapTo .n32 (opVal .n32 0xFFFFFFFF * opVal .n32 0xFFFFFFFF / 2 ^ tyWidth .n32) = 0xFFFFFFFE ∧
    wrapTo .i32 (opVal .i32 0xFFFFFFFF * opVal .i32 0xFFFFFFFF / 2 ^ tyWidth .i32) = 0 := by decide +kernel
/-- R82: INEG of the most negative value, wrapped and saturated. -/
theorem test_ineg :
    eltOp false .i32 (fun a _ => -a) 0x80000000 0 = 0x80000000 ∧ eltOp true .i32 (fun a _ => -a) 0x80000000 0 = 0x7FFFFFFF := by decide +kernel
/-- R90: table 0xF2 is (Y and not Z) or W; 0xAC is the select W ? Y : Z. -/
theorem test_ltab : ltabOf 0xF2 0b1100 0b1010 0b0001 = 0b0101 ∧ ltabOf 0xAC 0b1100 0b1010 0b0110 = 0b1100 := by decide +kernel
/-- R94: the worked selectors on Y = 0x112233F4. -/
theorem test_bsel :
    bselBytes 0x0AAA 0x112233F4 0 4 = 0xFFFFFFF4 ∧ bselBytes 0x3210 0x112233F4 0 4 = 0xF4332211 := by decide +kernel
/-- R82: IADD of the same two words in each packed form. -/
theorem test_iadd_packed :
    eltOp false .i8x4 (· + ·) 0x7F80FF01 0x01800101 = 0x80000002 ∧ eltOp true .i8x4 (· + ·) 0x7F80FF01 0x01800101 = 0x7F800002 ∧
    eltOp true .n8x4 (· + ·) 0x7F80FF01 0x01800101 = 0x80FFFF02 := by decide +kernel
/-- R92: BFX of the worked field, POS 8 and LEN 8. -/
theorem test_bfx : fieldOf .b32 0x0808 = (8, 8) ∧ wrapTo .b32 (intVal true 8 (0xF0A0 / 2 ^ 8)) = 0xFFFFFFF0 := by decide +kernel
/-- R101: the fused and the unfused sum. -/
theorem test_ffma :
    numFma fmtF32 .rne (fval .f32 0x3F800800) (fval .f32 0x3F800800) (fval .f32 0xBF800000) = 0x3A000400 ∧
    numAdd fmtF32 .rne (fval .f32 (enc64 (numRound fmtF32 .rne (numMulExact (fval .f32 0x3F800800) (fval .f32 0x3F800800))))) (fval .f32 0xBF800000) =
      0x3A000000 := by decide +kernel
/-- R105: classes of an f8e5 subnormal and of the f8e4 NaN and least value. -/
theorem test_fclass :
    classBit fmtF8e5 (fval .f8e5 0x01) = 5 ∧ classBit fmtF8e4 (fval .f8e4 0xFF) = 8 ∧ classBit fmtF8e4 (fval .f8e4 0xFE) = 1 := by decide +kernel
/-- R110, R111: the worked pair of CVTP and the extraction of CVTX. -/
theorem test_cvtp :
    putElt .f4 (putElt .f4 0x00070092 4 (packElt .rne false .f4 0x3FA00000)) 5 (packElt .rne false .f4 0xC0600000) = 0x00E20092 ∧
    cvtxOf .f4 5 0x00E20092 = 0xC0800000 := by decide +kernel
/-- R70, R71: the worked element of the array, and with the scale 0xFF. -/
theorem test_array :
    (let w := 0x12 + 2 ^ 32 * 0xA + 2 ^ 512 * 0x2
     let sc := 0x60 + 2 ^ 8 * 0x60 + 2 ^ 128 * 0x60
     let row := fun b => 0x44 + 2 ^ 32 * 0x2 + 2 ^ 512 * 0x2 + 2 ^ 4096 * (0x50 + 2 ^ 8 * b + 2 ^ 128 * 0x60)
     passElem .f4 .f4 w sc (row 0x68) (valNum fmtBf16 0x3F80) (valNum fmtBf16 0x3F80) 0x4B800000 = 0x4B800000 ∧
     passElem .f4 .f4 w sc (row 0xFF) (valNum fmtBf16 0x3F80) (valNum fmtBf16 0x3F80) 0x4B800000 = 0x7FC00000) := by decide +kernel
/-- R325: the home of the refused store and its full record. -/
theorem test_remote_record :
    homeOf { clusters := [], slices := [(2, List.range 16)], ways := [], hbm := [], weight := 1, hbmShare := 100 } 0x0004000001000 0x204 = 64 * 2 + 10 := by decide +kernel

/-! # Small states -/

/-- The group of `withFetchWord` in its entry state, selected, with changes to its node, its core and itself. -/
def tb (fn : Node → Node) (fc : Core → Core) (fg : Group → Group) : State :=
  modGroup (modCore (modNode { State.reset.withFetchWord 96 0 with sel := some ⟨0, 0, 0⟩ } 0 bootNode fn) 0 fc) 0 0 fg
/-- With changes to the group alone. -/
def tg (fg : Group → Group) : State := tb id id fg
/-- The group as it is placed. -/
def t0 : State := tg id
/-- With scalar registers set. -/
def ts (l : List (Nat × Word)) : State := tg fun g => { g with sregs := l }

/-- An issue that is ready, with a condition on its context and sources: a check that evaluates. -/
def readyIf (i : Instr) (c : Enc) (s : State) (P : Ctx → Srcs → Bool) : Bool :=
  match ctxOf s c with
  | none => false
  | some x =>
    !busy x.g x.e (rulesOf i) c && !lagging s x && (issueCheck i c x).isNone && (!endsNow i c x || settled x.g x.e) &&
    !((rulesOf i).taken && x.g.shadow == .shadow && x.act != 0) &&
    match readAll s x (rulesOf i) c with
    | .ok v _ _ => P x v
    | _ => false

theorem ready_of {i : Instr} {c : Enc} {s : State} {P : Ctx → Srcs → Bool} (h : readyIf i c s P = true) :
    ∃ x v left added, Ready i c s x v left added ∧ P x v = true := by
  unfold readyIf at h
  split at h
  · cases h
  · rename_i x hx
    split at h
    · rename_i v left added hr
      simp only [Bool.and_eq_true, Bool.not_eq_true', Bool.or_eq_true, Option.isNone_iff_eq_none] at h
      obtain ⟨⟨⟨⟨⟨h1, h2⟩, h3⟩, h4⟩, h5⟩, h6⟩ := h
      refine ⟨x, v, left, added, ⟨hx, h1, h2, h3, ?_, hr, h5⟩, h6⟩
      intro he
      rcases h4 with h4 | h4
      · rw [he] at h4; cases h4
      · exact h4
    · simp at h

/-- Lane `l` of register `n` of the group after an outcome. -/
def outV (o : Out) (n l : Nat) : Option Word :=
  match o with
  | .next t => (getGroup t 0 0).map fun g => vlane g n l
  | _ => none
/-- A scalar register of the group after an outcome. -/
def outS (o : Out) (n : Nat) : Option Word :=
  match o with
  | .next t => (getGroup t 0 0).map fun g => sreg g n
  | _ => none
/-- Where lane `l` stands after an outcome. -/
def outAt (o : Out) (l : Nat) : Option (Word × Word) :=
  match o with
  | .next t => lanePos t 0 0 l
  | _ => none
/-- The cause that the group has raised after an outcome. -/
def outCause (o : Out) : Option Nat :=
  match o with
  | .next t => (getGroup t 0 0).map fun g => g.cause
  | _ => none

/-! # One step -/

/-- R82: a wrap, in every lane, with one register as source and destination. -/
theorem test_step_iadd : outV (exec (.iadd (encT (.v 1) (.v 1) .imm 0x7FFFFFFF) false .i32)
    (tg fun g => { g with vregs := [(1, (Vector.ofFn fun l => BitVec.ofNat 32 (l.val + 1)))] })) 1 5 = some 0x80000005 := by decide +kernel
/-- R42, R78: lanes outside `act` keep their register. -/
theorem test_step_guard :
    (let o := exec (.iadd { encT (.v 1) .zero .imm 7 with gp := 0 } false .i32) (tg fun g => { g with preds := [(0, 2)] })
     outV o 1 0 = some 0 ∧ outV o 1 1 = some 7) := by decide +kernel
/-- R91: a shift by the width gives 0 under clamp, and takes the count modulo the width otherwise. -/
theorem test_step_shl :
    outS (exec (.shl (encT (.s 1) (.s 2) .imm 32) true .b32) (ts [(2, 3)])) 1 = some 0 ∧
    outS (exec (.shl (encT (.s 1) (.s 2) .imm 33) false .b32) (ts [(2, 3)])) 1 = some 6 := by decide +kernel
/-- R87: a signed comparison at the most negative value. -/
theorem test_step_iset :
    (match exec (.iset (encT (.v 1) (.s 2) (.s 3) 0) .lt .i32) (ts [(2, 0x80000000), (3, 1)]) with
     | .next t => (getGroup t 0 0).map fun g => predRow g 1
     | _ => none) = some allLanes := by decide +kernel
/-- R129: a branch under p1 splits the entry. -/
theorem test_step_bra :
    (let o := exec (.bra { encT .zero .zero .zero 40 with gp := 1 }) (tg fun g => { g with preds := [(1, 1)] })
     outAt o 0 = some (40, 0) ∧ outAt o 1 = some (1, 0)) := by decide +kernel
/-- R131: REGION opens a region at its own IX. -/
theorem test_step_region : outAt (exec (.region (encT .zero .zero .zero 0)) (tg fun g =>
    { g with front := [{ prio := 0, ix := 9, mask := allLanes, rgn := 3 }] })) 0 = some (10, 9) := by decide +kernel
/-- R133, R314: TRAP raises the software cause with its code, at IX + 1. -/
theorem test_step_trap :
    (match exec (.trap (encT .zero .zero .zero 0x77)) t0 with
     | .next t => (getGroup t 0 0).map fun g => (g.raised, g.cause, g.aux)
     | _ => none) = some (true, trapCode .software, 0x77) := by decide +kernel
/-- R41, R52: an odd first register of a pair raises ILLEGAL_OPERAND. -/
theorem test_step_odd_pair : outCause (exec (.iadd (encT (.s 1) (.s 2) .zero 0) false .i64) t0) = some (trapCode .illegalOperand) := by decide +kernel
/-- R146, R156: the pool is little-endian, and a local access that is misaligned raises PROTECTION. -/
theorem test_step_ldl :
    outV (exec (.ldl (encT (.v 1) (.s 2) .zero 4) .b32) (tb id (fun k => lwrite k 8 4 0x04030201) fun g => { g with sregs := [(2, 4)] })) 1 3 =
      some 0x04030201 ∧
    outCause (exec (.ldl (encT (.v 1) (.s 2) .zero 1) .b32) (ts [(2, 4)])) = some (trapCode .protection) := by decide +kernel
/-- R229: ZMOV takes columns l and l + 64 of the row. -/
theorem test_step_zmov :
    (let o := exec (.zmov (encT (.v 2) (.v 1) .zero 3)) (tb id (fun k => { k with accs := [(19, (0xAB : BitVec 4096) <<< (32 * 65))] }) id)
     outV o 2 1 = some 0 ∧ outV o 3 1 = some 0xAB) := by decide +kernel
/-- R36, R132: the word of zeros is a NOP with registers named, which traps. -/
theorem test_step_zero_word : outCause (step (State.reset.withFetchWord 96 0)) = some (trapCode .illegalOperand) := by decide +kernel
/-- A fetched word runs first (R36). -/
theorem test_step_fetch : outAt (step (State.reset.withFetchWord 96 0x00001FB0761D800000000000)) 0 = some (1, 0) := by decide +kernel

/-! # Witnesses: every statement's hypotheses can be met -/

theorem wit {i : Instr} {c : Enc} {s : State} (P : Ctx → Srcs → Prop) [h : ∀ x v, Decidable (P x v)]
    (hr : readyIf i c s (fun x v => decide (P x v)) = true) : ∃ x v left added, Ready i c s x v left added ∧ P x v := by
  obtain ⟨x, v, left, added, h1, h2⟩ := ready_of hr
  exact ⟨x, v, left, added, h1, of_decide_eq_true h2⟩

/-- A frontier of one entry. -/
def One (x : Ctx) : Prop := x.g.front = [x.e]
theorem one_disjoint {x : Ctx} (h : One x) : Disjoint' x.g.front := by rw [h]; exact List.pairwise_singleton _ _
theorem front_disjoint (e : Entry) : Disjoint' [e] := List.pairwise_singleton _ _

/-! ## Computing instructions -/

theorem witness_IntegerComputes : ∃ i c wide f s, intFn i = some (c, wide, f) ∧ ∃ x v left added, Ready i c s x v left added ∧ x.act ≠ 0 :=
  ⟨.iadd (encT (.v 1) (.v 2) .imm 5) true .i32, _, _, _, t0, rfl, wit (fun x _ => x.act ≠ 0) (by decide +kernel)⟩
theorem witness_FloatComputes : ∃ i c wide f s, floatFn i = some (c, wide, f) ∧ ∃ x v left added, Ready i c s x v left added ∧ x.act ≠ 0 :=
  ⟨.ffma (encT (.v 1) (.v 2) (.v 3) 4) .rdn .f16, _, _, _, t0, rfl, wit (fun x _ => x.act ≠ 0) (by decide +kernel)⟩
theorem witness_StochasticConversion : ∃ c ns ty s x v left added, Ready (.cvts c ns ty) c s x v left added ∧ x.act ≠ 0 :=
  ⟨encT (.v 1) (.v 2) .zero 0, false, .f16, t0, wit (fun x _ => x.act ≠ 0) (by decide +kernel)⟩
theorem witness_LaneMovesComplete : ∃ i c wide f s, moveFn i = some (c, wide, f) ∧ ∃ x v left added, Ready i c s x v left added ∧ x.act ≠ 0 :=
  ⟨.shfl (encT (.v 1) (.v 2) .imm 1) .rot .b32, _, _, _, t0, rfl, wit (fun x _ => x.act ≠ 0) (by decide +kernel)⟩
theorem witness_PredicatesCompute : ∃ i c f s, predFn i = some (c, f) ∧ ∃ x v left added, Ready i c s x v left added ∧ x.act ≠ 0 :=
  ⟨.iset (encT (.v 6) (.v 2) .imm 1) .ge .n32, _, _, t0, rfl, wit (fun x _ => x.act ≠ 0) (by decide +kernel)⟩
theorem witness_PredicatesFromRegister : ∃ c s x v left added, Ready (.v2p c) c s x v left added ∧ x.act ≠ 0 :=
  ⟨encT .zero (.v 2) .imm 0x7F, t0, wit (fun x _ => x.act ≠ 0) (by decide +kernel)⟩
theorem witness_BadSelectorsTrap_bsel : ∃ c s, bselOk c.imm = false ∧ ∃ x v left added, Ready (.bsel c) c s x v left added ∧ x.act ≠ 0 :=
  ⟨encT (.v 1) (.v 2) (.v 3) 0xA000, t0, by decide +kernel, wit (fun x _ => x.act ≠ 0) (by decide +kernel)⟩
theorem witness_BadSelectorsTrap_rds : ∃ c s, 9 < c.imm.toNat ∧ ∃ x v left added, Ready (.rds c) c s x v left added ∧ x.act ≠ 0 :=
  ⟨encT (.v 1) .zero .zero 10, t0, by decide +kernel, wit (fun x _ => x.act ≠ 0) (by decide +kernel)⟩
theorem witness_BadSelectorsTrap_rds_scalar :
    ∃ c s, (c.imm.toNat = 5 ∧ isScalar c.x = true) ∧ ∃ x v left added, Ready (.rds c) c s x v left added ∧ x.act ≠ 0 :=
  ⟨encT (.s 1) .zero .zero 5, t0, by decide +kernel, wit (fun x _ => x.act ≠ 0) (by decide +kernel)⟩

/-! ## Lanes and entries -/

theorem witness_NopCompletes : ∃ c s x v left added, Ready (.nop c) c s x v left added ∧ One x ∧ x.e.rep = none := by
  obtain ⟨x, v, l, a, h, h1, h2⟩ := wit (i := .nop (encT .zero .zero .zero 7)) (c := encT .zero .zero .zero 7) (s := t0)
    (fun x _ => x.g.front = [x.e] ∧ x.e.rep = none) (by decide +kernel)
  exact ⟨_, _, x, v, l, a, h, h1, h2⟩
theorem witness_NopCompletes_rep : ∃ c s x v left added, Ready (.nop c) c s x v left added ∧ ∃ rc, x.e.rep = some rc ∧ x.e.repi < rc.last := by
  obtain ⟨x, v, l, a, h, h1⟩ := wit (i := .nop (encT .zero .zero .zero 7)) (c := encT .zero .zero .zero 7)
    (s := tg fun g => { g with front := [{ prio := 0, ix := 0, mask := allLanes, rgn := 0, rep := some ⟨3, 0, 0, 0, 0⟩, repi := 2 }] })
    (fun x _ => x.e.rep = some ⟨3, 0, 0, 0, 0⟩ ∧ x.e.repi = 2) (by decide +kernel)
  exact ⟨_, _, x, v, l, a, h, _, h1.1, by rw [h1.2]; decide⟩
theorem witness_NopCompletes_operand : instrWf (.nop (encT (.v 0) .zero .zero 0)) = true ∧
    chnIllegal (.nop (encT (.v 0) .zero .zero 0)) (encT (.v 0) .zero .zero 0) = false := by decide +kernel
theorem witness_NextInstruction : ∃ i c s, plainEnc i = some c ∧ ∃ x v left added, Ready i c s x v left added ∧ x.g.front = [x.e] ∧ x.e.rep = none :=
  ⟨.iadd (encT (.v 1) (.v 2) .imm 5) false .i32, _, t0, rfl, wit (fun x _ => x.g.front = [x.e] ∧ x.e.rep = none) (by decide +kernel)⟩
theorem witness_RegionOpens : ∃ c s x v left added, Ready (.region c) c s x v left added ∧ x.g.front = [x.e] :=
  ⟨encT .zero .zero .zero 0, t0, wit (fun x _ => x.g.front = [x.e]) (by decide +kernel)⟩
theorem witness_SleepSuspends : ∃ c s x v left added, Ready (.sleep c) c s x v left added ∧ x.act ≠ 0 ∧ x.e.rep = none ∧ x.g.front = [x.e] :=
  ⟨encT .zero .imm .zero 0xFFFFFFFF, t0, wit (fun x _ => x.act ≠ 0 ∧ x.e.rep = none ∧ x.g.front = [x.e]) (by decide +kernel)⟩
theorem witness_YieldMovesOn : ∃ c s x v left added, Ready (.yield c) c s x v left added ∧ x.g.front = [x.e] :=
  ⟨encT .zero .zero .zero 0, t0, wit (fun x _ => x.g.front = [x.e]) (by decide +kernel)⟩
/-- Two entries: the first has yielded, the other is LIVE. -/
def pairFront (due : Lanes) : List Entry :=
  [{ prio := 0, ix := 5, mask := 1, rgn := 0, st := .yielded, due := due }, { prio := 0, ix := 6, mask := 2, rgn := 0 }]
theorem witness_YieldWaitsForOthers : ∃ (l : List Entry) (e : Entry), e ∈ l ∧ e.st = .yielded ∧ (∀ o ∈ l, o.mask ≠ e.mask → o.st = .live → o.mask &&& e.due = 0) :=
  ⟨pairFront 0, _, List.mem_cons_self, rfl, by decide⟩
theorem witness_YieldWaitsForOthers_due : ∃ (l : List Entry) (e : Entry), e ∈ l ∧ e.st = .yielded ∧ (∃ o ∈ l, o.mask ≠ e.mask ∧ o.st = .live ∧ o.mask &&& e.due ≠ 0) :=
  ⟨pairFront 2, _, List.mem_cons_self, rfl, by decide⟩
theorem witness_TransfersMoveLanes : ∃ i c f s, targetFn i = some (c, f) ∧ ∃ x v left added, Ready i c s x v left added ∧ x.g.front = [x.e] :=
  ⟨.callInd (encT (.v 1) (.v 2) .zero 0), _, _, t0, rfl, wit (fun x _ => x.g.front = [x.e]) (by decide +kernel)⟩
theorem witness_ExitRemovesLanes : ∃ c s x v left added, Ready (.exit c) c s x v left added ∧ (x.node.la.dims = 0 ∨ x.act = 0) ∧
    (∀ e ∈ x.g.front, syncing e = false) ∧ (∃ l, l < 64 ∧ (laneAt x.g.front l).isSome = true ∧ x.act.getLsbD l = false) ∧ x.g.front = [x.e] ∧ x.act ≠ 0 := by
  obtain ⟨x, v, l, a, h, h1, h2, h3, h4, h5⟩ := wit (i := .exit { encT .zero .zero .zero 0 with gp := 0 }) (c := { encT .zero .zero .zero 0 with gp := 0 })
    (s := tg fun g => { g with preds := [(0, 1)] })
    (fun x _ => x.node.la.dims = 0 ∧ (∀ e ∈ x.g.front, syncing e = false) ∧ ((laneAt x.g.front 63).isSome = true ∧ x.act.getLsbD 63 = false) ∧
      x.g.front = [x.e] ∧ x.act ≠ 0) (by decide +kernel)
  exact ⟨_, _, x, v, l, a, h, .inl h1, h2, ⟨63, by decide, h3⟩, h4, h5⟩
theorem witness_ExitFreesTheSlot : ∃ c s x v left added, Ready (.exit c) c s x v left added ∧ x.node.la.dims = 0 ∧ x.node.la.estn = 0 ∧
    x.g.shadow = .none ∧ x.g.front = [x.e] ∧ x.act = x.e.mask ∧ x.act ≠ 0 ∧ storesLeft s x.core x.slot x.g = false ∧
    beingConveyed s x.g.part x.g.node x.g.blk x.g.grp = false ∧ leavingNow s x.core x.slot = false :=
  ⟨encT .zero .zero .zero 0, t0, wit (fun x _ => x.node.la.dims = 0 ∧ x.node.la.estn = 0 ∧
    x.g.shadow = .none ∧ x.g.front = [x.e] ∧ x.act = x.e.mask ∧ x.act ≠ 0 ∧ storesLeft t0 x.core x.slot x.g = false ∧
    beingConveyed t0 x.g.part x.g.node x.g.blk x.g.grp = false ∧ leavingNow t0 x.core x.slot = false) (by decide +kernel)⟩
theorem witness_ExitCompletes : ∃ c s x v left added, Ready (.exit c) c s x v left added ∧ exitPartial x = false ∧ x.g.front = [x.e] ∧ x.act ≠ 0 :=
  ⟨encT .zero .zero .zero 0, t0, wit (fun x _ => exitPartial x = false ∧ x.g.front = [x.e] ∧ x.act ≠ 0) (by decide +kernel)⟩
theorem witness_TrapRaisesSoftware : ∃ i k c s, (i = Instr.trap c ∧ k = TrapKind.software ∨ i = Instr.bkpt c ∧ k = TrapKind.breakpoint) ∧ ∃ x v left added,
    Ready i c s x v left added ∧ x.act ≠ 0 ∧ x.g.shadow ≠ .shadow ∧ x.e.rep = none ∧ x.g.front = [x.e] :=
  ⟨_, _, encT .zero .zero .zero 7, t0, .inr ⟨rfl, rfl⟩,
    wit (fun x _ => x.act ≠ 0 ∧ x.g.shadow ≠ .shadow ∧ x.e.rep = none ∧ x.g.front = [x.e]) (by decide +kernel)⟩
theorem witness_EmptyTrapMovesOn : ∃ i c s, (i = Instr.trap c ∨ i = Instr.bkpt c) ∧ ∃ x v left added, Ready i c s x v left added ∧ x.act = 0 ∧ x.g.front = [x.e] :=
  ⟨_, { encT .zero .zero .zero 7 with gn := true }, t0, .inl rfl, wit (fun x _ => x.act = 0 ∧ x.g.front = [x.e]) (by decide +kernel)⟩
/-- An LSYNC of every lane, and of a mask that leaves lanes out. -/
def lsyncEnc : Enc := encT .zero (.s 2) .zero 0
theorem witness_LaneSyncCompletes : ∃ c s x v left added, Ready (.lsync c) c s x v left added ∧ x.act ≠ 0 ∧ x.act = x.e.mask ∧ lane64 v.y 0 = x.e.mask ∧
    x.e.rep = none ∧ x.g.front = [x.e] ∧ (∀ e ∈ x.g.front, syncing e = false) :=
  ⟨lsyncEnc, ts [(2, 0xFFFFFFFF), (3, 0xFFFFFFFF)], wit (fun x v => x.act ≠ 0 ∧ x.act = x.e.mask ∧ lane64 v.y 0 = x.e.mask ∧ x.e.rep = none ∧
    x.g.front = [x.e] ∧ (∀ e ∈ x.g.front, syncing e = false)) (by decide +kernel)⟩
theorem witness_LaneSyncWaits : ∃ c s x v left added, Ready (.lsync c) c s x v left added ∧ x.act ≠ 0 ∧ lane64 v.y 0 ≠ 0 ∧ x.act &&& ~~~(lane64 v.y 0) = 0 ∧
    (∀ e ∈ x.g.front, syncing e = true → syncLanes e &&& lane64 v.y 0 ≠ 0 → syncMask e = lane64 v.y 0) ∧
    ∃ l, syncCheck x.node.la.btab x.g.ncall (syncFront x (lane64 v.y 0)) = .front l := by
  obtain ⟨x, v, l, a, h, h1, h2, h3, h4, h5⟩ := wit (i := .lsync lsyncEnc) (c := lsyncEnc) (s := ts [(2, 0xFFFFFFFF), (3, 0xFFFFFFFF)])
    (fun x v => x.act ≠ 0 ∧ lane64 v.y 0 ≠ 0 ∧ x.act &&& ~~~(lane64 v.y 0) = 0 ∧
    (∀ e ∈ x.g.front, syncing e = true → syncLanes e &&& lane64 v.y 0 ≠ 0 → syncMask e = lane64 v.y 0) ∧
    (match syncCheck x.node.la.btab x.g.ncall (syncFront x (lane64 v.y 0)) with | .front _ => true | _ => false) = true) (by decide +kernel)
  refine ⟨_, _, x, v, l, a, h, h1, h2, h3, h4, ?_⟩
  split at h5
  · exact ⟨_, by assumption⟩
  · cases h5
theorem witness_LaneSyncMembership : ∃ c s x v left added, Ready (.lsync c) c s x v left added ∧ x.act ≠ 0 ∧ x.act &&& ~~~(lane64 v.y 0) ≠ 0 :=
  ⟨lsyncEnc, ts [(2, 0xFFFFFFFE), (3, 0xFFFFFFFF)], wit (fun x v => x.act ≠ 0 ∧ x.act &&& ~~~(lane64 v.y 0) ≠ 0) (by decide +kernel)⟩
theorem witness_LaneSyncJoins : ∃ (l t : List Entry) (a : Entry) (m : Lanes) (k : Nat),
    l.filter (syncsOn m) = a :: t ∧ a.rep = none ∧ Disjoint' l ∧ k < 64 ∧ t ≠ [] :=
  ⟨[{ prio := 0, ix := 5, mask := 1, rgn := 0, st := .blocked, wait := some (.lsync 3 1) },
    { prio := 0, ix := 5, mask := 2, rgn := 1, st := .blocked, wait := some (.lsync 3 2) }], _, _, 3, 63, rfl, rfl, by unfold Disjoint'; decide, by decide, by decide⟩

/-! ## The machine, REP, checks and traps -/

/-- A fetch at the entry a state selects: a check that evaluates. -/
def fetchIf (s : State) (ix : Entry → Word) (P : Sel → Group → Entry → Node → BitVec 96 → Bool) : Bool :=
  match selected s with
  | some (sl, g, e, n) =>
    match fetchAt s sl.core sl.slot n g.part e.mask (ix e) with
    | .word w _ => P sl g e n w
    | _ => false
  | none => false
theorem fetch_of {s : State} {ix : Entry → Word} {P : Sel → Group → Entry → Node → BitVec 96 → Bool} (h : fetchIf s ix P = true) :
    ∃ sl g e n w s1, selected s = some (sl, g, e, n) ∧ fetchAt s sl.core sl.slot n g.part e.mask (ix e) = .word w s1 ∧ P sl g e n w = true := by
  unfold fetchIf at h
  split at h
  · rename_i sl g e n hs
    split at h
    · rename_i w s1 hf
      exact ⟨sl, g, e, n, w, s1, hs, hf, h⟩
    · cases h
  · cases h

/-- A state that fetches a word next: its agenda is empty, and its scheduler picks the group. -/
def tw (w : Nat) : State := State.reset.withFetchWord 96 w
theorem witness_StepRunsDecoded : ∃ s sl g e n w s1 i, s.agenda = [] ∧ pendingEvent s = none ∧ allDark s = false ∧ pick s = some sl ∧
    selected { s with sel := some sl } = some (sl, g, e, n) ∧
    fetchAt { s with sel := some sl } sl.core sl.slot n g.part e.mask (instrIx e) = .word w s1 ∧ decodeWord w = .ok i := by
  obtain ⟨sl, g, e, n, w, s1, h1, h2, h3⟩ := fetch_of (s := { tw 0x00001FB0761D800000000000 with sel := some ⟨0, 0, 0⟩ }) (ix := instrIx)
    (P := fun sl _ _ _ w => decide (sl = ⟨0, 0, 0⟩ ∧ decodeWord w = .ok (.nop (encT .zero .zero .zero 0)))) (by decide +kernel)
  obtain ⟨rfl, h4⟩ := of_decide_eq_true h3
  exact ⟨tw 0x00001FB0761D800000000000, _, g, e, n, w, s1, _, by decide +kernel, by decide +kernel, by decide +kernel, by decide +kernel, h1, h2, h4⟩
theorem witness_UndecodableTraps : ∃ s sl g e n w s1 err, s.agenda = [] ∧ pendingEvent s = none ∧ allDark s = false ∧ pick s = some sl ∧
    selected { s with sel := some sl } = some (sl, g, e, n) ∧
    fetchAt { s with sel := some sl } sl.core sl.slot n g.part e.mask (instrIx e) = .word w s1 ∧ decodeWord w = .error err := by
  obtain ⟨sl, g, e, n, w, s1, h1, h2, h3⟩ := fetch_of (s := { tw 0x0B001FB0761D800000000000 with sel := some ⟨0, 0, 0⟩ }) (ix := instrIx)
    (P := fun sl _ _ _ w => decide (sl = ⟨0, 0, 0⟩ ∧ decodeWord w = .error .reservedOp)) (by decide +kernel)
  obtain ⟨rfl, h4⟩ := of_decide_eq_true h3
  exact ⟨tw 0x0B001FB0761D800000000000, _, g, e, n, w, s1, _, by decide +kernel, by decide +kernel, by decide +kernel, by decide +kernel, h1, h2, h4⟩
theorem witness_StepRunsAgenda : ∃ (s : State) (i : Instr) (l : List Instr), s.agenda = i :: l := ⟨{ t0 with agenda := [.moduleReset] }, _, _, rfl⟩
theorem witness_DecodeEncode : ∃ i w, instrWf i = true ∧ encode i = some w :=
  ⟨.bar (encT .zero .imm .zero 0xF) 7, _, by decide +kernel, by rfl⟩
theorem witness_EncodeDecode : ∃ w i, decodeWord w = .ok i := ⟨7, _, rfl⟩
theorem witness_SourcesAreReadOnly : ∃ x i c, ctxOf t0 c = some x ∧ portOf (rulesOf i) c = none ∧ x.g.shadow = .none :=
  ⟨_, .nop (encT .zero .zero .zero 0), encT .zero .zero .zero 0, rfl, rfl, rfl⟩
theorem witness_ScalarDestination : (1 : Lanes) ≠ 0 ∧ (0 : Lanes) = 0 := ⟨by decide, rfl⟩
theorem witness_SquallRises : (getPart t0 0).squall = false ∧ (getPart (modPart t0 0 fun p => { p with squall := true }) 0).squall = true := by decide +kernel
theorem witness_StepKeepsMemoryForm : ∃ s t, memWf s = true ∧ step s = .next t := ⟨State.reset, _, by decide +kernel, rfl⟩
theorem witness_StepKeepsFrontiers : ∃ s t, FrontsOk s ∧ step s = .next t := by
  refine ⟨State.reset, _, ⟨(by intro k hk; cases hk), fun p hp => ?_⟩, rfl⟩
  simp only [State.reset, List.mem_singleton] at hp
  subst hp
  exact ⟨(by intro im h; cases h), (by intro n h; cases h)⟩
theorem witness_OtherGroupsKeepRegisters : ∃ i c s x t, encOf i = some c ∧ ctxOf s c = some x ∧ exec i s = .next t :=
  ⟨.nop (encT .zero .zero .zero 7), _, t0, _, _, rfl, rfl, rfl⟩
/-- A word that REP repeats stands at IX 1. -/
def tr (w : Nat) : State :=
  memPuts t0 ((List.range 12).map fun k => (0x1000000000 + 12 + k, (BitVec.ofNat 96 w).extractLsb' (8 * k) 8))
theorem witness_RepStarts : ∃ cnt xs ys zs ws s sl g e n w s1 i, selected s = some (sl, g, e, n) ∧
    fetchAt s sl.core sl.slot n g.part e.mask (e.ix + 1) = .word w s1 ∧ decodeWord w = .ok i ∧ e.rep = none ∧
    repCheck n.la { last := (cnt : Fin 64).val, xs := xs, ys := ys, zs := zs, ws := ws } e.chain.length i = none := by
  obtain ⟨sl, g, e, n, w, s1, h1, h2, h3⟩ := fetch_of (s := tr 0x33011C030020200000000002) (ix := fun e => e.ix + 1)
    (P := fun _ _ e n w => decide (e.rep = none ∧ decodeWord w = .ok (.ffma (encT (.v 3) (.v 1) (.v 4) 2) .rne .f32) ∧
      repCheck n.la { last := 3, xs := 1, ys := 2, zs := 0, ws := 0 } e.chain.length (.ffma (encT (.v 3) (.v 1) (.v 4) 2) .rne .f32) = none))
    (by decide +kernel)
  obtain ⟨h4, h5, h6⟩ := of_decide_eq_true h3
  exact ⟨3, 1, 2, 0, 0, _, sl, g, e, n, w, s1, _, h1, h2, h5, h4, h6⟩
theorem witness_RepChecksFail : ∃ cnt xs ys zs ws s sl g e n w s1 i k, selected s = some (sl, g, e, n) ∧
    fetchAt s sl.core sl.slot n g.part e.mask (e.ix + 1) = .word w s1 ∧ decodeWord w = .ok i ∧ e.rep = none ∧
    repCheck n.la { last := (cnt : Fin 64).val, xs := xs, ys := ys, zs := zs, ws := ws } e.chain.length i = some k := by
  obtain ⟨sl, g, e, n, w, s1, h1, h2, h3⟩ := fetch_of (s := tr 0x33011C030020200000000002) (ix := fun e => e.ix + 1)
    (P := fun _ _ e n w => decide (e.rep = none ∧ decodeWord w = .ok (.ffma (encT (.v 3) (.v 1) (.v 4) 2) .rne .f32) ∧
      repCheck n.la { last := 63, xs := 15, ys := 0, zs := 0, ws := 0 } e.chain.length (.ffma (encT (.v 3) (.v 1) (.v 4) 2) .rne .f32) =
        some .illegalOperand)) (by decide +kernel)
  obtain ⟨h4, h5, h6⟩ := of_decide_eq_true h3
  exact ⟨63, 15, 0, 0, 0, _, sl, g, e, n, w, s1, _, _, h1, h2, h5, h4, h6⟩
theorem witness_RepSteps : ∃ r rc k c d, stepEnc r rc k c = some d ∧ d.x = .v 5 :=
  ⟨rulesOf (.iadd (encT (.v 3) (.v 1) (.v 4) 0) false .i32), ⟨3, 1, 2, 0, 0⟩, 2, encT (.v 3) (.v 1) (.v 4) 0, _, rfl, by decide +kernel⟩
theorem witness_EntryAdvances : ∃ (e : Entry) (rc : RepCtx), e.rep = some rc ∧ rc.last ≤ e.repi :=
  ⟨{ prio := 0, ix := 0, mask := 1, rgn := 0, rep := some ⟨3, 1, 0, 0, 0⟩, repi := 3 }, _, rfl, by decide⟩
theorem witness_FailedCheckTraps : ∃ i c s x k, encOf i = some c ∧ ctxOf s c = some x ∧ busy x.g x.e (rulesOf i) c = false ∧ lagging s x = false ∧
    issueCheck i c x = some k :=
  ⟨.nop (encT (.v 0) .zero .zero 7), _, t0, _, .illegalOperand, rfl, rfl, by decide +kernel, by decide +kernel, by decide +kernel⟩
theorem witness_ScoreboardWaits : ∃ i c s x, encOf i = some c ∧ ctxOf s c = some x ∧ busy x.g x.e (rulesOf i) c = true :=
  ⟨.iadd (encT (.v 1) (.v 2) .imm 5) false .i32, _, tg fun g => { g with pend := [{ id := 0, kind := .load .l1, mask := allLanes, dst := .v 2 }] }, _, rfl, rfl,
    by decide +kernel⟩
theorem witness_FaultIsTaken : ∃ s core slot m g e, getGroup s core slot = some g ∧ g.front.find? (fun e => e.mask == m) = some e ∧ g.cause = 0 :=
  ⟨t0, 0, 0, allLanes, _, _, rfl, rfl, by decide +kernel⟩
theorem witness_RollbackRestarts : ∃ (m : Lanes) (g : Group) (e : Entry), g.front.find? (fun e => e.mask == m) = some e ∧ m.getLsbD 63 = true :=
  ⟨allLanes, bootGroup, _, rfl, by decide +kernel⟩

/-! ## Memory at issue -/

/-- A translation with a condition on its accesses: a check that evaluates. -/
def okTr (r : LaneTr) (P : List LaneAcc → State → Bool) : Bool :=
  match r with
  | .ok a s => P a s
  | _ => false
theorem of_okTr {r : LaneTr} {P : List LaneAcc → State → Bool} (h : okTr r P = true) : ∃ a s, r = .ok a s ∧ P a s = true := by
  unfold okTr at h
  split at h
  · exact ⟨_, _, rfl, h⟩
  · cases h

/-- A scalar load from the code page, at 0x1000000000 + 0x100. -/
def ldE : Enc := encT (.s 6) (.s 2) .zero 0x100
/-- Scalar registers that hold the page's address. -/
def pageRegs : List (Nat × Word) := [(3, 0x10)]

theorem witness_LoadHits : ∃ c k ty s x v left added accs s1, Ready (.ld c k ty) c s x v left added ∧
    transLanes s x.core x.slot x.g.part x.e.mask (accWidth ty) .read (loadAddrs c x v) = .ok accs s1 ∧
    accs.any (laneHeld s1 x.core x.g.blk (accWidth ty)) = false ∧ (∀ a ∈ accs, (foundAt s1 x ty a).isSome = true) ∧ accs ≠ [] := by
  obtain ⟨x, v, l, ad, h, h1⟩ := ready_of (i := .ld ldE .l1 .b32) (c := ldE)
    (s := tb id (fun k => { k with l1 := [(0x20000002, 5)] }) fun g => { g with sregs := pageRegs })
    (P := fun x v => okTr (transLanes (tb id (fun k => { k with l1 := [(0x20000002, 5)] }) fun g => { g with sregs := pageRegs }) x.core x.slot x.g.part
        x.e.mask (accWidth .b32) .read (loadAddrs ldE x v)) fun accs s1 =>
      decide (accs.any (laneHeld s1 x.core x.g.blk (accWidth .b32)) = false ∧ (∀ a ∈ accs, (foundAt s1 x .b32 a).isSome = true) ∧ accs ≠ []))
    (by decide +kernel)
  obtain ⟨accs, s1, h2, h3⟩ := of_okTr h1
  exact ⟨_, _, _, _, x, v, l, ad, accs, s1, h, h2, of_decide_eq_true h3⟩
theorem witness_LoadMisses : ∃ c k ty s x v left added accs s1, Ready (.ld c k ty) c s x v left added ∧
    transLanes s x.core x.slot x.g.part x.e.mask (accWidth ty) .read (loadAddrs c x v) = .ok accs s1 ∧
    accs.any (laneHeld s1 x.core x.g.blk (accWidth ty)) = false ∧ (∃ a ∈ accs, foundAt s1 x ty a = none) := by
  obtain ⟨x, v, l, ad, h, h1⟩ := ready_of (i := .ld ldE .l1 .b32) (c := ldE) (s := ts pageRegs)
    (P := fun x v => okTr (transLanes (ts pageRegs) x.core x.slot x.g.part x.e.mask (accWidth .b32) .read (loadAddrs ldE x v)) fun accs s1 =>
      decide (accs.any (laneHeld s1 x.core x.g.blk (accWidth .b32)) = false ∧ (∃ a ∈ accs, foundAt s1 x .b32 a = none)))
    (by decide +kernel)
  obtain ⟨accs, s1, h2, h3⟩ := of_okTr h1
  exact ⟨_, _, _, _, x, v, l, ad, accs, s1, h, h2, of_decide_eq_true h3⟩

/-- What a storing instruction needs, as a check that evaluates. -/
def storeIf (i : Instr) (c : Enc) (s : State) : Bool :=
  readyIf i c s fun x v =>
    match globalAccesses i x v with
    | some (kind, w, addrs) => okTr (transLanes s x.core x.slot x.g.part x.e.mask w kind addrs) fun accs s1 =>
        (bufferEntries i x v accs).isSome && (!ordRel (orderOf i) || reached s1 x .device) && bufRoom s1 x (linesOf accs).length && !accs.isEmpty
    | none => false
theorem store_of {i : Instr} {c : Enc} {s : State} (hc : encOf i = some c) (h : storeIf i c s = true) :
    ∃ x v left added kind w addrs accs s1 es, encOf i = some c ∧ Ready i c s x v left added ∧ globalAccesses i x v = some (kind, w, addrs) ∧
      transLanes s x.core x.slot x.g.part x.e.mask w kind addrs = .ok accs s1 ∧ bufferEntries i x v accs = some es ∧
      (ordRel (orderOf i) = true → reached s1 x .device = true) ∧ bufRoom s1 x (linesOf accs).length = true := by
  obtain ⟨x, v, l, ad, h, h1⟩ := ready_of h
  split at h1
  · rename_i kind w addrs hg
    obtain ⟨accs, s1, h2, h3⟩ := of_okTr h1
    simp only [Bool.and_eq_true, Bool.or_eq_true, Bool.not_eq_true', Option.isSome_iff_exists] at h3
    obtain ⟨⟨⟨⟨es, h4⟩, h5⟩, h6⟩, _⟩ := h3
    exact ⟨x, v, l, ad, kind, w, addrs, accs, s1, es, hc, h, hg, h2, h4, fun ho => by rcases h5 with h5 | h5 <;> simp_all, h6⟩
  · cases h1
/-- Store, reduction with a release and vector operation on the page. -/
theorem witness_StoresEnterTheBuffer : (∃ c k, storeIf (.st c k .b32) c (ts pageRegs) = true) ∧
    (∃ c, storeIf (.red c .add .rel .n32) c (ts pageRegs) = true) ∧ (∃ c, storeIf (.bop c .add .rne .n32) c (ts pageRegs) = true) :=
  ⟨⟨encT (.v 1) (.s 2) .zero 0, false, by decide +kernel⟩, ⟨encT .zero (.s 2) (.v 1) 0, by decide +kernel⟩, ⟨encT (.v 1) (.s 2) .zero 0, by decide +kernel⟩⟩
theorem witness_AtomicsAreSent : ∃ c op ord ty s x v left added accs s1, Ready (.atom c op ord ty) c s x v left added ∧ x.act ≠ 0 ∧ x.g.shadow ≠ .shadow ∧
    transLanes s x.core x.slot x.g.part x.e.mask (accWidth ty) .rdwr (globalLanes x { v with z := zeroRow } c.imm) = .ok accs s1 ∧
    (ordRel ord = true → reached s1 x .device = true) ∧ bufRoom s1 x (linesOf accs).length = true := by
  obtain ⟨x, v, l, ad, h, h1⟩ := ready_of (i := .atom (encT (.v 4) (.s 2) (.v 1) 0) .add .ar .n32) (c := encT (.v 4) (.s 2) (.v 1) 0) (s := ts pageRegs)
    (P := fun x v => decide (x.act ≠ 0 ∧ x.g.shadow ≠ .shadow) && okTr (transLanes (ts pageRegs) x.core x.slot x.g.part x.e.mask 4 .rdwr
      (globalLanes x { v with z := zeroRow } 0)) fun accs s1 => reached s1 x .device && bufRoom s1 x (linesOf accs).length) (by decide +kernel)
  simp only [Bool.and_eq_true, decide_eq_true_eq] at h1
  obtain ⟨accs, s1, h2, h3⟩ := of_okTr h1.2
  simp only [Bool.and_eq_true] at h3
  exact ⟨_, _, _, _, _, x, v, l, ad, accs, s1, h, h1.1.1, h1.1.2, h2, fun _ => h3.1, h3.2⟩
theorem witness_BadAccessTraps : ∃ i c s, encOf i = some c ∧ ∃ x v left added, Ready i c s x v left added ∧ ∃ kind w addrs k va,
    globalAccesses i x v = some (kind, w, addrs) ∧ laneFault s x.core x.g.part w kind addrs = some (k, va) := by
  refine ⟨.st (encT (.v 1) (.s 2) .zero 1) false .b32, _, ts pageRegs, rfl, ?_⟩
  obtain ⟨x, v, l, ad, h, h1⟩ := ready_of (i := .st (encT (.v 1) (.s 2) .zero 1) false .b32) (c := encT (.v 1) (.s 2) .zero 1) (s := ts pageRegs)
    (P := fun x v => decide (laneFault (ts pageRegs) x.core x.g.part 4 .write (globalLanes x v 1) = some (.protection, 0x1000000001))) (by decide +kernel)
  exact ⟨x, v, l, ad, h, _, _, _, _, _, rfl, of_decide_eq_true h1⟩
theorem witness_FirstFaultingLane_align : ∃ (va : DWord) (w : Nat), va.toNat % w ≠ 0 := ⟨3, 4, by decide⟩
theorem witness_FirstFaultingLane_canonical : ∃ (va : DWord) (w : Nat), va.toNat % w = 0 ∧ canonical va = false := ⟨0x0100000000000000, 8, by decide +kernel⟩
theorem witness_FirstFaultingLane_permits : ∃ s core part w k va tr, (va : DWord).toNat % w = 0 ∧ canonical va = true ∧
    coreLookup s core part va = some tr ∧ ((getPart s part).hmode && tr.pte.getLsbD 6) = false ∧ permits tr.pte k = false :=
  ⟨tb id (fun k => { k with tlb := [{ part := 0, base := 0x1000000000, size := 65536, pte := 0x1000000000 + 1 }] }) id, 0, 0, 4, .write, 0x100000FFFC, _,
    by decide +kernel, by decide +kernel, rfl, by decide +kernel, by decide +kernel⟩
theorem witness_FirstFaultingLane_ok : ∃ s core part k va pa pte, (va : DWord).toNat % 4 = 0 ∧ coreTrans s core part va k = .ok pa pte :=
  ⟨t0, 0, 0, .write, 0x100000FFFC, 0x100000FFFC, 0x100000001F, by decide +kernel, by decide +kernel⟩
theorem witness_EmitAppends : ∃ (x : Ctx), ctxOf t0 (encT .zero .zero .zero 0) = some x ∧ x.g.shadow ≠ .shadow := ⟨_, rfl, by decide +kernel⟩
theorem witness_Prefetch : ∃ c l1 s x v left added, Ready (.pf c l1) c s x v left added ∧ x.act ≠ 0 :=
  ⟨encT .zero (.s 2) .zero 0, true, t0, wit (fun x _ => x.act ≠ 0) (by decide +kernel)⟩
theorem witness_WindowState : ∃ c s x v left added, Ready (.wstat c) c s x v left added ∧ x.act ≠ 0 ∧ c.imm.toNat % 32 = 31 := by
  obtain ⟨x, v, l, a, h, h1⟩ := wit (i := .wstat (encT (.v 1) .zero .zero 31)) (c := encT (.v 1) .zero .zero 31) (s := t0) (fun x _ => x.act ≠ 0) (by decide +kernel)
  exact ⟨_, _, x, v, l, a, h, h1, by decide⟩

/-- Local addresses in the last word of the share. -/
def localTop : State := ts [(2, 137212)]
theorem witness_LocalLoads : ∃ c ty s x v left added, Ready (.ldl c ty) c s x v left added ∧
    (let l := (localLanes x v c.imm).filter fun p => (loadLanes c x.act).getLsbD p.1
     firstBad (getCore s x.core) (accWidth ty) l = none ∧ touch s x.core (tagOf x) (l.map fun p => (p.2, accWidth ty)) = none ∧
     (∀ p ∈ l, lpoisoned (getCore s x.core) p.2 (accWidth ty) = false) ∧ l ≠ []) :=
  ⟨encT (.v 1) (.s 2) .zero 0, .b32, localTop, wit (fun x v =>
    (let l := (localLanes x v (encT (.v 1) (.s 2) .zero 0).imm).filter fun p => (loadLanes (encT (.v 1) (.s 2) .zero 0) x.act).getLsbD p.1
     firstBad (getCore localTop x.core) (accWidth .b32) l = none ∧ touch localTop x.core (tagOf x) (l.map fun p => (p.2, accWidth .b32)) = none ∧
     (∀ p ∈ l, lpoisoned (getCore localTop x.core) p.2 (accWidth .b32) = false) ∧ l ≠ [])) (by decide +kernel)⟩
theorem witness_LocalStores : ∃ c ty s x v left added, Ready (.stl c ty) c s x v left added ∧
    firstBad (getCore s x.core) (accWidth ty) (localLanes x v c.imm) = none ∧
    touch s x.core (tagOf x) ((localLanes x v c.imm).map fun p => (p.2, accWidth ty)) = none ∧ x.g.shadow ≠ .shadow ∧ x.act ≠ 0 :=
  ⟨encT (.v 1) (.s 2) .zero 0, .b32, localTop, wit (fun x v => firstBad (getCore localTop x.core) (accWidth .b32) (localLanes x v (encT (.v 1) (.s 2) .zero 0).imm) = none ∧
    touch localTop x.core (tagOf x) ((localLanes x v (encT (.v 1) (.s 2) .zero 0).imm).map fun p => (p.2, accWidth .b32)) = none ∧ x.g.shadow ≠ .shadow ∧
    x.act ≠ 0) (by decide +kernel)⟩
theorem witness_BadLocalAccessTraps :
    (∃ c ty s x v left added a, Ready (.ldl c ty) c s x v left added ∧
      firstBad (getCore s x.core) (accWidth ty) ((localLanes x v c.imm).filter fun p => (loadLanes c x.act).getLsbD p.1) = some a) ∧
    (∃ c ty s x v left added a, Ready (.stl c ty) c s x v left added ∧ firstBad (getCore s x.core) (accWidth ty) (localLanes x v c.imm) = some a) := by
  obtain ⟨x, v, l, ad, h, h1⟩ := wit (i := .ldl (encT (.v 1) (.s 2) .zero 0) .b32) (c := encT (.v 1) (.s 2) .zero 0) (s := ts [(2, 137216)]) (fun x v =>
    firstBad (getCore (ts [(2, 137216)]) x.core) 4 ((localLanes x v 0).filter fun p => (loadLanes (encT (.v 1) (.s 2) .zero 0) x.act).getLsbD p.1) = some 137216)
    (by decide +kernel)
  obtain ⟨x', v', l', ad', h', h1'⟩ := wit (i := .stl (encT (.v 1) (.s 2) .zero 0) .b32) (c := encT (.v 1) (.s 2) .zero 0) (s := ts [(2, 137216)]) (fun x v =>
    firstBad (getCore (ts [(2, 137216)]) x.core) 4 (localLanes x v 0) = some 137216) (by decide +kernel)
  exact ⟨⟨_, .b32, _, x, v, l, ad, _, h, h1⟩, ⟨_, .b32, _, x', v', l', ad', _, h', h1'⟩⟩
theorem witness_PrefetchAndWindowState : (∃ c l1 s x v left added, Ready (.pf c l1) c s x v left added ∧ x.act ≠ 0) ∧
    (∃ c s x v left added, Ready (.wstat c) c s x v left added ∧ x.act ≠ 0) :=
  ⟨⟨encT .zero (.s 2) .zero 0, true, ts pageRegs, wit (fun x _ => x.act ≠ 0) (by decide +kernel)⟩,
   ⟨encT (.v 1) .zero .zero 31, t0, wit (fun x _ => x.act ≠ 0) (by decide +kernel)⟩⟩
theorem witness_FencesComplete_wait : ∃ c k sc s x v left added, Ready (.fence c k sc) c s x v left added ∧ x.act ≠ 0 ∧
    fenceRel k = true ∧ reached s x sc = false :=
  ⟨encT .zero .zero .zero 0, .full, .device, tb id (fun k => { k with bufs := [{ part := 0, node := bootNode, blk := 0, ents := [{ op := .store false [(0, 1)] }] }] }) id,
    wit (fun x _ => x.act ≠ 0 ∧ fenceRel .full = true ∧
      reached (tb id (fun k => { k with bufs := [{ part := 0, node := bootNode, blk := 0, ents := [{ op := .store false [(0, 1)] }] }] }) id) x .device = false) (by decide +kernel)⟩
theorem witness_LocalAtomics : ∃ c op ord ty s x v left added, Ready (.atoml c op ord ty) c s x v left added ∧
    (let l := localLanes x { v with z := zeroRow } c.imm
     firstBad (getCore s x.core) (accWidth ty) l = none ∧ touch s x.core (tagOf x) (l.map fun p => (p.2, accWidth ty)) = none ∧
     (ordRel ord = true → reached s x .core = true) ∧ (∀ p ∈ l, lpoisoned (getCore s x.core) p.2 (accWidth ty) = false) ∧ l ≠ []) :=
  ⟨encT (.v 1) (.s 2) (.v 3) 0, .add, .rel, .n32, localTop, wit (fun x v =>
    (let l := localLanes x { v with z := zeroRow } (encT (.v 1) (.s 2) (.v 3) 0).imm
     firstBad (getCore localTop x.core) (accWidth .n32) l = none ∧ touch localTop x.core (tagOf x) (l.map fun p => (p.2, accWidth .n32)) = none ∧
     (ordRel .rel = true → reached localTop x .core = true) ∧ (∀ p ∈ l, lpoisoned (getCore localTop x.core) p.2 (accWidth .n32) = false) ∧ l ≠ [])) (by decide +kernel)⟩
theorem witness_BadLocalAccessTraps_atoml :
    (∃ c op ord ty s x v left added a, Ready (.atoml c op ord ty) c s x v left added ∧
      firstBad (getCore s x.core) (accWidth ty) (localLanes x { v with z := zeroRow } c.imm) = some a) ∧
    (∃ (k : Core) (w : Nat) (l : List (Nat × Nat)), firstBad k w l = none ∧ l ≠ []) ∧
    (∃ (k : Core) (w : Nat) (p : Nat × Nat), p.2 % w ≠ 0 ∧ p.2 + w ≤ 68608 * k.locg - k.reserve) ∧
    (∃ (k : Core) (w : Nat) (p : Nat × Nat), 68608 * k.locg - k.reserve < p.2 + w ∧ p.2 % w = 0) := by
  obtain ⟨x, v, l, ad, h, h1⟩ := wit (i := .atoml (encT (.v 1) (.s 2) (.v 3) 0) .add .rlx .n32) (c := encT (.v 1) (.s 2) (.v 3) 0) (s := ts [(2, 137216)]) (fun x v =>
    firstBad (getCore (ts [(2, 137216)]) x.core) 4 (localLanes x { v with z := zeroRow } 0) = some 137216) (by decide +kernel)
  exact ⟨⟨_, _, _, .n32, _, x, v, l, ad, _, h, h1⟩, ⟨getCore t0 0, 4, [(0, 137212)], by decide +kernel⟩, ⟨getCore t0 0, 4, (0, 2), by decide +kernel⟩,
    ⟨getCore t0 0, 4, (0, 137216), by decide +kernel⟩⟩
/-- One word beyond the share. -/
def localOver : State := ts [(2, 137216)]
theorem witness_BadLocal_ldl : ∃ c ty s a x v left added, Ready (.ldl c ty) c s x v left added ∧
    firstBad (getCore s x.core) (accWidth ty) ((localLanes x v c.imm).filter fun p => (loadLanes c x.act).getLsbD p.1) = some a :=
  ⟨encT (.v 1) (.s 2) .zero 0, .b32, localOver, 137216, wit (fun x v => firstBad (getCore localOver x.core) (accWidth .b32)
    ((localLanes x v (encT (.v 1) (.s 2) .zero 0).imm).filter fun p => (loadLanes (encT (.v 1) (.s 2) .zero 0) x.act).getLsbD p.1) = some 137216)
    (by decide +kernel)⟩
theorem witness_BadLocal_stl : ∃ c ty s a x v left added, Ready (.stl c ty) c s x v left added ∧
    firstBad (getCore s x.core) (accWidth ty) (localLanes x v c.imm) = some a :=
  ⟨encT (.v 1) (.s 2) .zero 0, .b32, localOver, 137216, wit (fun x v => firstBad (getCore localOver x.core) (accWidth .b32)
    (localLanes x v (encT (.v 1) (.s 2) .zero 0).imm) = some 137216) (by decide +kernel)⟩
theorem witness_FencesComplete : ∃ c k sc s x v left added, Ready (.fence c k sc) c s x v left added ∧ x.act ≠ 0 ∧ settled x.g x.e = true ∧
    (fenceRel k = true → reached s x sc = true) :=
  ⟨encT .zero .zero .zero 0, .full, .system, t0, wit (fun x _ => x.act ≠ 0 ∧ settled x.g x.e = true ∧ (fenceRel .full = true → reached t0 x .system = true))
    (by decide +kernel)⟩
/-- A store is still in the block's buffer. -/
def tbuf : State := tb id (fun k => { k with bufs := [{ part := 0, node := bootNode, blk := 0, ents := [{ op := .store false [(0, 1)] }] }] }) id
theorem witness_FencesWait : ∃ c k sc s x v left added, Ready (.fence c k sc) c s x v left added ∧ x.act ≠ 0 ∧ fenceRel k = true ∧ reached s x sc = false :=
  ⟨encT .zero .zero .zero 0, .rel, .cluster, tbuf, wit (fun x _ => x.act ≠ 0 ∧ fenceRel .rel = true ∧ reached tbuf x .cluster = false) (by decide +kernel)⟩
theorem witness_L1inv : ∃ c s x v left added, Ready (.l1inv c) c s x v left added ∧ x.act ≠ 0 :=
  ⟨encT .zero .zero .zero 0, t0, wit (fun x _ => x.act ≠ 0) (by decide +kernel)⟩
/-- A window descriptor at local address 0: one row of one word from the code page to 268 on, its arrival word at 4,000. -/
def tdesc : State := tb id (fun k => lwrite k 0 32 (0x1000000000 + 2 ^ 96 * 0xA1 + 2 ^ 128 * 268 + 2 ^ 160 * 268 + 2 ^ 192 * 4000 + 2 ^ 224 * 1 + 2 ^ 240 * 1)) id
theorem witness_WindowsDefined : ∃ c s x v left added, Ready (.wdef c) c s x v left added ∧ x.act ≠ 0 ∧ x.g.shadow ≠ .shadow ∧
    (let a := ((lane64 v.y 0).setWidth 32).toNat
     let k := getCore s x.core
     a % 32 = 0 ∧ a + 32 ≤ localLimit k ∧ touch s x.core (tagOf x) [(a, 32)] = none ∧ (winOf k (c.imm.toNat % 32)).st ≠ .filling ∧
     lpoisoned k a 32 = false ∧ windowBad k (c.imm.toNat % 32) (lread k a 32) = false) :=
  ⟨encT .zero (.s 2) .zero 31, tdesc, wit (fun x v => x.act ≠ 0 ∧ x.g.shadow ≠ .shadow ∧
    (let a := ((lane64 v.y 0).setWidth 32).toNat
     let k := getCore tdesc x.core
     a % 32 = 0 ∧ a + 32 ≤ localLimit k ∧ touch tdesc x.core (tagOf x) [(a, 32)] = none ∧ (winOf k ((encT .zero (.s 2) .zero 31).imm.toNat % 32)).st ≠ .filling ∧
     lpoisoned k a 32 = false ∧ windowBad k ((encT .zero (.s 2) .zero 31).imm.toNat % 32) (lread k a 32) = false)) (by decide +kernel)⟩
theorem witness_WindowsDropped : ∃ c s x v left added, Ready (.wdrop c) c s x v left added ∧ x.act ≠ 0 ∧ x.g.shadow ≠ .shadow ∧
    (winOf (getCore s x.core) (c.imm.toNat % 32)).st ≠ .filling :=
  ⟨encT .zero .zero .zero 31, t0, wit (fun x _ => x.act ≠ 0 ∧ x.g.shadow ≠ .shadow ∧
    (winOf (getCore t0 x.core) ((encT .zero .zero .zero 31).imm.toNat % 32)).st ≠ .filling) (by decide +kernel)⟩
theorem witness_WindowsEmptyAct : ∃ i c s, (i = Instr.wdef c ∨ i = Instr.wdrop c) ∧ ∃ x v left added, Ready i c s x v left added ∧ x.act = 0 :=
  ⟨_, { encT .zero .zero .zero 31 with gn := true }, t0, .inr rfl, wit (fun x _ => x.act = 0) (by decide +kernel)⟩
/-- The window of `tdesc` defined. -/
def twin (st : WinState) (f : Core → Core) : State := tb id (fun k => f { k with wins := [(31, { gbase := 0x1000000000, aval := 0xA1, lbase := 268, llen := 268, aaddr := 4000, rows := 1, roww := 1, st := st })] }) id
theorem witness_TouchBeginsFill : ∃ s core t l s1 w, touch s core t l = some s1 ∧ w < 32 ∧
    (l.any fun p => overlaps (winOf (getCore s core) w) p.1 p.2) = true ∧ (winOf (getCore s core) w).st = .absent :=
  ⟨twin .absent id, 0, {}, [(532, 4)], _, 31, rfl, by decide, by decide +kernel, by decide +kernel⟩
/-- A load of a word of that window. -/
def ttouch : State := modGroup (twin .absent id) 0 0 fun g => { g with sregs := [(2, 532)] }
theorem witness_TouchBeginsFill_load : ∃ c ty s x v left added, Ready (.ldl c ty) c s x v left added ∧
    (let a := (localLanes x v c.imm).filter fun p => (loadLanes c x.act).getLsbD p.1
     firstBad (getCore s x.core) (accWidth ty) a = none ∧ (touch s x.core (tagOf x) (a.map fun p => (p.2, accWidth ty))).isSome = true) :=
  ⟨encT (.v 1) (.s 2) .zero 0, .b32, ttouch, wit (fun x v =>
    (let a := (localLanes x v (encT (.v 1) (.s 2) .zero 0).imm).filter fun p => (loadLanes (encT (.v 1) (.s 2) .zero 0) x.act).getLsbD p.1
     firstBad (getCore ttouch x.core) (accWidth .b32) a = none ∧ (touch ttouch x.core (tagOf x) (a.map fun p => (p.2, accWidth .b32))).isSome = true)) (by decide +kernel)⟩

/-! ## Memory performed -/

/-- An entry of the block store buffer on the line at 0x1000000100. -/
def ent (op : MemOp) (req : Option Nat) : SbEntry := { node := bootNode, va := 0x1000000100, line := 0x20000002, op := op, req := req }
/-- A state with one entry in the first block's buffer. -/
def tbe (e : SbEntry) : State := tb id (fun k => { k with bufs := [{ part := 0, node := bootNode, blk := 0, ents := [e] }] }) id
/-- A state with one entry in the write queue of cluster 0, and replies out. -/
def tq (e : SbEntry) (l : List Pend) : State := modCluster (tg fun g => { g with pend := l }) 0 fun k => { k with wq := [e] }
/-- The same where the partition's HBM share is the first 4 KiB. -/
def tqn (e : SbEntry) : State := modPart (tq e []) 0 fun p => { p with lay := { p.lay with hbm := [(0, 4096)] } }
theorem first_tq (e : SbEntry) (s : State) (h : (getCluster s 0).wq = [e]) : FirstOfLine s 0 0 e := by
  unfold FirstOfLine
  rw [h]
  exact ⟨rfl, by simp⟩
/-- A pending load of lane 0 on that line. -/
def pendT (k : PendKind) (l : List LaneAcc) : Pend := { id := 7, kind := k, mask := allLanes, dst := .v 2, act := 1, lanes := l }
/-- An access of lane 0 to the line. -/
def accT : LaneAcc := { lane := 0, va := 0x1000000100, pa := 0x1000000100 }

theorem witness_BufferReleases : ∃ core blk s e t, (bufOf (getCore s core) blk).ents = e :: t ∧ checked s e = true ∧ isPlain e = true ∧ isLate s e = false ∧
    powered s core = true ∧ dropsLine e = true ∧ ∃ bs, e.op = .store true bs :=
  ⟨0, 0, tbe (ent (.store true [(0x1000000100, 1)]) none), _, _, rfl, by decide +kernel, by decide +kernel, by decide +kernel, by decide +kernel, rfl, _, rfl⟩
theorem witness_BufferReleases_store : ∃ core blk s e t, (bufOf (getCore s core) blk).ents = e :: t ∧ checked s e = true ∧ isPlain e = true ∧ isLate s e = false ∧
    powered s core = true ∧ ∃ bs, e.op = .store false bs :=
  ⟨0, 0, tbe (ent (.store false [(0x1000000100, 1)]) none), _, _, rfl, by decide +kernel, by decide +kernel, by decide +kernel, by decide +kernel, _, rfl⟩
theorem witness_UncheckedStays : (∃ core blk s e t, (bufOf (getCore s core) blk).ents = e :: t ∧ checked s e = false) ∧
    (∃ core blk s e t, (bufOf (getCore s core) blk).ents = e :: t ∧ powered s core = false) :=
  ⟨⟨0, 0, tbe { ent (.store false [(0x1000000100, 1)]) none with cmp := false }, _, _, rfl, by decide +kernel⟩,
   ⟨0, 0, modDie (tbe (ent (.store false [(0x1000000100, 1)]) none)) 0 fun d => { d with powered := false }, _, _, rfl, by decide +kernel⟩⟩
/-- A contribution of identifier 9's second binding, and a send, in a block's buffer. -/
def redtEnt (gen : Nat) : SbEntry := { ent (.redt 9 0 5) none with gen := gen }
def sendHead : SbEntry := ent (.send 0 0 0 [1]) none
/-- A packet that fills core 0's own port. -/
def pktOut : Packet :=
  { id := 99, part := 0, node := bootNode, src := 0, dst := 12, dq := 0, port := 0, seq := 0, slot := 0, words := [1], route := 0, tile := 0,
    row := rowOfCore 0, stop := stopOfCore 0, entry := 8, rsv := 2, shr := 24 }
def tlate : State := modPart (tbe (redtEnt 0)) 0 fun p => { p with idents := [(9, { st := .bound, infl := 0, gen := 1 })] }
theorem witness_PostsAreReleased :
    (∃ core blk s e t, (bufOf (getCore s core) blk).ents = e :: t ∧ checked s e = true ∧ powered s core = true ∧ isPlain e = false ∧
      (sendEntry (headless s core blk t) e).isSome = true) ∧
    (∃ core blk s e t p c q ws, (bufOf (getCore s core) blk).ents = e :: t ∧ checked s e = true ∧ powered s core = true ∧ e.op = .send p c q ws ∧
      sendEntry (headless s core blk t) e = none) ∧
    (∃ core blk s e t d c rb rl bq, (bufOf (getCore s core) blk).ents = e :: t ∧ checked s e = true ∧ powered s core = true ∧ e.op = .bcopy d c rb rl bq ∧
      sendEntry (headless s core blk t) e = none) ∧
    (∃ core blk s e t, (bufOf (getCore s core) blk).ents = e :: t ∧ checked s e = true ∧ powered s core = true ∧ isLate s e = true) :=
  ⟨⟨0, 0, tbe sendHead, _, _, rfl, by decide +kernel, by decide +kernel, by decide, by decide +kernel⟩,
   ⟨0, 0, { tbe sendHead with packets := [pktOut] }, _, _, 0, 0, 0, [1], rfl, by decide +kernel, by decide +kernel, rfl, by decide +kernel⟩,
   ⟨0, 0, modPart (tbe (ent (.bcopy 0 0 0 4 2) none)) 0 fun p => { p with bte := [(2, { items := List.replicate 64 (.post { seq := 0, d := 0, c := 0, rbase := 0, rlog := 4, node := 0 }) })] }, _, _, _, _, _, _, _, rfl, by decide +kernel, by decide +kernel, rfl, by decide +kernel⟩,
   ⟨0, 0, tlate, _, _, rfl, by decide +kernel, by decide +kernel, by decide +kernel⟩⟩
theorem witness_StoreIsPerformed : ∃ cl idx s e ev bs, FirstOfLine s cl idx e ∧ e.op = .store ev bs ∧ entryRefusal s e = none :=
  ⟨0, 0, tq (ent (.store false [(0x1000000100, 1)]) none) [], _, _, _, first_tq _ _ rfl, rfl, by decide +kernel⟩
theorem witness_RefusedWriteChangesNothing : ∃ cl idx s e sub, FirstOfLine s cl idx e ∧
    (match e.op with | .store .. | .rmw .. | .bop .. => true | _ => false) = true ∧ entryRefusal s e = some sub :=
  ⟨0, 0, tqn (ent (.store false [(0x1000000100, 1)]) none), _, 1, first_tq _ _ rfl, by decide +kernel, by decide +kernel⟩
theorem witness_RemoteFaultRecordFields : ∃ (l : Layout) (o : Origin) (die sub opk : Nat), die = 7 ∧ sub = 5 ∧ opk < 256 ∧ o.tag.gslot = 32767 ∧ sliceIndex l o.home < 64 :=
  ⟨Part.initial.lay, { core := 511, part := 0, node := 0, blk := 0, grp := 0, tag := ⟨32767, 5, 4⟩, va := 0, pa := 0, home := 511 }, 7, 5, 9, rfl, rfl, by decide, rfl, by decide +kernel⟩
theorem witness_AtomicIsPerformed : ∃ cl idx s e op ty l ret q g p, FirstOfLine s cl idx e ∧ e.op = .rmw op ty l ret ∧ entryRefusal s e = none ∧
    linePoisoned s (e.line * 128) = false ∧ e.req = some q ∧ getGroup s e.core e.slot = some g ∧ pendOf g q = some p ∧
    ((getPart s e.part).holdq.all fun w => w.isLock) = true ∧ g.front ≠ [] :=
  ⟨0, 0, tq (ent (.rmw .add .n32 [(0, 0x1000000100, 5, 0)] true) (some 7)) [pendT (.atom false) [accT]], _, _, _, _, _, 7, _, _, first_tq _ _ rfl, rfl,
    by decide +kernel, by decide +kernel, rfl, rfl, rfl, by decide +kernel, by decide +kernel⟩
theorem witness_AtomicIsPerformed_red : ∃ cl idx s e op ty l ret, FirstOfLine s cl idx e ∧ e.op = .rmw op ty l ret ∧ entryRefusal s e = none ∧
    linePoisoned s (e.line * 128) = false ∧ e.req = none :=
  ⟨0, 0, tq (ent (.rmw .max .i32 [(0, 0x1000000100, 5, 0)] false) none) [], _, _, _, _, _, first_tq _ _ rfl, rfl, by decide +kernel, by decide +kernel, rfl⟩
theorem witness_VectorOperationIsPerformed : ∃ cl idx s e op rm ty l, FirstOfLine s cl idx e ∧ e.op = .bop op rm ty l ∧ entryRefusal s e = none ∧
    linePoisoned s (e.line * 128) = false :=
  ⟨0, 0, tq (ent (.bop .add .rne .n32 [(0, 0x1000000100, 5, 0)]) none) [], _, _, _, _, _, first_tq _ _ rfl, rfl, by decide +kernel, by decide +kernel⟩
theorem witness_LineIsRead : ∃ s core slot req line g p a l, ReplyWaits s core slot req line g p a l ∧
    (match p.kind with | .tile .. => true | _ => false) = false ∧
    ((a :: l).all fun b => (List.range (accWidth p.ty)).all fun j => !lowHeld s (clusterOf core) (b.pa + j)) = true ∧
    refusalOf (getPart s g.part).lay (line * 128) = none ∧ linePoisoned s (line * 128) = false :=
  ⟨tg fun g => { g with pend := [pendT (.load .l1) [accT]] }, 0, 0, 7, 0x20000002, _, _, accT, [], ⟨rfl, rfl, by decide +kernel⟩, by decide +kernel,
    by decide +kernel, by decide +kernel, by decide +kernel⟩
theorem witness_ReplyWritesDestination : ∃ s core slot req g p, getGroup s core slot = some g ∧ pendOf g req = some p ∧ p.lanes = [] ∧ onWay s core slot req = false ∧
    (match p.kind with | .tile .. => true | _ => false) = false ∧ acquiring p = true :=
  ⟨tg fun g => { g with pend := [pendT (.atom true) []] }, 0, 0, 7, _, _, rfl, rfl, by decide +kernel, by decide +kernel, by decide +kernel, by decide +kernel⟩
theorem witness_ReplyWritesDestination_load : ∃ s core slot req g p, getGroup s core slot = some g ∧ pendOf g req = some p ∧ p.lanes = [] ∧ onWay s core slot req = false ∧
    (match p.kind with | .tile .. => true | _ => false) = false ∧ acquiring p = false :=
  ⟨tg fun g => { g with pend := [pendT (.load .l1) []] }, 0, 0, 7, _, _, rfl, rfl, by decide +kernel, by decide +kernel, by decide +kernel, by decide +kernel⟩

/-! ## Windows and waits -/

/-- The window fills. -/
def tfill (row : Nat) : State := twin .filling fun k => { k with fillq := [31], fillRow := row }
theorem witness_WindowFillsRow : ∃ s core win rest, (getCore s core).fillq = win :: rest ∧ (getCore s core).stopped = false ∧ powered s core = true ∧
    (let w := winOf (getCore s core) win
     let i := (getCore s core).fillRow
     w.st = .filling ∧ i < w.rows ∧ fillMisses s core (getCore s core).part w i = [] ∧
     (issueAll s (getCore s core).part .fill (fillRequests s (getCore s core).part w i)).isSome = true ∧ (∀ p ∈ fillRowWords s core (getCore s core).part w i, ∃ v, p.2 = .word v false) ∧
     (∀ j, j < w.roww → ∃ v, fillWord s core (getCore s core).part (w.gbase + BitVec.ofNat 64 (w.gpitch * i + 4 * j)) = .word v false)) := by
  have h : fillRowWords (tfill 0) 0 (getCore (tfill 0) 0).part (winOf (getCore (tfill 0) 0) 31) 0 = [(0x1000000000, .word 0 false)] := by decide +kernel
  refine ⟨tfill 0, 0, 31, [], by decide +kernel, by decide +kernel, by decide +kernel, by decide +kernel, by decide +kernel, by decide +kernel,
    by decide +kernel, ?_, ?_⟩
  · show ∀ p ∈ fillRowWords (tfill 0) 0 (getCore (tfill 0) 0).part (winOf (getCore (tfill 0) 0) 31) 0, _
    rw [h]; intro p hp; rw [List.mem_singleton] at hp; subst hp; exact ⟨_, rfl⟩
  · intro j hj
    have hr : (winOf (getCore (tfill 0) 0) 31).roww = 1 := by decide +kernel
    have hj' : j < 1 := hr ▸ hj
    obtain rfl : j = 0 := by omega
    exact ⟨0, by decide +kernel⟩
theorem witness_WindowArrives : ∃ s core win rest, (getCore s core).fillq = win :: rest ∧ (getCore s core).stopped = false ∧ powered s core = true ∧
    (winOf (getCore s core) win).st = .filling ∧ (winOf (getCore s core) win).rows ≤ (getCore s core).fillRow :=
  ⟨tfill 1, 0, 31, [], by decide +kernel, by decide +kernel, by decide +kernel, by decide +kernel, by decide +kernel⟩
/-- The window's source is not mapped; its toucher is the group in slot 0, or gone. -/
def tfillBad (t : Nat) : State := modCore (tfill 0) 0 fun k => { k with wins := mapSet {} k.wins 31 { winOf k 31 with gbase := 0x2000000000, touch := ⟨t, 0, 0⟩ } }
theorem witness_WindowFillsRow_miss : ∃ s core win rest, (getCore s core).fillq = win :: rest ∧ (getCore s core).stopped = false ∧ powered s core = true ∧
    (winOf (getCore s core) win).st = .filling ∧ (getCore s core).fillRow < (winOf (getCore s core) win).rows ∧
    fillMisses s core (getCore s core).part (winOf (getCore s core) win) (getCore s core).fillRow ≠ [] :=
  ⟨tfillBad 0, 0, 31, [], by decide +kernel, by decide +kernel, by decide +kernel, by decide +kernel, by decide +kernel, by decide +kernel⟩
theorem witness_WindowFillFaults : ∃ s core win rest va k g e, (getCore s core).fillq = win :: rest ∧
    (let w := winOf (getCore s core) win
     w.st = .filling ∧ (getCore s core).fillRow < w.rows ∧
     (fillRowWords s core (getCore s core).part w (getCore s core).fillRow).find? (fun p => fillStops p.2) = some (va, .fault k) ∧
     getGroup s core (w.touch.gslot % 64) = some g ∧ touchEntry g w.touch = some e) :=
  ⟨tfillBad 0, 0, 31, [], 0x2000000000, .page, _, _, by decide +kernel, by decide +kernel, by decide +kernel, by decide +kernel, rfl, rfl⟩
theorem witness_WindowFillFaults_gone : ∃ s core win rest va k, (getCore s core).fillq = win :: rest ∧
    (let w := winOf (getCore s core) win
     w.st = .filling ∧ (getCore s core).fillRow < w.rows ∧
     (fillRowWords s core (getCore s core).part w (getCore s core).fillRow).find? (fun p => fillStops p.2) = some (va, .fault k) ∧
     getGroup s core (w.touch.gslot % 64) = none) :=
  ⟨tfillBad 1, 0, 31, [], 0x2000000000, .page, by decide +kernel, by decide +kernel, by decide +kernel, by decide +kernel, by decide +kernel⟩
/-- A wait on a local word. -/
def waitE : Enc := encT (.v 6) (.s 2) (.s 4) 0
theorem witness_WaitsCompleteAtOnce : ∃ isTry : Bool, ∃ c cmp s x v left added accs s1,
    (let i : Instr := if isTry then .tryw c cmp else .waitw c cmp
     let lanes := waitLanes x c v
     let loc := (lanes.filter (·.2.1)).map fun p => (p.1, p.2.2.toNat)
     let glo := (lanes.filter fun p => !p.2.1).map fun p => (p.1, p.2.2)
     let ls : List WaitLane := lanes.map fun p =>
       { lane := p.1, loc := p.2.1, va := p.2.2, cmpd := loWord (lane64 v.z p.1),
         addr := if p.2.1 then p.2.2.toNat else match accs.find? (fun a => a.lane == p.1) with | some a => a.pa | none => 0 }
     Ready i c s x v left added ∧ firstBad (getCore s x.core) 4 loc = none ∧
     transLanes s x.core x.slot x.g.part x.e.mask 4 .read glo = .ok accs s1 ∧
     touch s1 x.core (tagOf x) (loc.map fun p => (p.2, 4)) = none ∧
     (∀ l ∈ ls, ∃ w, waitRead s1 x.core x.g.part l = .word w false ∧ wcmpHolds cmp w l.cmpd = true)) := by
  obtain ⟨x, v, l, ad, h, h1⟩ := ready_of (i := .waitw waitE .eq) (c := waitE) (s := ts [(3, 0x80000000)])
    (P := fun x v =>
      (let lanes := waitLanes x waitE v
       let loc := (lanes.filter (·.2.1)).map fun p => (p.1, p.2.2.toNat)
       let glo := (lanes.filter fun p => !p.2.1).map fun p => (p.1, p.2.2)
       decide (firstBad (getCore (ts [(3, 0x80000000)]) x.core) 4 loc = none) &&
       okTr (transLanes (ts [(3, 0x80000000)]) x.core x.slot x.g.part x.e.mask 4 .read glo) fun accs s1 =>
         (touch s1 x.core (tagOf x) (loc.map fun p => (p.2, 4))).isNone &&
         (let ls : List WaitLane := lanes.map fun p =>
            { lane := p.1, loc := p.2.1, va := p.2.2, cmpd := loWord (lane64 v.z p.1),
              addr := if p.2.1 then p.2.2.toNat else match accs.find? (fun a => a.lane == p.1) with | some a => a.pa | none => 0 }
          ls.all fun l =>
             match waitRead s1 x.core x.g.part l with | .word w b => !b && wcmpHolds .eq w l.cmpd | _ => false))) (by decide +kernel)
  simp only [Bool.and_eq_true, decide_eq_true_eq] at h1
  obtain ⟨accs, s1, h2, h3⟩ := of_okTr h1.2
  simp only [Bool.and_eq_true, Option.isNone_iff_eq_none, List.all_eq_true] at h3
  refine ⟨false, _, .eq, _, x, v, l, ad, accs, s1, h, h1.1, h2, h3.1, ?_⟩
  intro l hl
  have h4 := h3.2 l hl
  split at h4
  · rename_i w b he
    simp only [Bool.and_eq_true, Bool.not_eq_true'] at h4
    exact ⟨w, by rw [he, h4.1], h4.2⟩
  · cases h4
/-- A group blocked in a wait on the local word 8 to become `c`. -/
def twait (isTry : Bool) (c : Word) : State :=
  let w : Wait := .word isTry (.v 1) false .eq [{ lane := 0, loc := true, addr := 8, va := 8, cmpd := c }] 1 0
  tg fun g => { g with front := [{ prio := 0, ix := 0, mask := allLanes, rgn := 0, st := .blocked, wait := some w }] }
theorem witness_WaitsAreReevaluated : ∃ s core slot lane g e n isTry o nw cmp ls act since, WaitStands s core slot lane g e n isTry o nw cmp ls act since ∧
    touch s core { gslot := gslotFor g core slot, ix := e.ix, rgn := e.rgn } (waitTouches ls) = none ∧ ls.find? (evalBad s core g.part) = none ∧ ((ls.map (evalLane s core g.part cmp)).all fun l => l.seen.isSome) = true ∧ e.rep = none :=
  ⟨twait false 0, 0, 0, 63, _, _, _, _, _, _, _, _, _, _, ⟨rfl, rfl, rfl, rfl, rfl, rfl, by decide +kernel⟩, by decide +kernel, by decide +kernel, by decide +kernel, rfl⟩
theorem witness_WaitsAreReevaluated_not : ∃ s core slot lane g e n isTry o nw cmp ls act since, WaitStands s core slot lane g e n isTry o nw cmp ls act since ∧
    touch s core { gslot := gslotFor g core slot, ix := e.ix, rgn := e.rgn } (waitTouches ls) = none ∧ ls.find? (evalBad s core g.part) = none ∧ ((ls.map (evalLane s core g.part cmp)).all fun l => l.seen.isSome) = false :=
  ⟨twait false 1, 0, 0, 63, _, _, _, _, _, _, _, _, _, _, ⟨rfl, rfl, rfl, rfl, rfl, rfl, by decide +kernel⟩, by decide +kernel, by decide +kernel, by decide +kernel⟩
theorem witness_WaitsAreReevaluated_touch : ∃ s core slot lane g e n isTry o nw cmp ls act since s1, WaitStands s core slot lane g e n isTry o nw cmp ls act since ∧
    touch s core { gslot := gslotFor g core slot, ix := e.ix, rgn := e.rgn } (waitTouches ls) = some s1 :=
  ⟨modCore (twait false 1) 0 fun k => { k with wins := [(3, { llen := 16, aaddr := 64, rows := 1, roww := 1 })] }, 0, 0, 63, _, _, _, _, _, _, _, _, _, _, _,
    ⟨rfl, rfl, rfl, rfl, rfl, rfl, by decide +kernel⟩, rfl⟩
theorem witness_TryWaitTimesOut : ∃ s core slot lane g e n o nw cmp ls act since, WaitStands s core slot lane g e n true o nw cmp ls act since ∧ e.rep = none :=
  ⟨twait true 1, 0, 0, 0, _, _, _, _, _, _, _, _, _, ⟨rfl, rfl, rfl, rfl, rfl, rfl, by decide +kernel⟩, rfl⟩

/-! ## Walks, refusals and pairs -/

/-- A page table whose third level maps 0x1000000000 to itself, 1 GiB, and a walk of die 0 for a load there. -/
def tpt (f : Part → Part) (w : Walk) : State :=
  { modDie (modPart t0 0 fun p => f { p with root := 0x1000, ptroot := 0x1000 }) 0 fun d => { d with walks := [w] } with
    mem := [(0x1000, 1), (0x1001, 0x20), (0x2000, 1), (0x2001, 0x30), (0x3200, 0x1F), (0x3204, 0x10)] }
/-- A walk with one entry that waits. -/
def walkT (va : DWord) (asked : Bool) : Walk := { id := 3, part := 0, page := va.toNat / 65536, waiters := [⟨0, 0, allLanes, .read, va⟩], asked := asked }
theorem witness_WalkFindsLeaf : ∃ s die id w base size pte, (getDie s die).walks.find? (fun w => w.id == id) = some w ∧ w.asked = false ∧ w.again = false ∧
    (dieWalk s die w.part (match w.waiters.head? with | some q => q.va | none => BitVec.ofNat 64 (w.page * 65536))).1 = .leaf base size pte ∧
    ((getPart s w.part).hmode && pte.getLsbD 6) = false ∧
    (∀ q ∈ w.waiters, permits pte q.kind = true ∧ regionOf (paOf 0 base pte q.va) ≠ .device) :=
  ⟨tpt id (walkT 0x1000010000 false), 0, 3, walkT 0x1000010000 false, 0x1000000000, 2 ^ 30, 0x100000001F, by decide +kernel, rfl, rfl, by decide +kernel,
    by decide +kernel, by decide +kernel⟩
theorem witness_WalkAsksTheHost : ∃ s die id w, (getDie s die).walks.find? (fun w => w.id == id) = some w ∧ w.asked = false ∧ w.again = false ∧
    (getPart s w.part).prq = true ∧
    (dieWalk s die w.part (match w.waiters.head? with | some q => q.va | none => BitVec.ofNat 64 (w.page * 65536))).1 = .invalid :=
  ⟨tpt (fun p => { p with prq := true }) (walkT 0x2000010000 false), 0, 3, walkT 0x2000010000 false, by decide +kernel, rfl, rfl, by decide +kernel,
    by decide +kernel⟩
theorem witness_HostAnswersPageRequest : ∃ s die id w, (getDie s die).walks.find? (fun w => w.id == id) = some w ∧ w.asked = true ∧
    ∃ q ∈ w.waiters, ∃ g e, getGroup s q.core q.slot = some g ∧ entryOf g.front (lowLane q.lanes) = some e :=
  ⟨tpt id (walkT 0x2000010000 true), 0, 3, walkT 0x2000010000 true, by decide +kernel, rfl, _, List.mem_cons_self, _, _, rfl, rfl⟩
theorem witness_WalkRaisesPage : ∃ s die id w q g e, (getDie s die).walks.find? (fun w => w.id == id) = some w ∧ w.asked = false ∧ (getPart s w.part).prq = false ∧
    (dieWalk s die w.part (match w.waiters.head? with | some q => q.va | none => BitVec.ofNat 64 (w.page * 65536))).1 = .invalid ∧
    q ∈ w.waiters ∧ getGroup s q.core q.slot = some g ∧ entryOf g.front (lowLane q.lanes) = some e ∧ g.cause = 0 :=
  ⟨tpt id (walkT 0x2000010000 false), 0, 3, walkT 0x2000010000 false, _, _, _, by decide +kernel, rfl, by decide +kernel, by decide +kernel, List.mem_cons_self, rfl, rfl, rfl⟩
/-- A refusal on its way to core 0. -/
def refT : RFault := { core := 0, part := 0, node := bootNode, blk := 0, grp := 0, tag := ⟨0, 0, 0⟩, va := 0x1000000100, serial := 1, full := 0 }
theorem witness_RefusalArrives : ∃ s core d f l n c k g, refusalsOf s core = (d, f) :: l ∧ findNode s f.part f.node = some n ∧
    getGroup s c k = some g ∧ g.part = f.part ∧ g.node = f.node ∧ g.blk = f.blk ∧ g.grp = f.grp ∧ g.shadow ≠ .shadow ∧ g.cause = 0 :=
  ⟨modDie t0 0 fun d => { d with refused := [refT] }, 0, 0, refT, [], _, 0, 0, _, by decide +kernel, rfl, rfl, rfl, rfl, rfl, rfl, by decide +kernel, rfl⟩
/-- A pair in slots 0 and 1: the leader's oldest operation in the buffer, the shadow's in its list. -/
def tpair (a b : MemOp) : State :=
  modCore (tg fun g => { g with shadow := .leader }) 0 fun k =>
    { k with slots := k.slots ++ [(1, { bootGroup with shadow := .shadow, shq := [{ ent b none with cmp := false }] })],
             bufs := [{ part := 0, node := bootNode, blk := 0, ents := [{ ent a none with cmp := false }] }] }
/-- Whether the pair's operations can be compared, and are the same. -/
def pairIf (s : State) (same : Bool) : Bool :=
  match getGroup s 0 0, getGroup s 0 1 with
  | some g, some h => match comparable (getCore s 0) 0 g h with
    | some (e, o) => decide (g.shadow = .leader ∧ h.shadow = .shadow ∧ powered s 0 = true) && (sameOp e o == same)
    | none => false
  | _, _ => false
theorem pair_of {s : State} {b : Bool} (h : pairIf s b = true) : ∃ core slot g h e o, getGroup s core (slot - 1) = some g ∧ getGroup s core slot = some h ∧
    g.shadow = .leader ∧ h.shadow = .shadow ∧ comparable (getCore s core) (slot - 1) g h = some (e, o) ∧ powered s core = true ∧
    sameOp e o = b := by
  unfold pairIf at h
  split at h
  · rename_i g k hg hk
    split at h
    · rename_i e o hc
      simp only [Bool.and_eq_true, decide_eq_true_eq, beq_iff_eq] at h
      exact ⟨0, 1, g, k, e, o, hg, hk, h.1.1, h.1.2.1, hc, h.1.2.2, h.2⟩
    · cases h
  · cases h
theorem witness_PairsAreCompared : (∃ s, pairIf s true = true) ∧ (∃ s, pairIf s false = true) :=
  ⟨⟨tpair (.store false [(0x1000000100, 1)]) (.store false [(0x1000000100, 1)]), by decide +kernel⟩,
   ⟨tpair (.store false [(0x1000000100, 1)]) (.store false [(0x1000000100, 2)]), by decide +kernel⟩⟩

/-! ## Barriers -/

/-- A register word for a barrier mask, and one level more than one group where asked. -/
def tbar (groups : Nat) (mask : Word) (fn : Node → Node) : State :=
  tb (fun n => fn { n with la := { n.la with levels := [⟨0, 0, 1⟩, ⟨1, 0, 1⟩, ⟨2, 1, groups⟩] } }) id fun g => { g with sregs := [(2, mask)] }
def barE : Enc := encT .zero (.s 2) .zero 0
/-- `MayArrive` as a check. -/
def arriveIf (s : State) (granted : Bool) : Bool :=
  readyIf (.bar barE 2) barE s fun x v => decide (x.g.shadow = .none ∧ 2 < x.node.la.levels.length ∧
    x.act = x.g.front.foldl (fun m e => m ||| e.mask) 0 ∧ x.node.granted.contains (x.g.blk, x.g.grp) = false ∧ atBar x.node x.g.blk x.g.grp = false ∧
    reached s x (levelScope x.node.la 2) = true ∧ arrivalBad x.node 2 (loWord (lane64 v.y 0)) x.g.blk x.g.grp = false ∧
    (arrivedNode x v 2).granted.contains (x.g.blk, x.g.grp) = granted)
theorem arrive_of {s : State} {b : Bool} (h : arriveIf s b = true) : ∃ c, ∃ level : Fin 8, ∃ s1 x v left added, Ready (.bar c level) c s x v left added ∧
    MayArrive s s1 x v level.val ∧ (arrivedNode x v level.val).granted.contains (x.g.blk, x.g.grp) = b := by
  obtain ⟨x, v, left, added, hr, h1⟩ := ready_of h
  obtain ⟨h0, h1, h2, h3, h4, h5, h6, h7⟩ := of_decide_eq_true h1
  refine ⟨barE, 2, s, x, v, left, added, hr, ⟨h1, h2, ?_, h3, h4, h5, h6, ?_⟩, h7⟩
  · rw [h0]; decide
  · unfold matchShadow; rw [h0]; rfl
theorem witness_BarrierCompletes : ∃ s c, ∃ level : Fin 8, ∃ s1 x v left added, Ready (.bar c level) c s x v left added ∧
    MayArrive s s1 x v level.val ∧ (arrivedNode x v level.val).granted.contains (x.g.blk, x.g.grp) = true :=
  ⟨tbar 1 1 id, arrive_of (by decide +kernel)⟩
theorem witness_BarrierCompletes_granted : ∃ c, ∃ level : Fin 8, ∃ s x v left added, Ready (.bar c level) c s x v left added ∧
    level.val < x.node.la.levels.length ∧ x.act = x.g.front.foldl (fun m e => m ||| e.mask) 0 ∧ x.g.shadow ≠ .shadow ∧
    x.node.granted.contains (x.g.blk, x.g.grp) = true :=
  ⟨barE, 2, tbar 1 1 fun n => { n with granted := [(0, 0)] }, wit (fun x _ => 2 < x.node.la.levels.length ∧
    x.act = x.g.front.foldl (fun m e => m ||| e.mask) 0 ∧ x.g.shadow ≠ .shadow ∧ x.node.granted.contains (x.g.blk, x.g.grp) = true) (by decide +kernel)⟩
theorem witness_BarrierWaits : ∃ s c, ∃ level : Fin 8, ∃ s1 x v left added, Ready (.bar c level) c s x v left added ∧
    MayArrive s s1 x v level.val ∧ (arrivedNode x v level.val).granted.contains (x.g.blk, x.g.grp) = false :=
  ⟨tbar 2 3 id, arrive_of (by decide +kernel)⟩
theorem witness_BarrierFaults : ∃ c, ∃ level : Fin 8, ∃ s x v left added, Ready (.bar c level) c s x v left added ∧
    level.val < x.node.la.levels.length ∧ x.act ≠ x.g.front.foldl (fun m e => m ||| e.mask) 0 :=
  ⟨{ barE with gp := 0 }, 2, modGroup (tbar 1 1 id) 0 0 fun g => { g with preds := [(0, 2)] }, wit (fun x _ => 2 < x.node.la.levels.length ∧
    x.act ≠ x.g.front.foldl (fun m e => m ||| e.mask) 0) (by decide +kernel)⟩
theorem witness_BarrierFaults_mask : ∃ c, ∃ level : Fin 8, ∃ s x v left added, Ready (.bar c level) c s x v left added ∧
    level.val < x.node.la.levels.length ∧ x.act = x.g.front.foldl (fun m e => m ||| e.mask) 0 ∧ x.g.shadow ≠ .shadow ∧
    x.node.granted.contains (x.g.blk, x.g.grp) = false ∧ atBar x.node x.g.blk x.g.grp = false ∧ reached s x (levelScope x.node.la level.val) = true ∧
    arrivalBad x.node level.val (loWord (lane64 v.y 0)) x.g.blk x.g.grp = true :=
  ⟨barE, 2, tbar 2 4 id, wit (fun x v => 2 < x.node.la.levels.length ∧ x.act = x.g.front.foldl (fun m e => m ||| e.mask) 0 ∧ x.g.shadow ≠ .shadow ∧
    x.node.granted.contains (x.g.blk, x.g.grp) = false ∧ atBar x.node x.g.blk x.g.grp = false ∧ reached (tbar 2 4 id) x (levelScope x.node.la 2) = true ∧
    arrivalBad x.node 2 (loWord (lane64 v.y 0)) x.g.blk x.g.grp = true) (by decide +kernel)⟩
/-- A node of two groups in one block with a meeting. -/
def nodeB (arrived : List (Nat × Nat)) : Node :=
  { addr := bootNode, la := { levels := [⟨0, 0, 1⟩, ⟨1, 0, 1⟩, ⟨2, 1, 2⟩] }, bars := [{ level := 2, unit := 0, mask := 3, arrived := arrived }] }
theorem witness_MeetingReleasesTogether : (∃ n b, b ∈ n.bars ∧ barDone n b = true) ∧ (∃ n b, b ∈ n.bars ∧ barDone n b = false) :=
  ⟨⟨nodeB [(0, 0), (0, 1)], _, List.mem_cons_self, by decide +kernel⟩, ⟨nodeB [(0, 1)], _, List.mem_cons_self, by decide +kernel⟩⟩
/-- R184: the last arrival releases both. -/
theorem test_meeting : (arrive (nodeB [(0, 1)]) 2 3 0 0).granted = [(0, 1), (0, 0)] ∧ (arrive (nodeB [(0, 1)]) 2 3 0 0).bars = [] := by decide +kernel

/-! ## Holdings -/

/-- A holding's address in s2:s3, its page translated. -/
def tho : State := ts [(2, 0x100), (3, 0x10), (4, 5)]
def hoE (x : Opnd) : Enc := encT x (.s 2) .zero 0
/-- One access, its operation having room. -/
def holdIf (i : Instr) (c : Enc) (align : Nat) (rel : Bool) : Bool :=
  readyIf i c tho fun x v => decide (x.act ≠ 0 ∧ x.g.shadow ≠ .shadow) &&
    match holdAt x v align tho with
    | .ok [_] s1 => (!rel || reached s1 x .device) && bufRoom s1 x 1 && !unlocking s1 x
    | _ => false
theorem hold_of {i : Instr} {c : Enc} {al : Nat} {r : Bool} (h : holdIf i c al r = true) : ∃ x v left added a s1, Ready i c tho x v left added ∧ x.act ≠ 0 ∧
    x.g.shadow ≠ .shadow ∧ holdAt x v al tho = .ok [a] s1 ∧ (r = true → reached s1 x .device = true) ∧ bufRoom s1 x 1 = true ∧
    unlocking s1 x = false := by
  obtain ⟨x, v, left, added, hr, h1⟩ := ready_of h
  simp only [Bool.and_eq_true, decide_eq_true_eq] at h1
  obtain ⟨⟨h2, h3⟩, h4⟩ := h1
  split at h4
  · rename_i a s1 he
    simp only [Bool.and_eq_true, Bool.or_eq_true, Bool.not_eq_true'] at h4
    refine ⟨x, v, left, added, a, s1, hr, h2, h3, he, ?_, h4.1.2, h4.2⟩
    intro hr
    rcases h4.1.1 with h5 | h5
    · rw [hr] at h5; cases h5
    · exact h5
  · cases h4
theorem witness_HoldingsSend : ∃ i c op align rel s x v left added a s1, holdSends i = some (c, op, align, rel) ∧ Ready i c s x v left added ∧ x.act ≠ 0 ∧
    (∀ k d, i = .heir c k d → ¬(k = .group ∧ groupsPerBlock x.node.la ≤ c.imm.toNat % 32)) ∧
    holdAt x v align s = .ok [a] s1 ∧ (rel = true → reached s1 x .device = true) ∧ bufRoom s1 x 1 = true := by
  obtain ⟨x, v, l, ad, a, s1, h, h1, -, h2, h3, h4, -⟩ := hold_of (i := .unlock (hoE .zero)) (c := hoE .zero) (al := 128) (r := true) (by decide +kernel)
  exact ⟨_, _, _, 128, true, _, x, v, l, ad, a, s1, rfl, h, h1, fun _ _ he => (nomatch he), h2, h3, h4⟩
theorem witness_HoldingsSend_heir : ∃ c k s x v left added a s1, Ready (.heir c k false) c s x v left added ∧ x.act ≠ 0 ∧
    ¬(k = .group ∧ groupsPerBlock x.node.la ≤ c.imm.toNat % 32) ∧ holdAt x v 16 s = .ok [a] s1 ∧ bufRoom s1 x 1 = true := by
  obtain ⟨x, v, l, ad, a, s1, h, h1, -, h2, -, h4, -⟩ := hold_of (i := .heir (hoE .zero) .parent false) (c := hoE .zero) (al := 16) (r := false) (by decide +kernel)
  exact ⟨_, _, _, x, v, l, ad, a, s1, h, h1, fun he => (by cases he.1), h2, h4⟩
theorem witness_HeirDefault : (∃ c k s x v left added, Ready (.heir c k true) c s x v left added ∧ k = .group ∧ groupsPerBlock x.node.la ≤ c.imm.toNat % 32) ∧
    (∃ c k s x v left added, Ready (.heir c k true) c s x v left added ∧ ¬(k = .group ∧ groupsPerBlock x.node.la ≤ c.imm.toNat % 32)) :=
  ⟨⟨encT .zero .zero .zero 1, .group, t0, wit (fun x _ => HKind.group = .group ∧ groupsPerBlock x.node.la ≤ (encT .zero .zero .zero 1).imm.toNat % 32)
      (by decide +kernel)⟩,
   ⟨encT .zero .zero .zero 0, .group, t0, wit (fun x _ => ¬(HKind.group = .group ∧ groupsPerBlock x.node.la ≤ (encT .zero .zero .zero 0).imm.toNat % 32))
      (by decide +kernel)⟩⟩
theorem witness_HoldingsAsk : ∃ i c op align acq pred ty s x v left added a s1, holdAsks i = some (c, op, align, acq, pred, ty) ∧ Ready i c s x v left added ∧
    x.act ≠ 0 ∧ x.g.shadow ≠ .shadow ∧ holdAt x v align s = .ok [a] s1 ∧ (takesHold op && unlocking s1 x) = false ∧ bufRoom s1 x 1 = true := by
  obtain ⟨x, v, l, ad, a, s1, h, h1, h2, h3, -, h4, h5⟩ := hold_of (i := .holdq (hoE (.v 2))) (c := hoE (.v 2)) (al := 16) (r := false) (by decide +kernel)
  exact ⟨_, _, _, 16, false, none, .b64, _, x, v, l, ad, a, s1, rfl, h, h1, h2, h3, by rw [h5, Bool.and_false], h4⟩
theorem witness_HoldingsBlock : ∃ i c op align w s x v left added a s1, holdBlocks i = some (c, op, align, w) ∧ Ready i c s x v left added ∧ x.act ≠ 0 ∧
    holdAt x v align s = .ok [a] s1 ∧ (takesHold op && unlocking s1 x) = false ∧ bufRoom s1 x 1 = true := by
  obtain ⟨x, v, l, ad, a, s1, h, h1, -, h3, -, h4, h5⟩ := hold_of (i := .lock (hoE (.v 1))) (c := hoE (.v 1)) (al := 128) (r := false) (by decide +kernel)
  exact ⟨_, _, _, 128, _, _, x, v, l, ad, a, s1, rfl, h, h1, h3, by rw [h5, Bool.and_false], h4⟩
theorem witness_HoldingsFault : ∃ i c align k va s x v left added,
    ((∃ op rel, holdSends i = some (c, op, align, rel)) ∨ (∃ op acq pred ty, holdAsks i = some (c, op, align, acq, pred, ty)) ∨
      (∃ op w, holdBlocks i = some (c, op, align, w))) ∧
    Ready i c s x v left added ∧ x.act ≠ 0 ∧ (∀ j d, i = .heir c j d → ¬(j = .group ∧ groupsPerBlock x.node.la ≤ c.imm.toNat % 32)) ∧
    holdAt x v align s = .trap k va := by
  obtain ⟨x, v, l, ad, h, h1⟩ := ready_of (i := .lock (hoE (.v 1))) (c := hoE (.v 1)) (s := ts [(2, 0x110), (3, 0x10)])
    (P := fun x v => decide (x.act ≠ 0) && match holdAt x v 128 (ts [(2, 0x110), (3, 0x10)]) with
      | .trap .protection va => va == 0x1000000110
      | _ => false) (by decide +kernel)
  simp only [Bool.and_eq_true, decide_eq_true_eq] at h1
  obtain ⟨h2, h3⟩ := h1
  split at h3
  · rename_i va he
    exact ⟨_, _, 128, .protection, va, _, x, v, l, ad, .inr (.inr ⟨_, _, rfl⟩), h, h2, fun _ _ h => (nomatch h), he⟩
  · cases h3

/-! ## The unit -/

/-- A holding word's fields. -/
def hwT (state kind estag owner : Nat) : HWord :=
  { state := state, brv := false, hkind := 0, hgrp := 0, kind := kind, estag := estag, owner := owner, lo := 7, hi := 0 }
/-- The node has ESTAG 5 and an estate table of one entry, the word holds `w`, and the entry holds `n`. -/
def test0 (w : HWord) (n : Nat) : State :=
  memWrite (memWrite (modNode (tpt id (walkT 0 false)) 0 bootNode fun n => { n with estag := 5, la := { n.la with estate := 0x1000000800, estn := 1 } })
    0x1000000100 16 (hwNum w)) 0x1000000800 32 n
/-- With an operation first of its line at its unit. -/
def tunit (op : HoldOp) (w : HWord) : State := modCluster (test0 w 0) 0 fun k => { k with wq := [ent (.hold op 0x1000000100) none] }
theorem ready_hold (op : HoldOp) (w : HWord) (h : (getCluster (tunit op w) 0).wq = [ent (.hold op 0x1000000100) none])
    (h1 : refusalOf (getPart (tunit op w) 0).lay 0x1000000100 = none) (h2 : linePoisoned (tunit op w) 0x1000000100 = false)
    (h3 : (findNode (tunit op w) 0 bootNode).isSome = true) :
    ∃ n, HoldReady (tunit op w) 0 0 (ent (.hold op 0x1000000100) none) op 0x1000000100 n := by
  obtain ⟨n, hn⟩ := Option.isSome_iff_exists.mp h3
  exact ⟨n, first_tq _ _ h, rfl, h1, h2, hn⟩
/-- The free entries of an estate table whose lines can be read. -/
def openEntries (s : State) (part : Nat) (n : Node) : List EstEnt := (estTable s part n).filter fun e => e.kind == 0 && (badEntry s part n e).isNone
/-- An allocation succeeds where an entry is free, whichever is taken. -/
theorem estAlloc_some {s : State} {part : Nat} {node : DWord} {owner kind : Nat} {va : DWord} {n : Node} (h : findNode s part node = some n)
    (h1 : (openEntries s part n) ≠ []) : ∃ t, estAlloc s part node owner kind va = some t := by
  have hm := Nat.mod_lt (Config.freeChoice s.free) (List.length_pos_iff.mpr h1)
  simp only [openEntries] at h1 hm
  simp only [estAlloc, h, List.isEmpty_iff, h1, if_false, List.getElem?_eq_getElem hm]
  exact ⟨_, rfl⟩

theorem takeHolding_some {s : State} {e : SbEntry} {kind : Nat} {m : Node} (h : findNode s e.part e.node = some m)
    (h1 : openEntries s e.part m ≠ []) (n : Node) (pa : Nat) (w : HWord) (b : Bool) :
    ∃ t, takeHolding s n e pa kind w b = some t := by
  obtain ⟨t, ht⟩ := estAlloc_some (owner := ownerOf e.blk e.grp) (kind := kind) (va := e.va) h h1
  exact ⟨_, by unfold takeHolding; rw [ht]; rfl⟩
/-- A table with a free entry, and one with none. -/
theorem witness_EstateEntryTaken : (∃ s part node n owner kind va t, findNode s part node = some n ∧ estAlloc s part node owner kind va = some t) ∧
    (∃ s part node n, findNode s part node = some n ∧ ∀ e ∈ estTable s part n, e.kind = 0 → badEntry s part n e ≠ none) := by
  have hn : ∃ m, findNode (test0 (hwT 0 1 0 0) 0) 0 bootNode = some m ∧ openEntries (test0 (hwT 0 1 0 0) 0) 0 m ≠ [] := ⟨_, rfl, by decide +kernel⟩
  obtain ⟨m, h1, h2⟩ := hn
  obtain ⟨t, ht⟩ := estAlloc_some (owner := 0) (kind := 1) (va := 0x1000000100) h1 h2
  exact ⟨⟨_, _, _, m, _, _, _, t, h1, ht⟩, ⟨test0 (hwT 1 1 5 0) 0x10000000000000000, 0, bootNode, _, rfl, by decide +kernel⟩⟩
theorem witness_LockIsTaken : ∃ s cl idx e pa n s1, HoldReady s cl idx e .lock pa n ∧ ((hwGet s pa).kind = 0 ∨ (hwGet s pa).kind = 1) ∧ (hwGet s pa).state = 0 ∧
    takeHolding (modCluster s cl fun k => { k with wq := listDrop k.wq idx }) n e pa 1 (hwGet s pa) (hwGet s pa).brv = some s1 := by
  obtain ⟨n, hr⟩ := ready_hold .lock (hwT 0 1 0 0) (by decide +kernel) (by decide +kernel) (by decide +kernel) (by decide +kernel)
  have hn : ∃ m, findNode (modCluster (tunit .lock (hwT 0 1 0 0)) 0 fun k => { k with wq := listDrop k.wq 0 }) 0 bootNode = some m ∧
      openEntries (modCluster (tunit .lock (hwT 0 1 0 0)) 0 fun k => { k with wq := listDrop k.wq 0 }) 0 m ≠ [] :=
    ⟨_, rfl, by decide +kernel⟩
  obtain ⟨m, h1, h2⟩ := hn
  obtain ⟨t, ht⟩ := takeHolding_some (e := ent (.hold .lock 0x1000000100) none) (kind := 1) h1 h2 n 0x1000000100 (hwGet (tunit .lock (hwT 0 1 0 0)) 0x1000000100)
    (hwGet (tunit .lock (hwT 0 1 0 0)) 0x1000000100).brv
  exact ⟨tunit .lock (hwT 0 1 0 0), 0, 0, _, 0x1000000100, n, t, hr, by decide +kernel, by decide +kernel, ht⟩
theorem witness_LockQueues : ∃ s cl idx e pa n, HoldReady s cl idx e .lock pa n ∧ (hwGet s pa).kind = 1 ∧ (hwGet s pa).state = 1 ∧
    hwOwned n e (hwGet s pa) = false := by
  obtain ⟨n, hr⟩ := ready_hold .lock (hwT 1 1 6 9) (by decide +kernel) (by decide +kernel) (by decide +kernel) (by decide +kernel)
  refine ⟨_, _, _, _, _, n, hr, by decide +kernel, by decide +kernel, ?_⟩
  have h : ∃ m, findNode (tunit .lock (hwT 1 1 6 9)) 0 bootNode = some m ∧
      hwOwned m (ent (.hold .lock 0x1000000100) none) (hwGet (tunit .lock (hwT 1 1 6 9)) 0x1000000100) = false := ⟨_, rfl, by decide +kernel⟩
  obtain ⟨m, h1, h2⟩ := h
  rw [Option.some.inj (hr.2.2.2.2.symm.trans h1)]; exact h2
/-- The owner's operation. -/
theorem owner_ready (op : HoldOp) (w : HWord) (h : (getCluster (tunit op w) 0).wq = [ent (.hold op 0x1000000100) none])
    (h1 : refusalOf (getPart (tunit op w) 0).lay 0x1000000100 = none) (h2 : linePoisoned (tunit op w) 0x1000000100 = false) (b : Bool)
    (h3 : (match findNode (tunit op w) 0 bootNode with
      | some n => hwOwned n (ent (.hold op 0x1000000100) none) (hwGet (tunit op w) 0x1000000100) == b
      | none => false) = true) :
    ∃ n, HoldReady (tunit op w) 0 0 (ent (.hold op 0x1000000100) none) op 0x1000000100 n ∧
      hwOwned n (ent (.hold op 0x1000000100) none) (hwGet (tunit op w) 0x1000000100) = b := by
  split at h3
  · rename_i n hn
    exact ⟨n, ⟨first_tq _ _ h, rfl, h1, h2, hn⟩, beq_iff_eq.mp h3⟩
  · cases h3
theorem witness_UnlockFrees : ∃ s cl idx e pa n, HoldReady s cl idx e .unlock pa n ∧ (hwGet s pa).kind = 1 ∧ (hwGet s pa).state = 1 ∧
    hwOwned n e (hwGet s pa) = true ∧ waitersAt s e.part pa true = [] := by
  obtain ⟨n, h, ho⟩ := owner_ready .unlock (hwT 1 1 5 0) (by decide +kernel) (by decide +kernel) (by decide +kernel) true (by decide +kernel)
  exact ⟨_, _, _, _, _, n, h, by decide +kernel, by decide +kernel, ho, by decide +kernel⟩
theorem witness_PromiseSettles : ∃ s cl idx e pa n brk val, HoldReady s cl idx e (.fulf brk val) pa n ∧ (hwGet s pa).kind = 2 ∧ (hwGet s pa).state = 0 ∧
    hwOwned n e (hwGet s pa) = true ∧ waitersAt s e.part pa false = [] := by
  obtain ⟨n, h, ho⟩ := owner_ready (.fulf false 0xFFFFFFFF00000001) (hwT 0 2 5 0) (by decide +kernel) (by decide +kernel) (by decide +kernel) true (by decide +kernel)
  exact ⟨_, _, _, _, _, n, false, _, h, by decide +kernel, by decide +kernel, ho, by decide +kernel⟩
theorem witness_WrongStateIsRefused : ∃ s cl idx e op pa n, HoldReady s cl idx e op pa n ∧
    (op = .unlock ∨ op = .rels ∨ (∃ b v, op = .fulf b v) ∨ (∃ k g, op = .heir k g)) ∧ hwOwned n e (hwGet s pa) = false := by
  obtain ⟨n, h, ho⟩ := owner_ready .unlock (hwT 0 1 5 0) (by decide +kernel) (by decide +kernel) (by decide +kernel) false (by decide +kernel)
  exact ⟨_, _, _, _, _, _, n, h, .inl rfl, ho⟩
/-- A word of the host's. -/
def thost (w : HWord) : State := memWrite t0 0x1000000100 16 (hwNum w)
theorem witness_HostStoresSettle : (∃ s part pa, presented s = true ∧ hwLive (hwGet s pa) = true ∧ (hwGet s pa).owner = 0xFFFFFFFF ∧ (hwGet s pa).estag = 0 ∧ pa % 16 = 0 ∧
      refusalOf (getPart s part).lay pa = none ∧ (hwGet s pa).kind = 1 ∧ waitersAt s part pa true = []) ∧
    (∃ s part pa, presented s = true ∧ hwLive (hwGet s pa) = true ∧ (hwGet s pa).owner = 0xFFFFFFFF ∧ (hwGet s pa).estag = 0 ∧ pa % 16 = 0 ∧
      refusalOf (getPart s part).lay pa = none ∧ (hwGet s pa).kind = 2 ∧ waitersAt s part pa false = []) ∧
    (∃ s pa, hwLive (hwGet s pa) = true ∧ (hwGet s pa).owner ≠ 0xFFFFFFFF) :=
  ⟨⟨thost (hwT 1 1 0 0xFFFFFFFF), 0, 0x1000000100, by decide +kernel⟩, ⟨thost (hwT 0 2 0 0xFFFFFFFF), 0, 0x1000000100, by decide +kernel⟩,
   ⟨thost (hwT 1 1 5 0xFFFFFFFE), 0x1000000100, by decide +kernel⟩⟩
/-- The estate unit walks the group in slot 0 of core 0. -/
def twalk (w : HWord) (e : Nat) : State := modDie (test0 w e) 0 fun d => { d with estq := [{ part := 0, node := bootNode, blk := 0, grp := 0, gslot := 0, killed := false }] }
/-- A table entry for the word. -/
def entH : Nat := estNum { idx := 0, addr := 0x1000000100, kind := 1, estag := 5, ord := 0, owner := 0 }
theorem witness_EstateWalks : (∃ s die w q n e l, (getDie s die).estq = w :: q ∧ estateStopped s w.part die = false ∧ inFlight s w = false ∧
      findNode s w.part w.node = some n ∧ leftOf s w n = e :: l ∧
      (issueAll s w.part .journal (requestsOf s w.part .read [estAt n e.idx, e.addr])).isSome = true) ∧
    (∃ s die w q n, (getDie s die).estq = w :: q ∧ estateStopped s w.part die = false ∧ inFlight s w = false ∧
      findNode s w.part w.node = some n ∧ leftOf s w n = [] ∧ w.heirless = 0 ∧ n.la.dims = 0 ∧
      ∃ g, getGroup s (w.gslot / 64) (w.gslot % 64) = some g ∧ g.part = w.part ∧ g.node = w.node ∧ g.blk = w.blk ∧ g.grp = w.grp) := by
  refine ⟨⟨twalk (hwT 1 1 5 0) entH, 0, _, _, _, { idx := 0, addr := 0x1000000100, kind := 1, estag := 5, ord := 0, owner := 0 }, [], rfl, by decide +kernel,
    by decide +kernel, rfl, by decide +kernel, by decide +kernel⟩, ⟨twalk (hwT 0 1 0 0) 0, 0, _, _, _, rfl, by decide +kernel, by decide +kernel, rfl, by decide +kernel, rfl, rfl, _, rfl,
    rfl, rfl, rfl, rfl⟩⟩
/-- The walk of a group of an overcast lattice. -/
def tcast : State := modNode (twalk (hwT 0 1 0 0) 0) 0 bootNode fun n => { n with la := { n.la with dims := 1, xe := 128, ta := 64, ecount := 1 }, slots := [0] }
theorem witness_EstateWalks_overcast : ∃ s die w q n g, (getDie s die).estq = w :: q ∧ estateStopped s w.part die = false ∧ inFlight s w = false ∧
    findNode s w.part w.node = some n ∧ leftOf s w n = [] ∧ w.heirless = 0 ∧ n.la.dims ≠ 0 ∧ overcast n = true ∧ w.killed = false ∧
    getGroup s (w.gslot / 64) (w.gslot % 64) = some g ∧ g.part = w.part ∧ g.node = w.node ∧ g.blk = w.blk ∧ g.grp = w.grp :=
  ⟨tcast, 0, _, _, _, _, rfl, by decide +kernel, by decide +kernel, rfl, by decide +kernel, rfl, by decide +kernel, by decide +kernel, rfl, rfl, rfl, rfl, rfl, rfl⟩
/-- Two groups in each of two blocks, one of them gone. -/
def nodeH (gone : List (Nat × Nat)) : Node :=
  { addr := bootNode, la := { levels := [⟨0, 0, 1⟩, ⟨1, 0, 1⟩, ⟨2, 1, 2⟩, ⟨3, 2, 2⟩] },
    placed := gone.map fun p => { blk := p.1, grp := p.2, core := 0, slot := 0, exited := true } }
/-- A word with an heir. -/
def hwH (k g : Nat) : HWord := { hwT 1 1 5 0 with hkind := k, hgrp := g }
theorem witness_HeirsResolve :
    (∃ s part n blk grp, ∃ w : HWord, w.hkind = 0 ∧ w.hgrp ≠ grp ∧ w.hgrp < groupsPerBlock n.la ∧ survives s part n blk w.hgrp = true) ∧
    (∃ s part n blk, ∃ w : HWord, w.hkind = 0 ∧ survives s part n blk w.hgrp = false) ∧
    (∃ s part n blk grp, ∃ w : HWord, ∃ k, w.hkind = 1 ∧ k < groupsPerBlock n.la ∧ k ≠ grp ∧ survives s part n blk k = true ∧
      (∀ j, j < k → j ≠ grp → survives s part n blk j = false)) ∧
    (∃ w : HWord, w.hkind = 2) ∧ (∃ w : HWord, w.hkind = 3) ∧ (∃ w : HWord, w.hkind = 4) :=
  ⟨⟨State.reset, 0, nodeH [(0, 0)], 0, 0, hwH 0 1, by decide +kernel⟩, ⟨State.reset, 0, nodeH [(0, 1)], 0, hwH 0 1, by decide +kernel⟩,
   ⟨State.reset, 0, nodeH [(0, 0)], 0, 0, hwH 1 0, 1, rfl, by decide, by decide, by decide +kernel, fun j h h1 => absurd (Nat.lt_one_iff.mp h) h1⟩,
   ⟨hwH 2 0, rfl⟩, ⟨hwH 3 0, rfl⟩, ⟨hwH 4 0, rfl⟩⟩
/-- R190: BLOCK gives the lowest survivor of the block, else the lowest of the node; SUCCESSOR and PARENT by their own rules. -/
theorem witness_HeirsResolve_node : ∃ s part n blk grp b k, ∃ w : HWord, w.hkind = 1 ∧
    (∀ j, j < groupsPerBlock n.la → j ≠ grp → survives s part n blk j = false) ∧ (b, k) ∈ allGroups n.la ∧ (b, k) ≠ (blk, grp) ∧
    survives s part n b k = true ∧ (∀ p ∈ allGroups n.la, (p.1 < b ∨ p.1 = b ∧ p.2 < k) → p ≠ (blk, grp) → survives s part n p.1 p.2 = false) :=
  ⟨State.reset, 0, nodeH [(0, 0), (0, 1)], 0, 0, 1, 0, hwH 1 0, rfl, by decide +kernel, by decide +kernel, by decide, by decide +kernel, by decide +kernel⟩
theorem test_heirs : resolveHeir State.reset 0 (nodeH [(0, 0), (0, 1)]) 0 0 false (hwH 1 0) = .grp 1 0 ∧
    resolveHeir State.reset 0 (nodeH []) 0 0 false (hwH 2 0) = .host ∧ resolveHeir State.reset 0 (nodeH []) 0 0 true (hwH 3 0) = .later := by decide +kernel
theorem witness_SuccessorInherits : ∃ s part node blk n e pa pte, findNode s part (BitVec.ofNat 64 node) = some n ∧ groupsPerBlock n.la = 1 ∧
    (groupOf s part n blk 0).isSome = true ∧ ownedEnts s part n blk 0 = [e] ∧ engTrans s part e.addr .write = .ok pa pte ∧ (hwGet s pa).hkind = 3 :=
  ⟨test0 (hwH 3 0) entH, 0, 0x3000000000, 0, _, { idx := 0, addr := 0x1000000100, kind := 1, estag := 5, ord := 0, owner := 0 }, 0x1000000100, 0x100000001F,
    rfl, by decide +kernel, by decide +kernel, by decide +kernel, by decide +kernel, by decide +kernel⟩

/-! ## Lattices and messages -/

/-- A lattice of two tiles along x, the group serving tile 0. -/
def tlat (st : TileSt) (fg : Group → Group) : State :=
  tb (fun n => { n with la := { n.la with dims := 1, xe := 128, ta := 64, ecount := 1 }, tiles := [(1, st)], tileImgs := [(1, bootGroup)] }) id fg
def stepE : Enc := encT .zero .zero .zero 0
theorem equal_of {s : State} {x : Ctx} {op : MemOp} (h : x.g.shadow = .none) : matchShadow s x op = .equal s := by
  unfold matchShadow; rw [h]; rfl
theorem witness_StepPublishes : ∃ c s s1 x v left added, Ready (.step c) c s x v left added ∧ x.node.la.dims ≠ 0 ∧ x.g.step ≠ 0xFFFFFFFF ∧
    x.g.shadow ≠ .shadow ∧ stepFault s x = none ∧ matchShadow s x (.stepSend x.g.step.toNat (exportsOf x.node.la x.g)) = .equal s1 ∧
    (∀ t ∈ neighbourTiles x.node.la (tileOf x.node.la x.g), tileBehind s x.node x.g.part x.core (tileOf x.node.la x.g) x.g.step.toNat t = false) := by
  obtain ⟨x, v, l, ad, h, h0, h1⟩ := wit (i := .step stepE) (c := stepE) (s := tlat .exited id) (fun x _ => x.g.shadow = .none ∧ x.node.la.dims ≠ 0 ∧
    x.g.step ≠ 0xFFFFFFFF ∧ x.g.shadow ≠ .shadow ∧ stepFault (tlat .exited id) x = none ∧
    (neighbourTiles x.node.la (tileOf x.node.la x.g)).all (fun t => !tileBehind (tlat .exited id) x.node x.g.part x.core (tileOf x.node.la x.g) x.g.step.toNat t) = true)
    (by decide +kernel)
  exact ⟨_, _, _, x, v, l, ad, h, h1.1, h1.2.1, h1.2.2.1, h1.2.2.2.1, equal_of h0, fun t ht => by
    simpa using List.all_eq_true.mp h1.2.2.2.2 t ht⟩
theorem witness_StepPublishes_behind : ∃ c s x v left added, Ready (.step c) c s x v left added ∧ x.node.la.dims ≠ 0 ∧ x.g.step ≠ 0xFFFFFFFF ∧
    x.g.shadow ≠ .shadow ∧ stepFault s x = none ∧
    (∃ t ∈ neighbourTiles x.node.la (tileOf x.node.la x.g), tileBehind s x.node x.g.part x.core (tileOf x.node.la x.g) x.g.step.toNat t = true) := by
  obtain ⟨x, v, l, ad, h, h1⟩ := wit (i := .step stepE) (c := stepE) (s := tlat .moving id) (fun x _ => x.node.la.dims ≠ 0 ∧
    x.g.step ≠ 0xFFFFFFFF ∧ x.g.shadow ≠ .shadow ∧ stepFault (tlat .moving id) x = none ∧
    (neighbourTiles x.node.la (tileOf x.node.la x.g)).any (fun t => tileBehind (tlat .moving id) x.node x.g.part x.core (tileOf x.node.la x.g) x.g.step.toNat t) = true)
    (by decide +kernel)
  exact ⟨_, _, x, v, l, ad, h, h1.1, h1.2.1, h1.2.2.1, h1.2.2.2.1, List.any_eq_true.mp h1.2.2.2.2⟩
theorem witness_ShadowsGoOn : (∃ c, ∃ level : Fin 8, ∃ s x v left added, Ready (.bar c level) c s x v left added ∧ level.val < x.node.la.levels.length ∧
      x.act = x.g.front.foldl (fun m e => m ||| e.mask) 0 ∧ x.g.shadow = .shadow) ∧
    (∃ c s x v left added, Ready (.step c) c s x v left added ∧ x.node.la.dims ≠ 0 ∧ x.g.step ≠ 0xFFFFFFFF ∧ x.g.shadow = .shadow) :=
  ⟨⟨barE, 2, modGroup (tbar 1 1 id) 0 0 fun g => { g with shadow := .shadow }, wit (fun x _ => 2 < x.node.la.levels.length ∧
      x.act = x.g.front.foldl (fun m e => m ||| e.mask) 0 ∧ x.g.shadow = .shadow) (by decide +kernel)⟩,
   ⟨stepE, tlat .exited fun g => { g with shadow := .shadow }, wit (fun x _ => x.node.la.dims ≠ 0 ∧ x.g.step ≠ 0xFFFFFFFF ∧ x.g.shadow = .shadow)
      (by decide +kernel)⟩⟩
/-- A node of that lattice whose tile 1 stands on core 5. -/
def nodeL : Node := { addr := bootNode, la := { levels := [⟨0, 0, 1⟩, ⟨1, 0, 1⟩, ⟨2, 1, 1⟩], dims := 1, xe := 128, ta := 64, ecount := 1 },
                      tiles := [(1, .resident)], placed := [{ blk := 1, grp := 0, core := 5, slot := 0 }] }
/-- A face east of tile 0 that holds the bank of a label. -/
def tface (q : Int) : State :=
  modCore State.reset 0 fun k => { k with mirrors := [{ node := bootNode, tile := 0, dir := .east, bank1 := { label := some q } }] }
/-- Where the tile across the eastern face of tile 0 is found. -/
def faceIf (s : State) (step : Word) (P : TileView → Bool) : Bool :=
  match findTile s 0 nodeL 0 (tileOf nodeL.la { bootGroup with step := step }) .east (tileOfCell nodeL.la (64, 0, 0)).1 with
  | .view v => P v
  | _ => false
theorem face_of {s : State} {step : Word} {P : TileView → Bool} (h : faceIf s step P = true) :
    ∃ v, findTile s 0 nodeL 0 (tileOf nodeL.la { bootGroup with step := step }) .east (tileOfCell nodeL.la (64, 0, 0)).1 = .view v ∧ P v = true := by
  unfold faceIf at h
  split at h
  · exact ⟨_, by assumption, h⟩
  · cases h
theorem witness_NeighbourReads :
    (∃ n : Node, ∃ g d l, d ≠ Dir.self ∧ moveCell n.la d (cellOf n.la (tileOf n.la g) l) = none) ∧
    (∃ s n g core d l c2 v, d ≠ Dir.self ∧ moveCell n.la d (cellOf n.la (tileOf n.la g) l) = some c2 ∧ (tileOfCell n.la c2).1 ≠ tileOf n.la g ∧
      findTile s g.part n core (tileOf n.la g) d (tileOfCell n.la c2).1 = .view v ∧ v.count < g.step.toNat ∧ v.exited = false) ∧
    (∃ s n g core d l c2 v, d ≠ Dir.self ∧ moveCell n.la d (cellOf n.la (tileOf n.la g) l) = some c2 ∧ (tileOfCell n.la c2).1 ≠ tileOf n.la g ∧
      findTile s g.part n core (tileOf n.la g) d (tileOfCell n.la c2).1 = .view v ∧ v.has (Int.ofNat g.step.toNat - 1) = false) ∧
    (∃ s n g core d l c2 v, d ≠ Dir.self ∧ moveCell n.la d (cellOf n.la (tileOf n.la g) l) = some c2 ∧ (tileOfCell n.la c2).1 ≠ tileOf n.la g ∧
      findTile s g.part n core (tileOf n.la g) d (tileOfCell n.la c2).1 = .view v ∧ g.step.toNat ≤ v.count ∧
      v.has (Int.ofNat g.step.toNat - 1) = true) := by
  obtain ⟨v, h, h1⟩ := face_of (s := State.reset) (step := 1) (P := fun v => decide (v.count < 1) && !v.exited) (by decide +kernel)
  obtain ⟨w, k, k1⟩ := face_of (s := tface 1) (step := 0) (P := fun v => !v.has (-1)) (by decide +kernel)
  obtain ⟨u, m, m1⟩ := face_of (s := tface (-1)) (step := 0) (P := fun v => v.has (-1)) (by decide +kernel)
  simp only [Bool.and_eq_true, decide_eq_true_eq, Bool.not_eq_true'] at h1 k1
  exact ⟨⟨nodeL, bootGroup, .west, 0, by decide, by decide +kernel⟩,
    ⟨State.reset, nodeL, { bootGroup with step := 1 }, 0, .east, 63, (64, 0, 0), v, by decide, by decide +kernel, by decide +kernel, h, h1⟩,
    ⟨tface 1, nodeL, { bootGroup with step := 0 }, 0, .east, 63, (64, 0, 0), w, by decide, by decide +kernel, by decide +kernel, k, k1⟩,
    ⟨tface (-1), nodeL, { bootGroup with step := 0 }, 0, .east, 63, (64, 0, 0), u, by decide, by decide +kernel, by decide +kernel, m, Nat.zero_le _, m1⟩⟩
theorem witness_NeighbourReads_sameTile : ∃ n : Node, ∃ g d l c2, d ≠ Dir.self ∧ moveCell n.la d (cellOf n.la (tileOf n.la g) l) = some c2 ∧
    (tileOfCell n.la c2).1 = tileOf n.la g := ⟨nodeL, bootGroup, .east, 62, (63, 0, 0), by decide, by decide +kernel, by decide +kernel⟩
/-- R169, R173: the eastern neighbour of lane 63 of a 64-cell tile is lane 0 of the next. -/
theorem test_neighbour_lane : moveCell nodeL.la .east (cellOf nodeL.la 0 63) = some (64, 0, 0) ∧ tileOfCell nodeL.la (64, 0, 0) = (1, 0) := by decide +kernel
def imE (x : Opnd) (imm : Word) : Enc := encT x .zero .zero imm
theorem witness_LatticeQuery : (∃ c s x v left added d, Ready (.lqry c) c s x v left added ∧ dirOfCode c.imm.toNat = some d ∧ x.node.la.dims ≠ 0) ∧
    (∃ c s x v left added, Ready (.lqry c) c s x v left added ∧ dirOfCode c.imm.toNat = none) ∧
    (∃ c s x v left added, Ready (.lqry c) c s x v left added ∧ x.node.la.dims = 0) := by
  refine ⟨?_, ⟨imE (.v 1) 7, t0, wit (fun _ _ => dirOfCode (imE (.v 1) 7).imm.toNat = none) (by decide +kernel)⟩,
    ⟨imE (.v 1) 0, t0, wit (fun x _ => x.node.la.dims = 0) (by decide +kernel)⟩⟩
  obtain ⟨x, v, l, ad, h, h1⟩ := wit (i := .lqry (imE (.v 1) 6)) (c := imE (.v 1) 6) (s := tlat .exited id) (fun x _ => x.node.la.dims ≠ 0) (by decide +kernel)
  exact ⟨_, _, x, v, l, ad, .self, h, rfl, h1⟩
/-- R181: beyond the west edge REL is 2; an axis the launch does not declare gives 3. -/
theorem test_step_lqry : outV (exec (.lqry (imE (.v 1) 1)) (tlat .exited id)) 1 0 = some 2 ∧ outV (exec (.lqry (imE (.v 1) 2)) (tlat .exited id)) 1 0 = some 3 := by
  decide +kernel
def mqE (x : Opnd) : Enc := encT x (.s 2) .zero 0
theorem witness_PortsConfigured : (∃ c s x v left added, ∃ n : Fin 4, Ready (.mqcf c) c s x v left added ∧ x.act ≠ 0 ∧ c.x = .mq n ∧
      (let w : Word := (lane64 v.y 0).setWidth 32
       w.extractLsb' 13 18 = 0 ∧ w.extractLsb' 11 2 ≠ 3 ∧ w.getLsbD 31 = true ∧ (getPart s x.g.part).lay.clusters.contains (w.toNat % 512 / 4) = true)) ∧
    (∃ c s x v left added, Ready (.mqst c) c s x v left added ∧ c.imm.toNat / 4 % 4 ≠ 3) := by
  refine ⟨?_, ⟨imE (.v 1) 11, t0, wit (fun _ _ => (imE (.v 1) 11).imm.toNat / 4 % 4 ≠ 3) (by decide +kernel)⟩⟩
  obtain ⟨x, v, l, ad, h, h1⟩ := wit (i := .mqcf (mqE (.mq 3))) (c := mqE (.mq 3)) (s := ts [(2, 0x800011FF)]) (fun x v => x.act ≠ 0 ∧
    (let w : Word := (lane64 v.y 0).setWidth 32
     w.extractLsb' 13 18 = 0 ∧ w.extractLsb' 11 2 ≠ 3 ∧ w.getLsbD 31 = true ∧
     (getPart (ts [(2, 0x800011FF)]) x.g.part).lay.clusters.contains (w.toNat % 512 / 4) = true)) (by decide +kernel)
  exact ⟨_, _, x, v, l, ad, 3, h, h1.1, rfl, h1.2⟩
/-- A send through port 1, configured for core 0 or not. -/
def tsend (w : Word) : State := tg fun g => { g with ports := mapSet 0 [] 1 w }
/-- The buffer entry of a send through port 1. -/
def sendEnt (x : Ctx) (v : Srcs) : SbEntry :=
  { mkEntry x (.send 1 (BitVec.ofNat 32 ((mapGet 0 x.g.ports 1).toNat - (mapGet 0 x.g.ports 1).toNat % 512)) (mapGet 0 x.g.portSeq 1)
      ((lanesOf x.act).map fun l => (lane64 v.y l).setWidth 32)) 0 0 0 none with cmp := true }
/-- Whether core 0's port accepts the send that `sendEnt` describes, to core 0 and configured so. -/
def sendAccepts (s : State) (x : Ctx) (v : Srcs) : Bool :=
  portAccepts s x (sendEnt x v) 1 (BitVec.ofNat 32 ((mapGet 0 x.g.ports 1).toNat - (mapGet 0 x.g.ports 1).toNat % 512)) (mapGet 0 x.g.portSeq 1)
    ((lanesOf x.act).map fun l => (lane64 v.y l).setWidth 32)
/-- The send's group stands behind a store of its block. -/
def tbehind : State := modCore (tsend 0x80000000) 0 fun k => { k with bufs := [{ part := 0, node := bootNode, blk := 0, ents := [{ op := .store false [(0, 1)] }] }] }
/-- The node's groups on core 1 are saved. -/
def tsaved : State := modPart (tsend 0x80000001) 0 fun p => { p with images := [{ core := 1, slot := 0, base := 0, img := { node := some bootNode }, plane := {}, reqs := [] }] }
theorem witness_SendsArePacked : (∃ c ty s x v left added, ∃ n : Fin 4, Ready (.mov c ty) c s x v left added ∧ c.x = .mq n ∧ x.act ≠ 0 ∧ x.g.shadow ≠ .shadow ∧
      (mapGet 0 x.g.ports n.val).getLsbD 31 = true ∧ sendTarget s x.g.part x.node ((mapGet 0 x.g.ports n.val).toNat % 512) = .core 0 ∧
      x.g.shadow = .none ∧ n = 1 ∧ sendAccepts s x v = true) ∧
    (∃ c ty s x v left added, ∃ n : Fin 4, Ready (.mov c ty) c s x v left added ∧ c.x = .mq n ∧ x.act ≠ 0 ∧ x.g.shadow ≠ .shadow ∧
      (mapGet 0 x.g.ports n.val).getLsbD 31 = true ∧ sendTarget s x.g.part x.node ((mapGet 0 x.g.ports n.val).toNat % 512) = .core 0 ∧
      x.g.shadow = .none ∧ n = 1 ∧ sendAccepts s x v = false) ∧
    (∃ c ty s x v left added, ∃ n : Fin 4, Ready (.mov c ty) c s x v left added ∧ c.x = .mq n ∧ x.act ≠ 0 ∧ (mapGet 0 x.g.ports n.val).getLsbD 31 = true ∧
      sendTarget s x.g.part x.node ((mapGet 0 x.g.ports n.val).toNat % 512) = .wait) ∧
    (∃ c ty s x v left added, ∃ n : Fin 4, Ready (.mov c ty) c s x v left added ∧ c.x = .mq n ∧ x.act ≠ 0 ∧ (mapGet 0 x.g.ports n.val).getLsbD 31 = false) ∧
    (∃ c ty s x v left added, ∃ n : Fin 4, Ready (.mov c ty) c s x v left added ∧ c.x = .mq n ∧ x.act ≠ 0 ∧
      sendTarget s x.g.part x.node ((mapGet 0 x.g.ports n.val).toNat % 512) = .nowhere) := by
  refine ⟨?_, ?_, ?_, ?_, ?_⟩
  · obtain ⟨x, v, l, ad, h, h1⟩ := wit (i := .mov (mqE (.mq 1)) .b32) (c := mqE (.mq 1)) (s := tsend 0x80000000) (fun x v => x.act ≠ 0 ∧ x.g.shadow ≠ .shadow ∧
      (mapGet 0 x.g.ports 1).getLsbD 31 = true ∧ sendTarget (tsend 0x80000000) x.g.part x.node ((mapGet 0 x.g.ports 1).toNat % 512) = .core 0 ∧
      x.g.shadow = .none ∧ (1 : Fin 4) = 1 ∧ sendAccepts (tsend 0x80000000) x v = true) (by decide +kernel)
    exact ⟨_, _, _, x, v, l, ad, 1, h, rfl, h1⟩
  · obtain ⟨x, v, l, ad, h, h1⟩ := wit (i := .mov (mqE (.mq 1)) .b32) (c := mqE (.mq 1)) (s := tbehind) (fun x v => x.act ≠ 0 ∧ x.g.shadow ≠ .shadow ∧
      (mapGet 0 x.g.ports 1).getLsbD 31 = true ∧ sendTarget tbehind x.g.part x.node ((mapGet 0 x.g.ports 1).toNat % 512) = .core 0 ∧
      x.g.shadow = .none ∧ (1 : Fin 4) = 1 ∧ sendAccepts tbehind x v = false) (by decide +kernel)
    exact ⟨_, _, _, x, v, l, ad, 1, h, rfl, h1⟩
  · obtain ⟨x, v, l, ad, h, h1⟩ := wit (i := .mov (mqE (.mq 1)) .b32) (c := mqE (.mq 1)) (s := tsaved) (fun x _ => x.act ≠ 0 ∧
      (mapGet 0 x.g.ports 1).getLsbD 31 = true ∧ sendTarget tsaved x.g.part x.node ((mapGet 0 x.g.ports 1).toNat % 512) = .wait) (by decide +kernel)
    exact ⟨_, _, _, x, v, l, ad, 1, h, rfl, h1⟩
  · obtain ⟨x, v, l, ad, h, h1⟩ := wit (i := .mov (mqE (.mq 1)) .b32) (c := mqE (.mq 1)) (s := tsend 0) (fun x _ => x.act ≠ 0 ∧
      (mapGet 0 x.g.ports 1).getLsbD 31 = false) (by decide +kernel)
    exact ⟨_, _, _, x, v, l, ad, 1, h, rfl, h1⟩
  · obtain ⟨x, v, l, ad, h, h1⟩ := wit (i := .mov (mqE (.mq 1)) .b32) (c := mqE (.mq 1)) (s := tsend 0x80000005) (fun x _ => x.act ≠ 0 ∧
      sendTarget (tsend 0x80000005) x.g.part x.node ((mapGet 0 x.g.ports 1).toNat % 512) = .nowhere) (by decide +kernel)
    exact ⟨_, _, _, x, v, l, ad, 1, h, rfl, h1⟩
/-- A packet of one word in the mesh, standing in a port. -/
def pktT (dst : Nat) : Packet :=
  { id := 1, part := 0, node := bootNode, src := 0, dst := dst, dq := 0, port := 0, seq := 0, slot := 0, words := [1], route := 0, tile := 0, row := 0, stop := 0 }
/-- A state with packets in the mesh. -/
def tmesh (l : List Packet) (f : Core → Core) : State := { tb id f id with packets := l }
theorem witness_MessagesAccepted : (∃ s id p, packetOf s id = some p ∧ p.nak = false ∧ p.cls = .message ∧ nextHop s.failed p = .here ∧ savedFrom s p.part p.node p.dst = false ∧
      coreHolds (getCore s p.dst) p.part p.node = true ∧ queueFlits (mapGet {} (getCore s p.dst).mq p.dq) + flitsOf p.words.length = 16) ∧
    (∃ s id p, packetOf s id = some p ∧ p.nak = false ∧ p.cls = .message ∧ nextHop s.failed p = .here ∧ savedFrom s p.part p.node p.dst = false ∧
      coreHolds (getCore s p.dst) p.part p.node = true ∧ 16 < queueFlits (mapGet {} (getCore s p.dst).mq p.dq) + flitsOf p.words.length) ∧
    (∃ s id p, packetOf s id = some p ∧ p.nak = false ∧ p.cls = .message ∧ nextHop s.failed p = .here ∧ savedFrom s p.part p.node p.dst = false ∧
      coreHolds (getCore s p.dst) p.part p.node = false) :=
  ⟨⟨tmesh [pktT 0] fun k => { k with mq := [(0, { msgs := List.replicate 7 ⟨0, 0, 0, 0, [1]⟩ })] }, 1, pktT 0, by decide +kernel⟩,
   ⟨tmesh [pktT 0] fun k => { k with mq := [(0, { msgs := List.replicate 8 ⟨0, 0, 0, 0, [1]⟩ })] }, 1, pktT 0, by decide +kernel⟩,
   ⟨tmesh [{ pktT 0 with node := 128 }] id, 1, { pktT 0 with node := 128 }, by decide +kernel⟩⟩
/-- A packet that fills the port its neighbour goes to. -/
def pktFull : Packet := { pktT 12 with id := 2, stop := 1, entry := 1, rsv := 2, shr := 24 }
/-- A request for a line on its way, that group's. -/
def pktRd : Packet := { pktT 0 with words := [], cls := .request, cargo := .read 0 7 0x20000002 }
theorem witness_PacketsHop :
    (∃ s id p, packetOf s id = some p ∧ p.esc = false ∧ p.nak = false ∧ nextHop s.failed p ≠ .here ∧ isHead s.packets p = true ∧
      (takeSlots s.packets (hopped p (nextHop s.failed p))).isSome = true) ∧
    (∃ s id p, packetOf s id = some p ∧ p.esc = false ∧ p.nak = false ∧ nextHop s.failed p ≠ .here ∧ isHead s.packets p = true ∧
      takeSlots s.packets (hopped p (nextHop s.failed p)) = none ∧ 63 ≤ p.blocked ∧ p.entry < outside) ∧
    (∃ s id p, packetOf s id = some p ∧ p.esc = false ∧ p.nak = false ∧ 64 ≤ p.blocked ∧ p.entry < outside) ∧
    (∃ s id p, packetOf s id = some p ∧ p.esc = true ∧ p.nak = false ∧ nextHop s.failed p ≠ .here ∧ (escStep s.failed s.packets p).isSome = true) ∧
    (∃ s id p, packetOf s id = some p ∧ p.esc = false ∧ p.nak = false ∧ nextHop s.failed p = .here) ∧
    (∃ s id p, packetOf s id = some p ∧ p.esc = true ∧ p.nak = false ∧ nextHop s.failed p = .here ∧ p.cls = .message) ∧
    (∃ s id p, packetOf s id = some p ∧ p.esc = true ∧ p.nak = false ∧ nextHop s.failed p = .here ∧ p.cls ≠ .message ∧ p.trail = []) ∧
    (∃ s id p q k r, packetOf s id = some p ∧ p.esc = true ∧ p.nak = false ∧ nextHop s.failed p = .here ∧ p.cls ≠ .message ∧ p.trail = (q, k) :: r) ∧
    (∃ s p, budgetWaits s p = false ∧ readHeld s p = true) ∧
    (∃ s p slot req line, p.cargo = .read slot req line ∧ budgetWaits s p = false ∧ readHeld s p = false) :=
  ⟨⟨tmesh [pktT 12] id, 1, pktT 12, by decide +kernel⟩,
   ⟨tmesh [{ pktT 12 with blocked := 63 }, pktFull] id, 1, { pktT 12 with blocked := 63 }, by decide +kernel⟩,
   ⟨tmesh [{ pktT 12 with blocked := 64 }] id, 1, { pktT 12 with blocked := 64 }, by decide +kernel⟩,
   ⟨tmesh [{ pktT 12 with esc := true }] id, 1, { pktT 12 with esc := true }, by decide +kernel⟩,
   ⟨tmesh [pktT 0] id, 1, pktT 0, by decide +kernel⟩, ⟨tmesh [{ pktT 0 with esc := true }] id, 1, { pktT 0 with esc := true }, by decide +kernel⟩,
   ⟨tmesh [{ pktRd with esc := true }] id, 1, { pktRd with esc := true }, by decide +kernel⟩,
   ⟨tmesh [{ pktRd with esc := true, trail := [(headPort pktRd, 2)] }] id, 1, { pktRd with esc := true, trail := [(headPort pktRd, 2)] }, headPort pktRd, 2, [], by decide +kernel⟩,
   ⟨modCluster { tg (fun g => { g with pend := [pendT (.load .l1) [accT]] }) with packets := [pktRd] } 0 fun k => { k with wq := [ent (.rmw .add .n32 [(0, 0x1000000100, 5, 0)] false) none] }, pktRd, by decide +kernel⟩,
   ⟨tmesh [pktRd] id, pktRd, 0, 7, 0x20000002, rfl, by decide +kernel⟩⟩
def ctx0 : Ctx := (ctxOf t0 (encT .zero .zero .zero 0)).get (by decide +kernel)
/-- A load asked for again whose packet has been purged again. -/
def tlost : State := { tg (fun g => { g with pend := [pendT (.load .l1) [accT]], front := [{ prio := 0, ix := 0, mask := allLanes, rgn := 0, resend := some 0 }] }) with
  packets := [{ pktRd with nak := true }] }
theorem witness_LinksFail :
    (∃ s : State, ∃ l o p, (s.failed.any fun o => sameLink l o) = false ∧ p ∈ s.packets ∧ hopLink p (nextHop s.failed p) = some o ∧ sameLink l o = true ∧ p.nak = false) ∧
    (∃ s id p, packetOf s id = some p ∧ p.nak = true ∧ p.resent = false ∧ p.cargo = .words) ∧
    (∃ s id p sl q ln g n pd, packetOf s id = some p ∧ p.nak = true ∧ p.cargo = .read sl q ln ∧ lostWaits s p.src sl q = false ∧ getGroup s p.src sl = some g ∧
      findNode s g.part g.node = some n ∧ pendOf g q = some pd ∧ Disjoint' g.front ∧ (∀ e ∈ g.front, e.mask &&& pd.mask ≠ 0 → e.resend ≠ some pd.tag.ix) ∧
      ∃ e, entryOf g.front 63 = some e ∧ e.mask &&& pd.mask ≠ 0) ∧
    (∃ s id p sl q ln, packetOf s id = some p ∧ p.nak = true ∧ p.cargo = .read sl q ln ∧ lostWaits s p.src sl q = true) ∧
    (∃ s id p sl q ln g n pd e, packetOf s id = some p ∧ p.nak = true ∧ p.cargo = .read sl q ln ∧ lostWaits s p.src sl q = false ∧ getGroup s p.src sl = some g ∧
      findNode s g.part g.node = some n ∧ pendOf g q = some pd ∧ e ∈ g.front ∧ e.mask &&& pd.mask ≠ 0 ∧ e.resend = some pd.tag.ix) ∧
    (∃ x : Ctx, x.e.resend = some x.e.ix) ∧
    (∃ s id p g, packetOf s id = some p ∧ p.nak = true ∧ p.resent = true ∧ p.cls = .message ∧ p.cargo = .words ∧ getGroup s p.src p.slot = some g ∧
      g.part = p.part ∧ g.node = p.node ∧ g.blk = p.blk) :=
  ⟨⟨tmesh [pktT 12] id, .ring 0 0 0, .ring 0 0 0, pktT 12, by decide +kernel⟩,
   ⟨tmesh [{ pktT 12 with nak := true }] id, 1, { pktT 12 with nak := true }, by decide +kernel⟩,
   ⟨{ tg (fun g => { g with pend := [pendT (.load .l1) [accT]] }) with packets := [{ pktRd with nak := true }] }, 1, { pktRd with nak := true }, 0, 7, 0x20000002, _, _,
    pendT (.load .l1) [accT], rfl, rfl, rfl, by decide +kernel, rfl, rfl, by decide +kernel, List.pairwise_singleton _ _, by decide +kernel, _, rfl, by decide +kernel⟩,
   ⟨{ modGroup (tpair (.store false [(0x1000000100, 1)]) (.store false [(0x1000000100, 1)])) 0 0 fun g => { g with pend := [pendT (.load .l1) [accT]] } with
      packets := [{ pktRd with nak := true }] }, 1, { pktRd with nak := true }, 0, 7, 0x20000002, by decide +kernel⟩,
   ⟨tlost, 1, { pktRd with nak := true }, 0, 7, 0x20000002, _, _,
    pendT (.load .l1) [accT], _, rfl, rfl, rfl, by decide +kernel, rfl, rfl, by decide +kernel, List.mem_cons_self, by decide +kernel, rfl⟩,
   ⟨{ ctx0 with e := { ctx0.e with resend := some ctx0.e.ix } }, rfl⟩,
   ⟨tmesh [{ pktT 12 with nak := true, resent := true }] id, 1, { pktT 12 with nak := true, resent := true }, bootGroup, by decide +kernel⟩⟩
/-- Labels on their way to core 0. -/
def labT (cells : Option (Nat × List (Nat × Word))) : LabelMsg := { node := bootNode, tile := 0, dir := .east, label := 3, cells := cells }
theorem witness_ArrivalsAtTheCore :
    (∃ s core m l n, (getCore s core).inbound = m :: l ∧ findNode s (getCore s core).part m.node = some n ∧ m.cells = none) ∧
    (∃ m : LabelMsg, ∃ f : Mirror, ∃ j cells i w, m.cells = some (j, cells) ∧ assoc cells i = some w ∧ i < 64 ∧
      (∀ o, (if m.label % 2 = 0 then f.bank0 else f.bank1).label = some o → o < Int.ofNat m.label)) ∧
    (∃ s core slot lane g e q, getGroup s core slot = some g ∧ entryOf g.front lane = some e ∧ e.st = .blocked ∧ e.wait = some (.recv q) ∧
      (deliverable s core q).isSome = true ∧ Disjoint' g.front) :=
  ⟨⟨tb id (fun k => { k with inbound := [labT none] }) id, 0, labT none, [], _, by decide +kernel, rfl, rfl⟩,
   ⟨labT (some (0, [(63, 5)])), { node := bootNode, tile := 0, dir := .east, bank1 := { label := some 2 } }, 0, [(63, 5)], 63, 5, rfl, by decide, by decide,
    fun o ho => by cases ho; decide⟩,
   ⟨tb id (fun k => { k with mq := [(2, { msgs := [⟨0, 0, 0, 0, [1]⟩] })] })
      fun g => { g with front := [{ prio := 0, ix := 0, mask := allLanes, rgn := 0, st := .blocked, wait := some (.recv 2) }] },
    0, 0, 63, _, _, 2, rfl, rfl, rfl, rfl, by decide +kernel, List.pairwise_singleton _ _⟩⟩

/-! ## The matrix engine -/

/-- s2:s3 holds 0x1000000000 + the number, s4 the pitch. -/
def tmx (lo pitch : Word) : State := ts [(2, lo), (3, 0x10), (4, pitch)]
def mxE (x : Opnd) (imm : Word) : Enc := encT x (.s 2) .zero imm
theorem witness_MatrixPosts : ∃ i c f s s1 x v left added, matrixPosts i = some (c, f) ∧ Ready i c s x v left added ∧ matrixOk i s x v ∧
    x.g.shadow ≠ .shadow ∧ tableRoom s x.core = true ∧ matchShadow s x (f x v).1 = .equal s1 := by
  obtain ⟨x, v, l, ad, h, h0, h1, h2⟩ := wit (i := .mldw (mxE (.v 1) 0) .bf16) (c := mxE (.v 1) 0) (s := tmx 0 0) (fun x v => x.g.shadow = .none ∧
    badArea (lane64 v.y 0) = false ∧ tableRoom (tmx 0 0) x.core = true) (by decide +kernel)
  exact ⟨_, _, _, _, _, x, v, l, ad, rfl, h, ⟨h1, fun he => nomatch he⟩, by rw [h0]; decide, h2, equal_of h0⟩
theorem witness_MatrixPosts_pass : ∃ c wf af s x v left added, Ready (.mpass c wf af) c s x v left added ∧ matrixOk (.mpass c wf af) s x v ∧
    x.g.shadow ≠ .shadow ∧ tableRoom s x.core = true := by
  obtain ⟨x, v, l, ad, h, h0, h1, h2, h3, h4⟩ := wit (i := .mpass (mxE (.v 1) 0x0004_5F00) .f8e4 .f8e5) (c := mxE (.v 1) 0x0004_5F00)
    (s := modCore (tmx 0 0) 0 fun k => { k with declared := some .f8e4 }) (fun x v =>
      passIllegal (modCore (tmx 0 0) 0 fun k => { k with declared := some .f8e4 }) x .f8e4 .f8e5 0x0004_5F00 = false ∧
      badArea (lane64 v.y 0) = false ∧ tileBusy (modCore (tmx 0 0) 0 fun k => { k with declared := some .f8e4 }) x.core 95 1 = false ∧
      x.g.shadow ≠ .shadow ∧ tableRoom (modCore (tmx 0 0) 0 fun k => { k with declared := some .f8e4 }) x.core = true) (by decide +kernel)
  exact ⟨_, _, _, _, x, v, l, ad, h, ⟨h0, h1, h2⟩, h3, h4⟩
theorem witness_MatrixFaults :
    (∃ c wf s x v left added, Ready (.mldw c wf) c s x v left added ∧ badArea (lane64 v.y 0) = true) ∧
    (∃ c wf af s x v left added, Ready (.mpass c wf af) c s x v left added ∧ passIllegal s x wf af c.imm = true) ∧
    (∃ c wf af s x v left added, Ready (.mpass c wf af) c s x v left added ∧ passIllegal s x wf af c.imm = false ∧
      badArea (lane64 v.y 0) = true) ∧
    (∃ c s x v left added, Ready (.zclr c) c s x v left added ∧ 96 < tileNum c.x + (c.imm.toNat % 128 + 1)) :=
  ⟨⟨mxE (.v 1) 0, .bf16, tmx 64 0, wit (fun _ v => badArea (lane64 v.y 0) = true) (by decide +kernel)⟩,
   ⟨mxE (.v 1) 0x0004_5F00, .f8e4, .f8e5, tmx 0 0, wit (fun x _ => passIllegal (tmx 0 0) x .f8e4 .f8e5 0x0004_5F00 = true) (by decide +kernel)⟩,
   ⟨mxE (.v 1) 0x0004_5F00, .f8e4, .f8e5, modCore (tmx 64 0) 0 fun k => { k with declared := some .f8e4 }, wit (fun x v =>
      passIllegal (modCore (tmx 64 0) 0 fun k => { k with declared := some .f8e4 }) x .f8e4 .f8e5 0x0004_5F00 = false ∧
      badArea (lane64 v.y 0) = true) (by decide +kernel)⟩,
   ⟨encT (.v 95) .zero .zero 1, t0, wit (fun _ _ => 96 < tileNum (.v 95) + (1 % 128 + 1)) (by decide +kernel)⟩⟩
theorem witness_TilesAreCleared : ∃ c s x v left added, Ready (.zclr c) c s x v left added ∧ tileNum c.x + (c.imm.toNat % 128 + 1) = 96 ∧
    x.g.shadow ≠ .shadow ∧ tileBusy s x.core (tileNum c.x) (c.imm.toNat % 128 + 1) = false :=
  ⟨encT (.v 95) .zero .zero 0, t0, wit (fun x _ => tileNum (.v 95) + (0 % 128 + 1) = 96 ∧ x.g.shadow ≠ .shadow ∧ tileBusy t0 x.core 95 1 = false)
    (by decide +kernel)⟩
theorem witness_TileRowsAndStatus :
    (∃ c s x v left added, Ready (.zmov c) c s x v left added ∧ tileBusy s x.core (tileNum c.y) 1 = false) ∧
    (∃ c s x v left added, Ready (.mstat c) c s x v left added ∧ c.imm.toNat % 4 ≠ 3) ∧
    (∃ c s x v left added, Ready (.mstat c) c s x v left added ∧ c.imm.toNat % 4 = 3) :=
  ⟨⟨encT (.v 2) (.v 95) .zero 15, t0, wit (fun x _ => tileBusy t0 x.core 95 1 = false) (by decide +kernel)⟩,
   ⟨imE (.v 1) 2, t0, wit (fun _ _ => (imE (.v 1) 2).imm.toNat % 4 ≠ 3) (by decide +kernel)⟩,
   ⟨imE (.v 1) 3, t0, wit (fun _ _ => (imE (.v 1) 3).imm.toNat % 4 = 3) (by decide +kernel)⟩⟩
theorem witness_TicketsAreAwaited :
    (∃ c s x v left added, Ready (.mwait c) c s x v left added ∧ ticketDone (loWord (lane64 v.y 0)) x.g.cmp x.g.tck = true) ∧
    (∃ c s x v left added, Ready (.mwait c) c s x v left added ∧ x.act ≠ 0 ∧ ticketDone (loWord (lane64 v.y 0)) x.g.cmp x.g.tck = false) :=
  ⟨⟨encT .zero .imm .zero 5, tg fun g => { g with tck := 6, cmp := 5 }, wit (fun x v => ticketDone (loWord (lane64 v.y 0)) x.g.cmp x.g.tck = true)
      (by decide +kernel)⟩,
   ⟨encT .zero .zero .zero 0, tg fun g => { g with tck := 6, cmp := 5 }, wit (fun x v => x.act ≠ 0 ∧
      ticketDone (loWord (lane64 v.y 0)) x.g.cmp x.g.tck = false) (by decide +kernel)⟩⟩
/-- Tile 1, its base in s2 or s2:s3, its pitch in s4. -/
def zE : Enc := encT (.v 1) (.s 2) (.s 4) 0
theorem witness_TilesAreStored :
    (∃ c tr loc rm ns ty s x v left added, Ready (.zst c tr loc rm ns ty) c s x v left added ∧
      pitchBad tr (accWidth ty) (c.imm.toNat % 16 + 1) (loWord (lane64 v.z 0)).toNat = true) ∧
    (∃ c tr rm ns ty s x v left added, Ready (.zst c tr true rm ns ty) c s x v left added ∧ x.g.shadow ≠ .shadow ∧
      pitchBad tr (accWidth ty) (c.imm.toNat % 16 + 1) (loWord (lane64 v.z 0)).toNat = false ∧
      (let l := tileLocal tr (accWidth ty) (loWord (lane64 v.z 0)).toNat (c.imm.toNat % 16 + 1) (lane64 v.y 0)
       firstBad (getCore s x.core) (accWidth ty) l = none ∧ touch s x.core (tagOf x) (l.map fun p => (p.2, accWidth ty)) = none ∧
       tileBusy s x.core (tileNum c.x) 1 = false)) ∧
    (∃ c tr rm ns ty s x v left added accs s1, Ready (.zst c tr false rm ns ty) c s x v left added ∧ x.g.shadow ≠ .shadow ∧
      pitchBad tr (accWidth ty) (c.imm.toNat % 16 + 1) (loWord (lane64 v.z 0)).toNat = false ∧
      transLanes s x.core x.slot x.g.part x.e.mask (accWidth ty) .write
        (tileGlobal tr (accWidth ty) (loWord (lane64 v.z 0)).toNat (c.imm.toNat % 16 + 1) (lane64 v.y 0)) = .ok accs s1 ∧
      tileBusy s1 x.core (tileNum c.x) 1 = false ∧ bufRoom s1 x (linesOf accs).length = true) := by
  refine ⟨⟨zE, false, true, .rne, false, .f32, tmx 0 508, wit (fun _ v => pitchBad false 4 1 (loWord (lane64 v.z 0)).toNat = true) (by decide +kernel)⟩,
    ⟨zE, false, .rne, false, .f32, tmx 0 512, wit (fun x v => x.g.shadow ≠ .shadow ∧ pitchBad false 4 1 (loWord (lane64 v.z 0)).toNat = false ∧
      (let l := tileLocal false 4 (loWord (lane64 v.z 0)).toNat 1 (lane64 v.y 0)
       firstBad (getCore (tmx 0 512) x.core) 4 l = none ∧ touch (tmx 0 512) x.core (tagOf x) (l.map fun p => (p.2, 4)) = none ∧
       tileBusy (tmx 0 512) x.core 1 1 = false)) (by decide +kernel)⟩, ?_⟩
  obtain ⟨x, v, l, ad, h, h1⟩ := ready_of (i := .zst zE false false .rne false .f32) (c := zE) (s := tmx 0 512) (P := fun x v =>
    decide (x.g.shadow ≠ .shadow ∧ pitchBad false 4 1 (loWord (lane64 v.z 0)).toNat = false) &&
    okTr (transLanes (tmx 0 512) x.core x.slot x.g.part x.e.mask 4 .write (tileGlobal false 4 (loWord (lane64 v.z 0)).toNat 1 (lane64 v.y 0)))
      fun accs s1 => !tileBusy s1 x.core 1 1 && bufRoom s1 x (linesOf accs).length) (by decide +kernel)
  simp only [Bool.and_eq_true, decide_eq_true_eq] at h1
  obtain ⟨accs, s1, h2, h3⟩ := of_okTr h1.2
  simp only [Bool.and_eq_true, Bool.not_eq_true'] at h3
  exact ⟨_, _, _, _, _, _, x, v, l, ad, accs, s1, h, h1.1.1, h1.1.2, h2, h3.1, h3.2⟩
theorem witness_TilesAreLoaded :
    (∃ c tr loc ty s x v left added, Ready (.zld c tr loc ty) c s x v left added ∧
      pitchBad tr (accWidth ty) (c.imm.toNat % 16 + 1) (loWord (lane64 v.z 0)).toNat = true) ∧
    (∃ c tr loc ty s x v left added, Ready (.zld c tr loc ty) c s x v left added ∧ x.g.shadow = .shadow ∧
      pitchBad tr (accWidth ty) (c.imm.toNat % 16 + 1) (loWord (lane64 v.z 0)).toNat = false) ∧
    (∃ c tr ty s x v left added, Ready (.zld c tr true ty) c s x v left added ∧ x.g.shadow ≠ .shadow ∧
      pitchBad tr (accWidth ty) (c.imm.toNat % 16 + 1) (loWord (lane64 v.z 0)).toNat = false ∧
      (let l := tileLocal tr (accWidth ty) (loWord (lane64 v.z 0)).toNat (c.imm.toNat % 16 + 1) (lane64 v.y 0)
       firstBad (getCore s x.core) (accWidth ty) l = none ∧ touch s x.core (tagOf x) (l.map fun p => (p.2, accWidth ty)) = none ∧
       tileBusy s x.core (tileNum c.x) 1 = false ∧ ∀ p ∈ l, lpoisoned (getCore s x.core) p.2 (accWidth ty) = false)) ∧
    (∃ c tr ty s x v left added accs s1, Ready (.zld c tr false ty) c s x v left added ∧ x.g.shadow ≠ .shadow ∧
      pitchBad tr (accWidth ty) (c.imm.toNat % 16 + 1) (loWord (lane64 v.z 0)).toNat = false ∧
      transLanes s x.core x.slot x.g.part x.e.mask (accWidth ty) .read
        (tileGlobal tr (accWidth ty) (loWord (lane64 v.z 0)).toNat (c.imm.toNat % 16 + 1) (lane64 v.y 0)) = .ok accs s1 ∧
      tileBusy s1 x.core (tileNum c.x) 1 = false ∧ (∀ a ∈ accs, ∀ b ∈ tileFound s1 x (accWidth ty) a, b = .none)) := by
  refine ⟨⟨zE, false, true, .f16, tmx 0 255, wit (fun _ v => pitchBad false 2 1 (loWord (lane64 v.z 0)).toNat = true) (by decide +kernel)⟩,
    ⟨zE, false, true, .f16, modGroup (tmx 0 256) 0 0 fun g => { g with shadow := .shadow }, wit (fun x v => x.g.shadow = .shadow ∧
      pitchBad false 2 1 (loWord (lane64 v.z 0)).toNat = false) (by decide +kernel)⟩,
    ⟨zE, true, .f16, tmx 0 2, wit (fun x v => x.g.shadow ≠ .shadow ∧ pitchBad true 2 1 (loWord (lane64 v.z 0)).toNat = false ∧
      (let l := tileLocal true 2 (loWord (lane64 v.z 0)).toNat 1 (lane64 v.y 0)
       firstBad (getCore (tmx 0 2) x.core) 2 l = none ∧ touch (tmx 0 2) x.core (tagOf x) (l.map fun p => (p.2, 2)) = none ∧
       tileBusy (tmx 0 2) x.core 1 1 = false ∧ ∀ p ∈ l, lpoisoned (getCore (tmx 0 2) x.core) p.2 2 = false)) (by decide +kernel)⟩, ?_⟩
  obtain ⟨x, v, l, ad, h, h1⟩ := ready_of (i := .zld zE false false .f32) (c := zE) (s := tmx 0 512) (P := fun x v =>
    decide (x.g.shadow ≠ .shadow ∧ pitchBad false 4 1 (loWord (lane64 v.z 0)).toNat = false) &&
    okTr (transLanes (tmx 0 512) x.core x.slot x.g.part x.e.mask 4 .read (tileGlobal false 4 (loWord (lane64 v.z 0)).toNat 1 (lane64 v.y 0)))
      fun accs s1 => !tileBusy s1 x.core 1 1 && accs.all fun a => (tileFound s1 x 4 a).all fun b => b == .none) (by decide +kernel)
  simp only [Bool.and_eq_true, decide_eq_true_eq] at h1
  obtain ⟨accs, s1, h2, h3⟩ := of_okTr h1.2
  simp only [Bool.and_eq_true, Bool.not_eq_true', List.all_eq_true, beq_iff_eq] at h3
  exact ⟨_, _, _, _, x, v, l, ad, accs, s1, h, h1.1.1, h1.1.2, h2, h3.1, h3.2⟩
/-- A request of core 0's group; its address; where it stands. -/
def reqT (pass : Bool) (elem : DWord) (st : MState) : MReq :=
  { part := 0, core := 0, slot := 0, node := bootNode, blk := 0, tag := {}, ticket := 1, prio := 0, pass := pass, st := st, elem := elem, wf := .f8e4,
    af := .f8e4, zk := 95, m := 1, pitch := 512 }
/-- A table of requests in cluster 0. -/
def ttab (l : List MReq) : State :=
  modDie (modCluster t0 0 fun k => { k with table := l }) 0 fun d => { d with stlb := [{ part := 0, base := 0x1000000000, size := 2 ^ 30, pte := 0x100000001F }] }
theorem witness_RequestsAreGranted :
    (∃ s cl i r, engineHeld s cl = false ∧ ((getCluster s cl).table.any fun r => r.st == .fetching || r.st == .leave) = false ∧
      arbPick (getCluster s cl).table = some (i, r) ∧
      (r.pass && (mapGet {} (getCluster s cl).planes r.core).fmt.isNone && !loadBefore (getCluster s cl).table i r.core) = false) ∧
    (∃ s cl i r, engineHeld s cl = false ∧ ((getCluster s cl).table.any fun r => r.st == .fetching || r.st == .leave) = false ∧
      arbPick (getCluster s cl).table = some (i, r) ∧
      (r.pass && (mapGet {} (getCluster s cl).planes r.core).fmt.isNone && !loadBefore (getCluster s cl).table i r.core) = true ∧ anyBefore (getCluster s cl).table i r.core = false) ∧
    (∃ s cl i r, engineHeld s cl = false ∧ ((getCluster s cl).table.any fun r => r.st == .fetching || r.st == .leave) = false ∧
      arbPick (getCluster s cl).table = some (i, r) ∧
      (r.pass && (mapGet {} (getCluster s cl).planes r.core).fmt.isNone && !loadBefore (getCluster s cl).table i r.core) = true ∧
      anyBefore (getCluster s cl).table i r.core = true) :=
  ⟨⟨ttab [reqT false 0 .queued], 0, 0, reqT false 0 .queued, by decide +kernel⟩, ⟨ttab [reqT true 0 .queued], 0, 0, reqT true 0 .queued, by decide +kernel⟩,
   ⟨ttab [reqT true 0 .streaming, reqT true 0 .queued], 0, 1, reqT true 0 .queued, by decide +kernel⟩⟩
/-- Whether a line of an operand can be fetched: its page is mapped and its address is the partition's. -/
def lineThere (s : State) (core part : Nat) (va : DWord) : Bool :=
  match fetchTrans s core part va with
  | .ok pa _ => (refusalOf (getPart s part).lay pa).isNone
  | _ => false
theorem operandLine_there {s : State} {core part : Nat} {va : DWord} (hw : (getCluster s (clusterOf core)).wq = []) (h : lineThere s core part va = true) :
    ∃ v b, operandLine s core part va = .ok v b := by
  unfold lineThere at h
  unfold operandLine
  split at h
  · rename_i pa pte he
    rw [he]
    rw [Option.isNone_iff_eq_none] at h
    simp [h, lowHeld, wqByte, hw, youngest]
  · cases h
theorem operandLines_there {s : State} {core part : Nat} {vas : List DWord} (hw : (getCluster s (clusterOf core)).wq = [])
    (h : vas.all (lineThere s core part) = true) : ∃ l, operandLines s core part vas = .ok l := by
  have ho : ∀ r ∈ vas.map (operandLine s core part), ∃ v b, r = .ok v b := by
    intro r hr
    obtain ⟨va, hv, rfl⟩ := List.mem_map.mp hr
    exact operandLine_there hw (List.all_eq_true.mp h va hv)
  unfold operandLines
  dsimp only
  split
  · rename_i he
    obtain ⟨v, b, h1⟩ := ho _ (List.mem_of_find?_eq_some he)
    cases h1
  · split
    · rename_i he
      obtain ⟨v, b, h1⟩ := ho _ (List.mem_of_find?_eq_some he)
      cases h1
    · split
      · rename_i he
        obtain ⟨r, hr, h1⟩ := List.any_eq_true.mp he
        obtain ⟨v, b, h2⟩ := ho r hr
        rw [h2] at h1
        cases h1
      · exact ⟨_, rfl⟩
theorem witness_FetchesEnd :
    (∃ s cl i r, fetchingIdx (getCluster s cl).table = some i ∧ ReqAt s cl i r ∧ engineStopped s cl = false ∧ r.ready = false ∧
      r.plane.fmt = none ∧ fetchMisses s r.core r.part (requestVas r) ≠ []) ∧
    (∃ s cl i r l, fetchingIdx (getCluster s cl).table = some i ∧ ReqAt s cl i r ∧ engineStopped s cl = false ∧ r.ready = false ∧
      r.plane.fmt = none ∧ fetchMisses s r.core r.part (requestVas r) = [] ∧ operandLines s r.core r.part (requestVas r) = .ok l ∧
      (issueAll s r.part .demand (requestsOf s r.part .read (requestVas r))).isSome = true ∧ r.pass = true) ∧
    (∃ s cl i r l, fetchingIdx (getCluster s cl).table = some i ∧ ReqAt s cl i r ∧ engineStopped s cl = false ∧ r.ready = false ∧
      r.plane.fmt = none ∧ fetchMisses s r.core r.part (requestVas r) = [] ∧ operandLines s r.core r.part (requestVas r) = .ok l ∧
      (issueAll s r.part .demand (requestsOf s r.part .read (requestVas r))).isSome = true ∧ r.pass = false ∧
      anyBefore (getCluster s cl).table i r.core = false) := by
  obtain ⟨l, hl⟩ := operandLines_there (s := ttab [reqT true 0x1000000000 .fetching]) (core := 0) (part := 0)
    (vas := requestVas (reqT true 0x1000000000 .fetching)) rfl (by decide +kernel)
  obtain ⟨l2, hl2⟩ := operandLines_there (s := ttab [reqT false 0x1000000000 .fetching]) (core := 0) (part := 0)
    (vas := requestVas (reqT false 0x1000000000 .fetching)) rfl (by decide +kernel)
  exact ⟨⟨ttab [reqT true 0x2000000000 .fetching], 0, 0, reqT true 0x2000000000 .fetching, by decide +kernel, rfl, by decide +kernel, rfl, rfl, by decide +kernel⟩,
    ⟨ttab [reqT true 0x1000000000 .fetching], 0, 0, reqT true 0x1000000000 .fetching, l, by decide +kernel, rfl, by decide +kernel, rfl, rfl, by decide +kernel, hl,
      by decide +kernel, rfl⟩,
    ⟨ttab [reqT false 0x1000000000 .fetching], 0, 0, reqT false 0x1000000000 .fetching, l2, by decide +kernel, rfl, by decide +kernel, rfl, rfl, by decide +kernel, hl2,
      by decide +kernel, rfl, by decide +kernel⟩⟩
/-- A fetch from a page that is not mapped, for a group that has gone. -/
def tfetch : State := modCore (ttab [reqT true 0x2000000000 .fetching]) 0 fun k => { k with slots := [] }
theorem witness_FetchesFault : ∃ s cl i r code kind va, fetchingIdx (getCluster s cl).table = some i ∧ ReqAt s cl i r ∧ engineStopped s cl = false ∧
    r.ready = false ∧ r.plane.fmt = none ∧ anyBefore (getCluster s cl).table i r.core = false ∧ fetchBad s r = some (code, kind, va, none) ∧ r.killed = false ∧ getGroup s r.core r.slot = none := by
  have h : (match fetchBad tfetch (reqT true 0x2000000000 .fetching) with
    | some (1, .page, a, none) => a == 0x2000000000
    | _ => false) = true := by decide +kernel
  split at h
  · rename_i a he
    exact ⟨tfetch, 0, 0, reqT true 0x2000000000 .fetching, 1, .page, a, by decide +kernel, rfl, by decide +kernel, rfl, rfl, by decide +kernel, he, rfl, by decide +kernel⟩
  · cases h
/-- The group of a fetch that faults, or another one in its slot, and what its request says of it. -/
def reqF (blk : Nat) : MReq := { reqT true 0x2000000000 .fetching with blk := blk }
theorem witness_FetchesFault_group :
    (∃ s cl i r code kind va g e, fetchingIdx (getCluster s cl).table = some i ∧ ReqAt s cl i r ∧ engineStopped s cl = false ∧ r.ready = false ∧
      r.plane.fmt = none ∧ anyBefore (getCluster s cl).table i r.core = false ∧ fetchBad s r = some (code, kind, va, none) ∧ r.killed = false ∧
      getGroup s r.core r.slot = some g ∧ r.tag.gslot % 64 = r.slot ∧ touchEntry g r.tag = some e ∧ g.node = r.node ∧ g.blk = r.blk ∧ g.grp = r.grp ∧ g.cause = 0) ∧
    (∃ s cl i r code kind va g, fetchingIdx (getCluster s cl).table = some i ∧ ReqAt s cl i r ∧ engineStopped s cl = false ∧ r.ready = false ∧
      r.plane.fmt = none ∧ anyBefore (getCluster s cl).table i r.core = false ∧ fetchBad s r = some (code, kind, va, none) ∧ r.killed = false ∧
      getGroup s r.core r.slot = some g ∧ g.blk ≠ r.blk) := by
  have h (b : Nat) (hb : b ≤ 1) : (match fetchBad (ttab [reqF b]) (reqF b) with
    | some (1, .page, a, none) => a == 0x2000000000
    | _ => false) = true := by interval_cases b <;> decide +kernel
  have h0 := h 0 (by decide)
  have h1 := h 1 (by decide)
  split at h0
  · rename_i a he
    split at h1
    · rename_i b hb
      exact ⟨⟨ttab [reqF 0], 0, 0, reqF 0, 1, .page, a, _, _, by decide +kernel, rfl, by decide +kernel, rfl, rfl, by decide +kernel, he, rfl, rfl, by decide +kernel, rfl, by decide +kernel⟩,
        ⟨ttab [reqF 1], 0, 0, reqF 1, 1, .page, b, _, by decide +kernel, rfl, by decide +kernel, rfl, rfl, by decide +kernel, hb, rfl, rfl, by decide +kernel⟩⟩
    · cases h1
  · cases h0
/-- A die with a leave request of cluster 0. -/
def tleave (cap : Option Nat) (c : Nat) : State := modDie t0 0 fun d => { d with leaveq := [(0, 0)], leaveCap := cap, committed := c }
theorem witness_LeaveIsGranted :
    (∃ s die q, (getDie s die).leaveq.find? (fun q => !leaveStopped s q) = some q ∧ leaveFits (getDie s die) (q.1 == 0) = true) ∧
    (∃ s die q, (getDie s die).leaveq.find? (fun q => !leaveStopped s q) = some q ∧ leaveFits (getDie s die) (q.1 == 0) = false) := by
  refine ⟨⟨tleave none 0, 0, (0, 0), by decide +kernel, by decide +kernel⟩, ⟨tleave (some 3) 4, 0, (0, 0), by decide +kernel, ?_⟩⟩
  have h : (getDie (tleave (some 3) 4) 0).leaveCap = some 3 ∧ (getDie (tleave (some 3) 4) 0).committed = 4 := by decide +kernel
  simp only [leaveFits, h.1, h.2, decide_eq_false_iff_not]
  omega
theorem witness_StreamsEnd : ∃ s cl i r, (getCluster s cl).table.findIdx? (fun r => r.st == .streaming) = some i ∧ ReqAt s cl i r ∧
    engineStopped s cl = false := ⟨ttab [reqT true 0 .streaming], 0, 0, reqT true 0 .streaming, by decide +kernel, rfl, by decide +kernel⟩
theorem witness_PassesComplete : ∃ s cl i r g, FirstReq s cl i r .draining ∧ engineStopped s cl = false ∧ r.killed = false ∧
    (passResult (getCore s r.core) (mapGet {} (getCluster s cl).planes r.core) r).2 = none ∧
    getGroup s r.core r.slot = some g ∧ g.part = r.part ∧ g.node = r.node ∧ g.blk = r.blk ∧ g.grp = r.grp :=
  ⟨ttab [reqT true 0 .draining], 0, 0, reqT true 0 .draining, _, by unfold FirstReq; decide +kernel, by decide +kernel, rfl, by decide +kernel, rfl, rfl, rfl, rfl, rfl⟩
theorem witness_PassAccumulates : ∃ (k : Core) (p : Plane) (r : MReq), r.poisoned = false ∧ p.poison = false ∧ r.residue = false ∧
    ∀ key ∈ passKeys r.zk r.m, mapGet 0 k.apoison key = 0 := ⟨{}, {}, reqT true 0 .draining, rfl, rfl, rfl, by decide +kernel⟩
theorem witness_PlanesAreLoaded : ∃ s cl i r, FirstReq s cl i r .loading ∧ engineStopped s cl = false :=
  ⟨ttab [reqT false 0 .loading], 0, 0, reqT false 0 .loading, by unfold FirstReq; decide +kernel, by decide +kernel⟩
theorem witness_EnginesFreeze : (∃ s cl p, partOfCluster s cl = some p ∧ (getPart s p).squall = true) ∧
    (∃ s cl p, partOfCluster s cl = some p ∧ (getPart s p).squall = false) :=
  ⟨⟨modPart t0 0 fun p => { p with squall := true }, 127, 0, by decide +kernel⟩, ⟨t0, 0, 0, by decide +kernel⟩⟩

/-! ## Engine posts and the clock -/

theorem witness_PostsAreSent : ∃ i c es s x v left added, plainPosts i s x v = some (c, es) ∧ Ready i c s x v left added ∧ x.act ≠ 0 ∧
    plainPostOk i s x v ∧ bufRoom s x es.length = true := by
  obtain ⟨x, v, l, ad, h, h1, h2, h3⟩ := wit (i := .bfence (encT .zero .imm .zero 0xFFFF)) (c := encT .zero .imm .zero 0xFFFF) (s := t0) (fun x v => x.act ≠ 0 ∧
    (0 < (loWord (lane64 v.y 0)).toNat ∧ (loWord (lane64 v.y 0)).toNat < 2 ^ 16) ∧ bufRoom t0 x 1 = true) (by decide +kernel)
  exact ⟨_, _, [_], _, x, v, l, ad, rfl, h, h1, h2, h3⟩
/-- A bound tree with four leaves for i32 sums, its lists anywhere. -/
def ttree : State := modPart (tg fun g => { g with sregs := [(2, 9)], preds := [(0, 1)] }) 0 fun p =>
  { p with idents := [(9, { st := .bound, desc := BitVec.ofNat 512 (0x0B + 2 ^ 32 * 4 + 2 ^ 64 + 2 ^ 128 * 0x1000000000 + 2 ^ 192 * 0x1000000000) })] }
/-- Leaf 0, contributed by lane 0. -/
def redtE : Enc := { encT (.s 5) (.s 2) (.s 6) 0 with gp := 0 }
theorem witness_PostsAreSent_redt : ∃ c rm ty es s x v left added, plainPosts (.redt c rm ty) s x v = some (c, es) ∧ Ready (.redt c rm ty) c s x v left added ∧
    x.act ≠ 0 ∧ plainPostOk (.redt c rm ty) s x v ∧ bufRoom s x es.length = true := by
  obtain ⟨x, v, l, ad, h, h1, h2, h3⟩ := wit (i := .redt redtE .rne .i32) (c := redtE) (s := ttree) (fun x v => x.act ≠ 0 ∧
    (let d := identOf ttree x.g.part (loWord (lane64 v.y 0)).toNat
     let l := (leafLanes x v).map fun p => p.2
     d.st = .bound ∧ d.mcast = false ∧ tyCode .i32 = (treeOf d.desc).ty ∧ rmOfCode (treeOf d.desc).rm = .rne ∧
     (∀ n ∈ l, n < (treeOf d.desc).nleaf) ∧ l.Nodup ∧ reached ttree x .device = true) ∧ bufRoom ttree x (leafLanes x v).length = true) (by decide +kernel)
  exact ⟨_, _, _, _, _, x, v, l, ad, rfl, h, h1, h2, by rw [List.length_map]; exact h3⟩
theorem witness_PostsAreAsked : ∃ i c op va s x v left added, askPosts i v = some (c, op, va) ∧ Ready i c s x v left added ∧ x.act ≠ 0 ∧
    x.g.shadow ≠ .shadow ∧ askPostOk i s x v ∧ bufRoom s x 1 = true := by
  obtain ⟨x, v, l, ad, h, h1, h2, h3, h4⟩ := wit (i := .launch (mxE (.v 1) 63)) (c := mxE (.v 1) 63) (s := tmx 0x40 0) (fun x v => x.act ≠ 0 ∧ x.g.shadow ≠ .shadow ∧
    (badAddr (lane64 v.y 0) = false ∧ reached (tmx 0x40 0) x .device = true) ∧ bufRoom (tmx 0x40 0) x 1 = true) (by decide +kernel)
  exact ⟨_, _, _, _, _, x, v, l, ad, rfl, h, h1, h2, h3, h4⟩
theorem witness_PostsAreAsked_bgid : ∃ c m op va s x v left added, askPosts (.bgid c m) v = some (c, op, va) ∧ Ready (.bgid c m) c s x v left added ∧
    x.act ≠ 0 ∧ x.g.shadow ≠ .shadow ∧ askPostOk (.bgid c m) s x v ∧ bufRoom s x 1 = true := by
  obtain ⟨x, v, l, ad, h, h1, h2, h3, h4⟩ := wit (i := .bgid (encT (.v 1) (.s 2) .imm 255) false) (c := encT (.v 1) (.s 2) .imm 255) (s := tmx 0x40 0)
    (fun x v => x.act ≠ 0 ∧ x.g.shadow ≠ .shadow ∧ ((loWord (lane64 v.z 0)).toNat ≤ 255 ∧ badAddr (lane64 v.y 0) = false) ∧ bufRoom (tmx 0x40 0) x 1 = true)
    (by decide +kernel)
  exact ⟨_, _, _, _, _, x, v, l, ad, rfl, h, h1, h2, h3, h4⟩
/-- A control block at 0x1000000200, its descriptor at 0x1000000240. -/
def tctl : State := memWrite (ts [(2, 0x240), (3, 0x10), (4, 0x200), (5, 0x10)]) 0x1000000200 16 (recordOf [(0, 0x1000000400), (64, 16)])
def ctlE (x : Opnd) : Enc := encT x (.s 2) (.s 4) 0
/-- The hypotheses of a copy, checked. -/
def copyIf (c : Enc) : Bool :=
  readyIf (.bcopy c) c tctl fun x v => decide (x.act ≠ 0 ∧ x.g.shadow ≠ .shadow ∧ badAddr (lane64 v.y (lowLane x.act)) = false ∧ badAddr (lane64 v.z 0) = false) &&
    match readCtl tctl x (lane64 v.z 0) with
    | .ok b g s1 => decide (b.toNat % 32 = 0 ∧ 4 ≤ g ∧ g ≤ 16 ∧ bufRoom s1 x 1 = true)
    | _ => false
theorem copy_of {c : Enc} (h : copyIf c = true) : ∃ s x v left added rbase rlog s1, Ready (.bcopy c) c s x v left added ∧ x.act ≠ 0 ∧ x.g.shadow ≠ .shadow ∧
    badAddr (lane64 v.y (lowLane x.act)) = false ∧ badAddr (lane64 v.z 0) = false ∧ readCtl s x (lane64 v.z 0) = .ok rbase rlog s1 ∧ rbase.toNat % 32 = 0 ∧
    4 ≤ rlog ∧ rlog ≤ 16 ∧ bufRoom s1 x 1 = true := by
  obtain ⟨x, v, l, ad, hr, h1⟩ := ready_of h
  simp only [Bool.and_eq_true, decide_eq_true_eq] at h1
  obtain ⟨⟨h2, h3, h4, h5⟩, h6⟩ := h1
  split at h6
  · rename_i b g s1 he
    obtain ⟨h7, h8, h9, h10⟩ := of_decide_eq_true h6
    exact ⟨tctl, x, v, l, ad, b, g, s1, hr, h2, h3, h4, h5, he, h7, h8, h9, h10⟩
  · cases h6
theorem witness_CopiesArePosted : ∃ c s x v left added rbase rlog s1, Ready (.bcopy c) c s x v left added ∧ x.act ≠ 0 ∧ x.g.shadow ≠ .shadow ∧
    badAddr (lane64 v.y (lowLane x.act)) = false ∧ badAddr (lane64 v.z 0) = false ∧ readCtl s x (lane64 v.z 0) = .ok rbase rlog s1 ∧ rbase.toNat % 32 = 0 ∧
    4 ≤ rlog ∧ rlog ≤ 16 ∧ bufRoom s1 x 1 = true := ⟨ctlE .zero, copy_of (by decide +kernel)⟩
theorem witness_CopiesArePosted_reply : copyIf (ctlE (.v 1)) = true ∧ (ctlE (.v 1)).x ≠ .zero := by decide +kernel
theorem witness_PostsFault :
    (∃ c rm ty s x v left added, Ready (.redt c rm ty) c s x v left added ∧ x.act ≠ 0 ∧ (identOf s x.g.part (loWord (lane64 v.y 0)).toNat).st ≠ .bound) ∧
    (∃ c s x v left added, Ready (.bfence c) c s x v left added ∧ x.act ≠ 0 ∧ (loWord (lane64 v.y 0)).toNat = 0) ∧
    (∃ c s x v left added, Ready (.bfence c) c s x v left added ∧ x.act ≠ 0 ∧ 2 ^ 16 ≤ (loWord (lane64 v.y 0)).toNat) ∧
    (∃ c m s x v left added, Ready (.bgid c m) c s x v left added ∧ x.act ≠ 0 ∧ 255 < (loWord (lane64 v.z 0)).toNat) ∧
    (∃ c s x v left added, Ready (.bgfree c) c s x v left added ∧ x.act ≠ 0 ∧ 255 < (loWord (lane64 v.y 0)).toNat) ∧
    (∃ c s x v left added, Ready (.launch c) c s x v left added ∧ x.act ≠ 0 ∧ badAddr (lane64 v.y 0) = true) :=
  ⟨⟨{ redtE with y := .s 3 }, .rne, .i32, ttree, wit (fun x v => x.act ≠ 0 ∧ (identOf ttree x.g.part (loWord (lane64 v.y 0)).toNat).st ≠ .bound)
      (by decide +kernel)⟩,
   ⟨encT .zero .zero .zero 0, t0, wit (fun x v => x.act ≠ 0 ∧ (loWord (lane64 v.y 0)).toNat = 0) (by decide +kernel)⟩,
   ⟨encT .zero .imm .zero 0x10000, t0, wit (fun x v => x.act ≠ 0 ∧ 2 ^ 16 ≤ (loWord (lane64 v.y 0)).toNat) (by decide +kernel)⟩,
   ⟨encT (.v 1) (.s 2) .imm 256, false, tmx 0x40 0, wit (fun x v => x.act ≠ 0 ∧ 255 < (loWord (lane64 v.z 0)).toNat) (by decide +kernel)⟩,
   ⟨encT .zero .imm .zero 256, t0, wit (fun x v => x.act ≠ 0 ∧ 255 < (loWord (lane64 v.y 0)).toNat) (by decide +kernel)⟩,
   ⟨mxE (.v 1) 0, tmx 32 0, wit (fun x v => x.act ≠ 0 ∧ badAddr (lane64 v.y 0) = true) (by decide +kernel)⟩⟩
theorem witness_ClockIsRead : ∃ c s x v left added, Ready (.rdclk c) c s x v left added ∧ x.act ≠ 0 :=
  ⟨encT (.v 2) .zero .zero 0, t0, wit (fun x _ => x.act ≠ 0) (by decide +kernel)⟩
theorem witness_EmptyActDoesNothing : ∃ i c s x v left added, idleEnc i = some c ∧ Ready i c s x v left added ∧ x.act = 0 := by
  obtain ⟨x, v, l, ad, h, h1⟩ := wit (i := .bfence { encT .zero .imm .zero 1 with gn := true }) (c := { encT .zero .imm .zero 1 with gn := true }) (s := t0)
    (fun x _ => x.act = 0) (by decide +kernel)
  exact ⟨_, _, _, x, v, l, ad, rfl, h, h1⟩
/-- A shadow whose queue holds the result of its next RDCLK. -/
def tshadow : State := tg fun g => { g with shadow := .shadow, lvq := [{ ix := 0, act := allLanes, val := rowOf fun _ => 5 }] }
def rdE : Enc := encT (.v 2) .zero .zero 0
theorem witness_ShadowsAreServed : ∃ i c x s v left added e q, encOf i = some c ∧ ctxOf s c = some x ∧ busy x.g x.e (rulesOf i) c = false ∧
    issueCheck i c x = none ∧ (endsNow i c x = true → settled x.g x.e = true) ∧ readAll s x (rulesOf i) c = .ok v left added ∧
    (rulesOf i).taken = true ∧ x.g.shadow = .shadow ∧ x.act ≠ 0 ∧ lvTake (instrIx x.e) x.act left = some (e, q) ∧ e.req = none := by
  have h : (match ctxOf tshadow rdE with
    | none => false
    | some x => decide (busy x.g x.e (rulesOf (.rdclk rdE)) rdE = false ∧ issueCheck (.rdclk rdE) rdE x = none ∧ settled x.g x.e = true ∧
        x.g.shadow = .shadow ∧ x.act ≠ 0) && match readAll tshadow x (rulesOf (.rdclk rdE)) rdE with
      | .ok _ left _ => (match lvTake (instrIx x.e) x.act left with | some (e, _) => e.req.isNone | none => false)
      | _ => false) = true := by decide +kernel
  split at h
  · cases h
  · rename_i x hx
    simp only [Bool.and_eq_true, decide_eq_true_eq] at h
    obtain ⟨⟨h1, h2, h3, h4, h5⟩, h6⟩ := h
    split at h6
    · rename_i v left added hr
      split at h6
      · rename_i e q he
        exact ⟨.rdclk rdE, rdE, x, tshadow, v, left, added, e, q, rfl, hx, h1, h2, fun _ => h3, hr, rfl, h4, h5, he, Option.isNone_iff_eq_none.mp h6⟩
      · cases h6
    · cases h6

/-! ## Time, trees and placement -/

theorem witness_TimeReleasesGroups : (∃ s core slot g, getGroup s core slot = some g ∧ g.stall ≠ 0 ∧ g.sleep ≠ 0) ∧
    (∃ s core slot g, getGroup s core slot = some g ∧ g.passed = 1024 ∧ g.promoted = none) ∧
    (∃ s core slot g, getGroup s core slot = some g ∧ refill g.front ≠ g.front) :=
  ⟨⟨tg fun g => { g with stall := 5, sleep := 9 }, 0, 0, _, rfl, by decide +kernel⟩, ⟨tg fun g => { g with passed := 1024 }, 0, 0, _, rfl, rfl, rfl⟩,
   ⟨tg fun g => { g with front := [{ prio := 0, ix := 0, mask := allLanes, rgn := 0, spilled := true }] }, 0, 0, _, rfl, by decide +kernel⟩⟩
/-- An identifier bound to a tree. -/
def identT (ns : List (Nat × RNode)) : Ident := { st := .bound, infl := 1, nodes := ns, desc := BitVec.ofNat 512 (recordOf [(0, 0x0B), (32, 2), (64, 1),
  (128, 0x1000000400), (192, 0x1000000600), (256, 0x1000000800), (320, 0x1000000A00)]) }
/-- A state with that tree: node 0 lists leaves 0 and 1. -/
def ttree2 (p : Part → Part) (ns : List (Nat × RNode)) : State :=
  modPart (memWrite (memWrite (tpt id (walkT 0 false)) 0x1000000400 16 (recordOf [(0, 0), (32, 2), (64, 0xFFFFFFFF)])) 0x1000000800 8
    (recordOf [(0, 0x80000000), (32, 0x80000001)])) 0 fun q => p { q with idents := [(9, identT ns)] }
/-- Leaf `l`'s contribution of 5. -/
def conT (l : Nat) : Contrib := { ident := 9, leaf := true, idx := l, node := 0, val := 5, inc := false, incn := 0 }
def contribs1 (c : Contrib) (p : Part) : Part := { p with contribs := [c] }
theorem witness_ContributionsArrive :
    (∃ s part c l j, (getPart s part).contribs = c :: l ∧
      (let s1 := modPart s part fun p => { p with contribs := l }
       let d := identOf s1 part c.ident
       let tr := treeOf d.desc
       slotOf s1 part tr c = some j ∧ (rnodeOf d c.node).flushed = false ∧ d.delivered = false ∧ assoc (rnodeOf d c.node).vals j = none ∧
       (rnodeOf d c.node).vals.length + 1 ≠ nodeCount s1 part tr c.node)) ∧
    (∃ s part c l, (getPart s part).contribs = c :: l ∧
      (let s1 := modPart s part fun p => { p with contribs := l }
       slotOf s1 part (treeOf (identOf s1 part c.ident).desc) c = none)) ∧
    (∃ s part c l j i k, (getPart s part).contribs = c :: l ∧
      (let s1 := modPart s part fun p => { p with contribs := l }
       let d := identOf s1 part c.ident
       slotOf s1 part (treeOf d.desc) c = some j ∧ (rnodeOf d c.node).flushed = false ∧ d.delivered = false ∧
       assoc (rnodeOf d c.node).vals j = some (c.val, i, k))) :=
  ⟨⟨ttree2 (contribs1 (conT 1)) [], 0, conT 1, [], 1, by decide +kernel⟩, ⟨ttree2 (contribs1 (conT 2)) [], 0, conT 2, [], by decide +kernel⟩,
   ⟨ttree2 (contribs1 (conT 1)) [(0, { vals := [(1, (5, false, 0))], due := some (0, 0) })], 0, conT 1, [], 1, false, 0, by decide +kernel⟩⟩
theorem witness_NodesTimeOut :
    (∃ s part ident k, (getPart s part).clkStop = none ∧ k ≠ 0 ∧
      (let r := rnodeOf (identOf s part ident) k
       r.flushed = false ∧ r.vals ≠ [] ∧ r.due.isSome = true)) ∧
    (∃ s part, (getPart s part).clkStop.isSome = true) :=
  ⟨⟨ttree2 id [(1, { vals := [(0, (5, false, 0))], due := some (0, 0) })], 0, 9, 1, by decide +kernel⟩,
   ⟨ttree2 (fun p => { p with clkStop := some [] }) [], 0, by decide +kernel⟩⟩
/-- A partition whose pages the host may give on request (R369). -/
def asking (s : State) : State := modPart s 0 fun p => { p with prq := true }
/-- A node with a block to place. -/
def tplace (f : Part → Part) : State := modPart (tb (fun n => { n with placed := [] }) id id) 0 f
theorem witness_BlocksArePlaced :
    (∃ s part die n ns b bs l, (getPart s part).st = .running ∧ (getPart s part).squall = false ∧ (getPart s part).tearing = false ∧
      (getPart s part).images = [] ∧ nodeOrder (getPart s part) = n :: ns ∧ findNode s part n.addr = some n ∧ n.la.dims = 0 ∧ n.la.redun = false ∧
      heldBack s part die n = false ∧ waitingBlocks s part die n = b :: bs ∧ blockPlace s part die n [] b = some l ∧ l.Nodup) ∧
    (∃ s part, (getPart s part).st ≠ .running ∨ (getPart s part).squall = true) :=
  ⟨⟨tplace id, 0, 0, { addr := bootNode, la := bootLaunch, st := 3 }, [], 0, [], [(0, 1)], by decide +kernel⟩,
   ⟨tplace fun p => { p with squall := true }, 0, by decide +kernel⟩⟩
theorem witness_PeriodsEnd : ∃ s die, ∃ u ∈ (getDie s die).linkUse, ∃ n, findNode s u.1.1 u.1.2 = some n ∧ n.la.share ≠ 100 ∧ shareFlits s die n.la.share < u.2 :=
  ⟨modDie (tb (fun n => { n with la := { n.la with share := 10 } }) id id) 0 fun d => { d with linkUse := [((0, bootNode), 51201)] }, 0, _, List.mem_cons_self, _, rfl,
    by decide +kernel, by decide +kernel⟩
/-- A lattice with two tiles in one block row. -/
def laT : Launch := { bootLaunch with levels := [⟨0, 0, 1⟩, ⟨1, 0, 1⟩, ⟨2, 1, 1⟩, ⟨3, 2, 2⟩], dims := 1, xe := 128, ta := 64, ecount := 1, backing := 0x1000001000 }
/-- It runs in slots of core 0, at a STEP. -/
def tlat2 (tiles : List (Nat × TileSt)) (placed : List Placed) (slots : List Nat) (imgs : List (Nat × Group)) (fg : Group → Group) : State :=
  modGroup (modNode (memWrite (tpt id (walkT 0 false)) laT.code.toNat 12 ((encode (.step stepE)).getD 0).toNat) 0 bootNode fun n =>
    { n with la := laT, tiles := tiles, placed := placed, slots := slots, tileImgs := imgs, nextBlk := slots.length }) 0 0 fg
theorem witness_LatticesStart : ∃ s part node n, findNode s part (BitVec.ofNat 64 node) = some n ∧ n.st = 3 ∧ n.la.dims ≠ 0 ∧ n.la.redun = false ∧
    n.placed = [] ∧ n.tiles = [] ∧ n.slots ≠ [] ∧ n.slots.Nodup ∧ tileCount n.la = n.slots.length ∧ latticeStopped s part = false ∧
    (getDie s (homeDie s part n)).powered = true :=
  ⟨tlat2 [] [] [1, 2] [] id, 0, 0x3000000000, _, rfl, rfl, by decide +kernel, by decide +kernel, rfl, rfl, by decide +kernel, by decide +kernel, by decide +kernel,
    by decide +kernel, by decide +kernel⟩
/-- Tile 0 in slot 0. -/
def place0 : Placed := { blk := 0, grp := 0, core := 0, slot := 0 }
/-- The group of tile 0, held at counter 1. -/
def held0 : Group := { bootGroup with step := 1, nbHold := some 3 }
/-- Tile 0 waits for tile 1, which is out. -/
def thold (st : TileSt) (slots : List Nat) (imgs : List (Nat × Group)) : State :=
  tlat2 [(0, st), (1, .out)] [place0] slots imgs fun _ => held0
/-- The node of `thold`, with a swap of it at the head of die 0's queue and a word in the header of tile 1's record. -/
def tswap (st : TileSt) (slots : List Nat) (imgs : List (Nat × Group)) (w : Swap) (f : Nat) : State :=
  memWrite (modDie (tlat2 [(0, st), (1, if w.tile = 1 then .moving else .out)] [place0] slots imgs fun _ => held0) 0 fun d => { d with swapq := [w] })
    ((recordAt laT 1).toNat + 4) 4 f
def swapT (tile op gslot line : Nat) : Swap := { part := 0, node := bootNode, tile := tile, op := op, gslot := gslot, line := line }
/-- The hypotheses of a swap's step that are decided by evaluation. -/
def swapIf (s : State) (w : Swap) (k : AccKind) : Bool :=
  match findNode s 0 bootNode with
  | none => false
  | some n => n.la == laT && latticeStopped s 0 == false && (headSwap s 0 bootNode == some (0, w) && (getDie s 0).powered) &&
      (issueAll s 0 .lattice (requestsOf s 0 k [recordAt n.la w.tile + BitVec.ofNat 64 (128 * w.line)])).isSome && lineFault s 0 n w.tile w.line k == none
theorem swap_of {s : State} {w : Swap} {k : AccKind} (h : swapIf s w k = true) : ∃ n u, findNode s 0 bootNode = some n ∧ n.la = laT ∧ latticeStopped s 0 = false ∧
    (headSwap s 0 bootNode = some (0, w) ∧ (getDie s 0).powered = true) ∧
    issueAll s 0 .lattice (requestsOf s 0 k [recordAt n.la w.tile + BitVec.ofNat 64 (128 * w.line)]) = some u ∧ lineFault s 0 n w.tile w.line k = none := by
  unfold swapIf at h
  split at h
  · cases h
  · rename_i n hn
    simp only [Bool.and_eq_true, beq_iff_eq] at h
    obtain ⟨⟨⟨⟨h1, h2⟩, h3⟩, h4⟩, h5⟩ := h
    obtain ⟨u, hu⟩ := Option.isSome_iff_exists.mp h4
    exact ⟨n, u, hn, h1, h2, h3, hu, h5⟩
theorem witness_TilesComeAndGo :
    (∃ s part node tile n p g c, findNode s part (BitVec.ofNat 64 node) = some n ∧ mapGet .fresh n.tiles tile = .resident ∧ tilePlaced n tile = some p ∧
      getGroup s p.core p.slot = some g ∧ g.nbHold = some c ∧ stillHeld s part n p.core g = true ∧ mayNotLeave s n p.core p.slot g = false ∧
      g.raised = false) ∧
    (∃ s part node n tile p g rest, findNode s part (BitVec.ofNat 64 node) = some n ∧ latticeStopped s part = false ∧
      headSwap s part (BitVec.ofNat 64 node) = none ∧ n.st = 3 ∧ (getPart s part).st ≠ .quiescing ∧
      openSlots s n = [] ∧ leavers s part n = (tile, p, g) :: rest ∧
      ((outTiles n).find? fun u => mayTake n u (gslotOf p.core p.slot)).isSome = true) ∧
    (∃ s part node n tile slot, findNode s part (BitVec.ofNat 64 node) = some n ∧ latticeStopped s part = false ∧
      headSwap s part (BitVec.ofNat 64 node) = none ∧ n.st = 3 ∧ (getPart s part).st ≠ .quiescing ∧ (n.placed ≠ [] ∨ n.tiles ≠ []) ∧
      ((outTiles n).findSome? fun t => ((openSlots s n).find? (mayTake n t)).map fun g => (t, g)) = some (tile, slot)) :=
  ⟨⟨thold .resident [0] [], 0, 0x3000000000, 0, _, place0, held0, 3, rfl, by decide +kernel, by decide +kernel, by decide +kernel, rfl, by decide +kernel,
     by decide +kernel, rfl⟩,
   ⟨thold .eligible [0] [], 0, 0x3000000000, _, 0, place0, held0, [], rfl, by decide +kernel, by decide +kernel, by decide +kernel, by decide +kernel,
     by decide +kernel, by decide +kernel, by decide +kernel⟩,
   ⟨thold .resident [0, 1] [], 0, 0x3000000000, _, 1, 1, rfl, by decide +kernel, by decide +kernel, by decide +kernel, by decide +kernel, .inl (by decide +kernel),
     by decide +kernel⟩⟩
theorem witness_TilesComeAndGo_down : (∃ s n w g u, findNode s 0 bootNode = some n ∧ latticeStopped s 0 = false ∧ (headSwap s 0 bootNode = some (0, w) ∧ (getDie s 0).powered = true) ∧ w.op = 1 ∧
      getGroup s (w.gslot / 64) (w.gslot % 64) = some g ∧ g.shadow = .none ∧
      issueAll s 0 .lattice (requestsOf s 0 .write [recordAt n.la w.tile + BitVec.ofNat 64 (128 * w.line)]) = some u ∧
      lineFault s 0 n w.tile w.line .write = none ∧ w.line + 1 < recordLines n.la) ∧
    (∃ s n w g u, findNode s 0 bootNode = some n ∧ latticeStopped s 0 = false ∧ (headSwap s 0 bootNode = some (0, w) ∧ (getDie s 0).powered = true) ∧ w.op = 1 ∧
      getGroup s (w.gslot / 64) (w.gslot % 64) = some g ∧ g.shadow = .none ∧
      issueAll s 0 .lattice (requestsOf s 0 .write [recordAt n.la w.tile + BitVec.ofNat 64 (128 * w.line)]) = some u ∧
      lineFault s 0 n w.tile w.line .write = none ∧ recordLines n.la ≤ w.line + 1) := by
  obtain ⟨n, u, h1, h2, h3, h4, h5, h6⟩ := swap_of (s := tswap .moving [0] [] (swapT 0 1 0 0) 0) (w := swapT 0 1 0 0) (k := .write) (by decide +kernel)
  obtain ⟨n', u', g1, g2, g3, g4, g5, g6⟩ := swap_of (s := tswap .moving [0] [] (swapT 0 1 0 (recordLines laT - 1)) 0) (w := swapT 0 1 0 (recordLines laT - 1))
    (k := .write) (by decide +kernel)
  exact ⟨⟨_, n, _, held0, u, h1, h3, h4, rfl, by decide +kernel, rfl, h5, h6, by rw [h2]; decide +kernel⟩,
    ⟨_, n', _, held0, u', g1, g3, g4, rfl, by decide +kernel, rfl, g5, g6, by rw [g2]; decide +kernel⟩⟩
/-- The second header word of a tile's record. -/
def headIs (s : State) (tile : Nat) (f : Word) : Bool :=
  match headWord s 0 { addr := bootNode, la := laT } tile 1 with | .val w => w == f | _ => false
theorem witness_TilesComeAndGo_up : (∃ s n w u f, findNode s 0 bootNode = some n ∧ latticeStopped s 0 = false ∧ (headSwap s 0 bootNode = some (0, w) ∧ (getDie s 0).powered = true) ∧ w.op = 2 ∧
      issueAll s 0 .lattice (requestsOf s 0 .read [recordAt n.la w.tile + BitVec.ofNat 64 (128 * w.line)]) = some u ∧
      lineFault s 0 n w.tile w.line .read = none ∧ n.la = laT ∧
      (match recordWord s 0 (recordAt laT w.tile + BitVec.ofNat 64 (128 * w.line)) with | .val _ => true | _ => false) = true ∧
      headIs s w.tile f = true ∧ f.getLsbD 1 = true) ∧
    (∃ s n w u f img, findNode s 0 bootNode = some n ∧ latticeStopped s 0 = false ∧ (headSwap s 0 bootNode = some (0, w) ∧ (getDie s 0).powered = true) ∧ w.op = 2 ∧
      issueAll s 0 .lattice (requestsOf s 0 .read [recordAt n.la w.tile + BitVec.ofNat 64 (128 * w.line)]) = some u ∧
      lineFault s 0 n w.tile w.line .read = none ∧ n.la = laT ∧
      (match recordWord s 0 (recordAt laT w.tile + BitVec.ofNat 64 (128 * w.line)) with | .val _ => true | _ => false) = true ∧
      headIs s w.tile f = true ∧ f.getLsbD 1 = false ∧ assoc n.tileImgs w.tile = some img ∧ assoc n.tileImgs (shadowKey w.tile) = none ∧
      recordLines n.la ≤ w.line + 1) := by
  obtain ⟨n, u, h1, h2, h3, h4, h5, h6⟩ := swap_of (s := tswap .resident [0, 1] [] (swapT 1 2 1 0) 2) (w := swapT 1 2 1 0) (k := .read) (by decide +kernel)
  obtain ⟨n', u', g1, g2, g3, g4, g5, g6⟩ := swap_of (s := tswap .resident [0, 1] [(1, { bootGroup with blk := 1 })] (swapT 1 2 1 (recordLines laT - 1)) 0)
    (w := swapT 1 2 1 (recordLines laT - 1)) (k := .read) (by decide +kernel)
  have e : (findNode (tswap .resident [0, 1] [(1, { bootGroup with blk := 1 })] (swapT 1 2 1 (recordLines laT - 1)) 0) 0 bootNode).map Node.tileImgs =
    some [(1, { bootGroup with blk := 1 })] := by decide +kernel
  rw [g1, Option.map_some, Option.some.injEq] at e
  exact ⟨⟨_, n, _, u, 2, h1, h3, h4, rfl, h5, h6, h2, by decide +kernel, by decide +kernel, by decide⟩,
    ⟨_, n', _, u', 0, { bootGroup with blk := 1 }, g1, g3, g4, rfl, g5, g6, g2, by decide +kernel, by decide +kernel, by decide, by rw [e]; rfl, by rw [e]; decide,
      by rw [g2]; decide +kernel⟩⟩

/-! ## The front end -/

/-- Queue 0 of 16 entries with something in it. -/
def tque (f : Queue → Queue) : State := modPart (tpt id (walkT 0 false)) 0 fun p => { p with queues := [(0, f { qlog := 4, qen := true, qbase := 0x1000000400 })] }
/-- The module stands in the management state. -/
def thidden : State := { t0 with mgmt := { t0.mgmt with boot := .management } }
theorem witness_DoorbellsRing : (∃ s part q, ∃ v : Word, presented s = true ∧ q < 64 ∧ v.toNat + 1 = 2 ^ (queueOf s part q).qlog) ∧
    (∃ s part q, ∃ v : Word, presented s = true ∧ q < 64 ∧ 2 ^ (queueOf s part q).qlog = v.toNat) ∧ (∃ q : Nat, 64 ≤ q) ∧ (∃ s, presented s = false) :=
  ⟨⟨tque id, 0, 0, 15, by decide +kernel⟩, ⟨tque id, 0, 0, 16, by decide +kernel⟩, ⟨64, le_rfl⟩, ⟨thidden, by decide +kernel⟩⟩
theorem witness_QueuesAreEnabled : (∃ s part q, presented s = true ∧ q < 64 ∧ (queueOf s part q).qen = false ∧ (queueOf s part q).qstat = 3) ∧
    (∃ s part q, presented s = true ∧ q = 63 ∧ (queueOf s part q).qen = false ∧ (queueOf s part q).qstat ≠ 3) :=
  ⟨⟨tque fun u => { u with qen := false, qstat := 3 }, 0, 0, by decide +kernel⟩, ⟨tque id, 0, 63, by decide +kernel⟩⟩
theorem witness_RegistersAreWritten : (∃ off, off % 8 ≠ 0) ∧ (∃ s, presented s = true) ∧ (∃ s, presented s = false) ∧ ∃ q : Nat, q < 64 :=
  ⟨⟨0x1004, by decide⟩, ⟨t0, by decide +kernel⟩, ⟨thidden, by decide +kernel⟩, 63, by decide⟩
/-- Whether 64 bytes of a ring are there and none is poisoned, and whether the packet that they make is refused. -/
def ringIf (s : State) (bad : Bool) : Bool :=
  accepting (queueOf s 0 0) && decide ((queueOf s 0 0).posts = [] ∧ (queueOf s 0 0).head ≠ (queueOf s 0 0).tail) &&
  match readDevice s 0 ((queueOf s 0 0).qbase + BitVec.ofNat 64 (64 * (queueOf s 0 0).head.toNat)) 64 with
  | .ok l _ => !(l.any fun b => b.2) && pktBad (BitVec.ofNat 512 (bytesNum (l.map fun b => b.1))) == bad
  | _ => false
theorem ring_of {s : State} {b : Bool} (h : ringIf s b = true) : ∃ part q l bad, accepting (queueOf s part q) = true ∧ (queueOf s part q).posts = [] ∧
    (queueOf s part q).head ≠ (queueOf s part q).tail ∧
    readDevice s part ((queueOf s part q).qbase + BitVec.ofNat 64 (64 * (queueOf s part q).head.toNat)) 64 = .ok l bad ∧
    (l.any fun b => b.2) = false ∧ pktBad (BitVec.ofNat 512 (bytesNum (l.map fun b => b.1))) = b := by
  unfold ringIf at h
  simp only [Bool.and_eq_true, decide_eq_true_eq] at h
  obtain ⟨⟨h1, h2, h3⟩, h4⟩ := h
  split at h4
  · rename_i l bad he
    simp only [Bool.and_eq_true, Bool.not_eq_true', beq_iff_eq] at h4
    exact ⟨0, 0, l, bad, h1, h2, h3, he, h4.1, h4.2⟩
  · cases h4
/-- A queue whose next entry's page is asked for. -/
def ringAsks (s : State) : Bool :=
  let u := queueOf s 0 0
  accepting u && decide (u.posts = [] ∧ u.head ≠ u.tail) && (frontAsks s 0 [u.qbase + BitVec.ofNat 64 (64 * u.head.toNat)]).isSome
theorem witness_PacketsAreAccepted : (∃ s, ringIf s false = true) ∧ (∃ s, ringIf s true = true) ∧ (∃ s, ringAsks s = true) ∧
    (∃ s part q, accepting (queueOf s part q) = true ∧ (queueOf s part q).qstat = 2 ∧ (queueOf s part q).posts ≠ []) ∧
    (∃ s part q d ds, accepting (queueOf s part q) = true ∧ (queueOf s part q).qstat ≠ 2 ∧ (queueOf s part q).posts = d :: ds) ∧
    (∃ s part q, accepting (queueOf s part q) = true ∧ (queueOf s part q).posts = [] ∧ (queueOf s part q).head = (queueOf s part q).tail) :=
  ⟨⟨memWrite (tque fun u => { u with tail := 1 }) 0x1000000400 64 0x01, by decide +kernel⟩,
   ⟨memWrite (tque fun u => { u with tail := 1 }) 0x1000000400 64 0x08, by decide +kernel⟩,
   ⟨asking (tque fun u => { u with tail := 1, qbase := 0x2000000000 }), by decide +kernel⟩,
   ⟨tque fun u => { u with qstat := 2, posts := [⟨0x1000002000, 0, 0, none⟩] }, 0, 0, by decide +kernel⟩,
   ⟨tque fun u => { u with posts := [⟨0x1000002000, 0, 0, none⟩] }, 0, 0, ⟨0x1000002000, 0, 0, none⟩, [], by decide +kernel⟩,
   ⟨tque id, 0, 0, by decide +kernel⟩⟩
theorem witness_NodesComplete :
    (∃ s part node n, findNode s part (BitVec.ofNat 64 node) = some n ∧ n.st = 3 ∧ allGone n = true ∧ n.walksLeft = 0 ∧
      nodeInFlight s part (BitVec.ofNat 64 node) = false ∧ (frontAsks s part (BitVec.ofNat 64 node :: n.succs)).isSome = true) ∧
    (∃ s part node n, findNode s part (BitVec.ofNat 64 node) = some n ∧ n.st = 3 ∧ allGone n = true ∧ n.walksLeft = 0 ∧
      nodeInFlight s part (BitVec.ofNat 64 node) = false ∧ (frontAsks s part (BitVec.ofNat 64 node :: n.succs)).isNone = true) ∧
    (∃ s part node n, findNode s part (BitVec.ofNat 64 node) = some n ∧ n.st = 3 ∧ allGone n = false) :=
  ⟨⟨asking (modNode (tpt id (walkT 0 false)) 0 bootNode fun n => { n with killedBlks := [0] }), 0, 0x3000000000, _, rfl, rfl, by decide +kernel, by decide +kernel,
      by decide +kernel, by decide +kernel⟩,
   ⟨tb (fun n => { n with killedBlks := [0] }) id id, 0, 0x3000000000, _, rfl, rfl, by decide +kernel, by decide +kernel, by decide +kernel, by decide +kernel⟩,
   ⟨t0, 0, 0x3000000000, _, rfl, rfl, by decide +kernel⟩⟩
/-- A launch record of one group that passes the checks of R302: KIND 1, VER 1, code, block table and stop area mapped, levels group, core and block,
REGS 32, REGG 28, LOCG 2, SHARE 100. -/
def lrecT : Nat :=
  0x1000004000000000000000000000000000000000000000000000000000000000000000000000000000000000000000000000000000000000000000000000000000000000000000006400017020000000000000000000000000000000ff000000000000000000000000000000ff000000000000000000000000000000ff000000000000000000000000000000ff000000000000000000000000000000ff00000000000000000000000100000012000000000000000000000001000000010000000000000000000000010000000000000000000000010000001000000000000000000000000100000010000000000000000000000101
/-- Memory with the page table of `tpt`, the node record at 0x1000002000 and the launch record at 0x1000002200, its KIND changed by `d`. -/
def memL (d : Nat) : List Host.Cell :=
  [(4096, 1), (4097, 32), (8192, 1), (8193, 48), (12800, 31), (12804, 16), (0x1000002001, 34), (0x1000002004, 16), (0x1000002200, BitVec.ofNat 8 (1 + d)),
   (0x1000002201, 1), (0x100000220C, 16), (0x1000002210, 1), (0x100000221C, 16), (0x1000002220, 1), (0x100000222C, 1), (0x1000002238, 1), (0x100000223C, 1),
   (0x1000002248, 18), (0x100000224C, 1)] ++
  [(0x1000002258, 255), (0x1000002268, 255), (0x1000002278, 255), (0x1000002288, 255), (0x1000002298, 255), (0x10000022A8, 32), (0x10000022A9, 112),
   (0x10000022AA, 1), (0x10000022AC, 100), (0x10000022F1, 64), (0x10000022F4, 16)]
/-- A LAUNCH at the head of queue 0. -/
def tlaunch (d : Nat) : State := { tque fun u => { u with pkts := [{ seq := 0, body := postPkt 0x1000002000 }] } with mem := memL d }
/-- The packet. -/
def pktL : Pkt := { seq := 0, body := postPkt 0x1000002000 }
/-- Some bytes on one page of the identity map of `tpt`, none outside the partition's share. -/
def OnPage (a : DWord) (n : Nat) : Prop :=
  (∀ k < n, (a + BitVec.ofNat 64 k).toNat % 2 ^ 57 / 2 ^ 16 = a.toNat % 2 ^ 57 / 2 ^ 16 ∧ canonical (a + BitVec.ofNat 64 k) = true ∧
    paOf 0 0x1000000000 0x100000001F (a + BitVec.ofNat 64 k) = a.toNat + k ∧ regionOf (a.toNat + k) ≠ .device ∧
    refusalOf Part.initial.lay (a.toNat + k) = none) ∧ paOf 0 0x1000000000 0x100000001F a = a.toNat
/-- They read as memory holds them. -/
theorem page_read {s : State} {a : DWord} {n : Nat} (hw : walkVa s 0 a = .leaf 0x1000000000 (2 ^ 30) 0x100000001F)
    (h1 : (getPart s 0).lay = Part.initial.lay) (h0 : s.poison = []) (hd : (getPart s 0).hmode = false ∨ (getPart s 0).denied = []) (h : OnPage a n) : vaRead s 0 a n = some (memRead s a.toNat n) := by
  have h3 := vaRead_page (n := n) hw (by
    rw [h1, h.2]
    intro k hk
    obtain ⟨a1, a2, a3, a4, a5⟩ := h.1 k hk
    exact ⟨a1, a2, a3, a4, a5, by unfold linePoisoned; rw [h0]; rfl⟩) (by decide +kernel) hd
  rw [h.2] at h3
  exact h3
theorem launch_node (d : Nat) (h : walkVa (markStarted (tlaunch d) 0 0 pktL) 0 0x1000002000 = .leaf 0x1000000000 (2 ^ 30) 0x100000001F)
    (h1 : (getPart (markStarted (tlaunch d) 0 0 pktL) 0).lay = Part.initial.lay)
    (h2 : memRead (markStarted (tlaunch d) 0 0 pktL) 0x1000002000 64 = 0x1000002200) :
    vaRead (markStarted (tlaunch d) 0 0 pktL) 0 0x1000002000 64 = some 0x1000002200 := by
  rw [page_read h h1 rfl (.inl (by rfl)) (by unfold OnPage; decide +kernel)]
  exact congrArg some h2
theorem launch_page : OnPage 0x1000002200 512 := by unfold OnPage; decide +kernel
theorem launch_rec0 : vaRead (markStarted (tlaunch 0) 0 0 pktL) 0 0x1000002200 512 = some (lrecT) := by
  rw [page_read (by decide +kernel) (by decide +kernel) rfl (.inl (by decide +kernel)) launch_page]; decide +kernel
theorem launch_rec1 : vaRead (markStarted (tlaunch 1) 0 0 pktL) 0 0x1000002200 512 = some (lrecT + 1) := by
  rw [page_read (by decide +kernel) (by decide +kernel) rfl (.inl (by decide +kernel)) launch_page]; decide +kernel
theorem launch_read (d n : Nat) (h0 : mayStart (tlaunch d) 0 0 1 = some pktL) (h1 : pktL.late = false)
    (h2 : vaRead (markStarted (tlaunch d) 0 0 pktL) 0 0x1000002000 64 = some 0x1000002200)
    (h3 : vaRead (markStarted (tlaunch d) 0 0 pktL) 0 0x1000002200 512 = some n) :
    ∃ s part q k rn n', mayStart s part q 1 = some k ∧ k.late = false ∧ badAddr (pktOperand k.body) = false ∧
      vaRead (markStarted s part q k) part (pktOperand k.body) 64 = some rn ∧ badAddr (nodeRecOf rn).lrec = false ∧
      vaRead (markStarted s part q k) part (nodeRecOf rn).lrec 512 = some n' ∧
      launchCause (markStarted s part q k) part (nodeRecOf rn) n' = launchCause (markStarted (tlaunch d) 0 0 pktL) 0 (nodeRecOf 0x1000002200) n := by
  have ha : pktOperand pktL.body = 0x1000002000 := by decide +kernel
  have hl : (nodeRecOf 0x1000002200).lrec = 0x1000002200 := by decide +kernel
  exact ⟨_, 0, 0, pktL, _, n, h0, h1, by rw [ha]; decide +kernel, by rw [ha]; exact h2, by rw [hl]; decide +kernel, by rw [hl]; exact h3, rfl⟩
theorem witness_LaunchesAreChecked :
    (∃ s part q k rn n, mayStart s part q 1 = some k ∧ k.late = false ∧ badAddr (pktOperand k.body) = false ∧
      vaRead (markStarted s part q k) part (pktOperand k.body) 64 = some rn ∧ badAddr (nodeRecOf rn).lrec = false ∧
      vaRead (markStarted s part q k) part (nodeRecOf rn).lrec 512 = some n ∧ launchCause (markStarted s part q k) part (nodeRecOf rn) n = 0) ∧
    (∃ s part q k rn n, mayStart s part q 1 = some k ∧ k.late = false ∧ badAddr (pktOperand k.body) = false ∧
      vaRead (markStarted s part q k) part (pktOperand k.body) 64 = some rn ∧ badAddr (nodeRecOf rn).lrec = false ∧
      vaRead (markStarted s part q k) part (nodeRecOf rn).lrec 512 = some n ∧ launchCause (markStarted s part q k) part (nodeRecOf rn) n ≠ 0) ∧
    (∃ s part q k, mayStart s part q 1 = some k ∧ k.late = false ∧ (frontAsks s part (launchPages s part (pktOperand k.body))).isSome = true) ∧
    (frontAsks (tlaunch 0) 0 (launchPages (tlaunch 0) 0 (pktOperand pktL.body)) = none ∧ frontAsks (tlaunch 1) 0 (launchPages (tlaunch 1) 0 (pktOperand pktL.body)) = none) ∧
    (∃ s part q k, mayStart s part q 1 = some k ∧ k.late = true) := by
  obtain ⟨s, p, q, k, rn, n, h1, h2, h3, h4, h5, h6, h7⟩ := launch_read 0 lrecT (by decide +kernel) (by decide +kernel)
    (launch_node 0 (by decide +kernel) (by decide +kernel) (by decide +kernel)) launch_rec0
  obtain ⟨s', p', q', k', rn', n', g1, g2, g3, g4, g5, g6, g7⟩ := launch_read 1 (lrecT + 1) (by decide +kernel) (by decide +kernel)
    (launch_node 1 (by decide +kernel) (by decide +kernel) (by decide +kernel)) launch_rec1
  exact ⟨⟨s, p, q, k, rn, n, h1, h2, h3, h4, h5, h6, h7.trans (by decide +kernel)⟩,
    ⟨s', p', q', k', rn', n', g1, g2, g3, g4, g5, g6, by rw [g7]; decide +kernel⟩,
    ⟨asking (tque fun u => { u with pkts := [{ seq := 0, body := postPkt 0x2000002000 }] }), 0, 0, { seq := 0, body := postPkt 0x2000002000 }, by decide +kernel⟩,
    ⟨frontAsks_none _ _ _ rfl rfl, frontAsks_none _ _ _ rfl rfl⟩,
    ⟨tque fun u => { u with pkts := [{ pktL with late := true }] }, 0, 0, { pktL with late := true }, by decide +kernel⟩⟩

/-! ## Packets that are not launches -/

/-- Queue 0 with packets. -/
def tpk (l : List Pkt) : State := tque fun u => { u with qstat := 1, pkts := l }
/-- A packet's body: its type, its operand and what stands above. -/
def pk (ty operand more : Nat) : Record := BitVec.ofNat 512 (recordOf [(0, ty), (64, operand), (128, more)])
/-- A packet accepted fifth. -/
def pkE (b : Record) : Pkt := { seq := 1, acc := 5, body := b }
/-- A QFENCE behind a packet that runs. -/
def tfence : State := tpk [{ pkE (pk 1 0 0) with seq := 0, acc := 4, started := true }, pkE (pk 3 1 0)]
theorem witness_FencesAndCollectivesStart :
    (∃ s part q k, mayStart s part q 3 = some k) ∧
    (∃ s part q, (getPart s part).queues.length = 1 ∧ (∃ k, nextStart (queueOf s part q) = some k ∧ pktType k.body = 3) ∧
      ∀ u ∈ (getPart s part).queues, u.1 = q → ∀ k, nextStart u.2 = some k → pktType k.body = 3 →
        ∃ v ∈ (getPart s part).queues, (pktOperand k.body).toNat.testBit v.1 = true ∧ ∃ j ∈ v.2.pkts, j.acc < k.acc) ∧
    (∃ s part q k, mayStart s part q 2 = some k ∧ (frontAsks s part (collPages k.body)).isSome = true) ∧
    (∃ s part q k, mayStart s part q 2 = some k ∧ frontAsks s part (collPages k.body) = none ∧ collAddrOk s part k.body = true) ∧
    (∃ s part q k, mayStart s part q 2 = some k ∧ frontAsks s part (collPages k.body) = none ∧ collAddrOk s part k.body = false) :=
  ⟨⟨tpk [pkE (pk 3 1 0)], 0, 0, pkE (pk 3 1 0), by decide +kernel⟩,
   ⟨tfence, 0, 0, rfl, ⟨pkE (pk 3 1 0), by decide +kernel, by decide +kernel⟩, fun u hu _ k hk _ => by
      obtain rfl := List.mem_singleton.mp hu
      have h : nextStart (queueOf tfence 0 0) = some (pkE (pk 3 1 0)) := by decide +kernel
      have hk' : nextStart (queueOf tfence 0 0) = some k := hk
      rw [h, Option.some.injEq] at hk'
      subst hk'
      exact ⟨_, hu, by decide +kernel, _, List.mem_cons_self, by decide +kernel⟩⟩,
   ⟨asking (tpk [pkE (pk 2 0x2000000100 0x2000000200)]), 0, 0, pkE (pk 2 0x2000000100 0x2000000200), by decide +kernel⟩,
   ⟨tpk [pkE (pk 2 0x1000000100 0x1000000200)], 0, 0, pkE (pk 2 0x1000000100 0x1000000200), by decide +kernel⟩,
   ⟨tpk [pkE (pk 2 0x1000000108 0x1000000200)], 0, 0, pkE (pk 2 0x1000000108 0x1000000200), by decide +kernel⟩⟩
/-- A value and that a test holds of it. -/
theorem some_of {α : Type} {o : Option α} (h : o.isSome = true) : ∃ a, o = some a := Option.isSome_iff_exists.mp h
theorem witness_EventsAndSignals :
    (∃ s part q k, mayStart s part q 4 = some k ∧ (pktOperand k.body).toNat % 32 = 0 ∧ (frontAsks s part [pktOperand k.body]).isSome = true) ∧
    (∃ s part q k, mayStart s part q 6 = some k ∧ (pktOperand k.body).toNat % 8 = 0 ∧ (frontAsks s part [pktOperand k.body]).isSome = true) ∧
    (∃ s part q k u v, mayStart s part q 4 = some k ∧ (pktOperand k.body).toNat % 32 = 0 ∧ frontAsks s part [pktOperand k.body] = none ∧
      engWrite (markStarted s part q k) part (pktOperand k.body) 28 (eventBody (queueOf s part q) k) = some u ∧
      engWrite u part (pktOperand k.body + 28) 4 1 = some v) ∧
    (∃ s part q k, mayStart s part q 4 = some k ∧ (pktOperand k.body).toNat % 32 ≠ 0) ∧
    (∃ s part q k w u, mayStart s part q 6 = some k ∧ (pktOperand k.body).toNat % 8 = 0 ∧ frontAsks s part [pktOperand k.body] = none ∧ signalValue s part k = some w ∧
      engWrite (markStarted s part q k) part (pktOperand k.body) 8 w = some u) := by
  have h : ((engWrite (markStarted (tpk [pkE (pk 4 0x1000000600 0)]) 0 0 (pkE (pk 4 0x1000000600 0))) 0 0x1000000600 28
      (eventBody (queueOf (tpk [pkE (pk 4 0x1000000600 0)]) 0 0) (pkE (pk 4 0x1000000600 0)))).bind fun u => engWrite u 0 0x100000061C 4 1).isSome = true := by
    decide +kernel
  obtain ⟨v, hv⟩ := some_of h
  obtain ⟨u, hu, hv⟩ := Option.bind_eq_some_iff.mp hv
  have h2 : (engWrite (markStarted (tpk [pkE (pk 6 0x1000000608 (2 ^ 64 + 9))]) 0 0 (pkE (pk 6 0x1000000608 (2 ^ 64 + 9)))) 0 0x1000000608 8 9).isSome = true := by
    decide +kernel
  obtain ⟨w, hw⟩ := some_of h2
  refine ⟨⟨asking (tpk [pkE (pk 4 0x2000000600 0)]), 0, 0, pkE (pk 4 0x2000000600 0), by decide +kernel⟩,
    ⟨asking (tpk [pkE (pk 6 0x2000000608 0)]), 0, 0, pkE (pk 6 0x2000000608 0), by decide +kernel⟩,
    ⟨tpk [pkE (pk 4 0x1000000600 0)], 0, 0, pkE (pk 4 0x1000000600 0), u, v, by decide +kernel, by decide +kernel, frontAsks_none _ _ _ rfl rfl, ?_, ?_⟩,
    ⟨tpk [pkE (pk 4 0x1000000610 0)], 0, 0, pkE (pk 4 0x1000000610 0), by decide +kernel⟩,
    ⟨tpk [pkE (pk 6 0x1000000608 (2 ^ 64 + 9))], 0, 0, pkE (pk 6 0x1000000608 (2 ^ 64 + 9)), 9, w, by decide +kernel, by decide +kernel, frontAsks_none _ _ _ rfl rfl, by decide +kernel, ?_⟩⟩
  · rw [show pktOperand (pkE (pk 4 0x1000000600 0)).body = 0x1000000600 by decide +kernel]; exact hu
  · rw [show pktOperand (pkE (pk 4 0x1000000600 0)).body + 28 = 0x100000061C by decide +kernel]; exact hv
  · rw [show pktOperand (pkE (pk 6 0x1000000608 (2 ^ 64 + 9))).body = 0x1000000608 by decide +kernel]; exact hw
/-- A WAITSEM for the word at 0x1000000608 with a value and a condition. -/
def semE (a v c : Nat) : Pkt := pkE (pk 5 a (v + 2 ^ 64 * c))
theorem witness_SemaphoresAreAwaited :
    (∃ s part q k, mayStart s part q 5 = some k ∧ (pktOperand k.body).toNat % 8 = 0 ∧ (frontAsks s part [pktOperand k.body]).isSome = true) ∧
    (∃ s part q k, mayStart s part q 5 = some k ∧ (pktOperand k.body).toNat % 8 = 0 ∧ frontAsks s part [pktOperand k.body] = none ∧ semHolds s part k.body = some true) ∧
    (∃ s part q k, mayStart s part q 5 = some k ∧ (pktOperand k.body).toNat % 8 = 0 ∧ frontAsks s part [pktOperand k.body] = none ∧ semHolds s part k.body = some false) ∧
    (∃ s part q k, mayStart s part q 5 = some k ∧ (pktOperand k.body).toNat % 8 ≠ 0) ∧
    (∃ s part q k, mayStart s part q 5 = some k ∧ frontAsks s part [pktOperand k.body] = none ∧ semHolds s part k.body = none) ∧
    (∃ s part q k, (queueOf s part q).pkts.find? (fun k => k.started && pktType k.body == 5) = some k ∧ frontRuns s part = true ∧
      frontAsks s part [pktOperand k.body] = none ∧ semHolds s part k.body = some true) ∧
    (∃ s part q k, (queueOf s part q).pkts.find? (fun k => k.started && pktType k.body == 5) = some k ∧ frontRuns s part = true ∧
      frontAsks s part [pktOperand k.body] = none ∧ semHolds s part k.body ≠ some true) :=
  ⟨⟨asking (tpk [semE 0x2000000608 0 0]), 0, 0, semE 0x2000000608 0 0, by decide +kernel⟩,
   ⟨tpk [semE 0x1000000608 0 0], 0, 0, semE 0x1000000608 0 0, by decide +kernel⟩, ⟨tpk [semE 0x1000000608 1 0], 0, 0, semE 0x1000000608 1 0, by decide +kernel⟩,
   ⟨tpk [semE 0x100000060C 0 0], 0, 0, semE 0x100000060C 0 0, by decide +kernel⟩, ⟨tpk [semE 0x2000000000 0 0], 0, 0, semE 0x2000000000 0 0, by decide +kernel⟩,
   ⟨tpk [{ semE 0x1000000608 0 1 with started := true }], 0, 0, { semE 0x1000000608 0 1 with started := true }, by decide +kernel⟩,
   ⟨tpk [{ semE 0x1000000608 0 2 with started := true }], 0, 0, { semE 0x1000000608 0 2 with started := true }, by decide +kernel⟩⟩
theorem witness_TranslationsAreDropped : ∃ s part q k, (queueOf s part q).pkts.find? (fun k => k.started && pktType k.body == 7) = none ∧
    mayStart s part q 7 = some k ∧ canonical (pktOperand k.body) = true ∧ (pktOperand k.body).toNat % 65536 = 0 ∧ quietPart s part = true :=
  ⟨modDie (tpk [pkE (pk 7 0x1000000000 1)]) 0 fun d => { d with walks := [] }, 0, 0, pkE (pk 7 0x1000000000 1), by decide +kernel⟩
theorem witness_TranslationsAreDropped_wait : ∃ s part pa pte, ∃ l : WaitLane, l.loc = false ∧ l.seen = none ∧ engTrans s part l.va .read = .ok pa pte :=
  ⟨tpt id (walkT 0 false), 0, 0x1000000100, 0x100000001F, { lane := 0, va := 0x1000000100, addr := 5, loc := false, cmpd := 0 }, rfl, rfl, by decide +kernel⟩

/-! ## Commands and halts -/

/-- Partition 0 with a command in progress. -/
def tcmd (cmd : Nat) (f : Part → Part) : State := modPart (tpt id (walkT 0 false)) 0 fun p => f { p with cstat := 1, cmd := cmd }
theorem witness_CoresAreVacated :
    (∃ s part, inProgress s part 3 = true ∧ (getPart s part).named = none ∧ vacateList s part = none) ∧
    (∃ s part l, inProgress s part 3 = true ∧ (getPart s part).named = none ∧ vacateList s part = some l ∧
      freeSaveCount (getPart s part) < (l.filter (occupied s part)).length) ∧
    (∃ s part l, inProgress s part 3 = true ∧ (getPart s part).named = none ∧ vacateList s part = some l ∧
      (l.filter (occupied s part)).length ≤ freeSaveCount (getPart s part)) ∧
    (∃ s part l c slot, inProgress s part 3 = true ∧ (getPart s part).named = some l ∧ l.find? (mayVacate s part) = some c ∧ tilesOn s part c = [] ∧
      (∀ w ∈ (getDie s (dieOf c)).swapq, w.gslot / 64 ≠ c) ∧ freeSaveSlot (getPart s part) = some slot ∧ pairsUneven s c = false) ∧
    (∃ s part l c slot, inProgress s part 3 = true ∧ (getPart s part).named = some l ∧ l.find? (mayVacate s part) = some c ∧ tilesOn s part c = [] ∧
      (∀ w ∈ (getDie s (dieOf c)).swapq, w.gslot / 64 ≠ c) ∧ freeSaveSlot (getPart s part) = some slot ∧ pairsUneven s c = true) ∧
    (∃ s c, (getCore s c).slots ≠ [] ∧ ∀ p ∈ (getCore s c).slots, p.2.shadow ≠ .leader) :=
  ⟨⟨tcmd 3 id, 0, by decide +kernel⟩, ⟨tcmd 3 fun p => { p with carg := 4, psavesz := 0, lay := { p.lay with clusters := [0] } }, 0, [3, 2, 1, 0], by decide +kernel⟩,
   ⟨tcmd 3 fun p => { p with carg := 1, lay := { p.lay with clusters := [127] } }, 0, [511], by decide +kernel⟩,
   ⟨modCore (tcmd 3 fun p => { p with named := some [0], psavesz := 2 }) 0 fun k => { k with vacating := true }, 0, [0], 0, 0, by decide +kernel⟩,
   ⟨modCore (tcmd 3 fun p => { p with named := some [0], psavesz := 2 }) 0 fun k =>
      { k with vacating := true, slots := [(0, { bootGroup with shadow := .leader }), (1, { bootGroup with shadow := .shadow, front := [] })],
               bufs := [{ part := 0, node := bootNode, blk := 0, ents := [{ ent (.store false [(0x1000000100, 1)]) none with cmp := false }] }] },
    0, [0], 0, 0, by decide +kernel⟩,
   ⟨t0, 0, by decide +kernel⟩⟩
theorem witness_PartitionsArePreempted :
    (∃ s part, inProgress s part 1 = true ∧ (getPart s part).named = none ∧ (getPart s part).st = .halted) ∧
    (∃ s part, inProgress s part 1 = true ∧ (getPart s part).named = none ∧ (getPart s part).st = .running ∧
      ∀ c ∈ coresOf (getPart s part).lay, (getCore s c).slots = [] ∧ (getCore s c).node = none ∧ ∀ n ∈ (getPart s part).nodes, grantsOn n c = []) :=
  ⟨⟨tcmd 1 fun p => { p with st := .halted }, 0, by decide +kernel⟩,
   ⟨modCore (tcmd 1 id) 0 fun k => { k with slots := [], node := none }, 0, by decide +kernel⟩⟩
theorem witness_PartitionsResume :
    (∃ s part, inProgress s part 2 = true ∧ (getPart s part).st = .preempted ∧ (getPart s part).images = []) ∧
    (∃ s part, (getPart s part).st = .halted ∧ (getPart s part).named = none ∧ (getPart s part).images = []) ∧
    (∃ s part, (getPart s part).st ≠ .halted) :=
  ⟨⟨tcmd 2 fun p => { p with st := .preempted }, 0, by decide +kernel⟩, ⟨tcmd 0 fun p => { p with st := .halted }, 0, by decide +kernel⟩,
   ⟨t0, 0, by decide +kernel⟩⟩
theorem witness_PartitionsAreTornDown : (∃ s part, (getPart s part).tearing = false) ∧
    (∃ s part, (getPart s part).tearing = true ∧ walksOf s part = false) :=
  ⟨⟨t0, 0, by decide +kernel⟩, ⟨tcmd 4 fun p => { p with tearing := true }, 0, by decide +kernel⟩⟩
theorem witness_WatchdogsExpire :
    (∃ s core, wdogOf s core ≠ 0 ∧ (getCore s core).slots ≠ [] ∧ (getCore s core).stopped = false ∧ (getCore s core).vacating = false ∧
      (getPart s (getCore s core).part).squall = false) ∧ (∃ s core, wdogOf s core = 0) :=
  ⟨⟨tb (fun n => { n with la := { n.la with wdog := 7 } }) (fun k => { k with node := some bootNode }) id, 0, by decide +kernel⟩, ⟨t0, 0, by decide +kernel⟩⟩
/-- The line is up, and has not reached some units. -/
def tsq (l : List Unit') : State := modPart t0 0 fun p => { p with squall := true, st := .halting, unitsLeft := l }
theorem witness_HaltsComplete :
    (isCause 1 = true ∧ isCause 0x0A = true ∧ isCause 0x12 = true) ∧ (isCause 0 = false ∧ isCause 0x0B = false ∧ isCause 0x13 = false) ∧
    (∃ s part, ∃ u : Unit', (getPart s part).squall = true ∧ u ∈ (getPart s part).unitsLeft) ∧
    (∃ s part c, (getPart s part).squall = true ∧ Unit'.matrix c ∈ (getPart s part).unitsLeft) ∧
    (∃ s part q, (getPart s part).squall = true ∧ Unit'.bte q ∈ (getPart s part).unitsLeft) ∧
    (∃ s part, haltReady s part = true) ∧ (∃ s part, haltReady s part = false) :=
  ⟨by decide +kernel, by decide +kernel, ⟨tsq [.core 0], 0, .core 0, by decide +kernel⟩, ⟨tsq [.matrix 127], 0, 127, by decide +kernel⟩,
   ⟨tsq [.frontEnd, .bte 15], 0, 15, by decide +kernel⟩, ⟨tsq [], 0, by decide +kernel⟩, ⟨tsq [.frontEnd], 0, by decide +kernel⟩⟩
theorem witness_BlocksAreContained :
    (∃ s core slot g n, getGroup s core slot = some g ∧ findNode s g.part g.node = some n ∧ mayRelaunch n g.blk = false ∧
      ∃ c k h, getGroup s c k = some h ∧ ofBlock g.part n.addr g.blk h = true) ∧
    (∃ s core slot g n, getGroup s core slot = some g ∧ findNode s g.part g.node = some n ∧ mayRelaunch n g.blk = true ∧
      mapGet 0 n.relaunched g.blk = 2) :=
  ⟨⟨t0, 0, 0, _, _, rfl, rfl, by decide +kernel, 0, 0, _, rfl, by decide +kernel⟩,
   ⟨tb (fun n => { n with la := { n.la with rela := true }, relaunched := [(0, 2)] }) id id, 0, 0, _, _, rfl, rfl, by decide +kernel, by decide +kernel⟩⟩

/-! ## The package -/

/-- A layout of cluster 0 with 4 slices on its die. -/
def lay4 : Layout := { Part.initial.lay with clusters := [0], slices := [(0, [0, 1, 2, 3])] }
/-- Partition 0 alone, in some state, nothing on its cores. -/
def tpack (f : Part → Part) : State := modPart State.reset 0 f
theorem witness_BoundariesMove :
    (∃ s m more, moveAllowed s (m :: more) = false ∧ ∃ n ∈ m :: more, (getPart s n.1).stopMove ≠ some (m :: more)) ∧
    (∃ s part lay, moveAllowed s [(part, lay)] = true ∧ (getPart s part).st = .halted) ∧
    (∃ s part lay, moveAllowed s [(part, lay)] = true ∧ (getPart s part).st = .preempted) ∧
    (∃ s m more, moveAllowed s (m :: more) = true ∧ more.length = 1 ∧ ∀ n ∈ m :: more, (getPart s n.1).st = .running ∧ (getPart s n.1).squall = false) :=
  ⟨⟨tpack id, (0, { lay4 with slices := [(0, [0, 1, 2, 3, 4])] }), [], by decide +kernel, _, List.mem_cons_self, by decide +kernel⟩,
   ⟨tpack fun p => { p with st := .halted }, 0, lay4, by decide +kernel⟩,
   ⟨tpack fun p => { p with st := .preempted }, 0, lay4, by decide +kernel⟩,
   ⟨tpack id, (0, lay4), [(1, { lay4 with clusters := [127], slices := [(7, [0, 1, 2, 3])], hbm := [] })], by decide +kernel, rfl, by decide +kernel⟩⟩
theorem witness_StacksAreScrubbed : (∃ s : State, ∃ stack : Nat, stack < 32 ∧ (mapGet {} s.hbm stack).share * 81920 < 100 * (mapGet {} s.hbm stack).demand) ∧
    (∃ s : State, ∃ stack : Nat, stack < 32 ∧ ¬(mapGet {} s.hbm stack).share * 81920 < 100 * (mapGet {} s.hbm stack).demand) :=
  ⟨⟨{ State.reset with hbm := [(31, { demand := 65537 })] }, 31, by decide +kernel⟩,
   ⟨{ State.reset with hbm := [(31, { demand := 65536 })] }, 31, by decide +kernel⟩⟩
theorem witness_ClocksAndCooling :
    (∃ die f : Nat, die < 8 ∧ 8 ≤ f ∧ f ≤ 25) ∧ (∃ die f : Nat, die < 8 ∧ 25 < f) ∧ (8 ≤ 8 ∧ 7 < 8) ∧ (∃ s die, die < 8 ∧ 8 < (getDie s die).freq) ∧
    (∃ s : State, s.mgmt.shutdown = false) ∧ (∃ s : State, s.mgmt.shutdown = true ∧ s.agenda = []) :=
  ⟨⟨7, 8, by decide⟩, ⟨0, 26, by decide⟩, by decide, ⟨modDie t0 0 fun d => { d with freq := 9 }, 0, by decide +kernel⟩, ⟨t0, by decide +kernel⟩,
   ⟨{ State.reset with mgmt := { shutdown := true } }, by decide +kernel⟩⟩
/-- A state with a session of the side-band port. -/
def tsess (s : State) : State := { s with mgmt := { s.mgmt with spdm := [(0, { session := true })] } }
theorem witness_ModuleResets : (∃ s : State, s.mgmt.nextBoot = .presented) ∧ (∃ s t : State, exec .moduleReset s = .next t ∧ presented t = false) :=
  ⟨⟨State.reset, rfl⟩, ⟨{ State.reset with mgmt := { nextBoot := .halted } }, _, rfl, rfl⟩⟩
theorem witness_CommandsNeedASession : ∃ i code s, stateCommands i = some code ∧ (spdmOf s 0).session = false :=
  ⟨.poisonLine 0, 10, t0, by decide +kernel⟩
theorem witness_CommandsInASession :
    (∃ s part, (spdmOf s 0).session = true ∧ (getPart s part).squall = false) ∧
    (∃ s part, (spdmOf s 0).session = true ∧ (getPart s part).st = .halted ∧ (getPart s part).named = none ∧ (getPart s part).images = []) ∧
    (∃ s part, (spdmOf s 0).session = true ∧ (getPart s part).tearing = false) ∧
    (∃ s : State, ∃ part die cls : Nat, (spdmOf s 0).session = true ∧ part < 8 ∧ die < 8 ∧ cls < 6) ∧
    (∃ s m more, (spdmOf s 0).session = true ∧ moveAllowed s (m :: more) = true) ∧
    (∃ s line, (spdmOf s 0).session = true ∧ line % 128 = 0 ∧ (s.parts.any fun p => inShare p.2.lay line) = true ∧ regionOf line = .hbm) :=
  ⟨⟨tsess t0, 0, by decide +kernel⟩, ⟨tsess (tpack fun p => { p with st := .halted }), 0, by decide +kernel⟩, ⟨tsess t0, 0, by decide +kernel⟩,
   ⟨tsess t0, 7, 7, 5, by decide +kernel⟩, ⟨tsess (tpack id), (0, lay4), [], by decide +kernel⟩, ⟨tsess t0, 0x1FFFFFFFF80, by decide +kernel⟩⟩
theorem witness_SideBandReads :
    (∃ s part pa len, len = 8 ∧ ∀ j, j < len → inShare (getPart s part).lay (pa + j) = true ∧ linePoisoned s (pa + j) = false) ∧
    (∃ len : Nat, 1024 < len) ∧ (∃ s part pa len, len ≤ 1024 ∧ ∃ j, j < len ∧ inShare (getPart s part).lay (pa + j) = false) :=
  ⟨⟨t0, 0, 0x1FFFFFFFFF8, 8, rfl, by decide +kernel⟩, ⟨1025, by decide⟩, ⟨t0, 0, 0x1FFFFFFFFF8, 9, by decide, 8, by decide +kernel⟩⟩
theorem witness_AttestationAnswers :
    (∃ i p k ok told f s, spdmAsk i = some (p, k, ok, told, f) ∧ portServed s p = true ∧ ok s = true ∧ k = 6) ∧
    (∃ i p k ok told f s, spdmAsk i = some (p, k, ok, told, f) ∧ portServed s p = true ∧ ok s = false ∧ k = 6) ∧
    (∃ i p k ok told f s, spdmAsk i = some (p, k, ok, told, f) ∧ portServed s p = false) :=
  ⟨⟨.getMeasurements 3 4, 3, 6, _, _, _, { t0 with mgmt := { t0.mgmt with spdm := [(3, { algs := some 1 })] } }, rfl, by decide +kernel, by decide +kernel, rfl⟩,
   ⟨.getMeasurements 3 5, 3, 6, _, _, _, { t0 with mgmt := { t0.mgmt with spdm := [(3, { algs := some 1 })] } }, rfl, by decide +kernel, by decide +kernel, rfl⟩,
   ⟨.getVersion 4, 4, 0, _, _, _, thidden, rfl, by decide +kernel⟩⟩
theorem witness_FirmwareAndCertificates :
    (∃ port s, portServed s port = false) ∧ (∃ port s slot, portServed s port = true ∧ (spdmOf s port).session = true ∧ 1 ≤ slot ∧ slot < 8) ∧
    (∃ port s, portServed s port = true ∧ (spdmOf s port).session = false) ∧ (∃ port s slot, portServed s port = true ∧ (spdmOf s port).session = true ∧ 8 ≤ slot) :=
  ⟨⟨1, thidden, by decide +kernel⟩, ⟨0, tsess t0, 7, by decide +kernel⟩, ⟨0, t0, by decide +kernel⟩, ⟨0, tsess t0, 8, by decide +kernel⟩⟩

/-! ## Block transfers -/

/-- A post of BTE queue `q` whose descriptor stands at 0x1000002000. -/
def bpostT : BPost := { seq := 0, d := 0x1000002000, c := 0x1000003000, rbase := 0x1000003400, rlog := 4, node := bootNode }
/-- Memory with the page table of `tpt` and a descriptor: KIND, SRC 0x1000004000, DST 0x1000005000, LEN `len` (low two bytes) and 2^20 times `m`. -/
def memB (kind len m : Nat) : List Host.Cell :=
  [(4096, 1), (4097, 32), (8192, 1), (8193, 48), (12800, 31), (12804, 16)] ++
  (if kind = 0 then [] else [(0x1000002000, BitVec.ofNat 8 kind)]) ++ [(0x1000002009, 0x40), (0x100000200C, 0x10), (0x1000002011, 0x50), (0x1000002014, 0x10)] ++
  (if len = 0 then [] else [(0x1000002018, BitVec.ofNat 8 len)]) ++ (if m = 0 then [] else [(0x100000201A, BitVec.ofNat 8 (16 * m))])
/-- A partition with BTE queues. -/
def tbte (l : List (Nat × BteQ)) (mem : List Host.Cell) : State := { modPart (tpt id (walkT 0 false)) 0 fun p => { p with bte := l } with mem := mem }
/-- The descriptor that a list of bytes makes. -/
def descBytes (l : List (Byte × Bool)) : Record := BitVec.ofNat 512 (bytesNum (l.map fun b => b.1))
/-- What its list of destinations, its peers and its size say of a descriptor: no list, bad peers, good and at most 1 MiB, or larger. -/
def startIf (s : State) (d : BDesc) : Nat :=
  match readDests s 0 d with
  | .error _ => 0
  | .ok ds => if (peerProblem s 0 d.comm (ranksOf d ds)).isSome then 1 else if d.len ≤ 2 ^ 20 then 2 else 3
/-- Whether a head post's descriptor can be read, asks for no page, and its format and what follows are as said. -/
def descIf (s : State) (bad : Bool) (k : Nat) : Bool :=
  (bteAsks s 0 2 bpostT.die [bpostT.d]).isNone &&
  match readDevice s 0 bpostT.d 64 with
  | .ok l _ => !(l.any fun b => b.2) && formatBad s 0 (descOf (descBytes l)) == bad && (bteAsks s 0 2 bpostT.die (startPages s 0 (descOf (descBytes l)))).isNone &&
      (bad || startIf s (descOf (descBytes l)) == k)
  | _ => false
/-- A descriptor at the head of a queue that may start it, its bytes, and what they say. -/
def DescReady (bad : Bool) (P : State → BDesc → Prop) : Prop :=
  ∃ s part q p rest l b, bteHeld s part q = false ∧ engineAway s part q = false ∧ (bteOf s part q).run = none ∧
    (bteOf s part q).items = .post p :: rest ∧ p.cancel = false ∧ bteAsks s part q p.die [p.d] = none ∧
    readDevice s part p.d 64 = .ok l b ∧ (l.any fun b => b.2) = false ∧ formatBad s part (descOf (descBytes l)) = bad ∧
    bteAsks s part q p.die (startPages s part (descOf (descBytes l))) = none ∧ (bad = true ∨ P s (descOf (descBytes l)))
theorem desc_of {s : State} {bad : Bool} {k : Nat} (h0 : bteHeld s 0 2 = false ∧ engineAway s 0 2 = false ∧ (bteOf s 0 2).run = none ∧
    (bteOf s 0 2).items = [.post bpostT]) (h : descIf s bad k = true) : DescReady bad fun s d => startIf s d = k := by
  unfold descIf at h
  rw [Bool.and_eq_true, Option.isNone_iff_eq_none] at h
  obtain ⟨h1, h⟩ := h
  split at h
  · rename_i l b he
    simp only [Bool.and_eq_true, Bool.not_eq_true', beq_iff_eq, Option.isNone_iff_eq_none, Bool.or_eq_true] at h
    exact ⟨s, 0, 2, bpostT, [], l, b, h0.1, h0.2.1, h0.2.2.1, h0.2.2.2, rfl, h1, he, h.1.1.1, h.1.1.2, h.1.2, h.2⟩
  · cases h
theorem DescReady.mono {bad : Bool} {P Q : State → BDesc → Prop} (h : ∀ s d, P s d → Q s d) (h0 : DescReady bad P) : DescReady bad Q := by
  obtain ⟨s, part, q, p, rest, l, b, h1, h2, h3, h4, h5, h6, h7, h8, h9, h10, h11⟩ := h0
  exact ⟨s, part, q, p, rest, l, b, h1, h2, h3, h4, h5, h6, h7, h8, h9, h10, h11.imp_right (h _ _)⟩
theorem start_cases (s : State) (d : BDesc) :
    (startIf s d = 0 → ∃ e, readDests s 0 d = .error e) ∧
    (startIf s d = 1 → ∃ ds e, readDests s 0 d = .ok ds ∧ peerProblem s 0 d.comm (ranksOf d ds) = some e) ∧
    (startIf s d = 2 → ∃ ds, readDests s 0 d = .ok ds ∧ peerProblem s 0 d.comm (ranksOf d ds) = none ∧ d.len ≤ 2 ^ 20) ∧
    (startIf s d = 3 → ∃ ds, readDests s 0 d = .ok ds ∧ peerProblem s 0 d.comm (ranksOf d ds) = none ∧ 2 ^ 20 < d.len) := by
  unfold startIf
  cases readDests s 0 d with
  | error e => simp
  | ok ds =>
    dsimp only
    by_cases h1 : (peerProblem s 0 d.comm (ranksOf d ds)).isSome = true
    · simp only [h1, if_true]
      exact ⟨fun h => absurd h (by decide), fun _ => ⟨ds, _, rfl, (Option.isSome_iff_exists.mp h1).choose_spec⟩, fun h => absurd h (by decide),
        fun h => absurd h (by decide)⟩
    · simp only [h1]
      have h0 := Option.not_isSome_iff_eq_none.mp h1
      by_cases h2 : d.len ≤ 2 ^ 20
      · simp only [h2, if_true]
        exact ⟨fun h => absurd h (by decide), fun h => absurd h (by decide), fun _ => ⟨ds, rfl, h0, trivial⟩, fun h => absurd h (by decide)⟩
      · simp only [h2, if_false]
        exact ⟨fun h => absurd h (by decide), fun h => absurd h (by decide), fun h => absurd h (by decide), fun _ => ⟨ds, rfl, h0, by omega⟩⟩
/-- A post of a multicast whose identifier names a list of destinations there. -/
def mcastT (list : DWord) : State :=
  modPart (tbte [(2, { items := [.post bpostT] })] (memB 0x0C 64 0)) 0 fun p => { p with idents := [(0, { st := .bound, mcast := true, desc := BitVec.ofNat 512 (0x1000F + 2 ^ 64 * list.toNat) })] }
theorem witness_DescriptorsStart : DescReady true (fun _ _ => True) ∧ DescReady false (fun s d => ∃ e, readDests s 0 d = .error e) ∧
    DescReady false (fun s d => ∃ ds e, readDests s 0 d = .ok ds ∧ peerProblem s 0 d.comm (ranksOf d ds) = some e) ∧
    DescReady false (fun s d => ∃ ds, readDests s 0 d = .ok ds ∧ peerProblem s 0 d.comm (ranksOf d ds) = none ∧ d.len ≤ 2 ^ 20) ∧
    DescReady false (fun s d => ∃ ds, readDests s 0 d = .ok ds ∧ peerProblem s 0 d.comm (ranksOf d ds) = none ∧ 2 ^ 20 < d.len) ∧
    (∃ s part q n m rest, bteHeld s part q = false ∧ (bteOf s part q).run = none ∧ (bteOf s part q).items = .fence n m :: rest ∧
      ∀ j ∈ maskQueues m, (bteOf s part j).run = none ∧ ∃ m' r, (bteOf s part j).items = .fence n m' :: r) ∧
    (∃ s part q n m rest, bteHeld s part q = false ∧ (bteOf s part q).run = none ∧ (bteOf s part q).items = .fence n m :: rest ∧
      ∃ j ∈ maskQueues m, (bteOf s part j).run.isSome = true ∨ (bteOf s part j).items = []) ∧ (∃ s part q, bteHeld s part q = true) := by
  refine ⟨(desc_of (s := tbte [(2, { items := [.post bpostT] })] (memB 0x0D 64 0)) (k := 0) (by decide +kernel) (by decide +kernel)).mono fun _ _ _ => trivial,
    (desc_of (s := memWrite (mcastT 0x2000000000) 0x1000002002 1 12) (by decide +kernel) (by decide +kernel)).mono fun _ _ h => (start_cases _ _).1 h,
    (desc_of (s := modPart (memWrite (tbte [(2, { items := [.post bpostT] })] (memB 0x0C 64 0)) 0x1000002002 1 8) 0 fun p =>
      { p with comms := [(0, { nrank := 2, ptab := 0x2000000000 })] }) (by decide +kernel) (by decide +kernel)).mono fun _ _ h => (start_cases _ _).2.1 h,
    (desc_of (s := tbte [(2, { items := [.post bpostT] })] (memB 0x0C 0 1)) (by decide +kernel) (by decide +kernel)).mono fun _ _ h => (start_cases _ _).2.2.1 h,
    (desc_of (s := tbte [(2, { items := [.post bpostT] })] (memB 0x0C 1 1)) (by decide +kernel) (by decide +kernel)).mono fun _ _ h => (start_cases _ _).2.2.2 h,
    ⟨tbte [(0, { items := [.fence 7 0x8001] }), (15, { items := [.fence 7 0x8001] })] [], 0, 0, 7, 0x8001, [], by decide +kernel, by decide +kernel,
      by decide +kernel, ?_⟩,
    ⟨tbte [(0, { items := [.fence 7 0x8001] })] [], 0, 0, 7, 0x8001, [], by decide +kernel, by decide +kernel, by decide +kernel, 15, by decide +kernel⟩,
    ⟨tbte [(2, { stopped := true })] [], 0, 2, by decide +kernel⟩⟩
  intro j hj
  have h : j = 0 ∨ j = 15 := by
    have : maskQueues 0x8001 = [0, 15] := by decide +kernel
    rw [this] at hj
    simpa using hj
  rcases h with rfl | rfl
  · exact ⟨by decide +kernel, 0x8001, [], by decide +kernel⟩
  · exact ⟨by decide +kernel, 0x8001, [], by decide +kernel⟩
/-- A descriptor's start that asks for the pages of its list. -/
def askIf (s : State) : Bool :=
  (bteAsks s 0 2 bpostT.die [bpostT.d]).isNone &&
  match readDevice s 0 bpostT.d 64 with
  | .ok l _ => !(l.any fun b => b.2) && !formatBad s 0 (descOf (descBytes l)) && (bteAsks s 0 2 bpostT.die (startPages s 0 (descOf (descBytes l)))).isSome
  | _ => false
theorem witness_DescriptorsStart_asks :
    (∃ s part q p rest, bteHeld s part q = false ∧ engineAway s part q = false ∧ (bteOf s part q).run = none ∧
      (bteOf s part q).items = .post p :: rest ∧ p.cancel = true) ∧
    (∃ s part q p rest, bteHeld s part q = false ∧ engineAway s part q = false ∧ (bteOf s part q).run = none ∧
      (bteOf s part q).items = .post p :: rest ∧ p.cancel = false ∧ (bteAsks s part q p.die [p.d]).isSome = true) ∧
    (∃ s, (bteOf s 0 2).items = [.post bpostT] ∧ askIf s = true) :=
  ⟨⟨tbte [(2, { items := [.post { bpostT with cancel := true }] })] [], 0, 2, _, [], by decide +kernel, by decide +kernel, by decide +kernel, rfl, rfl⟩,
   ⟨modPart (tbte [(2, { items := [.post { bpostT with d := 0x2000000000 }] })] (memB 0x0C 64 0)) 0 fun p => { p with prq := true }, 0, 2, _, [],
     by decide +kernel, by decide +kernel, by decide +kernel, rfl, rfl, by decide +kernel⟩,
   ⟨modPart (memWrite (mcastT 0x2000000000) 0x1000002002 1 12) 0 fun p => { p with prq := true }, by decide +kernel, by decide +kernel⟩⟩
/-- A copy of 2^20 bytes under way. -/
def brunT (bytes : Nat) (ended : Bool) : BRun :=
  { post := bpostT, desc := BitVec.ofNat 512 (0x0C + 2 ^ 64 * 0x1000004000 + 2 ^ 128 * 0x1000005000 + 2 ^ 192 * 0x100000), bytesDone := bytes, ended := ended, leave := true,
    dests := [(0, 0x1000005000, 0)] }
/-- What a chunk's read and its destinations answer. -/
def moveIf (s : State) (n : Nat) (src dst : DWord) : Bool :=
  (match readDevice s 0 src n with
   | .ok bytes [] => !(bytes.any fun p => p.2)
   | _ => false) && (match destPas s 0 .write dst n with
   | .ok _ => true
   | _ => false)
theorem move_of {s : State} {n : Nat} {src dst : DWord} (h : moveIf s n src dst = true) :
    ∃ bytes pas, readDevice s 0 src n = .ok bytes [] ∧ (bytes.any fun p => p.2) = false ∧ destPas s 0 .write dst n = .ok pas := by
  unfold moveIf at h
  simp only [Bool.and_eq_true] at h
  obtain ⟨h1, h2⟩ := h
  split at h1
  · rename_i bytes he
    split at h2
    · rename_i pas hp
      exact ⟨bytes, pas, he, by simpa using h1, hp⟩
    · cases h2
  · cases h1
/-- Queue 2 with that copy, its last 16 bytes left. -/
def tcopy : State := tbte [(2, { items := [.post bpostT], run := some (brunT 0xFFFF0 false) })] (memB 0 0 0)
/-- The turn of its engine noted, and the chunk's requests counted. -/
def tturn : State := { tcopy with bteTurn := mapSet 1 tcopy.bteTurn (engineKey 0 2) 0 }
theorem move_of' {s1 : State} {l : List Request} {n : Nat} {src dst : DWord} (h : ((issueAll s1 0 .bte l).any fun u =>
      (match readDevice s1 0 src n with
       | .ok bytes [] => !(bytes.any fun p => p.2)
       | _ => false) && (match destPas u 0 .write dst n with
       | .ok _ => true
       | _ => false)) = true) :
    ∃ u bytes pas, issueAll s1 0 .bte l = some u ∧ readDevice s1 0 src n = .ok bytes [] ∧ (bytes.any fun p => p.2) = false ∧ destPas u 0 .write dst n = .ok pas := by
  obtain hu | ⟨u, hu⟩ := Option.eq_none_or_eq_some (issueAll s1 0 .bte l)
  · rw [hu] at h; cases h
  rw [hu, Option.any_some, Bool.and_eq_true] at h
  obtain ⟨h1, h2⟩ := h
  split at h1
  · rename_i bytes he
    split at h2
    · rename_i pas hp
      exact ⟨u, bytes, pas, hu, he, by simpa using h1, hp⟩
    · cases h2
  · cases h1
theorem witness_DescriptorsMove : ∃ s part q r bytes pas u, bteHeld s part q = false ∧ engineAway s part q = false ∧ (bteOf s part q).run = some r ∧
    r.ended = false ∧ r.leave = true ∧ r.dests = [(0, (descOf r.desc).dst, (descOf r.desc).peer)] ∧ r.status = 0 ∧
    (let b := descOf r.desc
     let s1 := { s with bteTurn := mapSet (part + 1) s.bteTurn (engineKey part q) part }
     let n := chunkLen b [(0, b.dst, b.peer)] r.bytesDone
     b.ssp = 0 ∧ b.dsp = 0 ∧ b.redop = 0 ∧ bteAsks s1 part q r.post.die (chunkPages b r.dests r.bytesDone) = none ∧ readDevice s1 part (b.src + BitVec.ofNat 64 r.bytesDone) n = .ok bytes [] ∧
     (bytes.any fun p => p.2) = false ∧ issueAll s1 part .bte (chunkRequests s1 part b [(0, b.dst, b.peer)] r.bytesDone) = some u ∧
     destPas u part .write (b.dst + BitVec.ofNat 64 r.bytesDone) n = .ok pas ∧ r.bytesDone + n = b.len) := by
  have hn : chunkLen (descOf (brunT 0xFFFF0 false).desc) [(0, (descOf (brunT 0xFFFF0 false).desc).dst, (descOf (brunT 0xFFFF0 false).desc).peer)] 0xFFFF0 = 16 := by
    decide +kernel
  have hs : (descOf (brunT 0xFFFF0 false).desc).src = 0x1000004000 := by decide +kernel
  have hd : (descOf (brunT 0xFFFF0 false).desc).dst = 0x1000005000 := by decide +kernel
  obtain ⟨u, bytes, pas, h0, h1, h2, h3⟩ := move_of' (s1 := tturn) (n := 16)
    (l := chunkRequests tturn 0 (descOf (brunT 0xFFFF0 false).desc)
      [(0, (descOf (brunT 0xFFFF0 false).desc).dst, (descOf (brunT 0xFFFF0 false).desc).peer)] 0xFFFF0)
    (src := 0x1000004000 + BitVec.ofNat 64 0xFFFF0) (dst := 0x1000005000 + BitVec.ofNat 64 0xFFFF0) (by decide +kernel)
  refine ⟨tcopy, 0, 2, brunT 0xFFFF0 false, bytes, pas, u, by decide +kernel, by decide +kernel, by decide +kernel, rfl, rfl, by decide +kernel, rfl, ?_⟩
  dsimp only
  refine ⟨by decide +kernel, by decide +kernel, by decide +kernel, bteAsks_none _ _ _ _ _ rfl rfl, ?_, h2, h0, ?_, ?_⟩
  · rw [show (brunT 0xFFFF0 false).bytesDone = 0xFFFF0 from rfl, hn, hs]; exact h1
  · rw [show (brunT 0xFFFF0 false).bytesDone = 0xFFFF0 from rfl, hn, hd]; exact h3
  · rw [show (brunT 0xFFFF0 false).bytesDone = 0xFFFF0 from rfl, hn]; decide +kernel
/-- Queue 2 with an ended copy, and its ring's TAIL and HEAD and the lock's byte. -/
def tring (tail head lock : Nat) : State :=
  tbte [(2, { items := [.post bpostT], run := some (brunT 0x100000 true) })] ([(4096, 1), (4097, 32), (8192, 1), (8193, 48), (12800, 31), (12804, 16)] ++
    (if lock = 0 then [] else [(0x1000003008, BitVec.ofNat 8 lock)]) ++ (if head = 0 then [] else [(0x100000300C, BitVec.ofNat 8 head)]) ++
    (if tail = 0 then [] else [(0x1000003010, BitVec.ofNat 8 tail)]))
/-- The same in a later phase. -/
def tphase (ph : Nat) : State :=
  modPart (tring 3 1 0) 0 fun p => { p with bte := [(2, { items := [.post bpostT], run := some { brunT 0x100000 true with phase := ph, tail := 3 } })] }
theorem ring_page : OnPage 0x1000003000 64 := by unfold OnPage; decide +kernel
theorem ring_ctl : vaRead (tring 3 1 0) 0 0x1000003000 64 = some (3 * 2 ^ 128 + 2 ^ 96) := by
  rw [page_read (by decide +kernel) (by decide +kernel) rfl (.inl (by decide +kernel)) ring_page]; decide +kernel
theorem ring_locked : vaRead (tring 3 1 0x20) 0 0x1000003000 64 = some (3 * 2 ^ 128 + 2 ^ 96 + 2 ^ 69) := by
  rw [page_read (by decide +kernel) (by decide +kernel) rfl (.inl (by decide +kernel)) ring_page]; decide +kernel
theorem ring_full : vaRead (tring 17 1 0) 0 0x1000003000 64 = some (17 * 2 ^ 128 + 2 ^ 96) := by
  rw [page_read (by decide +kernel) (by decide +kernel) rfl (.inl (by decide +kernel)) ring_page]; decide +kernel
theorem ring_last : vaRead (tphase 2) 0 0x1000003000 64 = some (3 * 2 ^ 128 + 2 ^ 96) := by
  rw [page_read (by decide +kernel) (by decide +kernel) rfl (.inl (by decide +kernel)) ring_page]; decide +kernel
theorem witness_DescriptorsComplete :
    (∃ s part q r n u, bteHeld s part q = false ∧ (bteOf s part q).run = some r ∧ r.ended = true ∧ r.awaiting = 0 ∧ r.phase = 0 ∧
      bteAsks s part q r.post.die (ringPages r) = none ∧ vaRead s part r.post.c 64 = some n ∧ ringBad n = false ∧ n.testBit 69 = false ∧
      (field n 159 128 + 2 ^ 32 - field n 127 96) % 2 ^ 32 < 2 ^ r.post.rlog ∧ engWrite s part (r.post.c + 8) 1 (field n 68 64 + 32) = some u) ∧
    (∃ s part q r n, bteHeld s part q = false ∧ (bteOf s part q).run = some r ∧ r.ended = true ∧ r.awaiting = 0 ∧ r.phase = 0 ∧
      bteAsks s part q r.post.die (ringPages r) = none ∧ vaRead s part r.post.c 64 = some n ∧ ringBad n = false ∧ n.testBit 69 = true) ∧
    (∃ s part q r n, bteHeld s part q = false ∧ (bteOf s part q).run = some r ∧ r.ended = true ∧ r.awaiting = 0 ∧ r.phase = 0 ∧
      bteAsks s part q r.post.die (ringPages r) = none ∧ vaRead s part r.post.c 64 = some n ∧ ringBad n = false ∧ n.testBit 69 = false ∧
      2 ^ r.post.rlog = (field n 159 128 + 2 ^ 32 - field n 127 96) % 2 ^ 32) ∧
    (∃ s part q r, bteHeld s part q = false ∧ (bteOf s part q).run = some r ∧ r.ended = true ∧ r.awaiting = 0 ∧
      (bteAsks s part q r.post.die (ringPages r)).isSome = true) ∧
    (∃ s part, (getPart s part).squall = true) ∧ (∃ s part, (getPart s part).squall = false ∧ (getPart s part).st = .running) := by
  obtain ⟨u, hu⟩ := some_of (show (engWrite (tring 3 1 0) 0 0x1000003008 1 32).isSome = true by decide +kernel)
  exact ⟨⟨tring 3 1 0, 0, 2, brunT 0x100000 true, 3 * 2 ^ 128 + 2 ^ 96, u, by decide +kernel, by decide +kernel, rfl, rfl, rfl, bteAsks_none _ _ _ _ _ rfl rfl, ring_ctl, by decide +kernel,
      by decide +kernel, by decide +kernel, hu⟩,
    ⟨tring 3 1 0x20, 0, 2, brunT 0x100000 true, 3 * 2 ^ 128 + 2 ^ 96 + 2 ^ 69, by decide +kernel, by decide +kernel, rfl, rfl, rfl, bteAsks_none _ _ _ _ _ rfl rfl, ring_locked, by decide +kernel,
      by decide +kernel⟩,
    ⟨tring 17 1 0, 0, 2, brunT 0x100000 true, 17 * 2 ^ 128 + 2 ^ 96, by decide +kernel, by decide +kernel, rfl, rfl, rfl, bteAsks_none _ _ _ _ _ rfl rfl, ring_full, by decide +kernel,
      by decide +kernel, by decide +kernel⟩,
    ⟨modPart (tring 3 1 0) 0 fun p => { p with prq := true, bte := [(2, { items := [.post bpostT], run := some { brunT 0x100000 true with post := { bpostT with c := 0x2000000000 } } })] },
      0, 2, _, by decide +kernel, rfl, rfl, rfl, by decide +kernel⟩,
    ⟨tsq [], 0, by decide +kernel⟩, ⟨t0, 0, by decide +kernel⟩⟩
theorem witness_DescriptorsComplete_record : (∃ s part q r u, (bteOf s part q).run = some r ∧ r.ended = true ∧ r.awaiting = 0 ∧ r.phase = 1 ∧
      engWrite s part (r.post.rbase + BitVec.ofNat 64 (32 * (r.tail % 2 ^ r.post.rlog))) 32 (completionRecord r) = some u) ∧
    (∃ s part q r n u v, (bteOf s part q).run = some r ∧ r.ended = true ∧ r.awaiting = 0 ∧ r.phase = 2 ∧ vaRead s part r.post.c 64 = some n ∧
      engWrite s part (r.post.c + 16) 4 ((field n 159 128 + 1) % 2 ^ 32) = some u ∧ engWrite u part (r.post.c + 8) 1 (field n 68 64) = some v) := by
  obtain ⟨u, hu⟩ := some_of (show (engWrite (tphase 1) 0 (0x1000003400 + BitVec.ofNat 64 96) 32
    (completionRecord { brunT 0x100000 true with phase := 1, tail := 3 })).isSome = true by decide +kernel)
  obtain ⟨v, hv⟩ := some_of (show ((engWrite (tphase 2) 0 0x1000003010 4 4).bind fun u => engWrite u 0 0x1000003008 1 0).isSome = true by decide +kernel)
  obtain ⟨w, hw, hv⟩ := Option.bind_eq_some_iff.mp hv
  exact ⟨⟨tphase 1, 0, 2, { brunT 0x100000 true with phase := 1, tail := 3 }, u, by decide +kernel, rfl, rfl, rfl, hu⟩,
    ⟨tphase 2, 0, 2, { brunT 0x100000 true with phase := 2, tail := 3 }, _, w, v, by decide +kernel, rfl, rfl, rfl, ring_last, hw, hv⟩⟩
theorem witness_PeersAreServed :
    (∃ (s : State) (part : Nat) (rkey : Word) (va : DWord) (bytes : List Byte) (pas : List Nat), rkey = (getPart s part).rkey ∧ bytes ≠ [] ∧
      destPas s part .write va bytes.length = .ok pas) ∧
    (∃ (s : State) (part : Nat) (rkey : Word), rkey ≠ (getPart s part).rkey) ∧
    (∃ (s : State) (part : Nat) (rkey : Word) (va : DWord) (len : Nat) (l : List (Byte × Bool)), rkey = (getPart s part).rkey ∧ len ≠ 0 ∧
      readDevice s part va len = .ok l []) := by
  obtain ⟨bytes, pas, h1, h2, h3⟩ := move_of (s := tpt (fun p => { p with rkey := 5 }) (walkT 0 false)) (n := 2) (src := 0x1000004000) (dst := 0x1000005000)
    (by decide +kernel)
  exact ⟨⟨tpt (fun p => { p with rkey := 5 }) (walkT 0 false), 0, 5, 0x1000005000, [1, 2], pas, by decide +kernel, by decide +kernel, h3⟩,
    ⟨tpt (fun p => { p with rkey := 5 }) (walkT 0 false), 0, 6, by decide +kernel⟩,
    ⟨tpt (fun p => { p with rkey := 5 }) (walkT 0 false), 0, 5, 0x1000004000, 2, bytes, by decide +kernel, by decide +kernel, h1⟩⟩
/-- A request of queue 2's descriptor to queue pair 9. -/
def rdmaT (isRead : Bool) (retries : Nat) : Rdma :=
  { qp := 9, part := 0, q := 2, isColl := false, isRead := isRead, dst := 0x1000005000, len := 2, retries := retries }
/-- The request is out. -/
def trdma (r : Rdma) : State :=
  { tbte [(2, { items := [.post bpostT], run := some { brunT 0x100000 true with awaiting := 1 } })] (memB 0 0 0) with rdma := [r] }
theorem witness_PeersAnswer :
    (∃ s qp ok r u, s.rdma.find? (fun r => r.qp == qp && (!ok || !r.isRead)) = some r ∧ r.isColl = false ∧ r.bad = false ∧
      (bteOf s r.part r.q).run = some u ∧ ok = true) ∧
    (∃ s qp ok r u, s.rdma.find? (fun r => r.qp == qp && (!ok || !r.isRead)) = some r ∧ r.isColl = false ∧ r.bad = false ∧
      (bteOf s r.part r.q).run = some u ∧ ok = false) ∧
    (∃ s : State, ∃ qp r, s.rdma.find? (fun r => r.qp == qp) = some r ∧ r.retries < 7) ∧
    (∃ s qp r u, s.rdma.find? (fun r => r.qp == qp) = some r ∧ 7 ≤ r.retries ∧ r.isColl = false ∧ (bteOf s r.part r.q).run = some u) ∧
    (∃ s : State, ∃ qp, ∃ bytes : List Byte, ∃ r pas, s.rdma.find? (fun r => r.qp == qp && r.isRead) = some r ∧ r.isColl = false ∧ bteHeld s r.part r.q = false ∧ bytes.length = r.len ∧
      destPas s r.part .write r.dst r.len = .ok pas) ∧
    (∃ s qp r, s.rdma.find? (fun r => r.qp == qp && r.isRead) = some r ∧ bteHeld s r.part r.q = true) ∧
    (∃ s qp, qpRoom s qp = true) ∧ (∃ port prio : Nat, port = 31 ∧ prio = 7 ∧ port < 32 ∧ prio < 8) ∧ (∃ port : Nat, 32 ≤ port) := by
  obtain ⟨_, pas, _, _, h3⟩ := move_of (s := trdma (rdmaT true 0)) (n := 2) (src := 0x1000004000) (dst := 0x1000005000) (by decide +kernel)
  exact ⟨⟨trdma (rdmaT false 0), 9, true, rdmaT false 0, { brunT 0x100000 true with awaiting := 1 }, by decide +kernel⟩,
    ⟨trdma (rdmaT true 0), 9, false, rdmaT true 0, { brunT 0x100000 true with awaiting := 1 }, by decide +kernel⟩,
    ⟨trdma (rdmaT false 6), 9, rdmaT false 6, by decide +kernel⟩,
    ⟨trdma (rdmaT false 7), 9, rdmaT false 7, { brunT 0x100000 true with awaiting := 1 }, by decide +kernel⟩,
    ⟨trdma (rdmaT true 0), 9, [1, 2], rdmaT true 0, pas, by decide +kernel, rfl, by decide +kernel, rfl, h3⟩,
    ⟨modPart (trdma (rdmaT true 0)) 0 fun p => { p with bte := [(2, { stopped := true })] }, 9, rdmaT true 0, by decide +kernel⟩,
    ⟨t0, 9, by decide +kernel⟩, ⟨31, 7, by decide⟩, ⟨32, le_rfl⟩⟩
theorem witness_HostAccesses :
    (∃ s fn part pa len, part = fnPart s fn ∧ presented s = true ∧ pageByte (getPart s part) part pa = none ∧ len = 8 ∧
      ∀ j, j < len → inShare (getPart s part).lay (pa + j) = true ∧ linePoisoned s (pa + j) = false) ∧
    (∃ (s : State) (fn part pa : Nat) (l : List Byte), part = fnPart s fn ∧ presented s = true ∧ pageByte (getPart s part) part pa = none ∧ l.length = 2 ∧
      (∀ j, j < l.length → inShare (getPart s part).lay (pa + j) = true) ∧ hitsLive s (l.zipIdx.map fun b => (pa + b.2, 1)) = false) ∧
    (∃ (s : State) (fn part pa : Nat) (l : List Byte), part = fnPart s fn ∧ pageByte (getPart s part) part pa = none ∧ ∃ j, j < l.length ∧ inShare (getPart s part).lay (pa + j) = false) ∧
    (∃ (s : State) (fn part pa : Nat) (l : List Byte), part = fnPart s fn ∧ pageByte (getPart s part) part pa = none ∧ hitsLive s (l.zipIdx.map fun b => (pa + b.2, 1)) = true) ∧
    (∃ s fn part pa, part = fnPart s fn ∧ presented s = true ∧ (pageByte (getPart s part) part pa).isSome = true) ∧
    (∃ s fn part off, ∃ l : List Byte, part = fnPart s fn ∧ presented s = true ∧ part = 7 ∧ off < 0x10000 ∧ l.length = 8) ∧ (∃ s, presented s = false) ∧
    (∃ (s : State) (fn : Nat), ∀ f ∈ s.fns, f.1 ≠ fn) :=
  ⟨⟨t0, 0, 0, 0x1FFFFFFFFF8, 8, by decide +kernel⟩, ⟨t0, 0, 0, 0x1FFFFFFFFFE, [1, 2], by decide +kernel⟩,
   ⟨t0, 0, 0, 0x1FFFFFFFFFF, [1, 2], by decide +kernel, by decide +kernel, 1, by decide +kernel⟩,
   ⟨{ t0 with live := [(0x1FFFFFFFFF, true)] }, 0, 0, 0x1FFFFFFFFEF, [1, 2], by decide +kernel⟩,
   ⟨t0, 7, 7, 0xE00000007FFFF, by decide +kernel⟩, ⟨t0, 7, 7, 0xFFF8, List.replicate 8 0, by decide +kernel⟩, ⟨thidden, by decide +kernel⟩, ⟨State.reset, 3, by decide⟩⟩

/-! ## Collectives -/

/-- A collective of queue 0 whose program stands at 0x1000000100. -/
def collT (unacked : Nat) : CollRun := { q := 0, pseq := 1, prog := 0x1000000100, lbase := 0x1000000200, sigw := 0, comm := 0, unacked := unacked }
/-- A partition of two ranks with that collective, whose step is `kind` with a target of 3 or a counter limit of 2. -/
def tcoll (c : CollRun) (step : List Host.Cell) : State :=
  { modPart (tpk [{ pkE (pk 2 0x1000000100 0x1000000200) with started := true }]) 0 fun p => { p with colls := [c], comms := [(0, { nrank := 2, ptab := 0x1000000300 })] } with
    mem := [(4096, 1), (4097, 32), (8192, 1), (8193, 48), (12800, 31), (12804, 16)] ++ step }
/-- NEXT; LOOP with a limit of 2 and target 3; COPY of 4 bytes; SEND of 4 bytes to the next rank. -/
def nextSt : CStep := stepOf 7
def loopSt : CStep := stepOf (6 + 2 ^ 64 * 2 + 2 ^ 96 * 3)
def sendSt : CStep := stepOf (1 + 2 ^ 16 + 2 ^ 32 * 4)
theorem witness_CollectivesStep :
    (∃ s part q c st s1 d, CollAt s part q c st ∧ st.sop = 6 ∧ signalStep part c st (stepWork s part c st) = .ok s1 d) ∧
    (∃ s part q c st s1 d, CollAt s part q c st ∧ st.sop = 7 ∧ signalStep part c st (stepWork s part c st) = .ok s1 d) ∧
    (∃ (c : CollRun) (st : CStep), mapGet 0 c.lc st.lc + 1 < st.loff) ∧ (∃ (c : CollRun) (st : CStep), st.loff = mapGet 0 c.lc st.lc + 1) ∧
    (∃ s part c st s1 d, sendChunk s part c st = .ok s1 d) ∧ (∃ s part c st s1 d, takeArrival s part c st = .ok s1 d) := by
  have hs : (match sendChunk (tcoll (collT 0) []) 0 (collT 0) sendSt with
    | .ok _ _ => true
    | _ => false) = true := by decide +kernel
  have hr : (match takeArrival (tcoll (collT 0) []) 0 { collT 0 with arrivals := [⟨1, 0, 0x1000000200, 4⟩] } sendSt with
    | .ok _ _ => true
    | _ => false) = true := by decide +kernel
  refine
  ⟨⟨tcoll (collT 0) [(0x1000000100, 6), (0x1000000108, 2), (0x100000010C, 3)], 0, 0, collT 0, loopSt, _, loopStep (collT 0) loopSt, by
      unfold CollAt; decide +kernel, by decide +kernel, rfl⟩,
   ⟨tcoll (collT 0) [(0x1000000100, 7)], 0, 0, collT 0, nextSt, _, collT 0, by unfold CollAt; decide +kernel, by decide +kernel, rfl⟩,
   ⟨collT 0, loopSt, by decide +kernel⟩, ⟨{ collT 0 with lc := [(0, 1)] }, loopSt, by decide +kernel⟩, ?_, ?_⟩
  · split at hs
    · exact ⟨_, _, _, _, _, _, by assumption⟩
    · cases hs
  · split at hr
    · exact ⟨_, _, _, _, _, _, by assumption⟩
    · cases hr

/-! ## Values at the bounds of their ranges -/

/-- Clauses of IntegerValues: the last element of a packed type, and an integer type of one element. -/
theorem witness_IntegerValues : (∃ t k, t ∈ intTypes ∧ k < (eltShape t).1 ∧ k = 3) ∧ (∃ t k, t ∈ intTypes ∧ k < (eltShape t).1 ∧ (eltShape t).1 = 1) :=
  ⟨⟨.n8x4, 3, by decide +kernel⟩, ⟨.i64, 0, by decide +kernel⟩⟩
/-- R55: the last element of a packed sum at both ends of its range. -/
theorem test_elements_saturate : eltVal .i8x4 (eltOp true .i8x4 (· + ·) 0x7F000000 0x01000000) 3 = 127 ∧
    eltVal .i8x4 (eltOp true .i8x4 (· - ·) 0x80000000 0x01000000) 3 = -128 ∧
    eltVal .n8x4 (eltOp true .n8x4 (· - ·) 0 0x01000000) 3 = 0 := by decide +kernel
end Sys2Proof.Machine
end

section
/-! Memory and the pool: a read after a write, and what a write leaves alone (R3, R146, R238). -/
namespace Sys2Proof.Machine

theorem mapSets_append {α : Type} [DecidableEq α] (d : α) (m : SMap α) (k l : List (Nat × α)) :
    mapSets d m (k ++ l) = mapSets d (mapSets d m k) l := List.foldl_append

theorem bytesAt_succ (a n v : Nat) : bytesAt a (n + 1) v = bytesAt a n v ++ [(a + n, BitVec.ofNat 8 (v / 256 ^ n))] := by
  simp [bytesAt, List.range_succ]

/-- Little-endian bytes written into a map of bytes: those of the number in their range, every other key as before. -/
theorem mapGet_mapSets_bytesAt (d : Byte) (m : SMap Byte) (a n v b : Nat) :
    mapGet d (mapSets d m (bytesAt a n v)) b =
      if a ≤ b ∧ b < a + n then BitVec.ofNat 8 (v / 256 ^ (b - a)) else mapGet d m b := by
  induction n with
  | zero => rw [if_neg (by omega)]; rfl
  | succ n ih =>
    rw [bytesAt_succ, mapSets_append]
    change mapGet d (mapSet d _ _ _) b = _
    rw [mapGet_mapSet, ih]
    by_cases hb : b = a + n
    · subst hb
      rw [if_pos rfl, if_pos (by omega), Nat.add_sub_cancel_left]
    · rw [if_neg hb]
      exact if_congr (by omega) rfl rfl

/-- The pool reads back the bytes written to it and keeps the others (R146). -/
theorem lbyte_lwrite (k : Core) (a n v b : Nat) :
    lbyte (lwrite k a n v) b = if a ≤ b ∧ b < a + n then BitVec.ofNat 8 (v / 256 ^ (b - a)) else lbyte k b :=
  mapGet_mapSets_bytesAt 0 k.lmem a n v b

theorem mem_bytesAt_of_range (a n v : Nat) {b : Nat} (h1 : a ≤ b) (h2 : b < a + n) : ∃ x, (b, x) ∈ bytesAt a n v :=
  ⟨_, List.mem_map.2 ⟨b - a, List.mem_range.2 (by omega), by rw [Nat.add_sub_cancel' h1]⟩⟩

/-- A word of which a byte is written is no longer poisoned (log 11). -/
theorem lputs_clears_poison (k : Core) (l : List (Nat × Byte)) {b : Nat} {x : Byte} (h : (b, x) ∈ l) : b / 4 ∉ (lputs k l).lpoison := by
  intro hb
  obtain ⟨-, hn⟩ := List.mem_filter.1 hb
  have : (l.any fun p => p.1 / 4 == b / 4) = true := List.any_eq_true.2 ⟨(b, x), h, beq_self_eq_true _⟩
  simp [this] at hn

/-- A byte that is written reads back, and no other address changes. -/
theorem memoryReadsWrites : Says.MemoryReadsWrites := fun s a b k => memByte_memPut s a k b

theorem poolReadsWrites : Says.PoolReadsWrites := fun k a n v b =>
  ⟨lbyte_lwrite k a n v b,
   fun h1 h2 => (mem_bytesAt_of_range a n v h1 h2).elim fun _ h => lputs_clears_poison k _ h,
   rfl⟩

/-- Settles O10: memory by the law of sparse maps, the pool by induction on the number of bytes written. -/
theorem memoryAndPoolReadWrites : Obligations.MemoryAndPoolReadWrites := ⟨memoryReadsWrites, poolReadsWrites⟩

end Sys2Proof.Machine
end

section
/-! Where a result goes: the registers and predicates of one group, and what the write leaves alone (R7, R40, R42, R54, R75, R77). -/
namespace Sys2Proof.Machine

/-! ## Vector destinations -/

theorem dstGroup_v_narrow (g : Group) (n : Fin 768) (m : Lanes) (r : Row64) :
    dstGroup g (.v n) false m r = vwrite g n.val m fun l => loWord (lane64 r l) := rfl

theorem dstGroup_v_wide (g : Group) (n : Fin 768) (m : Lanes) (r : Row64) :
    dstGroup g (.v n) true m r = vwrite (dstGroup g (.v n) false m r) (n.val + 1) m fun l => hiWord (lane64 r l) := rfl

theorem vlane_dstGroup_v_lo (g : Group) (n : Fin 768) (wide : Bool) (m : Lanes) (r : Row64) {l : Nat} (hl : l < 64) :
    vlane (dstGroup g (.v n) wide m r) n.val l = if m.getLsbD l then (lane64 r l).setWidth 32 else vlane g n.val l := by
  cases wide with
  | false => simp [dstGroup_v_narrow, vlane_vwrite _ _ _ _ _ hl, loWord]
  | true => simp [dstGroup_v_wide, dstGroup_v_narrow, vlane_vwrite _ _ _ _ _ hl, loWord]

theorem vlane_dstGroup_v_hi (g : Group) (n : Fin 768) (wide : Bool) (m : Lanes) (r : Row64) {l : Nat} (hl : l < 64) :
    vlane (dstGroup g (.v n) wide m r) (n.val + 1) l =
      if wide && m.getLsbD l then (lane64 r l).extractLsb' 32 32 else vlane g (n.val + 1) l := by
  cases wide with
  | false => simp [dstGroup_v_narrow, vlane_vwrite _ _ _ _ _ hl]
  | true => simp [dstGroup_v_wide, dstGroup_v_narrow, vlane_vwrite _ _ _ _ _ hl, hiWord]

theorem vreg_dstGroup_v_ne (g : Group) (n : Fin 768) (wide : Bool) (m : Lanes) (r : Row64) {k : Nat} (h1 : k ≠ n.val) (h2 : k ≠ n.val + 1) :
    vreg (dstGroup g (.v n) wide m r) k = vreg g k := by
  cases wide with
  | false => simp [dstGroup_v_narrow, vreg_vwrite, h1]
  | true => simp [dstGroup_v_wide, dstGroup_v_narrow, vreg_vwrite, h1, h2]

theorem vwrite_frame (g : Group) (n : Nat) (m : Lanes) (f : Nat → Word) : { vwrite g n m f with vregs := [] } = { g with vregs := [] } := by
  simp only [vwrite]

/-- A write to vector registers leaves every other part of the group alone. -/
theorem dstGroup_v_frame (g : Group) (n : Fin 768) (wide : Bool) (m : Lanes) (r : Row64) :
    { dstGroup g (.v n) wide m r with vregs := [] } = { g with vregs := [] } := by
  cases wide with
  | false => rw [dstGroup_v_narrow, vwrite_frame]
  | true => rw [dstGroup_v_wide, vwrite_frame, dstGroup_v_narrow, vwrite_frame]

theorem vectorDestination : Says.VectorDestination := fun g n wide m r =>
  ⟨fun _ hl => vlane_dstGroup_v_lo g n wide m r hl, fun _ hl => vlane_dstGroup_v_hi g n wide m r hl,
   fun _ h1 h2 => vreg_dstGroup_v_ne g n wide m r h1 h2, dstGroup_v_frame g n wide m r⟩

/-! ## Scalar destinations -/

theorem dstGroup_s_empty (g : Group) (n : Fin 32) (wide : Bool) (r : Row64) : dstGroup g (.s n) wide 0 r = g := rfl

theorem dstGroup_s_narrow (g : Group) (n : Fin 32) {m : Lanes} (r : Row64) (hm : m ≠ 0) :
    dstGroup g (.s n) false m r = swrite g n.val (loWord (lane64 r (lowLane m))) := if_neg hm

theorem dstGroup_s_wide (g : Group) (n : Fin 32) {m : Lanes} (r : Row64) (hm : m ≠ 0) :
    dstGroup g (.s n) true m r = swrite (swrite g n.val (loWord (lane64 r (lowLane m)))) (n.val + 1) (hiWord (lane64 r (lowLane m))) :=
  if_neg hm

theorem scalarDestination : Says.ScalarDestination := by
  refine fun g n wide m r => ⟨fun hm => hm ▸ dstGroup_s_empty g n wide r, fun hm => ?_⟩
  cases wide with
  | false =>
    rw [dstGroup_s_narrow g n r hm]
    exact ⟨by simp [sreg_swrite, loWord], by simp [sreg_swrite], fun k h1 _ => by simp [sreg_swrite, h1], rfl⟩
  | true =>
    rw [dstGroup_s_wide g n r hm]
    exact ⟨by simp [sreg_swrite, loWord], by simp [sreg_swrite, hiWord], fun k h1 h2 => by simp [sreg_swrite, h1, h2], rfl⟩

/-! ## Predicates -/

theorem predGroup_seven (g : Group) (m b : Lanes) : predGroup g 7 m b = g := rfl

theorem predGroup_frame (g : Group) (k : Nat) (m b : Lanes) : { predGroup g k m b with preds := [] } = { g with preds := [] } := by
  unfold predGroup
  split <;> rfl

theorem predRow_predGroup_ne (g : Group) {k j : Nat} (m b : Lanes) (h : j ≠ k) : predRow (predGroup g k m b) j = predRow g j := by
  rw [predRow_predGroup]
  by_cases hj : j = 7
  · rw [if_pos hj, hj]; rfl
  · rw [if_neg hj, if_neg h]

theorem predicateDestination : Says.PredicateDestination := fun g k m b =>
  ⟨rfl, predGroup_seven g m b, fun hk => by rw [predRow_predGroup, if_neg hk, if_pos rfl],
   fun _ hj => predRow_predGroup_ne g m b hj, predGroup_frame g k m b⟩

/-- Settles O15: each kind of destination by the laws of reads after register and predicate writes. -/
theorem destinationWrites : Obligations.DestinationWrites := ⟨vectorDestination, scalarDestination, predicateDestination⟩

/-! ## The rest of the machine -/

theorem writeDst_nw (x : Ctx) (o : Opnd) (wide : Bool) (r : Row64) (s : State) : writeDst x o wide true r s = s := rfl

theorem writeDst_write (x : Ctx) (o : Opnd) (wide : Bool) (r : Row64) (s : State) :
    writeDst x o wide false r s = modGroup s x.core x.slot fun g => dstGroup g o wide x.act r := rfl

/-- A changed group leaves every core's state but its groups alone. -/
theorem getCore_modGroup_frame (s : State) (c k d : Nat) (f : Group → Group) :
    { getCore (modGroup s c k f) d with slots := [] } = { getCore s d with slots := [] } := by
  cases hg : getGroup s c k with
  | none => rw [modGroup_none f hg]
  | some g =>
    rw [modGroup_some f hg, getCore_modCore]
    split
    · next hd => rw [hd]
    · rfl

theorem modGroup_frame (s : State) (c k : Nat) (f : Group → Group) : { modGroup s c k f with cores := [] } = { s with cores := [] } := by
  rw [modGroup_eq]

theorem memByte_modGroup (s : State) (c k a : Nat) (f : Group → Group) : memByte (modGroup s c k f) a = memByte s a := by
  rw [memByte, modGroup_mem]; rfl

theorem writeDst_touches_one_group : Says.DestinationFrame := by
  intro x o wide nw r s
  cases nw with
  | true =>
    rw [writeDst_nw]
    exact ⟨fun _ => rfl, fun _ _ _ => rfl, fun _ _ h => Bool.noConfusion h, fun _ => rfl, fun _ => rfl, rfl⟩
  | false =>
    rw [writeDst_write]
    exact ⟨Bool.noConfusion, fun c k h => getGroup_modGroup_ne s _ _ c k _ h,
      fun g hg _ => by rw [getGroup_modGroup_self, hg]; rfl,
      fun a => memByte_modGroup s _ _ a _, fun c => getCore_modGroup_frame s _ _ c _, modGroup_frame s _ _ _⟩

theorem commitSources_none {x : Ctx} {r : Rules} {c : Enc} (left added : List LvEnt) (s : State)
    (hp : portOf r c = none) (hs : x.g.shadow = .none) : commitSources x r c left added s = s := by
  simp only [commitSources, hp, hs]

theorem lvPush_none (s : State) (core slot : Nat) (e : LvEnt) : lvPush s core slot .none e = s := rfl

theorem sourcesAreReadOnly : Says.SourcesAreReadOnly := by
  intro x i c left added r s hp hs
  simp only [sourced, commitSources_none left added s hp hs, hs, lvPush_none, ite_self]

/-- Settles O16: a destination's write is a change of one group, and sources with no port and no pair commit nothing. -/
theorem destinationFrame : Obligations.DestinationFrame := ⟨writeDst_touches_one_group, sourcesAreReadOnly⟩

end Sys2Proof.Machine
end

section
/-! Instructions that compute lane by lane complete with their results (R78, R81 to R94). -/
namespace Sys2Proof.Machine

/-- What an issue leaves whose own part has written a result: the effects of its sources, and scheduling. -/
theorem kept_finish_fin (x : Ctx) (i : Instr) (c : Enc) (s s1 : State) (left added : List LvEnt) (r : Row64) :
    Kept (sourced x i c left added r s1) (finish x i c s left added (.fin s1 r)) := kept_complete _ _ _ _ _ _

/-- An instruction whose own part computes a row completes with it. -/
theorem computes_of_body {i : Instr} {c : Enc} {wide : Bool} {f : LaneFn} (body : Ctx → Srcs → State → Res)
    (he : ∀ s, exec i s = issue i c body s) (hb : ∀ x v s, body x v s = compute x c wide (f x v) s) : Computes i c wide f := by
  intro s x v left added h
  refine ⟨finish x i c s left added (compute x c wide (f x v) s), ?_, kept_finish_fin ..⟩
  rw [he, issue, issueState_ready body h, hb]

theorem computes_lane2 {i : Instr} {c : Enc} {t : Ty} {f : DWord → DWord → DWord} (he : ∀ s, exec i s = lane2 i c t f s) :
    Computes i c (tyIs64 t) (ofYZ f) := computes_of_body _ he fun _ _ _ => rfl

theorem computes_lane1 {i : Instr} {c : Enc} {t : Ty} {f : DWord → DWord} (he : ∀ s, exec i s = lane1 i c t f s) :
    Computes i c (tyIs64 t) (ofY f) := computes_of_body _ he fun _ _ _ => rfl

theorem computes_lane3 {i : Instr} {c : Enc} {t : Ty} {f : DWord → DWord → DWord → DWord} (he : ∀ s, exec i s = lane3 i c t f s) :
    Computes i c (tyIs64 t) (ofYZW f) := computes_of_body _ he fun _ _ _ => rfl

/-- MOV whose X is no send port (R80). -/
theorem computes_mov (c : Enc) (t : Ty) (hx : isPort c.x = false) : Computes (.mov c t) c (tyIs64 t) (ofY id) := by
  refine computes_of_body _ (fun s => exec_mov c t s) fun x v s => ?_
  cases hc : c.x with
  | mq n => rw [hc] at hx; cases hx
  | _ => rfl

/-- BSEL with a selector that uses no reserved code (R94). -/
theorem computes_bsel (c : Enc) (h : bselOk c.imm = true) :
    Computes (.bsel c) c false (ofYZ fun a b => BitVec.ofNat 64 (bselBytes c.imm a b 4)) := by
  refine computes_of_body _ (fun s => exec_bsel c s) fun x v s => ?_
  simp only [h, Bool.not_true, Bool.false_eq_true, if_false]
  rfl

/-- Settles O11: an instruction's row of the table is what its own part computes. -/
theorem integerComputes : Obligations.IntegerComputes := by
  intro i c wide f h
  cases i with
  | mov c t =>
    simp only [intFn] at h
    split at h
    · cases h
    · next hx => cases h; exact computes_mov _ _ (Bool.eq_false_iff.2 hx)
  | sel c t => cases h; exact computes_of_body _ (exec_sel _ _) fun _ _ _ => rfl
  | iadd c sat t => cases h; exact computes_lane2 (exec_iadd _ _ _)
  | isub c sat t => cases h; exact computes_lane2 (exec_isub _ _ _)
  | ineg c sat t => cases h; exact computes_lane2 (exec_ineg _ _ _)
  | iabs c sat t => cases h; exact computes_lane2 (exec_iabs _ _ _)
  | imul c t => cases h; exact computes_lane2 (exec_imul _ _)
  | imulh c t => cases h; exact computes_lane2 (exec_imulh _ _)
  | imad c t => cases h; exact computes_lane3 (exec_imad _ _)
  | imin c t => cases h; exact computes_lane2 (exec_imin _ _)
  | imax c t => cases h; exact computes_lane2 (exec_imax _ _)
  | idp4 c sat t => cases h; exact computes_lane3 (exec_idp4 _ _ _)
  | lea c sh t => cases h; exact computes_lane2 (exec_lea _ _ _)
  | bsel c =>
    simp only [intFn] at h
    split at h
    · next hs => cases h; exact computes_bsel _ hs
    · cases h
  | and c t => cases h; exact computes_lane2 (exec_and _ _)
  | or c t => cases h; exact computes_lane2 (exec_or _ _)
  | xor c t => cases h; exact computes_lane2 (exec_xor _ _)
  | andn c t => cases h; exact computes_lane2 (exec_andn _ _)
  | not c t => cases h; exact computes_lane1 (exec_not _ _)
  | ltab c t => cases h; exact computes_lane3 (exec_ltab _ _)
  | shl c cl t => cases h; exact computes_lane2 (exec_shl _ _ _)
  | shr c cl t => cases h; exact computes_lane2 (exec_shr _ _ _)
  | sar c cl t => cases h; exact computes_lane2 (exec_sar _ _ _)
  | rol c t => cases h; exact computes_lane2 (exec_rol _ _)
  | bfx c sg t => cases h; exact computes_lane2 (exec_bfx _ _ _)
  | bfi c t => cases h; exact computes_lane3 (exec_bfi _ _)
  | popc c t => cases h; exact computes_lane1 (exec_popc _ _)
  | clz c t => cases h; exact computes_lane1 (exec_clz _ _)
  | ctz c t => cases h; exact computes_lane1 (exec_ctz _ _)
  | brev c t => cases h; exact computes_lane1 (exec_brev _ _)
  | _ => cases h

end Sys2Proof.Machine
end

section
/-! Requests of peers and the host, and what comes of the device's own (R351, R353, R361, R366 to R368). -/
namespace Sys2Proof.Machine

/-! ## Bytes written at a destination -/

theorem mem_foldl_of_keeps {α : Type} (f : State → α → State) (h : ∀ s a, (f s a).mem = s.mem) (l : List α) (s : State) :
    (l.foldl f s).mem = s.mem := by
  induction l generalizing s with
  | nil => rfl
  | cons a t ih => exact (ih _).trans (h s a)

theorem mem_reportWrite (s : State) (line : Nat) : (reportWrite s line).mem = s.mem := rfl

theorem mem_keepPoison (o : State) (line n : Nat) (s : State) : (keepPoison o line n s).mem = s.mem := by
  unfold keepPoison
  split <;> rfl

theorem mem_putBytes (s : State) (l : List (Nat × Byte × Bool)) :
    (putBytes s l).mem = (memPuts s (l.map fun p => (p.1, p.2.1))).mem := by
  unfold putBytes
  refine (mem_foldl_of_keeps _ mem_reportWrite _ _).trans (mem_foldl_of_keeps _ (fun s p => ?_) _ _)
  split <;> rfl

theorem mem_putAt (s : State) (part : Nat) (va : DWord) (l : List (Nat × Byte × Bool)) :
    (putAt s part va l).mem = (memPuts s (l.map fun p => (p.1, p.2.1))).mem := by
  unfold putAt
  refine (mem_foldl_of_keeps _ (fun t ln => ?_) _ _).trans (mem_putBytes s l)
  dsimp only
  split
  · rfl
  · exact mem_keepPoison _ _ _ _

/-- Placing bytes at a destination changes memory, its poison and the agenda alone. -/
theorem writesOnly_putAt (s : State) (part : Nat) (va : DWord) (l : List (Nat × Byte × Bool)) : WritesOnly s (putAt s part va l) := by
  unfold putAt
  refine (writesOnly_putBytes s l).trans (writesOnly_foldl _ (fun t ln => ?_) _ _)
  dsimp only
  split
  · exact .refl t
  · exact writesOnly_keepPoison _ _ _ _

theorem WritesOnly.wire {s t : State} (h : WritesOnly s t) : t.wire = s.wire := by rw [h.1]
theorem WritesOnly.rdma {s t : State} (h : WritesOnly s t) : t.rdma = s.rdma := by rw [h.1]

/-- Bytes without poison, at their addresses. -/
theorem map_zip_clean (pas : List Nat) (l : List Byte) :
    (pas.zip (l.map fun b => (b, false))).map (fun p => (p.1, p.2.1)) = pas.zip l := by
  rw [List.zip_map_right, List.map_map]
  exact List.map_id' _

theorem mem_putAt_clean (s : State) (part : Nat) (va : DWord) (pas : List Nat) (l : List Byte) :
    (putAt s part va (pas.zip (l.map fun b => (b, false)))).mem = (memPuts s (pas.zip l)).mem := by
  rw [mem_putAt, map_zip_clean]

/-! ## Requests that arrive -/

/-- A write with the partition's key, no immediate and a destination that translates is placed and acknowledged (R367). -/
theorem exec_rdmaWriteArrival_placed {s : State} {part comm src : Nat} {rkey : Word} {va : DWord} {bytes : List Byte} {pas : List Nat}
    (hk : rkey = (getPart s part).rkey) (hd : destPas s part .write va bytes.length = .ok pas) :
    exec (.rdmaWriteArrival part comm src rkey va bytes none) s =
      .next (answer (putAt s part va (pas.zip (bytes.map fun b => (b, false)))) (.ack part)) := by
  simp [execRdmaWriteArrival, writePas, hk, hd]

theorem exec_rdmaWriteArrival_refused {s : State} {part comm src : Nat} {rkey : Word} {va : DWord} {bytes : List Byte}
    (hk : rkey ≠ (getPart s part).rkey) :
    exec (.rdmaWriteArrival part comm src rkey va bytes none) s = .next (answer s (.refused part)) := by
  simp [execRdmaWriteArrival, writePas, hk]

theorem exec_rdmaReadRequest_data {s : State} {part : Nat} {rkey : Word} {va : DWord} {len : Nat} {l : List (Byte × Bool)}
    (hk : rkey = (getPart s part).rkey) (hr : readDevice s part va len = .ok l []) :
    exec (.rdmaReadRequest part rkey va len) s = .next (answer s (.data part (l.map fun b => b.1))) := by
  simp [execRdmaReadRequest, hk, hr]

theorem exec_rdmaReadRequest_refused {s : State} {part : Nat} {rkey : Word} {va : DWord} {len : Nat}
    (hk : rkey ≠ (getPart s part).rkey) :
    exec (.rdmaReadRequest part rkey va len) s = .next (answer s (.refused part)) := by
  simp [execRdmaReadRequest, hk]

theorem peersAreServed : Says.PeersAreServed := by
  refine ⟨fun s part comm src rkey va bytes pas hk hd => ?_, fun _ _ _ _ _ _ _ hk => exec_rdmaWriteArrival_refused hk,
    fun _ _ _ _ _ _ hk hr => exec_rdmaReadRequest_data hk hr, fun _ _ _ _ _ hk => exec_rdmaReadRequest_refused hk, fun _ _ => rfl⟩
  have hw := writesOnly_putAt s part va (pas.zip (bytes.map fun b => (b, false)))
  refine ⟨_, exec_rdmaWriteArrival_placed hk hd, mem_putAt_clean s part va pas bytes, ?_, hw.cores⟩
  rw [answer, hw.wire]

/-! ## The end of a request of a block-transfer engine -/

theorem bteOf_modIdent (s : State) (part p i q : Nat) (f : Ident → Ident) : bteOf (modIdent s part i f) p q = bteOf s p q := by
  rw [bteOf, modIdent, getPart_modPart]
  split
  · next h => rw [h]; rfl
  · rfl

theorem run_modRun (s : State) (part q : Nat) (f : BRun → BRun) :
    (bteOf (modRun s part q f) part q).run = (bteOf s part q).run.map f := by
  rw [modRun, bteOf_modBte, if_pos rfl]

/-- The queue pair's request is gone, its identifier counts one less in flight (R358, R367). -/
def withoutRequest (s : State) (r : Rdma) : State :=
  match r.ident with
  | some i => modIdent { s with rdma := s.rdma.erase r } r.part i (lessInFlight 1)
  | none => { s with rdma := s.rdma.erase r }

theorem withoutRequest_frame (s : State) (r : Rdma) : (withoutRequest s r).rdma = s.rdma.erase r ∧ (withoutRequest s r).mem = s.mem ∧
    (withoutRequest s r).cores = s.cores := by
  unfold withoutRequest
  split <;> exact ⟨rfl, rfl, rfl⟩

theorem bteOf_withoutRequest (s : State) (r : Rdma) (p q : Nat) : bteOf (withoutRequest s r) p q = bteOf s p q := by
  unfold withoutRequest
  split
  · exact bteOf_modIdent _ _ _ _ _ _
  · rfl

/-- What the end of a request does to the run of its descriptor: one answer less is awaited, and a failure leaves STATUS 3 with its code
(R351). -/
def afterRequest (r : Rdma) (fc : Nat) (u : BRun) : BRun :=
  if fc = 0 then { u with awaiting := u.awaiting - 1 }
  else { u with awaiting := u.awaiting - 1, status := 3, fcode := fc, bytesDone := if r.isRead || r.ident.isSome then u.bytesDone else 0 }

theorem endRequest_bte (s : State) {r : Rdma} (fc : Nat) (h : r.isColl = false) :
    endRequest s r fc = post (modRun (withoutRequest s r) r.part r.q (afterRequest r fc)) [.bteCompletion r.part r.q] := by
  simp only [endRequest, h, Bool.false_eq_true, if_false]
  rfl

theorem endRequest_frame (s : State) {r : Rdma} (fc : Nat) (h : r.isColl = false) : (endRequest s r fc).rdma = s.rdma.erase r ∧
    (endRequest s r fc).mem = s.mem ∧ (endRequest s r fc).cores = s.cores ∧ .bteCompletion r.part r.q ∈ (endRequest s r fc).agenda := by
  obtain ⟨h1, h2, h3⟩ := withoutRequest_frame s r
  rw [endRequest_bte s fc h]
  exact ⟨h1, h2, h3, List.mem_append_right _ List.mem_cons_self⟩

theorem run_endRequest {s : State} {r : Rdma} {u : BRun} (fc : Nat) (h : r.isColl = false) (hu : (bteOf s r.part r.q).run = some u) :
    (bteOf (endRequest s r fc) r.part r.q).run = some (afterRequest r fc u) := by
  rw [endRequest_bte s fc h]
  refine (run_modRun _ _ _ _).trans ?_
  rw [bteOf_withoutRequest, hu]
  rfl

theorem afterRequest_awaiting (r : Rdma) (fc : Nat) (u : BRun) : (afterRequest r fc u).awaiting = u.awaiting - 1 := by
  unfold afterRequest
  split <;> rfl

theorem afterRequest_failed (r : Rdma) {fc : Nat} (u : BRun) (h : fc ≠ 0) :
    (afterRequest r fc u).status = 3 ∧ (afterRequest r fc u).fcode = fc := by
  simp [afterRequest, h]

/-! ## What comes of the device's requests -/

theorem exec_rdmaAck_found {s : State} {qp : Nat} {ok : Bool} {r : Rdma}
    (hf : s.rdma.find? (fun r => r.qp == qp && (!ok || !r.isRead)) = some r) (hb : r.bad = false) :
    exec (.rdmaAck qp ok) s = .next (endRequest s r (if ok then 0 else 2)) := by
  simp [execRdmaAck, hf, hb]

theorem rdmaAck_ends_request (s : State) (qp : Nat) (ok : Bool) (r : Rdma) (u : BRun)
    (hf : s.rdma.find? (fun r => r.qp == qp && (!ok || !r.isRead)) = some r) (hc : r.isColl = false) (hb : r.bad = false)
    (hu : (bteOf s r.part r.q).run = some u) :
    ∃ t v, exec (.rdmaAck qp ok) s = .next t ∧ t.rdma = s.rdma.erase r ∧ (bteOf t r.part r.q).run = some v ∧ v.awaiting = u.awaiting - 1 ∧
      (ok = true → v.status = u.status) ∧ (ok = false → v.status = 3 ∧ v.fcode = 2) ∧ .bteCompletion r.part r.q ∈ t.agenda ∧ t.mem = s.mem := by
  obtain ⟨h1, h2, -, h4⟩ := endRequest_frame s (if ok then 0 else 2) hc
  refine ⟨_, _, exec_rdmaAck_found hf hb, h1, run_endRequest _ hc hu, afterRequest_awaiting r _ u, ?_, ?_, h4, h2⟩
  · rintro rfl; rfl
  · rintro rfl; exact afterRequest_failed r u (by decide)

theorem exec_rdmaRetryTimeout_resent {s : State} {qp : Nat} {r : Rdma} (hf : s.rdma.find? (fun r => r.qp == qp) = some r) (hr : r.retries < 7) :
    exec (.rdmaRetryTimeout qp) s =
      .next { s with rdma := s.rdma.map fun u => if u = r then { u with retries := u.retries + 1 } else u } := by
  simp only [exec_rdmaRetryTimeout, execRdmaRetryTimeout, hf, Nat.not_le.2 hr, if_false]

theorem exec_rdmaRetryTimeout_failed {s : State} {qp : Nat} {r : Rdma} (hf : s.rdma.find? (fun r => r.qp == qp) = some r) (hr : 7 ≤ r.retries) :
    exec (.rdmaRetryTimeout qp) s = .next (endRequest s r 1) := by
  simp only [exec_rdmaRetryTimeout, execRdmaRetryTimeout, hf, hr, if_true]

theorem exec_rdmaReadResponse_held {s : State} {qp : Nat} {bytes : List Byte} {r : Rdma}
    (hf : s.rdma.find? (fun r => r.qp == qp && r.isRead) = some r) (hh : bteHeld s r.part r.q = true) :
    exec (.rdmaReadResponse qp bytes) s = .next s := by
  simp only [exec_rdmaReadResponse, execRdmaReadResponse, hf, hh, if_true]

/-- The bytes that a descriptor has moved, with what a READ's data adds (R353). -/
def countBytes (n : Nat) (u : BRun) : BRun := { u with bytesDone := u.bytesDone + n }

theorem exec_rdmaReadResponse_placed {s : State} {qp : Nat} {bytes : List Byte} {r : Rdma} {pas : List Nat}
    (hf : s.rdma.find? (fun r => r.qp == qp && r.isRead) = some r) (hh : bteHeld s r.part r.q = false) (hl : bytes.length = r.len)
    (hd : destPas s r.part .write r.dst r.len = .ok pas) :
    exec (.rdmaReadResponse qp bytes) s =
      .next (endRequest (modRun (putAt s r.part r.dst (pas.zip (bytes.map fun b => (b, false)))) r.part r.q (countBytes bytes.length)) r 0) := by
  have ht : bytes.take r.len = bytes := List.take_of_length_le hl.le
  simp only [exec_rdmaReadResponse, execRdmaReadResponse, hf, hh, Bool.false_eq_true, if_false, ht, hl, hd, if_true]
  rfl

theorem rdmaReadResponse_places_data (s : State) (qp : Nat) (bytes : List Byte) (r : Rdma) (pas : List Nat)
    (hf : s.rdma.find? (fun r => r.qp == qp && r.isRead) = some r) (hc : r.isColl = false) (hh : bteHeld s r.part r.q = false)
    (hl : bytes.length = r.len) (hd : destPas s r.part .write r.dst r.len = .ok pas) :
    ∃ t, exec (.rdmaReadResponse qp bytes) s = .next t ∧ t.mem = (memPuts s (pas.zip bytes)).mem ∧ t.rdma = s.rdma.erase r ∧ t.cores = s.cores := by
  have hw := writesOnly_putAt s r.part r.dst (pas.zip (bytes.map fun b => (b, false)))
  have hm := mem_putAt_clean s r.part r.dst pas bytes
  obtain ⟨h1, h2, h3, -⟩ := endRequest_frame
    (modRun (putAt s r.part r.dst (pas.zip (bytes.map fun b => (b, false)))) r.part r.q (countBytes bytes.length)) 0 hc
  exact ⟨_, exec_rdmaReadResponse_placed hf hh hl hd, h2.trans hm, h1.trans (congrArg (·.erase r) hw.rdma), h3.trans hw.cores⟩

theorem exec_congestionNotification_room {s : State} {qp : Nat} (h : qpRoom s qp = true) :
    exec (.congestionNotification qp) s =
      .next { s with qps := mapSet {} s.qps qp { mapGet {} s.qps qp with slow := (mapGet {} s.qps qp).slow + 1 } } := by
  simp [execCongestionNotification, h]

/-- The priorities that stand paused after a pause frame of an existing port (R26, R367). -/
theorem exec_pfcPause_port (s : State) {port prio : Nat} (on : Bool) (h1 : port < 32) (h2 : prio < 8) :
    exec (.pfcPause port prio on) s = .next { s with
      paused := if on then (if s.paused.contains (port, prio) then s.paused else s.paused ++ [(port, prio)])
        else s.paused.filter (· != (port, prio)) } := by
  simp [execPfcPause, Nat.not_le.2 h1, Nat.not_le.2 h2]

theorem exec_pfcPause_noPort (s : State) {port prio : Nat} (on : Bool) (h : 32 ≤ port ∨ 8 ≤ prio) :
    exec (.pfcPause port prio on) s = .next s := by
  simp [execPfcPause, h]

theorem peersAnswer : Says.PeersAnswer := by
  refine ⟨rdmaAck_ends_request, fun _ _ _ hf hr => exec_rdmaRetryTimeout_resent hf hr, fun s qp r u hf hr hc hu => ?_, rdmaReadResponse_places_data,
    fun _ _ _ _ hf hh => exec_rdmaReadResponse_held hf hh, fun s qp h => ?_, fun s port prio h1 h2 => ?_, fun s port prio h1 h2 => ?_,
    fun s _ _ on h => exec_pfcPause_noPort s on h⟩
  · obtain ⟨h1, -⟩ := endRequest_frame s 1 hc
    obtain ⟨h2, h3⟩ := afterRequest_failed r u (Nat.one_ne_zero)
    exact ⟨_, _, exec_rdmaRetryTimeout_failed hf hr, h1, run_endRequest 1 hc hu, h2, h3⟩
  · exact ⟨_, exec_congestionNotification_room h, by rw [mapGet_mapSet_self], rfl⟩
  · refine ⟨_, exec_pfcPause_port s true h1 h2, ?_, rfl⟩
    by_cases hp : (port, prio) ∈ s.paused <;> simp [hp]
  · exact ⟨_, exec_pfcPause_port s false h1 h2, by simp, rfl⟩

/-! ## The host's port -/

theorem mapGet_of_absent {α : Type} (d : α) {m : SMap α} {k : Nat} (h : ∀ p ∈ m, p.1 ≠ k) : mapGet d m k = d := by
  induction m with
  | nil => rfl
  | cons p t ih =>
    rw [mapGet, if_neg (h p List.mem_cons_self)]
    exact ih fun q hq => h q (List.mem_cons_of_mem _ hq)

theorem fnPart_unbound {s : State} {fn : Nat} (h : ∀ f ∈ s.fns, f.1 ≠ fn) : fnPart s fn = fn % 8 :=
  mapGet_of_absent _ h

/-- Some byte of a write lies at an address with a property exactly where one of the write's offsets leads to such an address. -/
theorem any_zipIdx_offset (f : Nat → Bool) (pa : Nat) (l : List Byte) :
    ((l.zipIdx.map fun b => (pa + b.2, b.1)).any fun b => f b.1) = true ↔ ∃ j, j < l.length ∧ f (pa + j) = true := by
  simp only [List.any_map, List.any_eq_true, Function.comp]
  constructor
  · rintro ⟨⟨b, j⟩, hb, hf⟩
    exact ⟨j, (List.mem_zipIdx' hb).1, hf⟩
  · rintro ⟨j, hj, hf⟩
    exact ⟨(l[j], j), List.mem_zipIdx_iff_getElem?.2 (List.getElem?_eq_getElem hj), hf⟩

theorem exec_hostMemoryAccess_hidden {s : State} (fn pa : Nat) (w : Option (List Byte)) (len : Nat) (h : presented s = false) :
    exec (.hostMemoryAccess fn pa w len) s = .next s := by
  simp [execHostMemoryAccess, h]

theorem exec_hostMemoryAccess_share {s : State} {fn pa len : Nat} (hp : presented s = true)
    (hn : pageByte (getPart s (fnPart s fn)) (fnPart s fn) pa = none)
    (ha : ∀ j, j < len → inShare (getPart s (fnPart s fn)).lay (pa + j) = true ∧ linePoisoned s (pa + j) = false) :
    exec (.hostMemoryAccess fn pa none len) s =
      .next (answer s (.data (fnPart s fn) ((List.range len).map fun j => memByte s (pa + j)))) := by
  have hshare : (((List.range len).map fun j => pa + j).any fun a => !inShare (getPart s (fnPart s fn)).lay a) = false := by
    simpa using fun j hj => (ha j hj).1
  have hclean : (((List.range len).map fun j => pa + j).filter (linePoisoned s)) = [] := by
    simpa using fun j hj => (ha j hj).2
  simp only [exec_hostMemoryAccess, execHostMemoryAccess, hp, hn, hshare, hclean, List.map_map, Function.comp_def]
  rfl

theorem exec_hostMemoryAccess_page {s : State} {fn pa len : Nat} (hp : presented s = true)
    (hn : (pageByte (getPart s (fnPart s fn)) (fnPart s fn) pa).isSome = true) :
    exec (.hostMemoryAccess fn pa none len) s =
      .next (answer s (.data (fnPart s fn) ((List.range len).map fun j => (pageByte (getPart s (fnPart s fn)) (fnPart s fn) (pa + j)).getD 0))) := by
  simp [execHostMemoryAccess, hp, hn]

/-- The host's bytes at their addresses. -/
def hostBytes (pa : Nat) (l : List Byte) : List (Nat × Byte) := l.zipIdx.map fun b => (pa + b.2, b.1)

/-- Whether a host's write touches what is outside the share, or a live holding (R187, R368). -/
def hostRefused (s : State) (lay : Layout) (pa : Nat) (l : List Byte) : Bool :=
  ((hostBytes pa l).any fun b => !inShare lay b.1) || hitsLive s (l.zipIdx.map fun b => (pa + b.2, 1))

theorem hostRefused_iff (s : State) (lay : Layout) (pa : Nat) (l : List Byte) : hostRefused s lay pa l = true ↔
    (∃ j, j < l.length ∧ inShare lay (pa + j) = false) ∨ hitsLive s (l.zipIdx.map fun b => (pa + b.2, 1)) = true := by
  have h := any_zipIdx_offset (fun a => !inShare lay a) pa l
  simp only [Bool.not_eq_true'] at h
  rw [hostRefused, hostBytes, Bool.or_eq_true, h]

theorem exec_hostMemoryAccess_write {s : State} {fn pa len : Nat} {l : List Byte} (hp : presented s = true)
    (hn : pageByte (getPart s (fnPart s fn)) (fnPart s fn) pa = none) :
    exec (.hostMemoryAccess fn pa (some l) len) s = .next (if hostRefused s (getPart s (fnPart s fn)).lay pa l then s
      else (((hostBytes pa l).map fun b => b.1 / 128).dedup).foldl reportWrite (memPuts s (hostBytes pa l))) := by
  simp only [exec_hostMemoryAccess, execHostMemoryAccess, hp, hn, hostRefused, hostBytes, List.map_map, Function.comp_def, Bool.not_true,
    Bool.false_eq_true, if_false, Option.isSome_none, apply_ite Host.Outcome.next]

theorem hostWrite_places_bytes (s : State) (fn pa : Nat) (l : List Byte) (len : Nat) (hp : presented s = true)
    (hn : pageByte (getPart s (fnPart s fn)) (fnPart s fn) pa = none)
    (ha : ∀ j, j < l.length → inShare (getPart s (fnPart s fn)).lay (pa + j) = true)
    (hl : hitsLive s (l.zipIdx.map fun b => (pa + b.2, 1)) = false) :
    ∃ t, exec (.hostMemoryAccess fn pa (some l) len) s = .next t ∧ t.mem = (memPuts s (hostBytes pa l)).mem ∧
      t.cores = s.cores ∧ t.parts = s.parts := by
  have hr : hostRefused s (getPart s (fnPart s fn)).lay pa l = false := by
    rw [Bool.eq_false_iff, Ne, hostRefused_iff]
    rintro (⟨j, hj, h⟩ | h)
    · rw [ha j hj] at h; cases h
    · rw [hl] at h; cases h
  have hw := (writesOnly_memPuts s (hostBytes pa l)).trans
    (writesOnly_foldl _ writesOnly_reportWrite (((hostBytes pa l).map fun b => b.1 / 128).dedup) _)
  refine ⟨_, exec_hostMemoryAccess_write hp hn, ?_⟩
  rw [hr]
  exact ⟨mem_foldl_of_keeps _ mem_reportWrite _ _, hw.cores, hw.parts⟩

theorem hostWrite_ignored {s : State} {fn pa : Nat} {l : List Byte} {len : Nat}
    (hn : pageByte (getPart s (fnPart s fn)) (fnPart s fn) pa = none)
    (h : (∃ j, j < l.length ∧ inShare (getPart s (fnPart s fn)).lay (pa + j) = false) ∨
      hitsLive s (l.zipIdx.map fun b => (pa + b.2, 1)) = true) :
    exec (.hostMemoryAccess fn pa (some l) len) s = .next s := by
  cases hp : presented s with
  | false => exact exec_hostMemoryAccess_hidden fn pa _ len hp
  | true => rw [exec_hostMemoryAccess_write hp hn, if_pos ((hostRefused_iff ..).2 h)]

/-! ### Register writes -/

/-- The offset of an address in a partition's area of a size, the areas lying one after another from a base. -/
def areaOff (part pa base size : Nat) : Option Nat :=
  if base + part * size ≤ pa && pa < base + (part + 1) * size then some (pa - base - part * size) else none

theorem areaOff_inside {part off base size : Nat} (h : off < size) : areaOff part (base + part * size + off) base size = some off := by
  have h1 : base + part * size + off < base + (part + 1) * size := by rw [Nat.succ_mul]; omega
  have h2 : base + part * size + off - base - part * size = off := by omega
  simp [areaOff, h1, h2]

/-- An address has a byte of a page where it lies in one of the partition's three areas (R294, R340, R361). -/
theorem pageByte_isSome (p : Part) (part pa : Nat) : (pageByte p part pa).isSome =
    ((areaOff part pa 0xE000000000000 0x10000).isSome || (areaOff part pa 0xE000100000000 0x400000).isSome ||
      (areaOff part pa 0xE000200000000 0x10000).isSome) := by
  unfold pageByte
  extract_lets area
  have harea : ∀ base size, area base size = areaOff part pa base size := fun _ _ => rfl
  rw [harea, harea, harea]
  cases areaOff part pa 0xE000000000000 0x10000 with
  | some o => rfl
  | none =>
    cases areaOff part pa 0xE000100000000 0x400000 with
    | some o => rfl
    | none => cases areaOff part pa 0xE000200000000 0x10000 <;> rfl

theorem pageByte_control (p : Part) {part off : Nat} (ho : off < 0x10000) :
    (pageByte p part (0xE000000000000 + part * 0x10000 + off)).isSome = true := by
  rw [pageByte_isSome, areaOff_inside ho, Option.isSome_some, Bool.true_or, Bool.true_or]

theorem pageByte_fabric (p : Part) {part off : Nat} (ho : off < 0x10000) :
    (pageByte p part (0xE000200000000 + part * 0x10000 + off)).isSome = true := by
  rw [pageByte_isSome, areaOff_inside (base := 0xE000200000000) ho, Option.isSome_some, Bool.or_true]

theorem pageWrite_control (s : State) {part off : Nat} {l : List Byte} (hp : part < 8) (ho : off < 0x10000) (hl : l.length = 8) :
    pageWrite part (0xE000000000000 + part * 0x10000 + off) l s = execRegisterWrite part off (BitVec.ofNat 64 (bytesNum l)) s := by
  have hlt : 0xE000000000000 + part * 0x10000 + off < 0xE000100000000 := by omega
  have hoff : 0xE000000000000 + part * 0x10000 + off - 0xE000000000000 - part * 0x10000 = off := by omega
  simp only [pageWrite, hl, hlt, hoff, bne_self_eq_false, Bool.false_eq_true, if_false, if_true]

theorem pageWrite_fabric (s : State) {part off : Nat} {l : List Byte} (hl : l.length = 8) :
    pageWrite part (0xE000200000000 + part * 0x10000 + off) l s = execRegisterWrite part (0x10000 + off) (BitVec.ofNat 64 (bytesNum l)) s := by
  have hnot : ¬ 0xE000200000000 + part * 0x10000 + off < 0xE000100000000 := by omega
  have hle : 0xE000200000000 ≤ 0xE000200000000 + part * 0x10000 + off := by omega
  have hoff : 0xE000200000000 + part * 0x10000 + off - 0xE000200000000 - part * 0x10000 = off := by omega
  simp only [pageWrite, hl, hnot, hle, hoff, bne_self_eq_false, Bool.false_eq_true, if_false, if_true]

theorem exec_hostMemoryAccess_pageWrite {s : State} {fn pa len : Nat} {l : List Byte} (hp : presented s = true)
    (hn : (pageByte (getPart s (fnPart s fn)) (fnPart s fn) pa).isSome = true) :
    exec (.hostMemoryAccess fn pa (some l) len) s = pageWrite (fnPart s fn) pa l s := by
  simp [execHostMemoryAccess, hp, hn]

theorem exec_functionLevelReset_presented {s : State} (fn : Nat) (h : presented s = true) :
    exec (.functionLevelReset fn) s = .next (post s [.teardown (fnPart s fn)]) := by
  simp [execFunctionLevelReset, h]

theorem hostAccesses : Says.HostAccesses := by
  refine ⟨?_, ?_, ?_, ?_, ?_, fun _ _ h => fnPart_unbound h, fun _ fn h => exec_functionLevelReset_presented fn h,
    fun _ fn pa w len h => exec_hostMemoryAccess_hidden fn pa w len h⟩
  · rintro s fn _ pa len rfl hp hn ha
    exact exec_hostMemoryAccess_share hp hn ha
  · rintro s fn _ pa l len rfl hp hn ha hl
    exact hostWrite_places_bytes s fn pa l len hp hn ha hl
  · rintro s fn _ pa l len rfl hn h
    exact hostWrite_ignored hn h
  · rintro s fn _ pa len rfl hp hn
    exact exec_hostMemoryAccess_page hp hn
  · rintro s fn _ off l len rfl hp h8 ho hl
    exact ⟨(exec_hostMemoryAccess_pageWrite hp (pageByte_control _ ho)).trans (pageWrite_control s h8 ho hl),
      (exec_hostMemoryAccess_pageWrite hp (pageByte_fabric _ ho)).trans (pageWrite_fabric s hl)⟩

/-- Settles O59: each access by the equation of its meaning; an engine's write changes memory, poison and the agenda alone, and the end of a
request is one answer less at its descriptor. -/
theorem fabricAnswers : Obligations.FabricAnswers := ⟨peersAreServed, peersAnswer, hostAccesses⟩

end Sys2Proof.Machine
end

section
/-! The last line of a downdraft (R283, R284): which slot it frees, and a state in which that is not the slot of its swap. -/
namespace Sys2Proof.Machine

/-! ## What leaves every group where it stands -/

theorem getGroup_of_cores {s t : State} (h : t.cores = s.cores) (c k : Nat) : getGroup t c k = getGroup s c k := by
  rw [getGroup, getGroup, getCore, getCore, h]

theorem cores_foldl_of_keeps {α : Type} (f : State → α → State) (h : ∀ s a, (f s a).cores = s.cores) (l : List α) (s : State) :
    (l.foldl f s).cores = s.cores := by
  induction l generalizing s with
  | nil => rfl
  | cons a t ih => exact (ih _).trans (h s a)

theorem cores_countRequest (part : Nat) (c : Traffic) (s : State) (r : Request) : (countRequest part c s r).cores = s.cores := by
  unfold countRequest
  dsimp only
  split <;> rfl

theorem cores_issueAll {s u : State} {part : Nat} {c : Traffic} {l : List Request} (h : issueAll s part c l = some u) : u.cores = s.cores := by
  unfold issueAll at h
  split at h
  · cases h; exact cores_foldl_of_keeps _ (cores_countRequest part c) l s
  · cases h

theorem cores_countLines (part : Nat) (node : DWord) (tile : Nat → Nat) (write : Bool) (l : List Request) (s : State) :
    (countLines part node tile write l s).cores = s.cores := by
  refine cores_foldl_of_keeps _ (fun s r => ?_) l s
  refine (cores_foldl_of_keeps _ ?_ _ _).trans (cores_foldl_of_keeps _ ?_ _ _) <;> exact fun _ _ => rfl

theorem cores_writeLine (s : State) (part : Nat) (n : Node) (g : Group) (j : Nat) : (writeLine s part n g j).cores = s.cores := by
  unfold writeLine
  dsimp only
  split <;> exact (writesOnly_tryWrite _ _ _ _ _).cores

theorem getGroup_post (s : State) (l : List Instr) (c k : Nat) : getGroup (post s l) c k = getGroup s c k := rfl

theorem getGroup_modNode (s : State) (part : Nat) (addr : DWord) (f : Node → Node) (c k : Nat) :
    getGroup (modNode s part addr f) c k = getGroup s c k := rfl

theorem getGroup_popSwap (s : State) (die c k : Nat) : getGroup (popSwap s die) c k = getGroup s c k := rfl

theorem assoc_filter_ne {α : Type} (l : List (Nat × α)) {k j : Nat} (h : j ≠ k) : assoc (l.filter fun p => p.1 != k) j = assoc l j := by
  induction l with
  | nil => rfl
  | cons p t ih =>
    obtain ⟨i, v⟩ := p
    by_cases hi : i = k
    · simp [assoc, hi, Ne.symm h, ih]
    · simp [assoc, hi, ih]

theorem getGroup_dropGroup_ne (s : State) (c k d j : Nat) (h : (d, j) ≠ (c, k)) : getGroup (dropGroup s c k) d j = getGroup s d j := by
  simp only [getGroup, dropGroup, getCore_modCore]
  by_cases hd : d = c
  · subst hd
    rw [if_pos rfl, assoc_filter_ne _ fun hj => h (by rw [hj])]
  · rw [if_neg hd]

theorem getGroup_modCore_dropFaces (s : State) (c : Nat) (node : DWord) (tile d j : Nat) :
    getGroup (modCore s c (dropFaces node tile)) d j = getGroup s d j := by
  simp only [getGroup, getCore_modCore]
  split
  · next hd => rw [hd]; rfl
  · rfl

/-! ## A tile leaves the slot of its placement -/

/-- A tile without a shadow that goes out frees the slot of the placement it is given, and no other one. -/
theorem getGroup_tileOut_ne (s : State) (part : Nat) (addr : DWord) (tile : Nat) (p : Placed) (g : Group) (hg : g.shadow = .none) {c k : Nat}
    (h : (c, k) ≠ (p.core, p.slot)) : getGroup (tileOut s part addr tile p g) c k = getGroup s c k := by
  have hl : (g.shadow == .leader) = false := by rw [hg]; rfl
  unfold tileOut
  split
  · rfl
  · simp only [hl, Bool.false_eq_true, if_false]
    rw [getGroup_modNode, getGroup_modCore_dropFaces, getGroup_dropGroup_ne _ _ _ _ _ h]

/-- The last line of a downdraft written: the tile goes out of the slot that the placement table gives for it. -/
theorem carryDown_lastLine {u : State} {part die : Nat} {n : Node} {w : Swap} {g : Group} {p : Placed} (hop : w.op = 1)
    (hg : getGroup u (w.gslot / 64) (w.gslot % 64) = some g) (hf : lineFault u part n w.tile w.line .write = none)
    (hl : recordLines n.la ≤ w.line + 1) (hp : tilePlaced n w.tile = some p) :
    carryDown u part n die w =
      post (popSwap (tileOut (writeLine u part n g w.line) part n.addr w.tile p { g with away := false }) die) [.updraft part n.addr.toNat] := by
  have hlast : ¬ w.line + 1 < recordLines n.la := by omega
  simp [carryDown, hop, hg, hf, hlast, hp]

/-- A downdraft with its swap at the head of a die's queue, and room in the budgets, writes the swap's next line. -/
theorem exec_downdraft_carries {s u : State} {part node die : Nat} {n : Node} {w : Swap} (hn : findNode s part (BitVec.ofNat 64 node) = some n)
    (hs : latticeStopped s part = false) (hh : headSwap s part (BitVec.ofNat 64 node) = some (die, w)) (hp : (getDie s die).powered = true)
    (hop : w.op = 1)
    (hu : issueAll s part .lattice (requestsOf s part .write [recordAt n.la w.tile + BitVec.ofNat 64 (128 * w.line)]) = some u) :
    exec (.downdraft part node) s = .next (countLines part (BitVec.ofNat 64 node) (fun _ => die) true
      (requestsOf s part .write [recordAt n.la w.tile + BitVec.ofNat 64 (128 * w.line)]) (carryDown u part n die w)) := by
  simp [execDowndraft, latticeTurn, hn, hs, hh, hp, hop, hu]

/-- Where the placement table gives another slot for a tile than its swap does, the last line of the downdraft leaves the group in the swap's slot. -/
theorem exec_downdraft_keeps_misplaced {s u : State} {part node die : Nat} {n : Node} {w : Swap} {g : Group} {p : Placed}
    (hn : findNode s part (BitVec.ofNat 64 node) = some n) (hs : latticeStopped s part = false)
    (hh : headSwap s part (BitVec.ofNat 64 node) = some (die, w)) (hp : (getDie s die).powered = true) (hop : w.op = 1)
    (hg : getGroup s (w.gslot / 64) (w.gslot % 64) = some g) (hsh : g.shadow = .none)
    (hu : issueAll s part .lattice (requestsOf s part .write [recordAt n.la w.tile + BitVec.ofNat 64 (128 * w.line)]) = some u)
    (hf : lineFault u part n w.tile w.line .write = none) (hl : recordLines n.la ≤ w.line + 1)
    (ht : tilePlaced n w.tile = some p) (hne : (w.gslot / 64, w.gslot % 64) ≠ (p.core, p.slot)) :
    ∃ t, exec (.downdraft part node) s = .next t ∧ getGroup t (w.gslot / 64) (w.gslot % 64) = some g := by
  have hgu : getGroup u (w.gslot / 64) (w.gslot % 64) = some g := (getGroup_of_cores (cores_issueAll hu) _ _).trans hg
  refine ⟨_, exec_downdraft_carries hn hs hh hp hop hu, ?_⟩
  rw [getGroup_of_cores (cores_countLines _ _ _ _ _ _), carryDown_lastLine hop hgu hf hl ht, getGroup_post, getGroup_popSwap,
    getGroup_tileOut_ne _ _ _ _ _ { g with away := false } hsh hne, getGroup_of_cores (cores_writeLine _ _ _ _ _), hgu]

/-! ## A state in which swap and placement table disagree -/

/-- A lattice of two tiles of 64 cells and one slot, whose tile records have 17 lines. -/
def strayLaunch : Launch :=
  { bootLaunch with levels := [⟨0, 0, 1⟩, ⟨1, 0, 1⟩, ⟨2, 1, 1⟩, ⟨3, 2, 2⟩], dims := 1, xe := 128, ta := 64, backing := 0x1000001000 }

/-- Tile 0 is moving; the placement table gives slot 0 of core 1 for it. -/
def strayNode : Node :=
  { addr := bootNode, la := strayLaunch, st := 3, placed := [{ blk := 0, grp := 0, core := 1, slot := 0 }], tiles := [(0, .moving), (1, .out)],
    slots := [0], nextBlk := 1 }

/-- The swap that takes tile 0 out of slot 0 of core 0, with one line of the record left. -/
def straySwap : Swap := { part := 0, node := bootNode, tile := 0, op := 1, gslot := 0, line := 16 }

/-- The group of tile 0, on its way out. -/
def strayGroup : Group := { bootGroup with away := true }

/-- The group of tile 0 stands in slot 0 of core 0 and leaves it; a page table maps the 1 GiB at 0x1000000000 to itself. -/
def strayState : State :=
  let s1 := modPart State.reset 0 fun p => { p with nodes := [strayNode], root := 0x1000, ptroot := 0x1000 }
  let s2 := setCore s1 0 { part := 0, node := some bootNode, regg := 28, locg := 2, slots := [(0, strayGroup)] }
  { modDie s2 0 fun d => { d with swapq := [straySwap] } with
    mem := [(0x1000, 1), (0x1001, 0x20), (0x2000, 1), (0x2001, 0x30), (0x3200, 0x1F), (0x3204, 0x10)] }

/-- The request for the last line of tile 0's record. -/
def strayRequests : List Request := requestsOf strayState 0 .write [recordAt strayLaunch 0 + BitVec.ofNat 64 (128 * 16)]

/-- The state once that request is counted. -/
def strayIssued : State := strayRequests.foldl (countRequest 0 .lattice) strayState

theorem findNode_strayState : findNode strayState 0 (BitVec.ofNat 64 0x3000000000) = some strayNode := by decide +kernel

theorem headSwap_strayState : headSwap strayState 0 (BitVec.ofNat 64 0x3000000000) = some (0, straySwap) := by decide +kernel

theorem getGroup_strayState : getGroup strayState 0 0 = some strayGroup := by decide +kernel

theorem issueAll_strayState : issueAll strayState 0 .lattice strayRequests = some strayIssued := if_pos (by decide +kernel)

theorem lineFault_strayIssued : lineFault strayIssued 0 strayNode 0 16 .write = none := by decide +kernel

theorem exec_downdraft_strayState : ∃ t, exec (.downdraft 0 0x3000000000) strayState = .next t ∧
    getGroup t 0 0 = some strayGroup :=
  exec_downdraft_keeps_misplaced findNode_strayState (by decide +kernel) headSwap_strayState (by decide +kernel) rfl getGroup_strayState rfl
    issueAll_strayState lineFault_strayIssued (by decide +kernel) (p := { blk := 0, grp := 0, core := 1, slot := 0 }) (by decide +kernel) (by decide)

/-- The scheduler's steps do not complete as stated: after the last line of a downdraft the slot of the swap is free only where the placement table
gives that slot for the tile, which the statement does not require. -/
theorem not_tilesComeAndGo : ¬ Says.TilesComeAndGo := by
  rintro ⟨-, -, hdown, -⟩
  obtain ⟨t, -, ht, -, hfree, -⟩ := (hdown strayState 0 0x3000000000 strayNode 0 straySwap strayGroup strayIssued
    findNode_strayState (by decide +kernel) headSwap_strayState (by decide +kernel) rfl getGroup_strayState rfl
    issueAll_strayState lineFault_strayIssued).2 (by decide +kernel)
  obtain ⟨t', ht', hkept⟩ := exec_downdraft_strayState
  cases ht.symm.trans ht'
  exact Option.some_ne_none _ (hkept.symm.trans hfree)

/-- Refutes O52: in `strayState` the swap of tile 0 names slot 0 of core 0, where its group stands, while the placement table gives slot 0 of core 1;
the last line of the downdraft empties the latter, and the group stays in the swap's slot. The statement wants that slot empty. -/
theorem not_blocksAndTilesArePlaced : ¬ Obligations.BlocksAndTilesArePlaced := fun h => not_tilesComeAndGo h.2.2.2

end Sys2Proof.Machine
end

section
/-! The state after reset (R34, R35, R119). -/
namespace Sys2Proof.Machine

theorem getPart_reset_squall (p : Nat) : (getPart State.reset p).squall = false := by
  by_cases h : 0 = p <;> simp [getPart, State.reset, mapGet, h, Part.initial]

theorem resetIsEmpty : Says.ResetIsEmpty :=
  ⟨rfl, rfl, fun _ _ => rfl, getPart_reset_squall, fun _ => rfl, rfl⟩

theorem resetFrontiers : Says.ResetFrontiers := by
  refine ⟨fun k hk => absurd hk List.not_mem_nil, fun p hp => ?_⟩
  cases List.mem_singleton.1 hp
  exact ⟨fun _ h => absurd h List.not_mem_nil, fun _ h => absurd h List.not_mem_nil⟩

/-- Settles O9: the state after reset lists no memory, no core and one partition, which has neither images nor nodes. -/
theorem resetState : Obligations.ResetState := ⟨resetIsEmpty, resetFrontiers⟩

end Sys2Proof.Machine
end

section
/-! The side-band port (R342, R372): what each command answers and changes. -/
namespace Sys2Proof.Machine

/-! ## The management processor's own state, which the units of a partition leave alone -/

/-- What each step of a fold leaves as it was, the fold leaves. -/
theorem foldl_keeps {α β : Type} (v : State → β) {f : State → α → State} (h : ∀ s a, v (f s a) = v s) (l : List α) (s : State) :
    v (l.foldl f s) = v s := by
  induction l generalizing s with
  | nil => rfl
  | cons a t ih => exact (ih _).trans (h s a)

theorem mgmt_foldl {α : Type} {f : State → α → State} {l : List α} {s : State} (h : ∀ s a, (f s a).mgmt = s.mgmt) :
    (l.foldl f s).mgmt = s.mgmt := foldl_keeps State.mgmt h l s

theorem parts_foldl {α : Type} {f : State → α → State} {l : List α} {s : State} (h : ∀ s a, (f s a).parts = s.parts) :
    (l.foldl f s).parts = s.parts := foldl_keeps State.parts h l s

theorem WritesOnly.mgmt {s t : State} (h : WritesOnly s t) : t.mgmt = s.mgmt := by rw [h.1]

theorem journal_mgmt (s : State) (part ty q o n : Nat) (a x : DWord) : (journal s part ty q o n a x).mgmt = s.mgmt := rfl

theorem mgmt_startClocks (s : State) (part : Nat) : (startClocks s part).mgmt = s.mgmt := by
  unfold startClocks
  split <;> rfl

theorem mgmt_raiseSquall (s : State) (part : Nat) (c : Cause) : (raiseSquall s part c).mgmt = s.mgmt := by
  unfold raiseSquall
  dsimp only
  split
  · rfl
  · exact (writesOnly_foldl _ (writesOnly_summaryFor part c) _ _).mgmt

theorem mgmt_returnFromHalt (s : State) (part : Nat) : (returnFromHalt s part).mgmt = s.mgmt := by
  unfold returnFromHalt
  dsimp only
  split
  · rfl
  · simp only [unhold_mgmt, post_mgmt, mgmt_startClocks, journal_mgmt, modPart_mgmt]
    exact mgmt_foldl fun s a => (writesOnly_getD fun _ h => writesOnly_vaWrite h).mgmt

theorem modNode_mgmt (s : State) (part : Nat) (a : DWord) (f : Node → Node) : (modNode s part a f).mgmt = s.mgmt := rfl
theorem modQueue_mgmt (s : State) (part q : Nat) (f : Queue → Queue) : (modQueue s part q f).mgmt = s.mgmt := rfl

theorem mgmt_killNode (part : Nat) (s : State) (n : Node) : (killNode part s n).mgmt = s.mgmt := by
  simp only [killNode, journal_mgmt, modNode_mgmt, modQueue_mgmt, (writesOnly_writeState s part n.addr 6).mgmt]

theorem mgmt_killFresh (part : Nat) (s : State) (a : DWord) : (killFresh part s a).mgmt = s.mgmt := by
  unfold killFresh
  split
  · exact (writesOnly_writeState s part a 6).mgmt
  · rfl

theorem mgmt_journalDropped (part : Nat) (s : State) : (journalDropped part s).mgmt = s.mgmt :=
  mgmt_foldl fun _ _ => mgmt_foldl fun s _ => journal_mgmt s ..

theorem mgmt_giveLeave (s : State) (die : Nat) (isPass : Bool) : (giveLeave s die isPass).mgmt = s.mgmt := by
  unfold giveLeave
  dsimp only
  split <;> rfl

theorem mgmt_dropLeave (s : State) (part : Nat) : (dropLeave s part).mgmt = s.mgmt :=
  mgmt_foldl fun _ _ => mgmt_foldl fun s r => mgmt_giveLeave s (dieOf r.core) true

theorem mgmt_withdrawQueued (s : State) (cl : Nat) (p : SbEntry → Bool) : (withdrawQueued s cl p).mgmt = s.mgmt :=
  mgmt_foldl fun _ _ => rfl

theorem mgmt_tearDown (s : State) (part : Nat) : (tearDown s part).mgmt = s.mgmt := by
  have hwalks : ∀ (l : List Node) (u : State), (l.foldl (fun s n => tearWalks s part n) u).mgmt = u.mgmt :=
    fun l u => mgmt_foldl fun _ _ => rfl
  have hqueued : ∀ (l : List Nat) (u : State) (p : SbEntry → Bool), (l.foldl (fun s cl => withdrawQueued s cl p) u).mgmt = u.mgmt :=
    fun l u p => mgmt_foldl fun s cl => mgmt_withdrawQueued s cl p
  have hfresh : ∀ (l : List DWord) (u : State), (l.foldl (killFresh part) u).mgmt = u.mgmt := fun l u => mgmt_foldl (mgmt_killFresh part)
  have hkilled : ∀ (l : List Node) (u : State), (l.foldl (killNode part) u).mgmt = u.mgmt := fun l u => mgmt_foldl (mgmt_killNode part)
  unfold tearDown
  simp only [post_mgmt, hwalks, modPart_mgmt, hqueued, mgmt_dropLeave, mgmt_journalDropped, hfresh, hkilled]

theorem mgmt_tornDown (s : State) (part : Nat) : (tornDown s part).mgmt = s.mgmt := by
  unfold tornDown
  dsimp only
  split <;> rfl

/-! ## Answers -/

theorem answers_sideReply {s u : State} (h : u.mgmt = s.mgmt) (code : Nat) (l : List Record) : Answers s (sideReply u code l) code l := by
  rw [Answers, sideReply, h]

theorem answers_sideError (s : State) (code : Nat) : Answers s (sideError s code) (errorCode code) [] := answers_sideReply rfl _ _

/-- An answer changes the management processor's state alone. -/
theorem sideReply_frame (s : State) (code : Nat) (l : List Record) : { sideReply s code l with mgmt := s.mgmt } = s := rfl

theorem getPart_sideReply (s : State) (code : Nat) (l : List Record) (p : Nat) : getPart (sideReply s code l) p = getPart s p := rfl
theorem getDie_sideReply (s : State) (code : Nat) (l : List Record) (d : Nat) : getDie (sideReply s code l) d = getDie s d := rfl
theorem getDie_post (s : State) (l : List Instr) (d : Nat) : getDie (post s l) d = getDie s d := rfl
theorem queueOf_sideReply (s : State) (code : Nat) (l : List Record) (p q : Nat) : queueOf (sideReply s code l) p q = queueOf s p q := rfl

theorem inSession_open {s : State} (h : (spdmOf s 0).session = true) (code : Nat) (f : State → State) : inSession s code f = f s := if_pos h

theorem inSession_closed {s : State} (h : (spdmOf s 0).session = false) (code : Nat) (f : State → State) : inSession s code f = sideError s code := by
  rw [inSession, h, if_neg Bool.false_ne_true]

/-- A state-changing command runs in the session under its own code. -/
theorem exec_stateCommand {i : Instr} {code : Nat} (h : stateCommands i = some code) (s : State) :
    ∃ f, exec i s = .next (inSession s code f) := by
  unfold stateCommands at h
  split at h <;> cases h
  all_goals exact ⟨_, rfl⟩

theorem commandsNeedASession : Says.CommandsNeedASession := by
  intro i code s hi hs
  obtain ⟨f, hf⟩ := exec_stateCommand hi s
  exact ⟨_, hf.trans (congrArg _ (inSession_closed hs code f)), answers_sideError s code, sideReply_frame ..⟩

/-! ## ResumePartition -/

/-- Clocks that count again leave what does not depend on them: the fields kept at a stop and the identifiers. -/
theorem startClocks_part {β : Type} (v : Part → β) (hv : ∀ p i, v { p with clkStop := none, idents := i } = v p) (s : State) (part : Nat) :
    v (getPart (startClocks s part) part) = v (getPart s part) := by
  unfold startClocks
  split
  · rfl
  · rw [getPart_modPart_self]
    exact hv _ _

theorem st_startClocks (s : State) (part : Nat) : (getPart (startClocks s part) part).st = (getPart s part).st :=
  startClocks_part Part.st (fun _ _ => rfl) s part
theorem squall_startClocks (s : State) (part : Nat) : (getPart (startClocks s part) part).squall = (getPart s part).squall :=
  startClocks_part Part.squall (fun _ _ => rfl) s part
theorem images_startClocks (s : State) (part : Nat) : (getPart (startClocks s part) part).images = (getPart s part).images :=
  startClocks_part Part.images (fun _ _ => rfl) s part

theorem getPart_unhold (s : State) (p : Nat) : getPart (unhold s) p = getPart s p := rfl
theorem getPart_kickFront (s : State) (part p : Nat) : getPart (kickFront s part) p = getPart s p := rfl
theorem kickFront_mgmt (s : State) (part : Nat) : (kickFront s part).mgmt = s.mgmt := rfl

/-- A partition goes on with its line down and, where nothing was saved, without images (R321). -/
theorem returnFromHalt_part {s : State} {part : Nat} (h : (getPart s part).st = .halted) (hi : (getPart s part).images = []) :
    (getPart (returnFromHalt s part) part).squall = false ∧ (getPart (returnFromHalt s part) part).images = [] := by
  have hw : ∀ (l : List DWord) (u : State),
      getPart (l.foldl (fun s a => (vaWrite s part (a + 12) 1 0).getD s) u) part = getPart u part :=
    fun l u => foldl_keeps (getPart · part) (fun s a => (writesOnly_getD fun _ h => writesOnly_vaWrite h).getPart part) l u
  unfold returnFromHalt
  dsimp only
  rw [if_neg (not_not.2 h)]
  simp only [getPart_unhold, getPart_post, squall_startClocks, images_startClocks, journal, getPart_modPart_self, true_and]
  exact List.map_eq_nil_iff.2 ((congrArg Part.images (hw _ (dropTranslations s part))).trans hi)

theorem restoreAll_nil {s : State} {part : Nat} (h : (getPart s part).images = []) (cores : List Nat) : restoreAll s part cores = s := by
  rw [restoreAll, h, List.foldl_nil]

theorem goOn_nil {s : State} {part : Nat} (h : (getPart s part).images = []) : (getPart (goOn s part) part).st = .running ∧
    (getPart (goOn s part) part).squall = (getPart s part).squall ∧ (goOn s part).mgmt = s.mgmt := by
  unfold goOn
  dsimp only
  rw [restoreAll_nil (by rw [getPart_modPart_self]; exact h)]
  simp only [getPart_kickFront, getPart_post, st_startClocks, squall_startClocks, getPart_modPart_self, kickFront_mgmt, post_mgmt,
    mgmt_startClocks, modPart_mgmt, true_and, and_true]
  rfl

theorem resumeHalted_unsaved {s : State} {part : Nat} (h : (getPart s part).st = .halted) (hn : (getPart s part).named = none)
    (hi : (getPart s part).images = []) : (getPart (resumeHalted s part) part).st = .running ∧
    (getPart (resumeHalted s part) part).squall = false ∧ (resumeHalted s part).mgmt = s.mgmt := by
  have heq : resumeHalted s part = goOn (returnFromHalt s part) part := by simp [resumeHalted, h, hn]
  obtain ⟨hsq, him⟩ := returnFromHalt_part h hi
  obtain ⟨hst, hline, hmgmt⟩ := goOn_nil him
  rw [heq]
  exact ⟨hst, hline.trans hsq, hmgmt.trans (mgmt_returnFromHalt s part)⟩

/-! ## ResetPartition -/

theorem getPart_of_parts {s t : State} (h : t.parts = s.parts) (p : Nat) : getPart t p = getPart s p := by rw [getPart, getPart, h]

/-- The queues of a partition without accepted packets. -/
def QueuesEmpty (s : State) (part : Nat) : Prop := ∀ q ∈ (getPart s part).queues, q.2.pkts = []

theorem mapGet_map_snd {α : Type} (d : α) (m : SMap α) (f : α → α) (hd : f d = d) (k : Nat) :
    mapGet d (m.map fun p => (p.1, f p.2)) k = f (mapGet d m k) := by
  induction m with
  | nil => exact hd.symm
  | cons p t ih =>
    obtain ⟨j, v⟩ := p
    by_cases h : j = k <;> simp [mapGet, h, ih]

theorem mapGet_mem_or_default {α : Type} (d : α) (m : SMap α) (k : Nat) : mapGet d m k = d ∨ (k, mapGet d m k) ∈ m := by
  induction m with
  | nil => exact .inl rfl
  | cons p t ih =>
    obtain ⟨j, v⟩ := p
    by_cases h : j = k
    · subst h
      exact .inr (by simp [mapGet])
    · simpa [mapGet, h, Ne.symm h] using ih

theorem QueuesEmpty.pkts {s : State} {part : Nat} (h : QueuesEmpty s part) (q : Nat) : (queueOf s part q).pkts = [] := by
  rcases mapGet_mem_or_default ({} : Queue) (getPart s part).queues q with hd | hm
  · rw [queueOf, hd]
  · exact h _ hm

theorem queuesEmpty_tearDown (s : State) (part : Nat) : QueuesEmpty (tearDown s part) part := by
  have hwalks : ∀ (l : List Node) (u : State), (l.foldl (fun s n => tearWalks s part n) u).parts = u.parts :=
    fun l u => parts_foldl fun _ _ => rfl
  have hpart : ∃ p, getPart (tearDown s part) part = tornPart p := by
    unfold tearDown
    simp only [getPart_post, getPart_of_parts (hwalks _ _), getPart_modPart_self]
    exact ⟨_, rfl⟩
  obtain ⟨p, hp⟩ := hpart
  intro q hq
  rw [hp] at hq
  obtain ⟨q', -, rfl⟩ := List.mem_map.1 hq
  rfl

theorem queuesEmpty_tornDown {s : State} {part : Nat} (h : QueuesEmpty s part) : QueuesEmpty (tornDown s part) part := by
  intro q hq
  refine h q ?_
  unfold tornDown at hq
  dsimp only at hq
  split at hq
  · rwa [finishCmd, journal, getPart_modPart_self, getPart_modPart_self, getPart_modPart_self] at hq
  · rwa [getPart_modPart_self] at hq

theorem queueOf_queuesReset (s : State) (part q : Nat) :
    queueOf (queuesReset s part) part q = { queueOf s part q with qen := false, head := 0, tail := 0 } := by
  rw [queueOf, queuesReset, getPart_modPart_self]
  exact mapGet_map_snd ({} : Queue) _ (fun u => { u with qen := false, head := 0, tail := 0 }) rfl q

theorem exec_resetPartition_open {s : State} {part : Nat} (hs : (spdmOf s 0).session = true) (ht : (getPart s part).tearing = false) :
    ∃ u, exec (.resetPartition part) s = .next (sideReply (queuesReset u part) 4 []) ∧ u.mgmt = s.mgmt ∧ QueuesEmpty u part := by
  refine ⟨if walksOf (tearDown s part) part then tearDown s part else tornDown (tearDown s part) part, ?_, ?_, ?_⟩
  · simp only [exec_resetPartition, execResetPartition, inSession_open hs, ht, Bool.false_eq_true, if_false]
  · split
    · exact mgmt_tearDown s part
    · exact (mgmt_tornDown _ part).trans (mgmt_tearDown s part)
  · split
    · exact queuesEmpty_tearDown s part
    · exact queuesEmpty_tornDown (queuesEmpty_tearDown s part)

theorem resetPartition_empties {s : State} {part : Nat} (hs : (spdmOf s 0).session = true) (ht : (getPart s part).tearing = false) :
    ∃ t, exec (.resetPartition part) s = .next t ∧ Answers s t 4 [] ∧
      ∀ q, (queueOf t part q).qen = false ∧ (queueOf t part q).head = 0 ∧ (queueOf t part q).tail = 0 ∧ (queueOf t part q).pkts = [] := by
  obtain ⟨u, hx, hm, he⟩ := exec_resetPartition_open hs ht
  refine ⟨_, hx, answers_sideReply hm 4 [], fun q => ?_⟩
  rw [queueOf_sideReply, queueOf_queuesReset]
  exact ⟨rfl, rfl, rfl, he.pkts q⟩

/-! ## SetBudgets -/

theorem assoc_mapIns_of_absent {α : Type} (m : SMap α) (k : Nat) (v : α) (h : ∀ p ∈ m, p.1 ≠ k) : assoc (mapIns m k v) k = some v := by
  induction m with
  | nil => simp [mapIns, assoc]
  | cons p t ih =>
    obtain ⟨j, w⟩ := p
    have hj : j ≠ k := h (j, w) List.mem_cons_self
    by_cases hlt : j < k
    · simpa [mapIns, hlt, assoc, hj] using ih fun p hp => h p (List.mem_cons_of_mem _ hp)
    · simp [mapIns, hlt, assoc]

/-- A budget set is the one listed, whatever its number: the default of its write is another one. -/
theorem assoc_budgetPut (d : Die) (key v : Nat) : assoc (budgetPut d key (some v)).budgets key = some v := by
  have hset : (budgetPut d key (some v)).budgets = mapIns (mapDel d.budgets key) key v := if_neg (by omega)
  rw [hset, assoc_mapIns_of_absent _ _ _ (mapDel_keys _ _)]

/-- The shares that SetBudgets writes for the stacks of a die. -/
def sharesSet (die v : Nat) (m : SMap Stack) (l : List Nat) : SMap Stack :=
  l.foldl (fun m j => mapSet {} m (4 * die + j) { mapGet {} m (4 * die + j) with share := v }) m

theorem share_sharesSet (die v : Nat) (l : List Nat) (m : SMap Stack) {j : Nat}
    (h : j ∈ l ∨ (mapGet {} m (4 * die + j)).share = v) : (mapGet {} (sharesSet die v m l) (4 * die + j)).share = v := by
  induction l generalizing m with
  | nil => exact h.resolve_left List.not_mem_nil
  | cons a t ih =>
    refine ih _ ?_
    by_cases haj : j = a
    · subst haj
      right
      rw [mapGet_mapSet_self]
    · have hne : 4 * die + j ≠ 4 * die + a := by omega
      rw [mapGet_mapSet_ne _ _ _ hne]
      exact h.imp_left fun hm => (List.mem_cons.1 hm).resolve_left haj

section
variable {s : State} (hs : (spdmOf s 0).session = true) {part die : Nat} (hp : part < 8) (hd : die < 8)
include hs hp hd

theorem exec_setBudgets_class {cls : Nat} (hc : cls < 6) (v : Nat) : exec (.setBudgets die ⟨part, cls⟩ (some v)) s =
    .next (sideReply (post (modDie s die fun d => budgetPut d (if cls = 4 then 4 else 8 * part + cls) (some v))
      (if (getDie s die).waiting then budgetKicks (modDie s die fun d => budgetPut d (if cls = 4 then 4 else 8 * part + cls) (some v)) die
        else [])) 8 []) := by
  simp only [exec_setBudgets, execSetBudgets, inSession_open hs]
  rw [if_neg (by simp; omega), if_neg (by omega), if_neg (by omega)]

theorem exec_setBudgets_share (v : Nat) : exec (.setBudgets die ⟨part, 6⟩ (some v)) s =
    .next (sideReply { s with hbm := sharesSet die v s.hbm (List.range 4) } 8 []) := by
  simp only [exec_setBudgets, execSetBudgets, inSession_open hs]
  rw [if_neg (by simp; omega), if_neg (by omega), if_pos trivial]
  rfl

theorem exec_setBudgets_leaveCap (v : Option Nat) : exec (.setBudgets die ⟨part, 7⟩ v) s =
    .next (sideReply (post (modDie s die fun d => { d with leaveCap := v }) [.leaveGrant die]) 8 []) := by
  simp only [exec_setBudgets, execSetBudgets, inSession_open hs]
  rw [if_neg (by simp; omega), if_pos trivial]

theorem setBudgets_sets_class {cls : Nat} (hc : cls < 6) (v : Nat) :
    ∃ t, exec (.setBudgets die ⟨part, cls⟩ (some v)) s = .next t ∧ Answers s t 8 [] ∧
      assoc (getDie t die).budgets (if cls = 4 then 4 else 8 * part + cls) = some v ∧ t.mem = s.mem ∧ t.cores = s.cores := by
  refine ⟨_, exec_setBudgets_class hs hp hd hc v, answers_sideReply ?_ _ _, ?_, ?_, ?_⟩
  · simp only [post_mgmt, modDie_mgmt]
  · rw [getDie_sideReply, getDie_post, getDie_modDie, if_pos rfl, assoc_budgetPut]
  · simp only [sideReply, post_mem, modDie_mem]
  · simp only [sideReply, post_cores, modDie_cores]

theorem setBudgets_sets_share (v : Nat) : ∃ t, exec (.setBudgets die ⟨part, 6⟩ (some v)) s = .next t ∧ Answers s t 8 [] ∧
    (∀ j, j < 4 → (mapGet {} t.hbm (4 * die + j)).share = v) ∧ t.mem = s.mem ∧ t.cores = s.cores := by
  refine ⟨_, exec_setBudgets_share hs hp hd v, answers_sideReply ?_ _ _, fun j hj => ?_, ?_, ?_⟩
  · rfl
  · exact share_sharesSet die v _ s.hbm (.inl (List.mem_range.2 hj))
  · rfl
  · rfl

theorem setBudgets_sets_leaveCap (v : Option Nat) :
    ∃ t, exec (.setBudgets die ⟨part, 7⟩ v) s = .next t ∧ (getDie t die).leaveCap = v ∧ .leaveGrant die ∈ t.agenda := by
  refine ⟨_, exec_setBudgets_leaveCap hs hp hd v, ?_, List.mem_append_right _ (List.mem_singleton.2 rfl)⟩
  rw [getDie_sideReply, getDie_post, getDie_modDie, if_pos rfl]

end

/-! ## The other commands of a session -/

section
variable {s : State} (hs : (spdmOf s 0).session = true)
include hs

theorem exec_haltPartition_open (part : Nat) :
    exec (.haltPartition part) s = .next (sideReply (raiseSquall s part { code := 0x10 }) 2 []) := by
  rw [exec_haltPartition, execHaltPartition, inSession_open hs]

theorem exec_resumePartition_open {part : Nat} (h : (getPart s part).st = .halted) :
    exec (.resumePartition part) s = .next (sideReply (resumeHalted s part) 3 []) := by
  simp only [exec_resumePartition, execResumePartition, inSession_open hs, h, beq_self_eq_true, if_true]

theorem exec_moveBoundary_open {m : Nat × Layout} {more : List (Nat × Layout)} (h : moveAllowed s (m :: more) = true) :
    exec (.moveBoundary m more) s = .next (sideReply (post s [.boundaryMove m more]) 9 []) := by
  rw [exec_moveBoundary, execMoveBoundary, inSession_open hs, if_pos h]

theorem exec_poisonLine_open {line : Nat} (ha : line % 128 = 0) (ho : (s.parts.any fun p => inShare p.2.lay line) = true)
    (hr : regionOf line = .hbm) : exec (.poisonLine line) s =
      .next (sideReply { s with poison := mapSet 0 s.poison (line / 128) (BitVec.allOnes 128) } 10 []) := by
  simp [execPoisonLine, inSession_open hs, ha, ho, hr]

end

theorem commandsInASession : Says.CommandsInASession := by
  intro s hs
  refine ⟨fun part => ?halt, fun part hst hn hi => ?resume, fun part ht => resetPartition_empties hs ht,
    fun part die cls v hp hd hc => setBudgets_sets_class hs hp hd hc v, fun part die v hp hd => setBudgets_sets_share hs hp hd v,
    fun part die v hp hd => setBudgets_sets_leaveCap hs hp hd v, fun m more hm => ?move, fun line ha ho hr => ?poison⟩
  case halt =>
    obtain ⟨hsq, -, -, -, hcause⟩ := raiseSquall_spec s part { code := 0x10 }
    exact ⟨_, exec_haltPartition_open hs part, answers_sideReply (mgmt_raiseSquall s part _) 2 [], hsq, hcause⟩
  case resume =>
    obtain ⟨hrun, hsq, hm⟩ := resumeHalted_unsaved hst hn hi
    exact ⟨_, exec_resumePartition_open hs hst, answers_sideReply hm 3 [], hrun, hsq⟩
  case move =>
    exact ⟨_, exec_moveBoundary_open hs hm, answers_sideReply rfl 9 [], List.mem_append_right _ (List.mem_singleton.2 rfl)⟩
  case poison =>
    refine ⟨_, exec_poisonLine_open hs ha ho hr, answers_sideReply rfl 10 [], ?_, rfl⟩
    have hset : mapGet 0 (mapSet 0 s.poison (line / 128) (BitVec.allOnes 128)) (line / 128) = BitVec.allOnes 128 := mapGet_mapSet_self ..
    rw [linePoisoned, sideReply, hset]
    decide

/-! ## Reads -/

theorem exec_readDeviceMemory_served {s : State} {part pa len : Nat} (hl : len ≤ 1024)
    (h : ∀ j, j < len → inShare (getPart s part).lay (pa + j) = true ∧ linePoisoned s (pa + j) = false) :
    exec (.readDeviceMemory part pa len) s =
      .next (sideReply s 7 (packRecords 16 ((List.range len).map fun j => memByte s (pa + j)))) := by
  have hok : ((List.range len).map fun k => pa + k).any (fun a => !inShare (getPart s part).lay a || linePoisoned s a) = false := by
    simpa [List.any_eq_false] using h
  simp only [exec_readDeviceMemory, execReadDeviceMemory, hok, Bool.or_false, decide_eq_true_eq, if_neg (Nat.not_lt.2 hl), List.map_map,
    Function.comp_def]

theorem exec_readDeviceMemory_refused {s : State} {part pa len : Nat}
    (h : 1024 < len ∨ ∃ j, j < len ∧ inShare (getPart s part).lay (pa + j) = false) :
    exec (.readDeviceMemory part pa len) s = .next (sideError s 7) := by
  have hbad : (decide (1024 < len) || ((List.range len).map fun k => pa + k).any
      fun a => !inShare (getPart s part).lay a || linePoisoned s a) = true := by
    rw [Bool.or_eq_true, decide_eq_true_eq, List.any_eq_true]
    rcases h with h | ⟨j, hj, h⟩
    · exact .inl h
    · exact .inr ⟨pa + j, List.mem_map.2 ⟨j, List.mem_range.2 hj, rfl⟩, by rw [h]; rfl⟩
  simp only [exec_readDeviceMemory, execReadDeviceMemory, hbad, if_true]

theorem length_filterMap_range_le {α : Type} (n : Nat) (f : Nat → Option α) : ((List.range n).filterMap f).length ≤ n :=
  (List.length_filterMap_le f _).trans_eq List.length_range

theorem sideBandReads : Says.SideBandReads := by
  refine fun s part => ⟨⟨_, _, _, rfl, answers_sideReply rfl .., rfl⟩, fun n => ⟨_, _, rfl, answers_sideReply rfl .., ?_, rfl⟩,
    fun die idx => ⟨_, rfl, answers_sideReply rfl .., rfl⟩,
    fun pa len hl h => ⟨_, exec_readDeviceMemory_served hl h, answers_sideReply rfl .., rfl⟩,
    fun pa len h => ⟨_, exec_readDeviceMemory_refused h, answers_sideError s 7, rfl⟩⟩
  rw [List.length_map]
  exact length_filterMap_range_le 32 _

/-! ## Attestation and firmware -/

/-- Each SPDM request is served by the one rule: its port, number, condition, answer and next exchange. -/
theorem exec_spdmAsk {i : Instr} {p k : Nat} {ok : State → Bool} {told : State → List Record} {f : Spdm → Spdm}
    (h : spdmAsk i = some (p, k, ok, told, f)) (s : State) :
    ∃ l, exec i s = spdmServe s p k (ok s) l f ∧ l.map (BitVec.ofNat 512) = told s := by
  unfold spdmAsk at h
  split at h <;> cases h
  all_goals exact ⟨_, rfl, rfl⟩

theorem spdmServe_hidden {s : State} {p : Nat} (h : portServed s p = false) (k : Nat) (ok : Bool) (l : List Nat) (f : Spdm → Spdm) :
    spdmServe s p k ok l f = .next s := by
  obtain ⟨hp, hs⟩ := Bool.or_eq_false_iff.1 h
  simp [spdmServe, hs, bne, hp]

theorem port_answers {s : State} {p : Nat} (h : portServed s p = true) : (p != 0 && !presented s) = false := by
  simpa [portServed, bne, ← or_iff_not_imp_left] using h

theorem spdmServe_refused {s : State} {p : Nat} (h : portServed s p = true) (k : Nat) (l : List Nat) (f : Spdm → Spdm) :
    spdmServe s p k false l f = .next (sideError s (spdmCode p k)) := by
  simp [spdmServe, port_answers h]

/-- The state once an SPDM request has been served: its exchange has gone on and a free record is used. -/
def spdmServed (s : State) (p : Nat) (f : Spdm → Spdm) : State :=
  { s with free := s.free + 1, mgmt := { s.mgmt with spdm := mapSet {} s.mgmt.spdm p (f (spdmOf s p)) } }

theorem spdmServe_served {s : State} {p : Nat} (h : portServed s p = true) (k : Nat) (l : List Nat) (f : Spdm → Spdm) :
    spdmServe s p k true l f =
      .next (sideReply (spdmServed s p f) (spdmCode p k) (l.map (BitVec.ofNat 512) ++ [Config.freeRecord s.free])) := by
  simp [spdmServe, port_answers h, spdmServed]

theorem spdmOf_spdmServed (s : State) (p : Nat) (f : Spdm → Spdm) (o : Nat) :
    spdmOf (spdmServed s p f) o = if o = p then f (spdmOf s p) else spdmOf s o := mapGet_mapSet ..

theorem attestationAnswers : Says.AttestationAnswers := by
  intro i p k ok told f s hi
  obtain ⟨l, hx, hl⟩ := exec_spdmAsk hi s
  refine ⟨fun h => hx.trans (spdmServe_hidden h ..), fun h => ⟨fun hok => ?_, fun hok => ?_⟩⟩
  · rw [hok, spdmServe_served h, hl] at hx
    refine ⟨_, hx, ?_, ?_, fun o ho => ?_, rfl, rfl, rfl, rfl⟩
    · rfl
    · exact (spdmOf_spdmServed s p f p).trans (if_pos rfl)
    · exact (spdmOf_spdmServed s p f o).trans (if_neg ho)
  · rw [hok, spdmServe_refused h] at hx
    exact ⟨_, hx, answers_sideError .., rfl, sideReply_frame ..⟩

theorem exec_certificateProvisioning_hidden {s : State} {port : Nat} (h : portServed s port = false) (slot chain : Nat) :
    exec (.certificateProvisioning port slot chain) s = .next s := by
  obtain ⟨hp, hs⟩ := Bool.or_eq_false_iff.1 h
  simp [execCertificateProvisioning, hs, bne, hp]

theorem exec_certificateProvisioning_written {s : State} {port slot : Nat} (h : portServed s port = true) (hs : (spdmOf s port).session = true)
    (h1 : 1 ≤ slot) (h8 : slot < 8) (chain : Nat) : exec (.certificateProvisioning port slot chain) s =
      .next (sideReply { s with mgmt := { s.mgmt with certs := mapSet 0 s.mgmt.certs slot chain } } (spdmCode port 10) []) := by
  have hslot : slot ≠ 0 := by omega
  simp [execCertificateProvisioning, port_answers h, hs, hslot, Nat.not_le.2 h8]

theorem exec_certificateProvisioning_refused {s : State} {port slot : Nat} (h : portServed s port = true)
    (hr : (spdmOf s port).session = false ∨ slot = 0 ∨ 8 ≤ slot) (chain : Nat) :
    exec (.certificateProvisioning port slot chain) s = .next (sideError s (spdmCode port 10)) := by
  have hbad : (!(spdmOf s port).session || decide (slot = 0) || decide (8 ≤ slot)) = true := by
    simpa [or_assoc] using hr
  simp [execCertificateProvisioning, port_answers h, or_assoc, hr]

theorem firmwareAndCertificates : Says.FirmwareAndCertificates :=
  ⟨fun _ _ => ⟨_, rfl, rfl, rfl⟩, fun _ _ => ⟨_, rfl, rfl, rfl⟩,
    fun _ slot chain _ h => exec_certificateProvisioning_hidden h slot chain,
    fun _ _ chain _ h hs h1 h8 => ⟨_, exec_certificateProvisioning_written h hs h1 h8 chain, mapGet_mapSet_self ..,
      fun _ hk => mapGet_mapSet_ne _ _ _ hk, rfl⟩,
    fun _ _ chain _ h hr => ⟨_, exec_certificateProvisioning_refused h hr chain, rfl, rfl⟩⟩

/-- Settles O57: each command by the equation of its meaning inside or outside a session, each SPDM request by the one rule that serves it. -/
theorem sideBandPort : Obligations.SideBandPort :=
  ⟨commandsNeedASession, commandsInASession, sideBandReads, attestationAnswers, firmwareAndCertificates⟩

end Sys2Proof.Machine
end

section
/-! Containment (R328 to R331): what each part of it leaves of the cores' slots, the dies' error counts and the block's node. -/
namespace Sys2Proof.Machine

/-! ## Three views of a state -/

/-- The slots of a core. -/
def slotsOf (s : State) (c : Nat) : List (Nat × Group) := (getCore s c).slots

/-- How many errors a die has logged. -/
def errCountOf (s : State) (d : Nat) : Nat := (getDie s d).errCount

/-- What of a node says whether its blocks were killed or relaunched. -/
def blockFate (n : Node) : List Nat × Nat × SMap Nat × List (Nat × Nat) × List Placed :=
  (n.killedBlks, n.cause, n.relaunched, n.badClusters, n.placed)

/-- The same of an accepted node. -/
def fateOf (s : State) (part : Nat) (a : DWord) : Option (List Nat × Nat × SMap Nat × List (Nat × Nat) × List Placed) :=
  (findNode s part a).map blockFate

theorem slotsOf_of_cores {s t : State} (h : t.cores = s.cores) (c : Nat) : slotsOf t c = slotsOf s c := by
  rw [slotsOf, slotsOf, getCore, getCore, h]
theorem errCountOf_of_dies {s t : State} (h : t.dies = s.dies) (d : Nat) : errCountOf t d = errCountOf s d := by
  rw [errCountOf, errCountOf, getDie, getDie, h]
theorem findNode_of_parts {s t : State} (h : t.parts = s.parts) (part : Nat) (a : DWord) : findNode t part a = findNode s part a := by
  rw [findNode, findNode, getPart_of_parts h]
theorem fateOf_of_parts {s t : State} (h : t.parts = s.parts) (part : Nat) (a : DWord) : fateOf t part a = fateOf s part a := by
  rw [fateOf, fateOf, findNode_of_parts h]

theorem findNode_addr {s : State} {part : Nat} {a : DWord} {n : Node} (h : findNode s part a = some n) : n.addr = a := by
  simpa using List.find?_some h

/-- A change of one node of a partition, read at any node of any partition. -/
theorem findNode_modNode_ne (s : State) {part q : Nat} (a b : DWord) (f : Node → Node) (h : q ≠ part) :
    findNode (modNode s part a f) q b = findNode s q b := by
  rw [findNode, findNode, modNode, getPart_modPart, if_neg h]

theorem fateOf_modNode (s : State) (part q : Nat) (a b : DWord) (f : Node → Node) (ha : ∀ n, (f n).addr = n.addr)
    (hf : ∀ n, blockFate (f n) = blockFate n) : fateOf (modNode s part a f) q b = fateOf s q b := by
  by_cases hq : q = part
  · subst hq
    rw [fateOf, fateOf, findNode_modNode _ _ _ _ _ ha, Option.map_map]
    congr 1
    funext n
    simp only [Function.comp]
    split
    · exact hf n
    · rfl
  · rw [fateOf, fateOf, findNode_modNode_ne _ _ _ _ hq]

theorem findNode_modPart (s : State) (part : Nat) (f : Part → Part) (hf : (f (getPart s part)).nodes = (getPart s part).nodes) (q : Nat)
    (a : DWord) : findNode (modPart s part f) q a = findNode s q a := by
  by_cases hq : q = part
  · subst hq
    rw [findNode, findNode, getPart_modPart_self, hf]
  · rw [findNode, findNode, getPart_modPart, if_neg hq]

theorem findNode_journal (s : State) (part ty q o n r : Nat) (a x b : DWord) : findNode (journal s part ty q o n a x) r b = findNode s r b :=
  findNode_modPart s part _ rfl r b

/-! ## The parts of a containment -/

theorem frame_withdrawQueued (s : State) (cl : Nat) (p : SbEntry → Bool) : (withdrawQueued s cl p).cores = s.cores ∧
    (withdrawQueued s cl p).dies = s.dies ∧ (withdrawQueued s cl p).parts = s.parts :=
  ⟨foldl_keeps State.cores (f := sendWrite) (fun _ _ => rfl) _ _, foldl_keeps State.dies (f := sendWrite) (fun _ _ => rfl) _ _,
    foldl_keeps State.parts (f := sendWrite) (fun _ _ => rfl) _ _⟩

theorem frame_withdrawAll (l : List Nat) (p : SbEntry → Bool) (s : State) : (l.foldl (fun s cl => withdrawQueued s cl p) s).cores = s.cores ∧
    (l.foldl (fun s cl => withdrawQueued s cl p) s).dies = s.dies ∧ (l.foldl (fun s cl => withdrawQueued s cl p) s).parts = s.parts :=
  ⟨foldl_keeps State.cores (f := fun s cl => withdrawQueued s cl p) (fun s cl => (frame_withdrawQueued s cl p).1) l s,
    foldl_keeps State.dies (f := fun s cl => withdrawQueued s cl p) (fun s cl => (frame_withdrawQueued s cl p).2.1) l s,
    foldl_keeps State.parts (f := fun s cl => withdrawQueued s cl p) (fun s cl => (frame_withdrawQueued s cl p).2.2) l s⟩

/-- A view of the values of a map, after a change of each that keeps the keys. -/
theorem mapGet_map_view {α β : Type} {d : α} {m : SMap α} {g : Nat × α → Nat × α} (v w : α → β) (hk : ∀ p, (g p).1 = p.1)
    (hv : ∀ p, v (g p).2 = w p.2) (hd : v d = w d) (k : Nat) : v (mapGet d (m.map g) k) = w (mapGet d m k) := by
  induction m with
  | nil => exact hd
  | cons p t ih =>
    by_cases h : p.1 = k
    · simp [mapGet, hk, h, hv]
    · simp [mapGet, hk, h, ih]

theorem slotsOf_dropUnchecked (s : State) (part : Nat) (a : DWord) (blk c : Nat) : slotsOf (dropUnchecked s part a blk) c = slotsOf s c := by
  refine mapGet_map_view Core.slots Core.slots (fun _ => ?_) (fun _ => ?_) ?_ c <;> rfl

theorem slotsOf_modCore_keeps (s : State) (d c : Nat) (f : Core → Core) (h : ∀ k, (f k).slots = k.slots) :
    slotsOf (modCore s d f) c = slotsOf s c := by
  rw [slotsOf, slotsOf, getCore_modCore]
  split
  · next hc => rw [hc, h]
  · rfl

theorem slotsOf_dropRequests (s : State) (part : Nat) (a : DWord) (blk c : Nat) : slotsOf (dropRequests s part a blk) c = slotsOf s c :=
  foldl_keeps (slotsOf · c) (f := fun t d => modCore t d fun k => { k with declared := declaredOn t d })
    (fun t d => slotsOf_modCore_keeps t d c _ fun _ => rfl) _ _

theorem frame_dropRequests (s : State) (part : Nat) (a : DWord) (blk : Nat) : (dropRequests s part a blk).dies = s.dies ∧
    (dropRequests s part a blk).parts = s.parts :=
  ⟨foldl_keeps State.dies (f := fun t d => modCore t d fun k => { k with declared := declaredOn t d }) (fun _ _ => rfl) _ _,
    foldl_keeps State.parts (f := fun t d => modCore t d fun k => { k with declared := declaredOn t d }) (fun _ _ => rfl) _ _⟩

theorem slotsOf_dropGroups (s : State) (part : Nat) (a : DWord) (blk c : Nat) :
    slotsOf (dropGroups s part a blk) c = (slotsOf s c).filter fun p => !ofBlock part a blk p.2 := by
  simp only [slotsOf, getCore, dropGroups, modPart_cores, (frame_withdrawAll _ _ _).1]
  refine mapGet_map_view Core.slots (fun k => k.slots.filter fun p => !ofBlock part a blk p.2) (fun _ => ?_) (fun _ => ?_) ?_ c <;> rfl

theorem errCountOf_dropGroups (s : State) (part : Nat) (a : DWord) (blk d : Nat) : errCountOf (dropGroups s part a blk) d = errCountOf s d := by
  simp only [errCountOf, getDie, dropGroups, modPart_dies, (frame_withdrawAll _ _ _).2.1]
  refine mapGet_map_view Die.errCount Die.errCount (fun _ => ?_) (fun _ => ?_) ?_ d <;> rfl

theorem findNode_dropGroups (s : State) (part : Nat) (a : DWord) (blk q : Nat) (b : DWord) :
    findNode (dropGroups s part a blk) q b = findNode s q b := by
  unfold dropGroups
  rw [findNode_modPart]
  · exact findNode_of_parts (frame_withdrawAll _ _ _).2.2 q b
  · rfl

theorem errCountOf_dropSwaps (s : State) (part : Nat) (n : Node) (blk d : Nat) : errCountOf (dropSwaps s part n blk) d = errCountOf s d := by
  refine mapGet_map_view Die.errCount Die.errCount (fun _ => ?_) (fun _ => ?_) ?_ d <;> rfl

theorem writesOnly_freshHeads (s : State) (part : Nat) (n : Node) (blk : Nat) : WritesOnly s (freshHeads s part n blk) := by
  unfold freshHeads
  split
  · exact .refl s
  · exact writesOnly_foldl _ (fun s t => writesOnly_tryWrite s part _ 128 freshHeader) _ s

theorem writesOnly_exitRecord {g : Group} {n : Node} {s t : State} (h : exitRecord g n s = some t) : WritesOnly s t := by
  obtain ⟨u, hu, ht⟩ := Option.bind_eq_some_iff.1 h
  exact (writesOnly_vaWrite hu).trans (writesOnly_vaWrite ht)

/-- A tile that exits at once: its record, if it has one, and its mark at its node. -/
theorem latticeExit_eq (g : Group) (n : Node) (s : State) : ∃ u kept, latticeExit g n s = markExited g n kept u ∧ WritesOnly s u := by
  unfold latticeExit
  split
  · next s1 h =>
    split at h
    · exact ⟨s1, false, rfl, writesOnly_exitRecord h⟩
    · cases h
  · exact ⟨s, true, rfl, .refl s⟩

theorem fateOf_markExited (g : Group) (n : Node) (kept : Bool) (s : State) (q : Nat) (b : DWord) :
    fateOf (markExited g n kept s) q b = fateOf s q b := by
  unfold markExited
  exact fateOf_modNode _ _ _ _ _ _ (fun _ => rfl) fun _ => rfl

theorem killTile_frame (part : Nat) (a : DWord) (l : List (Nat × Nat × Group)) (s : State) (t : Nat) :
    (killTile part a l s t).cores = s.cores ∧ (killTile part a l s t).dies = s.dies ∧
      ∀ q b, fateOf (killTile part a l s t) q b = fateOf s q b := by
  have hexit : ∀ g n, (latticeExit g n s).cores = s.cores ∧ (latticeExit g n s).dies = s.dies ∧
      ∀ q b, fateOf (latticeExit g n s) q b = fateOf s q b := by
    intro g n
    obtain ⟨u, kept, hu, hw⟩ := latticeExit_eq g n s
    rw [hu]
    exact ⟨hw.cores, hw.dies, fun q b => (fateOf_markExited g n kept u q b).trans (fateOf_of_parts hw.parts q b)⟩
  unfold killTile
  split
  · exact ⟨rfl, rfl, fun _ _ => rfl⟩
  · dsimp only
    split
    · exact hexit ..
    · split <;> exact hexit ..

/-- The node of a killed block as the kill leaves it. -/
def killedNode (blk : Nat) (m : Node) : Node :=
  settleBars { m with killedBlks := if m.killedBlks.contains blk then m.killedBlks else m.killedBlks ++ [blk], cause := 0x20,
                      placed := m.placed.map fun p => if p.blk == blk then { p with killed := true } else p }

theorem killBlock_frame (s : State) (part : Nat) (n : Node) (blk : Nat) (l : List (Nat × Nat × Group)) :
    (killBlock s part n blk l).cores = s.cores ∧ (killBlock s part n blk l).dies = s.dies ∧
      ∀ q b, fateOf (killBlock s part n blk l) q b = fateOf (modNode s part n.addr (killedNode blk)) q b := by
  unfold killBlock
  dsimp only
  split
  · exact ⟨rfl, rfl, fun _ _ => rfl⟩
  · exact ⟨foldl_keeps State.cores (fun s t => (killTile_frame part n.addr l s t).1) _ _,
      foldl_keeps State.dies (fun s t => (killTile_frame part n.addr l s t).2.1) _ _,
      fun q b => foldl_keeps (fateOf · q b) (fun s t => (killTile_frame part n.addr l s t).2.2 q b) _ _⟩

/-- The node of a relaunched block as the relaunch leaves it. -/
def relaunchedNode (blk cl : Nat) (n : Node) : Node :=
  let tiles := (List.range (groupsPerBlock n.la)).map fun g => blk * groupsPerBlock n.la + g
  { n with placed := n.placed.filter (fun p => p.blk != blk), relaunched := mapSet 0 n.relaunched blk (mapGet 0 n.relaunched blk + 1),
           badClusters := n.badClusters ++ [(blk, cl)], ords := n.ords.filter fun o => o.1 / 32 != blk,
           tiles := if n.la.dims = 0 then n.tiles else tiles.foldl (fun m t => mapSet .fresh m t .fresh) n.tiles,
           tileImgs := n.tileImgs.filter fun p => !tiles.contains (p.1 % 2 ^ 32) }

theorem relaunchBlock_eq (s : State) (part : Nat) (a : DWord) (blk cl : Nat) : relaunchBlock s part a blk cl = modNode s part a (relaunchedNode blk cl) :=
  rfl

theorem reportContainment_frame (s : State) (part : Nat) (a : DWord) (blk core gslot src pa : Nat) (again : Bool) :
    (reportContainment s part a blk core gslot src pa again).cores = s.cores ∧
      errCountOf (reportContainment s part a blk core gslot src pa again) (dieOf core) = errCountOf s (dieOf core) + 1 ∧
      ∀ q b, fateOf (reportContainment s part a blk core gslot src pa again) q b = fateOf s q b := by
  refine ⟨rfl, ?_, fun q b => congrArg (Option.map blockFate) (findNode_journal s part ..)⟩
  rw [errCountOf, reportContainment, logError, getDie_modDie, if_pos rfl]
  rfl

theorem walkBlock_frame (s : State) (part : Nat) (n : Node) (blk core : Nat) (again : Bool) (l : List (Nat × Nat × Group)) :
    (walkBlock s part n blk core again l).cores = s.cores ∧
      (∀ d, errCountOf (walkBlock s part n blk core again l) d = errCountOf s d) ∧
      ∀ q b, fateOf (walkBlock s part n blk core again l) q b = fateOf s q b := by
  unfold walkBlock
  split
  · exact ⟨rfl, fun _ => rfl, fun _ _ => rfl⟩
  · refine ⟨rfl, fun d => ?_, fun q b => fateOf_modNode s part q n.addr b _ (fun _ => rfl) fun _ => rfl⟩
    rw [errCountOf, getDie_post, getDie_modDie]
    split
    · next hd => rw [hd]; rfl
    · rfl

/-! ## The whole of it -/

/-- The state in which everything of the block has been dropped. -/
def blockDropped (s : State) (part : Nat) (n : Node) (blk : Nat) : State :=
  dropSwaps (dropGroups (dropRequests (dropUnchecked s part n.addr blk) part n.addr blk) part n.addr blk) part n blk

/-- The arrivals at barriers and the permissions of a block's groups withdrawn. -/
def unarrived (n : Node) (blk : Nat) (m : Node) : Node :=
  (List.range (groupsPerBlock n.la)).foldl (fun m g => { unarrive blk g m with granted := m.granted.filter (· != (blk, g)) }) m

theorem unarrived_keeps (n : Node) (blk : Nat) (m : Node) : (unarrived n blk m).addr = m.addr ∧ blockFate (unarrived n blk m) = blockFate m := by
  have h : ∀ (l : List Nat) (m : Node), (l.foldl (fun m g => { unarrive blk g m with granted := m.granted.filter (· != (blk, g)) }) m).addr = m.addr ∧
      blockFate (l.foldl (fun m g => { unarrive blk g m with granted := m.granted.filter (· != (blk, g)) }) m) = blockFate m := by
    intro l
    induction l with
    | nil => exact fun m => ⟨rfl, rfl⟩
    | cons g t ih => exact fun m => ⟨(ih _).1, (ih _).2⟩
  exact h _ m

theorem blockDropped_frame (s : State) (part : Nat) (n : Node) (blk : Nat) :
    (∀ c, slotsOf (blockDropped s part n blk) c = (slotsOf s c).filter fun p => !ofBlock part n.addr blk p.2) ∧
      (∀ d, errCountOf (blockDropped s part n blk) d = errCountOf s d) ∧ ∀ q b, fateOf (blockDropped s part n blk) q b = fateOf s q b := by
  refine ⟨fun c => ?_, fun d => ?_, fun q b => ?_⟩
  · calc slotsOf (blockDropped s part n blk) c
        = slotsOf (dropGroups (dropRequests (dropUnchecked s part n.addr blk) part n.addr blk) part n.addr blk) c := slotsOf_of_cores rfl c
      _ = _ := by rw [slotsOf_dropGroups, slotsOf_dropRequests, slotsOf_dropUnchecked]
  · rw [blockDropped, errCountOf_dropSwaps, errCountOf_dropGroups, errCountOf_of_dies (frame_dropRequests ..).1]
    rfl
  · calc fateOf (blockDropped s part n blk) q b
        = fateOf (dropGroups (dropRequests (dropUnchecked s part n.addr blk) part n.addr blk) part n.addr blk) q b := fateOf_of_parts rfl q b
      _ = fateOf (dropRequests (dropUnchecked s part n.addr blk) part n.addr blk) q b := congrArg (Option.map blockFate) (findNode_dropGroups ..)
      _ = fateOf (dropUnchecked s part n.addr blk) q b := fateOf_of_parts (frame_dropRequests ..).2 q b
      _ = fateOf s q b := fateOf_of_parts rfl q b

/-- What the block's node is changed by: its relaunch or its kill. -/
def blockEnd (n : Node) (blk cl : Nat) : Node → Node := if mayRelaunch n blk then relaunchedNode blk cl else killedNode blk

theorem blockEnd_addr (n : Node) (blk cl : Nat) (m : Node) : (blockEnd n blk cl m).addr = m.addr := by
  unfold blockEnd
  split <;> rfl

/-- The state once the block of which everything has been dropped is relaunched or killed. -/
def blockEnded (s : State) (part : Nat) (n : Node) (blk core : Nat) : State :=
  let u := modNode (blockDropped s part n blk) part n.addr (unarrived n blk)
  if mayRelaunch n blk then freshHeads (relaunchBlock u part n.addr blk (clusterOf core)) part n blk
  else killBlock u part n blk (blockGroups s part n.addr blk)

/-- The relaunch or kill of a block changes its node, and no core or die. -/
theorem blockEnded_frame (s : State) (part : Nat) (n : Node) (blk core : Nat) :
    (blockEnded s part n blk core).cores = (blockDropped s part n blk).cores ∧
      (blockEnded s part n blk core).dies = (blockDropped s part n blk).dies ∧
      ∀ q b, fateOf (blockEnded s part n blk core) q b =
        fateOf (modNode (modNode (blockDropped s part n blk) part n.addr (unarrived n blk)) part n.addr (blockEnd n blk (clusterOf core))) q b := by
  unfold blockEnded blockEnd
  dsimp only
  split
  · have hw := writesOnly_freshHeads (relaunchBlock (modNode (blockDropped s part n blk) part n.addr (unarrived n blk)) part n.addr blk
      (clusterOf core)) part n blk
    exact ⟨hw.cores, hw.dies, fun q b => fateOf_of_parts hw.parts q b⟩
  · exact killBlock_frame _ part n blk _

/-- A containment reports the block's end and queues the walks of its holdings; the rest goes to the agenda. -/
theorem containBlock_eq (s : State) (part : Nat) (n : Node) (blk core gslot src pa : Nat) : ∃ l,
    containBlock s part n blk core gslot src pa =
      post (walkBlock (reportContainment (blockEnded s part n blk core) part n.addr blk core gslot src pa (mayRelaunch n blk)) part n blk core
        (mayRelaunch n blk) (blockGroups s part n.addr blk)) l := ⟨_, rfl⟩

theorem containBlock_frame (s : State) (part : Nat) (n : Node) (blk core gslot src pa : Nat) :
    (∀ c, slotsOf (containBlock s part n blk core gslot src pa) c = (slotsOf s c).filter fun p => !ofBlock part n.addr blk p.2) ∧
      errCountOf (containBlock s part n blk core gslot src pa) (dieOf core) = errCountOf s (dieOf core) + 1 ∧
      ∀ q b, fateOf (containBlock s part n blk core gslot src pa) q b =
        fateOf (modNode (modNode (blockDropped s part n blk) part n.addr (unarrived n blk)) part n.addr (blockEnd n blk (clusterOf core))) q b := by
  obtain ⟨l, hl⟩ := containBlock_eq s part n blk core gslot src pa
  obtain ⟨hslots, herr, -⟩ := blockDropped_frame s part n blk
  obtain ⟨hc3, hd3, hf3⟩ := blockEnded_frame s part n blk core
  obtain ⟨hc4, he4, hf4⟩ := reportContainment_frame (blockEnded s part n blk core) part n.addr blk core gslot src pa (mayRelaunch n blk)
  obtain ⟨hc5, he5, hf5⟩ := walkBlock_frame (reportContainment (blockEnded s part n blk core) part n.addr blk core gslot src pa
    (mayRelaunch n blk)) part n blk core (mayRelaunch n blk) (blockGroups s part n.addr blk)
  rw [hl]
  refine ⟨fun c => ?_, ?_, fun q b => ?_⟩
  · exact (slotsOf_of_cores (hc5.trans (hc4.trans hc3)) c).trans (hslots c)
  · exact (he5 _).trans (he4.trans (congrArg (· + 1) ((errCountOf_of_dies hd3 _).trans (herr _))))
  · exact (hf5 q b).trans ((hf4 q b).trans (hf3 q b))

/-! ## What a containment leaves of groups and node -/

theorem assoc_mem {α : Type} {l : List (Nat × α)} {k : Nat} {v : α} (h : assoc l k = some v) : (k, v) ∈ l := by
  induction l with
  | nil => cases h
  | cons p t ih =>
    obtain ⟨j, w⟩ := p
    by_cases hj : j = k
    · subst hj
      simp only [assoc, if_true, Option.some.injEq] at h
      exact h ▸ List.mem_cons_self
    · rw [assoc, if_neg hj] at h
      exact List.mem_cons_of_mem _ (ih h)

/-- Where a key stands once, a filter that keeps its pair keeps its value. -/
theorem assoc_filter_of_kept {α : Type} {l : List (Nat × α)} {k : Nat} {v : α} (f : Nat × α → Bool) (h : assoc l k = some v) (hf : f (k, v) = true)
    (hu : ∀ p ∈ l, ∀ q ∈ l, p.1 = q.1 → p = q) : assoc (l.filter f) k = some v := by
  induction l with
  | nil => cases h
  | cons p t ih =>
    have hut : ∀ p ∈ t, ∀ q ∈ t, p.1 = q.1 → p = q := fun a ha b hb => hu a (List.mem_cons_of_mem _ ha) b (List.mem_cons_of_mem _ hb)
    by_cases hj : p.1 = k
    · have hp : p = (k, v) := hu p List.mem_cons_self _ (assoc_mem h) hj
      subst hp
      rw [List.filter_cons_of_pos hf, assoc, if_pos rfl]
    · obtain ⟨j, w⟩ := p
      rw [assoc, if_neg hj] at h
      by_cases hk : f (j, w) = true
      · rw [List.filter_cons_of_pos hk, assoc, if_neg hj]
        exact ih h hut
      · rw [List.filter_cons_of_neg hk]
        exact ih h hut

/-- The block's node after a containment: its fate is that of its relaunch or kill. -/
theorem containBlock_node {s : State} {part : Nat} {a : DWord} {n : Node} (hn : findNode s part a = some n) (blk core gslot src pa : Nat) :
    ∃ m n', findNode (containBlock s part n blk core gslot src pa) part a = some m ∧ blockFate n' = blockFate n ∧
      blockFate m = blockFate (blockEnd n blk (clusterOf core) n') := by
  obtain ⟨-, -, hd⟩ := blockDropped_frame s part n blk
  have hu : fateOf (modNode (blockDropped s part n blk) part n.addr (unarrived n blk)) part a = some (blockFate n) := by
    rw [fateOf_modNode _ _ _ _ _ _ (fun m => (unarrived_keeps n blk m).1) fun m => (unarrived_keeps n blk m).2, hd, fateOf, hn]
    rfl
  obtain ⟨n', hn', hf'⟩ := Option.map_eq_some_iff.1 hu
  obtain ⟨-, -, hc⟩ := containBlock_frame s part n blk core gslot src pa
  have ht := hc part a
  rw [fateOf, fateOf, findNode_modNode _ _ _ _ _ (blockEnd_addr n blk (clusterOf core)), hn', findNode_addr hn, Option.map_some, if_pos rfl,
    Option.map_some, Option.map_eq_some_iff] at ht
  obtain ⟨m, hm, hfm⟩ := ht
  exact ⟨m, n', hm, hf', hfm⟩

theorem blocksAreContained : Says.BlocksAreContained := by
  intro s core slot src pa g n hg hn
  have hx : exec (.containment core slot src pa) s = .next (containBlock s g.part n g.blk core (gslotFor g core slot) src pa) := by
    simp only [exec_containment, execContainment, hg, hn]
  obtain ⟨hslots, herr, -⟩ := containBlock_frame s g.part n g.blk core (gslotFor g core slot) src pa
  obtain ⟨m, n', hm, hn', hfate⟩ := containBlock_node hn g.blk core (gslotFor g core slot) src pa
  refine ⟨_, hx, fun c k h hh => ?gone, fun c k h hh ho hu => ?kept, herr, m, hm, fun hr => ?killed, fun hr => ?relaunched⟩
  case gone =>
    rw [getGroup, ← slotsOf, hslots] at hh
    have hkeep := (List.mem_filter.1 (assoc_mem hh)).2
    rwa [Bool.not_eq_true'] at hkeep
  case kept =>
    rw [getGroup, ← slotsOf, hslots]
    exact assoc_filter_of_kept _ hh (by rw [ho]; rfl) hu
  case killed =>
    rw [blockEnd, hr, if_neg Bool.false_ne_true] at hfate
    have hk : m.killedBlks = (killedNode g.blk n').killedBlks := congrArg (·.1) hfate
    have hc : m.cause = 0x20 := congrArg (·.2.1) hfate
    refine ⟨?_, hc⟩
    rw [hk, killedNode, settleBars]
    dsimp only
    split
    · next h => exact List.contains_iff_mem.1 h
    · exact List.mem_append_right _ (List.mem_singleton.2 rfl)
  case relaunched =>
    rw [blockEnd, hr, if_pos rfl] at hfate
    have hcount : m.relaunched = mapSet 0 n'.relaunched g.blk (mapGet 0 n'.relaunched g.blk + 1) := congrArg (·.2.2.1) hfate
    have hbad : m.badClusters = n'.badClusters ++ [(g.blk, clusterOf core)] := congrArg (·.2.2.2.1) hfate
    have hplaced : m.placed = n'.placed.filter fun p => p.blk != g.blk := congrArg (·.2.2.2.2) hfate
    have hbefore : n'.relaunched = n.relaunched := congrArg (·.2.2.1) hn'
    refine ⟨?_, ?_, fun p hp => ?_⟩
    · rw [hcount, mapGet_mapSet_self, hbefore]
    · rw [hbad]
      exact List.mem_append_right _ (List.mem_singleton.2 rfl)
    · rw [hplaced] at hp
      simpa using (List.mem_filter.1 hp).2

end Sys2Proof.Machine
end

section
/-! Boundary moves (R337 to R339), scrubbing (R334), clocks and cooling (R31, R34) and module reset (R35). -/
namespace Sys2Proof.Machine

/-! ## Boundary moves -/

theorem getPart_modPart_ne (s : State) {part q : Nat} (f : Part → Part) (h : q ≠ part) : getPart (modPart s part f) q = getPart s q := by
  rw [getPart_modPart, if_neg h]

theorem nodup_of_moveAllowed {s : State} {moves : List (Nat × Layout)} (h : moveAllowed s moves = true) : (moves.map (·.1)).Nodup := by
  simp only [moveAllowed, Bool.and_eq_true, beq_iff_eq] at h
  obtain ⟨⟨hlen, -⟩, -⟩ := h
  exact List.dedup_eq_self.1 ((List.dedup_sublist _).eq_of_length (by rw [hlen, List.length_map]))

theorem moveAllowed_each {s : State} {moves : List (Nat × Layout)} (h : moveAllowed s moves = true) {m : Nat × Layout} (hm : m ∈ moves) :
    (getPart s m.1).stopMove = none ∧ leavesEmpty s m.1 m.2 = true := by
  simp only [moveAllowed, Bool.and_eq_true, List.all_eq_true] at h
  obtain ⟨⟨-, hall⟩, -⟩ := h
  obtain ⟨⟨-, hstop⟩, hempty⟩ := hall m hm
  exact ⟨Option.isNone_iff_eq_none.1 hstop, hempty⟩

/-- A move that its partitions have begun, as the model asks: each holds it as the move it stops for. -/
def moveBegun (s : State) (moves : List (Nat × Layout)) : Bool := moves.all fun m => (getPart s m.1).stopMove == some moves

/-- A partition that stops for a move. -/
def stopFor (moves : List (Nat × Layout)) (p : Part) : Part := { p with stopMove := some moves }

/-- The partitions of a move that stop for it. -/
def markMove (s : State) (moves l : List (Nat × Layout)) : State := l.foldl (fun s m => modPart s m.1 (stopFor moves)) s

/-- Each partition of a move goes on with its quiesce. -/
def quiesceAll (s : State) (l : List (Nat × Layout)) : State := l.foldl (fun s m => quiesceOn s m.1) s

theorem moveBegun_false {s : State} {moves : List (Nat × Layout)} {m : Nat × Layout} (hm : m ∈ moves)
    (h : (getPart s m.1).stopMove ≠ some moves) : moveBegun s moves = false := by
  rw [Bool.eq_false_iff, Ne, moveBegun, List.all_eq_true]
  exact fun hall => h (by simpa using hall m hm)

theorem exec_boundaryMove_refused {s : State} {m : Nat × Layout} {more : List (Nat × Layout)} (ha : moveAllowed s (m :: more) = false)
    (hb : moveBegun s (m :: more) = false) : exec (.boundaryMove m more) s = .next s := by
  rw [exec_boundaryMove, execBoundaryMove, ← moveBegun, hb, ha]
  rfl

/-- An allowed move: its partitions are marked and quiesce, and once all stand still it is made, or given up. -/
theorem exec_boundaryMove_allowed {s : State} {m : Nat × Layout} {more : List (Nat × Layout)} (ha : moveAllowed s (m :: more) = true) :
    exec (.boundaryMove m more) s = .next (let u := quiesceAll (markMove s (m :: more) (m :: more)) (m :: more)
      if !((m :: more).all fun m => stoodStill u m.1) then u
      else if (m :: more).all fun m => leavesEmpty u m.1 m.2 then finishMove u (m :: more) else dropMove u (m :: more)) := by
  have hb : moveBegun s (m :: more) = false := moveBegun_false List.mem_cons_self (by
    rw [(moveAllowed_each ha List.mem_cons_self).1]
    exact Option.some_ne_none _ |>.symm)
  rw [exec_boundaryMove, execBoundaryMove, ← moveBegun, hb, ha]
  rfl

theorem getPart_markMove (moves l : List (Nat × Layout)) (s : State) (p : Nat) :
    getPart (markMove s moves l) p = if p ∈ l.map (·.1) then stopFor moves (getPart s p) else getPart s p := by
  induction l generalizing s with
  | nil => rfl
  | cons m t ih =>
    rw [markMove, List.foldl_cons, ← markMove, ih, List.map_cons]
    by_cases hp : p = m.1
    · subst hp
      rw [getPart_modPart_self, if_pos List.mem_cons_self]
      split <;> rfl
    · simp only [getPart_modPart_ne _ _ hp, List.mem_cons, hp, false_or]

theorem markMove_frame (moves l : List (Nat × Layout)) (s : State) : (markMove s moves l).mem = s.mem ∧ (markMove s moves l).cores = s.cores :=
  ⟨foldl_keeps State.mem (f := fun s (m : Nat × Layout) => modPart s m.1 (stopFor moves)) (fun _ _ => rfl) l s,
    foldl_keeps State.cores (f := fun s (m : Nat × Layout) => modPart s m.1 (stopFor moves)) (fun _ _ => rfl) l s⟩

/-- A running partition whose line is down begins to quiesce (R338 step 1). -/
theorem quiesceOn_running {s : State} {part : Nat} (h : (getPart s part).st = .running) (hq : (getPart s part).squall = false) :
    quiesceOn s part = beginQuiesce s part := by
  rw [quiesceOn, h, hq]
  rfl

/-- A halted or pre-empted partition has nothing to quiesce (R338). -/
theorem quiesceOn_stopped {s : State} {part : Nat} (h : (getPart s part).st = .halted ∨ (getPart s part).st = .preempted) :
    quiesceOn s part = s := by
  rw [quiesceOn]
  rcases h with h | h <;> rw [h]

theorem stopClocks_part {β : Type} (v : Part → β) (hv : ∀ p l, v { p with clkStop := l } = v p) (s : State) (part : Nat) :
    v (getPart (stopClocks s part) part) = v (getPart s part) := by
  rw [stopClocks, getPart_modPart_self]
  split
  · rfl
  · exact hv _ _

theorem beginQuiesce_part (s : State) (part : Nat) : (getPart (beginQuiesce s part) part).st = .quiescing ∧
    (getPart (beginQuiesce s part) part).stopMove = (getPart s part).stopMove ∧
    (getPart (beginQuiesce s part) part).lay = (getPart s part).lay := by
  simp only [beginQuiesce, getPart_post, stopClocks_part Part.st (fun _ _ => rfl), stopClocks_part Part.stopMove (fun _ _ => rfl),
    stopClocks_part Part.lay (fun _ _ => rfl), getPart_modPart_self, and_self]

theorem getPart_beginQuiesce_ne (s : State) {part q : Nat} (h : q ≠ part) : getPart (beginQuiesce s part) q = getPart s q := by
  simp only [beginQuiesce, getPart_post, stopClocks, getPart_modPart_ne _ _ h]

theorem beginQuiesce_mem (s : State) (part : Nat) : (beginQuiesce s part).mem = s.mem := by
  simp only [beginQuiesce, post_mem, stopClocks, modPart_mem]

/-- Running partitions all begin to quiesce, each once; the others stay. -/
theorem quiesceAll_running (l : List (Nat × Layout)) (hnd : (l.map (·.1)).Nodup) (s : State)
    (h : ∀ m ∈ l, (getPart s m.1).st = .running ∧ (getPart s m.1).squall = false) :
    (quiesceAll s l).mem = s.mem ∧ (∀ p, p ∉ l.map (·.1) → getPart (quiesceAll s l) p = getPart s p) ∧
      ∀ m ∈ l, (getPart (quiesceAll s l) m.1).st = .quiescing ∧ (getPart (quiesceAll s l) m.1).stopMove = (getPart s m.1).stopMove ∧
        (getPart (quiesceAll s l) m.1).lay = (getPart s m.1).lay := by
  induction l generalizing s with
  | nil => exact ⟨rfl, fun _ _ => rfl, fun _ hm => absurd hm List.not_mem_nil⟩
  | cons m t ih =>
    obtain ⟨hnotin, hnd'⟩ := List.nodup_cons.1 hnd
    obtain ⟨hrun, hline⟩ := h m List.mem_cons_self
    have hstep : quiesceAll s (m :: t) = quiesceAll (beginQuiesce s m.1) t := by
      rw [quiesceAll, List.foldl_cons, quiesceOn_running hrun hline, quiesceAll]
    have hne : ∀ k ∈ t, k.1 ≠ m.1 := fun k hk he => hnotin (List.mem_map.2 ⟨k, hk, he⟩)
    have hkeep : ∀ k ∈ t, getPart (beginQuiesce s m.1) k.1 = getPart s k.1 := fun k hk => getPart_beginQuiesce_ne s (hne k hk)
    obtain ⟨hmem, hout, hin⟩ := ih hnd' (beginQuiesce s m.1) fun k hk => by
      rw [hkeep k hk]
      exact h k (List.mem_cons_of_mem _ hk)
    rw [hstep]
    refine ⟨hmem.trans (beginQuiesce_mem s m.1), fun p hp => ?_, fun k hk => ?_⟩
    · rw [List.map_cons, List.mem_cons, not_or] at hp
      rw [hout p hp.2, getPart_beginQuiesce_ne s hp.1]
    · rcases List.mem_cons.1 hk with rfl | hk
      · rw [hout _ hnotin]
        exact beginQuiesce_part s _
      · rw [← hkeep k hk]
        exact hin k hk

theorem boundaryMove_quiesces {s : State} {m : Nat × Layout} {more : List (Nat × Layout)} (ha : moveAllowed s (m :: more) = true)
    (hr : ∀ n ∈ m :: more, (getPart s n.1).st = .running ∧ (getPart s n.1).squall = false) :
    ∃ t, exec (.boundaryMove m more) s = .next t ∧ t.mem = s.mem ∧ ∀ n ∈ m :: more,
      (getPart t n.1).st = .quiescing ∧ (getPart t n.1).stopMove = some (m :: more) ∧ (getPart t n.1).lay = (getPart s n.1).lay := by
  have hmark : ∀ n ∈ m :: more, getPart (markMove s (m :: more) (m :: more)) n.1 = stopFor (m :: more) (getPart s n.1) :=
    fun n hn => by rw [getPart_markMove, if_pos (List.mem_map_of_mem hn)]
  obtain ⟨hmem, -, hin⟩ := quiesceAll_running (m :: more) (nodup_of_moveAllowed ha) (markMove s (m :: more) (m :: more)) fun n hn => by
    rw [hmark n hn]
    exact hr n hn
  have hstill : stoodStill (quiesceAll (markMove s (m :: more) (m :: more)) (m :: more)) m.1 = false := by
    rw [stoodStill, (hin m List.mem_cons_self).1]
  refine ⟨quiesceAll (markMove s (m :: more) (m :: more)) (m :: more), ?_, hmem.trans (markMove_frame ..).1, fun n hn => ?_⟩
  · rw [exec_boundaryMove_allowed ha]
    dsimp only
    rw [List.all_cons, hstill, Bool.false_and, Bool.not_false, if_pos rfl]
  · obtain ⟨h1, h2, h3⟩ := hin n hn
    rw [hmark n hn] at h2 h3
    exact ⟨h1, h2, h3⟩

/-! ### One stopped partition -/

theorem getPart_giveCores (s : State) (m : Nat × Layout) (p : Nat) : getPart (giveCores s m) p = getPart s p :=
  foldl_keeps (getPart · p) (f := fun s c => modCore s c fun k => { cyc := k.cyc, age := k.age }) (fun _ _ => rfl) _ s

theorem getPart_rehash (s : State) (m : Nat × Layout) :
    getPart (rehash s m) m.1 = { getPart s m.1 with lay := m.2, stopMove := none } := by
  have hcores : ∀ (l : List Nat) (u : State),
      getPart (l.foldl (fun s c => modCore s c fun k => { part := m.1, cyc := k.cyc, age := k.age }) u) m.1 = getPart u m.1 := fun l u =>
    foldl_keeps (getPart · m.1) (f := fun s c => modCore s c fun k => { part := m.1, cyc := k.cyc, age := k.age }) (fun _ _ => rfl) l u
  rw [rehash, getPart_modPart_self]
  dsimp only
  rw [hcores]
  rfl

theorem resumeMoved_stopped {s : State} {part : Nat} (h : (getPart s part).st = .halted ∨ (getPart s part).st = .preempted) :
    resumeMoved s part = s := by
  rw [resumeMoved]
  rcases h with h | h <;> rw [h] <;> rfl

theorem getPart_journalMove (s : State) (part : Nat) (moves : List (Nat × Layout)) :
    ∃ j, getPart (journalMove s part moves) part = { getPart s part with journal := j, jnext := (getPart s part).jnext + 1 } :=
  ⟨_, getPart_modPart_self ..⟩

theorem finishMove_single (s : State) (part : Nat) (lay : Layout) : finishMove s [(part, lay)] =
    resumeMoved (journalMove (rehash (giveCores s (part, lay)) (part, lay)) part [(part, lay)]) part := by
  simp only [finishMove, List.foldl_cons, List.foldl_nil]

/-- A stopped partition's move made: it has its new layout, and a journal entry more. -/
theorem finishMove_stopped {s : State} {part : Nat} (lay : Layout) (h : (getPart s part).st = .halted ∨ (getPart s part).st = .preempted) :
    (getPart (finishMove s [(part, lay)]) part).lay = lay ∧ (getPart (finishMove s [(part, lay)]) part).st = (getPart s part).st ∧
      (getPart (finishMove s [(part, lay)]) part).stopMove = none ∧
      (getPart (finishMove s [(part, lay)]) part).jnext = (getPart s part).jnext + 1 := by
  have hre : getPart (rehash (giveCores s (part, lay)) (part, lay)) part = { getPart s part with lay := lay, stopMove := none } := by
    rw [getPart_rehash, getPart_giveCores]
  obtain ⟨j, hj⟩ := getPart_journalMove (rehash (giveCores s (part, lay)) (part, lay)) part [(part, lay)]
  rw [hre] at hj
  have hfin : finishMove s [(part, lay)] = journalMove (rehash (giveCores s (part, lay)) (part, lay)) part [(part, lay)] :=
    (finishMove_single s part lay).trans (resumeMoved_stopped (by rw [hj]; exact h))
  rw [hfin, hj]
  exact ⟨rfl, rfl, rfl, rfl⟩

theorem leavesEmpty_markMove (s : State) (part : Nat) (lay : Layout) (moves l : List (Nat × Layout)) :
    leavesEmpty (markMove s moves l) part lay = leavesEmpty s part lay := by
  have hpart : (getPart (markMove s moves l) part).lay = (getPart s part).lay ∧ (getPart (markMove s moves l) part).nodes = (getPart s part).nodes := by
    rw [getPart_markMove]
    split <;> exact ⟨rfl, rfl⟩
  have hcore : ∀ c, getCore (markMove s moves l) c = getCore s c := fun c => by rw [getCore, getCore, (markMove_frame moves l s).2]
  simp only [leavesEmpty, occupied, hpart.1, hpart.2, hcore]

theorem boundaryMove_completes {s : State} {part : Nat} {lay : Layout} (ha : moveAllowed s [(part, lay)] = true)
    (h : (getPart s part).st = .halted ∨ (getPart s part).st = .preempted) :
    ∃ t, exec (.boundaryMove (part, lay) []) s = .next t ∧ (getPart t part).lay = lay ∧ (getPart t part).st = (getPart s part).st ∧
      (getPart t part).stopMove = none ∧ (getPart t part).jnext = (getPart s part).jnext + 1 := by
  have hmark : getPart (markMove s [(part, lay)] [(part, lay)]) part = stopFor [(part, lay)] (getPart s part) := by
    rw [getPart_markMove, List.map_singleton, if_pos (List.mem_singleton.2 rfl)]
  have hst : (getPart (markMove s [(part, lay)] [(part, lay)]) part).st = .halted ∨
      (getPart (markMove s [(part, lay)] [(part, lay)]) part).st = .preempted := by rw [hmark]; exact h
  have hq : quiesceAll (markMove s [(part, lay)] [(part, lay)]) [(part, lay)] = markMove s [(part, lay)] [(part, lay)] := quiesceOn_stopped hst
  have hstill : stoodStill (markMove s [(part, lay)] [(part, lay)]) part = true := by
    rw [stoodStill]
    rcases hst with h | h <;> rw [h]
  have hempty : leavesEmpty (markMove s [(part, lay)] [(part, lay)]) part lay = true := by
    rw [leavesEmpty_markMove]
    exact (moveAllowed_each ha (List.mem_singleton.2 rfl)).2
  obtain ⟨hlay, hstate, hstop, hnext⟩ := finishMove_stopped lay hst
  rw [hmark] at hstate hnext
  refine ⟨finishMove (markMove s [(part, lay)] [(part, lay)]) [(part, lay)], ?_, hlay, hstate, hstop, hnext⟩
  rw [exec_boundaryMove_allowed ha, hq]
  simp only [List.all_cons, List.all_nil, hstill, hempty, Bool.and_self, Bool.not_true, Bool.false_eq_true, if_false, if_true]

theorem boundariesMove : Says.BoundariesMove :=
  ⟨fun _ _ _ ha ⟨_, hn, hne⟩ => exec_boundaryMove_refused ha (moveBegun_false hn hne), fun _ _ _ ha h => boundaryMove_completes ha h,
    fun _ _ _ ha hr => boundaryMove_quiesces ha hr⟩

/-! ## Scrubbing -/

/-- Uncorrectable lines that a scrub meets, each reported at its die (R334). -/
def reportHits (s : State) (die : Nat) (l : List Nat) : State := l.foldl (fun s a => logError s die (ueReport die 11 0 0 0 (128 * a))) s

/-- Reports of errors change dies alone. -/
theorem reportHits_frame (s : State) (die : Nat) (l : List Nat) : (reportHits s die l).mem = s.mem ∧ (reportHits s die l).poison = s.poison ∧
    (reportHits s die l).cores = s.cores :=
  ⟨foldl_keeps State.mem (f := fun s a => logError s die (ueReport die 11 0 0 0 (128 * a))) (fun _ _ => rfl) l s,
    foldl_keeps State.poison (f := fun s a => logError s die (ueReport die 11 0 0 0 (128 * a))) (fun _ _ => rfl) l s,
    foldl_keeps State.cores (f := fun s a => logError s die (ueReport die 11 0 0 0 (128 * a))) (fun _ _ => rfl) l s⟩

/-- The lines that a scrub of one period covers (R334). -/
def scrubLines (s : State) (stack : Nat) : Nat :=
  let k := mapGet {} s.hbm stack
  if k.share * 81920 < 100 * k.demand then 0
  else min (mapGet 512 (getDie s (stack / 4)).budgets (budgetKey 0 .scrub))
    (min 512 (8 * tempFactor (Config.freeChoice s.free) * errFactor (k.hist.foldl (· + ·) 0)))

theorem scrubLines_le (s : State) (stack : Nat) : scrubLines s stack ≤ 512 := by
  unfold scrubLines
  dsimp only
  split <;> omega

theorem scrubLines_held {s : State} {stack : Nat} (h : (mapGet {} s.hbm stack).share * 81920 < 100 * (mapGet {} s.hbm stack).demand) :
    scrubLines s stack = 0 := if_pos h

theorem exec_scrubPeriod_stack {s : State} {stack : Nat} (h : stack < 32) : ∃ l hist,
    exec (.scrubPeriod stack) s = .next { reportHits s (stack / 4) l with
      free := s.free + 2,
      hbm := mapSet {} (reportHits s (stack / 4) l).hbm stack { mapGet {} s.hbm stack with
        pos := ((mapGet {} s.hbm stack).pos + scrubLines s stack) % stackLines, hist := hist, demand := 0 } } := by
  refine ⟨scrubHits s stack (mapGet {} s.hbm stack).pos (scrubLines s stack),
    (Config.freeChoice (s.free + 1) :: (mapGet {} s.hbm stack).hist).take 16, ?_⟩
  rw [exec_scrubPeriod, execScrubPeriod, if_neg (Nat.not_le.2 h)]
  simp only [scrubLines, decide_eq_true_eq, reportHits]

theorem stacksAreScrubbed : Says.StacksAreScrubbed := by
  intro s stack h
  obtain ⟨l, hist, hx⟩ := exec_scrubPeriod_stack (s := s) h
  obtain ⟨hmem, hpoison, hcores⟩ := reportHits_frame s (stack / 4) l
  refine ⟨_, scrubLines s stack, hx, scrubLines_le s stack, ?_, scrubLines_held, hmem, hpoison, hcores⟩
  rw [mapGet_mapSet_self]

/-! ## Clocks and cooling -/

theorem getDie_setFreq (s : State) (die f : Nat) :
    getDie (setFreq s die f) die = { getDie s die with freq := f, clkBase := meshClock s die, clkCyc := dieCycles s die } := by
  rw [setFreq, getDie_modDie, if_pos rfl]

theorem dieCycles_of_cores {s t : State} (h : t.cores = s.cores) (die : Nat) : dieCycles t die = dieCycles s die := by
  rw [dieCycles, dieCycles, h]

/-- The mesh clock goes on from where it stands: the new base is its value, with no cycle counted since. -/
theorem meshClock_setFreq (s : State) (die f : Nat) : meshClock (setFreq s die f) die = meshClock s die := by
  have hcyc : dieCycles (setFreq s die f) die = dieCycles s die := dieCycles_of_cores rfl die
  rw [meshClock, getDie_setFreq, hcyc]
  simp

theorem exec_frequencyChange_set {s : State} {die f : Nat} (hd : die < 8) (h8 : 8 ≤ f) (h25 : f ≤ 25) :
    exec (.frequencyChange die f) s = .next (setFreq s die f) := by
  simp [execFrequencyChange, hd, h8, h25]

theorem exec_frequencyChange_ignored {s : State} {die f : Nat} (h : 8 ≤ die ∨ f < 8 ∨ 25 < f) :
    exec (.frequencyChange die f) s = .next s := by
  rw [exec_frequencyChange, execFrequencyChange, if_neg]
  simp only [Bool.and_eq_true, decide_eq_true_eq]
  omega

theorem exec_thermalThrottle_lowered {s : State} {die : Nat} (hd : die < 8) (hf : 8 < (getDie s die).freq) :
    exec (.thermalThrottle die) s =
      .next (setFreq { s with free := s.free + 1 } die (8 + Config.freeChoice s.free % ((getDie s die).freq - 8))) := by
  simp [execThermalThrottle, hd, hf]

theorem getPart_raiseSquall_ne (s : State) {part p : Nat} (c : Cause) (h : p ≠ part) : getPart (raiseSquall s part c) p = getPart s p := by
  unfold raiseSquall
  dsimp only
  split
  · rfl
  · rw [getPart_post, journal, getPart_modPart_ne _ _ h, (writesOnly_foldl _ (writesOnly_summaryFor part c) _ _).getPart, getPart_modPart_ne _ _ h,
      stopClocks, getPart_modPart_ne _ _ h]

/-- Lines raised one after another are all up: a rise lowers none. -/
theorem raiseAll_squall (c : Cause) (l : List Nat) (s : State) (p : Nat) (h : p ∈ l ∨ (getPart s p).squall = true) :
    (getPart (l.foldl (fun s p => raiseSquall s p c) s) p).squall = true := by
  induction l generalizing s with
  | nil => exact h.resolve_left List.not_mem_nil
  | cons a t ih =>
    refine ih _ ?_
    by_cases hp : p = a
    · subst hp
      exact .inr (raiseSquall_spec s p c).1
    · rw [getPart_raiseSquall_ne s c hp]
      exact h.imp_left fun hm => (List.mem_cons.1 hm).resolve_left hp

theorem raiseAll_frame (c : Cause) (l : List Nat) (s : State) : (l.foldl (fun s p => raiseSquall s p c) s).cores = s.cores ∧
    (l.foldl (fun s p => raiseSquall s p c) s).mgmt = s.mgmt :=
  ⟨foldl_keeps State.cores (fun s p => (raiseSquall_spec s p c).2.1) l s, foldl_keeps State.mgmt (fun s p => mgmt_raiseSquall s p c) l s⟩

/-- Every partition's line up, and the shutdown under way and reported. -/
def shutDown (s : State) : State :=
  let s1 := (List.range 8).foldl (fun s p => raiseSquall s p { code := 0x11 }) s
  sideReply { s1 with mgmt := { s1.mgmt with shutdown := true } } 0x100 []

theorem shutDown_frame (s : State) : (shutDown s).cores = s.cores ∧ (shutDown s).mgmt.shutdown = true ∧
    (shutDown s).mgmt.replies = s.mgmt.replies ++ [(0x100, [])] ∧ ∀ p, p < 8 → (getPart (shutDown s) p).squall = true := by
  obtain ⟨hcores, hmgmt⟩ := raiseAll_frame { code := 0x11 } (List.range 8) s
  have hparts : (shutDown s).parts = ((List.range 8).foldl (fun s p => raiseSquall s p { code := 0x11 }) s).parts := by
    simp only [shutDown, sideReply]
  refine ⟨?_, ?_, ?_, fun p hp => ?_⟩
  · simp only [shutDown, sideReply, hcores]
  · simp only [shutDown, sideReply]
  · simp only [shutDown, sideReply, hmgmt]
  · rw [getPart_of_parts hparts]
    exact raiseAll_squall _ _ s p (.inl (List.mem_range.2 hp))

theorem exec_thermalShutdown_begins {s : State} (h : s.mgmt.shutdown = false) : exec .thermalShutdown s = .next (shutDown s) := by
  rw [exec_thermalShutdown, execThermalShutdown, h]
  rfl

/-- The power of some dies taken. -/
def powerDown (s : State) (l : List Nat) : State := l.foldl (fun s d => modDie s d fun k => { k with powered := false }) s

theorem exec_thermalShutdown_ends {s : State} (h : s.mgmt.shutdown = true) (ha : s.agenda = []) :
    exec .thermalShutdown s = .next (powerDown s (List.range 8)) := by
  rw [exec_thermalShutdown, execThermalShutdown, h, ha]
  rfl

theorem powered_powerDown (l : List Nat) (s : State) (d : Nat) (h : d ∈ l ∨ (getDie s d).powered = false) :
    (getDie (powerDown s l) d).powered = false := by
  induction l generalizing s with
  | nil => exact h.resolve_left List.not_mem_nil
  | cons a t ih =>
    refine ih _ ?_
    rw [getDie_modDie]
    by_cases hd : d = a
    · exact .inr (by rw [if_pos hd])
    · rw [if_neg hd]
      exact h.imp_left fun hm => (List.mem_cons.1 hm).resolve_left hd

theorem powerDown_frame (l : List Nat) (s : State) : (powerDown s l).mem = s.mem ∧ (powerDown s l).cores = s.cores :=
  ⟨foldl_keeps State.mem (f := fun s d => modDie s d fun k => { k with powered := false }) (fun _ _ => rfl) l s,
    foldl_keeps State.cores (f := fun s d => modDie s d fun k => { k with powered := false }) (fun _ _ => rfl) l s⟩

theorem clocksAndCooling : Says.ClocksAndCooling := by
  refine ⟨fun s die f hd h8 h25 => ?set, fun s die f h => exec_frequencyChange_ignored h, fun s die hd hf => ?throttle, fun s h => ?begins,
    fun s h ha => ?ends⟩
  case set =>
    refine ⟨_, exec_frequencyChange_set hd h8 h25, ?_, meshClock_setFreq s die f, ?_, ?_⟩
    · rw [getDie_setFreq]
    · rfl
    · rfl
  case throttle =>
    have hlt := Nat.mod_lt (Config.freeChoice s.free) (y := (getDie s die).freq - 8) (by omega)
    refine ⟨_, exec_thermalThrottle_lowered hd hf, ?_, ?_, ?_, ?_⟩
    · rw [getDie_setFreq]
      exact Nat.le_add_right ..
    · rw [getDie_setFreq]
      dsimp only
      omega
    · rfl
    · rfl
  case begins =>
    obtain ⟨hcores, hdown, hreplies, hlines⟩ := shutDown_frame s
    exact ⟨_, exec_thermalShutdown_begins h, hdown, hcores, hreplies, hlines⟩
  case ends =>
    obtain ⟨hmem, hcores⟩ := powerDown_frame (List.range 8) s
    exact ⟨_, exec_thermalShutdown_ends h ha, fun d hd => powered_powerDown _ s d (.inl (List.mem_range.2 hd)), hmem, hcores⟩

/-! ## Module reset -/

/-- The state of a module reset: that of bring-up, with what stays over it. -/
def moduleReset (s : State) : State :=
  { State.reset with free := s.free, reqId := s.reqId, fns := s.fns, links := s.links, mgmt := bootedMgmt s.mgmt }

theorem presented_moduleReset (s : State) : presented (moduleReset s) = true ↔ s.mgmt.nextBoot = .presented := beq_iff_eq

/-- A bring-up that does not present the module is told of at the side-band port. -/
theorem replies_bootedMgmt {m : Mgmt} (h : m.nextBoot ≠ .presented) : (bootedMgmt m).replies ≠ [] := by
  rw [bootedMgmt]
  dsimp only
  split
  · next hp => exact absurd hp h
  · exact List.cons_ne_nil _ _
  · exact List.cons_ne_nil _ _

theorem moduleResets : Says.ModuleResets := by
  intro s
  refine ⟨moduleReset s, rfl, rfl, rfl, rfl, rfl, rfl, rfl, rfl, rfl, rfl, rfl, presented_moduleReset s, fun h => ?_⟩
  refine replies_bootedMgmt fun hp => ?_
  rw [(presented_moduleReset s).2 hp] at h
  cases h

/-- Settles O56: a containment by what each of its parts leaves of slots, error counts and the block's node, boundary moves by induction over their
partitions, and the package's events by their equations. -/
theorem containmentAndPackage : Obligations.ContainmentAndPackage :=
  ⟨blocksAreContained, boundariesMove, stacksAreScrubbed, clocksAndCooling, moduleResets⟩

end Sys2Proof.Machine
end

section
/-! What follows a departure (R130): a group without lanes may exit, and everything else stays as it stands. -/
namespace Sys2Proof.Machine

/-! ## The frame of an exit -/

/-- `t` differs from `s` as exits of groups without lanes make it differ: in slots of such groups, in nodes, in the queues of swaps and of estate walks,
and in the agenda. -/
structure ExitFrame (s t : State) : Prop where
  rest : { t with agenda := [], cores := [], dies := [], parts := [] } = { s with agenda := [], cores := [], dies := [], parts := [] }
  core : ∀ c, { getCore t c with slots := [] } = { getCore s c with slots := [] }
  part : ∀ p, { getPart t p with nodes := [] } = { getPart s p with nodes := [] }
  die : ∀ d, { getDie t d with swapq := [], estq := [] } = { getDie s d with swapq := [], estq := [] }
  groups : ∀ c k g, getGroup s c k = some g → g.front ≠ [] → getGroup t c k = some g

namespace ExitFrame

theorem refl (s : State) : ExitFrame s s := ⟨rfl, fun _ => rfl, fun _ => rfl, fun _ => rfl, fun _ _ _ h _ => h⟩

theorem trans {s t u : State} (h : ExitFrame s t) (k : ExitFrame t u) : ExitFrame s u :=
  ⟨k.rest.trans h.rest, fun c => (k.core c).trans (h.core c), fun p => (k.part p).trans (h.part p), fun d => (k.die d).trans (h.die d),
    fun c j g hg hf => k.groups c j g (h.groups c j g hg hf) hf⟩

section
variable {s t : State} (h : ExitFrame s t)
include h

theorem mem : t.mem = s.mem := (State.mk.inj h.rest).2.2.2.2.2.2.1
theorem live : t.live = s.live := (State.mk.inj h.rest).2.2.2.2.2.2.2.2.1
theorem clusters : t.clusters = s.clusters := (State.mk.inj h.rest).2.2.2.2.2.2.2.2.2.2.1
theorem bufs (c : Nat) : (getCore t c).bufs = (getCore s c).bufs := congrArg (·.bufs) (h.core c)
theorem l1 (c : Nat) : (getCore t c).l1 = (getCore s c).l1 := congrArg (·.l1) (h.core c)
theorem holdq (p : Nat) : (getPart t p).holdq = (getPart s p).holdq := congrArg (·.holdq) (h.part p)
theorem late (p : Nat) : (getPart t p).late = (getPart s p).late := congrArg (·.late) (h.part p)
theorem serial (d : Nat) : (getDie t d).serial = (getDie s d).serial := congrArg (·.serial) (h.die d)
theorem errlog (d : Nat) : (getDie t d).errlog = (getDie s d).errlog := congrArg (·.errlog) (h.die d)

end

end ExitFrame

theorem exitFrame_post (s : State) (l : List Instr) : ExitFrame s (post s l) :=
  ⟨rfl, fun _ => rfl, fun _ => rfl, fun _ => rfl, fun _ _ _ h _ => h⟩

theorem exitFrame_modNode (s : State) (part : Nat) (a : DWord) (f : Node → Node) : ExitFrame s (modNode s part a f) := by
  refine ⟨rfl, fun _ => rfl, fun p => ?_, fun _ => rfl, fun _ _ _ h _ => h⟩
  rw [modNode, getPart_modPart]
  split
  · next hp => rw [hp]
  · rfl

theorem exitFrame_modDie (s : State) (die : Nat) (f : Die → Die)
    (hf : ∀ d, { f d with swapq := [], estq := [] } = { d with swapq := [], estq := [] }) : ExitFrame s (modDie s die f) := by
  refine ⟨rfl, fun _ => rfl, fun _ => rfl, fun d => ?_, fun _ _ _ h _ => h⟩
  rw [getDie_modDie]
  split
  · next hd => rw [hd, hf]
  · rfl

/-- A slot freed of a group that has no lanes left, or of none. -/
theorem exitFrame_dropGroup {s : State} {core slot : Nat} (h : ∀ g, getGroup s core slot = some g → g.front = []) :
    ExitFrame s (dropGroup s core slot) := by
  refine ⟨rfl, fun c => ?_, fun _ => rfl, fun _ => rfl, fun c k g hg hf => ?_⟩
  · rw [dropGroup, getCore_modCore]
    split
    · next hc => rw [hc]
    · rfl
  · have hne : (c, k) ≠ (core, slot) := by
      rintro ⟨⟩
      exact hf (h g hg)
    rw [getGroup_dropGroup_ne _ _ _ _ _ hne, hg]

/-! ## Exits -/

/-- A tile of a lattice that is not overcast leaves no record: its bank stays with its node (R177). -/
theorem latticeExit_kept {n : Node} (h : overcast n = false) (g : Group) (s : State) : latticeExit g n s = markExited g n true s := by
  rw [latticeExit, h]
  rfl

theorem exitFrame_markExited (g : Group) (n : Node) (kept : Bool) (s : State) : ExitFrame s (markExited g n kept s) :=
  exitFrame_modNode s _ _ _

theorem exitFrame_freeSlot {s : State} {core slot : Nat} {g : Group} (h : ∀ i, getGroup s core slot = some i → i.front = [])
    (hl : g.shadow = .leader → ∀ i, getGroup s core (slot + 1) = some i → i.front = []) (lattice : Bool) :
    ExitFrame s (freeSlot s core slot g lattice) := by
  unfold freeSlot
  refine .trans ?_ (exitFrame_post _ _)
  split
  · next hs =>
    refine (exitFrame_dropGroup (hl (by simpa using hs))).trans (exitFrame_dropGroup fun i hi => h i ?_)
    rwa [getGroup_dropGroup_ne] at hi
    intro he
    have hslot : slot = slot + 1 := congrArg Prod.snd he
    omega
  · exact exitFrame_dropGroup h

section
variable {core slot : Nat} {g : Group}

theorem exitFrame_leaveSlot {s : State} (h : ∀ i, getGroup s core slot = some i → i.front = [])
    (hl : g.shadow = .leader → ∀ i, getGroup s core (slot + 1) = some i → i.front = []) (n : Node) :
    ExitFrame s (leaveSlot s core slot g n) := by
  unfold leaveSlot
  dsimp only
  split
  · refine .trans ?_ (exitFrame_post _ _)
    refine .trans ?_ (exitFrame_modNode _ _ _ _)
    exact exitFrame_modDie s _ _ fun _ => rfl
  · next ho =>
    split
    · exact exitFrame_freeSlot h hl _
    · next hd =>
      have hover : overcast n = false := by simpa [hd] using ho
      rw [latticeExit_kept hover]
      exact (exitFrame_markExited g n true s).trans (exitFrame_freeSlot (s := markExited g n true s) h hl _)

theorem exitFrame_groupExit {s : State} (h : ∀ i, getGroup s core slot = some i → i.front = [])
    (hl : g.shadow = .leader → ∀ i, getGroup s core (slot + 1) = some i → i.front = []) (n : Node) :
    ExitFrame s (groupExit core slot g n s) := by
  unfold groupExit
  dsimp only
  generalize hu : modNode s g.part g.node _ = u
  have hframe : ExitFrame s u := hu ▸ exitFrame_modNode s g.part g.node _
  have hcores : u.cores = s.cores := by rw [← hu]; rfl
  refine hframe.trans ?_
  split
  · exact .refl u
  · split
    · refine exitFrame_leaveSlot (fun i hi => h i ?_) (fun hs i hi => hl hs i ?_) n <;> rwa [getGroup_of_cores hcores] at hi
    · refine .trans ?_ (exitFrame_post _ _)
      refine .trans ?_ (exitFrame_modDie _ _ _ fun _ => rfl)
      exact exitFrame_modNode u _ _ _

end

theorem exitFrame_maybeExit (core slot : Nat) (n : Node) (s : State) : ExitFrame s (maybeExit core slot n s) := by
  unfold maybeExit
  split
  · exact .refl s
  · next g hg =>
    split
    · exact .refl s
    · next hf =>
      have hempty : g.front = [] := by simpa using hf
      have hself : ∀ i, getGroup s core slot = some i → i.front = [] := fun i hi => by
        cases hg.symm.trans hi
        exact hempty
      split
      · next hs => exact exitFrame_groupExit hself (fun hl => by rw [hs] at hl; cases hl) n
      · split
        · next i hi =>
          split
          · next hn =>
            refine exitFrame_groupExit hself (fun _ j hj => ?_) n
            cases hi.symm.trans hj
            exact List.isEmpty_iff.1 hn
          · exact .refl s
        · next hi => exact exitFrame_groupExit hself (fun _ j hj => by rw [hi] at hj; cases hj) n
      · next hs =>
        split
        · next l hl =>
          split
          · next hn =>
            have hlead : ∀ i, getGroup s core (slot - 1) = some i → i.front = [] := fun i hi => by
              cases hl.symm.trans hi
              exact List.isEmpty_iff.1 hn
            refine exitFrame_groupExit hlead (fun hls j hj => ?_) n
            rcases Nat.eq_zero_or_pos slot with h0 | hpos
            · subst h0
              cases hl.symm.trans hg
              rw [hs] at hls
              cases hls
            · rw [Nat.sub_add_cancel hpos] at hj
              exact hself j hj
          · exact .refl s
        · exact .refl s

theorem exitFrame_exitOn (s : State) (e : SbEntry) : ExitFrame s (exitOn s e) := by
  unfold exitOn
  split
  · split
    · exact exitFrame_maybeExit _ _ _ s
    · exact .refl s
  · exact .refl s

/-- What may go on once an entry has left a buffer or a queue is an exit, and events on the agenda. -/
theorem exitFrame_gone (s : State) (e : SbEntry) : ExitFrame s (gone s e) := (exitFrame_exitOn s e).trans (exitFrame_post _ _)

end Sys2Proof.Machine
end

section
/-! Releases of block store buffers (R147, R148, R233, R326). -/
namespace Sys2Proof.Machine

/-! ## The buffer -/

theorem bufOf_blk (k : Core) (blk : Nat) : (bufOf k blk).blk = blk := by
  unfold bufOf
  cases h : k.bufs.find? fun b => b.blk == blk with
  | none => rfl
  | some b => simpa using List.find?_some h

theorem bufOf_ents (k : Core) (blk : Nat) : (bufOf k blk).ents = ((k.bufs.find? fun b => b.blk == blk).map (·.ents)).getD [] := by
  unfold bufOf
  cases k.bufs.find? fun b => b.blk == blk <;> rfl

theorem bufOf_ents_congr {k j : Core} (h : k.bufs = j.bufs) (blk : Nat) : (bufOf k blk).ents = (bufOf j blk).ents := by
  rw [bufOf_ents, bufOf_ents, h]

/-- A buffer just set holds what was put into it. -/
theorem bufOf_bufSet (k : Core) (b : BlockBuf) : (bufOf (bufSet k b) b.blk).ents = b.ents := by
  have hrest : (k.bufs.filter fun o => o.blk != b.blk).find? (fun o => o.blk == b.blk) = none := by
    rw [List.find?_eq_none]
    intro o ho
    simpa using (List.mem_filter.1 ho).2
  rw [bufOf_ents, bufSet]
  dsimp only
  split
  · next he =>
    rw [hrest]
    exact (List.isEmpty_iff.1 he).symm
  · rw [List.find?_append, hrest]
    simp

theorem bufs_headless_self (s : State) (core blk : Nat) (t : List SbEntry) : (bufOf (getCore (headless s core blk t) core) blk).ents = t := by
  have h := bufOf_bufSet (getCore s core) { bufOf (getCore s core) blk with ents := t }
  rw [bufOf_blk] at h
  rw [headless, getCore_modCore, if_pos rfl]
  exact h

/-- Taking a buffer's head changes the core's buffers alone. -/
theorem getCore_headless (s : State) (core blk : Nat) (t : List SbEntry) (c : Nat) :
    (getCore (headless s core blk t) c).slots = (getCore s c).slots ∧ (getCore (headless s core blk t) c).l1 = (getCore s c).l1 := by
  rw [headless, getCore_modCore]
  split
  · next h =>
    rw [h]
    exact ⟨rfl, rfl⟩
  · exact ⟨rfl, rfl⟩

/-! ## What one release does -/

/-- The state once an entry has been sent and has left its buffer. -/
def released (core blk : Nat) (t : List SbEntry) (e : SbEntry) (u : State) : State :=
  if t.isEmpty then gone u e else post (gone u e) [.storeBufferRelease core blk]

section
variable {core blk : Nat} {s : State} {e : SbEntry} {t : List SbEntry} (hb : (bufOf (getCore s core) blk).ents = e :: t)
include hb

theorem exec_storeBufferRelease_sent (hc : checked s e = true) (hp : powered s core = true) {u : State}
    (hs : sendEntry (headless s core blk t) e = some u) : exec (.storeBufferRelease core blk) s = .next (released core blk t e u) := by
  rw [headless] at hs
  simp only [exec_storeBufferRelease, execStoreBufferRelease, hb, hc, hp, hs, released, Bool.not_true, Bool.or_self, Bool.false_eq_true, if_false]

/-- An entry without room stays; the front end may ask for the pages of a control block. -/
theorem exec_storeBufferRelease_stays (hc : checked s e = true) (hp : powered s core = true) (hg : ∀ m i d, e.op ≠ .bgid m i d)
    (hs : sendEntry (headless s core blk t) e = none) : exec (.storeBufferRelease core blk) s = .next s := by
  rw [headless] at hs
  simp only [exec_storeBufferRelease, execStoreBufferRelease, hb, hc, hp, hs, Bool.not_true, Bool.or_self, Bool.false_eq_true, if_false]

theorem exec_storeBufferRelease_waits (h : checked s e = false ∨ powered s core = false) :
    exec (.storeBufferRelease core blk) s = .next s := by
  have hor : (!checked s e || !powered s core) = true := by simpa using h
  simp only [exec_storeBufferRelease, execStoreBufferRelease, hb, hor, if_true]

end

theorem exitFrame_released (core blk : Nat) (t : List SbEntry) (e : SbEntry) (u : State) : ExitFrame u (released core blk t e u) := by
  unfold released
  split
  · exact exitFrame_gone u e
  · exact (exitFrame_gone u e).trans (exitFrame_post _ _)

/-! ## Accesses to memory -/

/-- What a release does to the L1 of an entry's core (R147, log 55). -/
def entryL1 (e : SbEntry) (k : Core) : Core :=
  match e.op with
  | .store false bs => l1Update k bs
  | .store true _ | .rmw .. | .bop .. | .hold .. => l1Drop k e.line
  | _ => k

theorem entryL1_keeps (e : SbEntry) (k : Core) : (entryL1 e k).bufs = k.bufs ∧ (entryL1 e k).slots = k.slots := by
  unfold entryL1
  split <;> exact ⟨rfl, rfl⟩

theorem entryL1_store {e : SbEntry} {bs : List (Nat × Byte)} (h : e.op = .store false bs) (k : Core) : entryL1 e k = l1Update k bs := by
  rw [entryL1, h]

theorem entryL1_drop {e : SbEntry} (h : dropsLine e = true) (k : Core) : entryL1 e k = l1Drop k e.line := by
  unfold dropsLine at h
  unfold entryL1
  split at h
  · next hop => rw [hop]
  · next hop => rw [hop]
  · next hop => rw [hop]
  · next hop => rw [hop]
  · cases h

theorem markReleased_frame (s : State) (part : Nat) (a : DWord) (blk : Nat) : (markReleased s part a blk).mem = s.mem ∧
    (markReleased s part a blk).clusters = s.clusters ∧ (markReleased s part a blk).cores = s.cores := ⟨rfl, rfl, rfl⟩

/-- The state in which an access to memory enters its cluster's queue: the L1 of its core follows it. -/
def QueuedFrom (s : State) (e : SbEntry) (v : State) : Prop :=
  v.mem = s.mem ∧ v.clusters = s.clusters ∧ ∀ c, getCore v c = if c = e.core then entryL1 e (getCore s c) else getCore s c

theorem queuedFrom_modCore {s w : State} {e : SbEntry} (hm : w.mem = s.mem) (hc : w.clusters = s.clusters) (hk : w.cores = s.cores)
    {f : Core → Core} (hf : ∀ k, f k = entryL1 e k) : QueuedFrom s e (modCore w e.core f) := by
  have hcore : ∀ c, getCore w c = getCore s c := fun c => by rw [getCore, getCore, hk]
  refine ⟨hm, hc, fun c => ?_⟩
  rw [getCore_modCore]
  split
  · next h => rw [hf, h, hcore]
  · exact hcore c

theorem sendEntry_plain {s : State} {e : SbEntry} (hp : isPlain e = true) (hl : isLate s e = false) :
    ∃ v, sendEntry s e = some (enterQueue v e) ∧ QueuedFrom s e v := by
  obtain ⟨hm, hc, hk⟩ := markReleased_frame s e.part e.node e.blk
  unfold sendEntry
  cases hop : e.op with
  | store ev bs =>
    cases ev with
    | true => exact ⟨_, rfl, queuedFrom_modCore rfl rfl rfl fun k => (entryL1_drop (by rw [dropsLine, hop]) k).symm⟩
    | false => exact ⟨_, rfl, queuedFrom_modCore rfl rfl rfl fun k => (entryL1_store hop k).symm⟩
  | rmw => exact ⟨_, rfl, queuedFrom_modCore hm hc hk fun k => (entryL1_drop (by rw [dropsLine, hop]) k).symm⟩
  | bop => exact ⟨_, rfl, queuedFrom_modCore hm hc hk fun k => (entryL1_drop (by rw [dropsLine, hop]) k).symm⟩
  | hold => exact ⟨_, rfl, queuedFrom_modCore hm hc hk fun k => (entryL1_drop (by rw [dropsLine, hop]) k).symm⟩
  | redt ident leaf value =>
    have hgen : (identOf s e.part ident).gen = e.gen := by simpa [isLate, hop] using hl
    refine ⟨_, if_pos hgen, hm, hc, fun c => ?_⟩
    have hl1 : entryL1 e (getCore s c) = getCore s c := by rw [entryL1, hop]
    rw [hl1, ite_self]
    rfl
  | _ => simp [isPlain, hop] at hp

theorem sendWrite_frame (s : State) (e : SbEntry) : (sendWrite s e).mem = s.mem ∧ (sendWrite s e).clusters = s.clusters ∧
    (sendWrite s e).cores = s.cores := ⟨rfl, rfl, rfl⟩

theorem enterQueue_frame (s : State) (e : SbEntry) : (enterQueue s e).mem = s.mem ∧ (enterQueue s e).cores = s.cores ∧
    (getCluster (enterQueue s e) (clusterOf e.core)).wq = (getCluster s (clusterOf e.core)).wq ++ [e] := by
  have hwq : (getCluster (modCluster s (clusterOf e.core) fun k => { k with wq := k.wq ++ [e] }) (clusterOf e.core)).wq =
      (getCluster s (clusterOf e.core)).wq ++ [e] := by rw [getCluster_modCluster, if_pos rfl]
  unfold enterQueue
  dsimp only
  split
  · exact ⟨rfl, rfl, hwq⟩
  · exact ⟨rfl, rfl, hwq⟩

theorem checkedHeadIsReleased : Says.BufferReleases := by
  intro core blk s e t hb hc hp hl hpow
  obtain ⟨v, hv, hmem, hclusters, hcores⟩ := sendEntry_plain (s := headless s core blk t) hp hl
  obtain ⟨hqm, hqc, hqw⟩ := enterQueue_frame v e
  have hx := exitFrame_released core blk t e (enterQueue v e)
  have hcore : ∀ c, getCore (enterQueue v e) c =
      if c = e.core then entryL1 e (getCore (headless s core blk t) c) else getCore (headless s core blk t) c :=
    fun c => by rw [getCore, hqc, ← getCore, hcores]
  have hkeeps : ∀ c, (getCore (enterQueue v e) c).bufs = (getCore (headless s core blk t) c).bufs ∧
      (getCore (enterQueue v e) c).slots = (getCore s c).slots := fun c => by
    obtain ⟨hbufs, hslots⟩ := entryL1_keeps e (getCore (headless s core blk t) c)
    rw [hcore]
    split
    · exact ⟨hbufs, hslots.trans (getCore_headless s core blk t c).1⟩
    · exact ⟨rfl, (getCore_headless s core blk t c).1⟩
  have hl1 : (getCore (released core blk t e (enterQueue v e)) e.core).l1 = (entryL1 e (getCore (headless s core blk t) e.core)).l1 := by
    rw [hx.l1, hcore, if_pos rfl]
  refine ⟨_, exec_storeBufferRelease_sent hb hc hpow hv, ?ents, ?queue, ?mem, fun c k g hg hf => ?groups, fun bs hop => ?store,
    fun hd => ?drop⟩
  case ents => rw [bufOf_ents_congr ((hx.bufs core).trans (hkeeps core).1), bufs_headless_self]
  case queue => rw [getCluster, hx.clusters, ← getCluster, hqw, getCluster, hclusters]; rfl
  case mem => rw [hx.mem, hqm, hmem]; rfl
  case groups => exact hx.groups c k g (by rw [getGroup, (hkeeps c).2]; exact hg) hf
  case store =>
    rw [hl1, entryL1_store hop, l1Update, (getCore_headless s core blk t e.core).2]
    rfl
  case drop =>
    rw [hl1, entryL1_drop hd, l1Drop, (getCore_headless s core blk t e.core).2]

/-! ## Posts -/

/-- A late contribution counts as late in its partition, and joins no binding (R375). -/
theorem sendEntry_late {s : State} {e : SbEntry} (h : isLate s e = true) : ∃ u, sendEntry s e = some u ∧ u.mem = s.mem ∧ u.clusters = s.clusters ∧
    u.cores = s.cores ∧ (getPart u e.part).late = (getPart s e.part).late + 1 := by
  unfold isLate at h
  split at h
  · next ident leaf value hop =>
    have hgen : (identOf s e.part ident).gen ≠ e.gen := by simpa using h
    refine ⟨modPart (markReleased s e.part e.node e.blk) e.part fun p => { p with late := p.late + 1 }, ?_, rfl, rfl, rfl, ?_⟩
    · rw [sendEntry, hop]
      exact if_neg hgen
    · rw [getPart_modPart_self, markReleased, modNode, getPart_modPart_self]
  · cases h

theorem postsAreReleased : Says.PostsAreReleased := by
  intro core blk s e t hb hc hp
  refine ⟨fun u _ hs => exec_storeBufferRelease_sent hb hc hp hs,
    fun p c q ws hop hs => exec_storeBufferRelease_stays hb hc hp (fun _ _ _ h => by rw [hop] at h; cases h) hs,
    fun d c rb rl bq hop hs => exec_storeBufferRelease_stays hb hc hp (fun _ _ _ h => by rw [hop] at h; cases h) hs, fun hl => ?_⟩
  obtain ⟨u, hu, hmem, hclusters, hcores, hlate⟩ := sendEntry_late (s := headless s core blk t) hl
  have hx := exitFrame_released core blk t e u
  refine ⟨_, exec_storeBufferRelease_sent hb hc hp hu, ?_, hx.mem.trans hmem, hx.clusters.trans hclusters, (hx.late e.part).trans hlate⟩
  rw [bufOf_ents_congr (hx.bufs core), getCore, hcores, ← getCore, bufs_headless_self]

theorem uncheckedStays : Says.UncheckedStays := fun _ _ _ _ _ hb h => exec_storeBufferRelease_waits hb h

/-- Settles O32: the head is sent where its operation goes, and what its departure sets off is an exit of groups without lanes. -/
theorem bufferReleases : Obligations.BufferReleases := ⟨checkedHeadIsReleased, postsAreReleased, uncheckedStays⟩

end Sys2Proof.Machine
end

section
/-! Holdings at their unit (R186 to R204): what a holding word reads after a write, what an operation's performance sets off, and each operation's
outcome. -/
namespace Sys2Proof.Machine

/-! ## Reading back a number written to memory -/

theorem mem_memPuts (s : State) (l : List (Nat × Byte)) : (memPuts s l).mem = mapSets memDefault s.mem l := by
  induction l generalizing s with
  | nil => rfl
  | cons p t ih => exact ih (memPut s p.1 p.2)

/-- The digits of a number to the base 256, taken together again. -/
theorem foldr_bytes (v n a : Nat) :
    (List.range n).foldr (fun k acc => v / 256 ^ k % 256 + 256 * acc) a = v % 256 ^ n + 256 ^ n * a := by
  induction n generalizing a with
  | zero => simp [Nat.mod_one]
  | succ n ih =>
    rw [List.range_succ, List.foldr_append, List.foldr_cons, List.foldr_nil, ih, Nat.mod_pow_succ, pow_succ]
    ring

/-- A number written at a home point reads back. -/
theorem memRead_homeWrite (s : State) (line a n v : Nat) : memRead (homeWrite s line (bytesAt a n v)) a n = v % 256 ^ n := by
  have hbyte : ∀ k ∈ List.range n, memByte (homeWrite s line (bytesAt a n v)) (a + k) = BitVec.ofNat 8 (v / 256 ^ k) := by
    intro k hk
    have hlt := List.mem_range.1 hk
    have hmem : (homeWrite s line (bytesAt a n v)).mem = mapSets memDefault s.mem (bytesAt a n v) := mem_memPuts s _
    rw [memByte, hmem, mapGet_mapSets_bytesAt, if_pos (by omega), Nat.add_sub_cancel_left]
  have hfold : memRead (homeWrite s line (bytesAt a n v)) a n =
      (List.range n).foldr (fun k acc => v / 256 ^ k % 256 + 256 * acc) 0 := by
    unfold memRead
    refine List.foldr_ext _ _ _ fun k hk acc => ?_
    rw [hbyte k hk, BitVec.toNat_ofNat]
  rw [hfold, foldr_bytes, Nat.mul_zero, Nat.add_zero]

/-! ## Holding words -/

/-- A holding word as its 16 bytes keep it: each field within its width, the reserved half of the payload of a lock or an object zero (R186). -/
def HWord.stored (w : HWord) : HWord :=
  { state := w.state % 4, brv := w.brv, hkind := w.hkind % 8, hgrp := w.hgrp % 32, kind := w.kind % 4, estag := w.estag % 2 ^ 16,
    owner := w.owner % 2 ^ 32, lo := w.lo % 2 ^ 32, hi := if w.kind % 2 = 1 then 0 else w.hi % 2 ^ 32 }

/-- Fields of given widths one above the other, the first lowest. -/
def packed : List (Nat × Nat) → Nat
  | [] => 0
  | f :: t => f.2 + packed t * 2 ^ f.1

theorem packed_lt (l : List (Nat × Nat)) (h : ∀ f ∈ l, f.2 < 2 ^ f.1) : packed l < 2 ^ (l.map (·.1)).sum := by
  induction l with
  | nil => exact Nat.one_pos
  | cons f t ih =>
    have hf := h f List.mem_cons_self
    have ht := ih fun g hg => h g (List.mem_cons_of_mem _ hg)
    rw [packed, List.map_cons, List.sum_cons, pow_add]
    calc f.2 + packed t * 2 ^ f.1 < 2 ^ f.1 + packed t * 2 ^ f.1 := Nat.add_lt_add_right hf _
      _ = 2 ^ f.1 * (packed t + 1) := by ring
      _ ≤ 2 ^ f.1 * 2 ^ (t.map (·.1)).sum := Nat.mul_le_mul_left _ ht

/-- A field read at its place: what stands below and above it does not matter, nor do bits that its width leaves free. -/
theorem packed_field (l : List (Nat × Nat)) {w v u : Nat} (t : List (Nat × Nat)) (hl : ∀ f ∈ l, f.2 < 2 ^ f.1) (hv : v < 2 ^ u) (hu : u ≤ w) :
    packed (l ++ (w, v) :: t) / 2 ^ (l.map (·.1)).sum % 2 ^ u = v := by
  induction l with
  | nil =>
    obtain ⟨k, rfl⟩ := Nat.exists_eq_add_of_le hu
    rw [List.nil_append, packed, List.map_nil, List.sum_nil, pow_zero, Nat.div_one, pow_add, Nat.mul_left_comm, Nat.add_mul_mod_self_left,
      Nat.mod_eq_of_lt hv]
  | cons f l ih =>
    have hf := hl f List.mem_cons_self
    rw [List.cons_append, packed, List.map_cons, List.sum_cons, pow_add, ← Nat.div_div_eq_div_mul,
      Nat.add_mul_div_right _ _ (Nat.two_pow_pos _), Nat.div_eq_of_lt hf, Nat.zero_add]
    exact ih fun g hg => hl g (List.mem_cons_of_mem _ hg)

/-- The fields of a holding word from the lowest bit up, each with the reserved bits above it (R186). -/
def HWord.fields (w : HWord) : List (Nat × Nat) :=
  [(2, w.state % 4), (2, w.brv.toNat), (4, w.hkind % 8), (5, w.hgrp % 32), (3, w.kind % 4), (16, w.estag % 2 ^ 16), (32, w.owner % 2 ^ 32),
    (32, w.lo % 2 ^ 32), (32, if w.kind % 2 = 1 then 0 else w.hi % 2 ^ 32)]

/-- Fields of given widths, each with the bit it begins at: the first at `o`. -/
def placed (o : Nat) : List (Nat × Nat) → List (Nat × Nat)
  | [] => []
  | f :: t => (o, f.2) :: placed (o + f.1) t

/-- A record whose fields leave no bit free is their packing. -/
theorem foldl_placed (o a : Nat) (l : List (Nat × Nat)) :
    (placed o l).foldl (fun acc p => acc + p.2 * 2 ^ p.1) a = a + packed l * 2 ^ o := by
  induction l generalizing o a with
  | nil => rw [placed, packed, List.foldl_nil, Nat.zero_mul, Nat.add_zero]
  | cons f t ih => rw [placed, packed, List.foldl_cons, ih, pow_add]; ring

theorem recordOf_placed (l : List (Nat × Nat)) : recordOf (placed 0 l) = packed l := by
  rw [recordOf, foldl_placed, Nat.zero_add, pow_zero, Nat.mul_one]

theorem hwNum_eq (w : HWord) : hwNum w = packed w.fields := recordOf_placed w.fields

/-- Each field of a holding word lies within its own width. -/
theorem HWord.field_bounds (w : HWord) : w.state % 4 < 2 ^ 2 ∧ w.brv.toNat < 2 ^ 1 ∧ w.hkind % 8 < 2 ^ 3 ∧ w.hgrp % 32 < 2 ^ 5 ∧
    w.kind % 4 < 2 ^ 2 ∧ w.estag % 2 ^ 16 < 2 ^ 16 ∧ w.owner % 2 ^ 32 < 2 ^ 32 ∧ w.lo % 2 ^ 32 < 2 ^ 32 ∧
    (if w.kind % 2 = 1 then 0 else w.hi % 2 ^ 32) < 2 ^ 32 := by
  refine ⟨Nat.mod_lt _ (by decide), Bool.toNat_lt _, Nat.mod_lt _ (by decide), Nat.mod_lt _ (by decide), Nat.mod_lt _ (by decide),
    Nat.mod_lt _ (Nat.two_pow_pos _), Nat.mod_lt _ (Nat.two_pow_pos _), Nat.mod_lt _ (Nat.two_pow_pos _), ?_⟩
  split
  · exact Nat.two_pow_pos _
  · exact Nat.mod_lt _ (Nat.two_pow_pos _)

theorem HWord.fields_fit (w : HWord) : ∀ f ∈ w.fields, f.2 < 2 ^ f.1 := by
  obtain ⟨h1, h2, h3, h4, h5, h6, h7, h8, h9⟩ := w.field_bounds
  simp only [HWord.fields, List.forall_mem_cons]
  exact ⟨h1, h2.trans (by decide), h3.trans (by decide), h4, h5.trans (by decide), h6, h7, h8, h9, fun _ h => absurd h List.not_mem_nil⟩

/-- A field of a holding word read back from its bytes: what stands below it is `l`, what stands above it `t`. -/
theorem HWord.field_read (w : HWord) {l t : List (Nat × Nat)} {k v u o : Nat} (hl : w.fields = l ++ (k, v) :: t) (ho : (l.map (·.1)).sum = o)
    (hv : v < 2 ^ u) (hu : u ≤ k) : hwNum w / 2 ^ o % 2 ^ u = v := by
  have hfit := w.fields_fit
  rw [hl] at hfit
  rw [hwNum_eq, hl, ← ho]
  exact packed_field l t (fun f hf => hfit f (List.mem_append_left _ hf)) hv hu

theorem hwNum_lt (w : HWord) : hwNum w < 256 ^ 16 := by
  rw [hwNum_eq, show (256 : Nat) = 2 ^ 8 from rfl, ← pow_mul]
  exact packed_lt w.fields w.fields_fit

theorem hwOf_hwNum (w : HWord) : hwOf (hwNum w) = w.stored := by
  obtain ⟨h1, h2, h3, h4, h5, h6, h7, h8, h9⟩ := w.field_bounds
  have hbrv : (hwNum w).testBit 2 = w.brv := by
    rw [Nat.testBit_eq_decide_div_mod_eq]
    have h := w.field_read (l := w.fields.take 1) (t := w.fields.drop 2) rfl rfl h2 (by decide)
    rw [pow_one] at h
    rw [show (w.fields.take 1 |>.map (·.1)).sum = 2 from rfl] at h
    rw [h]
    cases w.brv <;> rfl
  simp only [hwOf, HWord.stored, HWord.mk.injEq, bitsAt]
  exact ⟨w.field_read (l := w.fields.take 0) (t := w.fields.drop 1) rfl rfl h1 (by decide), hbrv,
    w.field_read (l := w.fields.take 2) (t := w.fields.drop 3) rfl rfl h3 (by decide),
    w.field_read (l := w.fields.take 3) (t := w.fields.drop 4) rfl rfl h4 (by decide),
    w.field_read (l := w.fields.take 4) (t := w.fields.drop 5) rfl rfl h5 (by decide),
    w.field_read (l := w.fields.take 5) (t := w.fields.drop 6) rfl rfl h6 (by decide),
    w.field_read (l := w.fields.take 6) (t := w.fields.drop 7) rfl rfl h7 (by decide),
    w.field_read (l := w.fields.take 7) (t := w.fields.drop 8) rfl rfl h8 (by decide),
    w.field_read (l := w.fields.take 8) (t := w.fields.drop 9) rfl rfl h9 (by decide)⟩

theorem hwGet_of_mem {s t : State} (h : t.mem = s.mem) (pa : Nat) : hwGet t pa = hwGet s pa := by
  simp only [hwGet, memRead, memByte, h]

/-- A holding word written at its unit reads back as its bytes keep it, and is live as it was written. -/
theorem hwGet_hwPut (s : State) (pa : Nat) (w : HWord) : hwGet (hwPut s pa w) pa = w.stored := by
  have hmem : (hwPut s pa w).mem = (homeWrite s (pa / 128) (bytesAt pa 16 (hwNum w))).mem := by simp only [hwPut]
  rw [hwGet_of_mem hmem, hwGet, memRead_homeWrite, Nat.mod_eq_of_lt (hwNum_lt w), hwOf_hwNum]

theorem live_hwPut (s : State) (pa : Nat) (w : HWord) : mapGet false (hwPut s pa w).live (pa / 16) = hwLive w := by
  simp only [hwPut, mapGet_mapSet_self]

theorem parts_hwPut (s : State) (pa : Nat) (w : HWord) : (hwPut s pa w).parts = s.parts := by
  simp only [hwPut]
  exact (writesOnly_homeWrite s (pa / 128) (bytesAt pa 16 (hwNum w))).parts

end Sys2Proof.Machine
end

section
/-! What a holding's unit sets off besides its word: answers, waits that end, and the operations that go on. -/
namespace Sys2Proof.Machine

/-! ## Answers and waits -/

/-- `t` differs from `s` in its cores, packets and events: in no memory, holding, partition or die. -/
structure AnswersOnly (s t : State) : Prop where
  mem : t.mem = s.mem
  live : t.live = s.live
  parts : t.parts = s.parts
  dies : t.dies = s.dies

namespace AnswersOnly

theorem refl (s : State) : AnswersOnly s s := ⟨rfl, rfl, rfl, rfl⟩

theorem trans {s t u : State} (h : AnswersOnly s t) (k : AnswersOnly t u) : AnswersOnly s u :=
  ⟨k.mem.trans h.mem, k.live.trans h.live, k.parts.trans h.parts, k.dies.trans h.dies⟩

theorem foldl {α : Type} (f : State → α → State) (h : ∀ s a, AnswersOnly s (f s a)) (l : List α) (s : State) : AnswersOnly s (l.foldl f s) := by
  induction l generalizing s with
  | nil => exact .refl s
  | cons a t ih => exact (h s a).trans (ih _)

theorem modGroup (s : State) (c k : Nat) (f : Group → Group) : AnswersOnly s (modGroup s c k f) := by
  rw [modGroup_eq]
  exact ⟨rfl, rfl, rfl, rfl⟩

theorem modFront (s : State) (c k : Nat) (f : List Entry → List Entry) : AnswersOnly s (modFront s c k f) := by
  unfold Machine.modFront
  dsimp only
  split
  · split
    · exact (modGroup s c k _).trans ⟨rfl, rfl, rfl, rfl⟩
    · exact modGroup s c k _
  · exact modGroup s c k _

theorem acquire (s : State) (c : Nat) (sc : Scope) : AnswersOnly s (acquire s c sc) := by
  cases sc <;> exact ⟨rfl, rfl, rfl, rfl⟩

theorem unhold (s : State) : AnswersOnly s (unhold s) := ⟨rfl, rfl, rfl, rfl⟩

theorem wake (s : State) (c k : Nat) (m : Lanes) (n : Node) (ends : Bool) (r : Row64) : AnswersOnly s (wake s c k m n ends r) :=
  (unhold s).trans (modFront _ c k _)

theorem endHold (s : State) (c k : Nat) (m : Lanes) (lock : Bool) (pa : Nat) (res : Option (Nat × DWord)) :
    AnswersOnly s (endHold s c k m lock pa res) := by
  unfold Machine.endHold
  split
  · exact .refl s
  · split
    · refine .trans ?_ (wake _ c k _ _ true zeroRow)
      split
      · exact (modGroup s c k _).trans (acquire _ c _)
      · exact .refl s
    · exact .refl s

theorem deliverHold (s : State) (c k : Nat) (m : Lanes) (lock : Bool) (pa : Nat) (res : Option (Nat × DWord)) :
    AnswersOnly s (deliverHold s c k m lock pa res) := by
  unfold Machine.deliverHold
  dsimp only
  split
  · split
    · exact (endHold s c k m lock pa res).trans (endHold _ c _ m lock pa res)
    · exact endHold s c k m lock pa res
  · exact endHold s c k m lock pa res

theorem holdEnd (s : State) (e : SbEntry) (lock : Bool) (pa : Nat) (res : Option (Nat × DWord)) : AnswersOnly s (holdEnd s e lock pa res) := by
  unfold Machine.holdEnd
  split
  · exact .refl s
  · split
    · exact deliverHold s _ _ _ lock pa res
    · exact .refl s

theorem sendPacket (s : State) (p : Packet) : AnswersOnly s (sendPacket s p) := ⟨rfl, rfl, rfl, rfl⟩

theorem holdAnswer (s : State) (e : SbEntry) (v : DWord) (ok acq : Bool) : AnswersOnly s (holdAnswer s e v ok acq) := by
  unfold Machine.holdAnswer
  split
  · exact sendPacket s _
  · exact .refl s

theorem nextOfLine (s : State) (cl : Nat) (e : SbEntry) : AnswersOnly s (nextOfLine s cl e) :=
  foldl _ (fun s _ => sendPacket s _) _ s

end AnswersOnly

/-! ## The operation that is first of its line -/

/-- An operation on a holding word that is first of its line is performed at its unit; then its line's next goes on, and what its departure frees. -/
theorem exec_sliceOperation_hold {s : State} {cl idx : Nat} {e : SbEntry} {op : HoldOp} {pa : Nat} (h : FirstOfLine s cl idx e) (hop : e.op = .hold op pa) :
    exec (.sliceOperation (.write cl idx)) s = .next (gone (nextOfLine
      (performHold (modCluster s cl fun k => { k with wq := listDrop k.wq idx }) e op pa) cl e) e) := by
  obtain ⟨hat, hbefore⟩ := h
  have hfirst : ((getCluster s cl).wq.take idx).any (fun o => sameWay o e) = false := by
    rw [List.any_eq_false]
    intro o ho
    obtain ⟨hline, hhome⟩ := hbefore o ho
    simp [sameWay, hline, hhome]
  have hperf : performEntry (modCluster s cl fun k => { k with wq := listDrop k.wq idx }) e =
      performHold (modCluster s cl fun k => { k with wq := listDrop k.wq idx }) e op pa := by rw [performEntry, hop]
  show execSliceOperation (.write cl idx) s = _
  simp only [execSliceOperation, hat, hfirst, Bool.false_eq_true, if_false, hperf]

/-- What an operation leaves when its unit is done with it: memory, the words' liveness, and its partition's waits and its dies' logs as it performed them. -/
structure Performed (u t : State) : Prop where
  mem : t.mem = u.mem
  live : t.live = u.live
  holdq : ∀ p, (getPart t p).holdq = (getPart u p).holdq
  serial : ∀ d, (getDie t d).serial = (getDie u d).serial
  errlog : ∀ d, (getDie t d).errlog = (getDie u d).errlog

theorem performed_gone (u : State) (cl : Nat) (e : SbEntry) : Performed u (gone (nextOfLine u cl e) e) := by
  have ha := AnswersOnly.nextOfLine u cl e
  have hg := exitFrame_gone (nextOfLine u cl e) e
  exact ⟨hg.mem.trans ha.mem, hg.live.trans ha.live, fun p => (hg.holdq p).trans (by rw [getPart_of_parts ha.parts]),
    fun d => (hg.serial d).trans (by simp only [getDie, ha.dies]), fun d => (hg.errlog d).trans (by simp only [getDie, ha.dies])⟩

end Sys2Proof.Machine
end

section
/-! The holdings operations and host stores at their unit (R186 to R204): what each makes of the word and of its node's table. -/
namespace Sys2Proof.Machine

/-! ## The operation at its unit -/

/-- A word's operation that nothing keeps from being performed: not refused, not poisoned, and of a node that stands. -/
structure AtUnit (u : State) (e : SbEntry) (pa : Nat) (n : Node) : Prop where
  refusal : refusalOf (getPart u e.part).lay pa = none
  poison : linePoisoned u pa = false
  node : findNode u e.part e.node = some n

/-- A cluster's write queue without one of its entries. -/
def dequeued (s : State) (cl idx : Nat) : State := modCluster s cl fun k => { k with wq := listDrop k.wq idx }

section
variable {s : State} {cl idx : Nat} {e : SbEntry} {op : HoldOp} {pa : Nat} {n : Node}

theorem HoldReady.atUnit (h : HoldReady s cl idx e op pa n) : AtUnit (dequeued s cl idx) e pa n := by
  obtain ⟨-, -, hr, hp, hn⟩ := h
  exact ⟨hr, hp, hn⟩

/-- What a ready operation leaves in memory, in the words' liveness, in its partition's waits and in its dies' logs is what its unit performs. -/
theorem HoldReady.performed (h : HoldReady s cl idx e op pa n) : ∃ t, exec (.sliceOperation (.write cl idx)) s = .next t ∧
    Performed (performHold (dequeued s cl idx) e op pa) t := by
  obtain ⟨hf, hop, -, -, -⟩ := h
  exact ⟨_, exec_sliceOperation_hold hf hop, performed_gone _ cl e⟩

end

section
variable {u : State} {e : SbEntry} {pa : Nat} {n : Node} (h : AtUnit u e pa n)
include h

theorem performHold_lock : performHold u e .lock pa = acquireHold (noteHolding u pa) n e .lock pa 1
    (fun s r => holdEnd s e true pa (some (r, 0))) (fun s => enqueue s e pa true) := by
  simp only [performHold, h.refusal, h.poison, h.node, Bool.false_eq_true, if_false]

theorem performHold_unlock : performHold u e .unlock pa = releaseHold (noteHolding u pa) n e .unlock pa 1 := by
  simp only [performHold, h.refusal, h.poison, h.node, Bool.false_eq_true, if_false]

/-- FULF by a promise's owner while it is EMPTY: the word settled, and those who wait for it woken (R196, R201). -/
theorem performHold_fulf {brk : Bool} {val : DWord} {w : HWord} (hw : hwGet u pa = w) (hk : w.kind = 2) (hs : w.state = 0)
    (ho : hwOwned n e w = true) {w1 : HWord}
    (hw1 : w1 = if brk then { w with state := 2, estag := 0, owner := 0 }
      else { w with state := 1, estag := 0, owner := 0, lo := val.toNat % 2 ^ 32, hi := val.toNat / 2 ^ 32 }) :
    performHold u e (.fulf brk val) pa =
      wakePromise (hwPut (estFree (noteHolding u pa) e.part e.node (ownerOf e.blk e.grp) e.va) pa w1) e.part pa w1 := by
  subst hw1
  simp only [performHold, h.refusal, h.poison, h.node, hw, hk, hs, ho, bne_self_eq_false, Bool.not_true, Bool.or_false, Bool.false_eq_true,
    if_false]

/-- An operation of a group that does not own the word is refused with SUB 5. -/
theorem performHold_refused {op : HoldOp} (hop : op = .unlock ∨ op = .rels ∨ (∃ b v, op = .fulf b v) ∨ (∃ k g, op = .heir k g))
    (ho : hwOwned n e (hwGet u pa) = false) : performHold u e op pa = holdRefuse (noteHolding u pa) e op pa (e.home / 64) 5 := by
  have hnoted : hwOwned n e (hwGet (noteHolding u pa) pa) = false := ho
  rcases hop with rfl | rfl | ⟨b, v, rfl⟩ | ⟨k, g, rfl⟩ <;>
    simp only [performHold, h.refusal, h.poison, h.node, releaseHold, ho, hnoted, Bool.not_false, Bool.or_true, Bool.false_eq_true, if_false, if_true]

end

/-! ## What each operation does -/

section
variable {s : State} {n : Node} {e : SbEntry} {op : HoldOp} {pa kind : Nat} {act : State → Nat → State} {busy : State → State}

theorem acquireHold_free {s1 : State} (hk : (hwGet s pa).kind = 0 ∨ (hwGet s pa).kind = kind) (hs : (hwGet s pa).state = 0)
    (ht : takeHolding s n e pa kind (hwGet s pa) (hwGet s pa).brv = some s1) :
    acquireHold s n e op pa kind act busy = act s1 (hwGet s pa).brv.toNat := by
  have hadmits : ((hwGet s pa).kind != 0 && (hwGet s pa).kind != kind) = false := by rcases hk with h | h <;> simp [h]
  have hfree : (decide ((hwGet s pa).kind = kind) && decide ((hwGet s pa).state = 1)) = false := by simp [hs]
  have horph : ((hwGet s pa).kind == kind && (hwGet s pa).state == 2) = false := by simp [hs]
  simp only [acquireHold, hadmits, hfree, horph, ht, Bool.or_false, Bool.false_eq_true, if_false, Nat.add_zero]

theorem acquireHold_busy (hk : (hwGet s pa).kind = kind) (hs : (hwGet s pa).state = 1) (ho : hwOwned n e (hwGet s pa) = false) :
    acquireHold s n e op pa kind act busy = busy s := by
  simp only [acquireHold, hk, hs, ho, bne_self_eq_false, Bool.and_false, Bool.false_eq_true, decide_true, Bool.and_self,
    if_true, if_false]

theorem releaseHold_lock (hk : (hwGet s pa).kind = 1) (hs : (hwGet s pa).state = 1) (ho : hwOwned n e (hwGet s pa) = true) :
    releaseHold s n e op pa 1 = grantQueue (estFree s e.part e.node (ownerOf e.blk e.grp) e.va) pa e.home (hwGet s pa) false
      { hwGet s pa with state := 0, brv := false, estag := 0, owner := 0 }
      (waitersAt (estFree s e.part e.node (ownerOf e.blk e.grp) e.va) e.part pa true) := by
  simp only [releaseHold, hk, hs, ho, bne_self_eq_false, Bool.not_true, Bool.or_false, Bool.false_eq_true, if_true, if_false]

end

theorem waitersAt_congr {s t : State} {part : Nat} (h : (getPart t part).holdq = (getPart s part).holdq) (pa : Nat) (lock : Bool) :
    waitersAt t part pa lock = waitersAt s part pa lock := by rw [waitersAt, waitersAt, h]

theorem wakePromise_none {s : State} {part pa : Nat} (h : waitersAt s part pa false = []) (w : HWord) : wakePromise s part pa w = s := by
  rw [wakePromise, h, List.foldl_nil]

/-- Freeing an estate entry changes no partition. -/
theorem parts_estFree (s : State) (part : Nat) (a : DWord) (owner : Nat) (va : DWord) : (estFree s part a owner va).parts = s.parts := by
  unfold estFree
  split
  · rfl
  · split
    · exact (writesOnly_tryWrite s _ _ _ _).parts
    · rfl

/-! ## Entries of the estate table -/

/-- A node whose owner's next ORD is one more. -/
def ordCounted (owner : Nat) (m : Node) : Node := { m with ords := mapSet 0 m.ords owner (mapGet 0 m.ords owner + 1) }

/-- The state in which an allocation writes its entry: a free choice is made, and the owner's ORD is taken. -/
def ordTaken (s : State) (part : Nat) (a : DWord) (owner : Nat) : State := modNode { s with free := s.free + 1 } part a (ordCounted owner)

/-- A free entry as an allocation writes it. -/
def filledEntry (n : Node) (owner kind : Nat) (va : DWord) (e : EstEnt) : EstEnt :=
  { e with addr := va, kind := kind, estag := n.estag, ord := (mapGet 0 n.ords owner).toNat, owner := owner }

/-- An allocation takes an entry of the table that is free and can be read, and the owner's next ORD (R189). -/
theorem estAlloc_eq {s t : State} {part : Nat} {a : DWord} {owner kind : Nat} {va : DWord} {n : Node} (hn : findNode s part a = some n)
    (h : estAlloc s part a owner kind va = some t) :
    ∃ e ∈ openEntries s part n, t = estPut (ordTaken s part a owner) part n (filledEntry n owner kind va e) := by
  have hn1 : findNode { s with free := s.free + 1 } part a = some n := hn
  simp only [estAlloc, hn] at h
  split at h
  · cases h
  · split at h
    · cases h
    · next e he =>
      refine ⟨e, List.mem_of_getElem? he, ?_⟩
      simp only [takeOrd, hn1, Option.some.injEq] at h
      exact h.symm

theorem findNode_ordTaken (s : State) (part : Nat) (a b : DWord) (owner : Nat) :
    findNode (ordTaken s part a owner) part b = (findNode s part b).map fun m => if b = a then ordCounted owner m else m := by
  rw [ordTaken, findNode_modNode _ _ _ _ (ordCounted owner) fun _ => rfl]
  rfl

theorem images_ordTaken (s : State) (part : Nat) (a : DWord) (owner : Nat) :
    (getPart (ordTaken s part a owner) part).images = (getPart s part).images := by
  rw [ordTaken, modNode, getPart_modPart_self]
  rfl

theorem writesOnly_estPut (s : State) (part : Nat) (n : Node) (e : EstEnt) : WritesOnly s (estPut s part n e) := writesOnly_tryWrite s _ _ _ _

theorem estAlloc_full {s : State} {part : Nat} {a : DWord} {owner kind : Nat} {va : DWord} {n : Node} (hn : findNode s part a = some n)
    (h : openEntries s part n = []) : estAlloc s part a owner kind va = none := by
  rw [openEntries] at h
  simp only [estAlloc, hn, h, List.isEmpty_nil, if_true]

/-- The group of a node with a block and a group number is found in the cores, the saved images and the node's tiles. -/
theorem groupOf_congr {s t : State} {part : Nat} {n : Node} (hc : t.cores = s.cores) (hi : (getPart t part).images = (getPart s part).images)
    (hn : ((findNode t part n.addr).getD n).tileImgs = ((findNode s part n.addr).getD n).tileImgs) (blk grp : Nat) :
    groupOf t part n blk grp = groupOf s part n blk grp := by
  simp only [groupOf, hc, hi, hn]

/-- An allocation keeps every group's default heir. -/
theorem defaultHeir_of_estAlloc {s t : State} {part : Nat} {a : DWord} {owner kind : Nat} {va : DWord} {n : Node} (hn : findNode s part a = some n)
    (h : estAlloc s part a owner kind va = some t) (blk grp : Nat) : defaultHeir t part n blk grp = defaultHeir s part n blk grp := by
  obtain ⟨e, -, rfl⟩ := estAlloc_eq hn h
  have hw := writesOnly_estPut (ordTaken s part a owner) part n (filledEntry n owner kind va e)
  have hgroup := groupOf_congr (s := s) (n := n) (hw.cores.trans rfl) (by rw [hw.getPart, images_ordTaken])
    (by rw [findNode_of_parts hw.parts, findNode_ordTaken, findNode_addr hn, hn, Option.map_some, if_pos rfl]; rfl) blk grp
  rw [defaultHeir, defaultHeir, hgroup]

/-! ## Settling O42 -/

/-- The word of a lock or object taken by a group: with that group's default heir and its generation counted up (R190, R195, R197). -/
def takenWord (s : State) (n : Node) (e : SbEntry) (kind : Nat) (w : HWord) (brv : Bool) : HWord :=
  { giveTo s e.part n e.blk e.grp w with state := 1, kind := kind, lo := (w.lo + 1) % 2 ^ 32, brv := brv }

theorem takeHolding_of_estAlloc {s v : State} {e : SbEntry} {kind : Nat} (h : estAlloc s e.part e.node (ownerOf e.blk e.grp) kind e.va = some v)
    (n : Node) (pa : Nat) (w : HWord) (brv : Bool) : takeHolding s n e pa kind w brv = some (hwPut v pa (takenWord v n e kind w brv)) := by
  rw [takeHolding, h]
  rfl

/-- A free lock that a group takes is written as its own, and only that. -/
theorem performHold_lock_free {u : State} {e : SbEntry} {pa : Nat} {n : Node} (h : AtUnit u e pa n)
    (hk : (hwGet u pa).kind = 0 ∨ (hwGet u pa).kind = 1) (hs : (hwGet u pa).state = 0) (hopen : openEntries u e.part n ≠ []) :
    ∃ v, defaultHeir v e.part n e.blk e.grp = defaultHeir u e.part n e.blk e.grp ∧
      AnswersOnly (hwPut v pa (takenWord v n e 1 (hwGet u pa) (hwGet u pa).brv)) (performHold u e .lock pa) := by
  obtain ⟨v, hv⟩ := estAlloc_some (s := noteHolding u pa) (owner := ownerOf e.blk e.grp) (kind := 1) (va := e.va) h.node hopen
  have hheir := defaultHeir_of_estAlloc (s := noteHolding u pa) h.node hv e.blk e.grp
  refine ⟨v, hheir.trans rfl, ?_⟩
  rw [performHold_lock h, acquireHold_free (s := noteHolding u pa) hk hs (takeHolding_of_estAlloc hv n pa _ _)]
  exact AnswersOnly.holdEnd _ e true pa _

theorem lockIsTaken : Says.LockIsTaken := by
  intro s cl idx e pa n s1 hr hkind hstate htake
  obtain ⟨t, ht, hp⟩ := hr.performed
  have hu := hr.atUnit
  have hopen : openEntries (dequeued s cl idx) e.part n ≠ [] := fun ho => by
    have hnone : takeHolding (dequeued s cl idx) n e pa 1 (hwGet s pa) (hwGet s pa).brv = none := by
      rw [takeHolding, estAlloc_full hu.node ho]
      rfl
    exact absurd (hnone.symm.trans htake) (by simp)
  obtain ⟨v, hheir, ha⟩ := performHold_lock_free hu hkind hstate hopen
  have hword : hwGet t pa = (takenWord v n e 1 (hwGet s pa) (hwGet s pa).brv).stored :=
    (hwGet_of_mem (hp.mem.trans ha.mem) pa).trans (hwGet_hwPut v pa _)
  have hlive : mapGet false t.live (pa / 16) = hwLive (takenWord v n e 1 (hwGet s pa) (hwGet s pa).brv) := by
    rw [hp.live, ha.live, live_hwPut]
    rfl
  have hgrp : (if (defaultHeir v e.part n e.blk e.grp).1 = HKind.group then (defaultHeir v e.part n e.blk e.grp).2 else 0) % 32 =
      if (defaultHeir v e.part n e.blk e.grp).1 = HKind.group then (defaultHeir v e.part n e.blk e.grp).2 % 32 else 0 := by split <;> rfl
  have hcode : ∀ k : HKind, hkindCode k % 8 = hkindCode k := fun k => by cases k <;> rfl
  have hheir' : defaultHeir v e.part n e.blk e.grp = defaultHeir s e.part n e.blk e.grp := hheir
  rw [← hheir']
  refine ⟨t, ht, ?_⟩
  rw [hword, hlive]
  exact ⟨rfl, rfl, rfl, rfl, Nat.mod_mod _ _, rfl, hcode _, hgrp⟩

theorem estateEntryTaken : Says.EstateEntryTaken := by
  refine ⟨fun s part a n owner kind va t hn h => ?_, fun s part a n owner kind va hn hfull => estAlloc_full hn ?_⟩
  · obtain ⟨e, he, rfl⟩ := estAlloc_eq hn h
    obtain ⟨hmem, hok⟩ := List.mem_filter.1 he
    obtain ⟨hk, hbad⟩ := Bool.and_eq_true_iff.1 hok
    refine ⟨e, hmem, by simpa using hk, Option.isNone_iff_eq_none.1 hbad, ordTaken s part a owner, ordCounted owner n, rfl, rfl, ?_,
      mapGet_mapSet_self _ _ _ _⟩
    rw [findNode_ordTaken, hn, Option.map_some, if_pos rfl]
  · rw [openEntries, List.filter_eq_nil_iff]
    intro e he hok
    obtain ⟨hk, hbad⟩ := Bool.and_eq_true_iff.1 hok
    exact hfull e he (by simpa using hk) (Option.isNone_iff_eq_none.1 hbad)

/-- A LOCK or PWAIT that has to wait stands last in its partition's queue (R195, R196). -/
theorem holdq_enqueue (s : State) (e : SbEntry) (pa : Nat) (lock : Bool) : ∃ w : HoldWait,
    (getPart (enqueue s e pa lock) e.part).holdq = (getPart s e.part).holdq ++ [w] ∧
    w.pa = pa ∧ w.isLock = lock ∧ w.core = e.core ∧ w.slot = e.slot ∧ w.blk = e.blk ∧ w.grp = e.grp := by
  simp only [enqueue, getPart_modPart_self]
  exact ⟨_, rfl, rfl, rfl, rfl, rfl, rfl, rfl⟩

theorem lockQueues : Says.LockQueues := by
  intro s cl idx e pa n hr hkind hstate ho
  obtain ⟨t, ht, hp⟩ := hr.performed
  rw [performHold_lock hr.atUnit, acquireHold_busy (s := noteHolding (dequeued s cl idx) pa) hkind hstate ho] at hp
  obtain ⟨w, hq, hw⟩ := holdq_enqueue (noteHolding (dequeued s cl idx) pa) e pa true
  exact ⟨t, w, ht, hp.mem, (hp.holdq e.part).trans hq, hw⟩

theorem unlockFrees : Says.UnlockFrees := by
  intro s cl idx e pa n hr hkind hstate ho hwait
  obtain ⟨t, ht, hp⟩ := hr.performed
  have hnone : waitersAt (estFree (noteHolding (dequeued s cl idx) pa) e.part e.node (ownerOf e.blk e.grp) e.va) e.part pa true = [] :=
    (waitersAt_congr (s := s) (by rw [getPart_of_parts (parts_estFree _ _ _ _ _)]; rfl) pa true).trans hwait
  rw [performHold_unlock hr.atUnit, releaseHold_lock (s := noteHolding (dequeued s cl idx) pa) hkind hstate ho, hnone, grantQueue] at hp
  have hword := (hwGet_of_mem hp.mem pa).trans (hwGet_hwPut _ pa _)
  refine ⟨t, ht, ?_⟩
  rw [hword, hp.live, live_hwPut]
  refine ⟨rfl, rfl, rfl, rfl, ?_⟩
  have hk : (hwGet (noteHolding (dequeued s cl idx) pa) pa).kind = 1 := hkind
  simp [hwLive, hk]

/-- The payload of a settled promise reads back whole. -/
theorem stored_payload (w : HWord) (v : DWord) (hk : w.kind % 2 = 0) (hlo : w.lo = v.toNat % 2 ^ 32) (hhi : w.hi = v.toNat / 2 ^ 32) :
    w.stored.lo + 2 ^ 32 * w.stored.hi = v.toNat := by
  have hv := v.isLt
  simp only [HWord.stored, hk, hlo, hhi, Nat.zero_ne_one, if_false]
  omega

theorem promiseSettles : Says.PromiseSettles := by
  intro s cl idx e pa n brk val hr hkind hstate ho hwait
  obtain ⟨t, ht, hp⟩ := hr.performed
  obtain ⟨w1, hw1⟩ : ∃ w1, w1 = if brk then { hwGet s pa with state := 2, estag := 0, owner := 0 }
      else { hwGet s pa with state := 1, estag := 0, owner := 0, lo := val.toNat % 2 ^ 32, hi := val.toNat / 2 ^ 32 } := ⟨_, rfl⟩
  rw [performHold_fulf (w := hwGet s pa) hr.atUnit rfl hkind hstate ho hw1] at hp
  have hparts := parts_estFree (noteHolding (dequeued s cl idx) pa) e.part e.node (ownerOf e.blk e.grp) e.va
  generalize estFree (noteHolding (dequeued s cl idx) pa) e.part e.node (ownerOf e.blk e.grp) e.va = v at hp hparts
  have hnone : waitersAt (hwPut v pa w1) e.part pa false = [] :=
    (waitersAt_congr (s := s) (by rw [getPart_of_parts ((parts_hwPut v pa w1).trans hparts)]; rfl) pa false).trans hwait
  rw [wakePromise_none hnone] at hp
  have hword := (hwGet_of_mem hp.mem pa).trans (hwGet_hwPut _ pa w1)
  refine ⟨t, ht, ?_⟩
  rw [hword, hp.live, live_hwPut]
  have hk1 : w1.kind = 2 := by rw [hw1]; split <;> exact hkind
  have hs1 : w1.state = if brk then 2 else 1 := by rw [hw1]; split <;> rfl
  refine ⟨?_, ?_, fun hb => ?_, ?_⟩
  · rw [HWord.stored, hs1]
    split <;> rfl
  · rw [hw1]
    split <;> rfl
  · subst hb
    exact stored_payload w1 val (by rw [hk1]) (by rw [hw1]; rfl) (by rw [hw1]; rfl)
  · rw [hwLive, hk1, hs1]
    split <;> rfl

/-- A refusal of an operation without a wait changes no memory and no holding: its die takes the next serial and logs the record (R323). -/
theorem holdRefuse_frame (s : State) {op : HoldOp} (hl : op ≠ .lock) (hw : op ≠ .pwait) (e : SbEntry) (pa die sub : Nat) :
    AnswersOnly (refuse s (originOf e pa) die sub 6) (holdRefuse s e op pa die sub) := by
  cases op with
  | lock => exact absurd rfl hl
  | pwait => exact absurd rfl hw
  | _ => exact AnswersOnly.holdAnswer _ e 0 false false

theorem getDie_refuse (s : State) (o : Origin) (die sub opk : Nat) :
    (getDie (refuse s o die sub opk) die).serial = nextSerial (getDie s die).serial ∧
    (getDie (refuse s o die sub opk) die).errlog.head? =
      some (fullRecord (getPart s o.part).lay o die sub opk (BitVec.ofNat 32 (die * 2 ^ 29 + nextSerial (getDie s die).serial))) := by
  refine ⟨?_, ?_⟩
  · simp only [refuse, getDie_post, getDie_modDie, if_true]
  · simp only [refuse, getDie_post, logError, getDie_modDie, if_true]
    rfl

theorem wrongStateIsRefused : Says.WrongStateIsRefused := by
  intro s cl idx e op pa n hr hop ho
  obtain ⟨t, ht, hp⟩ := hr.performed
  have hplain : op ≠ .lock ∧ op ≠ .pwait := by
    rcases hop with rfl | rfl | ⟨b, v, rfl⟩ | ⟨k, g, rfl⟩ <;> exact ⟨nofun, nofun⟩
  rw [performHold_refused hr.atUnit hop ho] at hp
  have hf := holdRefuse_frame (noteHolding (dequeued s cl idx) pa) hplain.1 hplain.2 e pa (e.home / 64) 5
  obtain ⟨hserial, hlog⟩ := getDie_refuse (noteHolding (dequeued s cl idx) pa) (originOf e pa) (e.home / 64) 5 6
  have hdie : ∀ d, getDie (holdRefuse (noteHolding (dequeued s cl idx) pa) e op pa (e.home / 64) 5) d =
      getDie (refuse (noteHolding (dequeued s cl idx) pa) (originOf e pa) (e.home / 64) 5 6) d := fun d => by rw [getDie, getDie, hf.dies]
  refine ⟨t, ht, hp.mem.trans (hf.mem.trans rfl), hp.live.trans (hf.live.trans rfl), ?_, ?_⟩
  · rw [hp.serial, hdie, hserial]
    rfl
  · rw [hp.errlog, hdie, hlog]
    rfl

/-! ## Host stores -/

section
variable {s : State} {part pa : Nat} (hs : presented s = true) (hlive : hwLive (hwGet s pa) = true) (hown : (hwGet s pa).owner = 0xFFFFFFFF)
  (htag : (hwGet s pa).estag = 0) (hal : pa % 16 = 0) (hr : refusalOf (getPart s part).lay pa = none)
include hs hlive hown htag hal hr

/-- The host frees a lock of its own that nobody waits for. -/
theorem exec_hostHoldingStore_free (val : DWord) (hk : (hwGet s pa).kind = 1) (hw : waitersAt s part pa true = []) :
    exec (.hostHoldingStore part pa 0 val) s = .next (hwPut s pa { hwGet s pa with state := 0, brv := false, owner := 0 }) := by
  show execHostHoldingStore part pa 0 val s = _
  simp [execHostHoldingStore, hs, hlive, hown, hostOwner, htag, hal, hr, hk, hw, grantQueue]

/-- The host settles a promise of its own that nobody waits for. -/
theorem exec_hostHoldingStore_settle (val : DWord) (hk : (hwGet s pa).kind = 2) (hw : waitersAt s part pa false = []) {st : Fin 4}
    (hst : st = 1 ∨ st = 2) : exec (.hostHoldingStore part pa st val) s = .next (hwPut s pa
      { hwGet s pa with state := st.val, owner := 0, lo := val.toNat % 2 ^ 32, hi := val.toNat / 2 ^ 32 }) := by
  have hnone : ∀ w, waitersAt (hwPut s pa w) part pa false = [] := fun w =>
    (waitersAt_congr (by rw [getPart_of_parts (parts_hwPut s pa w)]) pa false).trans hw
  show execHostHoldingStore part pa st val s = _
  rcases hst with rfl | rfl <;>
    simp [execHostHoldingStore, hs, hlive, hown, hostOwner, htag, hal, hr, hk, wakePromise_none (hnone _)]

end

theorem hostStoresSettle : Says.HostStoresSettle := by
  refine ⟨fun s part pa st val hs => ?_, fun s part pa val hs hlive hown htag hal hr hk hw => ?_,
    fun s part pa val hs hlive hown htag hal hr hk hw st hst => ?_, fun s part pa st val h => ?_⟩
  · show execHostHoldingStore part pa st val s = _
    simp [execHostHoldingStore, hs]
  · refine ⟨_, exec_hostHoldingStore_free hs hlive hown htag hal hr val hk hw, ?_⟩
    rw [hwGet_hwPut, live_hwPut]
    exact ⟨rfl, rfl, by simp [hwLive, hk]⟩
  · refine ⟨_, exec_hostHoldingStore_settle hs hlive hown htag hal hr val hk hw hst, ?_⟩
    rw [hwGet_hwPut, live_hwPut]
    refine ⟨Nat.mod_eq_of_lt st.isLt, rfl, stored_payload _ val (by simp [hk]) rfl rfl, ?_⟩
    rcases hst with rfl | rfl <;> simp [hwLive, hk]
  · show execHostHoldingStore part pa st val s = _
    rcases h with h | h <;> simp [execHostHoldingStore, hostOwner, h]

/-- Settles O42: a holding's word reads back as its unit wrote it, and what an operation sets off besides changes no word. -/
theorem holdingsChange : Obligations.HoldingsChange :=
  ⟨lockIsTaken, estateEntryTaken, lockQueues, unlockFrees, promiseSettles, wrongStateIsRefused, hostStoresSettle⟩

end Sys2Proof.Machine
end

section
/-! The front end (R294 to R303): doorbells and register writes, the acceptance of packets, the start of a LAUNCH and the completion of its node. -/
namespace Sys2Proof.Machine

/-! ## Reads after the front end's changes -/

theorem queueOf_post (s : State) (l : List Instr) (p q : Nat) : queueOf (post s l) p q = queueOf s p q := rfl

theorem getPart_modQueue (s : State) (part q : Nat) (f : Queue → Queue) :
    getPart (modQueue s part q f) part = { getPart s part with queues := mapSet {} (getPart s part).queues q (f (queueOf s part q)) } := by
  rw [modQueue, getPart_modPart_self]
  rfl

theorem findNode_modQueue (s : State) (part q : Nat) (f : Queue → Queue) (p : Nat) (a : DWord) :
    findNode (modQueue s part q f) p a = findNode s p a := findNode_modPart s part _ rfl p a

theorem findNode_clearDenied (s : State) (part p : Nat) (a : DWord) : findNode (clearDenied s part) p a = findNode s p a :=
  findNode_modPart s part _ rfl p a

theorem findNode_finishPkt (s : State) (part q : Nat) (k : Pkt) (o : Nat) (x : DWord) (p : Nat) (a : DWord) :
    findNode (finishPkt s part q k o x) p a = findNode s p a := by
  have hforget : ∀ u : State, findNode (forgetDenied u part o) p a = findNode u p a := fun u => by
    unfold forgetDenied
    split
    · exact findNode_clearDenied u part p a
    · rfl
  rw [finishPkt]
  exact (findNode_journal _ part _ _ _ _ p _ _ a).trans ((hforget _).trans (findNode_modQueue s part q _ p a))

/-- A packet that has completed is in its queue no longer. -/
theorem finishPkt_gone (s : State) (part q : Nat) (k : Pkt) (o : Nat) (a : DWord) :
    ∀ j ∈ (queueOf (finishPkt s part q k o a) part q).pkts, j.seq ≠ k.seq := by
  intro j hj
  rw [(finishPkt_queue s part q k o a).1, List.mem_filter] at hj
  simpa using hj.2

/-- A packet that fails once it has started is gone, and is the last of its queue's failures (R297). -/
theorem failed_started (s w : State) (part q : Nat) (k : Pkt) {o : Nat} (ho : o ≠ 0) (a : DWord) (hw : w.parts = (markStarted s part q k).parts) :
    (∀ j ∈ (queueOf (finishPkt w part q k o a) part q).pkts, j.seq ≠ k.seq) ∧
    (queueOf (finishPkt w part q k o a) part q).fails = (queueOf s part q).fails ++ [(k.acc, o, a)] := by
  refine ⟨finishPkt_gone w part q k o a, ?_⟩
  rw [(finishPkt_queue w part q k o a).2.1, if_neg ho, queueOf, getPart_of_parts hw, ← queueOf, queueOf_markStarted, if_pos rfl]

/-! ## Doorbells and registers -/

theorem doorbellsRing : Says.DoorbellsRing := by
  refine ⟨fun s part q v hp hq => ⟨fun hv => ?_, fun hv => ?_⟩, fun s part q v h => ?_⟩
  · have hexec : exec (.tail part q v) s = .next (post (modQueue s part q fun u => { u with tail := v }) [.packetAccept part q]) := by
      simp only [exec_tail, execTail, writeTail, hp, Nat.not_le.2 hq, Nat.not_le.2 hv, decide_false, Bool.not_true, Bool.or_false, Bool.false_eq_true,
        if_false]
    refine ⟨_, hexec, ?_, List.mem_append_right _ (List.mem_singleton.2 rfl), rfl, rfl⟩
    rw [queueOf_post, queueOf_modQueue, if_pos rfl]
  · have hexec : exec (.tail part q v) s = .next (queueError s part q 1 0 v.toNat) := by
      simp only [exec_tail, execTail, writeTail, hp, Nat.not_le.2 hq, hv, decide_false, Bool.not_true, Bool.or_false, Bool.false_eq_true, if_false, if_true]
    refine ⟨_, hexec, ?_, ?_, ?_, rfl⟩
    · rw [queueError, queueOf_journal, queueOf_modQueue, if_pos rfl]
    · rw [queueError, queueOf_journal, queueOf_modQueue, if_pos rfl]
    · rw [queueError, journal, getPart_modPart_self, getPart_modQueue]
  · have hrefused : (decide (64 ≤ q) || !presented s) = true := by rcases h with h | h <;> simp [h]
    simp only [exec_tail, execTail, hrefused, if_true]

theorem queuesAreEnabled : Says.QueuesAreEnabled := by
  refine ⟨fun s part q hp hq => ?_, fun s part q on h => ?_⟩
  · have hexec : ∀ on, exec (.qen part q on) s = .next (writeQen s part q on) := fun on => by
      simp only [exec_qen, execQen, hp, Nat.not_le.2 hq, decide_false, Bool.not_true, Bool.or_false, Bool.false_eq_true, if_false]
    refine ⟨fun hoff => ⟨_, hexec true, ?_⟩, ⟨_, hexec false, ?_⟩⟩
    · have hqueue : queueOf (writeQen s part q true) part q = if (queueOf s part q).qstat = 3 then
            { queueOf s part q with qen := true, qstat := if (queueOf s part q).pkts.isEmpty then 0 else 1, head := 0, tail := 0 }
          else { queueOf s part q with qen := true } := by
        simp only [writeQen, hoff, Bool.true_eq_false, if_false, if_true, queueOf_post, queueOf_modQueue]
      rw [hqueue]
      split
      · next h3 => exact ⟨rfl, rfl, fun _ => ⟨rfl, rfl, rfl⟩, fun h => absurd h3 h⟩
      · next h3 => exact ⟨rfl, rfl, fun h => absurd h h3, fun _ => rfl⟩
    · have hoff : (queueOf (writeQen s part q false) part q).qen = false := by
        by_cases he : false = (queueOf s part q).qen
        · rw [writeQen, if_pos he, ← he]
        · simp only [writeQen, he, Bool.false_eq_true, if_false, queueOf_modQueue, if_true]
      exact ⟨hoff, by rw [accepting, hoff, Bool.false_and, Bool.false_and, Bool.false_and]⟩
  · have hrefused : (decide (64 ≤ q) || !presented s) = true := by rcases h with h | h <;> simp [h]
    simp only [exec_qen, execQen, hrefused, if_true]

/-- A register write of 64 bits at a register's own offset, where the module is presented to the host. -/
theorem exec_registerWrite_at {s : State} (hp : presented s = true) (part : Nat) {off : Nat} (v : DWord) (ho : off % 8 = 0) :
    exec (.registerWrite part off v) s = .next (if 0x10000 ≤ off then writeFabric s part (off - 0x10000) v.toNat
      else if off < 0x1000 then writeQueueBlock s part (off / 64) (off % 64) v.toNat else writePartBlock s part (off - 0x1000) v.toNat) := by
  simp only [exec_registerWrite, execRegisterWrite, hp, ho, bne_self_eq_false, Bool.not_true, Bool.or_self, Bool.false_eq_true, if_false]

theorem registersAreWritten : Says.RegistersAreWritten := by
  refine ⟨fun s part v hp => ⟨?_, ?_, ?_, fun q hq => ?_⟩, fun s part off v h => ?_⟩
  · have hexec : exec (.registerWrite part 0x1000 v) s = .next (modPart s part fun p => { p with ptroot := BitVec.ofNat 64 v.toNat }) :=
      exec_registerWrite_at hp part v rfl
    refine ⟨_, hexec, ?_, rfl, rfl⟩
    rw [getPart_modPart_self, BitVec.ofNat_toNat, BitVec.setWidth_eq]
  · have hexec : exec (.registerWrite part 0x1018 v) s = .next (modPart s part fun p => { p with crec := BitVec.ofNat 64 v.toNat }) :=
      exec_registerWrite_at hp part v rfl
    refine ⟨_, hexec, ?_⟩
    rw [getPart_modPart_self, BitVec.ofNat_toNat, BitVec.setWidth_eq]
  · have hexec : exec (.registerWrite part 0x10008 v) s = .next (modPart s part fun p => { p with rkey := BitVec.ofNat 32 (field v.toNat 63 32) }) :=
      exec_registerWrite_at hp part v rfl
    refine ⟨_, hexec, ?_⟩
    rw [getPart_modPart_self]
    apply BitVec.eq_of_toNat_eq
    simp [field, Nat.shiftRight_eq_div_pow]
  · have hblock : ¬0x10000 ≤ 64 * q ∧ 64 * q < 0x1000 ∧ 64 * q / 64 = q ∧ 64 * q % 64 = 0 := by omega
    obtain ⟨hfabric, hpage, hdiv, hmod⟩ := hblock
    refine ⟨_, exec_registerWrite_at hp part v (by omega), ?_⟩
    rw [if_neg hfabric, if_pos hpage, hdiv, hmod, writeQueueBlock, if_pos rfl, queueOf_modQueue, if_pos rfl, BitVec.ofNat_toNat, BitVec.setWidth_eq]
    split <;> rfl
  · have hrefused : (off % 8 != 0 || !presented s) = true := by rcases h with h | h <;> simp [h]
    simp only [exec_registerWrite, execRegisterWrite, hrefused, if_true]

/-! ## Acceptance -/

/-- A queue once a packet has been accepted into it, or refused there with cause 1 (R295). -/
theorem queueOf_acceptPkt (s : State) (part q : Nat) (b : Record) : queueOf (acceptPkt s part q b) part q =
    if pktBad b then { queueOf s part q with
        seq := (queueOf s part q).seq + 1,
        fails := (queueOf s part q).fails ++ [(s.reqId, 1, if pktType b = 1 then pktOperand b else 0)] }
    else { queueOf s part q with
        seq := (queueOf s part q).seq + 1,
        pkts := (queueOf s part q).pkts ++ [{ seq := (queueOf s part q).seq, acc := s.reqId, body := b, late := (getPart s part).tearing }],
        qstat := if (queueOf s part q).qstat = 0 then 1 else (queueOf s part q).qstat } := by
  rw [acceptPkt]
  simp only [queueOf_journal, queueOf_modQueue, if_true]
  rfl

/-- The LAUNCH packet of a device post never breaks its format. -/
theorem pktBad_postPkt (r : DWord) : pktBad (postPkt r) = false := by
  have hr := r.isLt
  have hn : (postPkt r).toNat = 1 + r.toNat * 2 ^ 64 := by
    rw [postPkt, BitVec.toNat_ofNat, Nat.mod_eq_of_lt]
    omega
  have htype : pktType (postPkt r) = 1 := by
    rw [pktType, hn, field]
    omega
  have hlow : field (postPkt r).toNat 31 9 = 0 := by
    rw [hn, field]
    omega
  have hhigh : field (postPkt r).toNat 511 128 = 0 := by
    rw [hn, field, Nat.div_eq_of_lt, Nat.zero_mod]
    omega
  rw [pktBad, htype, hlow, hhigh]
  rfl

section
variable {s : State} {part q : Nat} (ha : accepting (queueOf s part q) = true)
include ha

/-- The oldest device post is accepted first. -/
theorem exec_packetAccept_post {d : DevPost} {ds : List DevPost} (hs : (queueOf s part q).qstat ≠ 2) (hp : (queueOf s part q).posts = d :: ds) :
    exec (.packetAccept part q) s = .next (kickFront (post (acceptPkt (modQueue s part q fun u => { u with posts := u.posts.drop 1 }) part q
      (postPkt d.record)) [.packetAccept part q]) part) := by
  simp only [exec_packetAccept, execPacketAccept, ha, hs, hp, List.head?_cons, Bool.not_true, Bool.false_eq_true, if_false]

section
variable (hp : (queueOf s part q).posts = []) (ht : (queueOf s part q).head ≠ (queueOf s part q).tail)
include hp ht

/-- The page of the ring entry at HEAD is asked of the host first. -/
theorem exec_packetAccept_asks {t : State}
    (hask : frontAsks s part [(queueOf s part q).qbase + BitVec.ofNat 64 (64 * (queueOf s part q).head.toNat)] = some t) :
    exec (.packetAccept part q) s = .next t := by
  simp only [exec_packetAccept, execPacketAccept, ha, hp, ht, hask, List.head?_nil, ite_self, Bool.not_true, List.isEmpty_nil, decide_false, Bool.or_self,
    Bool.false_eq_true, if_false]

/-- Without a device post the ring entry at HEAD is accepted, once the host has given its page. -/
theorem exec_packetAccept_ring
    (hask : frontAsks s part [(queueOf s part q).qbase + BitVec.ofNat 64 (64 * (queueOf s part q).head.toNat)] = none) :
    exec (.packetAccept part q) s = .next (kickFront (post (acceptRing s part q (queueOf s part q)) [.packetAccept part q]) part) := by
  simp only [exec_packetAccept, execPacketAccept, ha, hp, ht, hask, List.head?_nil, ite_self, Bool.not_true, List.isEmpty_nil, decide_false, Bool.or_self,
    Bool.false_eq_true, if_false]

end

/-- Where no post may be taken and a post or an empty ring stands in the way, nothing is accepted. -/
theorem exec_packetAccept_none (hp : (queueOf s part q).qstat = 2 ∨ (queueOf s part q).posts = [])
    (hn : (queueOf s part q).head = (queueOf s part q).tail ∨ (queueOf s part q).posts ≠ []) : exec (.packetAccept part q) s = .next s := by
  have hpost : (if (queueOf s part q).qstat = 2 then none else (queueOf s part q).posts.head?) = none := by rcases hp with h | h <;> simp [h]
  have hring : (decide ((queueOf s part q).head = (queueOf s part q).tail) || !(queueOf s part q).posts.isEmpty) = true := by
    rcases hn with h | h <;> simp [h]
  simp only [exec_packetAccept, execPacketAccept, ha, hpost, hring, Bool.not_true, Bool.false_eq_true, if_false, if_true]

end

theorem acceptRing_ok {s : State} {part q : Nat} {u : Queue} {l : List (Byte × Bool)} {bad : List Nat}
    (hr : readDevice s part (u.qbase + BitVec.ofNat 64 (64 * u.head.toNat)) 64 = .ok l bad) (hl : (l.any fun b => b.2) = false) :
    acceptRing s part q u = acceptPkt (modQueue s part q fun u => { u with head := BitVec.ofNat 32 ((u.head.toNat + 1) % 2 ^ u.qlog) }) part q
      (BitVec.ofNat 512 (bytesNum (l.map fun b => b.1))) := by
  simp only [acceptRing, hr, hl, Bool.false_eq_true, if_false]

theorem packetsAreAccepted : Says.PacketsAreAccepted := by
  intro s part q ha
  refine ⟨fun d ds hs hp => ?_, fun hs hp => exec_packetAccept_none ha (.inl hs) (.inr hp), fun t hp ht hask => ?_,
    fun l bad hp hask ht hr hl => ?_, fun hp ht => exec_packetAccept_none ha (.inr hp) (.inl ht)⟩
  · refine ⟨_, exec_packetAccept_post ha hs hp, ?_⟩
    rw [queueOf_kickFront, queueOf_post, queueOf_acceptPkt, pktBad_postPkt, queueOf_modQueue, getPart_modQueue]
    simp only [Bool.false_eq_true, if_false, if_true, hp, List.drop_one, List.tail_cons, and_true, true_and]
    rfl
  · exact exec_packetAccept_asks ha hp ht hask
  · refine ⟨_, exec_packetAccept_ring ha hp ht hask, ?_⟩
    rw [acceptRing_ok hr hl, queueOf_kickFront, queueOf_post, queueOf_acceptPkt, queueOf_modQueue, getPart_modQueue, if_pos rfl]
    cases hb : pktBad (BitVec.ofNat 512 (bytesNum (l.map fun b => b.1)))
    · exact ⟨rfl, rfl, rfl, fun _ => rfl, nofun⟩
    · exact ⟨rfl, rfl, rfl, nofun, fun _ => ⟨rfl, rfl⟩⟩

/-! ## The start of a LAUNCH -/

theorem findNode_post (s : State) (l : List Instr) (p : Nat) (a : DWord) : findNode (post s l) p a = findNode s p a := rfl

/-- A node enters the ready pool as READY, otherwise as it was. -/
theorem findNode_nodeReady {s : State} {part : Nat} {a : DWord} {n : Node} (h : findNode s part a = some n) :
    findNode (nodeReady s part a) part a = some { n with st := 2, order := (getPart s part).order } := by
  have hkept : findNode (writeState (modPart s part fun p => { p with order := (getPart s part).order + 1 }) part a 2) part a = some n := by
    rw [findNode_of_parts (writesOnly_writeState _ part a 2).parts, findNode_modPart _ _ _ rfl, h]
  rw [nodeReady, findNode_post, findNode_modNode _ _ _ _ (fun m => { m with st := 2, order := (getPart s part).order }) fun _ => rfl, hkept, Option.map_some, if_pos rfl]

theorem cores_nodeReady (s : State) (part : Nat) (a : DWord) : (nodeReady s part a).cores = s.cores :=
  (writesOnly_writeState (modPart s part fun p => { p with order := (getPart s part).order + 1 }) part a 2).cores

/-- The node that a LAUNCH has accepted: the front end's copy of its records, with its tag (R299, R300). -/
def acceptedNode (s : State) (part q : Nat) (k : Pkt) (a : DWord) (r : NodeRec) (n : Nat) : Node :=
  { addr := a, la := launchOf s part n, queue := q, seq := k.seq, acc := k.acc,
    estag := if (launchOf s part n).estn = 0 then 0 else (freeTag (getPart s part)).getD 0, st := 1,
    succs := (List.range r.nsucc).map fun i => BitVec.ofNat 64 ((vaRead s part (r.succ + BitVec.ofNat 64 (8 * i)) 8).getD 0) }

/-- A partition with an accepted node and its tag. -/
def nodeTaken (m : Node) (p : Part) : Part :=
  { p with nodes := (p.nodes.filter fun j => j.addr != m.addr) ++ [m], estags := if m.estag = 0 then p.estags else p.estags ++ [m.estag] }

theorem findNode_nodeTaken (s : State) (part : Nat) (m : Node) : findNode (modPart s part (nodeTaken m)) part m.addr = some m := by
  rw [findNode, getPart_modPart_self]
  refine (List.find?_append ..).trans ?_
  rw [List.find?_eq_none.2, Option.none_or]
  · exact List.find?_cons_of_pos (p := fun j : Node => j.addr == m.addr) (by simp)
  · intro j hj
    simpa using (List.mem_filter.1 hj).2

/-- An acceptance puts the node in its partition and writes its record's line; without predecessors the node is ready at once. -/
theorem acceptNode_eq (s : State) (part q : Nat) (k : Pkt) (a : DWord) (r : NodeRec) (n : Nat) : ∃ w,
    WritesOnly (modPart s part (nodeTaken (acceptedNode s part q k a r n))) w ∧
    acceptNode s part q k a r n = if r.pred = 0 then nodeReady w part a else w :=
  ⟨_, writesOnly_tryWrite _ part (a + 24) 12 _, rfl⟩

/-- A node is accepted under its LAUNCH's queue and sequence number; without predecessors it is READY at once (R299, R300). -/
theorem findNode_acceptNode (s : State) (part q : Nat) (k : Pkt) (a : DWord) (r : NodeRec) (n : Nat) :
    ∃ m, findNode (acceptNode s part q k a r n) part a = some m ∧ m.queue = q ∧ m.seq = k.seq ∧ m.la = launchOf s part n ∧
      m.st = if r.pred = 0 then 2 else 1 := by
  obtain ⟨w, hw, heq⟩ := acceptNode_eq s part q k a r n
  have hnode : findNode w part a = some (acceptedNode s part q k a r n) := by
    rw [findNode_of_parts hw.parts]
    exact findNode_nodeTaken s part (acceptedNode s part q k a r n)
  rw [heq]
  split
  · exact ⟨_, findNode_nodeReady hnode, rfl, rfl, rfl, rfl⟩
  · exact ⟨_, hnode, rfl, rfl, rfl, rfl⟩

theorem cores_acceptNode (s : State) (part q : Nat) (k : Pkt) (a : DWord) (r : NodeRec) (n : Nat) : (acceptNode s part q k a r n).cores = s.cores := by
  obtain ⟨w, hw, heq⟩ := acceptNode_eq s part q k a r n
  rw [heq]
  split
  · exact (cores_nodeReady w part a).trans hw.cores
  · exact hw.cores

section
variable {s : State} {part q : Nat} {k : Pkt} (hk : mayStart s part q 1 = some k)
include hk

/-- A LAUNCH that arrived in a tear-down of its context is refused with cause 8 (R303). -/
theorem exec_launchPacket_late (hl : k.late = true) :
    exec (.launchPacket part q) s = .next (finishPkt (markStarted s part q k) part q k 8 (pktOperand k.body)) := by
  simp only [exec_launchPacket, execLaunchPacket, hk, hl, if_true]

variable (hl : k.late = false)
include hl

theorem exec_launchPacket_asks {t : State} (hask : frontAsks s part (launchPages s part (pktOperand k.body)) = some t) :
    exec (.launchPacket part q) s = .next t := by
  simp only [exec_launchPacket, execLaunchPacket, hk, hl, hask, Bool.false_eq_true, if_false]

variable (hask : frontAsks s part (launchPages s part (pktOperand k.body)) = none) {rn n : Nat} (ha : badAddr (pktOperand k.body) = false)
  (hrn : vaRead (markStarted s part q k) part (pktOperand k.body) 64 = some rn) (hb : badAddr (nodeRecOf rn).lrec = false)
  (hn : vaRead (markStarted s part q k) part (nodeRecOf rn).lrec 512 = some n)
include hask ha hrn hb hn

/-- A LAUNCH whose records pass the checks has its node accepted. -/
theorem exec_launchPacket_accepted (hc : launchCause (markStarted s part q k) part (nodeRecOf rn) n = 0) :
    exec (.launchPacket part q) s =
      .next (kickFront (acceptNode (markStarted s part q k) part q k (pktOperand k.body) (nodeRecOf rn) n) part) := by
  simp only [exec_launchPacket, execLaunchPacket, hk, hl, hask, ha, hrn, hb, hn, hc, Bool.false_eq_true, if_false, if_true]

/-- A LAUNCH that fails a check is refused with its cause. -/
theorem exec_launchPacket_refused (hc : launchCause (markStarted s part q k) part (nodeRecOf rn) n ≠ 0) :
    ∃ w, WritesOnly (markStarted s part q k) w ∧ exec (.launchPacket part q) s =
      .next (finishPkt w part q k (launchCause (markStarted s part q k) part (nodeRecOf rn) n) (pktOperand k.body)) := by
  refine ⟨if (nodeRecOf rn).state = 0 then writeCause (writeState (markStarted s part q k) part (pktOperand k.body) 5) part (pktOperand k.body)
      (launchCause (markStarted s part q k) part (nodeRecOf rn) n) else markStarted s part q k, ?_,
    by simp only [exec_launchPacket, execLaunchPacket, hk, hl, hask, ha, hrn, hb, hn, hc, Bool.false_eq_true, if_false]⟩
  split
  · exact (writesOnly_writeState _ _ _ _).trans (writesOnly_writeCause _ _ _ _)
  · exact .refl _

end

theorem launchesAreChecked : Says.LaunchesAreChecked := by
  refine ⟨fun s part q k t hk hl hask => exec_launchPacket_asks hk hl hask, fun s part q k rn n hk hl hask ha hrn hb hn => ⟨fun hc => ?_, fun hc => ?_⟩,
    fun s part q k hk hl => ?_⟩
  · obtain ⟨m, hm, hq, hseq, hla, hst⟩ := findNode_acceptNode (markStarted s part q k) part q k (pktOperand k.body) (nodeRecOf rn) n
    exact ⟨_, m, exec_launchPacket_accepted hk hl hask ha hrn hb hn hc, hm, hq, hseq, hla, hst, cores_acceptNode _ _ _ _ _ _ _⟩
  · obtain ⟨w, hw, hexec⟩ := exec_launchPacket_refused hk hl hask ha hrn hb hn hc
    obtain ⟨hgone, hfails⟩ := failed_started s w part q k hc (pktOperand k.body) hw.parts
    exact ⟨_, hexec, hgone, hfails, (finishPkt_frame w part q k _ _).2.1.trans hw.cores⟩
  · obtain ⟨hgone, hfails⟩ := failed_started s (markStarted s part q k) part q k (o := 8) (by decide) (pktOperand k.body) rfl
    obtain ⟨hmem, hcores, -, -, -⟩ := finishPkt_frame (markStarted s part q k) part q k 8 (pktOperand k.body)
    exact ⟨_, exec_launchPacket_late hk hl, hgone, hfails, hmem, hcores⟩

/-! ## The completion of a node -/

/-- A partition that a node leaves, with its tag. -/
def nodeLeft (a : DWord) (tag : Nat) (p : Part) : Part :=
  { p with nodes := p.nodes.filter fun m => m.addr != a, estags := p.estags.filter fun t => t != tag }

theorem findNode_nodeLeft (s : State) (part : Nat) (a : DWord) (tag : Nat) : findNode (modPart s part (nodeLeft a tag)) part a = none := by
  rw [findNode, getPart_modPart_self, List.find?_eq_none]
  intro j hj
  simpa using (List.mem_filter.1 hj).2

/-- The cause of a node that is done: its own, or that a successor's count underflowed (R299). -/
def doneCause (s : State) (part : Nat) (a : DWord) (n : Node) : Nat :=
  if n.cause != 0 then n.cause else if (decrements part a n.succs (writeState s part a 4)).2 then 0x21 else 0

/-- The state in which a node that is done has its record and its successors' written. -/
def doneWritten (s : State) (part : Nat) (a : DWord) (n : Node) : State :=
  if doneCause s part a n = 0 then (decrements part a n.succs (writeState s part a 4)).1
  else writeCause (decrements part a n.succs (writeState s part a 4)).1 part a (doneCause s part a n)

/-- Without successors and without a cause only the record's STATE is written. -/
theorem doneWritten_plain (s : State) (part : Nat) (a : DWord) {n : Node} (hs : n.succs = []) (hc : n.cause = 0) :
    doneWritten s part a n = writeState s part a 4 := by
  have hcause : doneCause s part a n = 0 := by
    simp only [doneCause, hs, hc, decrements, bne_self_eq_false, Bool.false_eq_true, if_false]
  rw [doneWritten, if_pos hcause, hs, decrements]

/-- The LAUNCH of a node has the node's sequence number. -/
theorem nodePkt_seq (s : State) (part : Nat) (n : Node) : (nodePkt s part n).seq = n.seq := by
  rw [nodePkt]
  cases h : (queueOf s part n.queue).pkts.find? fun k => k.seq == n.seq with
  | none => rfl
  | some k => simpa using List.find?_some h

section
variable {s : State} {part node : Nat} {n : Node} (hn : findNode s part (BitVec.ofNat 64 node) = some n)
include hn

/-- A node whose groups are not all gone, or of which something is still to convey or on its way, is not done. -/
theorem exec_nodeDone_early (h : allGone n = false ∨ n.walksLeft ≠ 0 ∨ nodeInFlight s part (BitVec.ofNat 64 node) = true) :
    exec (.nodeDone part node) s = .next s := by
  have hearly : (n.st != 3 || !allGone n || n.walksLeft != 0 || nodeInFlight s part (BitVec.ofNat 64 node)) = true := by
    rcases h with h | h | h <;> simp [h]
  simp only [exec_nodeDone, execNodeDone, hn, hearly, if_true]

variable (hs : n.st = 3) (hg : allGone n = true) (hw : n.walksLeft = 0) (hf : nodeInFlight s part (BitVec.ofNat 64 node) = false)
include hs hg hw hf

theorem exec_nodeDone_asks {t : State} (hask : frontAsks s part (BitVec.ofNat 64 node :: n.succs) = some t) :
    exec (.nodeDone part node) s = .next t := by
  simp only [exec_nodeDone, execNodeDone, hn, hs, hg, hw, hf, hask, bne_self_eq_false, Bool.not_true, Bool.or_self, Bool.false_eq_true, if_false]

/-- A node that is done leaves the front end, and its LAUNCH completes. -/
theorem exec_nodeDone_done (hask : frontAsks s part (BitVec.ofNat 64 node :: n.succs) = none) : exec (.nodeDone part node) s =
    .next (post (clearDenied (finishPkt (dropHolder (modPart (doneWritten s part (BitVec.ofNat 64 node) n) part
        (nodeLeft (BitVec.ofNat 64 node) n.estag)) part (BitVec.ofNat 64 node)) part n.queue (nodePkt s part n)
      (doneCause s part (BitVec.ofNat 64 node) n) (BitVec.ofNat 64 node)) part)
      ((diesOf (getPart s part).lay).map fun d => .blockPlacement part d)) := by
  simp only [exec_nodeDone, execNodeDone, hn, hs, hg, hw, hf, hask, bne_self_eq_false, Bool.not_true, Bool.or_self, Bool.false_eq_true, if_false]
  rfl

end

theorem nodesComplete : Says.NodesComplete := by
  intro s part node n hn hs
  refine ⟨fun hg hw hf t hask => exec_nodeDone_asks hn hs hg hw hf hask, fun hg hw hf hask => ?_, exec_nodeDone_early hn⟩
  refine ⟨_, exec_nodeDone_done hn hs hg hw hf hask, ?_, ?_, fun hsucc hcause => ?_⟩
  · rw [findNode_post, findNode_clearDenied, findNode_finishPkt]
    exact findNode_nodeLeft _ part _ _
  · rw [queueOf_post, queueOf_clearDenied, ← nodePkt_seq s part n]
    exact finishPkt_gone _ part n.queue _ _ _
  · rw [← doneWritten_plain s part _ hsucc hcause]
    exact (finishPkt_frame _ part n.queue _ _ _).1

/-- Settles O53: each step of the front end is the change of one queue, partition block or node, and its journal entry. -/
theorem queuesAndPackets : Obligations.QueuesAndPackets :=
  ⟨doorbellsRing, queuesAreEnabled, registersAreWritten, packetsAreAccepted, launchesAreChecked, nodesComplete⟩

end Sys2Proof.Machine
end

section
/-! The instruction word: decoding and encoding are inverse to each other (R36, R37, R47, R50 to R52). -/
namespace Sys2Proof.Laws

/-- Settles O1, by evaluation of the five words. -/
theorem workedWordsDecode : Obligations.WorkedWordsDecode :=
  ⟨Machine.test_word_iadd, Machine.test_word_ffma, Machine.test_word_rep, Machine.test_word_refused.1, Machine.test_word_refused.2.1⟩

/-- Settles O2: each encoded instruction by the round trip of its own row of R51; an event has no word. -/
theorem decodeEncode : Obligations.DecodeEncode := by
  intro i
  change RoundTrip.Statement i
  cases i with
  | nop c => exact RoundTrip.nop c
  | bra c => exact RoundTrip.bra c
  | bri c => exact RoundTrip.bri c
  | call c => exact RoundTrip.call c
  | callInd c => exact RoundTrip.callInd c
  | ret c => exact RoundTrip.ret c
  | exit c => exact RoundTrip.exit c
  | region c => exact RoundTrip.region c
  | trap c => exact RoundTrip.trap c
  | bkpt c => exact RoundTrip.bkpt c
  | sleep c => exact RoundTrip.sleep c
  | yield c => exact RoundTrip.yield c
  | rep cnt xs ys zs ws => exact RoundTrip.rep cnt xs ys zs ws
  | mov c ty => exact RoundTrip.mov c ty
  | sel c ty => exact RoundTrip.sel c ty
  | iadd c sat ty => exact RoundTrip.iadd c sat ty
  | isub c sat ty => exact RoundTrip.isub c sat ty
  | ineg c sat ty => exact RoundTrip.ineg c sat ty
  | iabs c sat ty => exact RoundTrip.iabs c sat ty
  | imul c ty => exact RoundTrip.imul c ty
  | imulh c ty => exact RoundTrip.imulh c ty
  | imad c ty => exact RoundTrip.imad c ty
  | imin c ty => exact RoundTrip.imin c ty
  | imax c ty => exact RoundTrip.imax c ty
  | idp4 c sat ty => exact RoundTrip.idp4 c sat ty
  | lea c sh ty => exact RoundTrip.lea c sh ty
  | iset c cc ty => exact RoundTrip.iset c cc ty
  | bsel c => exact RoundTrip.bsel c
  | plop c t => exact RoundTrip.plop c t
  | and c ty => exact RoundTrip.and c ty
  | or c ty => exact RoundTrip.or c ty
  | xor c ty => exact RoundTrip.xor c ty
  | andn c ty => exact RoundTrip.andn c ty
  | not c ty => exact RoundTrip.not c ty
  | ltab c ty => exact RoundTrip.ltab c ty
  | shl c clamp ty => exact RoundTrip.shl c clamp ty
  | shr c clamp ty => exact RoundTrip.shr c clamp ty
  | sar c clamp ty => exact RoundTrip.sar c clamp ty
  | rol c ty => exact RoundTrip.rol c ty
  | bfx c signed ty => exact RoundTrip.bfx c signed ty
  | bfi c ty => exact RoundTrip.bfi c ty
  | popc c ty => exact RoundTrip.popc c ty
  | clz c ty => exact RoundTrip.clz c ty
  | ctz c ty => exact RoundTrip.ctz c ty
  | brev c ty => exact RoundTrip.brev c ty
  | fadd c rm ty => exact RoundTrip.fadd c rm ty
  | fsub c rm ty => exact RoundTrip.fsub c rm ty
  | fmul c rm ty => exact RoundTrip.fmul c rm ty
  | ffma c rm ty => exact RoundTrip.ffma c rm ty
  | fmin c nan ty => exact RoundTrip.fmin c nan ty
  | fmax c nan ty => exact RoundTrip.fmax c nan ty
  | fabs c ty => exact RoundTrip.fabs c ty
  | fneg c ty => exact RoundTrip.fneg c ty
  | fdiv c rm ty => exact RoundTrip.fdiv c rm ty
  | fsqrt c rm ty => exact RoundTrip.fsqrt c rm ty
  | frcp c rm ty => exact RoundTrip.frcp c rm ty
  | frsq c rm ty => exact RoundTrip.frsq c rm ty
  | fset c cc ty => exact RoundTrip.fset c cc ty
  | fclass c ty => exact RoundTrip.fclass c ty
  | frnd c rm ty => exact RoundTrip.frnd c rm ty
  | fscl c rm ty => exact RoundTrip.fscl c rm ty
  | cvt c rm ns ty => exact RoundTrip.cvt c rm ns ty
  | cvts c ns ty => exact RoundTrip.cvts c ns ty
  | cvtp c rm ns q ty => exact RoundTrip.cvtp c rm ns q ty
  | cvtx c k ty => exact RoundTrip.cvtx c k ty
  | qb4 c rm => exact RoundTrip.qb4 c rm
  | p2v c => exact RoundTrip.p2v c
  | v2p c => exact RoundTrip.v2p c
  | rds c => exact RoundTrip.rds c
  | smov c ty => exact RoundTrip.smov c ty
  | vote c k => exact RoundTrip.vote c k
  | shfl c k ty => exact RoundTrip.shfl c k ty
  | lred c op rm ty => exact RoundTrip.lred c op rm ty
  | lsync c => exact RoundTrip.lsync c
  | ld c k ty => exact RoundTrip.ld c k ty
  | ldl c ty => exact RoundTrip.ldl c ty
  | st c ev ty => exact RoundTrip.st c ev ty
  | stl c ty => exact RoundTrip.stl c ty
  | pf c l1 => exact RoundTrip.pf c l1
  | atom c op ord ty => exact RoundTrip.atom c op ord ty
  | atoml c op ord ty => exact RoundTrip.atoml c op ord ty
  | red c op ord ty => exact RoundTrip.red c op ord ty
  | fence c k sc => exact RoundTrip.fence c k sc
  | l1inv c => exact RoundTrip.l1inv c
  | wdef c => exact RoundTrip.wdef c
  | wdrop c => exact RoundTrip.wdrop c
  | wstat c => exact RoundTrip.wstat c
  | waitw c cmp => exact RoundTrip.waitw c cmp
  | tryw c cmp => exact RoundTrip.tryw c cmp
  | bar c level => exact RoundTrip.bar c level
  | lock c => exact RoundTrip.lock c
  | tlock c => exact RoundTrip.tlock c
  | unlock c => exact RoundTrip.unlock c
  | heir c k dflt => exact RoundTrip.heir c k dflt
  | prom c => exact RoundTrip.prom c
  | fulf c brk => exact RoundTrip.fulf c brk
  | pwait c => exact RoundTrip.pwait c
  | claim c => exact RoundTrip.claim c
  | rels c => exact RoundTrip.rels c
  | holdq c => exact RoundTrip.holdq c
  | step c => exact RoundTrip.step c
  | lqry c => exact RoundTrip.lqry c
  | mqcf c => exact RoundTrip.mqcf c
  | mqst c => exact RoundTrip.mqst c
  | mldw c wf => exact RoundTrip.mldw c wf
  | mpass c wf af => exact RoundTrip.mpass c wf af
  | zclr c => exact RoundTrip.zclr c
  | zmov c => exact RoundTrip.zmov c
  | zst c t loc rm ns ty => exact RoundTrip.zst c t loc rm ns ty
  | zld c t loc ty => exact RoundTrip.zld c t loc ty
  | mstat c => exact RoundTrip.mstat c
  | mwait c => exact RoundTrip.mwait c
  | bop c op rm ty => exact RoundTrip.bop c op rm ty
  | redt c rm ty => exact RoundTrip.redt c rm ty
  | bcopy c => exact RoundTrip.bcopy c
  | bfence c => exact RoundTrip.bfence c
  | bgid c mcast => exact RoundTrip.bgid c mcast
  | bgfree c => exact RoundTrip.bgfree c
  | launch c => exact RoundTrip.launch c
  | rdclk c => exact RoundTrip.rdclk c
  | _ => exact fun _ _ h => nomatch h

/-! ## Codes of enumerations -/

theorem bnat_beq_one {fn : Nat} (h : fn < 2) : bnat (fn == 1) = fn := by interval_cases fn <;> rfl
theorem rmCode_rmOfCode {fn : Nat} (h : fn < 4) : rmCode (rmOfCode fn) = fn := by interval_cases fn <;> rfl
theorem iccCode_iccOfCode {fn : Nat} (h : fn < 6) : iccCode (iccOfCode fn) = fn := by interval_cases fn <;> rfl
theorem fccCode_fccOfCode {fn : Nat} (h : fn < 8) : fccCode (fccOfCode fn) = fn := by interval_cases fn <;> rfl
theorem aopCode_aopOfCode {fn : Nat} (h : fn < 8) : aopCode (aopOfCode fn) = fn := by interval_cases fn <;> rfl
theorem ordCode_ordOfCode {fn : Nat} (h : fn < 4) : ordCode (ordOfCode fn) = fn := by interval_cases fn <;> rfl
theorem scopeCode_scopeOfCode {fn : Nat} (h : fn < 6) : scopeCode (scopeOfCode fn) = fn := by interval_cases fn <;> rfl
theorem wcmpCode_wcmpOfCode {fn : Nat} (h : fn < 3) : wcmpCode (wcmpOfCode fn) = fn := by interval_cases fn <;> rfl
theorem voteCode_voteOfCode {fn : Nat} (h : fn < 4) : voteCode (voteOfCode fn) = fn := by interval_cases fn <;> rfl
theorem shflCode_shflOfCode {fn : Nat} (h : fn < 4) : shflCode (shflOfCode fn) = fn := by interval_cases fn <;> rfl
theorem lredOpCode_lredOpOfCode {fn : Nat} (h : fn < 6) : lredOpCode (lredOpOfCode fn) = fn := by interval_cases fn <;> rfl
theorem hkindCode_hkindOfCode {fn : Nat} (h : fn < 5) : hkindCode (hkindOfCode fn) = fn := by interval_cases fn <;> rfl
theorem ldKindCode_ldKindOfCode {fn : Nat} (h : fn < 3) : ldKindCode (ldKindOfCode fn) = fn := by interval_cases fn <;> rfl
theorem bopKindCode_bopKindOfCode {fn : Nat} (h : fn < 4) : bopKindCode (bopKindOfCode fn) = fn := by interval_cases fn <;> rfl
theorem wfmtCode_wfmtOfCode {fn : Nat} (h : fn < 4) : wfmtCode (wfmtOfCode fn) = fn := by interval_cases fn <;> rfl
theorem fkindCode_fkindOfCode {fn : Nat} (h : fn < 4) (h0 : fn ≠ 0) : fkindCode (fkindOfCode fn) = fn := by interval_cases fn <;> trivial
theorem tyCode_tyOfCode {n : Nat} {t : Ty} (h : tyOfCode n = some t) : tyCode t = n := by
  unfold tyOfCode at h
  split at h <;> cases h <;> rfl
theorem wfmtTyCode_wfmtOfTy {t : Ty} {f : WFmt} (h : wfmtOfTy t = some f) : wfmtTyCode f = tyCode t := by
  cases t <;> cases h <;> rfl

/-! ## The rows of R51 -/

/-- What a row of R51 builds has the row's own codes and the operand fields it was given, and its FN is legal. -/
def Row (op fn : Nat) (b : Builder) : Prop := ∀ c t i, b c t = some i → codesOf i = some (op, fn, tyCode t, c) ∧ fnOk i = true

theorem row_untyped {op fn f : Nat} {k : Enc → Instr} (hk : ∀ c, codesOf (k c) = some (op, f, 0, c) ∧ fnOk (k c) = true) (hf : f = fn) :
    Row op fn (untyped k) := by
  rintro c t i h
  obtain ⟨rfl, rfl⟩ : t = .i32 ∧ k c = i := by simpa [untyped] using h
  exact hf ▸ hk c
theorem row_typed {op fn f : Nat} {k : Enc → Ty → Instr} (hk : ∀ c t, codesOf (k c t) = some (op, f, tyCode t, c) ∧ fnOk (k c t) = true)
    (hf : f = fn) : Row op fn (typed k) := by
  rintro c t i h
  cases h
  exact hf ▸ hk c t
theorem row_onlyTy {op fn f : Nat} {t0 : Ty} {k : Enc → Instr} (hk : ∀ c, codesOf (k c) = some (op, f, tyCode t0, c) ∧ fnOk (k c) = true)
    (hf : f = fn) : Row op fn (onlyTy t0 k) := by
  rintro c t i h
  obtain ⟨rfl, rfl⟩ : t = t0 ∧ k c = i := by simpa [onlyTy] using h
  exact hf ▸ hk c
/-- A row that R51 gives under a condition on FN. -/
theorem row_of_ite {op fn : Nat} {p : Prop} [Decidable p] {b b' : Builder} (h : (if p then some b else none) = some b') (hb : p → Row op fn b) :
    Row op fn b' := by
  split at h
  · cases h; exact hb ‹p›
  · cases h
theorem row_untyped_fn0 {op fn : Nat} {k : Enc → Instr} {b : Builder} (h : fn0 fn (untyped k) = some b)
    (hk : ∀ c, codesOf (k c) = some (op, 0, 0, c) ∧ fnOk (k c) = true) : Row op fn b := row_of_ite h fun hf => row_untyped hk hf.symm
theorem row_typed_fn0 {op fn : Nat} {k : Enc → Ty → Instr} {b : Builder} (h : fn0 fn (typed k) = some b)
    (hk : ∀ c t, codesOf (k c t) = some (op, 0, tyCode t, c) ∧ fnOk (k c t) = true) : Row op fn b := row_of_ite h fun hf => row_typed hk hf.symm
theorem row_onlyTy_fn0 {op fn : Nat} {t0 : Ty} {k : Enc → Instr} {b : Builder} (h : fn0 fn (onlyTy t0 k) = some b)
    (hk : ∀ c, codesOf (k c) = some (op, 0, tyCode t0, c) ∧ fnOk (k c) = true) : Row op fn b := row_of_ite h fun hf => row_onlyTy hk hf.symm

/-- A row whose TY is a weight or activation format (R211). -/
theorem row_weights {op fn f : Nat} {k : Enc → WFmt → Instr}
    (hk : ∀ c w, codesOf (k c w) = some (op, f, wfmtTyCode w, c) ∧ fnOk (k c w) = true) (hf : f = fn) :
    Row op fn fun c t => (wfmtOfTy t).map fun w => k c w := by
  rintro c t i h
  obtain ⟨w, hw, rfl⟩ := Option.map_eq_some_iff.1 h
  rw [← wfmtTyCode_wfmtOfTy hw]
  exact hf ▸ hk c w
/-- RED's FN values have neither an exchange nor an acquire form (R160). -/
theorem fnOk_red {fn : Nat} (h : fn % 16 < 6) (ho : fn / 16 = 0 ∨ fn / 16 = 2) {c : Enc} {t : Ty} :
    fnOk (.red c (aopOfCode (fn % 16)) (ordOfCode (fn / 16)) t) = true := by
  generalize fn % 16 = a at h
  rcases ho with ho | ho <;> rw [ho] <;> interval_cases a <;> rfl

/-- Every row of R51 that OP and FN select. -/
theorem row_of_builderOf {op fn : Nat} {b : Builder} (hlt : fn < 64) (h : builderOf op fn = some b) : Row op fn b := by
  unfold builderOf at h
  split at h
  · exact row_untyped_fn0 h fun _ => ⟨rfl, rfl⟩
  · exact row_untyped_fn0 h fun _ => ⟨rfl, rfl⟩
  · exact row_untyped_fn0 h fun _ => ⟨rfl, rfl⟩
  · split at h
    · cases h; exact row_untyped (fun _ => ⟨rfl, rfl⟩) (Eq.symm ‹fn = 0›)
    · exact row_of_ite h fun hfn => row_untyped (fun _ => ⟨rfl, rfl⟩) hfn.symm
  · exact row_untyped_fn0 h fun _ => ⟨rfl, rfl⟩
  · exact row_untyped_fn0 h fun _ => ⟨rfl, rfl⟩
  · exact row_untyped_fn0 h fun _ => ⟨rfl, rfl⟩
  · exact row_untyped_fn0 h fun _ => ⟨rfl, rfl⟩
  · exact row_untyped_fn0 h fun _ => ⟨rfl, rfl⟩
  · exact row_untyped_fn0 h fun _ => ⟨rfl, rfl⟩
  · exact row_untyped_fn0 h fun _ => ⟨rfl, rfl⟩
  · exact row_typed_fn0 h fun _ _ => ⟨rfl, rfl⟩
  · exact row_typed_fn0 h fun _ _ => ⟨rfl, rfl⟩
  · exact row_of_ite h fun hfn => row_typed (fun _ _ => ⟨rfl, rfl⟩) (bnat_beq_one hfn)
  · exact row_of_ite h fun hfn => row_typed (fun _ _ => ⟨rfl, rfl⟩) (bnat_beq_one hfn)
  · exact row_of_ite h fun hfn => row_typed (fun _ _ => ⟨rfl, rfl⟩) (bnat_beq_one hfn)
  · exact row_of_ite h fun hfn => row_typed (fun _ _ => ⟨rfl, rfl⟩) (bnat_beq_one hfn)
  · exact row_typed_fn0 h fun _ _ => ⟨rfl, rfl⟩
  · exact row_typed_fn0 h fun _ _ => ⟨rfl, rfl⟩
  · exact row_typed_fn0 h fun _ _ => ⟨rfl, rfl⟩
  · exact row_typed_fn0 h fun _ _ => ⟨rfl, rfl⟩
  · exact row_typed_fn0 h fun _ _ => ⟨rfl, rfl⟩
  · exact row_of_ite h fun hfn => row_typed (fun _ _ => ⟨rfl, rfl⟩) (bnat_beq_one hfn)
  · exact row_of_ite h fun hfn => row_typed (fun _ _ => ⟨rfl, rfl⟩) (Nat.mod_eq_of_lt hfn)
  · exact row_of_ite h fun hfn => row_typed (fun _ _ => ⟨rfl, rfl⟩) (iccCode_iccOfCode hfn)
  · exact row_onlyTy_fn0 h fun _ => ⟨rfl, rfl⟩
  · exact row_of_ite h fun hfn => row_untyped (fun _ => ⟨rfl, rfl⟩) (Nat.mod_eq_of_lt hfn)
  · exact row_typed_fn0 h fun _ _ => ⟨rfl, rfl⟩
  · exact row_typed_fn0 h fun _ _ => ⟨rfl, rfl⟩
  · exact row_typed_fn0 h fun _ _ => ⟨rfl, rfl⟩
  · exact row_typed_fn0 h fun _ _ => ⟨rfl, rfl⟩
  · exact row_typed_fn0 h fun _ _ => ⟨rfl, rfl⟩
  · exact row_typed_fn0 h fun _ _ => ⟨rfl, rfl⟩
  · exact row_of_ite h fun hfn => row_typed (fun _ _ => ⟨rfl, rfl⟩) (bnat_beq_one hfn)
  · exact row_of_ite h fun hfn => row_typed (fun _ _ => ⟨rfl, rfl⟩) (bnat_beq_one hfn)
  · exact row_of_ite h fun hfn => row_typed (fun _ _ => ⟨rfl, rfl⟩) (bnat_beq_one hfn)
  · exact row_typed_fn0 h fun _ _ => ⟨rfl, rfl⟩
  · exact row_of_ite h fun hfn => row_typed (fun _ _ => ⟨rfl, rfl⟩) (bnat_beq_one hfn)
  · exact row_typed_fn0 h fun _ _ => ⟨rfl, rfl⟩
  · exact row_typed_fn0 h fun _ _ => ⟨rfl, rfl⟩
  · exact row_typed_fn0 h fun _ _ => ⟨rfl, rfl⟩
  · exact row_typed_fn0 h fun _ _ => ⟨rfl, rfl⟩
  · exact row_typed_fn0 h fun _ _ => ⟨rfl, rfl⟩
  · exact row_of_ite h fun hfn => row_typed (fun _ _ => ⟨rfl, rfl⟩) (rmCode_rmOfCode hfn)
  · exact row_of_ite h fun hfn => row_typed (fun _ _ => ⟨rfl, rfl⟩) (rmCode_rmOfCode hfn)
  · exact row_of_ite h fun hfn => row_typed (fun _ _ => ⟨rfl, rfl⟩) (rmCode_rmOfCode hfn)
  · exact row_of_ite h fun hfn => row_typed (fun _ _ => ⟨rfl, rfl⟩) (rmCode_rmOfCode hfn)
  · exact row_of_ite h fun hfn => row_typed (fun _ _ => ⟨rfl, rfl⟩) (bnat_beq_one hfn)
  · exact row_of_ite h fun hfn => row_typed (fun _ _ => ⟨rfl, rfl⟩) (bnat_beq_one hfn)
  · exact row_typed_fn0 h fun _ _ => ⟨rfl, rfl⟩
  · exact row_typed_fn0 h fun _ _ => ⟨rfl, rfl⟩
  · exact row_of_ite h fun hfn => row_typed (fun _ _ => ⟨rfl, rfl⟩) (rmCode_rmOfCode hfn)
  · exact row_of_ite h fun hfn => row_typed (fun _ _ => ⟨rfl, rfl⟩) (rmCode_rmOfCode hfn)
  · exact row_of_ite h fun hfn => row_typed (fun _ _ => ⟨rfl, rfl⟩) (rmCode_rmOfCode hfn)
  · exact row_of_ite h fun hfn => row_typed (fun _ _ => ⟨rfl, rfl⟩) (rmCode_rmOfCode hfn)
  · exact row_of_ite h fun hfn => row_typed (fun _ _ => ⟨rfl, rfl⟩) (fccCode_fccOfCode hfn)
  · exact row_typed_fn0 h fun _ _ => ⟨rfl, rfl⟩
  · exact row_of_ite h fun hfn => row_typed (fun _ _ => ⟨rfl, rfl⟩) (rmCode_rmOfCode hfn)
  · exact row_of_ite h fun hfn => row_typed (fun _ _ => ⟨rfl, rfl⟩) (rmCode_rmOfCode hfn)
  · exact row_of_ite h fun hfn => row_typed (fun _ _ => ⟨rfl, rfl⟩) (by
      rw [rmCode_rmOfCode (by omega), bnat_beq_one (by omega)]; omega)
  · exact row_of_ite h fun hfn => row_typed (fun _ _ => ⟨rfl, rfl⟩) (by rcases (by simpa using hfn : fn = 0 ∨ fn = 4) with rfl | rfl <;> rfl)
  · cases h
    refine row_typed (fun _ _ => ⟨rfl, rfl⟩) ?_
    rw [rmCode_rmOfCode (by omega), bnat_beq_one (by omega), Fin.val_ofNat]; omega
  · exact row_of_ite h fun hfn => row_typed (fun _ _ => ⟨rfl, rfl⟩) (Nat.mod_eq_of_lt hfn)
  · exact row_of_ite h fun hfn => row_onlyTy (fun _ => ⟨rfl, rfl⟩) (rmCode_rmOfCode hfn)
  · exact row_onlyTy_fn0 h fun _ => ⟨rfl, rfl⟩
  · exact row_onlyTy_fn0 h fun _ => ⟨rfl, rfl⟩
  · exact row_onlyTy_fn0 h fun _ => ⟨rfl, rfl⟩
  · exact row_typed_fn0 h fun _ _ => ⟨rfl, rfl⟩
  · exact row_of_ite h fun hfn => row_untyped (fun _ => ⟨rfl, rfl⟩) (voteCode_voteOfCode hfn)
  · exact row_of_ite h fun hfn => row_typed (fun _ _ => ⟨rfl, rfl⟩) (shflCode_shflOfCode hfn)
  · refine row_of_ite h fun hfn => row_typed (fun _ _ => ⟨rfl, rfl⟩) ?_
    have hc : fn < 32 ∧ fn % 8 < 6 := by simpa using hfn
    rw [lredOpCode_lredOpOfCode hc.2, rmCode_rmOfCode (by omega)]; omega
  · exact row_untyped_fn0 h fun _ => ⟨rfl, rfl⟩
  · exact row_of_ite h fun hfn => row_typed (fun _ _ => ⟨rfl, rfl⟩) (ldKindCode_ldKindOfCode hfn)
  · exact row_of_ite h fun hfn => row_typed (fun _ _ => ⟨rfl, rfl⟩) (by rcases (by simpa using hfn : fn = 0 ∨ fn = 2) with rfl | rfl <;> rfl)
  · exact row_typed_fn0 h fun _ _ => ⟨rfl, rfl⟩
  · exact row_typed_fn0 h fun _ _ => ⟨rfl, rfl⟩
  · exact row_of_ite h fun hfn => row_untyped (fun _ => ⟨rfl, rfl⟩) (bnat_beq_one hfn)
  · exact row_of_ite h fun hfn => row_typed (fun _ _ => ⟨rfl, rfl⟩) (by
      rw [aopCode_aopOfCode hfn, ordCode_ordOfCode (by omega)]; omega)
  · exact row_of_ite h fun hfn => row_typed (fun _ _ => ⟨rfl, rfl⟩) (by
      rw [aopCode_aopOfCode hfn, ordCode_ordOfCode (by omega)]; omega)
  · refine row_of_ite h fun hfn => ?_
    have hc : fn % 16 < 6 ∧ (fn / 16 = 0 ∨ fn / 16 = 2) := by simpa using hfn
    refine row_typed (fun _ _ => ⟨rfl, fnOk_red hc.1 hc.2⟩) ?_
    rw [aopCode_aopOfCode (by omega), ordCode_ordOfCode (by omega)]; omega
  · refine row_of_ite h fun hfn => row_untyped (fun _ => ⟨rfl, rfl⟩) ?_
    have hc : (fn < 32 ∧ fn % 4 ≠ 0) ∧ fn / 4 < 6 := by simpa using hfn
    rw [fkindCode_fkindOfCode (by omega) hc.1.2, scopeCode_scopeOfCode hc.2]; omega
  · exact row_untyped_fn0 h fun _ => ⟨rfl, rfl⟩
  · exact row_untyped_fn0 h fun _ => ⟨rfl, rfl⟩
  · exact row_untyped_fn0 h fun _ => ⟨rfl, rfl⟩
  · exact row_untyped_fn0 h fun _ => ⟨rfl, rfl⟩
  · exact row_of_ite h fun hfn => row_untyped (fun _ => ⟨rfl, rfl⟩) (wcmpCode_wcmpOfCode hfn)
  · exact row_of_ite h fun hfn => row_untyped (fun _ => ⟨rfl, rfl⟩) (wcmpCode_wcmpOfCode hfn)
  · refine row_of_ite h fun hfn => ?_
    have hc : 2 ≤ fn ∧ fn < 8 := by simpa using hfn
    have hm : fn % 8 = fn := Nat.mod_eq_of_lt hc.2
    exact row_untyped (fun _ => ⟨rfl, decide_eq_true (show 2 ≤ fn % 8 by omega)⟩) hm
  · exact row_untyped_fn0 h fun _ => ⟨rfl, rfl⟩
  · exact row_untyped_fn0 h fun _ => ⟨rfl, rfl⟩
  · exact row_untyped_fn0 h fun _ => ⟨rfl, rfl⟩
  · refine row_of_ite h fun hfn => row_untyped (fun _ => ⟨rfl, rfl⟩) ?_
    have hc : fn < 16 ∧ fn % 8 < 5 := by simpa using hfn
    rw [hkindCode_hkindOfCode hc.2, bnat_beq_one (by omega)]; omega
  · exact row_untyped_fn0 h fun _ => ⟨rfl, rfl⟩
  · exact row_of_ite h fun hfn => row_untyped (fun _ => ⟨rfl, rfl⟩) (bnat_beq_one hfn)
  · exact row_untyped_fn0 h fun _ => ⟨rfl, rfl⟩
  · exact row_untyped_fn0 h fun _ => ⟨rfl, rfl⟩
  · exact row_untyped_fn0 h fun _ => ⟨rfl, rfl⟩
  · exact row_untyped_fn0 h fun _ => ⟨rfl, rfl⟩
  · exact row_untyped_fn0 h fun _ => ⟨rfl, rfl⟩
  · exact row_untyped_fn0 h fun _ => ⟨rfl, rfl⟩
  · exact row_untyped_fn0 h fun _ => ⟨rfl, rfl⟩
  · exact row_untyped_fn0 h fun _ => ⟨rfl, rfl⟩
  · exact row_of_ite h fun hfn => row_weights (fun _ _ => ⟨rfl, rfl⟩) hfn.symm
  · exact row_of_ite h fun hfn => row_weights (fun _ _ => ⟨rfl, rfl⟩) (wfmtCode_wfmtOfCode hfn)
  · exact row_untyped_fn0 h fun _ => ⟨rfl, rfl⟩
  · exact row_onlyTy_fn0 h fun _ => ⟨rfl, rfl⟩
  · exact row_of_ite h fun hfn => row_typed (fun _ _ => ⟨rfl, rfl⟩) (by
      rw [bnat_beq_one (by omega), bnat_beq_one (by omega), rmCode_rmOfCode (by omega), bnat_beq_one (by omega)]; omega)
  · exact row_of_ite h fun hfn => row_typed (fun _ _ => ⟨rfl, rfl⟩) (by
      rw [bnat_beq_one (by omega), bnat_beq_one (by omega)]; omega)
  · exact row_untyped_fn0 h fun _ => ⟨rfl, rfl⟩
  · exact row_untyped_fn0 h fun _ => ⟨rfl, rfl⟩
  · exact row_of_ite h fun hfn => row_typed (fun _ _ => ⟨rfl, rfl⟩) (by
      rw [bopKindCode_bopKindOfCode (by omega), rmCode_rmOfCode (by omega)]; omega)
  · exact row_of_ite h fun hfn => row_typed (fun _ _ => ⟨rfl, rfl⟩) (rmCode_rmOfCode hfn)
  · exact row_untyped_fn0 h fun _ => ⟨rfl, rfl⟩
  · exact row_untyped_fn0 h fun _ => ⟨rfl, rfl⟩
  · exact row_of_ite h fun hfn => row_untyped (fun _ => ⟨rfl, rfl⟩) (bnat_beq_one hfn)
  · exact row_untyped_fn0 h fun _ => ⟨rfl, rfl⟩
  · exact row_untyped_fn0 h fun _ => ⟨rfl, rfl⟩
  · exact row_onlyTy_fn0 h fun _ => ⟨rfl, rfl⟩
  · cases h

/-! ## Fields and words -/

theorem dirNo_dirOf {n : Nat} (h : n < 7) : dirNo (dirOf n) = n := by interval_cases n <;> rfl
theorem specialNo_specialOf {n : Nat} (h : n < 8) : specialNo (specialOf n) = n := by interval_cases n <;> rfl

theorem reservedRaw_iff (n : Nat) : reservedRaw n = true ↔
    ((880 ≤ n ∧ n ≤ 895 ∨ 908 ≤ n ∧ n ≤ 911) ∨ 945 ≤ n ∧ n ≤ 959) ∨ 968 ≤ n ∧ n ≤ 1022 := by
  simp only [reservedRaw, Bool.or_eq_true, Bool.and_eq_true, decide_eq_true_eq]

/-- The operand that ten bits name has their number, and a reserved one carries a reserved value (R38). -/
theorem opndNo_opndOfBits (b : BitVec 10) : opndNo (opndOfBits b) = b.toNat ∧ opndWf (opndOfBits b) = true := by
  have hb : b.toNat < 1024 := b.isLt
  simp only [opndOfBits]
  split
  · exact ⟨rfl, rfl⟩
  split
  · exact ⟨by simp only [opndNo]; rw [dirNo_dirOf (by omega)]; omega, rfl⟩
  split
  · exact ⟨rfl, (reservedRaw_iff _).2 (by omega)⟩
  split
  · exact ⟨by simp only [opndNo]; omega, rfl⟩
  split
  · exact ⟨by simp only [opndNo]; omega, rfl⟩
  split
  · exact ⟨rfl, (reservedRaw_iff _).2 (by omega)⟩
  split
  · exact ⟨by simp only [opndNo]; omega, rfl⟩
  split
  · exact ⟨Eq.symm ‹b.toNat = 944›, rfl⟩
  split
  · exact ⟨rfl, (reservedRaw_iff _).2 (by omega)⟩
  split
  · exact ⟨by simp only [opndNo]; rw [specialNo_specialOf (by omega)]; omega, rfl⟩
  split
  · exact ⟨rfl, (reservedRaw_iff _).2 (by omega)⟩
  · exact ⟨by simp only [opndNo]; omega, rfl⟩

theorem opndBits_opndOfBits (b : BitVec 10) : opndBits (opndOfBits b) = b := by
  rw [opndBits, (opndNo_opndOfBits b).1, BitVec.ofNat_toNat, BitVec.setWidth_eq]

theorem opndWf_opndOfBits (b : BitVec 10) : opndWf (opndOfBits b) = true := (opndNo_opndOfBits b).2

theorem bit1_beq_one (b : BitVec 1) : bit1 (b == 1) = b := by
  obtain rfl | rfl := BitVec.eq_zero_or_eq_one b <;> rfl

theorem encWf_encOfFields (f : Fields) : encWf (encOfFields f) = true := by simp [encWf, encOfFields, opndWf_opndOfBits]

/-- Fields without reserved bits are those that their codes and their operand fields give. -/
theorem fieldsOfEnc_encOfFields (f : Fields) (h : f.res = 0) : fieldsOfEnc f.op.toNat f.fn.toNat f.ty.toNat (encOfFields f) = f := by
  simp only [fieldsOfEnc, encOfFields, opndBits_opndOfBits, bit1_beq_one, BitVec.ofNat_toNat, BitVec.setWidth_eq, BitVec.ofFin_toFin, ← h]

theorem pack_unpack (w : BitVec 96) : packFields (unpackFields w) = w := by
  simp only [packFields, unpackFields]
  simp (disch := rfl) only [BitVec.extractLsb'_append_extractLsb'_eq_extractLsb']
  exact BitVec.extractLsb'_eq_self

theorem repImm_extract (v : BitVec 32) (hhi : v.extractLsb' 24 8 = 0) (hmid : v.extractLsb' 6 2 = 0) :
    repImm (v.extractLsb' 0 6).toFin (v.extractLsb' 8 4) (v.extractLsb' 12 4) (v.extractLsb' 16 4) (v.extractLsb' 20 4) = v := by
  have h6 : BitVec.ofNat 6 (v.extractLsb' 0 6).toFin.val = v.extractLsb' 0 6 := BitVec.ofNat_toNat ..
  rw [repImm, ← hhi, ← hmid, h6]
  simp (disch := rfl) only [BitVec.extractLsb'_append_extractLsb'_eq_extractLsb']
  exact BitVec.extractLsb'_eq_self
/-- The operand fields of an instruction are those its codes stand beside. -/
theorem encOf_of_codesOf {i : Instr} {op fn ty : Nat} {c : Enc} (h : codesOf i = some (op, fn, ty, c)) : encOf i = some c := by
  have he : encOf i = (codesOf i).map (·.2.2.2) := by cases i <;> rfl
  rw [he, h]; rfl

theorem encodeFields_of_codesOf {i : Instr} {op fn ty : Nat} {c : Enc} (h : codesOf i = some (op, fn, ty, c)) :
    encodeFields i = some (fieldsOfEnc op fn ty c) := by
  unfold encodeFields
  split
  · cases h
  · rw [h]; rfl

/-- Fields of a REP word decode to a REP that the same fields encode (R47). -/
theorem encode_decodeRep {f : Fields} {i : Instr} (h : decodeRep f = .ok i) : instrWf i = true ∧ encodeFields i = some f := by
  unfold decodeRep at h
  split_ifs at h with h1 h2 h3
  cases h
  simp only [Bool.and_eq_true, decide_eq_true_eq, beq_iff_eq] at h3
  obtain ⟨⟨hf, hhi⟩, hmid⟩ := h3
  refine ⟨rfl, ?_⟩
  rw [encodeFields, repImm_extract f.imm hhi hmid, ← hf]

/-- Fields that decode are those of a well-formed instruction. -/
theorem encode_decodeFields {f : Fields} {i : Instr} (h : decodeFields f = .ok i) : instrWf i = true ∧ encodeFields i = some f := by
  unfold decodeFields at h
  split_ifs at h with hrep hop
  · exact encode_decodeRep h
  · split at h
    · cases h
    · rename_i b hb
      split at h
      · cases h
      · rename_i j hj
        split_ifs at h with hty hbits
        cases h
        obtain ⟨t, ht, hi⟩ := Option.bind_eq_some_iff.1 hj
        obtain ⟨hcode, hfn⟩ := row_of_builderOf f.fn.isLt hb _ t _ hi
        simp only [Bool.not_eq_true', Bool.not_eq_false, Bool.or_eq_true, bne_iff_ne, not_or, not_not] at hty hbits
        rw [tyCode_tyOfCode ht] at hcode
        refine ⟨?_, ?_⟩
        · simp only [instrWf, hfn, hty, hbits.2, encOf_of_codesOf hcode, encWf_encOfFields, Bool.and_self]
        · rw [encodeFields_of_codesOf hcode, fieldsOfEnc_encOfFields f hbits.1]

/-- Settles O3: a word that decodes is that of its instruction, field by field. -/
theorem encodeDecode : Obligations.EncodeDecode := by
  intro w i h
  obtain ⟨hwf, hf⟩ := encode_decodeFields h
  exact ⟨hwf, by rw [encode, hf, Option.map_some, pack_unpack]⟩

end Sys2Proof.Laws
end

section
/-! One turn of the machine and the checks of an issue (R36, R43, R48, R52, R53, R116, R120). -/
namespace Sys2Proof.Machine

/-! ## The turn of a selected entry -/

section
variable {s : State} {sl : Sel} {g : Group} {e : Entry} {n : Node} {w : BitVec 96} {s1 : State} (ha : s.agenda = []) (hp : pendingEvent s = none)
  (hd : allDark s = false) (hpick : pick s = some sl)
include ha hp hd hpick

/-- With nothing on the agenda, no command to go on with, and power, the turn is an issue of the picked entry. -/
theorem turn_of_pick : turn s = issueTurn s sl := by
  simp only [turn, ha, hp, hd, hpick, Bool.false_eq_true, if_false]

variable (hsel : selected { s with sel := some sl } = some (sl, g, e, n))
  (hw : fetchAt { s with sel := some sl } sl.core sl.slot n g.part e.mask (instrIx e) = .word w s1)
include hsel hw

theorem step_of_decoded {i : Instr} (hdec : decodeWord w = .ok i) : step s = exec (stepped e i) s1 := by
  have ht : turn s = .run (stepped e i) s1 := by
    simp only [turn_of_pick ha hp hd hpick, issueTurn, hsel, hw, hdec]
  rw [step, ht]

theorem step_of_undecoded {err : DecodeErr} (hdec : decodeWord w = .error err) :
    step s = .next (fetchFault s1 sl e n .illegalInstruction 0) := by
  have ht : turn s = .quiet (fetchFault s1 sl e n .illegalInstruction 0) := by
    simp only [turn_of_pick ha hp hd hpick, issueTurn, hsel, hw, hdec]
  rw [step, ht]

end

/-- Settles O4: the turn of a selected entry whose word decodes is a run of what it decodes to. -/
theorem stepRunsDecoded : Obligations.StepRunsDecoded :=
  fun _ _ _ _ _ _ _ _ ha hp hd hpick hsel hw hdec => step_of_decoded ha hp hd hpick hsel hw hdec

theorem undecodableTraps : Says.UndecodableTraps :=
  fun _ _ _ _ _ _ _ _ ha hp hd hpick hsel hw hdec => step_of_undecoded ha hp hd hpick hsel hw hdec

theorem stepRunsAgenda : Says.StepRunsAgenda := by
  intro s i l ha
  have ht : turn s = .run i { s with agenda := l, held := [], heldGroups := [] } := by simp only [turn, ha]
  rw [step, ht]

/-- Settles O5: a refused word's turn is its fault, and the head of the agenda is the turn before any other. -/
theorem stepTurns : Obligations.StepTurns := ⟨undecodableTraps, stepRunsAgenda⟩

/-! ## REP -/

theorem repStarts : Says.RepStarts := by
  intro cnt xs ys zs ws s sl g e n w s1 i hsel hw hdec hrep hc
  simp only [exec_rep, execRep, hsel, hw, hdec, hrep, hc, Option.isSome_none, Bool.false_eq_true, if_false]

theorem repChecksFail : Says.RepChecksFail := by
  intro cnt xs ys zs ws s sl g e n w s1 i k hsel hw hdec hrep hc
  simp only [exec_rep, execRep, hsel, hw, hdec, hrep, hc, Option.isSome_none, Bool.false_eq_true, if_false, fetchFault]

/-- A vector register that an operand's move names is as many registers on (R47). -/
theorem moveOpnd_v {n : Fin 768} {d : Int} {o : Opnd} (h : moveOpnd (.v n) d = some o) : ∃ m : Fin 768, o = .v m ∧ (m.val : Int) = n.val + d := by
  simp only [moveOpnd] at h
  split at h
  · next hk => cases h; exact ⟨_, rfl, Int.toNat_of_nonneg hk.1⟩
  · cases h

/-- The fourth operand of fields whose IMM bits 9 to 0 are an operand's. -/
theorem wOpnd_of_bits {c : Enc} {o : Opnd} {u : BitVec 22} (hi : c.imm = u ++ opndBits o) (ho : opndWf o = true) : wOpnd c = o := by
  rw [wOpnd, hi, Laws.extract_append_lo, Laws.opndOfBits_opndBits o ho]

theorem opndWf_moveOpnd {o p : Opnd} {d : Int} (h : moveOpnd o d = some p) (ho : opndWf o = true) : opndWf p = true := by
  cases o with
  | v n => obtain ⟨m, rfl, -⟩ := moveOpnd_v h; rfl
  | _ => cases h; exact ho

/-- What the fields of an iteration are moves of (R48). -/
theorem stepEnc_some {r : Rules} {rc : RepCtx} {k : Nat} {c d : Enc} (h : stepEnc r rc k c = some d) :
    moveOpnd c.x (repStep rc.xs * k) = some d.x ∧ moveOpnd c.y (repStep rc.ys * k) = some d.y ∧ moveOpnd c.z (repStep rc.zs * k) = some d.z ∧
    (isOpnd r.w = true → moveOpnd (wOpnd c) (repStep rc.ws * k) = some (wOpnd d)) ∧
    d = { c with x := d.x, y := d.y, z := d.z, imm := d.imm } ∧ (isOpnd r.w = false → d.imm = c.imm) := by
  unfold stepEnc at h
  split at h
  · next x y z w hx hy hz hw =>
    cases h
    refine ⟨hx, hy, hz, fun hr => ?_, rfl, fun hr => by simp [hr]⟩
    rw [if_pos hr] at hw
    rw [hw, wOpnd_of_bits (if_pos hr) (opndWf_moveOpnd hw (Laws.opndWf_opndOfBits _))]
  · cases h

theorem repSteps : Says.RepSteps := by
  intro r rc k c d h
  obtain ⟨hx, hy, hz, hw, hd, himm⟩ := stepEnc_some h
  refine ⟨fun n hn => moveOpnd_v (hn ▸ hx), fun n hn => moveOpnd_v (hn ▸ hy), fun n hn => moveOpnd_v (hn ▸ hz),
    fun hr n hn => moveOpnd_v (hn ▸ hw hr), ?_, himm⟩
  rw [hd]

theorem entryAdvances : Says.EntryAdvances := by
  intro btab nc c ends nr item e
  refine ⟨fun hr => ?_, fun rc hr hlt => ?_, fun rc hr hle => ?_, fun hc hl he => ?_, fun h => ?_, rfl, rfl⟩
  · simp [advance, hr]
  · simp [advance, hr, hlt]
  · simp [advance, hr, Nat.not_lt.2 hle]
  · simp [advance, hc, hl, he]
  · rcases h with h | h | h <;> simp [advance, h]

/-- Settles O23: REP checks its pair first, and an iteration's fields and entry are those of the step. -/
theorem repRepeats : Obligations.RepRepeats := ⟨repStarts, repChecksFail, repSteps, entryAdvances⟩

end Sys2Proof.Machine
end

section
/-! Faults: how one is taken, how the line rises, how an entry is rolled back, and the accesses that fault (R53, R125, R156, R250, R314 to R319). -/
namespace Sys2Proof.Machine

/-! ## The line rises -/

theorem agenda_vaWrite {s t : State} {part : Nat} {va : DWord} {n v : Nat} (h : vaWrite s part va n v = some t) : t.agenda = s.agenda := by
  have hkeep : ∀ (o : State) (ln k : Nat) (u : State), (keepPoison o ln k u).agenda = u.agenda := fun o ln k u => by
    unfold keepPoison; split <;> rfl
  unfold vaWrite at h
  dsimp only at h
  split at h
  · cases h
    exact (foldl_keeps (·.agenda) (fun u ln => hkeep s ln _ u) _ _).trans (by rw [memPuts_eq])
  · cases h

theorem agenda_summaryPut (s : State) (part : Nat) (a : DWord) (c : Cause) : (summaryPut s part a c).agenda = s.agenda := by
  unfold summaryPut
  split
  · cases h : vaWrite s part (a + 12) 52 _ with
    | none => rfl
    | some t => exact agenda_vaWrite h
  · rfl

theorem agenda_summaryFor (part : Nat) (c : Cause) (s : State) (n : Node) : (summaryFor part c s n).agenda = s.agenda := by
  unfold summaryFor
  split
  · rfl
  · split <;> exact agenda_summaryPut s _ _ _

theorem st_stopClocks (s : State) (part : Nat) : (getPart (stopClocks s part) part).st = (getPart s part).st := by
  rw [stopClocks, getPart_modPart_self]
  split <;> rfl

/-- A partition's own state as the line rises, besides what `raiseSquall_spec` says of it. -/
theorem raiseSquall_part (s : State) (part : Nat) (c : Cause) (h : (getPart s part).squall = false) :
    (getPart (raiseSquall s part c) part).unitsLeft = unitsOf s part ∧
    (getPart (raiseSquall s part c) part).st = if (getPart s part).st == .running then .halting else (getPart s part).st := by
  have hw := fun u => writesOnly_foldl (summaryFor part c) (writesOnly_summaryFor part c) (getPart s part).nodes u
  simp only [raiseSquall, h, Bool.false_eq_true, if_false, getPart_post, journal, getPart_modPart_self, (hw _).getPart, st_stopClocks, and_self]

theorem agenda_raiseSquall (s : State) (part : Nat) (c : Cause) (h : (getPart s part).squall = false) :
    (raiseSquall s part c).agenda = s.agenda ++ ((unitsOf s part).map (fun u => .squallArrival part u) ++ [.haltComplete part]) := by
  have hw := fun u => foldl_keeps (·.agenda) (agenda_summaryFor part c) (getPart s part).nodes u
  simp only [raiseSquall, h, Bool.false_eq_true, if_false, post_agenda, journal, modPart_agenda, hw, stopClocks]

theorem squallRises : Says.SquallRises := by
  intro s p c
  obtain ⟨hup, hcores, -, -, hcause⟩ := raiseSquall_spec s p c
  refine ⟨fun h => by simp only [raiseSquall, h, if_true], fun h => ?_⟩
  obtain ⟨hunits, hst⟩ := raiseSquall_part s p c h
  exact ⟨hup, hcause h, hunits, fun hr => by rw [hst, hr]; rfl, agenda_raiseSquall s p c h, hcores⟩

/-! ## Rollback -/

theorem mem_lanesOf {m : Lanes} {l : Nat} : l ∈ lanesOf m ↔ l < 64 ∧ m.getLsbD l = true := by simp [lanesOf]

/-- Counts copied for some lanes. -/
theorem mapGet_foldl_mapSet (r : SMap Word) (L : List Nat) (n : SMap Word) (l : Nat) :
    mapGet 0 (L.foldl (fun n l => mapSet 0 n l (mapGet 0 r l)) n) l = if l ∈ L then mapGet 0 r l else mapGet 0 n l := by
  induction L generalizing n with
  | nil => rfl
  | cons a t ih =>
    rw [List.foldl_cons, ih, mapGet_mapSet]
    by_cases ht : l ∈ t
    · simp [ht]
    · by_cases ha : l = a <;> simp [ht, ha]

theorem mapGet_countsFrom (n r : SMap Word) (m : Lanes) {l : Nat} (hl : l < 64) (hm : m.getLsbD l = true) :
    mapGet 0 (countsFrom n m r) l = mapGet 0 r l := by
  rw [countsFrom, mapGet_foldl_mapSet, if_pos (mem_lanesOf.2 ⟨hl, hm⟩)]

/-- A rollback changes a group's frontier and counts alone. -/
theorem rollGroup_eq (btab : List (Nat × Nat)) (m : Lanes) (g : Group) : ∃ l n, rollGroup btab m g = { g with front := l, ncall := n } := by
  unfold rollGroup
  split <;> exact ⟨_, _, rfl⟩

theorem rollbackRestarts : Says.RollbackRestarts := by
  intro btab m g e h
  obtain ⟨l, n, hr⟩ := rollGroup_eq btab m g
  refine ⟨rfl, rfl, rfl, rfl, rfl, rfl, rfl, by rw [hr], by rw [hr], by rw [hr], fun l hl hm => ?_⟩
  rw [rollGroup, h]
  exact mapGet_countsFrom _ _ m hl hm

/-! ## Taking a fault -/

theorem laneAt_modEntry (l : List Entry) (m : Lanes) (f : Entry → Entry) (k : Nat)
    (h : ∀ e, (f e).mask = e.mask ∧ (f e).ix = e.ix ∧ (f e).rgn = e.rgn) : laneAt (modEntry l m f) k = laneAt l k :=
  laneAt_map l _ k fun e => by split <;> simp [h]

/-- A group with its fault noted: the first cause stays, and the chain of the charged entry breaks (R45, R314, R319). -/
def faulted (m : Lanes) (k : TrapKind) (faddr : DWord) (aux : Word) (g : Group) : Group :=
  { g with raised := true, cause := if g.cause = 0 then trapCode k else g.cause, charged := if g.cause = 0 then m else g.charged,
           faddr := if g.cause = 0 then faddr else g.faddr, aux := if g.cause = 0 then aux else g.aux,
           front := modEntry g.front m fun e => { e with chain := [], chn := false, broken := e.broken || !e.chain.isEmpty } }

/-- The cores after a fault is taken: one group is noted, and rolled back where the fault is charged at the region entry. -/
theorem takeFault_cores (s : State) (core slot : Nat) (m : Lanes) (back : Bool) (k : TrapKind) (faddr : DWord) (aux : Word)
    (btab : List (Nat × Nat)) {g : Group} {e : Entry} (hg : getGroup s core slot = some g) (he : g.front.find? (fun e => e.mask == m) = some e) :
    ∃ c, takeFault s core slot m back k faddr aux btab =
      raiseSquall (setGroup s core slot (if back then rollGroup btab m (faulted m k faddr aux g) else faulted m k faddr aux g)) g.part c := by
  simp only [takeFault, hg, he]
  exact ⟨_, rfl⟩

theorem faultIsTaken : Says.FaultIsTaken := by
  intro s core slot m back k faddr aux btab g e hg he
  obtain ⟨c, ht⟩ := takeFault_cores s core slot m back k faddr aux btab hg he
  rw [ht]
  generalize hh : (if back then rollGroup btab m (faulted m k faddr aux g) else faulted m k faddr aux g) = h
  obtain ⟨l, n, hl⟩ : ∃ l n, h = { faulted m k faddr aux g with front := l, ncall := n } := by
    rw [← hh]; split
    · exact rollGroup_eq btab m _
    · exact ⟨_, _, rfl⟩
  obtain ⟨hup, hcores, -⟩ := raiseSquall_spec (setGroup s core slot h) g.part c
  refine ⟨h, ?_, by rw [hl]; rfl, fun h0 => ?_, by rw [hl]; rfl, by rw [hl]; rfl, by rw [hl]; rfl, fun hb l => ?_, hup, fun d j hd => ?_⟩
  · rw [getGroup_of_cores hcores, getGroup_setGroup_self]
  · rw [hl]
    exact ⟨if_pos h0, if_pos h0, if_pos h0, if_pos h0⟩
  · rw [← hh, hb]
    exact laneAt_modEntry g.front m _ l fun _ => ⟨rfl, rfl, rfl⟩
  · rw [getGroup_of_cores hcores, getGroup_setGroup_ne s core slot d j h hd]

/-- Settles O25: a fault is a change of one group and the rise of the line, and a rollback of its frontier and counts. -/
theorem faultsAreTaken : Obligations.FaultsAreTaken := ⟨faultIsTaken, squallRises, rollbackRestarts⟩

/-! ## Accesses that fault -/

/-- A ready instruction whose own part ends in a trap takes that fault. -/
theorem exec_of_trap {i : Instr} {c : Enc} {s : State} {x : Ctx} {v : Srcs} {left added : List LvEnt} {k : TrapKind} {f : DWord}
    {body : Ctx → Srcs → State → Res} (he : exec i s = issue i c body s) (h : Ready i c s x v left added) (hb : body x v s = .trap k f) :
    exec i s = .next (trapIssue x k f s) := by
  rw [he, issue, issueState_ready body h, hb, finish]

theorem transLanes_fault {s : State} {core slot part w : Nat} {m : Lanes} {kind : AccKind} {l : List (Nat × DWord)} {k : TrapKind} {va : DWord}
    (h : laneFault s core part w kind l = some (k, va)) : transLanes s core slot part m w kind l = .trap k va := by
  simp only [transLanes, h]

theorem badAccessTraps : Says.BadAccessTraps := by
  intro i c s x v left added kind w addrs k va hi h hacc hf
  have ht := fun slot m => transLanes_fault (slot := slot) (m := m) hf
  cases i with
  | ld c' lk ty =>
    cases hi; cases hacc
    refine exec_of_trap (exec_ld ..) h ?_
    rw [loadAddrs] at ht
    simp only [ldBody, ht]
  | st c' ev ty =>
    cases hi; cases hacc
    exact exec_of_trap (exec_st ..) h (by simp only [stBody, ht])
  | atom c' op ord ty =>
    cases hi
    simp only [globalAccesses] at hacc
    split at hacc
    · cases hacc
    · next h0 => cases hacc; exact exec_of_trap (exec_atom ..) h (by simp only [atomBody, h0, if_false, ht])
  | red c' op ord ty =>
    cases hi
    simp only [globalAccesses] at hacc
    split at hacc
    · cases hacc
    · next h0 => cases hacc; exact exec_of_trap (exec_red ..) h (by simp only [redBody, h0, if_false, ht])
  | bop c' op rm ty =>
    cases hi
    simp only [globalAccesses] at hacc
    split at hacc
    · cases hacc
    · next h0 => cases hacc; exact exec_of_trap (exec_bop ..) h (by simp only [bopBody, h0, if_false, ht])
  | _ => cases hacc

theorem firstFaultingLane : Says.FirstFaultingLane := by
  refine ⟨fun s core part w k l va t h => ?_, fun s core part w k l va t h hc => ?_, fun s core part w k l va t tr h hc hl hh hp => ?_,
    fun s core part w k l va t pa pte h ht => ?_⟩
  · rw [laneFault, if_pos h]
  · rw [laneFault, if_neg (not_not.2 h)]
    simp only [coreTrans, leafTrans, hc, Bool.not_false, if_true]
  · rw [laneFault, if_neg (not_not.2 h)]
    simp only [coreTrans, leafTrans, hc, hl, hh, hp, Bool.not_true, Bool.not_false, Bool.true_or, Bool.false_eq_true, if_false, if_true]
  · rw [laneFault, if_neg (not_not.2 h), ht]

/-- Settles O28: the first lane whose access faults decides, before any access is made. -/
theorem badAccessesTrap : Obligations.BadAccessesTrap := ⟨badAccessTraps, firstFaultingLane⟩

end Sys2Proof.Machine
end

section
/-! Loads that complete: from the bytes at the core, or with a request for each line that misses (R157, R264). -/
namespace Sys2Proof.Machine

/-- What an issue leaves whose reply is still out: the effects of its sources, and scheduling. -/
theorem kept_finish_late (x : Ctx) (i : Instr) (c : Enc) (s s1 : State) (left added : List LvEnt) (q : Nat) :
    Kept (sourcedLate x i c left added q s1) (finish x i c s left added (.late s1 q)) := kept_complete _ _ _ _ _ _

/-- A ready instruction whose own part ends with a result. -/
theorem exec_of_fin {i : Instr} {c : Enc} {s s1 : State} {x : Ctx} {v : Srcs} {left added : List LvEnt} {r : Row64}
    {body : Ctx → Srcs → State → Res} (he : exec i s = issue i c body s) (h : Ready i c s x v left added) (hb : body x v s = .fin s1 r) :
    ∃ t, exec i s = .next t ∧ Kept (sourced x i c left added r s1) t :=
  ⟨_, by rw [he, issue, issueState_ready body h, hb], kept_finish_fin ..⟩

/-- A ready instruction whose own part leaves a reply out. -/
theorem exec_of_late {i : Instr} {c : Enc} {s s1 : State} {x : Ctx} {v : Srcs} {left added : List LvEnt} {q : Nat}
    {body : Ctx → Srcs → State → Res} (he : exec i s = issue i c body s) (h : Ready i c s x v left added) (hb : body x v s = .late s1 q) :
    ∃ t, exec i s = .next t ∧ Kept (sourcedLate x i c left added q s1) t :=
  ⟨_, by rw [he, issue, issueState_ready body h, hb], kept_finish_late ..⟩

/-! ## What a load finds -/

theorem filterMap_zip_found {α β : Type} (f : α → Option Nat) (g : α → Nat → β) (l : List α) :
    (l.map fun a => (a, f a)).filterMap (fun p => p.2.map (g p.1)) = l.filterMap fun a => (f a).map (g a) := by
  rw [List.filterMap_map]; rfl

theorem filter_zip_missing {α : Type} (f : α → Option Nat) (l : List α) :
    ((l.map fun a => (a, f a)).filter fun p => p.2.isNone).map (·.1) = l.filter fun a => (f a).isNone := by
  rw [List.filter_map, List.map_map]
  exact List.map_id _

/-- LD's own part, once its addresses are translated and nothing before it holds it. -/
theorem ldBody_ok {c : Enc} {k : LdKind} {ty : Ty} {x : Ctx} {v : Srcs} {s s1 : State} {accs : List LaneAcc}
    (ht : transLanes s x.core x.slot x.g.part x.e.mask (accWidth ty) .read (loadAddrs c x v) = .ok accs s1)
    (hh : accs.any (laneHeld s1 x.core x.g.blk (accWidth ty)) = false) :
    ldBody c k ty x v s =
      (let got := accs.filterMap fun a => (foundAt s1 x ty a).map fun n => (a.lane, BitVec.ofNat 64 n)
       let miss := accs.filter fun a => (foundAt s1 x ty a).isNone
       if miss.isEmpty then
         let r := rowOf fun l => (assoc got l).getD 0
         .fin (writeDst x c.x (tyIs64 ty) c.nw r s1) (latchRow c.x x.act r)
       else .late (sendReads x s1.reqId miss (addPend { s1 with reqId := s1.reqId + 1 } x.core x.slot
         { id := s1.reqId, kind := .load k, mask := x.e.mask, dst := c.x, ty := ty, nw := c.nw, act := x.act, lanes := miss, got := got,
           tag := tagOf x })) s1.reqId) := by
  rw [loadAddrs] at ht
  have hg := filterMap_zip_found (foundAt s1 x ty) (fun (a : LaneAcc) n => (a.lane, BitVec.ofNat 64 n)) accs
  have hm := filter_zip_missing (foundAt s1 x ty) accs
  simp only [foundAt] at hg hm
  simp only [ldBody, ht, hh, Bool.false_eq_true, if_false, freshReq, hg, hm, foundAt]
  rfl

theorem loadHits : Says.LoadHits := by
  intro c k ty s x v left added accs s1 h ht hh hall
  refine exec_of_fin (exec_ld ..) h ?_
  have hm : accs.filter (fun a => (foundAt s1 x ty a).isNone) = [] :=
    List.filter_eq_nil_iff.2 fun a ha hn => absurd (hall a ha) (by simpa using hn)
  simp only [ldBody_ok ht hh, hm, List.isEmpty_nil, if_true]

/-! ## The requests of its lines -/

/-- A packet that was numbered already and is as `P` says. -/
def Sent (P : Packet → Prop) (s : State) : Prop := ∃ p ∈ s.packets, p.id < s.reqId ∧ P p

theorem sendPacket_packets (s : State) (p : Packet) :
    (sendPacket s p).packets = (s.packets.filter fun q => q.id != s.reqId) ++ [{ p with id := s.reqId }] := rfl
theorem sendPacket_reqId (s : State) (p : Packet) : (sendPacket s p).reqId = s.reqId + 1 := rfl

/-- A packet set on its way leaves those numbered before it on theirs. -/
theorem Sent.sendPacket {P : Packet → Prop} {s : State} (h : Sent P s) (p : Packet) : Sent P (sendPacket s p) := by
  obtain ⟨q, hq, hid, hP⟩ := h
  refine ⟨q, ?_, by rw [sendPacket_reqId]; omega, hP⟩
  rw [sendPacket_packets]
  exact List.mem_append_left _ (List.mem_filter.2 ⟨hq, by simp; omega⟩)

theorem sent_sendPacket {P : Packet → Prop} (s : State) (p : Packet) (hP : P { p with id := s.reqId }) : Sent P (sendPacket s p) :=
  ⟨_, List.mem_append_right _ (List.mem_singleton.2 rfl), by rw [sendPacket_reqId]; exact Nat.lt_succ_self _, hP⟩

/-- One read's request: from its core to its line's home, for a lane of the line. -/
def IsReadOf (x : Ctx) (req : Nat) (l : List LaneAcc) (ln : Nat) (p : Packet) : Prop :=
  p.cls = .request ∧ p.cargo = .read x.slot req ln ∧ p.src = x.core ∧ ∃ a ∈ l, a.pa / 128 = ln ∧ p.dst = a.home

theorem isReadOf_afterNak (x : Ctx) (req : Nat) {l : List LaneAcc} {a : LaneAcc} (ha : a ∈ l) (n : Nat) :
    IsReadOf x req l (a.pa / 128)
      { afterNak x (netPacket .request (.read x.slot req (a.pa / 128)) 0 x.g.part x.g.node x.g.blk x.core a.home x.slot (tagOf x)) with id := n } := by
  unfold afterNak
  split <;> exact ⟨rfl, rfl, rfl, a, ha, rfl, rfl⟩

/-- One line's request sent, for the first access in it. -/
def sendLine (x : Ctx) (req : Nat) (l : List LaneAcc) (s : State) (ln : Nat) : State :=
  match l.find? fun a => a.pa / 128 == ln with
  | some a => sendPacket s (afterNak x (netPacket .request (.read x.slot req ln) 0 x.g.part x.g.node x.g.blk x.core a.home x.slot (tagOf x)))
  | none => s

theorem sendReads_eq (x : Ctx) (req : Nat) (l : List LaneAcc) (s : State) : sendReads x req l s = (linesOf l).foldl (sendLine x req l) s := rfl

theorem Sent.sendLine {P : Packet → Prop} {s : State} (h : Sent P s) (x : Ctx) (req : Nat) (l : List LaneAcc) (ln : Nat) :
    Sent P (sendLine x req l s ln) := by
  unfold Machine.sendLine
  split
  · exact h.sendPacket _
  · exact h

/-- A line that some access reads gets its request. -/
theorem sent_sendLine (x : Ctx) (req : Nat) {l : List LaneAcc} (s : State) {ln : Nat} (h : ln ∈ linesOf l) :
    Sent (IsReadOf x req l ln) (sendLine x req l s ln) := by
  unfold Machine.sendLine
  cases hf : l.find? fun a => a.pa / 128 == ln with
  | none =>
    obtain ⟨a, ha, han⟩ := List.mem_map.1 (List.mem_dedup.1 h)
    exact absurd (List.find?_eq_none.1 hf a ha) (by simp [han])
  | some a =>
    have han : a.pa / 128 = ln := by simpa using List.find?_some hf
    subst han
    exact sent_sendPacket _ _ (isReadOf_afterNak x req (List.mem_of_find?_eq_some hf) _)

/-- Each line of some accesses has its request under way. -/
theorem sent_sendReads (x : Ctx) (req : Nat) (l : List LaneAcc) (s : State) {ln : Nat} (h : ln ∈ linesOf l) :
    Sent (IsReadOf x req l ln) (sendReads x req l s) := by
  have keep : ∀ (m : List Nat) (u : State), Sent (IsReadOf x req l ln) u → Sent (IsReadOf x req l ln) (m.foldl (sendLine x req l) u) := by
    intro m
    induction m with
    | nil => exact fun _ hu => hu
    | cons n t ih => exact fun u hu => ih _ (hu.sendLine x req l n)
  have send : ∀ (m : List Nat) (u : State), ln ∈ m → Sent (IsReadOf x req l ln) (m.foldl (sendLine x req l) u) := by
    intro m
    induction m with
    | nil => exact fun _ hm => absurd hm List.not_mem_nil
    | cons n t ih =>
      intro u hm
      rcases List.mem_cons.1 hm with rfl | ht
      · exact keep t _ (sent_sendLine x req u h)
      · exact ih _ ht
  rw [sendReads_eq]
  exact send _ s h

theorem modGroup_packets (s : State) (c k : Nat) (f : Group → Group) : (modGroup s c k f).packets = s.packets := by
  unfold modGroup; split <;> rfl

/-- What the effects of an issue's sources keep (R128, R271): what the taking of a packet keeps, the filling of a shadow's queue and the use of one's own. -/
theorem commitSources_induction {P : State → Prop} {x : Ctx} {r : Rules} {c : Enc} {left added : List LvEnt} {s : State} (hs : P s)
    (hport : ∀ q, P (consumePort s x q))
    (hlead : ∀ u, P u → P (modGroup u x.core (x.slot + 1) fun h => wakeQueue { h with lvq := h.lvq ++ added }))
    (hshadow : ∀ u, P u → P (modGroup u x.core x.slot fun g => { g with lvq := g.lvq.diff (x.g.lvq.diff left) })) :
    P (commitSources x r c left added s) := by
  have h1 : P (match portOf r c with
      | some q => if x.act = 0 || x.g.shadow == Shadow.shadow then s else consumePort s x q
      | none => s) := by
    split
    · split
      · exact hs
      · exact hport _
    · exact hs
  unfold commitSources
  dsimp only
  split
  · exact h1
  · split
    · exact h1
    · exact hlead _ h1
  · exact hshadow _ h1

theorem consumePort_packets (s : State) (x : Ctx) (q : Nat) : (consumePort s x q).packets = s.packets := by
  unfold consumePort
  split
  · rfl
  · exact modGroup_packets ..

theorem commitSources_packets (x : Ctx) (r : Rules) (c : Enc) (left added : List LvEnt) (s : State) :
    (commitSources x r c left added s).packets = s.packets :=
  commitSources_induction (P := fun t => t.packets = s.packets) rfl (consumePort_packets s x) (fun _ h => (modGroup_packets ..).trans h)
    fun _ h => (modGroup_packets ..).trans h

theorem sourcedLate_packets (x : Ctx) (i : Instr) (c : Enc) (left added : List LvEnt) (q : Nat) (s : State) :
    (sourcedLate x i c left added q s).packets = s.packets := by
  unfold sourcedLate lvPush
  split
  · rw [modGroup_packets, commitSources_packets]
  · exact commitSources_packets ..

theorem loadMisses : Says.LoadMisses := by
  intro c k ty s x v left added accs s1 h ht hh hmiss
  obtain ⟨a, ha, hn⟩ := hmiss
  have hm : (accs.filter fun a => (foundAt s1 x ty a).isNone).isEmpty = false := by
    rw [List.isEmpty_eq_false_iff]
    exact List.ne_nil_of_mem (List.mem_filter.2 ⟨ha, by rw [hn]; rfl⟩)
  obtain ⟨t, he, hk⟩ := exec_of_late (exec_ld ..) h
    (by simp only [ldBody_ok ht hh, hm, Bool.false_eq_true, if_false]; rfl)
  refine ⟨t, he, hk, fun ln hln => ?_⟩
  obtain ⟨-, -, -, -, -, -, -, hp, -⟩ := hk
  obtain ⟨p, hmem, -, hread⟩ := sent_sendReads x s1.reqId _ (addPend { s1 with reqId := s1.reqId + 1 } x.core x.slot _) hln
  refine ⟨p, ?_, hread⟩
  rw [hp, sourcedLate_packets]
  exact hmem

/-- Settles O26: LD's own part ends with the value found, or with a reply out and a request for each line that misses. -/
theorem loadsComplete : Obligations.LoadsComplete := ⟨loadHits, loadMisses⟩

end Sys2Proof.Machine
end

section
/-! Posts, control blocks, the cycle counter, and instructions in which no lane acts (R42, R259, R280, R311, R356 to R360). -/
namespace Sys2Proof.Machine

/-! ## No lane acts -/

/-- Where no lane acts, the own part of these instructions is empty. -/
theorem idle_body {i : Instr} {c : Enc} (hi : idleEnc i = some c) :
    ∃ body, (∀ s, exec i s = issue i c body s) ∧ ∀ x v s, x.act = 0 → body x v s = done s := by
  cases i with
  | atom c op ord ty => cases hi; exact ⟨_, exec_atom _ _ _ _, fun _ _ _ h0 => if_pos h0⟩
  | red c op ord ty => cases hi; exact ⟨_, exec_red _ _ _ _, fun _ _ _ h0 => if_pos h0⟩
  | bop c op rm ty => cases hi; exact ⟨_, exec_bop _ _ _ _, fun _ _ _ h0 => if_pos h0⟩
  | redt c rm ty => cases hi; exact ⟨_, exec_redt _ _ _, fun _ _ _ h0 => if_pos h0⟩
  | bcopy c => cases hi; exact ⟨_, exec_bcopy _, fun _ _ _ h0 => if_pos h0⟩
  | bfence c => cases hi; exact ⟨_, exec_bfence _, fun _ _ _ h0 => if_pos h0⟩
  | bgid c m => cases hi; exact ⟨_, exec_bgid _ _, fun _ _ _ h0 => if_pos h0⟩
  | bgfree c => cases hi; exact ⟨_, exec_bgfree _, fun _ _ _ h0 => if_pos h0⟩
  | launch c => cases hi; exact ⟨_, exec_launch _, fun _ _ _ h0 => if_pos h0⟩
  | rdclk c => cases hi; exact ⟨_, exec_rdclk _, fun _ _ _ h0 => if_pos h0⟩
  | mqcf c => cases hi; exact ⟨_, exec_mqcf _, fun _ _ _ h0 => if_pos h0⟩
  | lsync c => cases hi; exact ⟨_, exec_lsync _, fun _ _ _ h0 => if_pos h0⟩
  | lock c => cases hi; exact ⟨_, exec_lock _, fun _ _ _ h0 => if_pos h0⟩
  | tlock c => cases hi; exact ⟨_, exec_tlock _, fun _ _ _ h0 => if_pos h0⟩
  | unlock c => cases hi; exact ⟨_, exec_unlock _, fun _ _ _ h0 => if_pos h0⟩
  | prom c => cases hi; exact ⟨_, exec_prom _, fun _ _ _ h0 => if_pos h0⟩
  | fulf c brk => cases hi; exact ⟨_, exec_fulf _ _, fun _ _ _ h0 => if_pos h0⟩
  | pwait c => cases hi; exact ⟨_, exec_pwait _, fun _ _ _ h0 => if_pos h0⟩
  | claim c => cases hi; exact ⟨_, exec_claim _, fun _ _ _ h0 => if_pos h0⟩
  | rels c => cases hi; exact ⟨_, exec_rels _, fun _ _ _ h0 => if_pos h0⟩
  | holdq c => cases hi; exact ⟨_, exec_holdq _, fun _ _ _ h0 => if_pos h0⟩
  | mov d ty =>
    simp only [idleEnc] at hi
    split at hi
    · next hp =>
      cases hi
      refine ⟨_, exec_mov _ _, fun x v s h0 => ?_⟩
      cases hx : c.x with
      | mq n => exact if_pos h0
      | _ => rw [hx] at hp; cases hp
    · cases hi
  | _ => cases hi

theorem emptyActDoesNothing : Says.EmptyActDoesNothing := by
  intro i c s x v left added hi h h0
  obtain ⟨body, he, hb⟩ := idle_body hi
  exact exec_of_fin (he s) h (hb x v s h0)

/-! ## Posts -/

theorem postOnly_room (op : MemOp) (va : DWord) {x : Ctx} {s : State} (h : bufRoom s x 1 = true) :
    postOnly op va x s = done (emit x [mkEntry x op va 0 0 none] s) := by
  simp only [postOnly, h, Bool.not_true, Bool.false_eq_true, if_false]

/-- Leaves that a tree has and that are named once each pass REDT's check of them (R259). -/
theorem leaves_pass {l : List Nat} {n : Nat} (hl : ∀ k ∈ l, k < n) (hd : l.Nodup) :
    ((l.any fun k => decide (n ≤ k)) || decide (l.dedup.length ≠ l.length)) = false := by
  rw [List.dedup_eq_self.2 hd]
  simpa using hl

theorem postsAreSent : Says.PostsAreSent := by
  intro i c es s x v left added hp h hact hok hroom
  cases i with
  | redt c' rm ty =>
    cases hp
    obtain ⟨hst, hmc, hty, hrm, hl, hd, hr⟩ := hok
    refine exec_of_fin (exec_redt ..) h ?_
    have hlv := leaves_pass hl hd
    simp only [List.length_map] at hroom hlv
    simp only [redtBody, hact, if_false, hst, bne_self_eq_false, hmc, Bool.or_false, hty, hrm, hlv, hr, Bool.false_eq_true,
      Bool.not_true, List.length_map, hroom]
    rfl
  | bfence c' =>
    cases hp
    obtain ⟨hpos, hlt⟩ := hok
    refine exec_of_fin (exec_bfence ..) h ?_
    have hm : (decide ((loWord (lane64 v.y 0)).toNat = 0) || decide (2 ^ 16 ≤ (loWord (lane64 v.y 0)).toNat)) = false := by
      simp only [Bool.or_eq_false_iff, decide_eq_false_iff_not]; omega
    simp only [hact, hm, Bool.false_eq_true, if_false, postOnly_room _ _ hroom]
    rfl
  | bgfree c' =>
    cases hp
    refine exec_of_fin (exec_bgfree ..) h ?_
    have hm : ¬ 255 < (loWord (lane64 v.y 0)).toNat := Nat.not_lt.2 hok
    simp only [hact, hm, if_false, postOnly_room _ _ hroom]
    rfl
  | _ => cases hp

theorem sendOff_own {x : Ctx} (p : Pend) (mk : Option Nat → List SbEntry) (s : State) (h : x.g.shadow ≠ .shadow) :
    sendOff x p mk s =
      .late (addPend (emit x (mk (some s.reqId)) { s with reqId := s.reqId + 1 }) x.core x.slot { p with id := s.reqId }) s.reqId := by
  rw [sendOff, if_neg (by simpa using h)]
  rfl

theorem postsAreAsked : Says.PostsAreAsked := by
  intro i c op va s x v left added hp h hact hs hok hroom
  cases i with
  | bgid c' m =>
    cases hp
    obtain ⟨hid, hadr⟩ := hok
    refine exec_of_late (exec_bgid ..) h ?_
    simp only [bgidBody, hact, Nat.not_lt.2 hid, hadr, hroom, Bool.not_true, Bool.false_eq_true, if_false, sendOff_own _ _ _ hs]
    rfl
  | launch c' =>
    cases hp
    obtain ⟨hadr, hr⟩ := hok
    refine exec_of_late (exec_launch ..) h ?_
    simp only [launchBody, hact, hadr, hr, hroom, Bool.not_true, Bool.false_eq_true, if_false, sendOff_own _ _ _ hs]
    rfl
  | _ => cases hp

/-! ## BCOPY -/

theorem bufOf_modGroup (s : State) (c k d b : Nat) (f : Group → Group) :
    bufOf (getCore (modGroup s c k f) d) b = bufOf (getCore s d) b := by
  have h := congrArg (bufOf · b) (getCore_modGroup_frame s c k d f)
  exact h

theorem bufRoom_lvPush (s : State) (x : Ctx) (core slot n : Nat) (role : Shadow) (e : LvEnt) :
    bufRoom (lvPush s core slot role e) x n = bufRoom s x n := by
  unfold lvPush
  split
  · simp only [bufRoom, bufOf_modGroup]
  · rfl

/-- BCOPY's own part, once its control block is read (R356). -/
theorem bcopyBody_read {c : Enc} {x : Ctx} {v : Srcs} {s s1 : State} {rbase : DWord} {rlog : Nat} (hact : x.act ≠ 0)
    (hs : x.g.shadow ≠ .shadow) (hd : badAddr (lane64 v.y (lowLane x.act)) = false) (hc : badAddr (lane64 v.z 0) = false)
    (hr : readCtl s x (lane64 v.z 0) = .ok rbase rlog s1) (hroom : bufRoom s1 x 1 = true) :
    bcopyBody c x v s = bcopyPost c (lane64 v.y (lowLane x.act)) (lane64 v.z 0) rbase rlog x (lvPush s1 x.core x.slot x.g.shadow
      { ix := instrIx x.e, act := x.act, val := rowOf fun l => if l = 0 then rbase else if l = 1 then BitVec.ofNat 64 rlog else 0 }) := by
  have hsh : (x.g.shadow == Shadow.shadow) = false := by simpa using hs
  simp only [bcopyBody, hact, hd, hc, hsh, hr, hroom, Bool.not_true, Bool.false_eq_true, if_false]

/-- A BCOPY whose ring is legal and whose buffer has room is posted (R356). -/
theorem bcopyPost_ok {c : Enc} {d ctl rbase : DWord} {rlog : Nat} {x : Ctx} {s : State} (hb : rbase.toNat % 32 = 0) (h4 : 4 ≤ rlog)
    (h16 : rlog ≤ 16) (hroom : bufRoom s x 1 = true) :
    bcopyPost c d ctl rbase rlog x s =
      if c.x == .zero then done (emit x [mkEntry x (.bcopy d ctl rbase rlog (c.imm.toNat % 16)) d 0 0 none] s)
      else sendOff x { id := 0, kind := .post, mask := x.e.mask, dst := c.x, ty := .b32, nw := c.nw, act := x.act, tag := tagOf x }
        (fun req => [mkEntry x (.bcopy d ctl rbase rlog (c.imm.toNat % 16)) d 0 0 req]) s := by
  have hl : (rbase.toNat % 32 != 0 || rlog < 4 || 16 < rlog) = false := by
    simp only [hb, bne_self_eq_false, Bool.false_or, Bool.or_eq_false_iff, decide_eq_false_iff_not]; omega
  simp only [bcopyPost, hl, hroom, Bool.not_true, Bool.false_eq_true, if_false]

theorem copiesArePosted : Says.CopiesArePosted := by
  intro c s x v left added rbase rlog s1 h hact hs d ctl op s2 hd hc hr hb h4 h16 hroom
  have hbody := (bcopyBody_read hact hs hd hc hr hroom).trans
    (bcopyPost_ok (c := c) hb h4 h16 ((bufRoom_lvPush ..).trans hroom))
  refine ⟨fun hx => ?_, fun hx => ?_⟩
  · refine exec_of_fin (exec_bcopy ..) h (hbody.trans ?_)
    rw [if_pos (by simp [hx])]
    rfl
  · refine exec_of_late (exec_bcopy ..) h (hbody.trans ?_)
    rw [if_neg (by simpa using hx), sendOff_own _ _ _ hs]
    rfl

/-! ## Operands that a post refuses -/

theorem postsFault : Says.PostsFault := by
  refine ⟨fun c rm ty s x v left added h hact hst => ?_, fun c s x v left added h hact hm => ?_, fun c m s x v left added h hact hid => ?_,
    fun c s x v left added h hact hid => ?_, fun c s x v left added h hact hadr => ?_⟩
  · refine exec_of_trap (exec_redt ..) h ?_
    have hb : ((identOf s x.g.part (loWord (lane64 v.y 0)).toNat).st != .bound) = true := by simpa using hst
    simp only [redtBody, hact, hb, Bool.true_or, if_false, if_true]
  · refine exec_of_trap (exec_bfence ..) h ?_
    have hb : (decide ((loWord (lane64 v.y 0)).toNat = 0) || decide (2 ^ 16 ≤ (loWord (lane64 v.y 0)).toNat)) = true := by
      simpa using hm
    simp only [hact, hb, if_false, if_true]
  · exact exec_of_trap (exec_bgid ..) h (by simp only [bgidBody, hact, hid, if_false, if_true])
  · exact exec_of_trap (exec_bgfree ..) h (by simp only [hact, hid, if_false, if_true])
  · exact exec_of_trap (exec_launch ..) h (by simp only [launchBody, hact, hadr, if_false, if_true])

/-! ## The cycle counter -/

theorem slotMod_view_congr {l l' : List (Nat × Group)} (k : Nat) {f : Group → Group}
    (hf : ∀ g h, regsOf g = regsOf h → regsOf (f g) = regsOf (f h))
    (h : l.map (fun p => (p.1, regsOf p.2)) = l'.map fun p => (p.1, regsOf p.2)) :
    (slotMod l k f).map (fun p => (p.1, regsOf p.2)) = (slotMod l' k f).map fun p => (p.1, regsOf p.2) := by
  induction l generalizing l' with
  | nil => cases l' with
    | nil => rfl
    | cons => cases h
  | cons p t ih => cases l' with
    | nil => cases h
    | cons p' t' =>
      obtain ⟨j, g⟩ := p
      obtain ⟨j', g'⟩ := p'
      simp only [List.map_cons, List.cons.injEq, Prod.mk.injEq] at h
      obtain ⟨⟨rfl, hg⟩, ht⟩ := h
      by_cases hj : j = k
      · simp only [slotMod, hj, if_true, List.map_cons, hf _ _ hg, ht]
      · simp only [slotMod, hj, if_false, List.map_cons, hg, ih ht]

theorem assoc_map_snd {α β : Type} (f : α → β) (l : List (Nat × α)) (k : Nat) : assoc (l.map fun p => (p.1, f p.2)) k = (assoc l k).map f := by
  induction l with
  | nil => rfl
  | cons p t ih => by_cases h : p.1 = k <;> simp [assoc, h, ih]

/-- A group stands in a slot of one state as it does in one that scheduling alone tells from it. -/
theorem Kept.getGroup {s t : State} (h : Kept s t) (c k : Nat) :
    (Machine.getGroup t c k).map regsOf = (Machine.getGroup s c k).map regsOf := by
  have hv : (coreView (getCore t c)).slots = (coreView (getCore s c)).slots := congrArg Core.slots (h.1 c)
  rw [Machine.getGroup, Machine.getGroup, ← assoc_map_snd, ← assoc_map_snd]
  exact congrArg (assoc · k) hv

theorem coreView_slots_congr {q r : Core} {m n : List (Nat × Group)} (h : coreView q = coreView r)
    (hs : m.map (fun p => (p.1, regsOf p.2)) = n.map fun p => (p.1, regsOf p.2)) :
    coreView { q with slots := m } = coreView { r with slots := n } := by
  have : ∀ (k : Core) (l : List (Nat × Group)), coreView { k with slots := l } = { coreView k with slots := l.map fun p => (p.1, regsOf p.2) } :=
    fun _ _ => rfl
  rw [this q, this r, h, hs]

/-- A change of a group that only its registers decide keeps two states apart by scheduling alone. -/
theorem Kept.modGroup {s t : State} (h : Kept s t) (c k : Nat) {f : Group → Group}
    (hf : ∀ g h, regsOf g = regsOf h → regsOf (f g) = regsOf (f h)) : Kept (modGroup s c k f) (modGroup t c k f) := by
  have hg := h.getGroup c k
  cases hs : Machine.getGroup s c k with
  | none =>
    have ht : Machine.getGroup t c k = none := by simpa [hs] using hg
    rw [modGroup_none f hs, modGroup_none f ht]
    exact h
  | some g =>
    obtain ⟨g', ht⟩ : ∃ g', Machine.getGroup t c k = some g' := by
      cases ht : Machine.getGroup t c k with
      | none => simp [hs, ht] at hg
      | some g' => exact ⟨g', rfl⟩
    rw [modGroup_some f hs, modGroup_some f ht]
    obtain ⟨hc, hrest⟩ := h
    refine ⟨fun d => ?_, hrest⟩
    rw [getCore_modCore, getCore_modCore]
    by_cases hd : d = c
    · rw [if_pos hd, if_pos hd]
      exact coreView_slots_congr (hc c) (slotMod_view_congr k hf (congrArg Core.slots (hc c)))
    · rw [if_neg hd, if_neg hd]
      exact hc d

/-- What the sources of an instruction without a receive port leave, in two states that scheduling alone tells apart. -/
theorem Kept.sourced {s t : State} (h : Kept s t) (x : Ctx) (i : Instr) (c : Enc) (left added : List LvEnt) (r : Row64)
    (hp : portOf (rulesOf i) c = none) : Kept (sourced x i c left added r s) (sourced x i c left added r t) := by
  have hq : ∀ (l : List LvEnt) (a b : Group), regsOf a = regsOf b →
      regsOf (wakeQueue { a with lvq := a.lvq ++ l }) = regsOf (wakeQueue { b with lvq := b.lvq ++ l }) := fun l a b hab => by
    have : ∀ g : Group, regsOf (wakeQueue { g with lvq := g.lvq ++ l }) = { regsOf g with lvq := (regsOf g).lvq ++ l } := fun _ => rfl
    rw [this, this, hab]
  have hd : ∀ (l : List LvEnt) (a b : Group), regsOf a = regsOf b →
      regsOf { a with lvq := a.lvq.diff l } = regsOf { b with lvq := b.lvq.diff l } := fun l a b hab => by
    have : ∀ g : Group, regsOf { g with lvq := g.lvq.diff l } = { regsOf g with lvq := (regsOf g).lvq.diff l } := fun _ => rfl
    rw [this, this, hab]
  have hc : Kept (commitSources x (rulesOf i) c left added s) (commitSources x (rulesOf i) c left added t) := by
    simp only [commitSources, hp]
    split
    · exact h
    · split
      · exact h
      · exact h.modGroup _ _ (hq added)
    · exact h.modGroup _ _ (hd _)
  have hl : ∀ {a b : State}, Kept a b → ∀ e, Kept (lvPush a x.core x.slot x.g.shadow e) (lvPush b x.core x.slot x.g.shadow e) := by
    intro a b hab e
    unfold lvPush
    split
    · exact hab.modGroup _ _ (hq [e])
    · exact hab
  unfold Machine.sourced
  dsimp only
  split
  · exact hl hc _
  · exact hc

theorem regsOf_vwrite (g : Group) (n : Nat) (m : Lanes) (f : Nat → Word) : regsOf (vwrite g n m f) = vwrite (regsOf g) n m f := by
  simp only [vwrite, regsOf, vlane, vreg]

theorem regsOf_swrite (g : Group) (n : Nat) (v : Word) : regsOf (swrite g n v) = swrite (regsOf g) n v := by
  simp only [swrite, regsOf]

theorem regsOf_dstGroup (g : Group) (o : Opnd) (wide : Bool) (m : Lanes) (r : Row64) :
    regsOf (dstGroup g o wide m r) = dstGroup (regsOf g) o wide m r := by
  cases o <;> simp only [dstGroup, apply_ite regsOf, regsOf_vwrite, regsOf_swrite]

/-- A destination's write keeps two states apart by scheduling alone. -/
theorem Kept.writeDst {s t : State} (h : Kept s t) (x : Ctx) (o : Opnd) (wide nw : Bool) (r : Row64) :
    Kept (writeDst x o wide nw r s) (writeDst x o wide nw r t) := by
  cases nw with
  | true => exact h
  | false => exact h.modGroup _ _ fun a b hab => by rw [regsOf_dstGroup, regsOf_dstGroup, hab]

/-! What an issue makes of its core's cycle counter: one cycle more (R311, log 9). -/

theorem cyc_modGroup (s : State) (c k d : Nat) (f : Group → Group) : (getCore (modGroup s c k f) d).cyc = (getCore s d).cyc := by
  have h := congrArg Core.cyc (getCore_modGroup_frame s c k d f)
  exact h

theorem cyc_writeDst (x : Ctx) (o : Opnd) (wide nw : Bool) (r : Row64) (s : State) (d : Nat) :
    (getCore (writeDst x o wide nw r s) d).cyc = (getCore s d).cyc := by
  cases nw with
  | true => rfl
  | false => exact cyc_modGroup ..

theorem cyc_sourced (x : Ctx) (i : Instr) (c : Enc) (left added : List LvEnt) (r : Row64) (s : State) (d : Nat)
    (hp : portOf (rulesOf i) c = none) : (getCore (sourced x i c left added r s) d).cyc = (getCore s d).cyc := by
  have hc : (getCore (commitSources x (rulesOf i) c left added s) d).cyc = (getCore s d).cyc := by
    simp only [commitSources, hp]
    split
    · rfl
    · split
      · rfl
      · exact cyc_modGroup ..
    · exact cyc_modGroup ..
  unfold sourced lvPush
  dsimp only
  split
  · split
    · rw [cyc_modGroup, hc]
    · exact hc
  · exact hc

theorem cyc_passOver (core slot : Nat) (s : State) (d : Nat) : (getCore (passOver core slot s) d).cyc = (getCore s d).cyc := by
  simp only [passOver, getCore_post]
  exact foldl_keeps (fun t => (getCore t d).cyc) (fun t (p : Nat × Group) => cyc_modGroup t core p.1 d _) _ s

theorem cyc_tickCore (core n : Nat) (s : State) : (getCore (tickCore core n s) core).cyc = (getCore s core).cyc + n := by
  simp only [tickCore, getCore_post, getCore_modCore, if_true, passCycles]

theorem cyc_chargeIssue (x : Ctx) (c : Enc) (keep : Bool) (s : State) :
    (getCore (chargeIssue x c keep s) x.core).cyc = (getCore s x.core).cyc + 1 := by
  have hn : ∀ t, (getCore (notEligible x t) x.core).cyc = (getCore t x.core).cyc := fun t => by
    simp only [notEligible]; split <;> rfl
  rw [chargeIssue, hn]
  exact (cyc_modGroup ..).trans ((cyc_tickCore ..).trans (congrArg (· + 1) (cyc_passOver ..)))

theorem cyc_modFront (s : State) (c slot : Nat) (f : List Entry → List Entry) (d : Nat) :
    (getCore (modFront s c slot f) d).cyc = (getCore s d).cyc := by
  simp only [modFront]
  split
  · split
    · exact cyc_modGroup ..
    · exact cyc_modGroup ..
  · exact cyc_modGroup ..

theorem cyc_complete (x : Ctx) (c : Enc) (ends newRgn : Bool) (item : Option Nat × Row64) (s : State) :
    (getCore (complete x c ends newRgn item s) x.core).cyc = (getCore s x.core).cyc + 1 :=
  (cyc_modFront ..).trans (cyc_chargeIssue ..)

theorem clockIsRead : Says.ClockIsRead := by
  intro c s x v left added h hact
  have hp : portOf (rulesOf (.rdclk c)) c = none := rfl
  generalize hn : (getCore s x.core).cyc + Config.freeCycles s.free = n
  generalize hs : modCore { s with free := s.free + 1 } x.core (passCycles (Config.freeCycles s.free)) = s1
  have hk : Kept { s with free := s.free + 1 } s1 := by
    rw [← hs]; exact kept_modCore _ _ _ (coreView_passCycles _ _)
  have hcyc : (getCore s1 x.core).cyc = n := by
    rw [← hs, getCore_modCore, if_pos rfl, ← hn]; rfl
  have hb : rdclkBody c x s = .fin (writeDst x c.x true c.nw (rowOf fun _ => BitVec.ofNat 64 n) s1) (rowOf fun _ => BitVec.ofNat 64 n) := by
    simp only [rdclkBody, hact, if_false, compute, hn, hs]
  refine ⟨_, n, ?_, by omega, ?_, ((hk.writeDst x c.x true c.nw _).sourced x (.rdclk c) c left added _ hp).trans (kept_finish_fin x (.rdclk c) c s _ left added _)⟩
  · rw [exec_rdclk, execRdclk, issue, issueState_ready _ h, hb]
  · rw [finish]
    refine Nat.lt_of_lt_of_eq (Nat.lt_succ_self n) (((cyc_complete ..).trans (congrArg (· + 1) ?_)).symm)
    exact (cyc_sourced x (.rdclk c) c left added _ _ x.core hp).trans ((cyc_writeDst ..).trans hcyc)

/-- Settles O50: each post's own part ends with its entry in the buffer, or in its operand's fault; RDCLK's reads the counter, which its own issue moves on;
with an empty `act` every own part is empty. -/
theorem postsAndClock : Obligations.PostsAndClock :=
  ⟨postsAreSent, postsAreAsked, copiesArePosted, postsFault, clockIsRead, emptyActDoesNothing⟩

end Sys2Proof.Machine
end

section
/-! What the other groups keep: the relation between the states before and after an issue, and the state operations that keep it (R40, R42, R74 to R76). -/
namespace Sys2Proof.Machine

/-! ## Slots -/

theorem assoc_filter_self {α : Type} (l : List (Nat × α)) (k : Nat) : assoc (l.filter fun p => p.1 != k) k = none := by
  induction l with
  | nil => rfl
  | cons p t ih =>
    by_cases h : p.1 = k
    · rw [List.filter_cons_of_neg (by simpa using h), ih]
    · rw [List.filter_cons_of_pos (by simpa using h), assoc, if_neg h, ih]

theorem getGroup_dropGroup_self (s : State) (c k : Nat) : getGroup (dropGroup s c k) c k = none := by
  rw [dropGroup, getGroup, getCore_modCore, if_pos rfl]
  exact assoc_filter_self _ k

theorem lputs_slots (k : Core) (l : List (Nat × Byte)) : (lputs k l).slots = k.slots := by unfold lputs; rfl

theorem bufSet_slots (k : Core) (b : BlockBuf) : (bufSet k b).slots = k.slots := rfl

/-! ## The relation -/

/-- Two groups with the same registers and predicates, of the same partition and node. -/
def SameRegs (g h : Group) : Prop := h.vregs = g.vregs ∧ h.sregs = g.sregs ∧ h.preds = g.preds ∧ h.part = g.part ∧ h.node = g.node

/-- Whatever group stands in `t` in another slot than one stood there in `s` with the same registers. -/
structure KeepsOthers (core slot : Nat) (s t : State) : Prop where
  group : ∀ d j h, (d, j) ≠ (core, slot) → getGroup t d j = some h → ∃ g, getGroup s d j = some g ∧ SameRegs g h

theorem SameRegs.refl (g : Group) : SameRegs g g := ⟨rfl, rfl, rfl, rfl, rfl⟩

theorem SameRegs.trans {g h k : Group} (a : SameRegs g h) (b : SameRegs h k) : SameRegs g k := by
  obtain ⟨a1, a2, a3, a4, a5⟩ := a
  obtain ⟨b1, b2, b3, b4, b5⟩ := b
  exact ⟨b1.trans a1, b2.trans a2, b3.trans a3, b4.trans a4, b5.trans a5⟩

/-- Groups that scheduling alone tells apart have the same registers. -/
theorem sameRegs_of_regsOf {g h : Group} (e : regsOf h = regsOf g) : SameRegs g h := by
  have e1 := congrArg Group.vregs e
  have e2 := congrArg Group.sregs e
  have e3 := congrArg Group.preds e
  have e4 := congrArg Group.part e
  have e5 := congrArg Group.node e
  exact ⟨e1, e2, e3, e4, e5⟩

namespace KeepsOthers
variable {core slot : Nat}

theorem refl (s : State) : KeepsOthers core slot s s := ⟨fun _ _ h _ hg => ⟨h, hg, .refl h⟩⟩

theorem trans {s t u : State} (a : KeepsOthers core slot s t) (b : KeepsOthers core slot t u) : KeepsOthers core slot s u := by
  refine ⟨fun d j k hd hk => ?_⟩
  obtain ⟨h, hh, hr⟩ := b.group d j k hd hk
  obtain ⟨g, hg, hr'⟩ := a.group d j h hd hh
  exact ⟨g, hg, hr'.trans hr⟩

section
variable {s t u : State}

/-- Groups that are the same or gone. -/
theorem of_groups (h : ∀ d j g, (d, j) ≠ (core, slot) → getGroup t d j = some g → getGroup s d j = some g) : KeepsOthers core slot s t :=
  ⟨fun d j g hd hg => ⟨g, h d j g hd hg, .refl g⟩⟩

theorem of_cores (h : t.cores = s.cores) : KeepsOthers core slot s t := of_groups fun d j g _ hg => by rwa [getGroup_of_cores h] at hg

/-- Scheduling alone changes no register. -/
theorem of_kept (h : Kept s t) : KeepsOthers core slot s t := by
  refine ⟨fun d j k _ hk => ?_⟩
  have hr := h.getGroup d j
  rw [hk] at hr
  obtain ⟨g, hg, he⟩ := Option.map_eq_some_iff.1 hr.symm
  exact ⟨g, hg, sameRegs_of_regsOf he.symm⟩

end

/-- The group that issues may change in any way. -/
theorem modGroup_self (s : State) (f : Group → Group) : KeepsOthers core slot s (modGroup s core slot f) :=
  of_groups fun d j g hd hg => by rwa [getGroup_modGroup_ne s core slot d j f hd] at hg

/-- Any group may change but for its registers. -/
theorem modGroup_sameRegs (s : State) (c k : Nat) {f : Group → Group} (hf : ∀ g, SameRegs g (f g)) : KeepsOthers core slot s (modGroup s c k f) := by
  refine ⟨fun d j h _ hg => ?_⟩
  by_cases he : (d, j) = (c, k)
  · obtain ⟨rfl, rfl⟩ := Prod.mk.inj he
    rw [getGroup_modGroup_self] at hg
    obtain ⟨g, hg', rfl⟩ := Option.map_eq_some_iff.1 hg
    exact ⟨g, hg', hf g⟩
  · rw [getGroup_modGroup_ne s c k d j f he] at hg
    exact ⟨h, hg, .refl h⟩

/-- A core may change but for its groups. -/
theorem modCore_slots (s : State) (c : Nat) {f : Core → Core} (hf : (f (getCore s c)).slots = (getCore s c).slots) :
    KeepsOthers core slot s (modCore s c f) := of_groups fun d j g _ hg => by
  rw [getGroup, getCore_modCore] at hg
  split at hg
  · next hd => rwa [hf, ← hd] at hg
  · exact hg

theorem setGroup_self (s : State) (g : Group) : KeepsOthers core slot s (setGroup s core slot g) :=
  of_groups fun d j h hd hg => by rwa [getGroup_setGroup_ne s core slot d j g hd] at hg

theorem dropGroup (s : State) (c k : Nat) : KeepsOthers core slot s (dropGroup s c k) := of_groups fun d j g _ hg => by
  by_cases he : (d, j) = (c, k)
  · obtain ⟨rfl, rfl⟩ := Prod.mk.inj he
    rw [getGroup_dropGroup_self] at hg
    cases hg
  · rwa [getGroup_dropGroup_ne s c k d j he] at hg

theorem foldl {α : Type} {f : State → α → State} (h : ∀ s a, KeepsOthers core slot s (f s a)) (l : List α) (s : State) :
    KeepsOthers core slot s (l.foldl f s) := by
  induction l generalizing s with
  | nil => exact refl s
  | cons a t ih => exact (h s a).trans (ih _)

/-! ## Operations of the model's parts -/

theorem passCycles (s : State) (c n : Nat) : KeepsOthers core slot s (modCore s c (passCycles n)) := of_kept (kept_modCore s c _ (coreView_passCycles n _))

theorem post (s : State) (l : List Instr) : KeepsOthers core slot s (post s l) := of_cores rfl
theorem consume (s : State) (c k src pa : Nat) : KeepsOthers core slot s (consume s c k src pa) := of_cores rfl
theorem refuse (s : State) (o : Origin) (die sub opk : Nat) : KeepsOthers core slot s (refuse s o die sub opk) := of_cores rfl
theorem sendPacket (s : State) (p : Packet) : KeepsOthers core slot s (sendPacket s p) := of_cores rfl

theorem missWalk (s : State) (c k part : Nat) (m : Lanes) (va : DWord) (kind : AccKind) :
    KeepsOthers core slot s (missWalk s c k part m va kind) := by
  refine of_cores ?_
  unfold Machine.missWalk
  dsimp only
  split
  · rfl
  · split
    · split <;> rfl
    · rfl

theorem raiseSquall (s : State) (part : Nat) (c : Cause) : KeepsOthers core slot s (raiseSquall s part c) :=
  of_cores (raiseSquall_spec s part c).2.1

/-- A fault taken for the group that issues. -/
theorem takeFault (s : State) (m : Lanes) (back : Bool) (k : TrapKind) (faddr : DWord) (aux : Word) (btab : List (Nat × Nat)) :
    KeepsOthers core slot s (takeFault s core slot m back k faddr aux btab) := by
  cases hg : getGroup s core slot with
  | none => simp only [Machine.takeFault, hg]; exact refl s
  | some g =>
    cases he : g.front.find? (fun e => e.mask == m) with
    | none => simp only [Machine.takeFault, hg, he]; exact refl s
    | some e =>
      obtain ⟨c, hc⟩ := takeFault_cores s core slot m back k faddr aux btab hg he
      rw [hc]
      exact (setGroup_self s _).trans (raiseSquall _ _ _)

theorem fillTlb (s : State) (c part : Nat) (va : DWord) : KeepsOthers core slot s (fillTlb s c part va) := by
  unfold Machine.fillTlb
  split
  · exact modCore_slots s c rfl
  · exact refl s

theorem acquire (s : State) (c : Nat) (sc : Scope) : KeepsOthers core slot s (acquire s c sc) := by
  unfold Machine.acquire
  split
  · exact refl s
  · exact refl s
  · exact modCore_slots s c rfl

theorem localPut (s : State) (c : Nat) (l : List (Nat × Byte)) : KeepsOthers core slot s (localPut s c l) :=
  (modCore_slots s c (lputs_slots _ l)).trans (post _ _)

theorem setWin (s : State) (c win : Nat) (w : Window) : KeepsOthers core slot s (setWin s c win w) := modCore_slots s c rfl

theorem touchOne (c : Nat) (t : Tag) (s : State) (w : Nat) : KeepsOthers core slot s (touchOne c t s w) := by
  unfold Machine.touchOne
  dsimp only
  split
  · exact refl s
  · exact (modCore_slots s c (f := fun k => { k with wins := mapSet {} k.wins w { winOf k w with st := .filling, touch := t }, fillq := k.fillq ++ [w] })
      rfl).trans (post _ _)

theorem touch {s u : State} {c : Nat} {t : Tag} {l : List (Nat × Nat)} (h : touch s c t l = some u) : KeepsOthers core slot s u := by
  unfold Machine.touch at h
  split at h
  · cases h
  · cases h; exact foldl (touchOne c t) _ s

theorem writeDst (x : Ctx) (o : Opnd) (wide nw : Bool) (r : Row64) (s : State) : KeepsOthers x.core x.slot s (writeDst x o wide nw r s) := by
  cases nw with
  | true => exact refl s
  | false => exact modGroup_self s _

/-! ## The effects of sources and of entries -/

theorem consumePort (s : State) (x : Ctx) (q : Nat) : KeepsOthers x.core x.slot s (consumePort s x q) := by
  unfold Machine.consumePort
  split
  · exact refl s
  · exact ((modCore_slots s x.core rfl).trans (modGroup_self _ _)).trans (post _ _)

theorem commitSources (x : Ctx) (r : Rules) (c : Enc) (left added : List LvEnt) (s : State) :
    KeepsOthers x.core x.slot s (commitSources x r c left added s) :=
  commitSources_induction (P := KeepsOthers x.core x.slot s) (refl s) (consumePort s x)
    (fun u h => h.trans (modGroup_sameRegs u _ _ fun _ => ⟨rfl, rfl, rfl, rfl, rfl⟩)) fun u h => h.trans (modGroup_self u _)

theorem lvPush (s : State) (c k : Nat) (role : Shadow) (e : LvEnt) : KeepsOthers core slot s (lvPush s c k role e) := by
  unfold Machine.lvPush
  split
  · exact modGroup_sameRegs s _ _ fun _ => ⟨rfl, rfl, rfl, rfl, rfl⟩
  · exact refl s

theorem addPend (s : State) (c k : Nat) (p : Pend) : KeepsOthers core slot s (addPend s c k p) := modGroup_sameRegs s _ _ fun _ => ⟨rfl, rfl, rfl, rfl, rfl⟩

theorem emitOne (x : Ctx) (s : State) (e : SbEntry) : KeepsOthers core slot s (emitOne x s e) := by
  unfold Machine.emitOne
  dsimp only
  have hfresh : KeepsOthers core slot s (freshReq s).2 := of_cores rfl
  split
  · refine (hfresh.trans (modGroup_sameRegs _ _ _ ?_)).trans (post _ _)
    exact fun _ => ⟨rfl, rfl, rfl, rfl, rfl⟩
  · exact (hfresh.trans (modCore_slots _ _ (bufSet_slots _ _))).trans (post _ _)

theorem emit (x : Ctx) (l : List SbEntry) (s : State) : KeepsOthers core slot s (emit x l s) := foldl (emitOne x) l s

theorem sendReads (x : Ctx) (req : Nat) (l : List LaneAcc) (s : State) : KeepsOthers core slot s (sendReads x req l s) := by
  rw [sendReads_eq]
  refine foldl (fun s ln => ?_) _ s
  unfold sendLine
  split
  · exact sendPacket s _
  · exact refl s

theorem shadowOffer (x : Ctx) (op : MemOp) (s : State) : KeepsOthers core slot s (shadowOffer x op s) := by
  refine .trans (t := unhold s) (of_cores rfl) (modGroup_sameRegs _ _ _ ?_)
  exact fun _ => ⟨rfl, rfl, rfl, rfl, rfl⟩

theorem matchShadow {s u : State} {x : Ctx} {op : MemOp} (h : matchShadow s x op = .equal u) : KeepsOthers core slot s u := by
  unfold Machine.matchShadow at h
  split at h
  · cases h; exact refl s
  · split at h
    · cases h
    · split at h
      · cases h
      · split at h
        · cases h; exact modGroup_sameRegs s _ _ fun _ => ⟨rfl, rfl, rfl, rfl, rfl⟩
        · cases h

theorem markHeld (x : Ctx) (l : List Nat) (s : State) : KeepsOthers core slot s (markHeld x l s) := by
  unfold Machine.markHeld
  dsimp only
  split
  · exact refl s
  · split
    · exact modGroup_sameRegs s _ _ fun _ => ⟨rfl, rfl, rfl, rfl, rfl⟩
    · split
      · exact modGroup_sameRegs s _ _ fun _ => ⟨rfl, rfl, rfl, rfl, rfl⟩
      · exact refl s

/-- A translation that succeeds fills the core's TLB; one that waits asks for its pages. -/
theorem transLanes_ok {s u : State} {c k part w : Nat} {m : Lanes} {kind : AccKind} {l : List (Nat × DWord)} {accs : List LaneAcc}
    (h : transLanes s c k part m w kind l = .ok accs u) : KeepsOthers core slot s u := by
  unfold transLanes at h
  split at h
  · cases h
  · dsimp only at h
    split at h
    · cases h; exact foldl (f := fun s (p : Nat × DWord) => Machine.fillTlb s c part p.2) (fun s p => fillTlb s c part p.2) l s
    · cases h

theorem transLanes_wait {s u : State} {c k part w : Nat} {m : Lanes} {kind : AccKind} {l : List (Nat × DWord)}
    (h : transLanes s c k part m w kind l = .wait u) : KeepsOthers core slot s u := by
  unfold transLanes at h
  split at h
  · cases h
  · dsimp only at h
    split at h
    · cases h
    · cases h; exact foldl (f := fun s (p : Nat × DWord) => Machine.missWalk s c k part m p.2 kind) (fun s p => missWalk s c k part m p.2 kind) _ s

end KeepsOthers

end Sys2Proof.Machine
end

section
/-! Where an issue leaves its lanes: the group after its charge, the frontier put in order, the price of spills (R43, R116, R121 to R124, R134, R135). -/
namespace Sys2Proof.Machine

/-! ## The context of an issue -/

/-- What a context is: the group in its slot, and a live entry of that group's frontier, which holds some lane. -/
theorem ctxOf_spec {s : State} {c : Enc} {x : Ctx} (h : ctxOf s c = some x) :
    getGroup s x.core x.slot = some x.g ∧ x.e ∈ x.g.front ∧ x.e.st = .live ∧ x.e.mask ≠ 0 := by
  obtain ⟨⟨sl, g, e, n⟩, hs, rfl⟩ := Option.map_eq_some_iff.1 h
  simp only [selected] at hs
  split at hs
  · cases hs
  · next sl' _ =>
    split at hs
    · cases hs
    · next g' hg =>
      split at hs
      · next e' n' he _ =>
        split at hs
        · next hl =>
          cases hs
          refine ⟨hg, List.mem_of_find?_eq_some he, by simpa using hl, fun h0 => ?_⟩
          have hb : e.mask.getLsbD sl.lane = true := by simpa using List.find?_some he
          rw [h0] at hb
          simp at hb
        · cases hs
      · cases hs

theorem Ready.ctx {i : Instr} {c : Enc} {s : State} {x : Ctx} {v : Srcs} {left added : List LvEnt} (h : Ready i c s x v left added) :
    ctxOf s c = some x := h.1

/-! ## The group after the charge of an issue -/

/-- A group as `n` cycles leave it. -/
def groupCycles (n : Nat) (g : Group) : Group := { g with stall := g.stall - n, sleep := g.sleep - n, nbHold := g.nbHold.map (· + n) }

theorem getGroup_tickCore (core n : Nat) (s : State) (k : Nat) :
    getGroup (tickCore core n s) core k = (getGroup s core k).map (groupCycles n) := by
  rw [tickCore, getGroup_post, getGroup, getCore_modCore, if_pos rfl]
  exact assoc_map_snd (groupCycles n) _ k

/-- The group that issues is not passed over by its own issue. -/
theorem getGroup_passOver_self (core slot : Nat) (s : State) : getGroup (passOver core slot s) core slot = getGroup s core slot := by
  have key : ∀ (f : Nat × Group → Group → Group) (l : List (Nat × Group)), (∀ p ∈ l, p.1 ≠ slot) → ∀ u,
      getGroup (l.foldl (fun t p => modGroup t core p.1 (f p)) u) core slot = getGroup u core slot := by
    intro f l
    induction l with
    | nil => exact fun _ u => rfl
    | cons p t ih =>
      intro hl u
      have hp : (core, slot) ≠ (core, p.1) := fun h => hl p List.mem_cons_self (congrArg Prod.snd h).symm
      exact (ih (fun q hq => hl q (List.mem_cons_of_mem _ hq)) _).trans (getGroup_modGroup_ne _ _ _ _ _ _ hp)
  rw [passOver, getGroup_post]
  refine key (fun p g => { g with yld := false, passed := if groupPassed s core p then g.passed + 1 else 0 }) _ (fun p hp => ?_) s
  have := (List.mem_filter.1 hp).2
  simp only [Bool.and_eq_true, bne_iff_ne] at this
  exact this.2

theorem getGroup_notEligible (x : Ctx) (s : State) (c k : Nat) : getGroup (notEligible x s) c k = getGroup s c k := by
  simp only [notEligible]
  split
  · exact getGroup_modNode ..
  · rfl

/-- The group of an issue after its charge (R43, R116, R117, R122). -/
theorem getGroup_chargeIssue (x : Ctx) (c : Enc) (keep : Bool) (s : State) :
    getGroup (chargeIssue x c keep s) x.core x.slot =
      (getGroup s x.core x.slot).map fun g => afterIssue c keep x.e.mask (groupCycles 1 g) := by
  rw [chargeIssue, getGroup_notEligible]
  refine (getGroup_modGroup_self ..).trans ?_
  rw [getGroup_tickCore, getGroup_passOver_self, Option.map_map]
  rfl

theorem getGroup_modFront (s : State) (c k : Nat) (f : List Entry → List Entry) :
    getGroup (modFront s c k f) c k =
      (getGroup s c k).map fun g => { g with front := tidyFront (f g.front), stall := g.stall + spillCost (f g.front) } := by
  rw [← getGroup_modGroup_self]
  simp only [modFront]
  split
  · split <;> rfl
  · rfl

/-- The group of an issue after its charge and a change of its frontier. -/
theorem getGroup_charged (x : Ctx) (c : Enc) (keep : Bool) (f : List Entry → List Entry) (s : State) :
    getGroup (modFront (chargeIssue x c keep s) x.core x.slot f) x.core x.slot = (getGroup s x.core x.slot).map fun g =>
      { afterIssue c keep x.e.mask (groupCycles 1 g) with
        front := tidyFront (f (g.front.map (clearDue x.e.mask))), stall := c.stall.val + spillCost (f (g.front.map (clearDue x.e.mask))) } := by
  rw [getGroup_modFront, getGroup_chargeIssue, Option.map_map]
  rfl

/-! ## Where the lanes stand -/

theorem mergeInto_length (e : Entry) (l : List Entry) : (mergeInto e l).length ≤ l.length + 1 := by
  induction l with
  | nil => simp [mergeInto]
  | cons a t ih =>
    rw [mergeInto]
    split
    · simp
    · simpa using ih

theorem mergeAll_length (l : List Entry) : (mergeAll l).length ≤ l.length := by
  have key : ∀ l acc : List Entry, (l.foldl (fun acc e => mergeInto e acc) acc).length ≤ acc.length + l.length := by
    intro l
    induction l with
    | nil => simp
    | cons a t ih =>
      intro acc
      have h := mergeInto_length a acc
      have ht := ih (mergeInto a acc)
      rw [List.foldl_cons, List.length_cons]
      omega
  have h := key (l.filter fun e => e.mask != 0) []
  have hf := List.length_filter_le (fun e : Entry => e.mask != 0) l
  unfold mergeAll
  rw [List.length_nil] at h
  omega

theorem mergeFront_length (l : List Entry) : (mergeFront l).length ≤ l.length := by
  have h : (unyield (mergeAll l)).length = (mergeAll l).length := by simp [unyield]
  exact (mergeAll_length _).trans (h ▸ mergeAll_length l)

theorem ranked_length (l : List Entry) : (ranked l).length = l.length := by
  have hi : ∀ (e : Entry) (l : List Entry), (rankInsert e l).length = l.length + 1 := by
    intro e l
    induction l with
    | nil => rfl
    | cons a t ih =>
      rw [rankInsert]
      split
      · rfl
      · rw [List.length_cons, ih, List.length_cons]
  induction l with
  | nil => rfl
  | cons a t ih => exact (hi a _).trans (congrArg (· + 1) ih)

/-- A frontier that fits the 16 places spills nothing and costs nothing (R123). -/
theorem spillCost_eq_zero {l : List Entry} (h : l.length ≤ 16) : spillCost l = 0 := by
  have ht : tidyFront l = mergeFront l := by
    have hd : (ranked ((mergeFront l).filter fun e => !e.spilled)).drop 16 = [] := by
      apply List.drop_eq_nil_of_le
      rw [ranked_length]
      exact ((List.length_filter_le _ _).trans (mergeFront_length l)).trans h
    simp [tidyFront, markSpilled, hd]
  rw [spillCost, ht, Nat.sub_self, Nat.mul_zero]

/-- No entry of a frontier has the lanes of one that shares none with it. -/
theorem modEntry_disjoint {l : List Entry} {m : Lanes} (f : Entry → Entry) (hm : m ≠ 0) (h : ∀ a ∈ l, m &&& a.mask = 0) : modEntry l m f = l := by
  refine (List.map_congr_left fun a ha => ?_).trans (List.map_id l)
  refine if_neg fun he => hm ?_
  have := h a ha
  rwa [eq_of_beq he, BitVec.and_self] at this

/-- A change of one entry that keeps its lanes moves these lanes alone (R119). -/
theorem laneAt_modEntry_of_mem {l : List Entry} {e : Entry} (f : Entry → Entry) (hl : Disjoint' l) (he : e ∈ l) (hm : e.mask ≠ 0)
    (hf : (f e).mask = e.mask) (k : Nat) :
    laneAt (modEntry l e.mask f) k = if e.mask.getLsbD k then some ((f e).ix, (f e).rgn) else laneAt l k := by
  induction l with
  | nil => cases he
  | cons a t ih =>
    obtain ⟨ha, ht⟩ := List.pairwise_cons.1 hl
    rcases List.mem_cons.1 he with rfl | he'
    · have hid : modEntry (e :: t) e.mask f = f e :: t := by
        have := modEntry_disjoint f hm ha
        simp only [modEntry] at this
        simp only [modEntry, List.map_cons, beq_self_eq_true, if_true, this]
      rw [hid, laneAt_cons, laneAt_cons, hf]
      split <;> rfl
    · have hae := ha e he'
      have hne : a.mask ≠ e.mask := fun h => hm (by rwa [h, BitVec.and_self] at hae)
      have hcons : modEntry (a :: t) e.mask f = a :: modEntry t e.mask f := by simp [modEntry, hne]
      rw [hcons, laneAt_cons, laneAt_cons, ih ht he']
      by_cases hk : a.mask.getLsbD k = true
      · simp [hk, disjoint_lane hae hk]
      · simp [hk]

theorem clearDue_frame (m : Lanes) (e : Entry) : (clearDue m e).mask = e.mask ∧ (clearDue m e).ix = e.ix ∧ (clearDue m e).rgn = e.rgn := by
  unfold clearDue
  split <;> exact ⟨rfl, rfl, rfl⟩

theorem disjoint_modEntry {l : List Entry} {m : Lanes} {f : Entry → Entry} (hf : ∀ e ∈ l, e.mask = m → (f e).mask = e.mask) (hl : Disjoint' l) :
    Disjoint' (modEntry l m f) := by
  have hmask : ∀ e ∈ l, (if e.mask == m then f e else e).mask = e.mask := fun e he => by
    split
    · next h => exact hf e he (eq_of_beq h)
    · rfl
  refine List.pairwise_map.2 (hl.imp_of_mem fun ha hb hab => ?_)
  rwa [hmask _ ha, hmask _ hb]

section
variable {s : State} {c : Enc} {x : Ctx} (hx : ctxOf s c = some x)
include hx

/-- The entry of an issue, in the frontier from which its lanes have left the entries that wait on them. -/
theorem ctx_mem_cleared : x.e ∈ x.g.front.map (clearDue x.e.mask) := by
  obtain ⟨-, he, hl, -⟩ := ctxOf_spec hx
  exact List.mem_map.2 ⟨x.e, he, by rw [clearDue, hl]; rfl⟩

/-- Where the lanes of a charged issue stand, after a change of its entry that keeps the entry's lanes (R121). -/
theorem laneAt_charged (f : Entry → Entry) (hf : ∀ e, e.mask = x.e.mask → (f e).mask = e.mask) (hd : Disjoint' x.g.front) (k : Nat) :
    laneAt (tidyFront (modEntry (x.g.front.map (clearDue x.e.mask)) x.e.mask f)) k =
      if x.e.mask.getLsbD k then some ((f x.e).ix, (f x.e).rgn) else laneAt x.g.front k := by
  have hd' : Disjoint' (x.g.front.map (clearDue x.e.mask)) := disjoint_map _ _ (fun e => (clearDue_frame _ e).1) hd
  obtain ⟨-, -, -, hm⟩ := ctxOf_spec hx
  rw [laneAt_tidyFront _ _ (disjoint_modEntry (fun e _ => hf e) hd'),
    laneAt_modEntry_of_mem f hd' (ctx_mem_cleared hx) hm (hf x.e rfl), laneAt_map _ _ _ (clearDue_frame _)]

end

/-- The lanes of a group whose frontier is known. -/
theorem lanesMoved_of_group {t : State} {x : Ctx} {h : Group} {f : Nat → Option (Word × Word)} (hg : getGroup t x.core x.slot = some h)
    (hl : ∀ l, laneAt h.front l = if x.e.mask.getLsbD l then f l else laneAt x.g.front l) : LanesMoved t x f := fun l _ => by
  rw [lanePos, hg]
  exact hl l

theorem advance_mask (btab : List (Nat × Nat)) (nc : SMap Word) (c : Enc) (ends newRgn : Bool) (item : Option Nat × Row64) (e : Entry) :
    (advance btab nc c ends newRgn item e).mask = e.mask := rfl

/-- An entry outside a REP pair advances to the next IX, which a region's end makes its RGN (R124). -/
theorem advance_pos {e : Entry} (btab : List (Nat × Nat)) (nc : SMap Word) (c : Enc) (ends newRgn : Bool) (item : Option Nat × Row64)
    (h : e.rep = none) :
    (advance btab nc c ends newRgn item e).ix = e.ix + 1 ∧
    (advance btab nc c ends newRgn item e).rgn = if newRgn then e.ix + 1 else e.rgn := by
  simp only [advance, h, Bool.false_eq_true, if_false, Bool.not_false, Bool.and_true, and_self]

/-! ## Instructions that complete in one issue -/

/-- The frontier of the group in a slot. -/
def frontAt (s : State) (core slot : Nat) : Option (List Entry) := (getGroup s core slot).map Group.front

theorem frontAt_post (s : State) (l : List Instr) (c k : Nat) : frontAt (post s l) c k = frontAt s c k := rfl

theorem frontAt_modGroup (s : State) (c k : Nat) (f : Group → Group) (hf : ∀ g, (f g).front = g.front) : frontAt (modGroup s c k f) c k = frontAt s c k := by
  rw [frontAt, frontAt, getGroup_modGroup_self, Option.map_map]
  exact congrArg (fun h => (getGroup s c k).map h) (funext hf)

theorem frontAt_modGroup_ne (s : State) (c k j : Nat) (f : Group → Group) (h : j ≠ k) : frontAt (modGroup s c k f) c j = frontAt s c j := by
  rw [frontAt, frontAt, getGroup_modGroup_ne]
  exact fun he => h (congrArg Prod.snd he)

theorem front_vwrite (g : Group) (n : Nat) (m : Lanes) (f : Nat → Word) : (vwrite g n m f).front = g.front := by unfold vwrite; rfl
theorem front_swrite (g : Group) (n : Nat) (v : Word) : (swrite g n v).front = g.front := by unfold swrite; rfl

theorem front_dstGroup (g : Group) (o : Opnd) (wide : Bool) (m : Lanes) (r : Row64) : (dstGroup g o wide m r).front = g.front := by
  cases o <;> simp only [dstGroup, apply_ite Group.front, front_vwrite, front_swrite, ite_self]

theorem front_predGroup (g : Group) (k : Nat) (m b : Lanes) : (predGroup g k m b).front = g.front := by
  unfold predGroup
  split <;> rfl

theorem front_v2pGroup (act : Lanes) (y z : Row64) (g : Group) : (v2pGroup act y z g).front = g.front := by
  unfold v2pGroup
  generalize List.range 7 = l
  induction l generalizing g with
  | nil => rfl
  | cons k t ih => rw [List.foldl_cons, ih, front_predGroup]

theorem frontAt_writeDst (x : Ctx) (o : Opnd) (wide nw : Bool) (r : Row64) (s : State) :
    frontAt (writeDst x o wide nw r s) x.core x.slot = frontAt s x.core x.slot := by
  cases nw with
  | true => rfl
  | false => exact frontAt_modGroup _ _ _ _ fun g => front_dstGroup g o wide x.act r

theorem frontAt_consumePort (s : State) (x : Ctx) (q : Nat) : frontAt (consumePort s x q) x.core x.slot = frontAt s x.core x.slot := by
  unfold consumePort
  split
  · rfl
  · dsimp only
    rw [frontAt_post, frontAt_modGroup _ _ _ _ ?_]
    · rw [frontAt, getGroup, getCore_modCore, if_pos rfl, frontAt, getGroup]
    · exact fun _ => rfl

theorem frontAt_commitSources (x : Ctx) (r : Rules) (c : Enc) (left added : List LvEnt) (s : State) :
    frontAt (commitSources x r c left added s) x.core x.slot = frontAt s x.core x.slot := by
  refine commitSources_induction (P := fun t => frontAt t x.core x.slot = frontAt s x.core x.slot) rfl (frontAt_consumePort s x) (fun u h => ?_)
    fun u h => ?_
  · rw [frontAt_modGroup_ne _ _ _ _ _ (Nat.ne_of_lt (Nat.lt_succ_self _)), h]
  · rw [frontAt_modGroup _ _ _ _ ?_, h]
    exact fun _ => rfl

theorem frontAt_sourced (x : Ctx) (i : Instr) (c : Enc) (left added : List LvEnt) (r : Row64) (s : State) :
    frontAt (sourced x i c left added r s) x.core x.slot = frontAt s x.core x.slot := by
  have hc := frontAt_commitSources x (rulesOf i) c left added s
  unfold sourced lvPush
  dsimp only
  split
  · split
    · exact (frontAt_modGroup_ne _ _ _ _ _ (Nat.ne_of_lt (Nat.lt_succ_self _))).trans hc
    · exact hc
  · exact hc

/-- A state in which only the registers of the group that issues have changed: its frontier and every other group's registers stay. -/
def OwnRegs (x : Ctx) (s t : State) : Prop := frontAt t x.core x.slot = frontAt s x.core x.slot ∧ KeepsOthers x.core x.slot s t

theorem OwnRegs.refl (x : Ctx) (s : State) : OwnRegs x s s := ⟨rfl, .refl s⟩

theorem OwnRegs.trans {x : Ctx} {s t u : State} (h : OwnRegs x s t) (k : OwnRegs x t u) : OwnRegs x s u := ⟨k.1.trans h.1, h.2.trans k.2⟩

theorem ownRegs_modGroup (x : Ctx) (s : State) {f : Group → Group} (hf : ∀ g, (f g).front = g.front) : OwnRegs x s (modGroup s x.core x.slot f) :=
  ⟨frontAt_modGroup _ _ _ _ hf, .modGroup_self s f⟩

theorem ownRegs_writeDst (x : Ctx) (o : Opnd) (wide nw : Bool) (r : Row64) (s : State) : OwnRegs x s (writeDst x o wide nw r s) :=
  ⟨frontAt_writeDst .., .writeDst ..⟩

/-- An encoded instruction whose own part always ends with a result and changes its group's registers alone. -/
def EndsPlain (i : Instr) (c : Enc) : Prop :=
  encOf i = some c ∧ ∃ body, (∀ s, exec i s = issue i c body s) ∧ ∀ x v s, ∃ t r, body x v s = .fin t r ∧ OwnRegs x s t

theorem endsPlain_compute {i : Instr} {c : Enc} {wide : Bool} {f : LaneFn} (hc : encOf i = some c)
    (h : ∀ s, exec i s = issue i c (fun x v s => compute x c wide (f x v) s) s) :
    EndsPlain i c := ⟨hc, _, h, fun _ _ _ => ⟨_, _, rfl, ownRegs_writeDst ..⟩⟩

theorem endsPlain_lane2 {i : Instr} {c : Enc} {t : Ty} {f : DWord → DWord → DWord} (hc : encOf i = some c)
    (h : ∀ s, exec i s = lane2 i c t f s) : EndsPlain i c :=
  endsPlain_compute (f := ofYZ f) hc h

theorem endsPlain_lane1 {i : Instr} {c : Enc} {t : Ty} {f : DWord → DWord} (hc : encOf i = some c)
    (h : ∀ s, exec i s = lane1 i c t f s) : EndsPlain i c :=
  endsPlain_compute (f := ofY f) hc h

theorem endsPlain_lane3 {i : Instr} {c : Enc} {t : Ty} {f : DWord → DWord → DWord → DWord} (hc : encOf i = some c)
    (h : ∀ s, exec i s = lane3 i c t f s) : EndsPlain i c :=
  endsPlain_compute (f := ofYZW f) hc h

theorem ownRegs_computeP (x : Ctx) (c : Enc) (f : Nat → Bool) (s : State) :
    ∃ t r, computeP x c f s = .fin t r ∧ OwnRegs x s t := by
  refine ⟨_, _, rfl, ?_⟩
  split
  · exact .refl x s
  · exact ownRegs_modGroup x s fun g => front_predGroup g _ _ _

theorem endsPlain_computeP {i : Instr} {c : Enc} {f : Ctx → Srcs → Nat → Bool} (hc : encOf i = some c)
    (h : ∀ s, exec i s = issue i c (fun x v s => computeP x c (f x v) s) s) : EndsPlain i c :=
  ⟨hc, _, h, fun x v s => ownRegs_computeP x c (f x v) s⟩

/-- The integer instructions end with their row of the table. -/
theorem endsPlain_int {i : Instr} {p : Enc × Bool × LaneFn} (h : intFn i = some p) : EndsPlain i p.1 := by
  cases i with
  | mov c t =>
    simp only [intFn] at h
    split at h
    · cases h
    · next hp =>
      cases h
      refine ⟨rfl, _, exec_mov _ _, fun x v s => ?_⟩
      cases hx : c.x with
      | mq n => rw [hx] at hp; exact absurd rfl hp
      | _ => exact ⟨_, _, rfl, ownRegs_writeDst ..⟩
  | bsel c =>
    simp only [intFn] at h
    split at h
    · next hs =>
      cases h
      refine ⟨rfl, _, exec_bsel _, fun x v s => ?_⟩
      simp only [hs, Bool.not_true, Bool.false_eq_true, if_false]
      exact ⟨_, _, rfl, ownRegs_writeDst ..⟩
    · cases h
  | not c ty => cases h; exact endsPlain_lane1 rfl (exec_not _ _)
  | popc c ty => cases h; exact endsPlain_lane1 rfl (exec_popc _ _)
  | clz c ty => cases h; exact endsPlain_lane1 rfl (exec_clz _ _)
  | ctz c ty => cases h; exact endsPlain_lane1 rfl (exec_ctz _ _)
  | brev c ty => cases h; exact endsPlain_lane1 rfl (exec_brev _ _)
  | imad c ty => cases h; exact endsPlain_lane3 rfl (exec_imad _ _)
  | idp4 c sat ty => cases h; exact endsPlain_lane3 rfl (exec_idp4 _ _ _)
  | ltab c ty => cases h; exact endsPlain_lane3 rfl (exec_ltab _ _)
  | bfi c ty => cases h; exact endsPlain_lane3 rfl (exec_bfi _ _)
  | iadd c sat ty => cases h; exact endsPlain_lane2 rfl (exec_iadd _ _ _)
  | isub c sat ty => cases h; exact endsPlain_lane2 rfl (exec_isub _ _ _)
  | ineg c sat ty => cases h; exact endsPlain_lane2 rfl (exec_ineg _ _ _)
  | iabs c sat ty => cases h; exact endsPlain_lane2 rfl (exec_iabs _ _ _)
  | imul c ty => cases h; exact endsPlain_lane2 rfl (exec_imul _ _)
  | imulh c ty => cases h; exact endsPlain_lane2 rfl (exec_imulh _ _)
  | imin c ty => cases h; exact endsPlain_lane2 rfl (exec_imin _ _)
  | imax c ty => cases h; exact endsPlain_lane2 rfl (exec_imax _ _)
  | lea c sh ty => cases h; exact endsPlain_lane2 rfl (exec_lea _ _ _)
  | and c ty => cases h; exact endsPlain_lane2 rfl (exec_and _ _)
  | or c ty => cases h; exact endsPlain_lane2 rfl (exec_or _ _)
  | xor c ty => cases h; exact endsPlain_lane2 rfl (exec_xor _ _)
  | andn c ty => cases h; exact endsPlain_lane2 rfl (exec_andn _ _)
  | shl c clamp ty => cases h; exact endsPlain_lane2 rfl (exec_shl _ _ _)
  | shr c clamp ty => cases h; exact endsPlain_lane2 rfl (exec_shr _ _ _)
  | sar c clamp ty => cases h; exact endsPlain_lane2 rfl (exec_sar _ _ _)
  | rol c ty => cases h; exact endsPlain_lane2 rfl (exec_rol _ _)
  | bfx c signed ty => cases h; exact endsPlain_lane2 rfl (exec_bfx _ _ _)
  | sel c ty => cases h; exact endsPlain_compute rfl (exec_sel _ _)
  | _ => cases h

theorem endsPlain_fp2 {i : Instr} {c : Enc} {t : Ty} {f : Num → Num → Nat} (hc : encOf i = some c)
    (h : ∀ s, exec i s = fp2 i c t f s) : EndsPlain i c :=
  endsPlain_compute (f := fun _ v l => enc64 (f (fval t (lane64 v.y l)) (fval t (lane64 v.z l)))) hc h

theorem endsPlain_fp1 {i : Instr} {c : Enc} {t : Ty} {f : Num → Nat} (hc : encOf i = some c)
    (h : ∀ s, exec i s = fp1 i c t f s) : EndsPlain i c :=
  endsPlain_fp2 (f := fun a _ => f a) hc h

/-- So do the floating-point instructions. -/
theorem endsPlain_float {i : Instr} {p : Enc × Bool × LaneFn} (h : floatFn i = some p) : EndsPlain i p.1 := by
  cases i with
  | fadd c rm ty => cases h; exact endsPlain_fp2 rfl (exec_fadd _ _ _)
  | fsub c rm ty => cases h; exact endsPlain_fp2 rfl (exec_fsub _ _ _)
  | fmul c rm ty => cases h; exact endsPlain_fp2 rfl (exec_fmul _ _ _)
  | fdiv c rm ty => cases h; exact endsPlain_fp2 rfl (exec_fdiv _ _ _)
  | fsqrt c rm ty => cases h; exact endsPlain_fp1 rfl (exec_fsqrt _ _ _)
  | frcp c rm ty => cases h; exact endsPlain_fp1 rfl (exec_frcp _ _ _)
  | frsq c rm ty => cases h; exact endsPlain_fp1 rfl (exec_frsq _ _ _)
  | fclass c ty => cases h; exact endsPlain_fp1 rfl (exec_fclass _ _)
  | frnd c rm ty => cases h; exact endsPlain_fp1 rfl (exec_frnd _ _ _)
  | fmin c nan ty => cases h; exact endsPlain_lane2 rfl (exec_fmin _ _ _)
  | fmax c nan ty => cases h; exact endsPlain_lane2 rfl (exec_fmax _ _ _)
  | fscl c rm ty => cases h; exact endsPlain_lane2 rfl (exec_fscl _ _ _)
  | fabs c ty => cases h; exact endsPlain_lane1 rfl (exec_fabs _ _)
  | fneg c ty => cases h; exact endsPlain_lane1 rfl (exec_fneg _ _)
  | cvt c rm ns ty => cases h; exact endsPlain_lane1 rfl (exec_cvt _ _ _ _)
  | cvtx c k ty => cases h; exact endsPlain_lane1 rfl (exec_cvtx _ _ _)
  | ffma c rm ty => cases h; exact endsPlain_compute rfl (exec_ffma _ _ _)
  | cvtp c rm ns q ty => cases h; exact endsPlain_compute rfl (exec_cvtp _ _ _ _ _)
  | qb4 c rm => cases h; exact endsPlain_compute rfl (exec_qb4 _ _)
  | _ => cases h

/-- So do those that move values between lanes, predicates and registers. -/
theorem endsPlain_move {i : Instr} {p : Enc × Bool × LaneFn} (h : moveFn i = some p) : EndsPlain i p.1 := by
  cases i with
  | rds c =>
    simp only [moveFn] at h
    split at h
    · cases h
    · next hb =>
      cases h
      refine ⟨rfl, _, exec_rds _, fun x v s => ?_⟩
      simp only [rdsBad, hb]
      exact ⟨_, _, rfl, ownRegs_writeDst ..⟩
  | vote c k =>
    cases k with
    | mask => cases h; exact ⟨rfl, _, exec_vote _ _, fun x v s => ⟨_, _, rfl, ownRegs_writeDst ..⟩⟩
    | _ => cases h
  | p2v c => cases h; exact endsPlain_compute rfl (exec_p2v _)
  | smov c ty => cases h; exact endsPlain_compute rfl (exec_smov _ _)
  | shfl c k ty => cases h; exact endsPlain_compute rfl (exec_shfl _ _ _)
  | lred c op rm ty => cases h; exact endsPlain_compute rfl (exec_lred _ _ _ _)
  | _ => cases h

/-- So do those that write one predicate. -/
theorem endsPlain_pred {i : Instr} {p : Enc × (Ctx → Srcs → Nat → Bool)} (h : predFn i = some p) : EndsPlain i p.1 := by
  cases i with
  | iset c cc ty => cases h; exact endsPlain_computeP rfl (exec_iset _ _ _)
  | plop c t => cases h; exact endsPlain_computeP rfl (exec_plop _ _)
  | fset c cc ty => cases h; exact endsPlain_computeP rfl (exec_fset _ _ _)
  | vote c k =>
    cases k with
    | mask => cases h
    | _ => cases h; exact endsPlain_computeP rfl (exec_vote _ _)
  | _ => cases h

theorem endsPlain_nop (c : Enc) : EndsPlain (.nop c) c := ⟨rfl, _, exec_nop c, fun x _ s => ⟨_, _, rfl, .refl x s⟩⟩

theorem endsPlain_v2p (c : Enc) : EndsPlain (.v2p c) c := by
  refine ⟨rfl, _, exec_v2p c, fun x v s => ⟨_, _, rfl, ?_⟩⟩
  split
  · exact .refl x s
  · exact ownRegs_modGroup x s (front_v2pGroup x.act v.y v.z)

theorem endsPlain_cvts (c : Enc) (ns : Bool) (t : Ty) : EndsPlain (.cvts c ns t) c :=
  ⟨rfl, _, exec_cvts c ns t, fun x _ s => ⟨_, _, rfl, (ownRegs_modGroup x s (f := countCalls x.act) fun _ => rfl).trans (ownRegs_writeDst ..)⟩⟩

/-- The instructions that complete in one issue end with a result and leave the frontier to the issue. -/
theorem endsPlain_of_plainEnc {i : Instr} {c : Enc} (h : plainEnc i = some c) : EndsPlain i c := by
  unfold plainEnc at h
  split at h
  · cases h; exact endsPlain_nop _
  · cases h; exact endsPlain_v2p _
  · cases h; exact endsPlain_cvts _ _ _
  · split at h
    · next hp => cases h; exact endsPlain_int hp
    · next hp _ => cases h; exact endsPlain_float hp
    · next hp _ _ => cases h; exact endsPlain_move hp
    · next hp _ _ _ => cases h; exact endsPlain_pred hp
    · cases h

theorem nextInstruction : Says.NextInstruction := by
  intro i c s x v left added hi h hrep hdis
  obtain ⟨-, body, he, hb⟩ := endsPlain_of_plainEnc hi
  obtain ⟨t, r, ht, hfront, -⟩ := hb x v s
  obtain ⟨hg, -⟩ := ctxOf_spec h.ctx
  generalize hu : sourced x i c left added r t = u
  have hfu : frontAt u x.core x.slot = some x.g.front := by
    rw [← hu, frontAt_sourced, hfront, frontAt, hg]; rfl
  obtain ⟨g, hgu, hgf⟩ := Option.map_eq_some_iff.1 hfu
  have hexec : exec i s = .next (complete x c (endsRegion i c) (endsNow i c x) (none, maskRow x.act (latchOf i r)) u) := by
    rw [he, issue, issueState_ready body h, ht, ← hu]; rfl
  have hgroup := getGroup_charged x c (c.chn && decide (x.e.chain.length < 7) && !endsRegion i c)
    (fun l => modEntry l x.e.mask (advance x.node.la.btab g.ncall c (endsRegion i c) (endsNow i c x) (none, maskRow x.act (latchOf i r)))) u
  rw [hgu, Option.map_some, hgf] at hgroup
  have hcomplete : complete x c (endsRegion i c) (endsNow i c x) (none, maskRow x.act (latchOf i r)) u = modFront _ x.core x.slot _ :=
    congrArg (fun n => modFront (chargeIssue x c (c.chn && decide (x.e.chain.length < 7) && !endsRegion i c) u) x.core x.slot fun l =>
      modEntry l x.e.mask (advance x.node.la.btab n c (endsRegion i c) (endsNow i c x) (none, maskRow x.act (latchOf i r))))
      (show (match getGroup u x.core x.slot with | some g => g.ncall | none => []) = g.ncall by rw [hgu])
  rw [← hcomplete] at hgroup
  refine ⟨_, _, g.ncall, (none, maskRow x.act (latchOf i r)), hexec, hgroup, ⟨rfl, rfl⟩, fun hlen => ?_,
    lanesMoved_of_group hgroup fun l => ?_⟩
  · exact (congrArg (c.stall.val + ·) (spillCost_eq_zero (by simpa [modEntry] using hlen))).trans (Nat.add_zero _)
  · obtain ⟨hix, hrgn⟩ := advance_pos x.node.la.btab g.ncall c (endsRegion i c) (endsNow i c x) (none, maskRow x.act (latchOf i r)) hrep
    have := laneAt_charged h.ctx (advance x.node.la.btab g.ncall c (endsRegion i c) (endsNow i c x) (none, maskRow x.act (latchOf i r)))
      (fun e _ => rfl) hdis l
    rw [hix, hrgn] at this
    exact this

/-! ## REGION, SLEEP and YIELD set the frontier themselves -/

/-- A ready instruction whose own part has set the frontier. -/
theorem exec_of_jump {i : Instr} {c : Enc} {s s1 : State} {x : Ctx} {v : Srcs} {left added : List LvEnt}
    {body : Ctx → Srcs → State → Res} (he : exec i s = issue i c body s) (h : Ready i c s x v left added) (hb : body x v s = .jump s1) :
    exec i s = .next (commitSources x (rulesOf i) c left added s1) := by
  rw [he, issue, issueState_ready body h, hb, finish]

theorem kept_charged (x : Ctx) (c : Enc) (keep : Bool) (f : List Entry → List Entry) (s : State) :
    Kept s (modFront (chargeIssue x c keep s) x.core x.slot f) := (kept_chargeIssue ..).trans (kept_modFront ..)

/-- The lanes of a charged issue that changes its entry alone. -/
theorem lanesMoved_charged {s : State} {c : Enc} {x : Ctx} (hx : ctxOf s c = some x) (d : Enc) (keep : Bool) (f : Entry → Entry)
    (hf : ∀ e, e.mask = x.e.mask → (f e).mask = e.mask) (hd : Disjoint' x.g.front) :
    LanesMoved (modFront (chargeIssue x d keep s) x.core x.slot fun l => modEntry l x.e.mask f) x fun _ => some ((f x.e).ix, (f x.e).rgn) := by
  obtain ⟨hg, -⟩ := ctxOf_spec hx
  have h := getGroup_charged x d keep (fun l => modEntry l x.e.mask f) s
  rw [hg] at h
  exact lanesMoved_of_group h (laneAt_charged hx f hf hd)

theorem lanesMoved_modGroup {t : State} {x : Ctx} {p : Nat → Option (Word × Word)} (f : Group → Group) (hf : ∀ g, (f g).front = g.front)
    (h : LanesMoved t x p) : LanesMoved (modGroup t x.core x.slot f) x p := fun l hl => by
  rw [← h l hl, lanePos, lanePos, getGroup_modGroup_self]
  cases getGroup t x.core x.slot with
  | none => rfl
  | some g => exact congrArg (laneAt · l) (hf g)

theorem regionOpens : Says.RegionOpens := by
  intro c s x v left added h
  exact ⟨_, exec_of_jump (exec_region c s) h rfl, kept_charged .., lanesMoved_charged h.ctx c false
    (fun e => { splitOff x.node.la.btab e e.mask (e.ix + 1) with rgn := e.ix, cnt := countsOf x.g.ncall e.mask }) fun _ _ => rfl⟩

/-- The group of an issue that completes. -/
theorem getGroup_complete {s : State} {c : Enc} {x : Ctx} (hx : ctxOf s c = some x) (ends newRgn : Bool) (item : Option Nat × Row64) :
    ∃ g, getGroup (complete x c ends newRgn item s) x.core x.slot = some g := by
  obtain ⟨hg, -⟩ := ctxOf_spec hx
  rw [complete, getGroup_charged, hg]
  exact ⟨_, rfl⟩

theorem sleepSuspends : Says.SleepSuspends := by
  intro c s x v left added h
  obtain ⟨g, hg⟩ := getGroup_complete h.ctx false false (none, zeroRow)
  have hk := kept_complete x c false false (none, zeroRow) s
  have hl : x.e.rep = none → Disjoint' x.g.front →
      LanesMoved (complete x c false false (none, zeroRow) s) x fun _ => some (x.e.ix + 1, x.e.rgn) := fun hr hd => by
    have hmoved := lanesMoved_charged h.ctx c (c.chn && decide (x.e.chain.length < 7) && !false)
      (advance x.node.la.btab (match getGroup s x.core x.slot with | some g => g.ncall | none => []) c false false (none, zeroRow)) (fun _ _ => rfl) hd
    rw [(advance_pos _ _ c false false (none, zeroRow) hr).1, (advance_pos _ _ c false false (none, zeroRow) hr).2] at hmoved
    exact hmoved
  by_cases h0 : x.act = 0
  · exact ⟨_, g, exec_of_jump (exec_sleep c s) h (congrArg Res.jump (if_pos h0)), hk, hg, fun hn => absurd h0 hn, hl⟩
  · refine ⟨_, _, exec_of_jump (exec_sleep c s) h (congrArg Res.jump (if_neg h0)), hk.trans (kept_modGroup _ _ _ _ fun _ => rfl),
      by rw [getGroup_modGroup_self, hg]; rfl, fun _ => rfl, fun hr hd => lanesMoved_modGroup _ (fun _ => rfl) (hl hr hd)⟩

/-- An entry replaced by one other is a change of it. -/
theorem replaceEntry_one (x : Ctx) (c : Enc) (e : Entry) (s : State) :
    replaceEntry x c [e] s = modFront (chargeIssue x c false s) x.core x.slot fun l => modEntry l x.e.mask fun _ => e := by
  have h : ∀ l : List Entry, (l.flatMap fun a => if a.mask == x.e.mask then [e] else [a]) = modEntry l x.e.mask fun _ => e := fun l => by
    rw [modEntry, List.map_eq_flatMap]
    refine congrArg l.flatMap (funext fun a => ?_)
    split <;> rfl
  simp only [replaceEntry, h]

theorem yieldMovesOn : Says.YieldMovesOn := by
  intro c s x v left added h
  obtain ⟨hg, -⟩ := ctxOf_spec h.ctx
  let e : Entry := { splitOff x.node.la.btab x.e x.e.mask (x.e.ix + 1) with st := .yielded, due := yieldDue x }
  have hmoved := lanesMoved_charged h.ctx c false (fun _ => e) fun _ he => he.symm
  have hgroup := getGroup_charged x c false (fun l => modEntry l x.e.mask fun _ => e) s
  rw [← replaceEntry_one] at hmoved hgroup
  rw [hg] at hgroup
  exact ⟨_, _, exec_of_jump (exec_yield c s) h rfl, (kept_replaceEntry ..).trans (kept_modGroup _ _ _ _ fun _ => rfl),
    by rw [getGroup_modGroup_self, hgroup]; rfl, rfl, fun hd => lanesMoved_modGroup _ (fun _ => rfl) (hmoved hd)⟩

theorem mem_unyield {l : List Entry} {e : Entry} (he : e ∈ l) (hy : e.st = .yielded) :
    (if yieldOver l e then { e with st := .live, due := 0 } else e) ∈ unyield l := by
  refine List.mem_map.2 ⟨e, he, ?_⟩
  simp only [hy, beq_self_eq_true, Bool.true_and]

theorem yieldOver_iff {l : List Entry} {e : Entry} :
    yieldOver l e = true ↔ ∀ o ∈ l, o.mask ≠ e.mask → o.st = .live → o.mask &&& e.due = 0 := by
  simp only [yieldOver, List.all_eq_true, Bool.or_eq_true, beq_iff_eq, bne_iff_ne]
  exact forall₂_congr fun o _ => by tauto

theorem yieldWaitsForOthers : Says.YieldWaitsForOthers := by
  refine ⟨fun l e he hy => ⟨fun h => ?_, fun ⟨o, ho, hm, hl, hdue⟩ => ?_⟩, fun m e hy => ?_⟩
  · have := mem_unyield he hy
    rwa [if_pos (yieldOver_iff.2 h)] at this
  · have := mem_unyield he hy
    rwa [if_neg fun hover => hdue (yieldOver_iff.1 hover o ho hm hl)] at this
  · have : (clearDue m e).due = e.due &&& ~~~m := by rw [clearDue, hy]; rfl
    rw [this, ← BitVec.and_assoc, BitVec.and_comm m, BitVec.and_assoc]
    simp

/-- Settles O18: an issue's group after its charge, with the frontier put in order, tells where its lanes stand and what its spills cost; a yield is over when
no live entry is left in the set it waits on. -/
theorem entriesMoveOn : Obligations.EntriesMoveOn := ⟨nextInstruction, regionOpens, sleepSuspends, yieldMovesOn, yieldWaitsForOthers⟩

end Sys2Proof.Machine
end

section
/-! A duplicate contribution to a tree whose identifier waits to be freed (R254, R256, R358). -/
namespace Sys2Proof.Machine

/-- An identifier that a BGFREE has left PENDING with one operation in flight, its tree's root holding the contribution of leaf 1. -/
def pendingTree : Ident := { identT [(0, { vals := [(1, (5, false, 0))] })] with st := .pending }

/-- The same contribution of leaf 1 on its way once more, to that tree. -/
def duplicateState : State := ttree2 (fun p => { contribs1 (conT 1) p with idents := [(9, pendingTree)] }) []

/-- The duplicate taken from its partition's queue. -/
def duplicateTaken : State := modPart duplicateState 0 fun p => { p with contribs := [] }

theorem contribs_duplicateState : (getPart duplicateState 0).contribs = [conT 1] := rfl

theorem identOf_duplicateTaken : identOf duplicateTaken 0 9 = pendingTree := rfl

theorem slotOf_duplicateTaken : slotOf duplicateTaken 0 (treeOf pendingTree.desc) (conT 1) = some 1 := by decide +kernel

theorem exec_redtContributionArrival_cons {s : State} {part : Nat} {c : Contrib} {l : List Contrib} (h : (getPart s part).contribs = c :: l) :
    exec (.redtContributionArrival part) s = .next (arriveContrib (modPart s part fun p => { p with contribs := l }) part c) := by
  simp only [exec_redtContributionArrival, execRedtContributionArrival, h]

/-- A second contribution of a child with the value of its first is discarded: one operation less is in flight (R256, R358). -/
theorem arriveContrib_duplicate {s : State} {part j : Nat} {c : Contrib} {q : Bool × Nat}
    (hj : slotOf s part (treeOf (identOf s part c.ident).desc) c = some j) (hf : (rnodeOf (identOf s part c.ident) c.node).flushed = false)
    (hd : (identOf s part c.ident).delivered = false) (hv : assoc (rnodeOf (identOf s part c.ident) c.node).vals j = some (c.val, q)) :
    arriveContrib s part c = modIdent s part c.ident (lessInFlight 1) := by
  simp only [arriveContrib, hj, hf, hd, hv, Bool.or_self, Bool.false_eq_true, if_false, if_true]

/-- The last operation in flight of a PENDING identifier frees it, and its tree's nodes with it (R358). -/
theorem lessInFlight_pending {i : Ident} (hs : i.st = .pending) (hi : i.infl ≤ 1) : lessInFlight 1 i = { gen := i.gen } := by
  have h0 : i.infl - 1 = 0 := by omega
  simp only [lessInFlight, hs, h0, beq_self_eq_true, Bool.and_self, if_true]

/-- The duplicate frees the identifier, whose node then holds nothing. -/
theorem exec_duplicateState : ∃ t, exec (.redtContributionArrival 0) duplicateState = .next t ∧ (rnodeOf (identOf t 0 9) 0).vals = [] := by
  have hd : arriveContrib duplicateTaken 0 (conT 1) = modIdent duplicateTaken 0 9 (lessInFlight 1) :=
    arriveContrib_duplicate (q := (false, 0)) slotOf_duplicateTaken rfl rfl rfl
  have he := exec_redtContributionArrival_cons contribs_duplicateState
  rw [show modPart duplicateState 0 (fun p => { p with contribs := [] }) = duplicateTaken from rfl, hd] at he
  refine ⟨_, he, ?_⟩
  rw [identOf_modIdent, identOf_duplicateTaken, lessInFlight_pending rfl (Nat.le_refl 1)]
  rfl

/-- A duplicate is not always discarded with its node's values kept: here it is the identifier's last operation in flight, which frees the identifier. -/
theorem not_contributionsArrive : ¬ Says.ContributionsArrive := by
  intro h
  obtain ⟨t, ht, -, -, hvals, -⟩ := (h duplicateState 0 (conT 1) [] contribs_duplicateState).2.1 1 false 0 slotOf_duplicateTaken rfl rfl rfl
  obtain ⟨t', ht', hnone⟩ := exec_duplicateState
  cases ht.symm.trans ht'
  exact List.cons_ne_nil _ _ (hvals.symm.trans hnone)

/-- Refutes O51: in `duplicateState` identifier 9 is PENDING with one operation in flight, and the root of its tree holds leaf 1's contribution; the same
contribution arrives again, the count in flight reaches 0 and the identifier is FREE (R358), so that its node holds nothing. The statement wants the node's
values as they were. -/
theorem not_timeAndTrees : ¬ Obligations.TimeAndTrees := fun h => not_contributionsArrive h.2.1

end Sys2Proof.Machine
end

section
/-! An encoded instruction and the registers of other groups (R40, R42, R74 to R76): every way an issue can end, and every instruction's own part. -/
namespace Sys2Proof.Machine

/-! ## How an own part ends -/

/-- The state that an own part leaves keeps the other groups' registers. -/
def Res.KeepsOthers (core slot : Nat) (s : State) : Res → Prop
  | .fin t _ | .late t _ | .jump t | .wait t | .waitGroup t => Machine.KeepsOthers core slot s t
  | .trap _ _ => True

theorem Res.KeepsOthers.after {core slot : Nat} {s t : State} {r : Res} (h : Machine.KeepsOthers core slot s t) (k : r.KeepsOthers core slot t) :
    r.KeepsOthers core slot s := by
  cases r with
  | trap => trivial
  | _ => exact h.trans k

namespace KeepsOthers
variable {core slot : Nat}

theorem holdGroup (x : Ctx) (s : State) : KeepsOthers core slot s (holdGroup x s) := of_cores rfl
theorem holdEntry (x : Ctx) (s : State) : KeepsOthers core slot s (holdEntry x s) := of_cores rfl
theorem freshReq (s : State) : KeepsOthers core slot s (freshReq s).2 := of_cores rfl
theorem unhold (s : State) : KeepsOthers core slot s (unhold s) := of_cores rfl
theorem modNode (s : State) (part : Nat) (a : DWord) (f : Node → Node) : KeepsOthers core slot s (modNode s part a f) := of_cores rfl
theorem modCluster (s : State) (k : Nat) (f : Cluster → Cluster) : KeepsOthers core slot s (modCluster s k f) := of_cores rfl
theorem modDie (s : State) (d : Nat) (f : Die → Die) : KeepsOthers core slot s (modDie s d f) := of_cores rfl

theorem complete (x : Ctx) (c : Enc) (ends newRgn : Bool) (item : Option Nat × Row64) (s : State) :
    KeepsOthers core slot s (complete x c ends newRgn item s) := of_kept (kept_complete ..)

theorem blockEntry (x : Ctx) (c : Enc) (w : Wait) (s : State) : KeepsOthers core slot s (blockEntry x c w s) := of_kept (kept_blockEntry ..)

theorem replaceEntry (x : Ctx) (c : Enc) (l : List Entry) (s : State) : KeepsOthers core slot s (replaceEntry x c l s) :=
  of_kept (kept_replaceEntry ..)

theorem trapIssue (x : Ctx) (k : TrapKind) (f : DWord) (s : State) : KeepsOthers x.core x.slot s (trapIssue x k f s) :=
  ((unhold s).trans (passCycles _ x.core 1)).trans (takeFault ..)

theorem trapBack (x : Ctx) (k : TrapKind) (f : DWord) (s : State) : KeepsOthers x.core x.slot s (trapBack x k f s) :=
  ((unhold s).trans (passCycles _ x.core 1)).trans (takeFault ..)

theorem meetStop (x : Ctx) (w : NbStop) (s : State) : KeepsOthers x.core x.slot s (meetStop x w s) := by
  cases w with
  | fault k a => exact trapBack x k a s
  | ask va => exact (missWalk ..).trans (holdGroup x _)
  | refused sub va pa home => exact (refuse ..).trans (holdGroup x _)

theorem putResult (x : Ctx) (r : Rules) (c : Enc) (v : Row64) (s : State) : KeepsOthers x.core x.slot s (putResult x r c v s) := by
  unfold Machine.putResult
  split
  · exact refl s
  · split <;> exact modGroup_self s _

theorem takenIssue (x : Ctx) (i : Instr) (c : Enc) (left : List LvEnt) (s : State) : KeepsOthers x.core x.slot s (takenIssue x i c left s) := by
  unfold Machine.takenIssue
  dsimp only
  split
  · split
    · exact holdGroup x s
    · exact ((putResult ..).trans (modGroup_self _ _)).trans (complete ..)
  · split
    · exact blockEntry ..
    · exact holdGroup x s

theorem finish (x : Ctx) (i : Instr) (c : Enc) (s : State) (left added : List LvEnt) {r : Res} (h : r.KeepsOthers x.core x.slot s) :
    KeepsOthers x.core x.slot s (finish x i c s left added r) := by
  cases r with
  | fin t v =>
    refine (h.trans (commitSources x (rulesOf i) c left added t)).trans (.trans ?_ (complete ..))
    split
    · exact lvPush ..
    · exact refl _
  | late t q => exact (h.trans (commitSources x (rulesOf i) c left added t)).trans ((lvPush ..).trans (complete ..))
  | jump t => exact h.trans (commitSources ..)
  | wait t => exact h.trans (holdEntry x t)
  | waitGroup t => exact h.trans (holdGroup x t)
  | trap k f => exact trapIssue x k f s

theorem heldOr (s : State) (i : Instr) (c : Enc) (x : Ctx) {t : State} (h : KeepsOthers x.core x.slot s t) :
    KeepsOthers x.core x.slot s (heldOr s i c x t) := by
  unfold Machine.heldOr
  split
  · exact trapIssue ..
  · exact h

/-- An issue keeps what its own part keeps. -/
theorem issueState {i : Instr} {c : Enc} {s : State} {x : Ctx} (hx : ctxOf s c = some x) {body : Ctx → Srcs → State → Res}
    (hb : ∀ v, (body x v s).KeepsOthers x.core x.slot s) : KeepsOthers x.core x.slot s (issueState i c body s) := by
  unfold Machine.issueState
  simp only [hx]
  split
  · exact holdGroup x s
  · split
    · exact trapIssue ..
    · split
      · exact heldOr s i c x (holdGroup x s)
      · split
        · exact heldOr s i c x ((markHeld ..).trans (holdGroup x _))
        · exact heldOr s i c x (blockEntry ..)
        · exact heldOr s i c x (meetStop ..)
        · exact heldOr s i c x ((post ..).trans (holdGroup x _))
        · split
          · exact takenIssue ..
          · exact finish x i c s _ _ (hb _)

end KeepsOthers

/-- An instruction whose own part keeps the other groups' registers. -/
def BodyKeeps (i : Instr) (c : Enc) : Prop :=
  ∃ body, (∀ s, exec i s = issue i c body s) ∧ ∀ x v s, (body x v s).KeepsOthers x.core x.slot s

theorem bodyKeeps_of_plain {i : Instr} {c : Enc} (h : EndsPlain i c) : BodyKeeps i c := by
  obtain ⟨-, body, he, hb⟩ := h
  refine ⟨body, he, fun x v s => ?_⟩
  obtain ⟨t, r, hr, -, hk⟩ := hb x v s
  rw [hr]
  exact hk

section
variable (c : Enc) (x : Ctx) (v : Srcs) (s : State)

theorem keeps_done {core slot : Nat} : (done s).KeepsOthers core slot s := .refl s

theorem keeps_compute (wide : Bool) (f : Nat → DWord) : (compute x c wide f s).KeepsOthers x.core x.slot s := KeepsOthers.writeDst ..

theorem keeps_consume_if {core slot : Nat} (b : Bool) (d k src pa : Nat) :
    KeepsOthers core slot s (if b then consume s d k src pa else s) := by
  split
  · exact .consume ..
  · exact .refl s

/-! ## Control -/

theorem keeps_trapBody (k : TrapKind) : (trapBody k c x s).KeepsOthers x.core x.slot s := by
  unfold trapBody
  dsimp only
  have hc := KeepsOthers.complete (core := x.core) (slot := x.slot) x c true (x.act != 0) (none, zeroRow) s
  split
  · exact hc
  · split
    · exact hc
    · split
      · exact hc
      · exact hc.trans (.takeFault ..)

theorem keeps_syncRounds (core slot : Nat) (n : Node) (k : Nat) (s : State) : KeepsOthers core slot s (syncRounds core slot n k s) := by
  induction k generalizing s with
  | zero => exact .refl s
  | succ k ih =>
    unfold syncRounds
    split
    · exact .refl s
    · split
      · split
        · exact .refl s
        · exact (KeepsOthers.of_kept (kept_modFront ..)).trans (ih _)
      · exact .takeFault ..

theorem keeps_latticeExit {core slot : Nat} (g : Group) (n : Node) : KeepsOthers core slot s (latticeExit g n s) := by
  unfold latticeExit
  split
  · next s1 h =>
    split at h
    · obtain ⟨u, hu, hv⟩ := Option.bind_eq_some_iff.1 h
      exact .of_cores ((writesOnly_vaWrite hv).cores.trans (writesOnly_vaWrite hu).cores)
    · cases h
  · exact .modNode ..

theorem keeps_freeSlot {core slot : Nat} (d k : Nat) (g : Group) (lattice : Bool) : KeepsOthers core slot s (freeSlot s d k g lattice) := by
  unfold freeSlot
  refine .trans (.trans ?_ (.dropGroup _ d k)) (.post ..)
  split
  · exact .dropGroup ..
  · exact .refl s

theorem keeps_leaveSlot {core slot : Nat} (d k : Nat) (g : Group) (n : Node) : KeepsOthers core slot s (leaveSlot s d k g n) := by
  unfold leaveSlot
  dsimp only
  split
  · exact .of_cores rfl
  · refine .trans ?_ (keeps_freeSlot _ d k g _)
    split
    · exact .refl s
    · exact keeps_latticeExit s g n

theorem keeps_groupExit {core slot : Nat} (d k : Nat) (g : Group) (n : Node) : KeepsOthers core slot s (groupExit d k g n s) := by
  unfold groupExit
  dsimp only
  generalize hu : modNode s g.part g.node _ = u
  refine .trans (t := u) (.of_cores (by rw [← hu]; rfl)) ?_
  split
  · exact .refl u
  · split
    · exact keeps_leaveSlot u d k g n
    · exact .of_cores rfl

theorem keeps_maybeExit {core slot : Nat} (d k : Nat) (n : Node) : KeepsOthers core slot s (maybeExit d k n s) := by
  unfold maybeExit
  split
  · exact .refl s
  · split
    · exact .refl s
    · split
      · exact keeps_groupExit s d k _ n
      · split
        · split
          · exact keeps_groupExit s d k _ n
          · exact .refl s
        · exact keeps_groupExit s d k _ n
      · split
        · split
          · exact keeps_groupExit s d _ _ n
          · exact .refl s
        · exact .refl s

theorem keeps_exitBody : (exitBody c x s).KeepsOthers x.core x.slot s := by
  unfold exitBody
  split
  · trivial
  · refine KeepsOthers.trans (.replaceEntry x c (exitRest x) s) ?_
    split
    · exact .refl _
    · exact (keeps_syncRounds ..).trans (keeps_maybeExit ..)

theorem keeps_lsyncBody : (lsyncBody c x v s).KeepsOthers x.core x.slot s := by
  unfold lsyncBody
  dsimp only
  split
  · exact keeps_done s
  · split
    · trivial
    · split
      · trivial
      · split
        · trivial
        · exact .of_kept (kept_charged ..)

theorem keeps_sleep (n : Nat) :
    (Res.jump (if x.act = 0 then complete x c false false (none, zeroRow) s
      else modGroup (complete x c false false (none, zeroRow) s) x.core x.slot fun g => { g with sleep := n })).KeepsOthers x.core x.slot s := by
  refine KeepsOthers.trans (.complete x c false false (none, zeroRow) s) ?_
  split
  · exact .refl _
  · exact .modGroup_self _ _

/-! ## Memory -/

theorem keeps_ldBody (k : LdKind) (ty : Ty) : (ldBody c k ty x v s).KeepsOthers x.core x.slot s := by
  unfold ldBody
  dsimp only
  split
  · trivial
  · next h => exact .transLanes_wait h
  · next h =>
    refine .after (.transLanes_ok h) ?_
    split
    · exact KeepsOthers.refl _
    · split
      · exact .writeDst ..
      · exact ((KeepsOthers.freshReq _).trans (.addPend ..)).trans (.sendReads ..)

theorem keeps_stBody (ev : Bool) (ty : Ty) : (stBody c ev ty x v s).KeepsOthers x.core x.slot s := by
  unfold stBody
  dsimp only
  split
  · trivial
  · next h => exact .transLanes_wait h
  · next h =>
    refine .after (.transLanes_ok h) ?_
    split
    · exact KeepsOthers.refl _
    · exact .emit ..

theorem keeps_ldlBody (ty : Ty) : (ldlBody c ty x v s).KeepsOthers x.core x.slot s := by
  unfold ldlBody
  dsimp only
  split
  · trivial
  · split
    · next h => exact .touch h
    · exact (KeepsOthers.writeDst ..).trans (keeps_consume_if ..)

theorem keeps_stlBody (ty : Ty) : (stlBody c ty x v s).KeepsOthers x.core x.slot s := by
  unfold stlBody
  dsimp only
  split
  · trivial
  · split
    · next h => exact .touch h
    · split
      · exact keeps_done s
      · exact .localPut ..

theorem keeps_sendOff (p : Pend) (mk : Option Nat → List SbEntry) : (sendOff x p mk s).KeepsOthers x.core x.slot s := by
  unfold sendOff
  split
  · split
    · exact KeepsOthers.refl s
    · next e _ =>
      refine .after (t := modGroup s x.core x.slot fun g => { g with lvq := g.lvq.erase e }) (.modGroup_self s _) ?_
      dsimp only
      split
      · exact (KeepsOthers.emit ..).trans (.addPend ..)
      · refine KeepsOthers.trans ?_ (.emit ..)
        split
        · exact .refl _
        · exact .modGroup_self _ _
  · exact ((KeepsOthers.freshReq s).trans (.emit ..)).trans (.addPend ..)

theorem keeps_atomBody (op : Aop) (ord : Ord) (ty : Ty) : (atomBody c op ord ty x v s).KeepsOthers x.core x.slot s := by
  unfold atomBody
  split
  · exact keeps_done s
  · split
    · trivial
    · next h => exact .transLanes_wait h
    · next h =>
      refine .after (.transLanes_ok h) ?_
      split
      · exact KeepsOthers.refl _
      · split
        · exact KeepsOthers.refl _
        · exact keeps_sendOff ..

theorem keeps_redBody (op : Aop) (ord : Ord) (ty : Ty) : (redBody c op ord ty x v s).KeepsOthers x.core x.slot s := by
  unfold redBody
  split
  · exact keeps_done s
  · split
    · trivial
    · next h => exact .transLanes_wait h
    · next h =>
      refine .after (.transLanes_ok h) ?_
      split
      · exact KeepsOthers.refl _
      · split
        · exact KeepsOthers.refl _
        · exact .emit ..

theorem keeps_bopBody (op : BopKind) (rm : Rm) (ty : Ty) : (bopBody c op rm ty x v s).KeepsOthers x.core x.slot s := by
  unfold bopBody
  split
  · exact keeps_done s
  · split
    · trivial
    · next h => exact .transLanes_wait h
    · next h =>
      refine .after (.transLanes_ok h) ?_
      split
      · exact KeepsOthers.refl _
      · exact .emit ..

theorem keeps_atomlBody (op : Aop) (ord : Ord) (ty : Ty) : (atomlBody c op ord ty x v s).KeepsOthers x.core x.slot s := by
  unfold atomlBody
  dsimp only
  split
  · trivial
  · split
    · next h => exact .touch h
    · split
      · exact KeepsOthers.refl s
      · exact ((KeepsOthers.writeDst ..).trans (.localPut ..)).trans (keeps_consume_if ..)

theorem keeps_fenceBody (k : FKind) (sc : Scope) : (fenceBody k sc x s).KeepsOthers x.core x.slot s := by
  unfold fenceBody
  split
  · exact keeps_done s
  · split
    · exact KeepsOthers.refl s
    · refine .after (t := if fenceAcq k then acquire s x.core sc else s) ?_ (keeps_done _)
      split
      · exact .acquire ..
      · exact .refl s

theorem keeps_wdefBody : (wdefBody c x v s).KeepsOthers x.core x.slot s := by
  unfold wdefBody
  dsimp only
  split
  · exact keeps_done s
  · split
    · trivial
    · split
      · next h => exact .touch h
      · split
        · exact KeepsOthers.refl s
        · split
          · exact .consume ..
          · split
            · trivial
            · split
              · exact keeps_done s
              · exact .setWin ..

theorem keeps_wdropBody : (wdropBody c x s).KeepsOthers x.core x.slot s := by
  unfold wdropBody
  dsimp only
  split
  · exact keeps_done s
  · split
    · exact KeepsOthers.refl s
    · split
      · exact keeps_done s
      · exact .setWin ..

theorem keeps_waitAcquire {core slot : Nat} (d : Nat) (ls : List WaitLane) : KeepsOthers core slot s (waitAcquire s d ls) := by
  unfold waitAcquire
  split
  · exact .acquire ..
  · exact .refl s

theorem keeps_waitBody (isTry : Bool) (cmp : WCmp) : (waitBody isTry c cmp x v s).KeepsOthers x.core x.slot s := by
  unfold waitBody
  dsimp only
  split
  · trivial
  · split
    · trivial
    · next h => exact .transLanes_wait h
    · next s1 h =>
      refine .after (.transLanes_ok h) ?_
      split
      · next ht => exact .touch ht
      · split
        · exact .refuse ..
        · split
          · refine KeepsOthers.trans (.trans ?_ (keeps_waitAcquire ..)) (.modGroup_self _ _)
            split
            · exact .consume ..
            · exact .refl _
          · refine KeepsOthers.trans ?_ (.blockEntry ..)
            split
            · exact .consume ..
            · exact .refl _

/-! ## Holdings -/

theorem keeps_holdBody (op : HoldOp) (align : Nat) (rel : Bool) {k : Ctx → LaneAcc → SbEntry → State → Res}
    (hk : ∀ a e t, (k x a e t).KeepsOthers x.core x.slot t) : (holdBody op align rel k x v s).KeepsOthers x.core x.slot s := by
  unfold holdBody
  split
  · exact keeps_done s
  · split
    · trivial
    · next h => exact .transLanes_wait h
    · next h =>
      refine .after (.transLanes_ok h) ?_
      split
      · exact keeps_done _
      · split
        · exact KeepsOthers.refl _
        · split
          · exact KeepsOthers.refl _
          · exact hk ..

theorem keeps_holdSend (op : HoldOp) (align : Nat) (rel : Bool) : (holdSend op align rel x v s).KeepsOthers x.core x.slot s :=
  keeps_holdBody x v s op align rel fun _ _ _ => KeepsOthers.emit ..

theorem keeps_holdAsk (op : HoldOp) (align : Nat) (acq : Bool) (pred : Option Nat) (ty : Ty) :
    (holdAsk c op align acq pred ty x v s).KeepsOthers x.core x.slot s :=
  keeps_holdBody x v s op align false fun _ _ _ => keeps_sendOff ..

theorem keeps_holdBlock (op : HoldOp) (align : Nat) (w : Ctx → LaneAcc → Wait) : (holdBlock c op align w x v s).KeepsOthers x.core x.slot s :=
  keeps_holdBody x v s op align false fun _ _ _ => (KeepsOthers.emit ..).trans (.blockEntry ..)

theorem keeps_heirBody (k : HKind) (dflt : Bool) : (heirBody c k dflt x v s).KeepsOthers x.core x.slot s := by
  unfold heirBody
  dsimp only
  split
  · trivial
  · split
    · refine .after (t := if x.act = 0 then s else _) ?_ (keeps_done _)
      split
      · exact .refl s
      · exact .modGroup_self s _
    · exact keeps_holdSend ..

/-! ## Barriers and lattices -/

theorem keeps_barBody (level : Nat) : (barBody level x v s).KeepsOthers x.core x.slot s := by
  unfold barBody
  dsimp only
  split
  · trivial
  · split
    · trivial
    · split
      · exact .shadowOffer ..
      · split
        · exact (KeepsOthers.modNode ..).trans (.acquire ..)
        · split
          · exact KeepsOthers.refl s
          · split
            · exact KeepsOthers.refl s
            · split
              · trivial
              · split
                · exact KeepsOthers.refl s
                · exact .consume ..
                · next h =>
                  refine .after (.matchShadow h) ?_
                  split
                  · exact (KeepsOthers.modNode ..).trans (.acquire ..)
                  · exact .modNode ..

theorem keeps_sendLabels {core slot : Nat} (n : Node) (d : Nat) (g : Group) : KeepsOthers core slot s (sendLabels s n d g) := by
  unfold sendLabels
  dsimp only
  refine .trans (.foldl (fun t q => ?_) _ s) (.foldl (fun t q => .foldl (fun u k => ?_) _ t) _ _)
  · exact .sendPacket ..
  · exact .sendPacket ..

theorem keeps_stepBody : (stepBody x s).KeepsOthers x.core x.slot s := by
  unfold stepBody
  dsimp only
  split
  · trivial
  · split
    · exact (KeepsOthers.shadowOffer ..).trans (.modGroup_self _ _)
    · split
      · exact .meetStop ..
      · exact .consume ..
      · split
        · exact .markHeld ..
        · split
          · exact KeepsOthers.refl s
          · exact .consume ..
          · next h =>
            refine .after (.matchShadow h) ?_
            exact (KeepsOthers.modGroup_self _ (published x.node.la)).trans
              (((KeepsOthers.modNode ..).trans (.modNode ..)).trans (keeps_sendLabels ..))

theorem keeps_lqryBody : (lqryBody c x s).KeepsOthers x.core x.slot s := by
  unfold lqryBody
  split
  · trivial
  · split
    · trivial
    · exact keeps_compute ..

/-! ## Messages -/

theorem keeps_mqcfBody : (mqcfBody c x v s).KeepsOthers x.core x.slot s := by
  unfold mqcfBody
  dsimp only
  split
  · exact keeps_done s
  · split
    · trivial
    · split
      · trivial
      · exact .modGroup_self s _

theorem keeps_sendBody (port : Nat) : (sendBody port x v s).KeepsOthers x.core x.slot s := by
  unfold sendBody
  dsimp only
  split
  · exact keeps_done s
  · split
    · trivial
    · split
      · trivial
      · exact KeepsOthers.refl s
      · split
        · exact (KeepsOthers.shadowOffer ..).trans (.modGroup_self _ _)
        · split
          · exact KeepsOthers.refl s
          · exact .consume ..
          · next h =>
            split
            · exact ((KeepsOthers.matchShadow h).trans (.emit ..)).trans (.modGroup_self _ _)
            · exact KeepsOthers.refl s

/-! ## The matrix engine and tile registers -/

theorem keeps_postReq (op : MemOp) (r : Word → MReq) (declared : Option WFmt) : (postReq x c op r declared s).KeepsOthers x.core x.slot s := by
  unfold postReq
  dsimp only
  split
  · exact ((KeepsOthers.shadowOffer ..).trans (.modGroup_self _ _)).trans (.writeDst ..)
  · split
    · exact KeepsOthers.refl s
    · split
      · exact KeepsOthers.refl s
      · exact .consume ..
      · next s1 h =>
        refine .after (.matchShadow h) ?_
        refine KeepsOthers.trans (KeepsOthers.trans ?_ ((KeepsOthers.modGroup_self _ _).trans (.writeDst ..))) (.post ..)
        split
        · refine (KeepsOthers.modCluster ..).trans (.modCore_slots _ _ ?_)
          rfl
        · exact .modCluster ..

theorem keeps_mldwBody (wf : WFmt) : (mldwBody c wf x v s).KeepsOthers x.core x.slot s := by
  unfold mldwBody
  dsimp only
  split
  · trivial
  · split
    · trivial
    · exact keeps_postReq ..

theorem keeps_mpassBody (wf af : WFmt) : (mpassBody c wf af x v s).KeepsOthers x.core x.slot s := by
  unfold mpassBody
  dsimp only
  split
  · trivial
  · split
    · trivial
    · split
      · exact KeepsOthers.refl s
      · exact keeps_postReq ..

theorem slots_foldl {α : Type} {f : Core → α → Core} (h : ∀ k a, (f k a).slots = k.slots) (l : List α) (k : Core) : (l.foldl f k).slots = k.slots := by
  induction l generalizing k with
  | nil => rfl
  | cons a t ih => exact (ih _).trans (h k a)

theorem accPut_slots (k : Core) (key : Nat) (a : BitVec 4096) (b : BitVec 128) : (accPut k key a b).slots = k.slots := by unfold accPut; rfl

theorem keeps_zclrBody : (zclrBody c x s).KeepsOthers x.core x.slot s := by
  unfold zclrBody
  dsimp only
  split
  · trivial
  · split
    · exact keeps_done s
    · split
      · exact KeepsOthers.refl s
      · exact .modCore_slots s _ (slots_foldl (fun k key => accPut_slots k key 0 0) _ _)

theorem keeps_zmovBody : (zmovBody c x s).KeepsOthers x.core x.slot s := by
  unfold zmovBody
  dsimp only
  split
  · exact KeepsOthers.refl s
  · exact (KeepsOthers.writeDst ..).trans (keeps_consume_if ..)

theorem keeps_tileTaken (z rows : Nat) (l : List Row64) (left : List LvEnt) : KeepsOthers x.core x.slot s (tileTaken x z rows l left s) := by
  unfold tileTaken
  split
  · exact .modGroup_self s _
  · dsimp only
    refine KeepsOthers.trans (t := if x.g.shadow == .leader then _ else s) ?_ (keeps_consume_if ..)
    split
    · exact .foldl (fun t r => .lvPush ..) l s
    · exact .refl s

theorem keeps_zstBody (t loc : Bool) (rm : Rm) (ns : Bool) (ty : Ty) : (zstBody c t loc rm ns ty x v s).KeepsOthers x.core x.slot s := by
  unfold zstBody
  dsimp only
  split
  · trivial
  · split
    · split
      · trivial
      · split
        · next h => exact .touch h
        · split
          · exact KeepsOthers.refl s
          · split
            · exact KeepsOthers.refl s
            · split
              · exact keeps_tileTaken ..
              · exact (keeps_tileTaken ..).trans (.localPut ..)
    · split
      · trivial
      · next h => exact .transLanes_wait h
      · next h =>
        refine .after (.transLanes_ok h) ?_
        split
        · exact KeepsOthers.refl _
        · split
          · exact KeepsOthers.refl _
          · split
            · exact KeepsOthers.refl _
            · exact (keeps_tileTaken ..).trans (.emit ..)

theorem tileLoad_slots (key : Nat) (ty : Ty) (l : List (Nat × DWord)) (k : Core) : (tileLoad key ty l k).slots = k.slots := by
  unfold tileLoad
  exact accPut_slots ..

theorem keeps_loadRow {core slot : Nat} (ty : Ty) (z : Nat) (p : Nat × List LaneAcc) : KeepsOthers core slot s (loadRow x ty z s p) := by
  unfold loadRow
  dsimp only
  split
  · exact .modCore_slots s _ (tileLoad_slots ..)
  · exact ((KeepsOthers.freshReq s).trans (.addPend ..)).trans (.sendReads ..)

theorem keeps_zldBody (t loc : Bool) (ty : Ty) : (zldBody c t loc ty x v s).KeepsOthers x.core x.slot s := by
  unfold zldBody
  dsimp only
  split
  · trivial
  · split
    · exact keeps_done s
    · split
      · split
        · trivial
        · split
          · next h => exact .touch h
          · split
            · exact KeepsOthers.refl s
            · exact .modCore_slots s _ (slots_foldl (fun _ _ => tileLoad_slots ..) _ _)
      · split
        · trivial
        · next h => exact .transLanes_wait h
        · next h =>
          refine .after (.transLanes_ok h) ?_
          split
          · exact KeepsOthers.refl _
          · split
            · exact KeepsOthers.refl _
            · exact .foldl (fun u i => keeps_loadRow x u ty _ _) _ _

theorem keeps_mstatBody : (mstatBody c x s).KeepsOthers x.core x.slot s := by
  unfold mstatBody
  dsimp only
  split
  · trivial
  · exact keeps_compute ..

theorem keeps_mwaitBody : (mwaitBody x v s).KeepsOthers x.core x.slot s := by
  unfold mwaitBody
  split
  · exact keeps_done s
  · split
    · exact .acquire ..
    · exact KeepsOthers.refl s

/-! ## Posts -/

theorem keeps_postOnly (op : MemOp) (va : DWord) : (postOnly op va x s).KeepsOthers x.core x.slot s := by
  unfold postOnly
  split
  · exact KeepsOthers.refl s
  · exact .emit ..

theorem keeps_redtBody (rm : Rm) (ty : Ty) : (redtBody rm ty x v s).KeepsOthers x.core x.slot s := by
  unfold redtBody
  dsimp only
  split
  · exact keeps_done s
  · split
    · trivial
    · split
      · trivial
      · split
        · trivial
        · split
          · exact KeepsOthers.refl s
          · split
            · exact KeepsOthers.refl s
            · exact .emit ..

theorem keeps_bgidBody (mcast : Bool) : (bgidBody c mcast x v s).KeepsOthers x.core x.slot s := by
  unfold bgidBody
  dsimp only
  split
  · exact keeps_done s
  · split
    · trivial
    · split
      · trivial
      · split
        · exact KeepsOthers.refl s
        · exact keeps_sendOff ..

theorem keeps_launchBody : (launchBody c x v s).KeepsOthers x.core x.slot s := by
  unfold launchBody
  dsimp only
  split
  · exact keeps_done s
  · split
    · trivial
    · split
      · exact KeepsOthers.refl s
      · split
        · exact KeepsOthers.refl s
        · exact keeps_sendOff ..

theorem keeps_bcopyPost (d ctl rbase : DWord) (rlog : Nat) : (bcopyPost c d ctl rbase rlog x s).KeepsOthers x.core x.slot s := by
  unfold bcopyPost
  dsimp only
  split
  · trivial
  · split
    · exact KeepsOthers.refl s
    · split
      · exact .emit ..
      · exact keeps_sendOff ..

/-- What reading a control block keeps, however it ends. -/
def CtlRead.KeepsOthers (core slot : Nat) (s : State) : CtlRead → Prop
  | .ok _ _ t | .wait t | .waitGroup t | .refused t => Machine.KeepsOthers core slot s t
  | .trap _ _ => True

theorem keeps_readCtl (a : DWord) : (readCtl s x a).KeepsOthers x.core x.slot s := by
  unfold readCtl
  split
  · trivial
  · next h => exact .transLanes_wait h
  · next h =>
    have ht := KeepsOthers.transLanes_ok (core := x.core) (slot := x.slot) h
    split
    · exact ht
    · split
      · exact ht
      · dsimp only
        split
        · exact ht
        · split
          · exact ht
          · split
            · exact ht.trans (.refuse ..)
            · exact ht.trans (keeps_consume_if ..)

theorem keeps_bcopyBody : (bcopyBody c x v s).KeepsOthers x.core x.slot s := by
  unfold bcopyBody
  dsimp only
  split
  · exact keeps_done s
  · split
    · trivial
    · split
      · trivial
      · split
        · split
          · exact KeepsOthers.refl s
          · next e t _ => exact .after (.modGroup_self s _) (keeps_bcopyPost c { x with g := { x.g with lvq := t } } _ _ _ _ _)
        · have hr := keeps_readCtl x s (lane64 v.z 0)
          split
          · trivial
          · next h => rw [h] at hr; exact hr
          · next h => rw [h] at hr; exact hr
          · next h => rw [h] at hr; exact hr
          · next h =>
            rw [h] at hr
            refine .after hr ?_
            split
            · exact KeepsOthers.refl _
            · exact .after (.lvPush ..) (keeps_bcopyPost ..)

theorem keeps_rdclkBody : (rdclkBody c x s).KeepsOthers x.core x.slot s := by
  unfold rdclkBody
  dsimp only
  split
  · exact keeps_done s
  · refine .after (t := modCore { s with free := s.free + 1 } x.core (passCycles (Config.freeCycles s.free))) ?_ (keeps_compute ..)
    exact KeepsOthers.trans (t := { s with free := s.free + 1 }) (.of_cores rfl) (.passCycles ..)

end

/-! ## Every encoded instruction -/

theorem bodyKeeps_mov (c : Enc) (ty : Ty) : BodyKeeps (.mov c ty) c := by
  refine ⟨_, exec_mov _ _, fun x v s => ?_⟩
  split
  · exact keeps_sendBody ..
  · exact keeps_compute ..

theorem bodyKeeps_bsel (c : Enc) : BodyKeeps (.bsel c) c := by
  refine ⟨_, exec_bsel _, fun x v s => ?_⟩
  split
  · trivial
  · exact keeps_compute ..

theorem bodyKeeps_rds (c : Enc) : BodyKeeps (.rds c) c := by
  refine ⟨_, exec_rds _, fun x v s => ?_⟩
  split
  · trivial
  · exact keeps_compute ..

theorem bodyKeeps_mqst (c : Enc) : BodyKeeps (.mqst c) c := by
  refine ⟨_, exec_mqst _, fun x v s => ?_⟩
  dsimp only
  split
  · trivial
  · exact keeps_compute ..

theorem bodyKeeps_l1inv (c : Enc) : BodyKeeps (.l1inv c) c := by
  refine ⟨_, exec_l1inv _, fun x v s => ?_⟩
  refine .after (t := if x.act = 0 then s else _) ?_ (keeps_done _)
  split
  · exact .refl s
  · exact .modCore_slots s _ rfl

theorem bodyKeeps_bfence (c : Enc) : BodyKeeps (.bfence c) c := by
  refine ⟨_, exec_bfence _, fun x v s => ?_⟩
  dsimp only
  split
  · exact keeps_done s
  · split
    · trivial
    · exact keeps_postOnly ..

theorem bodyKeeps_bgfree (c : Enc) : BodyKeeps (.bgfree c) c := by
  refine ⟨_, exec_bgfree _, fun x v s => ?_⟩
  dsimp only
  split
  · exact keeps_done s
  · split
    · trivial
    · exact keeps_postOnly ..

/-- The own part of an encoded instruction that is not one of the plain ones. -/
theorem bodyKeeps_of_notPlain {i : Instr} {c : Enc} (h : encOf i = some c) (hp : ((plainEnc i).isSome || (encOf i).isNone) = false) :
    BodyKeeps i c := by
  cases i with
  | mov d ty => cases h; exact bodyKeeps_mov ..
  | bsel d => cases h; exact bodyKeeps_bsel _
  | rds d => cases h; exact bodyKeeps_rds _
  | mqst d => cases h; exact bodyKeeps_mqst _
  | l1inv d => cases h; exact bodyKeeps_l1inv _
  | bfence d => cases h; exact bodyKeeps_bfence _
  | bgfree d => cases h; exact bodyKeeps_bgfree _
  | bra c => cases h; exact ⟨_, exec_bra _, fun _ _ _ => KeepsOthers.replaceEntry ..⟩
  | bri c => cases h; exact ⟨_, exec_bri _, fun _ _ _ => KeepsOthers.replaceEntry ..⟩
  | call c => cases h; exact ⟨_, exec_call _, fun _ _ _ => (KeepsOthers.writeDst ..).trans (.replaceEntry ..)⟩
  | callInd c => cases h; exact ⟨_, exec_callInd _, fun _ _ _ => (KeepsOthers.writeDst ..).trans (.replaceEntry ..)⟩
  | ret c => cases h; exact ⟨_, exec_ret _, fun _ _ _ => KeepsOthers.replaceEntry ..⟩
  | exit c => cases h; exact ⟨_, exec_exit _, fun _ _ _ => keeps_exitBody ..⟩
  | region c => cases h; exact ⟨_, exec_region _, fun _ _ _ => KeepsOthers.of_kept (kept_charged ..)⟩
  | trap c => cases h; exact ⟨_, exec_trap _, fun _ _ _ => keeps_trapBody ..⟩
  | bkpt c => cases h; exact ⟨_, exec_bkpt _, fun _ _ _ => keeps_trapBody ..⟩
  | sleep c => cases h; exact ⟨_, exec_sleep _, fun _ _ _ => keeps_sleep ..⟩
  | yield c => cases h; exact ⟨_, exec_yield _, fun _ _ _ => (KeepsOthers.replaceEntry ..).trans (.modGroup_self _ _)⟩
  | lsync c => cases h; exact ⟨_, exec_lsync _, fun _ _ _ => keeps_lsyncBody ..⟩
  | ld c k ty => cases h; exact ⟨_, exec_ld _ _ _, fun _ _ _ => keeps_ldBody ..⟩
  | ldl c ty => cases h; exact ⟨_, exec_ldl _ _, fun _ _ _ => keeps_ldlBody ..⟩
  | st c ev ty => cases h; exact ⟨_, exec_st _ _ _, fun _ _ _ => keeps_stBody ..⟩
  | stl c ty => cases h; exact ⟨_, exec_stl _ _, fun _ _ _ => keeps_stlBody ..⟩
  | pf c l1 => cases h; exact ⟨_, exec_pf _ _, fun _ _ _ => keeps_done _⟩
  | atom c op ord ty => cases h; exact ⟨_, exec_atom _ _ _ _, fun _ _ _ => keeps_atomBody ..⟩
  | atoml c op ord ty => cases h; exact ⟨_, exec_atoml _ _ _ _, fun _ _ _ => keeps_atomlBody ..⟩
  | red c op ord ty => cases h; exact ⟨_, exec_red _ _ _ _, fun _ _ _ => keeps_redBody ..⟩
  | fence c k sc => cases h; exact ⟨_, exec_fence _ _ _, fun _ _ _ => keeps_fenceBody ..⟩
  | wdef c => cases h; exact ⟨_, exec_wdef _, fun _ _ _ => keeps_wdefBody ..⟩
  | wdrop c => cases h; exact ⟨_, exec_wdrop _, fun _ _ _ => keeps_wdropBody ..⟩
  | wstat c => cases h; exact ⟨_, exec_wstat _, fun _ _ _ => keeps_compute ..⟩
  | waitw c cmp => cases h; exact ⟨_, exec_waitw _ _, fun _ _ _ => keeps_waitBody ..⟩
  | tryw c cmp => cases h; exact ⟨_, exec_tryw _ _, fun _ _ _ => keeps_waitBody ..⟩
  | bar c level => cases h; exact ⟨_, exec_bar _ _, fun _ _ _ => keeps_barBody ..⟩
  | lock c => cases h; exact ⟨_, exec_lock _, fun _ _ _ => keeps_holdBlock ..⟩
  | tlock c => cases h; exact ⟨_, exec_tlock _, fun _ _ _ => keeps_holdAsk ..⟩
  | unlock c => cases h; exact ⟨_, exec_unlock _, fun _ _ _ => keeps_holdSend ..⟩
  | heir c k dflt => cases h; exact ⟨_, exec_heir _ _ _, fun _ _ _ => keeps_heirBody ..⟩
  | prom c => cases h; exact ⟨_, exec_prom _, fun _ _ _ => keeps_holdSend ..⟩
  | fulf c brk => cases h; exact ⟨_, exec_fulf _ _, fun _ _ _ => keeps_holdSend ..⟩
  | pwait c => cases h; exact ⟨_, exec_pwait _, fun _ _ _ => keeps_holdBlock ..⟩
  | claim c => cases h; exact ⟨_, exec_claim _, fun _ _ _ => keeps_holdAsk ..⟩
  | rels c => cases h; exact ⟨_, exec_rels _, fun _ _ _ => keeps_holdSend ..⟩
  | holdq c => cases h; exact ⟨_, exec_holdq _, fun _ _ _ => keeps_holdAsk ..⟩
  | step c => cases h; exact ⟨_, exec_step _, fun _ _ _ => keeps_stepBody ..⟩
  | lqry c => cases h; exact ⟨_, exec_lqry _, fun _ _ _ => keeps_lqryBody ..⟩
  | mqcf c => cases h; exact ⟨_, exec_mqcf _, fun _ _ _ => keeps_mqcfBody ..⟩
  | mldw c wf => cases h; exact ⟨_, exec_mldw _ _, fun _ _ _ => keeps_mldwBody ..⟩
  | mpass c wf af => cases h; exact ⟨_, exec_mpass _ _ _, fun _ _ _ => keeps_mpassBody ..⟩
  | zclr c => cases h; exact ⟨_, exec_zclr _, fun _ _ _ => keeps_zclrBody ..⟩
  | zmov c => cases h; exact ⟨_, exec_zmov _, fun _ _ _ => keeps_zmovBody ..⟩
  | zst c t loc rm ns ty => cases h; exact ⟨_, exec_zst _ _ _ _ _ _, fun _ _ _ => keeps_zstBody ..⟩
  | zld c t loc ty => cases h; exact ⟨_, exec_zld _ _ _ _, fun _ _ _ => keeps_zldBody ..⟩
  | mstat c => cases h; exact ⟨_, exec_mstat _, fun _ _ _ => keeps_mstatBody ..⟩
  | mwait c => cases h; exact ⟨_, exec_mwait _, fun _ _ _ => keeps_mwaitBody ..⟩
  | bop c op rm ty => cases h; exact ⟨_, exec_bop _ _ _ _, fun _ _ _ => keeps_bopBody ..⟩
  | redt c rm ty => cases h; exact ⟨_, exec_redt _ _ _, fun _ _ _ => keeps_redtBody ..⟩
  | bcopy c => cases h; exact ⟨_, exec_bcopy _, fun _ _ _ => keeps_bcopyBody ..⟩
  | bgid c mcast => cases h; exact ⟨_, exec_bgid _ _, fun _ _ _ => keeps_bgidBody ..⟩
  | launch c => cases h; exact ⟨_, exec_launch _, fun _ _ _ => keeps_launchBody ..⟩
  | rdclk c => cases h; exact ⟨_, exec_rdclk _, fun _ _ _ => keeps_rdclkBody ..⟩
  | vote d k => cases k <;> cases hp
  | _ => cases hp

/-- Every encoded instruction is one issue of its entry, with an own part that keeps the other groups' registers. -/
theorem bodyKeeps_of_encOf {i : Instr} {c : Enc} (h : encOf i = some c) : BodyKeeps i c := by
  cases hp : plainEnc i with
  | some d =>
    have hd := endsPlain_of_plainEnc hp
    obtain rfl : d = c := Option.some.inj (hd.1.symm.trans h)
    exact bodyKeeps_of_plain hd
  | none => exact bodyKeeps_of_notPlain h (by rw [hp, h]; rfl)

/-- Settles O8: an issue keeps the other groups' registers in each of its ends, since the own part of every encoded instruction does. -/
theorem otherGroupsKeepRegisters : Obligations.OtherGroupsKeepRegisters := by
  intro i c s x t hi hx ht d j h hd hg
  obtain ⟨body, he, hb⟩ := bodyKeeps_of_encOf hi
  rw [he, issue] at ht
  cases ht
  exact (KeepsOthers.issueState hx fun v => hb x v s).group d j h hd hg

/-! ## The checks of an issue (R43, R52, R53) -/

theorem failedCheckTraps : Says.FailedCheckTraps := by
  intro i c s x k hi hx hb hl hk
  obtain ⟨body, he, -⟩ := bodyKeeps_of_encOf hi
  have ht : issueState i c body s = trapIssue x k 0 s := by
    simp only [issueState, hx, hb, hl, hk, Bool.or_self, Bool.false_eq_true, if_false]
  rw [he, issue, ht, trapIssue]

theorem scoreboardWaits : Says.ScoreboardWaits := by
  intro i c s x hi hx hb
  obtain ⟨body, he, -⟩ := bodyKeeps_of_encOf hi
  have ht : issueState i c body s = holdGroup x s := by
    simp only [issueState, hx, hb, Bool.true_or, if_true]
  rw [he, issue, ht, holdGroup]

/-- Settles O24: an issue looks at the scoreboard and the checks of R52 before anything else. -/
theorem issueChecks : Obligations.IssueChecks := ⟨failedCheckTraps, scoreboardWaits⟩

end Sys2Proof.Machine
end

section
/-! Floating-point instructions and conversions complete with their results (R67, R68, R100 to R112). -/
namespace Sys2Proof.Machine

theorem computes_fp2 {i : Instr} {c : Enc} {t : Ty} {f : Num → Num → Nat} (he : ∀ s, exec i s = fp2 i c t f s) :
    Computes i c false (ofYZ fun a b => enc64 (f (fval t a) (fval t b))) := computes_of_body _ he fun _ _ _ => rfl

theorem computes_fp1 {i : Instr} {c : Enc} {t : Ty} {f : Num → Nat} (he : ∀ s, exec i s = fp1 i c t f s) :
    Computes i c false (ofY fun a => enc64 (f (fval t a))) := computes_of_body _ he fun _ _ _ => rfl

theorem floatInstructionsComplete : Says.FloatComputes := by
  intro i c wide f h
  cases i with
  | fadd c rm t => cases h; exact computes_fp2 (exec_fadd _ _ _)
  | fsub c rm t => cases h; exact computes_fp2 (f := fun a b => numAdd (fmtOf t) rm a (numNeg b)) (exec_fsub _ _ _)
  | fmul c rm t => cases h; exact computes_fp2 (f := fun a b => numRound (fmtOf t) rm (numMulExact a b)) (exec_fmul _ _ _)
  | ffma c rm t => cases h; exact computes_of_body _ (exec_ffma _ _ _) fun _ _ _ => rfl
  | fmin c nan t => cases h; exact computes_lane2 (exec_fmin _ _ _)
  | fmax c nan t => cases h; exact computes_lane2 (exec_fmax _ _ _)
  | fabs c t => cases h; exact computes_lane1 (exec_fabs _ _)
  | fneg c t => cases h; exact computes_lane1 (exec_fneg _ _)
  | fdiv c rm t => cases h; exact computes_fp2 (exec_fdiv _ _ _)
  | fsqrt c rm t => cases h; exact computes_fp1 (exec_fsqrt _ _ _)
  | frcp c rm t => cases h; exact computes_fp1 (exec_frcp _ _ _)
  | frsq c rm t => cases h; exact computes_fp1 (exec_frsq _ _ _)
  | fclass c t => cases h; exact computes_fp1 (f := fun a => 2 ^ classBit (fmtOf t) a) (exec_fclass _ _)
  | frnd c rm t => cases h; exact computes_fp1 (exec_frnd _ _ _)
  | fscl c rm t => cases h; exact computes_lane2 (exec_fscl _ _ _)
  | cvt c rm ns t => cases h; exact computes_lane1 (exec_cvt _ _ _ _)
  | cvtp c rm ns q t => cases h; exact computes_of_body _ (exec_cvtp _ _ _ _ _) fun _ _ _ => rfl
  | cvtx c k t => cases h; exact computes_lane1 (exec_cvtx _ _ _)
  | qb4 c rm => cases h; exact computes_of_body _ (exec_qb4 _ _) fun _ _ _ => rfl
  | _ => cases h

/-- The result of CVTS is none that a shadow takes from its leader (R128): only its sources have effects besides the write. -/
theorem sourced_cvts (x : Ctx) (c : Enc) (ns : Bool) (t : Ty) (left added : List LvEnt) (r : Row64) (s : State) :
    sourced x (.cvts c ns t) c left added r s = commitSources x (rulesOf (.cvts c ns t)) c left added s := rfl

/-- CVTS draws with the call counts as they stand before it counts its own call (R68). -/
theorem stochasticConversion : Says.StochasticConversion := by
  intro c ns t s x v left added h
  refine ⟨_, by rw [exec_cvts, execCvts, issue, issueState_ready _ h], ?_⟩
  rw [← sourced_cvts]
  exact kept_finish_fin ..

/-- Settles O13: each row of the table is what the instruction's own part computes, and CVTS's part counts its lanes' calls besides. -/
theorem floatComputes : Obligations.FloatComputes := ⟨floatInstructionsComplete, stochasticConversion⟩

end Sys2Proof.Machine
end

section
/-! Integer values of strings: packed elements, wrapping, saturation (R54 to R56, R82, R83). -/
namespace Sys2Proof.Machine

/-! ## Elements of a packed string -/

/-- `n` elements of `w` bits put together in order, as `joinElts` does. -/
def eltSum (w : Nat) (f : Nat → Nat) (n : Nat) : Nat := (List.range n).foldl (fun acc k => acc + f k * 2 ^ (w * k)) 0

theorem joinElts_eq_eltSum (t : Ty) (f : Nat → Nat) : joinElts t f = BitVec.ofNat 64 (eltSum (eltShape t).2 f (eltShape t).1) := rfl

theorem eltSum_succ (w : Nat) (f : Nat → Nat) (n : Nat) : eltSum w f (n + 1) = eltSum w f n + f n * 2 ^ (w * n) := by
  simp [eltSum, List.range_succ]

theorem eltSum_lt {w : Nat} {f : Nat → Nat} (hf : ∀ k, f k < 2 ^ w) (n : Nat) : eltSum w f n < 2 ^ (w * n) := by
  induction n with
  | zero => simp [eltSum]
  | succ n ih =>
    calc eltSum w f (n + 1) = eltSum w f n + f n * 2 ^ (w * n) := eltSum_succ w f n
      _ < (f n + 1) * 2 ^ (w * n) := by rw [add_mul, one_mul]; omega
      _ ≤ 2 ^ w * 2 ^ (w * n) := Nat.mul_le_mul_right _ (hf n)
      _ = 2 ^ (w * (n + 1)) := by rw [← pow_add, mul_add, mul_one, add_comm]

/-- No element reaches into another one's bits. -/
theorem eltSum_div_mod {w : Nat} {f : Nat → Nat} (hf : ∀ k, f k < 2 ^ w) {n k : Nat} (hk : k < n) :
    eltSum w f n / 2 ^ (w * k) % 2 ^ w = f k := by
  induction n with
  | zero => omega
  | succ n ih =>
    rw [eltSum_succ]
    by_cases h : k = n
    · rw [h, Nat.add_mul_div_right _ _ (Nat.two_pow_pos _), Nat.div_eq_of_lt (eltSum_lt hf n), Nat.zero_add, Nat.mod_eq_of_lt (hf n)]
    · obtain ⟨d, rfl⟩ : ∃ d, n = k + 1 + d := ⟨n - (k + 1), by omega⟩
      have above : f (k + 1 + d) * 2 ^ (w * (k + 1 + d)) = f (k + 1 + d) * 2 ^ (w * d) * 2 ^ w * 2 ^ (w * k) := by ring
      rw [above, Nat.add_mul_div_right _ _ (Nat.two_pow_pos _), Nat.add_mul_mod_self_right]
      exact ih (by omega)

/-- The elements of every type fit a register string. -/
theorem eltShape_fits (t : Ty) : (eltShape t).2 * (eltShape t).1 ≤ 64 := by cases t <;> decide

theorem eltShape_width_pos (t : Ty) : 0 < (eltShape t).2 := by cases t <;> decide

/-! ## Values and strings of one width -/

/-- The least and the greatest value of a `w`-bit string (R54). -/
def intMin (signed : Bool) (w : Nat) : Int := if signed then -(2 ^ (w - 1)) else 0
/-- See `intMin`. -/
def intMax (signed : Bool) (w : Nat) : Int := if signed then 2 ^ (w - 1) - 1 else 2 ^ w - 1

theorem eltMin_eq (t : Ty) : eltMin t = intMin (tySigned t) (eltShape t).2 := rfl
theorem eltMax_eq (t : Ty) : eltMax t = intMax (tySigned t) (eltShape t).2 := rfl

/-- A `w`-bit type has `2 ^ w` values. -/
theorem intMax_eq (sg : Bool) {w : Nat} (hw : 0 < w) : intMax sg w = intMin sg w + 2 ^ w - 1 := by
  cases sg with
  | false => simp [intMin, intMax]
  | true => simp only [intMin, intMax, if_true, ← mul_pow_sub_one hw.ne' (2 : Int)]; ring

theorem intMin_le_intMax (sg : Bool) {w : Nat} (hw : 0 < w) : intMin sg w ≤ intMax sg w := by
  have hpos : (0 : Int) < 2 ^ w := by positivity
  rw [intMax_eq sg hw]
  omega

theorem wrapInt_cast (x : Int) (w : Nat) : (wrapInt x w : Int) = x % 2 ^ w := Int.toNat_of_nonneg (Int.emod_nonneg _ (by positivity))

theorem wrapInt_lt (x : Int) (w : Nat) : wrapInt x w < 2 ^ w := by
  have h := Int.emod_lt_of_pos x (show (0 : Int) < 2 ^ w by positivity)
  rw [← wrapInt_cast] at h
  exact_mod_cast h

theorem satInt_eq (sg : Bool) {w : Nat} (hw : 0 < w) (x : Int) :
    satInt sg w x = wrapInt (max (intMin sg w) (min (intMax sg w) x)) w := by
  have h := intMin_le_intMax sg hw
  change wrapInt (if x < intMin sg w then intMin sg w else if intMax sg w < x then intMax sg w else x) w = _
  congr 1
  omega

theorem satInt_lt (sg : Bool) (w : Nat) (x : Int) : satInt sg w x < 2 ^ w := wrapInt_lt _ w

/-- A string and its value agree modulo `2 ^ w`, whichever way it is read. -/
theorem intVal_emod (sg : Bool) (w b : Nat) : intVal sg w b % 2 ^ w = (b : Int) % 2 ^ w := by
  dsimp only [intVal]
  split
  · rw [Int.sub_emod_right]; push_cast; exact Int.emod_emod _ _
  · push_cast; exact Int.emod_emod _ _

theorem intVal_bounds (sg : Bool) {w : Nat} (hw : 0 < w) (b : Nat) : intMin sg w ≤ intVal sg w b ∧ intVal sg w b ≤ intMax sg w := by
  have hlt := Nat.mod_lt b (Nat.two_pow_pos w)
  have hhalf := mul_pow_sub_one hw.ne' (2 : Int)
  zify at hlt
  unfold intVal intMin intMax
  cases sg with
  | false => simp only [Bool.false_and, Bool.false_eq_true, if_false]; push_cast; omega
  | true =>
    simp only [Bool.true_and, decide_eq_true_eq, if_true]
    split
    · next h => zify at h; push_cast; omega
    · next h => zify at h; push_cast; omega

/-- A value of the type is the value of its string: no other value of the type agrees with it modulo `2 ^ w`. -/
theorem intVal_wrapInt {sg : Bool} {w : Nat} (hw : 0 < w) {x : Int} (h1 : intMin sg w ≤ x) (h2 : x ≤ intMax sg w) :
    intVal sg w (wrapInt x w) = x := by
  obtain ⟨h3, h4⟩ := intVal_bounds sg hw (wrapInt x w)
  have hsame : intVal sg w (wrapInt x w) % 2 ^ w = x % 2 ^ w := by rw [intVal_emod, wrapInt_cast, Int.emod_emod]
  rw [intMax_eq sg hw] at h2 h4
  have hdvd : (2 : Int) ^ w ∣ intVal sg w (wrapInt x w) - x := Int.dvd_of_emod_eq_zero (Int.emod_eq_emod_iff_emod_sub_eq_zero.1 hsame)
  have := Int.eq_zero_of_abs_lt_dvd hdvd (by rw [abs_lt]; omega)
  omega

/-! ## Elements of a result -/

theorem narrow_lt (sat : Bool) (t : Ty) (x : Int) : narrow sat t x < 2 ^ (eltShape t).2 := by
  cases sat with
  | false => exact wrapInt_lt _ _
  | true => exact satInt_lt _ _ _

/-- What an element of joined strings reads as. -/
theorem eltVal_joinElts (t : Ty) {f : Nat → Nat} (hf : ∀ k, f k < 2 ^ (eltShape t).2) {k : Nat} (hk : k < (eltShape t).1) :
    eltVal t (joinElts t f) k = intVal (tySigned t) (eltShape t).2 (f k) := by
  have hlt : eltSum (eltShape t).2 f (eltShape t).1 < 2 ^ 64 :=
    (eltSum_lt hf _).trans_le (Nat.pow_le_pow_right (by decide) (eltShape_fits t))
  have hstring : (joinElts t f).toNat / 2 ^ ((eltShape t).2 * k) % 2 ^ (eltShape t).2 = f k := by
    rw [joinElts_eq_eltSum, BitVec.toNat_ofNat, Nat.mod_eq_of_lt hlt, eltSum_div_mod hf hk]
  rw [eltVal, intVal, hstring, intVal, Nat.mod_eq_of_lt (hf k)]

theorem eltVal_eltOp (sat : Bool) (t : Ty) (f : Int → Int → Int) (a b : DWord) {k : Nat} (hk : k < (eltShape t).1) :
    eltVal t (eltOp sat t f a b) k = intVal (tySigned t) (eltShape t).2 (narrow sat t (f (eltVal t a k) (eltVal t b k))) :=
  eltVal_joinElts t (fun _ => narrow_lt sat t _) hk

/-- With SAT an element is the exact result clamped to the type's range (R55). -/
theorem eltVal_eltOp_sat (t : Ty) (f : Int → Int → Int) (a b : DWord) {k : Nat} (hk : k < (eltShape t).1) :
    eltVal t (eltOp true t f a b) k = max (eltMin t) (min (eltMax t) (f (eltVal t a k) (eltVal t b k))) := by
  have hw := eltShape_width_pos t
  have h := intMin_le_intMax (tySigned t) hw
  rw [eltVal_eltOp true t f a b hk, narrow, if_pos rfl, satInt_eq _ hw, eltMin_eq, eltMax_eq]
  exact intVal_wrapInt hw (le_max_left _ _) (max_le h (min_le_left _ _))

/-- Without SAT an element is congruent to the exact result (R55). -/
theorem eltVal_eltOp_wrap (t : Ty) (f : Int → Int → Int) (a b : DWord) {k : Nat} (hk : k < (eltShape t).1) :
    (f (eltVal t a k) (eltVal t b k) - eltVal t (eltOp false t f a b) k) % 2 ^ (eltShape t).2 = 0 := by
  rw [eltVal_eltOp false t f a b hk]
  refine Int.emod_eq_emod_iff_emod_sub_eq_zero.1 ?_
  rw [intVal_emod, narrow, if_neg Bool.false_ne_true, wrapInt_cast, Int.emod_emod]

theorem eltVal_bounds (t : Ty) (a : DWord) (k : Nat) : eltMin t ≤ eltVal t a k ∧ eltVal t a k ≤ eltMax t :=
  intVal_bounds _ (eltShape_width_pos t) _

/-! ## Types of one element: the arithmetic of bit vectors -/

theorem ofInt_intVal (sg : Bool) (w b : Nat) : BitVec.ofInt w (intVal sg w b) = BitVec.ofNat w b := by
  apply BitVec.eq_of_toNat_eq
  have h := intVal_emod sg w b
  rw [BitVec.toNat_ofInt, BitVec.toNat_ofNat]
  push_cast
  rw [h]
  exact_mod_cast Int.toNat_natCast _

/-- An operand's value stands for the bits of its type's width. -/
theorem ofInt_opVal (t : Ty) (a : DWord) : BitVec.ofInt (tyWidth t) (opVal t a) = a.setWidth (tyWidth t) := by
  rw [opVal, ofInt_intVal, BitVec.ofNat_toNat]

theorem wrapTo_eq_setWidth (t : Ty) (x : Int) : wrapTo t x = (BitVec.ofInt (tyWidth t) x).setWidth 64 := by
  rw [wrapTo, wrapInt, ← BitVec.ofNat_toNat, BitVec.toNat_ofInt]
  norm_cast

/-- An operation on a type of one element wraps its whole result. -/
theorem eltOp_whole {t : Ty} (h : eltShape t = (1, tyWidth t)) (f : Int → Int → Int) (a b : DWord) :
    eltOp false t f a b = wrapTo t (f (opVal t a) (opVal t b)) := by
  have hval : ∀ a, eltVal t a 0 = opVal t a := fun a => by simp [eltVal, opVal, h]
  rw [eltOp, joinElts_eq_eltSum, h, eltSum_succ, hval, hval, narrow, h]
  simp [eltSum, wrapTo]

theorem wrapTo_add (t : Ty) (a b : DWord) :
    wrapTo t (opVal t a + opVal t b) = (a.setWidth (tyWidth t) + b.setWidth (tyWidth t)).setWidth 64 := by
  rw [wrapTo_eq_setWidth, BitVec.ofInt_add, ofInt_opVal, ofInt_opVal]

theorem wrapTo_sub (t : Ty) (a b : DWord) :
    wrapTo t (opVal t a - opVal t b) = (a.setWidth (tyWidth t) - b.setWidth (tyWidth t)).setWidth 64 := by
  rw [wrapTo_eq_setWidth, Int.sub_eq_add_neg, BitVec.ofInt_add, BitVec.ofInt_neg, ofInt_opVal, ofInt_opVal, ← BitVec.sub_eq_add_neg]

theorem wrapTo_mul (t : Ty) (a b : DWord) :
    wrapTo t (opVal t a * opVal t b) = (a.setWidth (tyWidth t) * b.setWidth (tyWidth t)).setWidth 64 := by
  rw [wrapTo_eq_setWidth, BitVec.ofInt_mul, ofInt_opVal, ofInt_opVal]

/-- The arithmetic of a type of one element, whichever way it is read, is that of its bit vectors (R55, R82, R83). -/
theorem arithmetic_whole {t : Ty} {w : Nat} (h : eltShape t = (1, tyWidth t)) (hw : tyWidth t = w) (a b : DWord) :
    eltOp false t (· + ·) a b = (a.setWidth w + b.setWidth w).setWidth 64 ∧
    eltOp false t (· - ·) a b = (a.setWidth w - b.setWidth w).setWidth 64 ∧
    wrapTo t (opVal t a * opVal t b) = (a.setWidth w * b.setWidth w).setWidth 64 := by
  subst hw
  exact ⟨(eltOp_whole h _ a b).trans (wrapTo_add t a b), (eltOp_whole h _ a b).trans (wrapTo_sub t a b), wrapTo_mul t a b⟩

theorem arithmetic_word (t : Ty) (a b : DWord) (ht : t = .i32 ∨ t = .n32) :
    eltOp false t (· + ·) a b = (a.setWidth 32 + b.setWidth 32 : Word).setWidth 64 ∧
    eltOp false t (· - ·) a b = (a.setWidth 32 - b.setWidth 32 : Word).setWidth 64 ∧
    wrapTo t (opVal t a * opVal t b) = (a.setWidth 32 * b.setWidth 32 : Word).setWidth 64 := by
  obtain rfl | rfl := ht <;> exact arithmetic_whole rfl rfl a b

theorem arithmetic_dword (t : Ty) (a b : DWord) (ht : t = .i64 ∨ t = .n64) :
    eltOp false t (· + ·) a b = a + b ∧ eltOp false t (· - ·) a b = a - b ∧ wrapTo t (opVal t a * opVal t b) = a * b := by
  have h : eltShape t = (1, tyWidth t) ∧ tyWidth t = 64 := by obtain rfl | rfl := ht <;> exact ⟨rfl, rfl⟩
  simpa only [BitVec.setWidth_eq] using arithmetic_whole h.1 h.2 a b

/-- Settles O12: elements do not overlap, an element's string has one value in the type's range, and a string's value stands for the
string modulo the power of two of its width. -/
theorem integerValues : Obligations.IntegerValues :=
  ⟨fun t f a b _ _ hk => eltVal_eltOp_sat t f a b hk, fun t f a b _ _ hk => eltVal_eltOp_wrap t f a b hk,
   fun t _ _ _ k _ _ => eltVal_bounds t _ k, arithmetic_word, arithmetic_dword⟩

end Sys2Proof.Machine
end

section
/-! Lane moves, status reads and predicate writes complete with their results, and bad selectors trap (R78, R87, R88, R94 to R97, R104,
R136 to R139). -/
namespace Sys2Proof.Machine

/-- An instruction whose result no shadow takes from its leader (R128): only its sources have effects besides the write. -/
theorem sourced_of_not_taken {i : Instr} (h : (rulesOf i).taken = false) (x : Ctx) (c : Enc) (left added : List LvEnt) (r : Row64)
    (s : State) : sourced x i c left added r s = commitSources x (rulesOf i) c left added s := by
  simp only [sourced, h, Bool.false_and, Bool.false_eq_true, if_false]

/-! ## Lane moves -/

/-- RDS of a number that R96 gives, whose result fits X. -/
theorem computes_rds (c : Enc) (h : rdsBad c = false) :
    Computes (.rds c) c false fun x _ l => BitVec.ofNat 64 (rdsVal x c.imm.toNat l) := by
  refine computes_of_body _ (fun s => exec_rds c s) fun x v s => ?_
  rw [h]
  rfl

/-- VOTE.mask: X takes the whole mask, and the latch, which holds its low word alone, is no register (R44, R137). -/
theorem computes_vote_mask (c : Enc) : Computes (.vote c .mask) c true fun x _ _ => voteMask x c := by
  intro s x v left added h
  obtain ⟨t, ht, hk⟩ := exec_of_fin (exec_vote c .mask s) h rfl
  refine ⟨t, ht, ?_⟩
  rw [sourced_of_not_taken rfl] at hk ⊢
  exact hk

theorem laneMovesComplete : Says.LaneMovesComplete := by
  intro i c wide f h
  cases i with
  | p2v c => cases h; exact computes_of_body _ (exec_p2v _) fun _ _ _ => rfl
  | rds c =>
    simp only [moveFn] at h
    split at h
    · cases h
    · next hs => cases h; exact computes_rds _ (Bool.eq_false_iff.2 hs)
  | smov c t => cases h; exact computes_of_body _ (exec_smov _ _) fun _ _ _ => rfl
  | vote c k =>
    cases k with
    | mask => cases h; exact computes_vote_mask _
    | _ => cases h
  | shfl c k t => cases h; exact computes_of_body _ (exec_shfl _ _ _) fun _ _ _ => rfl
  | lred c op rm t => cases h; exact computes_of_body _ (exec_lred _ _ _ _) fun _ _ _ => rfl
  | _ => cases h

/-! ## Predicates -/

/-- What R78 asks of an instruction that computes a predicate: the predicate that X names takes its bits in the lanes of `act`, unless NW
suppresses it, and everything but scheduling is kept. -/
def ComputesPred (i : Instr) (c : Enc) (f : Ctx → Srcs → Nat → Bool) : Prop :=
  ∀ s x v left added, Ready i c s x v left added →
    ∃ t, exec i s = .next t ∧
      Kept (commitSources x (rulesOf i) c left added
        (if c.nw then s else modGroup s x.core x.slot fun g => predGroup g (numOf c.x) x.act (maskOf (f x v)))) t

/-- An instruction whose own part computes a predicate completes with it. -/
theorem computesPred_of_body {i : Instr} {c : Enc} {f : Ctx → Srcs → Nat → Bool} (hn : (rulesOf i).taken = false)
    (body : Ctx → Srcs → State → Res) (he : ∀ s, exec i s = issue i c body s) (hb : ∀ x v s, body x v s = computeP x c (f x v) s) :
    ComputesPred i c f := by
  intro s x v left added h
  obtain ⟨t, ht, hk⟩ := exec_of_fin (he s) h (hb x v s)
  rw [sourced_of_not_taken hn] at hk
  exact ⟨t, ht, hk⟩

/-- VOTE with one bit for all lanes (R137). -/
theorem computesPred_vote (c : Enc) {k : VoteKind} (hk : k ≠ .mask) :
    ComputesPred (.vote c k) c fun x _ _ => voteBit k x.act (voteMask x c) :=
  computesPred_of_body rfl _ (exec_vote c k) fun _ _ _ => if_neg hk

theorem predicatesCompute : Says.PredicatesCompute := by
  intro i c f h
  cases i with
  | iset c cc t => cases h; exact computesPred_of_body rfl _ (exec_iset _ _ _) fun _ _ _ => rfl
  | plop c t => cases h; exact computesPred_of_body rfl _ (exec_plop _ _) fun _ _ _ => rfl
  | fset c cc t => cases h; exact computesPred_of_body rfl _ (exec_fset _ _ _) fun _ _ _ => rfl
  | vote c k =>
    cases k with
    | mask => cases h
    | every | some | same => cases h; exact computesPred_vote c (by decide)
  | _ => cases h

/-! ## Several predicates written in turn -/

/-- Distinct predicates written one after another, each once: every one of them has its own write and the others are as before. -/
theorem predRow_foldl_predGroup (m b : Nat → Lanes) {K : List Nat} (hK : K.Nodup) (g : Group) {j : Nat} (hj : j ≠ 7) :
    predRow (K.foldl (fun g k => predGroup g k (m k) (b k)) g) j =
      if j ∈ K then (predRow g j &&& ~~~m j) ||| (b j &&& m j) else predRow g j := by
  induction K generalizing g with
  | nil => rfl
  | cons k K ih =>
    obtain ⟨hk, hK⟩ := List.nodup_cons.1 hK
    rw [List.foldl_cons, ih hK]
    by_cases hjk : j = k
    · subst hjk
      simp [hk, predRow_predGroup, hj]
    · simp only [List.mem_cons, hjk, false_or, predRow_predGroup_ne g _ _ hjk]

theorem foldl_predGroup_frame (m b : Nat → Lanes) (K : List Nat) (g : Group) :
    { K.foldl (fun g k => predGroup g k (m k) (b k)) g with preds := [] } = { g with preds := [] } := by
  induction K generalizing g with
  | nil => rfl
  | cons k K ih => rw [List.foldl_cons, ih, predGroup_frame]

/-- One lane of a predicate after a write under a mask (R78): lanes outside it keep their bit. -/
theorem getLsbD_masked_write (old m b : Lanes) {l : Nat} (hl : l < 64) :
    ((old &&& ~~~m) ||| (b &&& m)).getLsbD l = if m.getLsbD l then b.getLsbD l else old.getLsbD l := by
  simp only [BitVec.getLsbD_or, BitVec.getLsbD_and, BitVec.getLsbD_not, hl, decide_true, Bool.true_and]
  cases m.getLsbD l <;> simp

/-! ## V2P -/

/-- V2P's own predicate k, lane by lane (R95). -/
theorem predRow_v2pGroup (act : Lanes) (y z : Row64) (g : Group) {k l : Nat} (hk : k < 7) (hl : l < 64) :
    (predRow (v2pGroup act y z g) k).getLsbD l =
      if act.getLsbD l && (lane64 z l).getLsbD k then (lane64 y l).getLsbD k else (predRow g k).getLsbD l := by
  rw [v2pGroup, predRow_foldl_predGroup (fun k => act &&& maskOf fun l => (lane64 z l).getLsbD k)
    (fun k => maskOf fun l => (lane64 y l).getLsbD k) List.nodup_range g (by omega), if_pos (List.mem_range.2 hk),
    getLsbD_masked_write _ _ _ hl, BitVec.getLsbD_and, maskOf_lane _ hl, maskOf_lane _ hl]

/-- V2P writes predicates alone (R95). -/
theorem v2pGroup_frame (act : Lanes) (y z : Row64) (g : Group) : { v2pGroup act y z g with preds := [] } = { g with preds := [] } :=
  foldl_predGroup_frame _ _ _ g

theorem predicatesFromRegister : Says.PredicatesFromRegister := by
  refine ⟨fun c s x v left added h => ?_, fun act y z g k l hk hl => predRow_v2pGroup act y z g hk hl, fun act y z g =>
    ⟨rfl, (congrArg Group.vregs (v2pGroup_frame act y z g) :), (congrArg Group.sregs (v2pGroup_frame act y z g) :)⟩⟩
  obtain ⟨t, ht, hk⟩ := exec_of_fin (exec_v2p c s) h rfl
  rw [sourced_of_not_taken rfl] at hk
  exact ⟨t, ht, hk⟩

/-! ## Bad selectors -/

theorem badSelectorsTrap : Says.BadSelectorsTrap := by
  refine ⟨fun c s x v left added h hs => ?_, fun c s x v left added h hs => ?_⟩
  · exact exec_of_trap (exec_bsel c s) h (by rw [hs]; rfl)
  · have hb : rdsBad c = true := by simpa [rdsBad] using hs
    exact exec_of_trap (exec_rds c s) h (if_pos hb)

/-- Settles O14: each instruction's own part is the row or the predicate of its table, V2P is its seven predicate writes in turn, and a bad
selector is found before anything is written. -/
theorem laneAndPredicateMoves : Obligations.LaneAndPredicateMoves :=
  ⟨laneMovesComplete, predicatesCompute, predicatesFromRegister, badSelectorsTrap⟩

end Sys2Proof.Machine
end
